-- ==== Sys2Proof/Word.lean ====
section
/-! DEFINITION. The word types of the AF-ONG6 (00 R5, R6) and the type of sparse tables. -/

namespace Sys2Proof

/-- One byte of memory, the SRF or the bench. -/
abbrev Byte := BitVec 8

/-- A 64-bit scalar, uniform or control register (R184, R233, R312). -/
abbrev Word := BitVec 64

/-- 128 bytes: an SRF or bench line, or one cluster's vector register (R73, R78, R244). -/
abbrev Line := BitVec 1024

/-- One vector register of all 16 clusters; cluster c holds bits [1024(c+1)-1 : 1024c]. -/
abbrev Wide := BitVec 16384

/-- One predicate register of all 16 clusters; cluster c holds bits [128(c+1)-1 : 128c] (R155). -/
abbrev WPred := BitVec 2048

/-- A number of a scalar register x0 to x31 (R146). -/
abbrev Reg := BitVec 5

/-- A sparse table: keys strictly rising, and no entry equal to the value an unlisted key has. -/
abbrev Tbl (α : Type) := List (Nat × α)

end Sys2Proof
end

