-- ==== Sys2Proof/Syntax.lean ====
section
/-! DEFINITION. The syntax of the AF-ONG6: `Instr` has one constructor for each row of the opcode table, the rows of
the SCP and Stoek words (06, 07, 08, 09, 12) first as the table orders them among the events (95). The slots of a kernel
bundle (06 R153, R154; 10; 11; 13 R303) are the types `UOp`, `VInstr`, `MOp` and `COp`; all of them lie inside the
row KERNEL_BUNDLE. An event's arguments are what the outside world or the order of steps chooses. -/

namespace Sys2Proof

/-- Who executes the next word: the SCP of a task, or the Stoek program of a task's STKRUN with this tag (R205).
A task is named by `256 * launch table entry + task index`. -/
inductive Agent where
  | scp (t : Nat)
  | stoek (t : Nat) (tag : Nat)
  deriving DecidableEq, Repr

/-- The conditions of R148. -/
inductive Cond where
  | eq | ne | lt | ge | ltu | geu | gt | le | gtu | leu
  deriving DecidableEq, Repr

/-- The access sizes of R147. -/
inductive Sz where
  | b | h | w | d
  deriving DecidableEq, Repr

/-- The ord field of R109. -/
inductive Ord where
  | none | acq | rel | ar
  deriving DecidableEq, Repr

/-- The scopes of R99. -/
inductive Scope where
  | g | k | h
  deriving DecidableEq, Repr

/-- The operations of AMO (R170, R202). -/
inductive AmoOp where
  | swap | add | and | or | xor | min | max | minu | maxu
  deriving DecidableEq, Repr

/-- The operations of RED (R170, R203), which reducing SSC and POOL.wadd apply too. -/
inductive RedOp where
  | add | fadd32 | fadd64 | min | max | or
  deriving DecidableEq, Repr

/-- The reduction of SSC (R222). -/
inductive SscOp where
  | store | add | fadd | min | max | or
  deriving DecidableEq, Repr

/-- How a loss of light comes to a package (R396): the monitor of one of its own laser units finds it; the far end of a global link
reports wavelengths dark; or the loss is at the far end, whose restripe sequence brings its new mask. -/
inductive LightLoss where
  | monitor
  | report (lost : BitVec 16)
  | restriped (mask : BitVec 16)
  deriving DecidableEq, Repr

/-- A packet of the fabric (R384, R385), header and body fields as numbers; `data` are the bytes of the data flits. -/
structure Packet where
  drank : BitVec 12
  dinc : BitVec 4
  srank : BitVec 12
  sinc : BitVec 4
  type : BitVec 4
  len : BitVec 4
  stage : Bool
  txid : BitVec 16
  body : BitVec 192
  data : List Byte
  deriving DecidableEq, Repr

/-- What a host access to a window does (R402): read, or write these bytes or this value. -/
inductive HostOp where
  | read (n : Nat)
  | write (bytes : List Byte)
  deriving DecidableEq, Repr

/-- A row of the opcode table. -/
inductive Instr where
  -- SCP scalar words (08); a Stoek core executes the subset of R151
  | add (d a b : Reg)
  | sub (d a b : Reg)
  | and (d a b : Reg)
  | or (d a b : Reg)
  | xor (d a b : Reg)
  | andn (d a b : Reg)
  | shl (d a b : Reg)
  | shr (d a b : Reg)
  | sha (d a b : Reg)
  | rot (d a b : Reg)
  | min (d a b : Reg)
  | max (d a b : Reg)
  | minu (d a b : Reg)
  | maxu (d a b : Reg)
  | cmp (c : Cond) (d a b : Reg)
  | sel (d a b c : Reg)
  | clz (d a : Reg)
  | ctz (d a : Reg)
  | popc (d a : Reg)
  | addi (d a : Reg) (imm : BitVec 16)
  | andi (d a : Reg) (imm : BitVec 16)
  | ori (d a : Reg) (imm : BitVec 16)
  | xori (d a : Reg) (imm : BitVec 16)
  | shli (d a : Reg) (n : BitVec 6)
  | shri (d a : Reg) (n : BitVec 6)
  | shai (d a : Reg) (n : BitVec 6)
  | cmpi (c : Cond) (d a : Reg) (imm : BitVec 12)
  | lih (d : Reg) (imm : BitVec 16)
  | lea (d a b : Reg) (sc : BitVec 3) (imm : BitVec 8)
  | bc (c : Cond) (a b : Reg) (off : BitVec 12)
  | j (off : BitVec 26)
  | jal (off : BitVec 26)
  | jr (a : Reg)
  | jalr (d a : Reg)
  | mul (d a b : Reg)
  | mulh (d a b : Reg)
  | mulhu (d a b : Reg)
  | div (d a b : Reg)
  | divu (d a b : Reg)
  | rem (d a b : Reg)
  | remu (d a b : Reg)
  | ldf (sz : Sz) (sx : Bool) (d a : Reg) (imm : BitVec 11)
  | stf (sz : Sz) (r a : Reg) (imm : BitVec 12)
  | ldp (sz : Sz) (sx : Bool) (ord : Ord) (d a : Reg) (imm : BitVec 11)
  | stp (sz : Sz) (ord : Ord) (r a : Reg) (imm : BitVec 12)
  | ldg (sz : Sz) (sx : Bool) (ord : Ord) (d a : Reg) (imm : BitVec 11)
  | stg (sz : Sz) (ord : Ord) (r a : Reg) (imm : BitVec 12)
  | ldh (sz : Sz) (sx : Bool) (ord : Ord) (d a : Reg) (imm : BitVec 11)
  | sth (sz : Sz) (ord : Ord) (r a : Reg) (imm : BitVec 12)
  | mfc (d a : Reg) (imm : BitVec 11)
  | mtc (r a : Reg) (imm : BitVec 12)
  | cas (dw : Bool) (ord : Ord) (host : Bool) (d a b : Reg)
  | amo (op : AmoOp) (dw : Bool) (ord : Ord) (host : Bool) (d a b : Reg)
  | red (op : RedOp) (dw : Bool) (ord : Ord) (a b : Reg)
  | mark (sc : Scope)
  | ipf (a : Reg) (n : BitVec 11)
  | hint (bits : BitVec 29)
  -- supervisory words (17)
  | trap (c : BitVec 8)
  | scall (c : BitVec 8)
  | eret
  | waite
  | halt
  | tlbi (a b : Reg)
  | tlbsync
  -- events of the SCP
  | streamFaultTrap (t : Nat)
  | deferredLoadFault (t : Nat)
  | loadBind (ag : Agent) (po : Nat)
  | haltComplete (t : Nat)
  -- long forms (09, 13)
  | tdset (d : Reg) (td : BitVec 6) (line : BitVec 15)
  | tdmov (d : Reg) (td : BitVec 6) (field : BitVec 5) (a : Reg)
  | tdget (d : Reg) (td : BitVec 6) (field : BitVec 5)
  | ringi (d : Reg) (n : BitVec 4) (a : Reg) (nslot slot1 : BitVec 9)
  | ringq (d : Reg) (n : BitVec 4)
  | sld (d : Reg) (td : BitVec 6) (line : BitVec 15) (rsz : BitVec 9) (rg e pad mmas : Bool) (a b : Reg)
  | sst (d : Reg) (td : BitVec 6) (line : BitVec 15) (rsz : BitVec 9) (rg e pad : Bool) (a b : Reg)
  | sga (d : Reg) (td : BitVec 6) (line : BitVec 15) (rsz : BitVec 9) (rg e : Bool) (a b : Reg)
  | ssc (op : SscOp) (d : Reg) (td : BitVec 6) (line : BitVec 15) (rsz : BitVec 9) (rg e : Bool) (a b : Reg)
  | scpy (d : Reg) (e drop : Bool) (linea lineb : BitVec 15) (rga rgb : Bool) (a : Reg)
  | krun (d : Reg) (kentry : BitVec 13) (a : Reg) (narg : BitVec 4) (t5 : Bool) (b : Reg)
  | kstat (d a : Reg)
  | sqstat (d a : Reg)
  | sqwait (a : Reg)
  | sqwaitAll
  | nbmv (d : Reg) (td : BitVec 6) (yline : BitVec 15) (acc : Bool) (a b : Reg)
  | descend (d : Reg) (td : BitVec 6) (l0 l1 : BitVec 5) (dg : BitVec 3) (pt mg lf : Bool) (a b : Reg)
  | stkrun (d : Reg) (n : BitVec 4) (a b : Reg)
  | stkrunNoring (d : Reg) (a b : Reg)
  | stkcan (a : Reg)
  | gjoin (g : BitVec 6)
  | gleave (g : BitVec 6)
  | gbar (g : BitVec 6)
  | stepArr
  | stepWait
  | stepQry (d : Reg) (full : Bool)
  -- events of the stream engine and the kernel sequencer
  | streamStart (t : Nat) (tag : Nat)
  | ringWaitSatisfied (t : Nat) (tag : Nat)
  | streamComplete (t : Nat) (tag : Nat)
  | kernelBundle (t : Nat)
  -- Stoek operations (12)
  | ixrd (app : Bool) (d a b : Reg)
  | rowld (td : BitVec 6) (line : BitVec 6) (w : BitVec 16) (a b : Reg)
  | ddup (d : Reg) (mt : Bool) (line : BitVec 6)
  | pool (isMax acc : Bool) (td : BitVec 6) (line : BitVec 6) (w : BitVec 16) (a b : Reg)
  | poolWadd (td : BitVec 6) (line : BitVec 6) (w : BitVec 16) (a b : Reg)
  | emit (e eos : Bool)
  | sqw (sz : Sz) (a b : Reg) (off : BitVec 13)
  | probe (td : BitVec 6) (w : BitVec 16) (a b : Reg)
  | unpin
  | skend
  | stoekPublish (t : Nat) (tag : Nat)
  -- memory controllers and the host interrupt
  | mcWriteAccept (ag : Agent)
  | mcWriteback (unit : Nat)
  | msixHoldoffExpiry
  -- dispatch unit
  | launchAdmit
  | taskPlace (pg : Nat)
  | shadowPreload (pg : Nat)
  | budgetExpiry (t : Nat)
  | drainLimitExpiry (t : Nat)
  | contextSaveComplete (t : Nat)
  | lqctlWrite (q : BitVec 4) (v : Word)
  | lqtailDoorbell (q : BitVec 4) (v : Word)
  | taskcmdTerminate (lg lidx : BitVec 8)
  | taskcmdRerun (lg lidx : BitVec 8)
  | taskcmdSave (lg lidx : BitVec 8)
  | quiesceStep
  | quiesceKernel
  | quiesceDone
  | resume
  | restore
  | greset (pgn : BitVec 6) (die : BitVec 2)
  | ctxPoolWrite (isN : Bool) (v : Word)
  | sfctlRetire (t : Nat)
  | wakeset (lg : BitVec 8)
  | stepnumWrite (v : Word)
  | stepqWrite (v : Word)
  | stepcfgWrite (v : Word)
  | evqctlWrite (v : Word)
  | registerWrite (num : BitVec 12) (v : Word)
  | hwsizeWrite (v : Word)
  | fctlWrite (v : Word)
  | deadset (rank : BitVec 12)
  | laserctlWrite (v : Word)
  | mrateWrite (stack : BitVec 4) (v : Word)
  | rateSwitchComplete (ch : Nat) (stallNs : BitVec 32)
  | kscmdLoad (v : Word)
  | kernelStoreCopy
  | tcbaseWrite (v : Word)
  | attReport (buf : BitVec 52)
  | attCertificate (buf : BitVec 52)
  -- host link, firmware, sensors
  | hostBar0Access (off : BitVec 16) (op : HostOp)
  | hostBar2Access (off : BitVec 36) (op : HostOp)
  | ucieModuleFail (m : BitVec 2)
  | powerOn (rank : BitVec 12) (incarnation : BitVec 4) (ptdir svecdef : Word)
  | sidebandImagePush (image : List Byte)
  | ageingCheck (die : BitVec 2) (newMv slackPs : BitVec 16) (starved : Bool)
  | tempSample (stack : BitVec 4) (layer : BitVec 4) (temp : BitVec 8)
  | refreshCommand (ch : Nat) (bank : BitVec 5) (firstRow count : BitVec 16)
  | rowPrecharge (ch : Nat) (bank : BitVec 5) (row : BitVec 16)
  | patrolScrub (unit : Nat)
  -- supersteps and fabric
  | stepWatchdogExpiry
  | treeArr (p : Packet)
  | treeDrain (p : Packet)
  | treeDrn (p : Packet)
  | treeCommit (p : Packet)
  | treeCmt (p : Packet)
  | treeRel (p : Packet)
  | rdreq (p : Packet)
  | rdrsp (p : Packet)
  | recv (p : Packet)
  | recack (p : Packet)
  | credit (p : Packet)
  | fabricRetry (txid : BitVec 16)
  | fabricTimeout (txid : BitVec 16)
  | flitReceive (port : BitVec 6) (seq : BitVec 12) (flit : BitVec 256) (good : Bool)
  | flitAck (port : BitVec 6) (seq : BitVec 12)
  | laserFailure (unit : BitVec 2) (how : LightLoss) (port : BitVec 6) (detectNs replayNs : BitVec 32)
  | restripeTimeout (port : BitVec 6)
  -- decode and fetch faults, host completions, membership, replay, flash
  | illopDecode
  | instructionFetchFault
  | hostCompletion (ag : Agent)
  | podmapWrite (i : BitVec 6) (v : Word)
  | linkReplay (port : BitVec 6)
  | sidebandFlashRewrite (image : List Byte)
  deriving DecidableEq, Repr

/-! ## Kernel bundle slots -/

/-- The element widths of VOTE, BRU and PMOV.first (R236): 8, 16, 32 or 64 bits. -/
abbrev WSel := BitVec 2

/-- The conditions of BRU (R237). -/
inductive BruCond where
  | always
  | nz (ka : BitVec 5)
  | z (ka : BitVec 5)
  | q (qa : BitVec 3)
  | nq (qa : BitVec 3)
  | p (w : WSel) (pa : BitVec 4)
  | np (w : WSel) (pa : BitVec 4)
  deriving DecidableEq, Repr

/-- The modes of VOTE (R236). -/
inductive VoteMode where
  | any | all | uni
  deriving DecidableEq, Repr

/-- The U slot (R174, R233 to R243). -/
inductive UOp where
  | kadd (kd ka kb : BitVec 5)
  | ksub (kd ka kb : BitVec 5)
  | kand (kd ka kb : BitVec 5)
  | kor (kd ka kb : BitVec 5)
  | kxor (kd ka kb : BitVec 5)
  | kshl (kd ka kb : BitVec 5)
  | kshr (arith : Bool) (kd ka kb : BitVec 5)
  | kmul (kd ka kb : BitVec 5)
  | kcmp (c : Cond) (kd ka kb : BitVec 5) (qd : Option (BitVec 3))
  | kmovi (kd : BitVec 5) (imm : BitVec 16)
  | kmoviSh (kd : BitVec 5) (imm : BitVec 16)
  | ksel (kd : BitVec 5) (qa : BitVec 3) (ka kb : BitVec 5)
  | kget (w64 : Bool) (kd : BitVec 5) (va : BitVec 8) (c : BitVec 4) (lane : BitVec 5)
  | vote (mode : VoteMode) (w : WSel) (qd : BitVec 3) (pa : BitVec 4) (kd : Option (BitVec 5))
  | bru (c : BruCond) (target : BitVec 13)
  | loop (kd : Option (BitVec 5)) (ka : BitVec 5) (last : BitVec 13)
  | looprp (kd ka : BitVec 5) (st : BitVec 3) (last : BitVec 13)
  | loopes (kd : Option (BitVec 5)) (n : BitVec 4) (last : BitVec 13)
  | kend
  | kflt (code : BitVec 8)
  | nop
  deriving DecidableEq, Repr

/-- The integer V-slot operations, in the order of their base codes 0x00, 0x04, ... (R175). -/
inductive IntOp where
  | vadd | vsub | vmul | vmulh | vmad | vmin | vmax | vabs | vand | vor | vxor | vshl | vshr | vsha
  | vcmp | vsel | vmov | vperm | vshf | vred
  deriving DecidableEq, Repr

/-- The floating-point V-slot operations, in the order of their base codes 0x50, 0x54, ... (R175). -/
inductive FltOp where
  | vfadd | vfsub | vfmul | vfma | vfmin | vfmax | vfcmp | vfsgn | vfrcp | vfrsq | vfexp2 | vflog2 | vfclp
  deriving DecidableEq, Repr

/-- A V-slot opcode: base operation and element format field f (R175). -/
inductive VOp where
  | int (op : IntOp) (f : BitVec 2)
  | flt (op : FltOp) (f : BitVec 2)
  | vcvt | vqbs | vdqbs | vunt | vpack | vunpk | plog | pmov | nchild | ppush | ptrd
  | nop
  deriving DecidableEq, Repr

/-- A V-slot instruction with the fields of R154. -/
structure VInstr where
  op : VOp
  vd : BitVec 8
  va : BitVec 8
  vb : BitVec 8
  vc : BitVec 8
  pge : Bool
  pg : BitVec 4
  rnd : BitVec 2
  fn : Bool
  deriving DecidableEq, Repr

/-- The formats of MMA (R176). -/
inductive MmaFmt where
  | fp64 | fp32 | bf16 | fp16 | e4m3 | e5m2 | i8
  deriving DecidableEq, Repr

/-- The M slot (R176, R256 to R260). -/
inductive MOp where
  | mma (f : MmaFmt) (md : BitVec 5) (va vb : BitVec 8)
  | mmas (md : BitVec 5) (va vb : BitVec 8) (ka kb : BitVec 5) (vc : BitVec 8)
  | mzero (md : BitVec 5)
  | mldv (all : Bool) (md : BitVec 5) (va : BitVec 8) (q : BitVec 3)
  | mstv (all : Bool) (va : BitVec 8) (md : BitVec 5) (q : BitVec 3)
  | nop
  deriving DecidableEq, Repr

/-- What RDR and RWR name (R263): a ring with wait count W (held as W - 1), or a bound stream with its round offset. -/
inductive Port where
  | ring (n : BitVec 4) (w1 : BitVec 4)
  | stream (st : BitVec 3) (roff : BitVec 4)
  deriving DecidableEq, Repr

/-- What RADV names (R267). -/
inductive AdvTarget where
  | ring (n : BitVec 4)
  | stream (st : BitVec 3)
  deriving DecidableEq, Repr

/-- The inter-cluster switch modes of XSW (R270). -/
inductive XswMode where
  | rot (m : BitVec 4)
  | xor (m : BitVec 4)
  | map (kx : BitVec 5)
  deriving DecidableEq, Repr

/-- The C slots (R177, R262 to R273). `kx = some k` is LK or K set. -/
inductive COp where
  | rdr (vd : BitVec 8) (p : Port) (kx : Option (BitVec 5)) (loff : BitVec 3)
  | rwr (va : BitVec 8) (p : Port) (kx : Option (BitVec 5)) (loff : BitVec 3)
  | radv (t : AdvTarget) (kx : Option (BitVec 5)) (a : BitVec 5)
  | reos (n : BitVec 4)
  | xsw (vr : BitVec 8) (m : XswMode)
  | xbc (vr : BitVec 8) (src : BitVec 4 ⊕ BitVec 5)
  | bld (vd : BitVec 8) (line : BitVec 7)
  | bst (va : BitVec 8) (line : BitVec 7)
  | srfl (vd : BitVec 8) (kx : BitVec 5) (n : BitVec 9)
  | srfs (va : BitVec 8) (kx : BitVec 5) (n : BitVec 9)
  | nop
  deriving DecidableEq, Repr

/-- A kernel bundle (R153): a slot whose present bit is clear is `none`. -/
structure Bundle where
  u : Option UOp
  v0 : Option VInstr
  v1 : Option VInstr
  m : Option MOp
  c0 : Option COp
  c1 : Option COp
  deriving DecidableEq, Repr

end Sys2Proof
end

