-- ==== Sys2Proof/WellFormed.lean ====
section
/-! DEFINITION. The checks an instruction's fields must pass to have an encoding (06 R147 to R149, 07 R166 to R172, 09, 12
R280), and the ranges of the events' arguments. -/

namespace Sys2Proof

/-- A ring operand is held in LINE[3:0] with LINE[14:4] zero (R149, shape T). -/
def ringLineOk (rg : Bool) (line : BitVec 15) : Bool := !rg || decide (line.toNat < 16)

/-- A port of the package: 31 local ones and 16 global ones, numbered 32 and up (R382, R383). -/
def portOk (p : BitVec 6) : Bool := decide (p.toNat < 48) && decide (p.toNat ≠ 31)

/-- The ranges of the fields that the words' layouts admit (R165, step 2). -/
def Instr.wellFormed : Instr → Bool
  | .ldf sz sx _ _ _ => !(sx && sz == .d)
  | .ldp sz sx _ _ _ _ => !(sx && sz == .d)
  | .ldg sz sx _ _ _ _ => !(sx && sz == .d)
  | .ldh sz sx _ _ _ _ => !(sx && sz == .d)
  | .red op dw _ _ _ => !(op == .fadd32 && dw) && !(op == .fadd64 && !dw)
  | .tdmov _ _ f _ => decide (f.toNat ≤ 28)
  | .tdget _ _ f => decide (f.toNat ≤ 29)
  | .sld _ _ line _ rg _ _ _ _ _ => ringLineOk rg line
  | .sst _ _ line _ rg _ _ _ _ => ringLineOk rg line
  | .sga _ _ line _ rg _ _ _ => ringLineOk rg line
  | .ssc _ _ _ line _ rg _ _ _ => ringLineOk rg line
  | .scpy _ _ _ la lb rga rgb _ => ringLineOk rga la && ringLineOk rgb lb
  | .krun _ _ _ narg _ _ => decide (narg.toNat ≤ 8)
  | .ddup _ mt line => mt || line == 0
  | .emit e eos => !(e && eos)
  | .mrateWrite st _ => decide (st.toNat < 12)
  | .rateSwitchComplete ch _ => decide (ch < 384)
  | .tempSample st _ _ => decide (st.toNat < 12)
  | .refreshCommand ch _ _ _ => decide (ch < 384)
  | .rowPrecharge ch _ _ => decide (ch < 384)
  | .flitReceive p _ _ _ => portOk p
  | .flitAck p _ => portOk p
  | .linkReplay p => portOk p
  | .restripeTimeout p => portOk p
  | .greset pgn _ => decide (pgn.toNat < 52)
  | _ => true

/-- The rows that are words: every row that an SCP or a Stoek core fetches. The others are events. -/
def Instr.isWord : Instr → Bool
  | .streamFaultTrap _ | .deferredLoadFault _ | .loadBind _ _ | .haltComplete _ | .streamStart _ _
  | .ringWaitSatisfied _ _ | .streamComplete _ _ | .kernelBundle _ | .stoekPublish _ _ | .mcWriteAccept _
  | .mcWriteback _ | .msixHoldoffExpiry | .launchAdmit | .taskPlace _ | .shadowPreload _ | .budgetExpiry _
  | .drainLimitExpiry _ | .contextSaveComplete _ | .lqctlWrite _ _ | .lqtailDoorbell _ _ | .taskcmdTerminate _ _
  | .taskcmdRerun _ _ | .taskcmdSave _ _ | .quiesceStep | .quiesceKernel | .quiesceDone | .resume | .restore
  | .greset _ _ | .ctxPoolWrite _ _ | .sfctlRetire _ | .wakeset _ | .stepnumWrite _ | .stepqWrite _
  | .stepcfgWrite _ | .evqctlWrite _ | .registerWrite _ _ | .hwsizeWrite _ | .fctlWrite _ | .deadset _
  | .laserctlWrite _ | .mrateWrite _ _ | .rateSwitchComplete _ _ | .kscmdLoad _ | .kernelStoreCopy | .tcbaseWrite _
  | .attReport _ | .attCertificate _ | .hostBar0Access _ _ | .hostBar2Access _ _ | .ucieModuleFail _
  | .powerOn _ _ _ _ | .sidebandImagePush _ | .ageingCheck _ _ _ _ | .tempSample _ _ _ | .refreshCommand _ _ _ _
  | .rowPrecharge _ _ _ | .patrolScrub _ | .stepWatchdogExpiry | .treeArr _ | .treeDrain _ | .treeDrn _
  | .treeCommit _ | .treeCmt _ | .treeRel _ | .rdreq _ | .rdrsp _ | .recv _ | .recack _ | .credit _
  | .fabricRetry _ | .fabricTimeout _ | .flitReceive _ _ _ _ | .flitAck _ _ | .laserFailure _ _ _ _ _
  | .restripeTimeout _ | .illopDecode | .instructionFetchFault | .hostCompletion _ | .podmapWrite _ _
  | .linkReplay _ | .sidebandFlashRewrite _ => false
  | _ => true

/-- The rows of major 0x35, which only a Stoek core executes (R151). -/
def Instr.isStoekOp : Instr → Bool
  | .ixrd _ _ _ _ | .rowld _ _ _ _ _ | .ddup _ _ _ | .pool _ _ _ _ _ _ _ | .poolWadd _ _ _ _ _ | .emit _ _
  | .sqw _ _ _ _ | .probe _ _ _ _ | .unpin | .skend => true
  | _ => false

/-- The words that take two 32-bit words (majors 0x30 to 0x37, R149). -/
def Instr.isLong : Instr → Bool
  | .tdset _ _ _ | .tdmov _ _ _ _ | .tdget _ _ _ | .ringi _ _ _ _ _ | .ringq _ _ | .sld _ _ _ _ _ _ _ _ _ _
  | .sst _ _ _ _ _ _ _ _ _ | .sga _ _ _ _ _ _ _ _ | .ssc _ _ _ _ _ _ _ _ _ | .scpy _ _ _ _ _ _ _ _
  | .krun _ _ _ _ _ _ | .kstat _ _ | .sqstat _ _ | .sqwait _ | .sqwaitAll | .nbmv _ _ _ _ _ _
  | .descend _ _ _ _ _ _ _ _ _ _ | .stkrun _ _ _ _ | .stkrunNoring _ _ _ | .stkcan _ | .gjoin _ | .gleave _
  | .gbar _ | .stepArr | .stepWait | .stepQry _ _ => true
  | i => i.isStoekOp

end Sys2Proof
end

