-- ==== Sys2Proof/Decode.lean ====
section
/-! DEFINITION. From bits to instructions and back. Words: 06 R145 to R149, 07 R165 to R172, 09, 12 R280, 13 R294, 17 R325.
Bundles: 06 R153, R154, 07 R173 to R178, 10, 11, 13 R303. Every reserved field is checked (R7). -/

namespace Sys2Proof

/-- Why a word or a bundle is no instruction. All of them raise ILLOP (words) or ILLBND (bundles). -/
inductive Reject where
  | short            -- fewer bytes than the instruction has
  | unassigned       -- a major, opcode, function or option value that names nothing (R166 to R178)
  | reservedField    -- a nonzero reserved field (R7)
  | badCond          -- a condition code without a meaning (R148)
  | badSize          -- a size, sign or ordering the instruction does not allow (R147, R109, R169)
  | badOperand       -- an operand field outside its range (R149, R224, R212)
  deriving DecidableEq, Repr

abbrev Dec (α : Type) := Except Reject α

/-- Continue when the check holds, else reject by name. -/
def need {α : Type} (c : Bool) (r : Reject) (k : Dec α) : Dec α := if c then k else .error r

/-- A field that must be zero (R7). -/
def zero {α : Type} {n : Nat} (f : BitVec n) (k : Dec α) : Dec α := need (f == 0) .reservedField k

/-! ## Codes of small fields -/

/-- R148. -/
def condOf (c : BitVec 4) : Option Cond :=
  match c.toNat with
  | 0 => some .eq | 1 => some .ne | 2 => some .lt | 3 => some .ge | 4 => some .ltu
  | 5 => some .geu | 6 => some .gt | 7 => some .le | 8 => some .gtu | 9 => some .leu
  | _ => none

def condCode : Cond → BitVec 4
  | .eq => 0 | .ne => 1 | .lt => 2 | .ge => 3 | .ltu => 4 | .geu => 5 | .gt => 6 | .le => 7 | .gtu => 8 | .leu => 9

/-- R147. -/
def szOf (c : BitVec 2) : Sz :=
  match c.toNat with
  | 0 => .b | 1 => .h | 2 => .w | _ => .d

def szCode : Sz → BitVec 2
  | .b => 0 | .h => 1 | .w => 2 | .d => 3

/-- R109. -/
def ordOf (c : BitVec 2) : Ord :=
  match c.toNat with
  | 0 => .none | 1 => .acq | 2 => .rel | _ => .ar

def ordCode : Ord → BitVec 2
  | .none => 0 | .acq => 1 | .rel => 2 | .ar => 3

/-- R170. -/
def amoOf (c : BitVec 4) : Option AmoOp :=
  match c.toNat with
  | 0 => some .swap | 1 => some .add | 2 => some .and | 3 => some .or | 4 => some .xor
  | 5 => some .min | 6 => some .max | 7 => some .minu | 8 => some .maxu
  | _ => none

def amoCode : AmoOp → BitVec 4
  | .swap => 0 | .add => 1 | .and => 2 | .or => 3 | .xor => 4 | .min => 5 | .max => 6 | .minu => 7 | .maxu => 8

/-- R170: fadd32 needs sz 10b and fadd64 needs sz 11b. -/
def redOf (c : BitVec 4) (dw : Bool) : Option RedOp :=
  match c.toNat with
  | 0 => some .add
  | 1 => if dw then none else some .fadd32
  | 2 => if dw then some .fadd64 else none
  | 3 => some .min | 4 => some .max | 5 => some .or
  | _ => none

def redCode : RedOp → BitVec 4
  | .add => 0 | .fadd32 => 1 | .fadd64 => 2 | .min => 3 | .max => 4 | .or => 5

/-- R222. -/
def sscOf (c : BitVec 3) : Option SscOp :=
  match c.toNat with
  | 0 => some .store | 1 => some .add | 2 => some .fadd | 3 => some .min | 4 => some .max | 5 => some .or
  | _ => none

def sscCode : SscOp → BitVec 3
  | .store => 0 | .add => 1 | .fadd => 2 | .min => 3 | .max => 4 | .or => 5

/-! ## Short words (R145 to R148, R166 to R171) -/

/-- Field [lo + n - 1 : lo] of a word. -/
abbrev fld (w : BitVec 32) (lo n : Nat) : BitVec n := w.extractLsb' lo n

/-- Major 0x01 (R167). -/
def decodeAlu (d a b : Reg) (op : BitVec 6) (aux : BitVec 5) : Dec Instr :=
  match op.toNat with
  | 0 => zero aux (.ok (.add d a b))
  | 1 => zero aux (.ok (.sub d a b))
  | 2 => zero aux (.ok (.and d a b))
  | 3 => zero aux (.ok (.or d a b))
  | 4 => zero aux (.ok (.xor d a b))
  | 5 => zero aux (.ok (.andn d a b))
  | 6 => zero aux (.ok (.shl d a b))
  | 7 => zero aux (.ok (.shr d a b))
  | 8 => zero aux (.ok (.sha d a b))
  | 9 => zero aux (.ok (.rot d a b))
  | 10 => zero aux (.ok (.min d a b))
  | 11 => zero aux (.ok (.max d a b))
  | 12 => zero aux (.ok (.minu d a b))
  | 13 => zero aux (.ok (.maxu d a b))
  | 14 => zero (aux.extractLsb' 4 1) (match condOf (aux.extractLsb' 0 4) with
      | some c => .ok (.cmp c d a b)
      | none => .error .badCond)
  | 15 => .ok (.sel d a b aux)
  | 16 => zero aux (zero b (.ok (.clz d a)))
  | 17 => zero aux (zero b (.ok (.ctz d a)))
  | 18 => zero aux (zero b (.ok (.popc d a)))
  | _ => .error .unassigned

/-- Major 0x0E (R168). -/
def decodeMul (d a b : Reg) (fn : BitVec 11) : Dec Instr :=
  match fn.toNat with
  | 0 => .ok (.mul d a b)
  | 1 => .ok (.mulh d a b)
  | 2 => .ok (.mulhu d a b)
  | 3 => .ok (.div d a b)
  | 4 => .ok (.divu d a b)
  | 5 => .ok (.rem d a b)
  | 6 => .ok (.remu d a b)
  | _ => .error .unassigned

/-- Majors 0x10 to 0x19 (R147): the M format, by the last four bits of the major. -/
def decodeMem (m : BitVec 4) (r a : Reg) (szf ordf : BitVec 2) (imm12 : BitVec 12) : Dec Instr :=
  let sz := szOf szf
  let ord := ordOf ordf
  let sx : Bool := imm12.getLsbD 11
  let imm11 := imm12.extractLsb' 0 11
  let sxOk : Bool := !(sx && szf == 3)
  match m.toNat with
  | 0 => need (ordf == 0 && sxOk) .badSize (.ok (.ldf sz sx r a imm11))
  | 1 => need (ordf == 0) .badSize (.ok (.stf sz r a imm12))
  | 2 => need sxOk .badSize (.ok (.ldp sz sx ord r a imm11))
  | 3 => .ok (.stp sz ord r a imm12)
  | 4 => need sxOk .badSize (.ok (.ldg sz sx ord r a imm11))
  | 5 => .ok (.stg sz ord r a imm12)
  | 6 => need sxOk .badSize (.ok (.ldh sz sx ord r a imm11))
  | 7 => .ok (.sth sz ord r a imm12)
  | 8 => need (szf == 3 && ordf == 0 && !sx) .badSize (.ok (.mfc r a imm11))
  | 9 => need (szf == 3 && ordf == 0) .badSize (.ok (.mtc r a imm12))
  | _ => .error .unassigned

/-- Majors 0x1A to 0x1C (R169, R170): the A format. -/
def decodeAtomic (m : BitVec 6) (d a b : Reg) (szf ordf : BitVec 2) (op : BitVec 4) (h : Bool) (low : BitVec 2) :
    Dec Instr :=
  let dw : Bool := szf == 3
  let ord := ordOf ordf
  need (szf.getLsbD 1) .badSize <| zero low <|
    match m.toNat with
    | 0x1A => need (op == 0) .unassigned (.ok (.cas dw ord h d a b))
    | 0x1B => match amoOf op with
      | some o => .ok (.amo o dw ord h d a b)
      | none => .error .unassigned
    | _ => need (!h) .unassigned <| zero d <|
      match redOf op dw with
      | some o => .ok (.red o dw ord a b)
      | none => .error .unassigned

/-- Major 0x20 (R168, R325). -/
def decodeSup (d a b : Reg) (f : BitVec 3) (c : BitVec 8) : Dec Instr :=
  zero d <| zero a <| zero b <|
    match f.toNat with
    | 0 => .ok (.trap c)
    | 1 => .ok (.scall c)
    | 2 => zero c (.ok .eret)
    | 3 => zero c (.ok .waite)
    | 4 => zero c (.ok .halt)
    | _ => .error .unassigned

/-- One 32-bit word whose major is below 0x30 (R166). -/
def decodeShort (w : BitVec 32) : Dec Instr :=
  let d : Reg := fld w 21 5
  let a : Reg := fld w 16 5
  let b : Reg := fld w 11 5
  let imm : BitVec 16 := fld w 0 16
  let fn : BitVec 11 := fld w 0 11
  let m : BitVec 6 := fld w 26 6
  match m.toNat with
  | 0x01 => decodeAlu d a b (fld w 5 6) (fld w 0 5)
  | 0x02 => .ok (.addi d a imm)
  | 0x03 => .ok (.andi d a imm)
  | 0x04 => .ok (.ori d a imm)
  | 0x05 => .ok (.xori d a imm)
  | 0x06 => zero (fld w 6 6) <|
    match (fld w 12 4).toNat with
    | 0 => .ok (.shli d a (fld w 0 6))
    | 1 => .ok (.shri d a (fld w 0 6))
    | 2 => .ok (.shai d a (fld w 0 6))
    | _ => .error .unassigned
  | 0x07 => match condOf (fld w 12 4) with
    | some c => .ok (.cmpi c d a (fld w 0 12))
    | none => .error .badCond
  | 0x08 => zero a (.ok (.lih d imm))
  | 0x09 => .ok (.lea d a b (fld w 8 3) (fld w 0 8))
  | 0x0A => match condOf (fld w 12 4) with
    | some c => .ok (.bc c d a (fld w 0 12))
    | none => .error .badCond
  | 0x0B => .ok (.j (fld w 0 26))
  | 0x0C => .ok (.jal (fld w 0 26))
  | 0x0D => zero b <|
    match fn.toNat with
    | 0 => zero d (.ok (.jr a))
    | 1 => .ok (.jalr d a)
    | _ => .error .unassigned
  | 0x0E => decodeMul d a b fn
  | 0x10 => decodeMem 0 d a (fld w 14 2) (fld w 12 2) (fld w 0 12)
  | 0x11 => decodeMem 1 d a (fld w 14 2) (fld w 12 2) (fld w 0 12)
  | 0x12 => decodeMem 2 d a (fld w 14 2) (fld w 12 2) (fld w 0 12)
  | 0x13 => decodeMem 3 d a (fld w 14 2) (fld w 12 2) (fld w 0 12)
  | 0x14 => decodeMem 4 d a (fld w 14 2) (fld w 12 2) (fld w 0 12)
  | 0x15 => decodeMem 5 d a (fld w 14 2) (fld w 12 2) (fld w 0 12)
  | 0x16 => decodeMem 6 d a (fld w 14 2) (fld w 12 2) (fld w 0 12)
  | 0x17 => decodeMem 7 d a (fld w 14 2) (fld w 12 2) (fld w 0 12)
  | 0x18 => decodeMem 8 d a (fld w 14 2) (fld w 12 2) (fld w 0 12)
  | 0x19 => decodeMem 9 d a (fld w 14 2) (fld w 12 2) (fld w 0 12)
  | 0x1A => decodeAtomic m d a (fld w 7 5) (fld w 14 2) (fld w 12 2) (fld w 3 4) (w.getLsbD 2) (fld w 0 2)
  | 0x1B => decodeAtomic m d a (fld w 7 5) (fld w 14 2) (fld w 12 2) (fld w 3 4) (w.getLsbD 2) (fld w 0 2)
  | 0x1C => decodeAtomic m d a (fld w 7 5) (fld w 14 2) (fld w 12 2) (fld w 3 4) (w.getLsbD 2) (fld w 0 2)
  | 0x1D => zero (fld w 2 24) <|
    match (fld w 0 2).toNat with
    | 0 => .ok (.mark .g)
    | 1 => .ok (.mark .k)
    | 2 => .ok (.mark .h)
    | _ => .error .unassigned
  | 0x1E => zero d (zero b (.ok (.ipf a fn)))
  | 0x20 => decodeSup d a b (fld w 8 3) (fld w 0 8)
  | 0x21 => zero d <|
    match fn.toNat with
    | 0 => .ok (.tlbi a b)
    | 1 => zero a (zero b (.ok .tlbsync))
    | _ => .error .unassigned
  | _ => need (fld w 29 3 == 5) .unassigned (.ok (.hint (fld w 0 29)))

/-! ## Long forms (R149, R150, R172) -/

/-- Major 0x30. -/
def decodeDesc (d a b : Reg) (fn : BitVec 6) (opt : BitVec 5) (w : BitVec 32) : Dec Instr :=
  match fn.toNat with
  | 0 => zero a <| zero b <| zero opt <| zero (fld w 0 11) <| .ok (.tdset d (fld w 26 6) (fld w 11 15))
  | 1 => zero b <| need (decide (opt.toNat ≤ 28)) .badOperand <| zero (fld w 0 26) <|
      .ok (.tdmov d (fld w 26 6) opt a)
  | 2 => zero a <| zero b <| need (decide (opt.toNat ≤ 29)) .badOperand <| zero (fld w 0 26) <|
      .ok (.tdget d (fld w 26 6) opt)
  | 3 => zero b <| zero (opt.extractLsb' 4 1) <| zero (fld w 18 14) <|
      .ok (.ringi d (opt.extractLsb' 0 4) a (fld w 9 9) (fld w 0 9))
  | 4 => zero a <| zero b <| zero (opt.extractLsb' 4 1) <| zero w <| .ok (.ringq d (opt.extractLsb' 0 4))
  | _ => .error .unassigned

/-- Major 0x31. -/
def decodeMove (d a b : Reg) (fn : BitVec 6) (opt : BitVec 5) (w : BitVec 32) : Dec Instr :=
  let td : BitVec 6 := fld w 26 6
  let line : BitVec 15 := fld w 11 15
  let rsz : BitVec 9 := fld w 2 9
  let rg : Bool := w.getLsbD 1
  let e : Bool := w.getLsbD 0
  match fn.toNat with
  | 0 => zero (opt.extractLsb' 2 3) <| need (ringLineOk rg line) .reservedField <|
      .ok (.sld d td line rsz rg e (opt.getLsbD 0) (opt.getLsbD 1) a b)
  | 1 => zero (opt.extractLsb' 1 4) <| need (ringLineOk rg line) .reservedField <|
      .ok (.sst d td line rsz rg e (opt.getLsbD 0) a b)
  | 2 => zero opt <| need (ringLineOk rg line) .reservedField <| .ok (.sga d td line rsz rg e a b)
  | 3 => zero (opt.extractLsb' 3 2) <| need (ringLineOk rg line) .reservedField <|
      match sscOf (opt.extractLsb' 0 3) with
      | some o => .ok (.ssc o d td line rsz rg e a b)
      | none => .error .unassigned
  | 4 => zero (opt.extractLsb' 2 3) <| zero b <|
      need (ringLineOk rg (fld w 17 15) && ringLineOk e (fld w 2 15)) .reservedField <|
      .ok (.scpy d (opt.getLsbD 0) (opt.getLsbD 1) (fld w 17 15) (fld w 2 15) rg e a)
  | _ => .error .unassigned

/-- Major 0x32. -/
def decodeKernel (d a b : Reg) (fn : BitVec 6) (opt : BitVec 5) (w : BitVec 32) : Dec Instr :=
  match fn.toNat with
  | 0 => zero opt <| zero (fld w 0 14) <| need (decide ((fld w 15 4).toNat ≤ 8)) .badOperand <|
      .ok (.krun d (fld w 19 13) a (fld w 15 4) (w.getLsbD 14) b)
  | 1 => zero b <| zero opt <| zero w <| .ok (.kstat d a)
  | _ => .error .unassigned

/-- Major 0x33. -/
def decodeEngine (d a b : Reg) (fn : BitVec 6) (opt : BitVec 5) (w : BitVec 32) : Dec Instr :=
  match fn.toNat with
  | 0 => zero (opt.extractLsb' 1 4) <| zero (fld w 0 11) <|
      .ok (.nbmv d (fld w 26 6) (fld w 11 15) (opt.getLsbD 0) a b)
  | 1 => zero (opt.extractLsb' 3 2) <| zero (fld w 0 13) <|
      .ok (.descend d (fld w 26 6) (fld w 21 5) (fld w 16 5) (fld w 13 3) (opt.getLsbD 0) (opt.getLsbD 1)
        (opt.getLsbD 2) a b)
  | 2 => zero opt <| zero (fld w 5 27) <|
      if w.getLsbD 4 then .ok (.stkrun d (fld w 0 4) a b) else zero (fld w 0 4) (.ok (.stkrunNoring d a b))
  | 3 => zero d <| zero b <| zero opt <| zero w <| .ok (.stkcan a)
  | _ => .error .unassigned

/-- Major 0x34. -/
def decodeSync (d a b : Reg) (fn : BitVec 6) (opt : BitVec 5) (w : BitVec 32) : Dec Instr :=
  match fn.toNat with
  | 0 => zero d <| zero b <| zero (opt.extractLsb' 1 4) <| zero w <|
      if opt.getLsbD 0 then zero a (.ok .sqwaitAll) else .ok (.sqwait a)
  | 1 => zero b <| zero opt <| zero w <| .ok (.sqstat d a)
  | 2 => zero d <| zero a <| zero b <| zero opt <| zero (fld w 6 26) <| .ok (.gjoin (fld w 0 6))
  | 3 => zero d <| zero a <| zero b <| zero opt <| zero (fld w 6 26) <| .ok (.gleave (fld w 0 6))
  | 4 => zero d <| zero a <| zero b <| zero opt <| zero (fld w 6 26) <| .ok (.gbar (fld w 0 6))
  | 5 => zero d <| zero a <| zero b <| zero opt <| zero w <| .ok .stepArr
  | 6 => zero d <| zero a <| zero b <| zero opt <| zero w <| .ok .stepWait
  | 7 => zero a <| zero b <| zero (opt.extractLsb' 1 4) <| zero w <| .ok (.stepQry d (opt.getLsbD 0))
  | _ => .error .unassigned

/-- Major 0x35 (R280). -/
def decodeStoek (d a b : Reg) (fn : BitVec 6) (opt : BitVec 5) (w : BitVec 32) : Dec Instr :=
  let td : BitVec 6 := fld w 26 6
  let line : BitVec 6 := fld w 20 6
  let wd : BitVec 16 := fld w 4 16
  match fn.toNat with
  | 0 => zero (opt.extractLsb' 1 4) <| zero w <| .ok (.ixrd (opt.getLsbD 0) d a b)
  | 1 => zero d <| zero opt <| zero (fld w 0 4) <| .ok (.rowld td line wd a b)
  | 2 => zero a <| zero b <| zero (opt.extractLsb' 1 4) <| zero (fld w 26 6) <| zero (fld w 0 20) <|
      need (opt.getLsbD 0 || line == 0) .reservedField <| .ok (.ddup d (opt.getLsbD 0) line)
  | 3 => zero d <| zero (opt.extractLsb' 3 2) <| zero (fld w 0 4) <|
      match (opt.extractLsb' 0 2).toNat with
      | 0 => .ok (.pool false (opt.getLsbD 2) td line wd a b)
      | 1 => .ok (.pool true (opt.getLsbD 2) td line wd a b)
      | 2 => need (!opt.getLsbD 2) .reservedField <| .ok (.poolWadd td line wd a b)
      | _ => .error .unassigned
  | 4 => zero d <| zero a <| zero b <| zero (opt.extractLsb' 2 3) <| zero w <|
      need (!(opt.getLsbD 0 && opt.getLsbD 1)) .reservedField <| .ok (.emit (opt.getLsbD 0) (opt.getLsbD 1))
  | 5 => zero d <| zero (opt.extractLsb' 2 3) <| zero (fld w 13 19) <|
      .ok (.sqw (szOf (opt.extractLsb' 0 2)) a b (fld w 0 13))
  | 6 => zero d <| zero opt <| zero line <| zero (fld w 0 4) <| .ok (.probe td wd a b)
  | 7 => zero d <| zero a <| zero b <| zero opt <| zero w <| .ok .unpin
  | 8 => zero d <| zero a <| zero b <| zero opt <| zero w <| .ok .skend
  | _ => .error .unassigned

/-- The majors of two words (R149): 0x30 to 0x37. -/
def isLongWord (w : BitVec 32) : Bool := fld w 29 3 == 6

/-- A long form from its two words. -/
def decodeLong (w0 w1 : BitVec 32) : Dec Instr :=
  let d : Reg := fld w0 21 5
  let a : Reg := fld w0 16 5
  let b : Reg := fld w0 11 5
  let fn : BitVec 6 := fld w0 5 6
  let opt : BitVec 5 := fld w0 0 5
  match (fld w0 26 3).toNat with
  | 0 => decodeDesc d a b fn opt w1
  | 1 => decodeMove d a b fn opt w1
  | 2 => decodeKernel d a b fn opt w1
  | 3 => decodeEngine d a b fn opt w1
  | 4 => decodeSync d a b fn opt w1
  | 5 => decodeStoek d a b fn opt w1
  | _ => .error .unassigned

/-- How many fn values a long major assigns, counting from 0 (R172). -/
def longFns : Nat → Nat
  | 0 => 5
  | 1 => 5
  | 2 => 2
  | 3 => 4
  | 4 => 8
  | 5 => 9
  | _ => 0

/-- Is the fn of a long form's first word one of its major's? Where it is not, the word after it is not examined (R172). -/
def longKnown (w : BitVec 32) : Bool := decide ((fld w 5 6).toNat < longFns (fld w 26 3).toNat)

/-- Is a long form's first word one of a Stoek operation, major 0x35 (R172)? -/
def longStoek (w : BitVec 32) : Bool := fld w 26 3 == 5

/-- The instruction of a first word and, for a long form, the word after it (R145, R149, R165 step 2). -/
def decodeWords (w0 w1 : BitVec 32) : Dec Instr :=
  if isLongWord w0 then decodeLong w0 w1 else decodeShort w0

/-- A word from its bytes, the lowest address first (R6). -/
def leWord (b0 b1 b2 b3 : Byte) : BitVec 32 := b3 ++ b2 ++ b1 ++ b0

/-- An instruction and the bytes after it; total on any bytes. -/
def decode : List Byte → Dec (Instr × List Byte)
  | b0 :: b1 :: b2 :: b3 :: rest =>
    let w0 := leWord b0 b1 b2 b3
    if isLongWord w0 then
      match rest with
      | c0 :: c1 :: c2 :: c3 :: rest' =>
        match decodeLong w0 (leWord c0 c1 c2 c3) with
        | .ok i => .ok (i, rest')
        | .error r => .error r
      | _ => .error .short
    else
      match decodeShort w0 with
      | .ok i => .ok (i, rest)
      | .error r => .error r
  | _ => .error .short

/-- The bytes of a number, n of them, the lowest first. -/
def leBytes : Nat → Nat → List Byte
  | 0, _ => []
  | n + 1, v => BitVec.ofNat 8 v :: leBytes n (v / 256)

/-- The instruction this decoder reads from an instruction whose bits are w, bit 0 the least significant bit of the first
word and the second word's bits from bit 32 on, both stored little-endian (R6, R145). -/
def decodeTableWord (_nbits w : Nat) : Option Instr :=
  match decode (leBytes 8 w) with
  | .ok (i, _) => some i
  | .error _ => none

/-! ## The encoder of words -/

/-- A register-format word (R145, R format). -/
def encR (m : BitVec 6) (d a b : Reg) (fn : BitVec 11) : List (BitVec 32) := [m ++ d ++ a ++ b ++ fn]

/-- The ALU word of R167. -/
def encAlu (d a b : Reg) (op : BitVec 6) (aux : BitVec 5) : List (BitVec 32) := [(1#6) ++ d ++ a ++ b ++ op ++ aux]

/-- An immediate-format word. -/
def encI (m : BitVec 6) (d a : Reg) (imm : BitVec 16) : List (BitVec 32) := [m ++ d ++ a ++ imm]

/-- An M-format word (R147). -/
def encM (m : BitVec 6) (r a : Reg) (sz ord : BitVec 2) (imm : BitVec 12) : List (BitVec 32) :=
  [m ++ r ++ a ++ sz ++ ord ++ imm]

/-- An M-format load: S above imm11 (R147). -/
def encL (m : BitVec 6) (r a : Reg) (sz ord : BitVec 2) (sx : Bool) (imm : BitVec 11) : List (BitVec 32) :=
  [m ++ r ++ a ++ sz ++ ord ++ BitVec.ofBool sx ++ imm]

/-- An A-format word (R169). -/
def encA (m : BitVec 6) (d a b : Reg) (dw : Bool) (ord : BitVec 2) (op : BitVec 4) (h : Bool) : List (BitVec 32) :=
  [m ++ d ++ a ++ (1#1) ++ BitVec.ofBool dw ++ ord ++ b ++ op ++ BitVec.ofBool h ++ (0#2)]

/-- A long form: the L0 word (R149) and the second word. -/
def encLong (m : BitVec 6) (d a b : Reg) (fn : BitVec 6) (opt : BitVec 5) (w : BitVec 32) : List (BitVec 32) :=
  [m ++ d ++ a ++ b ++ fn ++ opt, w]

/-- The second word of shape T (R149). -/
def shapeT (td : BitVec 6) (line : BitVec 15) (rsz : BitVec 9) (rg e : Bool) : BitVec 32 :=
  td ++ line ++ rsz ++ BitVec.ofBool rg ++ BitVec.ofBool e

/-- The descriptor-row layout RW of R280. -/
def shapeRW (td line : BitVec 6) (w : BitVec 16) : BitVec 32 := td ++ line ++ w ++ (0#4)

/-- The words of an instruction; an event has none. -/
def encode : Instr → List (BitVec 32)
  | .add d a b => encAlu d a b 0 0
  | .sub d a b => encAlu d a b 1 0
  | .and d a b => encAlu d a b 2 0
  | .or d a b => encAlu d a b 3 0
  | .xor d a b => encAlu d a b 4 0
  | .andn d a b => encAlu d a b 5 0
  | .shl d a b => encAlu d a b 6 0
  | .shr d a b => encAlu d a b 7 0
  | .sha d a b => encAlu d a b 8 0
  | .rot d a b => encAlu d a b 9 0
  | .min d a b => encAlu d a b 10 0
  | .max d a b => encAlu d a b 11 0
  | .minu d a b => encAlu d a b 12 0
  | .maxu d a b => encAlu d a b 13 0
  | .cmp c d a b => encAlu d a b 14 ((0#1) ++ condCode c)
  | .sel d a b c => encAlu d a b 15 c
  | .clz d a => encAlu d a 0 16 0
  | .ctz d a => encAlu d a 0 17 0
  | .popc d a => encAlu d a 0 18 0
  | .addi d a imm => encI 0x02 d a imm
  | .andi d a imm => encI 0x03 d a imm
  | .ori d a imm => encI 0x04 d a imm
  | .xori d a imm => encI 0x05 d a imm
  | .shli d a n => encI 0x06 d a ((0#4) ++ (0#6) ++ n)
  | .shri d a n => encI 0x06 d a ((1#4) ++ (0#6) ++ n)
  | .shai d a n => encI 0x06 d a ((2#4) ++ (0#6) ++ n)
  | .cmpi c d a imm => encI 0x07 d a (condCode c ++ imm)
  | .lih d imm => encI 0x08 d 0 imm
  | .lea d a b sc imm => encR 0x09 d a b (sc ++ imm)
  | .bc c a b off => encI 0x0A a b (condCode c ++ off)
  | .j off => [(0x0B#6) ++ off]
  | .jal off => [(0x0C#6) ++ off]
  | .jr a => encR 0x0D 0 a 0 0
  | .jalr d a => encR 0x0D d a 0 1
  | .mul d a b => encR 0x0E d a b 0
  | .mulh d a b => encR 0x0E d a b 1
  | .mulhu d a b => encR 0x0E d a b 2
  | .div d a b => encR 0x0E d a b 3
  | .divu d a b => encR 0x0E d a b 4
  | .rem d a b => encR 0x0E d a b 5
  | .remu d a b => encR 0x0E d a b 6
  | .ldf sz sx d a imm => encL 0x10 d a (szCode sz) 0 sx imm
  | .stf sz r a imm => encM 0x11 r a (szCode sz) 0 imm
  | .ldp sz sx o d a imm => encL 0x12 d a (szCode sz) (ordCode o) sx imm
  | .stp sz o r a imm => encM 0x13 r a (szCode sz) (ordCode o) imm
  | .ldg sz sx o d a imm => encL 0x14 d a (szCode sz) (ordCode o) sx imm
  | .stg sz o r a imm => encM 0x15 r a (szCode sz) (ordCode o) imm
  | .ldh sz sx o d a imm => encL 0x16 d a (szCode sz) (ordCode o) sx imm
  | .sth sz o r a imm => encM 0x17 r a (szCode sz) (ordCode o) imm
  | .mfc d a imm => encL 0x18 d a 3 0 false imm
  | .mtc r a imm => encM 0x19 r a 3 0 imm
  | .cas dw o h d a b => encA 0x1A d a b dw (ordCode o) 0 h
  | .amo op dw o h d a b => encA 0x1B d a b dw (ordCode o) (amoCode op) h
  | .red op dw o a b => encA 0x1C 0 a b dw (ordCode o) (redCode op) false
  | .mark .g => [(0x1D#6) ++ (0#24) ++ (0#2)]
  | .mark .k => [(0x1D#6) ++ (0#24) ++ (1#2)]
  | .mark .h => [(0x1D#6) ++ (0#24) ++ (2#2)]
  | .ipf a n => encR 0x1E 0 a 0 n
  | .hint bits => [(5#3) ++ bits]
  | .trap c => encR 0x20 0 0 0 ((0#3) ++ c)
  | .scall c => encR 0x20 0 0 0 ((1#3) ++ c)
  | .eret => encR 0x20 0 0 0 ((2#3) ++ (0#8))
  | .waite => encR 0x20 0 0 0 ((3#3) ++ (0#8))
  | .halt => encR 0x20 0 0 0 ((4#3) ++ (0#8))
  | .tlbi a b => encR 0x21 0 a b 0
  | .tlbsync => encR 0x21 0 0 0 1
  | .tdset d td line => encLong 0x30 d 0 0 0 0 (shapeT td line 0 false false)
  | .tdmov d td f a => encLong 0x30 d a 0 1 f (shapeT td 0 0 false false)
  | .tdget d td f => encLong 0x30 d 0 0 2 f (shapeT td 0 0 false false)
  | .ringi d n a ns s1 => encLong 0x30 d a 0 3 ((0#1) ++ n) ((0#14) ++ ns ++ s1)
  | .ringq d n => encLong 0x30 d 0 0 4 ((0#1) ++ n) 0
  | .sld d td line rsz rg e pad mm a b =>
      encLong 0x31 d a b 0 ((0#3) ++ BitVec.ofBool mm ++ BitVec.ofBool pad) (shapeT td line rsz rg e)
  | .sst d td line rsz rg e pad a b => encLong 0x31 d a b 1 ((0#4) ++ BitVec.ofBool pad) (shapeT td line rsz rg e)
  | .sga d td line rsz rg e a b => encLong 0x31 d a b 2 0 (shapeT td line rsz rg e)
  | .ssc op d td line rsz rg e a b => encLong 0x31 d a b 3 ((0#2) ++ sscCode op) (shapeT td line rsz rg e)
  | .scpy d e dr la lb rga rgb a =>
      encLong 0x31 d a 0 4 ((0#3) ++ BitVec.ofBool dr ++ BitVec.ofBool e)
        (la ++ lb ++ BitVec.ofBool rga ++ BitVec.ofBool rgb)
  | .krun d ke a n t5 b => encLong 0x32 d a b 0 0 (ke ++ n ++ BitVec.ofBool t5 ++ (0#14))
  | .kstat d a => encLong 0x32 d a 0 1 0 0
  | .sqstat d a => encLong 0x34 d a 0 1 0 0
  | .sqwait a => encLong 0x34 0 a 0 0 0 0
  | .sqwaitAll => encLong 0x34 0 0 0 0 1 0
  | .nbmv d td y acc a b => encLong 0x33 d a b 0 ((0#4) ++ BitVec.ofBool acc) (td ++ y ++ (0#11))
  | .descend d td l0 l1 dg pt mg lf a b =>
      encLong 0x33 d a b 1 ((0#2) ++ BitVec.ofBool lf ++ BitVec.ofBool mg ++ BitVec.ofBool pt)
        (td ++ l0 ++ l1 ++ dg ++ (0#13))
  | .stkrun d n a b => encLong 0x33 d a b 2 0 ((0#27) ++ (1#1) ++ n)
  | .stkrunNoring d a b => encLong 0x33 d a b 2 0 0
  | .stkcan a => encLong 0x33 0 a 0 3 0 0
  | .gjoin g => encLong 0x34 0 0 0 2 0 ((0#26) ++ g)
  | .gleave g => encLong 0x34 0 0 0 3 0 ((0#26) ++ g)
  | .gbar g => encLong 0x34 0 0 0 4 0 ((0#26) ++ g)
  | .stepArr => encLong 0x34 0 0 0 5 0 0
  | .stepWait => encLong 0x34 0 0 0 6 0 0
  | .stepQry d f => encLong 0x34 d 0 0 7 ((0#4) ++ BitVec.ofBool f) 0
  | .ixrd app d a b => encLong 0x35 d a b 0 ((0#4) ++ BitVec.ofBool app) 0
  | .rowld td line w a b => encLong 0x35 0 a b 1 0 (shapeRW td line w)
  | .ddup d mt line => encLong 0x35 d 0 0 2 ((0#4) ++ BitVec.ofBool mt) ((0#6) ++ line ++ (0#20))
  | .pool mx acc td line w a b =>
      encLong 0x35 0 a b 3 ((0#2) ++ BitVec.ofBool acc ++ (0#1) ++ BitVec.ofBool mx) (shapeRW td line w)
  | .poolWadd td line w a b => encLong 0x35 0 a b 3 2 (shapeRW td line w)
  | .emit e eos => encLong 0x35 0 0 0 4 ((0#3) ++ BitVec.ofBool eos ++ BitVec.ofBool e) 0
  | .sqw sz a b off => encLong 0x35 0 a b 5 ((0#3) ++ szCode sz) ((0#19) ++ off)
  | .probe td w a b => encLong 0x35 0 a b 6 0 (shapeRW td 0 w)
  | .unpin => encLong 0x35 0 0 0 7 0 0
  | .skend => encLong 0x35 0 0 0 8 0 0
  | .streamFaultTrap _ | .deferredLoadFault _ | .loadBind _ _ | .haltComplete _ | .streamStart _ _ | .ringWaitSatisfied _ _
  | .streamComplete _ _ | .kernelBundle _ | .stoekPublish _ _ | .mcWriteAccept _ | .mcWriteback _ | .msixHoldoffExpiry
  | .launchAdmit | .taskPlace _ | .shadowPreload _ | .budgetExpiry _ | .drainLimitExpiry _ | .contextSaveComplete _
  | .lqctlWrite _ _ | .lqtailDoorbell _ _ | .taskcmdTerminate _ _ | .taskcmdRerun _ _ | .taskcmdSave _ _ | .quiesceStep
  | .quiesceKernel | .quiesceDone | .resume | .restore | .greset _ _ | .ctxPoolWrite _ _ | .sfctlRetire _ | .wakeset _
  | .stepnumWrite _ | .stepqWrite _ | .stepcfgWrite _ | .evqctlWrite _ | .registerWrite _ _ | .hwsizeWrite _ | .fctlWrite _
  | .deadset _ | .laserctlWrite _ | .mrateWrite _ _ | .rateSwitchComplete _ _ | .kscmdLoad _ | .kernelStoreCopy
  | .tcbaseWrite _ | .attReport _ | .attCertificate _ | .hostBar0Access _ _ | .hostBar2Access _ _ | .ucieModuleFail _
  | .powerOn _ _ _ _ | .sidebandImagePush _ | .ageingCheck _ _ _ _ | .tempSample _ _ _ | .refreshCommand _ _ _ _
  | .rowPrecharge _ _ _ | .patrolScrub _ | .stepWatchdogExpiry | .treeArr _ | .treeDrain _ | .treeDrn _ | .treeCommit _
  | .treeCmt _ | .treeRel _ | .rdreq _ | .rdrsp _ | .recv _ | .recack _ | .credit _ | .fabricRetry _ | .fabricTimeout _
  | .flitReceive _ _ _ _ | .flitAck _ _ | .laserFailure _ _ _ _ _ | .restripeTimeout _ | .illopDecode
  | .instructionFetchFault | .hostCompletion _ | .podmapWrite _ _ | .linkReplay _ | .sidebandFlashRewrite _ => []

/-- The bytes of an instruction's words (R6). -/
def encodeBytes (i : Instr) : List Byte := (encode i).flatMap fun w => leBytes 4 w.toNat

end Sys2Proof
end

