-- ==== Sys2Proof/Machine/BundleCode.lean ====
section
/-! DEFINITION. Kernel bundles from bits and back (06 R153, R154; 07 R173 to R178; 10 R234 to R255; 11 R256 to R273; 13 R303).
Every header bit, absent slot, opcode and reserved field is checked before any other kernel fault (R165, R178): a rejected
bundle faults with ILLBND. -/

namespace Sys2Proof

/-- The number of elements of the widths 8, 16, 32, 64 named by a two-bit code. -/
def intWidth (f : BitVec 2) : Nat := 8 * 2 ^ f.toNat

/-- The width of floating-point operands named by f: fp64, fp32, bf16, fp16 (R175). -/
def fltWidth (f : BitVec 2) : Nat :=
  match f.toNat with
  | 0 => 64 | 1 => 32 | _ => 16

/-- The width in bits of an element of FMT code 0 to 13 (R87). -/
def fmtWidth (c : Nat) : Nat :=
  match c with
  | 0 => 64 | 1 => 32 | 2 => 16 | 3 => 16 | 4 => 8 | 5 => 8 | 6 => 8 | 7 => 8
  | 8 => 16 | 9 => 16 | 10 => 32 | 11 => 32 | 12 => 64 | 13 => 64 | 14 => 4 | _ => 8

/-! ## U slot (R174) -/

def decodeU (w : BitVec 32) : Dec UOp :=
  let kd := fld w 21 5
  let ka := fld w 16 5
  let kb := fld w 11 5
  let ctl := fld w 0 11
  match (fld w 26 6).toNat with
  | 0x00 => zero ctl (.ok (.kadd kd ka kb))
  | 0x01 => zero ctl (.ok (.ksub kd ka kb))
  | 0x02 => zero ctl (.ok (.kand kd ka kb))
  | 0x03 => zero ctl (.ok (.kor kd ka kb))
  | 0x04 => zero ctl (.ok (.kxor kd ka kb))
  | 0x05 => zero ctl (.ok (.kshl kd ka kb))
  | 0x06 => zero (fld w 1 10) (.ok (.kshr (w.getLsbD 0) kd ka kb))
  | 0x07 => zero ctl (.ok (.kmul kd ka kb))
  | 0x08 => zero (fld w 8 3) <|
      match condOf (fld w 0 4) with
      | some c => if w.getLsbD 7 then .ok (.kcmp c kd ka kb (some (fld w 4 3)))
                  else zero (fld w 4 3) (.ok (.kcmp c kd ka kb none))
      | none => .error .badCond
  | 0x09 =>
      match ka.toNat with
      | 0 => .ok (.kmovi kd (fld w 0 16))
      | 1 => .ok (.kmoviSh kd (fld w 0 16))
      | _ => .error .unassigned
  | 0x0A => zero (fld w 3 8) (.ok (.ksel kd (fld w 0 3) ka kb))
  | 0x0B => zero (fld w 0 3) <|
      .ok (.kget (w.getLsbD 3) kd (fld w 8 8) (fld w 4 4) ka)
  | 0x0C => zero (fld w 0 9) <| need (w.getLsbD 9 || kd == 0) .reservedField <|
      let kdo := if w.getLsbD 9 then some kd else none
      match (fld w 10 2).toNat with
      | 0 => .ok (.vote .any (fld w 15 2) (fld w 12 3) (fld w 17 4) kdo)
      | 1 => .ok (.vote .all (fld w 15 2) (fld w 12 3) (fld w 17 4) kdo)
      | 2 => .ok (.vote .uni (fld w 15 2) (fld w 12 3) (fld w 17 4) kdo)
      | _ => .error .unassigned
  | 0x0D => zero (fld w 13 3) <|
      let t := fld w 0 13
      let ws := fld w 16 2
      match (fld w 18 3).toNat with
      | 0 => zero ws <| zero kd <| .ok (.bru .always t)
      | 1 => zero ws <| .ok (.bru (.nz kd) t)
      | 2 => zero ws <| .ok (.bru (.z kd) t)
      | 3 => zero ws <| zero (fld w 24 2) <| .ok (.bru (.q (fld w 21 3)) t)
      | 4 => zero ws <| zero (fld w 24 2) <| .ok (.bru (.nq (fld w 21 3)) t)
      | 5 => zero (fld w 25 1) <| .ok (.bru (.p ws (fld w 21 4)) t)
      | 6 => zero (fld w 25 1) <| .ok (.bru (.np ws (fld w 21 4)) t)
      | _ => .error .unassigned
  | 0x0E => zero (fld w 13 2) <| need (w.getLsbD 15 || kd == 0) .reservedField <|
      .ok (.loop (if w.getLsbD 15 then some kd else none) ka (fld w 0 13))
  | 0x0F => .ok (.looprp kd ka (fld w 13 3) (fld w 0 13))
  | 0x10 => zero (fld w 13 2) <| zero (fld w 16 1) <| need (w.getLsbD 15 || kd == 0) .reservedField <|
      .ok (.loopes (if w.getLsbD 15 then some kd else none) (fld w 17 4) (fld w 0 13))
  | 0x11 => zero (fld w 0 26) (.ok .kend)
  | 0x12 => zero (fld w 8 18) (.ok (.kflt (fld w 0 8)))
  | 0x3F => zero (fld w 0 26) (.ok .nop)
  | _ => .error .unassigned

def uKab (op : BitVec 6) (kd ka kb : BitVec 5) (ctl : BitVec 11) : BitVec 32 := op ++ kd ++ ka ++ kb ++ ctl

def uBru (sel : BitVec 5) (csrc : BitVec 3) (w : BitVec 2) (t : BitVec 13) : BitVec 32 :=
  (0x0D#6) ++ sel ++ csrc ++ w ++ (0#3) ++ t

def optK (kd : Option (BitVec 5)) : BitVec 5 := kd.getD 0

def encodeU : UOp → BitVec 32
  | .kadd d a b => uKab 0x00 d a b 0
  | .ksub d a b => uKab 0x01 d a b 0
  | .kand d a b => uKab 0x02 d a b 0
  | .kor d a b => uKab 0x03 d a b 0
  | .kxor d a b => uKab 0x04 d a b 0
  | .kshl d a b => uKab 0x05 d a b 0
  | .kshr ar d a b => uKab 0x06 d a b ((0#10) ++ BitVec.ofBool ar)
  | .kmul d a b => uKab 0x07 d a b 0
  | .kcmp c d a b none => uKab 0x08 d a b ((0#7) ++ condCode c)
  | .kcmp c d a b (some q) => uKab 0x08 d a b ((0#3) ++ (1#1) ++ q ++ condCode c)
  | .kmovi d imm => (0x09#6) ++ d ++ (0#5) ++ imm
  | .kmoviSh d imm => (0x09#6) ++ d ++ (1#5) ++ imm
  | .ksel d q a b => uKab 0x0A d a b ((0#8) ++ q)
  | .kget w64 d va c l => (0x0B#6) ++ d ++ l ++ va ++ c ++ BitVec.ofBool w64 ++ (0#3)
  | .vote md w q pa kd =>
      let m : BitVec 2 := match md with | .any => 0 | .all => 1 | .uni => 2
      (0x0C#6) ++ optK kd ++ pa ++ w ++ q ++ m ++ BitVec.ofBool kd.isSome ++ (0#9)
  | .bru .always t => uBru 0 0 0 t
  | .bru (.nz k) t => uBru k 1 0 t
  | .bru (.z k) t => uBru k 2 0 t
  | .bru (.q q) t => uBru ((0#2) ++ q) 3 0 t
  | .bru (.nq q) t => uBru ((0#2) ++ q) 4 0 t
  | .bru (.p w p) t => uBru ((0#1) ++ p) 5 w t
  | .bru (.np w p) t => uBru ((0#1) ++ p) 6 w t
  | .loop kd a l => (0x0E#6) ++ optK kd ++ a ++ BitVec.ofBool kd.isSome ++ (0#2) ++ l
  | .looprp d a st l => (0x0F#6) ++ d ++ a ++ st ++ l
  | .loopes kd n l => (0x10#6) ++ optK kd ++ n ++ (0#1) ++ BitVec.ofBool kd.isSome ++ (0#2) ++ l
  | .kend => (0x11#6) ++ (0#26)
  | .kflt c => (0x12#6) ++ (0#18) ++ c
  | .nop => (0x3F#6) ++ (0#26)

/-! ## V slots (R175, R244) -/

def intOpOf (i : Nat) : Option IntOp :=
  match i with
  | 0 => some .vadd | 1 => some .vsub | 2 => some .vmul | 3 => some .vmulh | 4 => some .vmad | 5 => some .vmin
  | 6 => some .vmax | 7 => some .vabs | 8 => some .vand | 9 => some .vor | 10 => some .vxor | 11 => some .vshl
  | 12 => some .vshr | 13 => some .vsha | 14 => some .vcmp | 15 => some .vsel | 16 => some .vmov | 17 => some .vperm
  | 18 => some .vshf | 19 => some .vred
  | _ => none

def intOpCode : IntOp → BitVec 6
  | .vadd => 0 | .vsub => 1 | .vmul => 2 | .vmulh => 3 | .vmad => 4 | .vmin => 5 | .vmax => 6 | .vabs => 7
  | .vand => 8 | .vor => 9 | .vxor => 10 | .vshl => 11 | .vshr => 12 | .vsha => 13 | .vcmp => 14 | .vsel => 15
  | .vmov => 16 | .vperm => 17 | .vshf => 18 | .vred => 19

/-- Floating codes count on from 0x50 = 4 * 20. -/
def fltOpOf (i : Nat) : Option FltOp :=
  match i with
  | 20 => some .vfadd | 21 => some .vfsub | 22 => some .vfmul | 23 => some .vfma | 24 => some .vfmin
  | 25 => some .vfmax | 26 => some .vfcmp | 27 => some .vfsgn | 28 => some .vfrcp | 29 => some .vfrsq
  | 30 => some .vfexp2 | 31 => some .vflog2 | 32 => some .vfclp
  | _ => none

def fltOpCode : FltOp → BitVec 6
  | .vfadd => 20 | .vfsub => 21 | .vfmul => 22 | .vfma => 23 | .vfmin => 24 | .vfmax => 25 | .vfcmp => 26
  | .vfsgn => 27 | .vfrcp => 28 | .vfrsq => 29 | .vfexp2 => 30 | .vflog2 => 31 | .vfclp => 32

def vopOf (c : BitVec 8) : Option VOp :=
  match c.toNat with
  | 0x84 => some .vcvt | 0x85 => some .vqbs | 0x86 => some .vdqbs | 0x87 => some .vunt | 0x88 => some .vpack
  | 0x89 => some .vunpk | 0x8A => some .plog | 0x8B => some .pmov | 0x8C => some .nchild | 0x8D => some .ppush
  | 0x8E => some .ptrd | 0xFF => some .nop
  | n => match intOpOf (n / 4) with
    | some o => some (.int o (c.extractLsb' 0 2))
    | none => match fltOpOf (n / 4) with
      | some o => some (.flt o (c.extractLsb' 0 2))
      | none => none

def vopCode : VOp → BitVec 8
  | .int o f => intOpCode o ++ f
  | .flt o f => fltOpCode o ++ f
  | .vcvt => 0x84 | .vqbs => 0x85 | .vdqbs => 0x86 | .vunt => 0x87 | .vpack => 0x88 | .vunpk => 0x89
  | .plog => 0x8A | .pmov => 0x8B | .nchild => 0x8C | .ppush => 0x8D | .ptrd => 0x8E | .nop => 0xFF

/-- Bits [7:n] of an 8-bit field are zero. -/
def hiZero (n : Nat) (f : BitVec 8) : Bool := f >>> n == 0

/-- The static rules of an integer operation (R175, R246, R247). -/
def intLegal (o : IntOp) (f : BitVec 2) (i : VInstr) : Bool :=
  let fnOk := !i.fn || o == .vmulh || o == .vmin || o == .vmax || o == .vred
  let e := 1024 / intWidth f
  (i.rnd == 0 && fnOk) &&
  match o with
  | .vmad => true
  | .vabs => i.vb == 0 && i.vc == 0
  | .vcmp => hiZero 4 i.vc && (condOf (i.vc.extractLsb' 0 4)).isSome && hiZero 4 i.vd
  | .vsel => hiZero 4 i.vc
  | .vmov =>
    match i.vb.toNat with
    | 0 => i.vc == 0
    | 1 => hiZero 5 i.va && i.vc == 0
    | 2 => i.va == 0
    | 3 => i.va == 0
    | 4 => i.va == 0 && i.vc == 0
    | 5 => i.va == 0 && i.vc == 0
    | _ => false
  | .vshf => decide (i.vc.toNat ≤ e)
  | .vred => i.vb == 0 && hiZero 2 i.vc && !(i.vc == 3)
  | _ => i.vc == 0

/-- The static rules of a floating operation (R248). -/
def fltLegal (o : FltOp) (i : VInstr) : Bool :=
  !i.fn &&
  match o with
  | .vfadd => i.vc == 0
  | .vfsub => i.vc == 0
  | .vfmul => i.vc == 0
  | .vfma => true
  | .vfmin => i.vc == 0 && i.rnd == 0
  | .vfmax => i.vc == 0 && i.rnd == 0
  | .vfcmp => hiZero 3 i.vc && hiZero 4 i.vd && i.rnd == 0
  | .vfsgn => hiZero 2 i.vc && !(i.vc == 3) && i.rnd == 0
  | .vfclp => i.rnd == 0
  | _ => i.vb == 0 && i.vc == 0

/-- PART is below the ratio of the wider to the narrower width (R250). -/
def vcvtLegal (i : VInstr) : Bool :=
  let src := i.vc.toNat / 16
  let dst := i.vc.toNat % 16
  let ws := fmtWidth src
  let wd := fmtWidth dst
  let ratio := if wd > ws then wd / ws else ws / wd
  decide (src ≤ 13) && decide (dst ≤ 13) && decide (i.vb.toNat < ratio) && !i.fn

/-- The rules of a V-slot instruction's code and fields (R165): fields that must be zero and values that name nothing (log 29). -/
def vLegal (i : VInstr) : Bool :=
  let plain := i.rnd == 0 && !i.fn
  (i.pge || i.pg == 0) &&
  match i.op with
  | .int o f => intLegal o f i
  | .flt o _ => fltLegal o i
  | .vcvt => vcvtLegal i
  | .vqbs => plain && !i.pge && i.vc == 0 && hiZero 5 i.vb
  | .vdqbs => !i.fn && !i.pge && i.vc == 0 && hiZero 5 i.vb
  | .vunt => plain && i.vc == 0 && decide (i.vb.toNat ≤ 4)
  | .vpack => plain && hiZero 4 i.vc && !(i.vc.extractLsb' 2 2 == 3) &&
      (!(i.vc.extractLsb' 0 2 == 0) || i.vc.extractLsb' 2 2 == 1)
  | .vunpk => plain && hiZero 3 i.vc && hiZero 1 i.vb && (!(i.vc.extractLsb' 0 2 == 0) || i.vc.getLsbD 2)
  | .plog => plain && !i.pge && hiZero 4 i.vd && hiZero 4 i.va && hiZero 4 i.vb && decide (i.vc.toNat ≤ 5) &&
      (!(i.vc == 5) || i.vb == 0)
  | .pmov => plain && !i.pge && hiZero 5 i.vc && (i.vc.extractLsb' 0 3 == 5 || hiZero 3 i.vc) &&
      match (i.vc.extractLsb' 0 3).toNat with
      | 0 => hiZero 4 i.vd && hiZero 4 i.va && i.vb == 0
      | 1 => hiZero 4 i.vd && i.va == 0 && i.vb == 0
      | 2 => hiZero 4 i.vd && i.va == 0 && i.vb == 0
      | 3 => hiZero 4 i.vd && i.vb == 0
      | 4 => hiZero 4 i.va && i.vb == 0
      | 5 => hiZero 4 i.vd && i.va == 0 && hiZero 5 i.vb
      | _ => false
  | .nchild => i.rnd == 0 && i.vc == 0 && (i.fn || hiZero 4 i.vb)
  | .ppush => i.rnd == 0 && i.vc == 0 && hiZero 3 i.vd && hiZero 5 i.va && (i.fn || hiZero 4 i.vb)
  | .ptrd => plain && hiZero 3 i.va && decide (i.vc.toNat ≤ 2) && (if i.vc == 0 then i.vb == 0 else hiZero 5 i.vb)
  | .nop => plain && !i.pge && i.vd == 0 && i.va == 0 && i.vb == 0 && i.vc == 0

def decodeV (w : BitVec 48) : Dec VInstr :=
  match vopOf (w.extractLsb' 40 8) with
  | none => .error .unassigned
  | some op =>
    let i : VInstr :=
      { op := op, vd := w.extractLsb' 32 8, va := w.extractLsb' 24 8, vb := w.extractLsb' 16 8, vc := w.extractLsb' 8 8,
        pge := w.getLsbD 7, pg := w.extractLsb' 3 4, rnd := w.extractLsb' 1 2, fn := w.getLsbD 0 }
    need (vLegal i) .reservedField (.ok i)

def encodeV (i : VInstr) : BitVec 48 :=
  vopCode i.op ++ i.vd ++ i.va ++ i.vb ++ i.vc ++ BitVec.ofBool i.pge ++ i.pg ++ i.rnd ++ BitVec.ofBool i.fn

/-! ## M slot (R176, R256 to R260) -/

/-- K of R257 and the number of operand registers nA = nB, and the element width. -/
def mmaShape : MmaFmt → Nat × Nat × Nat
  | .fp64 => (64, 1, 1) | .fp32 => (32, 8, 4) | .bf16 => (16, 32, 8) | .fp16 => (16, 32, 8)
  | .e4m3 => (8, 64, 8) | .e5m2 => (8, 64, 8) | .i8 => (8, 64, 8)

def mmaFmtOf (c : Nat) : Option MmaFmt :=
  match c with
  | 0 => some .fp64 | 1 => some .fp32 | 2 => some .bf16 | 3 => some .fp16 | 4 => some .e4m3 | 5 => some .e5m2
  | 6 => some .i8
  | _ => none

def mmaFmtCode : MmaFmt → BitVec 6
  | .fp64 => 0 | .fp32 => 1 | .bf16 => 2 | .fp16 => 3 | .e4m3 => 4 | .e5m2 => 5 | .i8 => 6

def decodeM (w : BitVec 48) : Dec MOp :=
  let md : BitVec 5 := w.extractLsb' 37 5
  let va : BitVec 8 := w.extractLsb' 29 8
  let vb : BitVec 8 := w.extractLsb' 21 8
  let low : BitVec 21 := w.extractLsb' 0 21
  match (w.extractLsb' 42 6).toNat with
  | 0x07 => zero (w.extractLsb' 8 3) <|
      .ok (.mmas md va vb (w.extractLsb' 16 5) (w.extractLsb' 11 5) (w.extractLsb' 0 8))
  | 0x08 => zero va <| zero vb <| zero low <| .ok (.mzero md)
  | 0x09 => zero (w.extractLsb' 4 25) <| .ok (.mldv (w.getLsbD 3) md va (w.extractLsb' 0 3))
  | 0x0A => zero (w.extractLsb' 4 25) <| .ok (.mstv (w.getLsbD 3) va md (w.extractLsb' 0 3))
  | 0x3F => zero (w.extractLsb' 0 42) (.ok .nop)
  | n => match mmaFmtOf n with
    | some f => zero low <| .ok (.mma f md va vb)
    | none => .error .unassigned

def encodeM : MOp → BitVec 48
  | .mma f md va vb => mmaFmtCode f ++ md ++ va ++ vb ++ (0#21)
  | .mmas md va vb ka kb vc => (0x07#6) ++ md ++ va ++ vb ++ ka ++ kb ++ (0#3) ++ vc
  | .mzero md => (0x08#6) ++ md ++ (0#37)
  | .mldv all md va q => (0x09#6) ++ md ++ va ++ (0#25) ++ BitVec.ofBool all ++ q
  | .mstv all va md q => (0x0A#6) ++ md ++ va ++ (0#25) ++ BitVec.ofBool all ++ q
  | .nop => (0x3F#6) ++ (0#42)

/-! ## C slots (R177, R262 to R273) -/

/-- kx is used only when the flag is set, else it must be zero. -/
def kxOf {α : Type} (used : Bool) (kx : BitVec 5) (k : Option (BitVec 5) → Dec α) : Dec α :=
  if used then k (some kx) else zero kx (k none)

def decodePort (w : BitVec 32) : Dec Port :=
  if w.getLsbD 8 then zero (fld w 17 1) (.ok (.stream (fld w 14 3) (fld w 0 4)))
  else .ok (.ring (fld w 14 4) (fld w 0 4))

def decodeC (w : BitVec 32) : Dec COp :=
  let vr := fld w 18 8
  let ring := fld w 14 4
  let kx := fld w 9 5
  match (fld w 26 6).toNat with
  | 0x00 => match decodePort w with
    | .ok p => kxOf (w.getLsbD 7) kx fun k => .ok (.rdr vr p k (fld w 4 3))
    | .error r => .error r
  | 0x01 => match decodePort w with
    | .ok p => kxOf (w.getLsbD 7) kx fun k => .ok (.rwr vr p k (fld w 4 3))
    | .error r => .error r
  | 0x02 => zero vr <| zero (fld w 5 2) <|
      need (!w.getLsbD 7 || fld w 0 5 == 0) .reservedField <|
      kxOf (w.getLsbD 7) kx fun k =>
        if w.getLsbD 8 then zero (fld w 17 1) (.ok (.radv (.stream (fld w 14 3)) k (fld w 0 5)))
        else .ok (.radv (.ring ring) k (fld w 0 5))
  | 0x03 => zero vr <| zero (fld w 0 14) <| .ok (.reos ring)
  | 0x04 => zero ring <| zero (fld w 4 2) <|
      match (fld w 6 3).toNat with
      | 0 => zero kx <| .ok (.xsw vr (.rot (fld w 0 4)))
      | 1 => zero kx <| .ok (.xsw vr (.xor (fld w 0 4)))
      | 2 => zero (fld w 0 4) <| .ok (.xsw vr (.map kx))
      | _ => .error .unassigned
  | 0x05 => zero ring <| zero (fld w 4 4) <|
      if w.getLsbD 8 then zero (fld w 0 4) (.ok (.xbc vr (.inr kx))) else zero kx (.ok (.xbc vr (.inl (fld w 0 4))))
  | 0x06 => zero ring <| zero kx <| zero (fld w 7 2) <| .ok (.bld vr (fld w 0 7))
  | 0x07 => zero ring <| zero kx <| zero (fld w 7 2) <| .ok (.bst vr (fld w 0 7))
  | 0x08 => zero ring <| .ok (.srfl vr kx (fld w 0 9))
  | 0x09 => zero ring <| .ok (.srfs vr kx (fld w 0 9))
  | 0x3F => zero (fld w 0 26) (.ok .nop)
  | _ => .error .unassigned

def cWord (op : BitVec 6) (vr : BitVec 8) (ring : BitVec 4) (kx : BitVec 5) (imm : BitVec 9) : BitVec 32 :=
  op ++ vr ++ ring ++ kx ++ imm

def portRing : Port → BitVec 4
  | .ring n _ => n
  | .stream s _ => (0#1) ++ s

def portImm (p : Port) (kx : Option (BitVec 5)) (loff : BitVec 3) : BitVec 9 :=
  match p with
  | .ring _ w => (0#1) ++ BitVec.ofBool kx.isSome ++ loff ++ w
  | .stream _ r => (1#1) ++ BitVec.ofBool kx.isSome ++ loff ++ r

def encodeC : COp → BitVec 32
  | .rdr vd p kx l => cWord 0x00 vd (portRing p) (optK kx) (portImm p kx l)
  | .rwr va p kx l => cWord 0x01 va (portRing p) (optK kx) (portImm p kx l)
  | .radv (.ring n) kx a => cWord 0x02 0 n (optK kx) ((0#1) ++ BitVec.ofBool kx.isSome ++ (0#2) ++ a)
  | .radv (.stream s) kx a => cWord 0x02 0 ((0#1) ++ s) (optK kx) ((1#1) ++ BitVec.ofBool kx.isSome ++ (0#2) ++ a)
  | .reos n => cWord 0x03 0 n 0 0
  | .xsw vr (.rot m) => cWord 0x04 vr 0 0 ((0#3) ++ (0#2) ++ m)
  | .xsw vr (.xor m) => cWord 0x04 vr 0 0 ((1#3) ++ (0#2) ++ m)
  | .xsw vr (.map kx) => cWord 0x04 vr 0 kx ((2#3) ++ (0#6))
  | .xbc vr (.inl c) => cWord 0x05 vr 0 0 ((0#5) ++ c)
  | .xbc vr (.inr kx) => cWord 0x05 vr 0 kx ((1#1) ++ (0#8))
  | .bld vd l => cWord 0x06 vd 0 0 ((0#2) ++ l)
  | .bst va l => cWord 0x07 va 0 0 ((0#2) ++ l)
  | .srfl vd kx n => cWord 0x08 vd 0 kx n
  | .srfs va kx n => cWord 0x09 va 0 kx n
  | .nop => cWord 0x3F 0 0 0 0

/-! ## Bundles (R153) -/

/-- A slot: decoded when present; all its bits zero when absent. -/
def decodeSlot {α : Type} {n : Nat} (present : Bool) (w : BitVec n) (dec : BitVec n → Dec α) : Dec (Option α) :=
  if present then
    match dec w with
    | .ok x => .ok (some x)
    | .error r => .error r
  else zero w (.ok none)

def decodeBundle (w : BitVec 256) : Dec Bundle :=
  zero (w.extractLsb' 240 10) <|
  match decodeSlot (w.getLsbD 255) (w.extractLsb' 208 32) decodeU with
  | .error r => .error r
  | .ok u => match decodeSlot (w.getLsbD 254) (w.extractLsb' 160 48) decodeV with
    | .error r => .error r
    | .ok v0 => match decodeSlot (w.getLsbD 253) (w.extractLsb' 112 48) decodeV with
      | .error r => .error r
      | .ok v1 => match decodeSlot (w.getLsbD 252) (w.extractLsb' 64 48) decodeM with
        | .error r => .error r
        | .ok m => match decodeSlot (w.getLsbD 251) (w.extractLsb' 32 32) decodeC with
          | .error r => .error r
          | .ok c0 => match decodeSlot (w.getLsbD 250) (w.extractLsb' 0 32) decodeC with
            | .error r => .error r
            | .ok c1 => .ok { u := u, v0 := v0, v1 := v1, m := m, c0 := c0, c1 := c1 }

def slotBits {α : Type} {n : Nat} (s : Option α) (enc : α → BitVec n) : BitVec n :=
  match s with
  | some x => enc x
  | none => 0

def encodeBundle (b : Bundle) : BitVec 256 :=
  BitVec.ofBool b.u.isSome ++ BitVec.ofBool b.v0.isSome ++ BitVec.ofBool b.v1.isSome ++ BitVec.ofBool b.m.isSome ++
  BitVec.ofBool b.c0.isSome ++ BitVec.ofBool b.c1.isSome ++ (0#10) ++ slotBits b.u encodeU ++ slotBits b.v0 encodeV ++
  slotBits b.v1 encodeV ++ slotBits b.m encodeM ++ slotBits b.c0 encodeC ++ slotBits b.c1 encodeC

end Sys2Proof
end

