-- ==== Sys2Proof/Config.lean ====
section
/-! DEFINITION. What an AF-ONG6 part fixes and the spec leaves to silicon, fuses and named outside standards. Each is an
opaque constant: nothing can be proved of its value (log 2, log 4). -/

namespace Sys2Proof.Config

/-- DEVID.STEPPING, from fuses (R313). -/
opaque stepping : BitVec 8

/-- The harvest map: physical gnoum k of die d is number 64 d + k; true where it is fused out (R413). -/
opaque fusedOut : Nat → Bool

/-- A free choice within a set of outcomes the spec permits (R10), numbered by `State.freeCtr`. -/
opaque freeBit : Nat → Bool

/-- A free choice among several outcomes the spec permits (R10), numbered by `State.freeCtr`. -/
opaque freeNat : Nat → Nat

/-- How many of the slots that a virtual channel holds at the next hop an acknowledgement tells to be free again, by the number
of the choice (R387). -/
opaque slotsFreed : (choice vc : Nat) → Nat

/-- The laser units of the far end that feed a global port when it trains (R395). -/
opaque peerUnits : (port : Nat) → BitVec 4

/-- The class and merge width of a pod page of the home, given by its first byte and its size, that nothing known to the package maps, as a
place in the list of legal combinations of R130: no packet carries them. -/
opaque podClass : (base size : Nat) → Nat

/-- Whether such a page is one of 1 GiB, of 2 MiB or of 64 KiB, by the first byte of the span (R355, R360); it is one of 4 KiB otherwise. -/
opaque podSize : (base size : Nat) → Bool

/-- Byte i that a record's bytes leave in an apron, by its key and generation: the spec gives no layout there (R129). -/
opaque apronByte : (key gen i : Nat) → BitVec 8

/-- Whether a port trains at bring-up (R414). -/
opaque trained : (port : Nat) → Bool

/-- SHAKE256 with an output of the given number of bytes (R349, R405, R408, R412): a named standard. -/
opaque shake256 : List Byte → Nat → List Byte

/-- Ed448 verification of a signature over a message under a public key (R405, R408). -/
opaque ed448Verify : (key : List Byte) → (msg : List Byte) → (sig : List Byte) → Bool

/-- Ed448 signature by the device identity key (R412), of 114 bytes. -/
opaque identitySign : (msg : List Byte) → List Byte

/-- The digest of the firmware key held in ROM, 32 bytes (R406). -/
opaque romKeyDigest : List Byte

/-- Arhafort's certificate for the identity key, held in flash (R412). -/
opaque certificate : List Byte

end Sys2Proof.Config
end

