-- ==== Sys2Proof/Machine/Tables.lean ====
section
/-! DEFINITION. Sparse tables in one canonical form, and bytes in order (00 R5, R6). A table's keys rise strictly; a table
with a default value lists no entry equal to that default. -/

namespace Sys2Proof.Machine

/-- The listed value of a key. -/
def tfind {α : Type} : Tbl α → Nat → Option α
  | [], _ => none
  | (k, v) :: r, i => if k = i then some v else tfind r i

/-- The table without a key. -/
def tdel {α : Type} : Tbl α → Nat → Tbl α
  | [], _ => []
  | (k, v) :: r, i => if k = i then tdel r i else (k, v) :: tdel r i

/-- Insert before the first greater key. -/
def tins {α : Type} : Tbl α → Nat → α → Tbl α
  | [], i, x => [(i, x)]
  | (k, v) :: r, i, x => if i < k then (i, x) :: (k, v) :: r else (k, v) :: tins r i x

/-- List a value under a key, in place of what was listed. -/
def tput {α : Type} (t : Tbl α) (i : Nat) (x : α) : Tbl α := tins (tdel t i) i x

/-- The value of a key; `d` where it is not listed. -/
def tget {α : Type} (d : α) (t : Tbl α) (i : Nat) : α := (tfind t i).getD d

/-- Give a key a value; a value equal to the default is not listed. -/
def tset {α : Type} [DecidableEq α] (d : α) (t : Tbl α) (i : Nat) (x : α) : Tbl α :=
  if x = d then tdel t i else tput t i x

/-- The keys rise strictly. -/
def trising {α : Type} : Tbl α → Bool
  | [] => true
  | [_] => true
  | (a, _) :: (b, y) :: r => decide (a < b) && trising ((b, y) :: r)

/-- Canonical form for a default: keys rise strictly and no entry equals the default. -/
def twf {α : Type} [DecidableEq α] (d : α) (t : Tbl α) : Bool := trising t && t.all (fun e => decide (e.2 ≠ d))

/-! ## Memory: lists of (address, byte), an unlisted byte reads 0 (log 5) -/

/-- One byte. -/
def rdByte (m : List Host.Cell) (a : Nat) : Byte := tget 0 m a

/-- Write one byte. -/
def wrByte (m : List Host.Cell) (a : Nat) (b : Byte) : List Host.Cell := tset 0 m a b

/-- The canonical form of a memory. -/
def Memory.wf (m : List Host.Cell) : Bool := twf 0 m

/-- The bytes at a list of addresses. -/
def rdBytes (m : List Host.Cell) (as : List Nat) : List Byte := as.map (rdByte m)

/-- Write bytes at a list of addresses, in order: a later write to the same byte remains (R103). -/
def wrBytes (m : List Host.Cell) : List Nat → List Byte → List Host.Cell
  | a :: as, b :: bs => wrBytes (wrByte m a b) as bs
  | _, _ => m

/-- n consecutive addresses from a. -/
def addrs (a n : Nat) : List Nat := (List.range n).map (a + ·)

/-- The number a little-endian byte string holds (R6). -/
def leNat : List Byte → Nat
  | [] => 0
  | b :: bs => b.toNat + 256 * leNat bs

/-- n bytes from address a as a number. -/
def rdNat (m : List Host.Cell) (a n : Nat) : Nat := leNat (rdBytes m (addrs a n))

/-- Write the low n bytes of a number from address a. -/
def wrNat (m : List Host.Cell) (a n v : Nat) : List Host.Cell := wrBytes m (addrs a n) (leBytes n v)

/-- Write a byte string from address a. -/
def wrList (m : List Host.Cell) (a : Nat) (l : List Byte) : List Host.Cell := wrBytes m (addrs a l.length) l

/-! ## Fields of numbers and words -/

/-- Bits [hi:lo] of a number (R5). -/
def bits (v hi lo : Nat) : Nat := (v / 2 ^ lo) % 2 ^ (hi + 1 - lo)

/-- Bit n of a number is 1. -/
def bit (v n : Nat) : Bool := v.testBit n

/-- A number with bits [hi:lo] replaced. -/
def setBits (v hi lo x : Nat) : Nat :=
  v - (bits v hi lo) * 2 ^ lo + (x % 2 ^ (hi + 1 - lo)) * 2 ^ lo

/-- The signed value of the low w bits. -/
def signed (w v : Nat) : Int := (BitVec.ofNat w v).toInt

/-- A value modulo 2^w. -/
def wrap (w : Nat) (v : Int) : Nat := (v % ((2 ^ w : Nat) : Int)).toNat

/-- Element i of w bits of a byte string or vector held as a number (R6). -/
def elem (v w i : Nat) : Nat := (v / 2 ^ (w * i)) % 2 ^ w

/-- The number whose w-bit elements are these, the first lowest. -/
def packElems (w : Nat) : List Nat → Nat
  | [] => 0
  | x :: xs => x % 2 ^ w + packElems w xs * 2 ^ w

/-- Round up a division. -/
def ceilDiv (a b : Nat) : Nat := (a + b - 1) / b

/-- Replace the entry of a list at an index. -/
def listSet {α : Type} : List α → Nat → α → List α
  | [], _, _ => []
  | _ :: r, 0, y => y :: r
  | x :: r, n + 1, y => x :: listSet r n y

end Sys2Proof.Machine
end

