-- ==== Sys2Proof/Machine/Float.lean ====
section
/-! DEFINITION. Number formats and exact arithmetic (02 R45 to R55, R10 R249). A finite nonzero value is a sign, a magnitude m
and an exponent e, meaning m * 2^e; every operation forms the exact value and rounds once (R51). -/

namespace Sys2Proof.Machine

/-- A floating-point format (R46): width, fraction width, bias, and whether it has infinities. -/
structure FFmt where
  w : Nat
  fb : Nat
  bias : Nat
  hasInf : Bool
  deriving DecidableEq, Repr

def fp64 : FFmt := { w := 64, fb := 52, bias := 1023, hasInf := true }
def fp32 : FFmt := { w := 32, fb := 23, bias := 127, hasInf := true }
def fp16 : FFmt := { w := 16, fb := 10, bias := 15, hasInf := true }
def bf16 : FFmt := { w := 16, fb := 7, bias := 127, hasInf := true }
def e5m2 : FFmt := { w := 8, fb := 2, bias := 15, hasInf := true }
def e4m3 : FFmt := { w := 8, fb := 3, bias := 7, hasInf := false }

/-- All-ones exponent field. -/
def FFmt.emax (f : FFmt) : Nat := 2 ^ (f.w - 1 - f.fb) - 1

/-- The pattern of +infinity. -/
def FFmt.inf (f : FFmt) : Nat := f.emax * 2 ^ f.fb

/-- The pattern of the largest finite value (R46). -/
def FFmt.maxFin (f : FFmt) : Nat := if f.hasInf then f.inf - 1 else f.inf + 2 ^ f.fb - 2

/-- The canonical NaN (R46, R48). -/
def FFmt.nan (f : FFmt) : Nat := if f.hasInf then f.inf + 2 ^ (f.fb - 1) else f.inf + 2 ^ f.fb - 1

/-- A pattern with a sign. -/
def FFmt.withSign (f : FFmt) (s : Bool) (p : Nat) : Nat := if s then p + 2 ^ (f.w - 1) else p

/-- An exact value; `s` is true for a negative sign. -/
inductive FVal where
  | nan
  | inf (s : Bool)
  | zero (s : Bool)
  | fin (s : Bool) (m : Nat) (e : Int)
  deriving DecidableEq, Repr

/-- The value of a pattern (R47). -/
def FFmt.val (f : FFmt) (p : Nat) : FVal :=
  let s := bit p (f.w - 1)
  let e := bits p (f.w - 2) f.fb
  let m := p % 2 ^ f.fb
  if e = f.emax && f.hasInf then (if m = 0 then .inf s else .nan)
  else if e = f.emax && m = 2 ^ f.fb - 1 then .nan
  else if e = 0 then (if m = 0 then .zero s else .fin s m (1 - (f.bias : Int) - f.fb))
  else .fin s (2 ^ f.fb + m) ((e : Int) - f.bias - f.fb)

/-- The rounding modes of R51, with their codes. -/
inductive RMode where
  | rne | rtz | rup | rdn
  deriving DecidableEq, Repr

def rmodeOf (c : BitVec 2) : RMode :=
  match c.toNat with
  | 0 => .rne | 1 => .rtz | 2 => .rup | _ => .rdn

/-- The integer nearest m * 2^-d in a direction that the sign and mode choose. -/
def roundShift (rm : RMode) (s : Bool) (m d : Nat) : Nat :=
  let q := m / 2 ^ d
  let r := m % 2 ^ d
  match rm with
  | .rtz => q
  | .rup => if r ≠ 0 && !s then q + 1 else q
  | .rdn => if r ≠ 0 && s then q + 1 else q
  | .rne =>
      if d = 0 then q
      else if r > 2 ^ (d - 1) then q + 1
      else if r = 2 ^ (d - 1) then q + q % 2
      else q

/-- The magnitude pattern of m * 2^e rounded as if the exponent range had no upper bound (R51, R53): it exceeds `maxFin`
where the rounded value does. -/
def FFmt.roundMag (f : FFmt) (rm : RMode) (s : Bool) (m : Nat) (e : Int) : Nat :=
  let top : Int := e + Nat.log2 m
  let q : Int := (if top < 1 - (f.bias : Int) then 1 - (f.bias : Int) else top) - f.fb
  let r := if e ≥ q then m * 2 ^ (e - q).toNat else roundShift rm s m (q - e).toNat
  (q + f.fb + f.bias - 1).toNat * 2 ^ f.fb + r

/-- An arithmetic result in a format: overflow is resolved by mode (R52). -/
def FFmt.rnd (f : FFmt) (rm : RMode) : FVal → Nat
  | .nan => f.nan
  | .inf s => f.withSign s (if f.hasInf then f.inf else f.maxFin)
  | .zero s => f.withSign s 0
  | .fin s m e =>
      let p := f.roundMag rm s m e
      if p ≤ f.maxFin then f.withSign s p
      else
        let toInf := match rm with
          | .rne => true
          | .rtz => false
          | .rup => !s
          | .rdn => s
        f.withSign s (if toInf && f.hasInf then f.inf else f.maxFin)

/-- A conversion to a narrow floating format (R53): RNE, then saturation; the second component is SAT. -/
def FFmt.narrow (f : FFmt) : FVal → Nat × Bool
  | .nan => (f.nan, false)
  | .inf s => (f.withSign s f.maxFin, true)
  | .zero s => (f.withSign s 0, false)
  | .fin s m e =>
      let p := f.roundMag .rne s m e
      if p ≤ f.maxFin then (f.withSign s p, false) else (f.withSign s f.maxFin, true)

/-- The value of an integer. -/
def intVal (i : Int) : FVal := if i = 0 then .zero false else .fin (decide (i < 0)) i.natAbs 0

/-- Signed magnitude scaled to exponent e0, which is at most e. -/
def scaled (s : Bool) (m : Nat) (e e0 : Int) : Int :=
  let x : Int := m * 2 ^ (e - e0).toNat
  if s then -x else x

/-- Rebuild a value from a signed magnitude; an exact zero takes the sign of R49 for this mode. -/
def ofScaled (rm : RMode) (x : Int) (e0 : Int) : FVal :=
  if x = 0 then .zero (rm == .rdn) else .fin (decide (x < 0)) x.natAbs e0

/-- Exact sum (R48, R49). -/
def fvAdd (rm : RMode) : FVal → FVal → FVal
  | .nan, _ => .nan
  | _, .nan => .nan
  | .inf a, .inf b => if a = b then .inf a else .nan
  | .inf a, _ => .inf a
  | _, .inf b => .inf b
  | .zero a, .zero b => if a = b then .zero a else .zero (rm == .rdn)
  | .zero _, .fin s m e => .fin s m e
  | .fin s m e, .zero _ => .fin s m e
  | .fin s m e, .fin t n g =>
      let e0 := min e g
      ofScaled rm (scaled s m e e0 + scaled t n g e0) e0

/-- Sign flipped. -/
def fvNeg : FVal → FVal
  | .nan => .nan
  | .inf s => .inf (!s)
  | .zero s => .zero (!s)
  | .fin s m e => .fin (!s) m e

/-- Exact product (R48, R49). -/
def fvMul : FVal → FVal → FVal
  | .nan, _ => .nan
  | _, .nan => .nan
  | .inf _, .zero _ => .nan
  | .zero _, .inf _ => .nan
  | .inf a, .inf b => .inf (a != b)
  | .inf a, .fin s _ _ => .inf (a != s)
  | .fin s _ _, .inf a => .inf (a != s)
  | .zero a, .zero b => .zero (a != b)
  | .zero a, .fin s _ _ => .zero (a != s)
  | .fin s _ _, .zero a => .zero (a != s)
  | .fin s m e, .fin t n g => .fin (s != t) (m * n) (e + g)

def FVal.isNan : FVal → Bool
  | .nan => true
  | _ => false

/-- Numeric order of two values that are no NaNs; −0 equals +0. -/
def fvLt : FVal → FVal → Bool
  | .nan, _ => false
  | _, .nan => false
  | .inf a, .inf b => a && !b
  | .inf a, _ => a
  | _, .inf b => !b
  | .zero _, .zero _ => false
  | .zero _, .fin s _ _ => !s
  | .fin s _ _, .zero _ => s
  | .fin s m e, .fin t n g =>
      let e0 := min e g
      decide (scaled s m e e0 < scaled t n g e0)

/-- Numeric equality of two values that are no NaNs. -/
def fvEq (a b : FVal) : Bool := !a.isNan && !b.isNan && !fvLt a b && !fvLt b a

def FVal.isNeg : FVal → Bool
  | .nan => false
  | .inf s => s
  | .zero s => s
  | .fin s _ _ => s

/-- VFMIN and VFMAX on patterns (R50): −0 is below +0, a single NaN yields the other operand. -/
def FFmt.fmin (f : FFmt) (a b : Nat) : Nat :=
  let x := f.val a
  let y := f.val b
  if x.isNan && y.isNan then f.nan
  else if x.isNan then b
  else if y.isNan then a
  else if fvLt x y then a
  else if fvLt y x then b
  else if x.isNeg then a else b

def FFmt.fmax (f : FFmt) (a b : Nat) : Nat :=
  let x := f.val a
  let y := f.val b
  if x.isNan && y.isNan then f.nan
  else if x.isNan then b
  else if y.isNan then a
  else if fvLt x y then b
  else if fvLt y x then a
  else if x.isNeg then b else a

/-- The sum of two patterns rounded once. -/
def FFmt.add (f : FFmt) (rm : RMode) (a b : Nat) : Nat := f.rnd rm (fvAdd rm (f.val a) (f.val b))

/-! ## Reciprocal and reciprocal square root (R249) -/

/-- A magnitude with a sticky last bit: enough bits below the format's for any one rounding. -/
def stickyDiv (n d : Nat) : Nat := 2 * (n / d) + (if n % d = 0 then 0 else 1)

/-- 1 / a. -/
def fvRcp : FVal → FVal
  | .nan => .nan
  | .inf s => .zero s
  | .zero s => .inf s
  | .fin s m e =>
      let k := Nat.log2 m + 64
      .fin s (stickyDiv (2 ^ k) m) (-(k : Int) - e - 1)

/-- The integer square root by bits, from bit n - 1 down. -/
def isqrtGo : Nat → Nat → Nat → Nat
  | 0, _, r => r
  | n + 1, x, r =>
      let t := r + 2 ^ n
      if t * t ≤ x then isqrtGo n x t else isqrtGo n x r

def isqrt (x : Nat) : Nat := isqrtGo (Nat.log2 x / 2 + 1) x 0

/-- 1 / sqrt(a): the magnitude is made a square root of 2^(2k) / m with an even exponent. -/
def fvRsq : FVal → FVal
  | .nan => .nan
  | .inf s => if s then .nan else .zero false
  | .zero s => .inf s
  | .fin s m e =>
      if s then .nan
      else
        let me := if e % 2 = 0 then (m, e) else (2 * m, e - 1)
        let k := Nat.log2 me.1 + 64
        let q := 2 ^ (2 * k) / me.1
        let t := isqrt q
        let exact := t * t * me.1 = 2 ^ (2 * k)
        .fin false (2 * t + (if exact then 0 else 1)) (-(k : Int) - me.2 / 2 - 1)

/-! ## Base-2 exponential and logarithm (R249), from bounds at rising precision -/

/-- ln 2 in units of 2^-p, from below: sum of 1 / (k 2^k); each of n terms loses less than one unit. -/
def ln2Go (p : Nat) : Nat → Nat
  | 0 => 0
  | n + 1 => 2 ^ p / ((n + 1) * 2 ^ (n + 1)) + ln2Go p n

/-- Terms of the exponential series of x (units 2^-p), from term t on. -/
def expGo (p x : Nat) : Nat → Nat → Nat → Nat
  | 0, _, _ => 0
  | n + 1, k, t => t + expGo p x n (k + 1) (t * x / (2 ^ p * k))

/-- Bounds of 2^f for 0 ≤ f < 1 given in units of 2^-p, in units of 2^-p. -/
def exp2Bounds (p fl fh : Nat) : Nat × Nat :=
  let l := ln2Go p (p + 2)
  let xl := fl * l / 2 ^ p
  let xh := fh * (l + p + 4) / 2 ^ p + 1
  (expGo p xl (p / 2 + 8) 1 (2 ^ p), expGo p xh (p / 2 + 8) 1 (2 ^ p) + p + 32)

/-- 2^a for finite nonzero a at precision p: lower and upper magnitudes with their exponent. -/
def exp2At (p : Nat) (s : Bool) (m : Nat) (e : Int) : Nat × Nat × Int :=
  let lo : Nat := if e ≥ 0 then m * 2 ^ (e.toNat + p) else m * 2 ^ p / 2 ^ (-e).toNat
  let inexact : Nat := if e ≥ 0 || m * 2 ^ p % 2 ^ (-e).toNat = 0 then 0 else 1
  if s then
    -- a = -(lo .. lo + inexact): write a = n + f with n = -ceil
    let n : Int := -((ceilDiv (lo + inexact) (2 ^ p) : Nat) : Int)
    let base : Nat := (ceilDiv (lo + inexact) (2 ^ p)) * 2 ^ p
    let b := exp2Bounds p (base - (lo + inexact)) (base - lo)
    (b.1, b.2, n - p)
  else
    let n : Nat := lo / 2 ^ p
    let b := exp2Bounds p (lo % 2 ^ p) (lo % 2 ^ p + inexact)
    (b.1, b.2, (n : Int) - p)

/-- Terms of 2 atanh(z) = 2 (z + z^3/3 + ...), z in units of 2^-p. -/
def atanhGo (p z2 : Nat) : Nat → Nat → Nat → Nat
  | 0, _, _ => 0
  | n + 1, k, t => 2 * t / (2 * k + 1) + atanhGo p z2 n (k + 1) (t * z2 / 2 ^ p)

/-- Bounds of log2(m / 2^j), with 1 ≤ m / 2^j < 2, in units of 2^-p. -/
def log2Bounds (p m j : Nat) : Nat × Nat :=
  let num := m - 2 ^ j
  let den := m + 2 ^ j
  let z := num * 2 ^ p / den
  let lnLo := atanhGo p (z * z / 2 ^ p) (p / 3 + 4) 0 z
  let lnHi := lnLo + 8 * p + 64
  let l := ln2Go p (p + 2)
  (lnLo * 2 ^ p / (l + p + 4), lnHi * 2 ^ p / l + 1)

/-- Round bounds in a format; where both ends round alike that is the rounded value. -/
def roundBounds (f : FFmt) (rm : RMode) (s : Bool) (lo hi : Nat) (e : Int) : Nat × Bool :=
  let a := f.rnd rm (.fin s (2 * lo + 1) (e - 1))
  let b := f.rnd rm (.fin s (2 * hi + 1) (e - 1))
  (a, a == b && lo ≠ 0)

/-- The first precision whose bounds round alike; the last one's lower bound otherwise (log 20). -/
def tryPrecisions (g : Nat → Nat × Bool) : List Nat → Nat
  | [] => 0
  | [p] => (g p).1
  | p :: ps => if (g p).2 then (g p).1 else tryPrecisions g ps

/-- The precisions tried. -/
def precisions : List Nat := [128, 320, 1400]

/-- VFEXP2 of a value in a format (R249). -/
def FFmt.exp2 (f : FFmt) (rm : RMode) : FVal → Nat
  | .nan => f.nan
  | .inf s => if s then 0 else f.inf
  | .zero _ => f.rnd rm (.fin false 1 0)
  | .fin s m e =>
      -- an integer (or one beyond every range) is exact
      if e ≥ 0 || m % 2 ^ (-e).toNat = 0 then
        let i : Nat := if e ≥ 20 then 2 ^ 20 else if e ≥ 0 then min (m * 2 ^ e.toNat) (2 ^ 20) else min (m / 2 ^ (-e).toNat) (2 ^ 20)
        f.rnd rm (.fin false 1 (if s then -(i : Int) else i))
      else if (Nat.log2 m : Int) + e ≥ 20 then f.rnd rm (.fin false 1 (if s then -(2 ^ 20) else 2 ^ 20))
      else
        tryPrecisions (fun p =>
          let b := exp2At p s m e
          roundBounds f rm false b.1 b.2.1 b.2.2) precisions

/-- VFLOG2 of a value in a format (R249). -/
def FFmt.log2 (f : FFmt) (rm : RMode) : FVal → Nat
  | .nan => f.nan
  | .inf s => if s then f.nan else f.inf
  | .zero _ => f.withSign true f.inf
  | .fin s m e =>
      if s then f.nan
      else
        let j := Nat.log2 m
        let n : Int := e + j
        if m = 2 ^ j then f.rnd rm (match intVal n with | .zero _ => .zero false | v => v)
        else
          tryPrecisions (fun p =>
            let b := log2Bounds p m j
            if n ≥ 0 then roundBounds f rm false (n.toNat * 2 ^ p + b.1) (n.toNat * 2 ^ p + b.2) (-(p : Int))
            else
              -- n + log2 < 0: its magnitude is -n - log2
              let a := (-n).toNat * 2 ^ p
              roundBounds f rm true (a - b.2) (a - b.1) (-(p : Int))) precisions

/-! ## To integers (R53, R54) -/

/-- The integer nearest a value in a mode; none for a NaN, an infinity gives `.inr` of its sign. -/
def fvToInt (rm : RMode) : FVal → Option (Int ⊕ Bool)
  | .nan => none
  | .inf s => some (.inr s)
  | .zero _ => some (.inl 0)
  | .fin s m e =>
      let r : Nat := if e ≥ 0 then m * 2 ^ (min e 2048).toNat else roundShift rm s m (-e).toNat
      some (.inl (if s then -(r : Int) else r))

/-- Clamp to a range; the second component is whether it clamped. -/
def clampInt (lo hi x : Int) : Int × Bool :=
  if x < lo then (lo, true) else if x > hi then (hi, true) else (x, false)

/-- Bounds of an integer type of w bits (R45). -/
def intLo (sg : Bool) (w : Nat) : Int := if sg then -(2 ^ (w - 1)) else 0
def intHi (sg : Bool) (w : Nat) : Int := if sg then 2 ^ (w - 1) - 1 else 2 ^ w - 1

/-- A value as an integer of w bits, saturating at the ends of the type's range (R45), which for i8 are −128 and 127 (log 16); the second
component is SAT. -/
def fvToIntSat (rm : RMode) (sg : Bool) (w : Nat) (v : FVal) : Nat × Bool :=
  match fvToInt rm v with
  | none => (0, true)
  | some (.inr s) => (wrap w (if s then intLo sg w else intHi sg w), true)
  | some (.inl i) => let c := clampInt (intLo sg w) (intHi sg w) i; (wrap w c.1, c.2)

end Sys2Proof.Machine
end

