-- ==== Sys2Proof/Machine/State.lean ====
section
/-! DEFINITION. The state of one AF-ONG6 package, as plain data, and the state after package reset. INVENTORY.md lists every
field with the rule of the spec that names it. Sparse tables (`Tbl`) list only what differs from the value an unlisted key has. -/

namespace Sys2Proof.Machine

/-- Why the model stops. -/
inductive Fault where
  /-- A page-table walk, or a unit that is given a physical address by a control register, reaches a physical address that
  is not memory of this package (R353). Raised by the walker and by the physical reads and writes of the dispatch unit and
  the management core. Safe: the model stops where the spec gives no value. -/
  | noMemory (pa : Nat)
  deriving DecidableEq, Repr

/-- Why the model gives an instruction no meaning. -/
inductive Refusal where
  /-- The instruction of this mnemonic is not modelled yet. Raised by an arm of `exec` only. Safe: no step is taken. -/
  | notModelled (mnemonic : String)
  deriving DecidableEq, Repr

/-- The translated spaces, with the SPACE codes 0, 1, 2 (R70, R86). -/
inductive Space where
  | package | pod | host
  deriving DecidableEq, Repr

/-- What is known of a fault: its code (R209), the faulting virtual address where R419 gives one, and whether the access was
a write (ECAUSE.WR, R315). -/
structure FaultInfo where
  code : BitVec 8
  va : Option Word
  wr : Bool
  deriving DecidableEq, Repr

/-! ## Memory queues (04 R101 to R112) -/

/-- A scalar load that has not bound: what it writes, and its bytes' physical addresses in ascending order of virtual address.
`got` holds snapshot bytes that came from remote homes (R385). -/
structure ScalarLoad where
  space : Space
  sz : Sz
  sx : Bool
  d : Reg
  va : Word
  pas : List Nat
  pc : Word
  got : Tbl Byte
  deriving DecidableEq, Repr

/-- A load entry: a scalar load, or the load entry of the started stream instruction with this tag. -/
inductive LoadKind where
  | scalar (l : ScalarLoad)
  | stream (tag : Nat)
  deriving DecidableEq, Repr

/-- `po` is the place in program order; the list that holds the entry gives the place in the load queue. -/
structure LoadEntry where
  po : Nat
  kind : LoadKind
  acq : Bool
  rel : Bool
  begun : Bool
  deriving DecidableEq, Repr

/-- The read-modify-write operations of a memory controller (R111, R112). -/
inductive Rmw where
  | cas (expected : Word)
  | amo (op : AmoOp)
  | red (op : RedOp)
  deriving DecidableEq, Repr

/-- What a store entry does when it performs. -/
inductive StoreKind where
  /-- STP or STH at pc: the bytes to store. -/
  | store (space : Space) (va : Word) (pas : List Nat) (data : List Byte) (pc : Word)
  /-- CAS, AMO or RED at physical address `pa`. -/
  | rmw (op : Rmw) (dw host : Bool) (d : Reg) (b : Word) (va : Word) (pa : Nat) (pc : Word)
  /-- STG: the bytes to record, the leaf entry of each byte, and the apron bytes it reserved (R139, R198). -/
  | stg (va : Word) (pas : List Nat) (data : List Byte) (ptes : List Nat) (resv : Nat)
  /-- POOL.wadd at pc: the virtual address, physical address and 32-bit operand of each reduction in element order (R286). -/
  | reds (op : RedOp) (els : List (Nat × Nat × BitVec 32)) (pc : Word)
  /-- The store entry of the stream instruction with this tag. -/
  | stream (tag : Nat)
  deriving DecidableEq, Repr

/-- `atK`: performed at scope k, not yet at scope h (a host store that the host port accepted, R100). `begun`: some element
has performed. -/
structure StoreEntry where
  po : Nat
  kind : StoreKind
  acq : Bool
  rel : Bool
  begun : Bool
  atK : Bool
  deriving DecidableEq, Repr

/-- What executes words: registers, pc and memory queues of an SCP or of a Stoek program (R101, R114, R274). `xbad`: registers whose
check code finds an error, 1 correctable, 2 uncorrectable (R323, R376). -/
structure Hart where
  xs : Tbl Word
  xbad : Tbl Nat
  pc : Word
  loads : List LoadEntry
  stores : List StoreEntry
  marks : List (Nat × Scope)
  po : Nat
  deriving DecidableEq, Repr

/-! ## Streams (03, 09) -/

/-- A tensor descriptor: 64-byte image, origins, VALID (R86). -/
structure Desc where
  image : BitVec 512
  orgs : Tbl (BitVec 32)
  valid : Bool
  deriving DecidableEq, Repr

/-- A ring (R79). -/
structure Ring where
  cfg : Bool
  base : Nat
  slotsz : Nat
  nslot : Nat
  filled : Nat
  free : Nat
  head : Nat
  tail : Nat
  eos : BitVec 256
  deriving DecidableEq, Repr

/-- A pinned page: virtual page base, its size, and the translation of the base (R96, R366). -/
structure Pin where
  va : Nat
  size : Nat
  pa : Nat
  pte : Word
  deriving DecidableEq, Repr

/-- A queued stream instruction that has not completed (R21, R23, R207, R340, R350). `tag` is its issue number within the task;
its tag of R22 is that number modulo 64. `started`: it has left the queue; `running`: its checks have passed; `entered`: its load
entry has entered the load queue (R101, R118); `begun`: an
SCPY has still to publish the end-of-stream slot it met; `ended`: its effect is whole and only
completion is left; `asked`: when an STKRUN asked for a core; `descs`: entries as an STKRUN must see them (R278); `got`: bytes
from remote homes by physical address, or bytes taken from a ring for a pod store by their place in element order. -/
structure QInstr where
  tag : Nat
  ins : Instr
  pc : Word
  po : Nat
  modeS : Bool
  ops : List Word
  blk : List Byte
  started : Bool
  running : Bool
  entered : Bool
  begun : Bool
  ended : Bool
  asked : Nat
  resume : Nat
  count : Nat
  desc : Desc
  descs : Tbl Desc
  pins : List Pin
  resv : Nat
  fault : Option FaultInfo
  taken : Bool
  got : Tbl Byte
  deriving DecidableEq, Repr

/-- Status word, DPC, DVA and DVAV of a tag (R210, R320). -/
structure TagInfo where
  status : Word
  dpc : Word
  dva : Word
  dvav : Bool
  deriving DecidableEq, Repr

/-! ## Kernels (10, 11) -/

/-- The kinds of loop (R32). -/
inductive LoopKind where
  | counted (count : Nat)
  | ptr (first count : Nat)
  | eos (ring : Nat)
  deriving DecidableEq, Repr

/-- A loop stack entry (R238). -/
structure LoopEntry where
  start : Nat
  last : Nat
  kind : LoopKind
  iter : Nat
  kd : Option Nat
  deriving DecidableEq, Repr

/-- A result in flight: the register it is for, its bits, and which bits it writes (R155, R156). -/
inductive LandVal where
  | k (r : Nat) (v : Word)
  | q (r : Nat) (v : Bool)
  | v (r : Nat) (val mask : Wide)
  | p (r : Nat) (val mask : WPred)
  | m (r : Nat) (val mask : BitVec 131072)
  | d (r : Nat) (val mask : Wide)
  deriving DecidableEq, Repr

/-- The result lands at the end of the bundle issued `left` bundles from now; 0 is the current bundle. -/
structure Landing where
  left : Nat
  val : LandVal
  deriving DecidableEq, Repr

/-- One entry of a KRUN's binding block (R224). -/
structure Binding where
  line : Nat
  size : Nat
  count : Nat
  kind : BitVec 2
  deriving DecidableEq, Repr

/-- The sticky flags (R55). -/
structure Flags where
  inv : Bool
  sat : Bool
  i4bad : Bool
  t5bad : Bool
  deriving DecidableEq, Repr

/-- Kernel-array state of the running KRUN (R25, R339). `loopWait` holds the END bundle whose LOOPES check waits (R242); `entry` is the
safe-point entry it was saved at (R350). `vbad`, `mbad` and `bbad`: vector registers, accumulators and bench lines whose check code
finds an error, 1 correctable, 2 uncorrectable (R323). -/
structure Kernel where
  tag : Nat
  pc : Nat
  t5trap : Bool
  count : Nat
  binds : List Binding
  cons : BitVec 16
  prod : BitVec 16
  k : Tbl Word
  q : Tbl Bool
  v : Tbl Wide
  p : Tbl WPred
  m : Tbl (BitVec 131072)
  bench : Tbl Wide
  loops : List LoopEntry
  flags : Flags
  g : Tbl Word
  seen : Tbl Nat
  inflight : List Landing
  occV0 : Nat
  occV1 : Nat
  occM : Nat
  loopWait : Option Nat
  entry : List Byte
  vbad : Tbl Nat
  mbad : Tbl Nat
  bbad : Tbl Nat
  deriving DecidableEq, Repr

/-! ## Stoek programs (12) -/

/-- An entry of the delivery queue (R289). -/
inductive Delivery where
  | tile (bytes : List Byte)
  | mark
  deriving DecidableEq, Repr

/-- How a Stoek program is ending: SKEND executed, a fault, a cancellation (R230, R290, R291). -/
inductive StoekEnd where
  | running
  | skend
  | fault (code : BitVec 8) (dpc : Word) (dva : Option Word)
  | cancel
  deriving DecidableEq, Repr

/-- A running Stoek program (R274). `core`: it holds one of the 96 Stoek cores (R229, R275); one that has been saved asks again. -/
structure Stoek where
  tag : Nat
  core : Bool
  ring : Option Nat
  hart : Hart
  ix : Tbl (BitVec 32)
  ixn : Nat
  map : Tbl (BitVec 16)
  tile : Tbl Byte
  delivery : List Delivery
  pins : List Pin
  triples : List (Nat × Nat × Nat)
  published : Nat
  descs : Tbl Desc
  modeS : Bool
  ending : StoekEnd
  deriving DecidableEq, Repr

/-! ## Tasks (01, 17, 18) -/

/-- Where a task stands (R334 to R341). -/
inductive Run where
  /-- Not placed; the save slot of its context, none before the first placement. -/
  | ready (slot : Option Nat)
  | placed (pg : Nat)
  /-- Being drained: the SCP stops in mode U; `late` after the first DRAINLIM (R338). The save slot it will take; none when a
  quiesce saves it and no slot is free. -/
  | draining (pg : Nat) (late : Bool) (slot : Option Nat)
  /-- The context streams to this save slot (R337); the physical gnoum it still holds. -/
  | saving (pg : Option Nat) (slot : Option Nat)
  deriving DecidableEq, Repr

/-- Supervisory context registers (R312). -/
structure Sup where
  mode : Bool
  pmode : Bool
  exl : Bool
  ecause : Word
  epc : Word
  efpc : Word
  eva : Word
  ssave0 : Word
  ssave1 : Word
  ssave2 : Word
  ssave3 : Word
  svec : Word
  dtag : BitVec 6
  pend : Bool
  deriving DecidableEq, Repr

/-- A selector of a TLBI that no TLBSYNC has followed (R329): KIND, ASID and the address of KIND 0; whether every unit has removed
the selected entries, and the pending scalar accesses that used a selected entry which is no longer there (R330). -/
structure TlbSel where
  kind : BitVec 2
  asid : BitVec 16
  va : Nat
  removed : Bool
  uses : List (Agent × Nat)
  deriving DecidableEq, Repr

/-- A task (R16, R18, R350). `fresh`: not placed yet, so R18 applies at its placement. `readyAt` and `since`: readings of the dispatch
unit's clock, when it became ready (R334) and when its budget or its drain limit began (R335, R338). `doubled`: a double fault has stopped its SCP (R318). `deferred`: late faults of loads, CAS and AMO
that are not taken yet, in the order they arose (R392). `sbad`, `dbad` and `rbad`: SRF lines, descriptors and rings whose check code finds an
error, 1 correctable, 2 uncorrectable (R323). -/
structure Task where
  launch : Nat
  index : Nat
  lg : Nat
  foot : Nat
  stepm : Bool
  asid : BitVec 16
  gpermit : Word
  prio : Nat
  budget : Nat
  run : Run
  readySeq : Nat
  readyAt : Nat
  since : Nat
  fresh : Bool
  hart : Hart
  sup : Sup
  /-- Its groups, each with its arrived bit (R33). -/
  groups : List (Nat × Bool)
  /-- Groups in which it has arrived by a GBAR that has not completed, with the address of that GBAR (R36, R420). -/
  owed : List (Nat × Word)
  /-- The group whose GBAR the SCP waits at, having arrived (a trap that abandons the wait clears it, R420). -/
  gbarWait : Option Nat
  /-- The SCP waits at a STEP.WAIT after its arrival. -/
  inStepWait : Bool
  /-- A STEP.ARR arrived at a boundary and no STEP.WAIT has completed since: that STEP.WAIT waits for this boundary only (R135, R420). -/
  stepOwed : Bool
  /-- It has taken STEPFULL of an STG and has not run in mode U since (R139, R316). -/
  full : Bool
  arrived : Bool
  counted : Bool
  seq : Nat
  halting : Bool
  doubled : Bool
  deferred : List (FaultInfo × Word)
  srf : Tbl Line
  descs : Tbl Desc
  rings : Tbl Ring
  tags : Tbl TagInfo
  nextTag : Nat
  dregs : Tbl Wide
  sq : List QInstr
  kern : Option Kernel
  ksaved : Bool
  stoeks : List Stoek
  sbad : Tbl Nat
  dbad : Tbl Nat
  rbad : Tbl Nat
  deriving DecidableEq, Repr

/-! ## Dispatch unit (18) -/

/-- An admitted launch (R332, R349). `unacked`: host stores of its ended tasks that the host has not acknowledged (R15, R117). -/
structure Launch where
  record : List Byte
  queue : Nat
  asid : BitVec 16
  gbase : Nat
  seq : Nat
  left : Nat
  ended : Nat
  unacked : Nat
  aborted : Bool
  stepm : Bool
  recpa : Nat
  recIdx : Nat
  deriving DecidableEq, Repr

/-- A physical gnoum (R318, R336, R342, R413). -/
structure PhysG where
  fused : Bool
  outOfService : Bool
  active : Option Nat
  shadow : Option Nat
  deriving DecidableEq, Repr

/-- The stages of a quiesce (R347, R348). -/
inductive Quiesce where
  | idle
  /-- QUIESCE.STEP waits for the committed phase of the next boundary. -/
  | waitStep
  /-- QUIESCE.KERNEL waits until no boundary is past its arrived phase. -/
  | waitKernel
  /-- Tasks are being saved; true for a step cut. -/
  | saving (step : Bool)
  | held (step : Bool)
  deriving DecidableEq, Repr

/-- Dispatch unit state outside control space. `bound`: the physical gnoum that a logical gnoum is bound to, starting with the harvest
map (R41, R413). `clock`: nanoseconds of the model's own clock (log 46). -/
structure Disp where
  launches : Tbl Launch
  admSeq : Nat
  rr : Nat
  readySeq : Nat
  clock : Nat
  physG : Tbl PhysG
  bound : Tbl Nat
  slots : List Nat
  pendingSave : List Nat
  quiesce : Quiesce
  stepFreed : List Nat
  deriving DecidableEq, Repr

/-- A kernel-store load in progress (R409). -/
structure KsLoad where
  first : Nat
  count : Nat
  verify : Bool
  deriving DecidableEq, Repr

/-! ## Memory system (19, 20) -/

/-- A cached translation (R362 to R364): a leaf, or with `level` a non-leaf or directory entry, under the level of the table that it
names. -/
structure TlbEntry where
  asid : BitVec 16
  va : Nat
  size : Nat
  pte : Word
  level : Option Nat
  deriving DecidableEq, Repr

/-- A refresh command: package channel, bank, first row, number of rows (R373, R375). -/
structure Refresh where
  ch : Nat
  bank : Nat
  first : Nat
  count : Nat
  deriving DecidableEq, Repr

/-- The memory system (R369 to R379). `ecc`: 1 correctable, 2 uncorrectable; a unit not listed is good. `held`: refreshes
that fell due while their channel switches its data rate (R374). -/
structure MemSys where
  wq : List Nat
  ecc : Tbl Nat
  act : Tbl Nat
  actBad : Tbl Bool
  posted : Tbl Bool
  rate : Tbl Nat
  target : Tbl Nat
  refresh : Tbl Nat
  refreshDue : Tbl Nat
  temp : Tbl Nat
  thr : Tbl Bool
  refreshing : Bool
  held : List Refresh
  deriving DecidableEq, Repr

/-! ## Supersteps and fabric (05, 21) -/

/-- What the entry of a pod page says of a commit: class and merge width (R130). -/
structure PageKind where
  cls : Nat
  mw : Nat
  deriving DecidableEq, Repr

/-- A pod page homed here: what an entry that maps it says, its first local address, its size. -/
structure PodPage where
  kind : PageKind
  base : Nat
  size : Nat
  deriving DecidableEq, Repr

/-- A pending write record (R127 to R129). `page`: what the entry said that its source translated with; a record that came in a
packet has none (R385). `place`: the 16-byte granules of the apron that hold it. -/
structure Rec where
  key : Word
  home : Nat
  addr : Nat
  va : Nat
  page : Option PageKind
  data : List Byte
  gen : Nat
  sent : Bool
  acked : Bool
  place : List Nat
  deriving DecidableEq, Repr

/-- The phases of a boundary at this package (R136, R389). -/
inductive BPhase where
  | idle | arrived | draining | drained | committing | committed
  deriving DecidableEq, Repr

/-- The boundary (R136, R141, R389, R390). `begun`: an ARR of the current step has told of it (R124). Report bitmaps: as leader, positions of the own group; as root, one bitmap for
each group. -/
structure Boundary where
  phase : BPhase
  begun : Bool
  sentArr : Bool
  sentDrn : Bool
  sentCmt : Bool
  lead0 : BitVec 32
  lead2 : BitVec 32
  lead4 : BitVec 32
  root0 : Tbl (BitVec 32)
  root2 : Tbl (BitVec 32)
  root4 : Tbl (BitVec 32)
  signalled : Bool
  quiesceSeen : Bool
  withheld : Bool
  resumed : Bool
  credits : Tbl Nat
  granted : Tbl Nat
  fullPosted : Bool
  watchdog : Bool
  deriving DecidableEq, Repr

/-- Who waits for a transaction of the fabric: the load of this agent at this place in program order, the stream instruction
of a task with this tag, or the record with this key. -/
inductive TxFor where
  | load (ag : Agent) (po : Nat)
  | stream (t tag : Nat)
  | record (key : Word)
  deriving DecidableEq, Repr

/-- An outstanding transaction (R388); `va`: the virtual address of the first byte it reads. -/
structure Txn where
  va : Nat
  txid : BitVec 16
  pkt : Packet
  owner : TxFor
  deriving DecidableEq, Repr

/-- A packet that the fabric unit holds, and the port it came in by; none for one of the own package. -/
structure HeldPkt where
  pkt : Packet
  port : Option Nat
  deriving DecidableEq, Repr

/-- A packet at the egress port of its hop: its virtual channel there, and its flits that have not been sent. -/
structure Egress where
  held : HeldPkt
  vc : Nat
  left : List (BitVec 256)
  deriving DecidableEq, Repr

/-- A flit that has been sent and is not acknowledged: its sequence number and virtual channel. -/
structure SentFlit where
  seq : BitVec 12
  vc : Nat
  flit : BitVec 256
  deriving DecidableEq, Repr

/-- One port's link (R387, R394 to R397): sequence numbers of the next flit to send and to receive; the packets that wait at the
port and the one being sent; the flits of each virtual channel that hold slots at the next hop; the replay buffer, and how many of its flits
were sent before the last restripe sequence, whose answer is awaited while `restriping`; the flits sent or sent again since that sequence;
the flits received of a packet that is not complete. -/
structure Link where
  up : Bool
  txMask : BitVec 16
  rxMask : BitVec 16
  txSeq : BitVec 12
  rxSeq : BitVec 12
  queue : List Egress
  sending : Option Egress
  slots : Tbl Nat
  buffer : List SentFlit
  replayed : Nat
  before : Nat
  restriping : Bool
  striped : Nat
  partialPkt : List (BitVec 256)
  deriving DecidableEq, Repr

/-- The Brixeth fabric unit (R381 to R399). `unsent` are transactions that wait for a transaction number; `waiting` are packets
that no path takes yet. -/
structure Fabric where
  txns : List Txn
  nextTx : BitVec 16
  unsent : List Txn
  waiting : List HeldPkt
  links : Tbl Link
  pinc : Tbl (BitVec 4)
  deriving DecidableEq, Repr

/-! ## Host link and firmware (22) -/

/-- Host attachment, firmware, ageing (R401 to R416). `attBusy`: addresses of the reports that wait for a load; `rdata`: what the
host's last window read returned; `plans` and `margins`: the planned margin of each die and the one its supply has reached (R415);
`planned`: a plan has been made; `sideband`: stages posted over the sideband (R414). `stores` are stores of host agents that have
not performed, and `poison` the 64-byte units of host memory whose completions come poisoned (R196): both are inputs from outside
(log 44). -/
structure HostSide where
  modules : BitVec 4
  irqPending : Bool
  holdoff : Bool
  raised : Nat
  flash : List Byte
  sram : List Byte
  fwBody : List Byte
  fuseAdvanced : Bool
  tcZeroed : Bool
  plans : Tbl Nat
  margins : Tbl Nat
  planned : Bool
  sideband : List Nat
  stores : List (Nat × List Byte)
  poison : List Nat
  attBusy : List Nat
  rdata : List Byte
  evSeq : Nat
  deriving DecidableEq, Repr

/-- The state of the package. `agenda`, `focus`, `engineTurn` and `freeCtr` are the model's own (logs 1, 2). `tlbi`: for each logical
gnoum the selectors of its TLBIs that no TLBSYNC has followed (R330). `otherPages`: the pod pages homed here as page tables of other packages
map them, an input from outside (log 45). -/
structure State where
  agenda : List Instr
  focus : Agent
  engineTurn : Bool
  freeCtr : Nat
  tasks : Tbl Task
  pregs : Tbl Word
  mem : List Host.Cell
  hmem : List Host.Cell
  disp : Disp
  kstore : Tbl (BitVec 256)
  ksload : Option KsLoad
  tlb : List TlbEntry
  tlbi : Tbl (List TlbSel)
  ms : MemSys
  otherPages : List PodPage
  inbound : List Rec
  outbound : List Rec
  bnd : Boundary
  fab : Fabric
  host : HostSide
  deriving DecidableEq, Repr

/-! ## Values at creation and at reset -/

/-- Registers zero, queues empty. -/
def Hart.empty : Hart := { xs := [], xbad := [], pc := 0, loads := [], stores := [], marks := [], po := 0 }

/-- An invalid descriptor (R18). -/
def Desc.invalid : Desc := { image := 0, orgs := [], valid := false }

/-- An unconfigured ring (R18, R79). -/
def Ring.none : Ring :=
  { cfg := false, base := 0, slotsz := 0, nslot := 0, filled := 0, free := 0, head := 0, tail := 0, eos := 0 }

/-- A tag that has not been assigned: DONE set, every other field zero (R210, R320). -/
def TagInfo.fresh : TagInfo := { status := 1#64 <<< 22, dpc := 0, dva := 0, dvav := false }

/-- A physical gnoum in service that holds no task. -/
def PhysG.idle : PhysG := { fused := false, outOfService := false, active := none, shadow := none }

/-- A link that is down (GLSTAT and LLSTAT reset 0, R398). -/
def Link.down : Link :=
  { up := false, txMask := 0, rxMask := 0, txSeq := 0, rxSeq := 0, queue := [], sending := none, slots := [], buffer := [],
    replayed := 0, before := 0, restriping := false, striped := 0, partialPkt := [] }

/-- No boundary in progress (R124). -/
def Boundary.idle : Boundary :=
  { phase := .idle, begun := false, sentArr := false, sentDrn := false, sentCmt := false, lead0 := 0, lead2 := 0, lead4 := 0,
    root0 := [], root2 := [], root4 := [], signalled := false, quiesceSeen := false, withheld := false, resumed := false,
    credits := [], granted := [], fullPosted := false, watchdog := false }

/-- The package control registers whose reset value is not zero: LQCTL.LOG2N 4 (R331), STEPCFG (R316), DRAINLIM 500 (R344),
ACTCFG.ACTMAX 2,048 and SCRUBCFG 86,400 (R379), FCTL.NG 1 and FABTO (R398), RCAPCTL.LOG2N 8 (R404). Every other listed reset
value is zero; registers with a dash or no stated value are zero too (log 3). -/
def resetPregs : Tbl Word :=
  [(0x212, 0x0000271000000808), (0x301, 4), (0x305, 4), (0x309, 4), (0x30D, 4), (0x311, 4), (0x315, 4), (0x319, 4),
   (0x31D, 4), (0x321, 4), (0x325, 4), (0x329, 4), (0x32D, 4), (0x331, 4), (0x335, 4), (0x339, 4), (0x33D, 4),
   (0x341, 500), (0x500, 2048), (0x501, 86400), (0x680, 1), (0x681, 0x14000C8), (0x719, 8)]

/-- The package right after reset: no task, nothing admitted, memory with nothing listed (log 5), every register at its reset
value. How a program comes to run from here is told in log 7. -/
def State.reset : State :=
  { agenda := [], focus := .scp 0, engineTurn := false, freeCtr := 0, tasks := [], pregs := resetPregs, mem := [],
    hmem := [],
    disp := { launches := [], admSeq := 0, rr := 0, readySeq := 0, clock := 0, physG := [], bound := [], slots := [], pendingSave := [],
              quiesce := .idle, stepFreed := [] },
    kstore := [], ksload := none, tlb := [], tlbi := [],
    ms := { wq := [], ecc := [], act := [], actBad := [], posted := [], rate := [], target := [], refresh := [],
            refreshDue := [], temp := [], thr := [], refreshing := false, held := [] },
    otherPages := [], inbound := [], outbound := [], bnd := Boundary.idle,
    fab := { txns := [], nextTx := 0, unsent := [], waiting := [], links := [], pinc := [] },
    host := { modules := 0xF, irqPending := false, holdoff := false, raised := 0, flash := [], sram := [], fwBody := [],
              fuseAdvanced := false, tcZeroed := false, plans := [], margins := [], planned := false,
              sideband := [], stores := [], poison := [], attBusy := [], rdata := [], evSeq := 0 } }

end Sys2Proof.Machine
end

