-- ==== Sys2Proof/Machine/Memory.lean ====
section
/-! DEFINITION. Package control registers as held, event records (17 R324), physical memory with its write queues and check
units (20 R368 to R378), the read-modify-write operations of the memory controllers (04 R111, R112; 08 R201 to R203). -/

namespace Sys2Proof.Machine

/-- What an operation that can fault ends with: a fault of the architecture, or a stop of the model. -/
inductive Stop where
  | trap (f : FaultInfo)
  | halt (r : Fault)
  deriving DecidableEq, Repr

abbrev Res (α : Type) := Except Stop α

/-- A fault without an address (R419). -/
def plainFault (code : Nat) : FaultInfo := { code := BitVec.ofNat 8 code, va := none, wr := false }

/-- A fault of an access at a virtual address (R419). -/
def addrFault (code va : Nat) (wr : Bool) : FaultInfo :=
  { code := BitVec.ofNat 8 code, va := some (BitVec.ofNat 64 va), wr := wr }

/-- End with a fault. -/
def raise {α : Type} (f : FaultInfo) : Res α := .error (.trap f)

/-- End with a fault unless the check holds. -/
def check (c : Bool) (f : FaultInfo) : Res Unit := if c then .ok () else raise f

/-- The fault codes of R209. -/
def cILLOP : Nat := 1
def cILLBND : Nat := 2
def cNUBR : Nat := 3
def cLOOPDEPTH : Nat := 4
def cRINGWAIT : Nat := 5
def cRINGOVF : Nat := 6
def cFMTAXIS : Nat := 7
def cSCOPE : Nat := 8
def cPAGE : Nat := 9
def cPERM : Nat := 10
def cSTEPFULL : Nat := 11
def cPEERDEAD : Nat := 12
def cDATAERR : Nat := 13
def cBOUNDS : Nat := 14
def cT5BAD : Nat := 15
def cRPNEG : Nat := 16
def cBUDGET : Nat := 17
def cKFLT : Nat := 18
def cCANCEL : Nat := 19

/-! ## Package registers as numbers -/

/-- The value held under a register number. -/
def State.preg (s : State) (n : Nat) : Nat := (tget 0 s.pregs n).toNat

/-- Hold a value under a register number. -/
def State.setPreg (s : State) (n v : Nat) : State := { s with pregs := tset 0 s.pregs n (BitVec.ofNat 64 v) }

/-- Replace bits [hi:lo] of a register. -/
def State.setPregBits (s : State) (n hi lo v : Nat) : State := s.setPreg n (setBits (s.preg n) hi lo v)

/-- The pod rank of the package (R41, R312). -/
def State.rank (s : State) : Nat := s.preg 0x002 % 4096

/-- DEVID (R313). -/
def devid : Nat := 0x4146 + 6 * 2 ^ 16 + Config.stepping.toNat * 2 ^ 24 + 2 ^ 32

/-- The step number n (R121). -/
def State.stepNum (s : State) : Nat := s.preg 0x214

/-- Bit b of the bitmap of 64 registers that starts at a number. -/
def State.mapBit (s : State) (base b : Nat) : Bool := bit (s.preg (base + b / 64)) (b % 64)

/-- Is a rank a member of the pod (R122); ranks at or above 32 NG name no package (R381). -/
def State.member (s : State) (r : Nat) : Bool := s.mapBit 0x600 r && decide (r < 32 * (s.preg 0x680 % 256))

/-- PODRANK (R18, R312): 0 outside a pod. -/
def State.podRank (s : State) : Nat := if s.member s.rank then s.rank else 0

/-- Is a rank marked dead (R391). -/
def State.deadPeer (s : State) (r : Nat) : Bool := s.mapBit 0x640 r

/-- Take a number for a free choice (R10, log 2). -/
def State.draw (s : State) : Nat × State := (s.freeCtr, { s with freeCtr := s.freeCtr + 1 })

/-! ## Event records -/

/-- The number that holds payload fields (offset, value) of a record. -/
def payloadNat : List (Nat × Nat) → Nat
  | [] => 0
  | (o, v) :: r => v * 2 ^ (8 * o) + payloadNat r

/-- The MSI-X vector (R403): raised at once, or when the running hold-off ends. -/
def State.interrupt (s : State) : State :=
  if s.host.holdoff then { s with host := { s.host with irqPending := true } }
  else { s with host := { s.host with raised := s.host.raised + 1, holdoff := true } }

/-- Post a 64-byte record to the event queue, or drop it when the queue is full (R324). `pay` gives payload fields at their
offsets within the record. -/
def State.post (s : State) (type sev unit : Nat) (pay : List (Nat × Nat)) : State :=
  let ctl := s.preg 0x201
  let n := 2 ^ bits ctl 4 0
  let head := bits ctl 31 12
  let tail := bits ctl 51 32
  let s1 := { s with host := { s.host with evSeq := s.host.evSeq + 1 } }
  if (tail + 1) % n = head % n then s1.setPreg 0x202 ((s1.preg 0x202 + 1) % 2 ^ 64)
  else
    let rec64 := payloadNat ([(0, type), (2, sev), (4, s.rank), (6, unit), (8, s.host.evSeq % 2 ^ 64),
      (16, if s.member s.rank then s.stepNum else 0)] ++ pay)
    let s2 := { s1 with hmem := wrNat s1.hmem (s.preg 0x200 + 64 * (tail % n)) 64 rec64 }
    (s2.setPregBits 0x201 51 32 ((tail + 1) % 2 ^ 20)).interrupt

/-- MC_UNCORR (R324). The spec gives no value to its syndrome: it is free (log 2). -/
def State.postUncorr (s : State) (sev unit va pa space tag pc : Nat) : State :=
  let d := s.draw
  d.2.post 0x0001 sev unit [(0x18, va), (0x20, pa), (0x28, space + tag * 256), (0x30, pc), (0x38, Config.freeNat d.1 % 2 ^ 64)]

/-- MC_UNCORR of an error in the SRF, the bench, a register, a descriptor or a ring (R323): such a place has no address, so that the
record's physical address is free too (log 6). -/
def State.postOnChip (s : State) (sev unit tag pc : Nat) : State :=
  let d := s.draw
  d.2.postUncorr sev unit 0 (Config.freeNat d.1 % 2 ^ 52) 0 tag pc

/-- Count corrected errors in CECOUNT (R323). -/
def State.countCorrected (s : State) (n : Nat) : State := s.setPreg 0x220 ((s.preg 0x220 + n) % 2 ^ 64)

/-! ## Physical memory of the package -/

/-- Local addresses below this are the 768 GiB of the package (R353). -/
def memLimit : Nat := 0xC000000000

/-- The 52-bit physical address of a local address. -/
def State.paOf (s : State) (la : Nat) : Nat := s.rank * 2 ^ 40 + la

/-- A physical address that names n bytes of the own package's memory gives their local address; any other is a stop of the
model (R353). -/
def State.localOf (s : State) (pa n : Nat) : Res Nat :=
  let la := pa % 2 ^ 40
  if pa / 2 ^ 40 = s.rank && decide (la + n ≤ memLimit) then .ok la else .error (.halt (.noMemory pa))

/-- The package channel (controller) of a local address (R367, R368). -/
def channelOf (la : Nat) : Nat := 32 * (la / 256 % 12) + la / 256 / 12 % 32

/-- Bank and row of a local address (R368). -/
def bankOf (la : Nat) : Nat := (la / 256 / 12 / 32 / 4) % 32
def rowOf (la : Nat) : Nat := la / 256 / 12 / 32 / 128

/-- The 64 B check units that bytes lie in, each once (R376). -/
def unitsOf : List Nat → List Nat
  | [] => []
  | a :: as => let r := unitsOf as; if r.contains (a / 64) then r else a / 64 :: r

/-- A unit whose DRAM copy cannot be read: uncorrectable and not held by a write-queue entry (R370, R376). -/
def State.badUnit (s : State) (u : Nat) : Bool := !s.ms.wq.contains u && tget 0 s.ms.ecc u == 2

/-- Correct every correctable unit read: one count each in CECOUNT, written back (R323, R376). -/
def State.correct (s : State) (u : Nat) : State :=
  if !s.ms.wq.contains u && tget 0 s.ms.ecc u == 1 then
    ({ s with ms := { s.ms with ecc := tdel s.ms.ecc u } }).countCorrected 1
  else s

/-- Read local bytes: the state after corrections, the bytes, and the first local address in an uncorrectable unit. -/
def State.readLocal (s : State) (las : List Nat) : State × List Byte × Option Nat :=
  ((unitsOf las).foldl State.correct s, rdBytes s.mem las, las.find? (fun a => s.badUnit (a / 64)))

/-- A physical read by the management core or the dispatch unit: the state, the bytes if all of them can be read. An uncorrectable one is recorded. -/
def State.mgcRead (s : State) (pa n : Nat) : State × Option (List Byte) :=
  match s.localOf pa n with
  | .error _ => (s, none)
  | .ok la =>
    let rd := s.readLocal (addrs la n)
    match rd.2.2 with
    | some bad => (rd.1.postUncorr 2 0xFFFF 0 (s.paOf (bad / 64 * 64)) 0 0xFF 0, none)
    | none => (rd.1, some rd.2.1)

/-! ## Write queues (R369, R370) -/

/-- The entries of a write queue that are of one controller. -/
def ofChannel (ch : Nat) (wq : List Nat) : List Nat := wq.filter (fun x => channelOf (64 * x) = ch)

/-- Room for a unit in its controller's write queue of 64 entries. -/
def State.wqRoom (s : State) (u : Nat) : Bool :=
  s.ms.wq.contains u || decide ((ofChannel (channelOf (64 * u)) s.ms.wq).length < 64)

/-- Room for several units together. -/
def State.roomFor (s : State) (us : List Nat) : Bool :=
  us.all (fun u => let ch := channelOf (64 * u)
    decide ((ofChannel ch s.ms.wq).length + (ofChannel ch (us.filter (fun x => !s.ms.wq.contains x))).length ≤ 64))

/-- Is a channel switching its data rate, so that no DRAM command is given (R374)? -/
def State.rateBusy (s : State) (ch : Nat) : Bool := bit (s.preg (0x520 + ch / 32)) (ch % 32)

/-- May the many units of a stream instruction be accepted one after the other: there is room for all of them, or each controller can
write entries back to make room? -/
def State.canAccept (s : State) (us : List Nat) : Bool :=
  s.roomFor us || us.all (fun u => !s.rateBusy (channelOf (64 * u)))

/-- A unit enters its controller's queue. Where the queue is full its oldest entry has been written back by then, which changes no
value and leaves that unit's DRAM copy good (R369, R370). While the channel switches its data rate nothing can be written back (R374): what
would overfill the queue then waits (`accepting`, log 55). -/
def State.enterQueue (s : State) (u : Nat) : State :=
  if s.ms.wq.contains u then s
  else
    match if s.wqRoom u || s.rateBusy (channelOf (64 * u)) then none else s.ms.wq.find? (fun x => channelOf (64 * x) = channelOf (64 * u)) with
    | some x => { s with ms := { s.ms with wq := s.ms.wq.erase x ++ [u], ecc := tdel s.ms.ecc x } }
    | none => { s with ms := { s.ms with wq := s.ms.wq ++ [u] } }

/-- Would a controller hold more than its 64 entries (R369)? -/
def State.overfull (s : State) : Bool := s.ms.wq.any (fun u => decide (64 < (ofChannel (channelOf (64 * u)) s.ms.wq).length))

/-- Does a write of these bytes cover its whole unit? -/
def coversUnit (las : List Nat) (u : Nat) : Bool := (List.range 64).all (fun i => las.contains (64 * u + i))

/-- Write one unit's bytes in its write-queue entry: a partial write reads and merges, and is dropped where the unit is uncorrectable
(R377). The entry stays in the queue until a writeback (R369). -/
def State.writeUnit (s : State) (sev unit tag pc : Nat) (ws : List (Nat × Byte)) (u : Nat) : State :=
  let mine := ws.filter (fun w => w.1 / 64 = u)
  let whole := coversUnit (mine.map (·.1)) u
  if s.badUnit u && !whole then s.postUncorr sev unit 0 (s.paOf (64 * u)) 0 tag pc
  else
    let s1 := if whole then { s with ms := { s.ms with ecc := tdel s.ms.ecc u } } else s.correct u
    State.enterQueue { s1 with mem := wrBytes s1.mem (mine.map (·.1)) (mine.map (·.2)) } u

/-- Write local bytes through the home controllers. -/
def State.writeLocal (s : State) (sev unit tag pc : Nat) (las : List Nat) (bs : List Byte) : State :=
  let ws := las.zip bs
  (unitsOf las).foldl (fun t u => t.writeUnit sev unit tag pc ws u) s

/-- Write bytes for the dispatch unit or the management core at a local address. -/
def State.putLocal (s : State) (la : Nat) (bs : List Byte) : State :=
  s.writeLocal 3 0xFFFF 0xFF 0 (addrs la bs.length) bs

/-! ## Read-modify-write (R111, R112, R201 to R203) -/

/-- The new value of AMO (R202). -/
def amoNew (op : AmoOp) (w old b : Nat) : Nat :=
  match op with
  | .swap => b
  | .add => (old + b) % 2 ^ w
  | .and => old &&& b
  | .or => old ||| b
  | .xor => old ^^^ b
  | .min => if signed w old ≤ signed w b then old else b
  | .max => if signed w old ≥ signed w b then old else b
  | .minu => min old b
  | .maxu => max old b

/-- The new value of RED, of a reducing SSC element and of POOL.wadd (R203, R222, R286). -/
def redNew (op : RedOp) (w old b : Nat) : Nat :=
  match op with
  | .add => (old + b) % 2 ^ w
  | .fadd32 => fp32.add .rne old b
  | .fadd64 => fp64.add .rne old b
  | .min => if signed w old ≤ signed w b then old else b
  | .max => if signed w old ≥ signed w b then old else b
  | .or => old ||| b

/-- The value a read-modify-write leaves; none where it writes nothing (R201). -/
def rmwNew (op : Rmw) (w old b : Nat) : Option Nat :=
  match op with
  | .cas e => if old = e.toNat % 2 ^ w then some (b % 2 ^ w) else none
  | .amo o => some (amoNew o w old (b % 2 ^ w))
  | .red o => some (redNew o w old (b % 2 ^ w))

/-- The indivisible step at the home controller on n bytes at a local address: the state after, and the old value or the
report of an uncorrectable read (R111, R200, R377). A record of CAS or AMO names the virtual address; one of a RED, which is a store,
does not. -/
def State.rmwLocal (s : State) (op : Rmw) (n la b : Nat) (unit va tag pc : Nat) : State × Option Nat :=
  let las := addrs la n
  let r := s.readLocal las
  match r.2.2 with
  | some bad =>
      let x : Nat × Nat := match op with
        | .red _ => (3, 0)
        | _ => (2, va)
      (r.1.postUncorr x.1 unit x.2 (s.paOf (bad / 64 * 64)) 0 tag pc, none)
  | none =>
      let old := leNat r.2.1
      match rmwNew op (8 * n) old b with
      | some v => (r.1.writeLocal 3 unit tag pc las (leBytes n v), some old)
      | none => (r.1, some old)

/-- The first of these host addresses whose completion comes poisoned or failed (R196, log 44). -/
def State.poisonedAt (s : State) (has : List Nat) : Option Nat := has.find? (fun a => s.host.poison.contains (a / 64))

/-- The same on host memory (R111, R200). -/
def State.rmwHost (s : State) (op : Rmw) (n ha b : Nat) (unit va pc : Nat) : State × Option Nat :=
  match s.poisonedAt (addrs ha n) with
  | some bad => (s.postUncorr 2 unit va bad 2 0xFF pc, none)
  | none =>
    let old := rdNat s.hmem ha n
    match rmwNew op (8 * n) old b with
    | some v => ({ s with hmem := wrNat s.hmem ha n v }, some old)
    | none => (s, some old)

end Sys2Proof.Machine
end

