-- ==== Sys2Proof/Machine/Translate.lean ====
section
/-! DEFINITION. Address translation (19 R352 to R366): the walk, the leaf checks, the order of checks, cached forms and pins. -/

namespace Sys2Proof.Machine

/-- A leaf found by a walk: the entry and the virtual base and size of the page it maps. -/
structure Leaf where
  pte : Nat
  base : Nat
  size : Nat
  deriving DecidableEq, Repr

/-- How a walk fails: PAGE, a read of what is not memory, or an uncorrectable entry at this local address (R356). -/
inductive WalkErr where
  | page
  | noMemory (pa : Nat)
  | uncorr (la : Nat)
  deriving DecidableEq, Repr

/-- An 8-byte walker read of the own package's memory (R356). -/
def rd8 (s : State) (la : Nat) : Except WalkErr Nat :=
  if la + 8 ≤ memLimit then
    if s.badUnit (la / 64) then .error (.uncorr la) else .ok (rdNat s.mem la 8)
  else .error (.noMemory (s.paOf la))

/-- The table index of a level (R355). -/
def walkIndex (va lvl : Nat) : Nat := if lvl = 3 then bits va 55 39 else bits va (20 + 9 * lvl) (12 + 9 * lvl)

/-- The bytes a leaf of this level maps (R355, R360). -/
def leafSize (pte lvl : Nat) : Nat :=
  match lvl with
  | 0 => if bit pte 7 then 0x10000 else 0x1000
  | 1 => 0x200000
  | _ => 0x40000000

/-- The levels of the walk from a table at a local address down (R356). -/
def walkLevel (s : State) (va : Nat) : Nat → Nat → Except WalkErr Leaf
  | lvl, t =>
    match rd8 s (t + 8 * walkIndex va lvl) with
    | .error e => .error e
    | .ok e =>
      if !bit e 0 then .error .page
      else
        match lvl with
        | 0 => let z := leafSize e 0; .ok { pte := e, base := va / z * z, size := z }
        | l + 1 =>
          if bit e 7 then
            if l + 1 = 3 then .error .page
            else let z := leafSize e (l + 1); .ok { pte := e, base := va / z * z, size := z }
          else if bits e 6 1 ≠ 0 || bits e 11 8 ≠ 0 || bits e 63 52 ≠ 0 || bits e 51 40 ≠ s.rank then .error .page
          else walkLevel s va l (bits e 39 12 * 2 ^ 12)

/-- The walk of an address in an address space (R354, R356). -/
def walk (s : State) (asid : BitVec 16) (va : Nat) : Except WalkErr Leaf :=
  match rd8 s (s.preg 0x400 % 2 ^ 40 + 8 * asid.toNat) with
  | .error e => .error e
  | .ok de =>
    if !bit de 0 || bits de 19 1 ≠ 0 || bits de 63 52 ≠ 0 || bits de 51 40 ≠ s.rank then .error .page
    else walkLevel s va 3 (bits de 39 20 * 2 ^ 20)

/-- The combinations of class and merge width that R130 lists. -/
def classMwOk (cls mw : Nat) : Bool :=
  match cls with
  | 0 => mw == 0
  | 1 => mw == 0
  | 3 => mw != 0
  | _ => mw == 2 || mw == 3

/-- The fields of a leaf that are checked before use (R358). -/
def leafOk (l : Leaf) : Bool :=
  let sp := bits l.pte 9 8
  let cls := bits l.pte 54 52
  let mw := bits l.pte 11 10
  let frame := bits l.pte 51 12 * 4096
  bits l.pte 63 55 == 0 && sp != 3 && frame % l.size == 0
    && (if sp == 1 then classMwOk cls mw else cls == 0 && mw == 0)
    && !(bit l.pte 3 && sp == 1)
    && (sp == 2 || decide (frame % 2 ^ 40 + l.size ≤ memLimit))

/-- The units that a walk reads from a table of a level down, for the corrections of R376. -/
def levelUnits (s : State) (va : Nat) : (lvl t : Nat) → List Nat
  | 0, t => let a := t + 8 * walkIndex va 0
    match rd8 s a with
    | .error _ => []
    | .ok _ => [a / 64]
  | l + 1, t => let a := t + 8 * walkIndex va (l + 1)
    match rd8 s a with
    | .error _ => []
    | .ok e => if bit e 0 && !bit e 7 then a / 64 :: levelUnits s va l (bits e 39 12 * 2 ^ 12) else [a / 64]

/-- The units that the walk of an address reads. -/
def walkUnits (s : State) (asid : BitVec 16) (va : Nat) : List Nat :=
  let d := s.preg 0x400 % 2 ^ 40 + 8 * asid.toNat
  match rd8 s d with
  | .error _ => []
  | .ok de => if bit de 0 then d / 64 :: levelUnits s va 3 (bits de 39 20 * 2 ^ 20) else [d / 64]

/-- What an access needs of a page. -/
structure Access where
  space : Space
  r : Bool
  w : Bool
  x : Bool
  deriving DecidableEq, Repr

/-- In whose name an access translates (R352): address space, mode, step membership, and the pages its instruction pinned. -/
structure XCtx where
  asid : BitVec 16
  modeS : Bool
  stepm : Bool
  pins : List Pin
  deriving DecidableEq, Repr

def spaceCode : Space → Nat
  | .package => 0
  | .pod => 1
  | .host => 2

/-- Is a rank the home of a package of the pod that the bitmaps mark as dead: an access to it is PEERDEAD, also once it has left the
membership (R142, R391, log 47)? -/
def State.deadMember (s : State) (r : Nat) : Bool := s.deadPeer r && decide (r < 32 * (s.preg 0x680 % 256))

/-- Steps 3 to 5 of R361 for n bytes at a virtual address within one leaf. The error is the fault code. -/
def leafAccess (s : State) (c : XCtx) (a : Access) (l : Leaf) (va n : Nat) : Except Nat Unit :=
  let sp := bits l.pte 9 8
  let home := bits l.pte 51 40
  let pa := bits l.pte 51 12 * 4096 + (va - l.base)
  if sp ≠ spaceCode a.space then .error cSCOPE
  else if sp = 0 && home ≠ s.rank then .error cSCOPE
  else if sp = 1 && !c.stepm then .error cSCOPE
  else if sp = 1 && !s.member home && !s.deadMember home then .error cSCOPE
  else if bit l.pte 4 && !c.modeS then .error cPERM
  else if (a.r && !bit l.pte 1) || (a.w && !bit l.pte 2) || (a.x && !bit l.pte 3) then .error cPERM
  else if sp = 2 && !(decide (s.preg 0x420 ≤ pa) && decide (pa + n ≤ s.preg 0x420 + s.preg 0x421)) then .error cPERM
  else if sp = 1 && s.deadPeer home then .error cPEERDEAD
  else .ok ()

/-- The cached forms of a page that an access may still use (R360, R364). -/
def cachedLeaves (s : State) (asid : BitVec 16) (va : Nat) : List Leaf :=
  (s.tlb.filter (fun e => e.level.isNone && (e.asid = asid || bit e.pte.toNat 5) && decide (e.va ≤ va) && decide (va < e.va + e.size))).map
    (fun e => { pte := e.pte.toNat, base := e.va, size := e.size })

/-- The pin that covers an address. -/
def findPin (pins : List Pin) (va : Nat) : Option Pin := pins.find? (fun p => decide (p.va ≤ va) && decide (va < p.va + p.size))

/-- One way to translate an address: the leaf or the failure, the non-leaf and directory forms that it read, and the units it read them
from. -/
structure Way where
  leaf : Except WalkErr Leaf
  forms : List TlbEntry
  units : List Nat

/-- The check of a leaf's fields that follows a walk (R358). -/
def checkedLeaf (w : Except WalkErr Leaf) : Except WalkErr Leaf :=
  match w with
  | .ok l => if leafOk l then .ok l else .error .page
  | .error e => .error e

/-- The non-leaf forms that the walk reads from a table of a level down (R355, R356). -/
def levelForms (s : State) (asid : BitVec 16) (va : Nat) : Nat → Nat → List TlbEntry
  | 0, _ => []
  | l + 1, t =>
    match rd8 s (t + 8 * walkIndex va (l + 1)) with
    | .error _ => []
    | .ok e =>
      if !bit e 0 || bit e 7 || bits e 6 1 ≠ 0 || bits e 11 8 ≠ 0 || bits e 63 52 ≠ 0 || bits e 51 40 ≠ s.rank then []
      else
        let z := 2 ^ (21 + 9 * l)
        { asid := asid, va := va / z * z, size := z, pte := BitVec.ofNat 64 e, level := some l } ::
          levelForms s asid va l (bits e 39 12 * 2 ^ 12)

/-- The walk through the tables as they stand. -/
def freshWay (s : State) (asid : BitVec 16) (va : Nat) : Way :=
  { leaf := checkedLeaf (walk s asid va)
    forms := match rd8 s (s.preg 0x400 % 2 ^ 40 + 8 * asid.toNat) with
      | .error _ => []
      | .ok de =>
        if !bit de 0 || bits de 19 1 ≠ 0 || bits de 63 52 ≠ 0 || bits de 51 40 ≠ s.rank then []
        else { asid := asid, va := 0, size := 2 ^ 56, pte := BitVec.ofNat 64 de, level := some 3 } ::
          levelForms s asid va 3 (bits de 39 20 * 2 ^ 20)
    units := walkUnits s asid va }

/-- The ways that start from a cached directory or non-leaf form (R362, R364). -/
def cachedWays (s : State) (asid : BitVec 16) (va : Nat) : List Way :=
  s.tlb.filterMap (fun e =>
    match e.level with
    | none => none
    | some l =>
      if e.asid = asid && decide (e.va ≤ va) && decide (va < e.va + e.size) then
        let t := if l = 3 then bits e.pte.toNat 39 20 * 2 ^ 20 else bits e.pte.toNat 39 12 * 2 ^ 12
        some { leaf := checkedLeaf (walkLevel s va l t), forms := levelForms s asid va l t, units := levelUnits s va l t }
      else none)

/-- Cache a form (R362, R363). -/
def State.cache (s : State) (e : TlbEntry) : State := if s.tlb.contains e then s else { s with tlb := s.tlb ++ [e] }

/-- Cache what a way of translating found: its forms and, where there is one, its leaf. -/
def State.cacheWay (s : State) (asid : BitVec 16) (w : Way) : State :=
  w.forms.foldl State.cache
    (match w.leaf with
     | .ok l => s.cache { asid := asid, va := l.base, size := l.size, pte := BitVec.ofNat 64 l.pte, level := none }
     | .error _ => s)

/-- Do two ways come to the same? -/
def Way.same (a b : Way) : Bool :=
  match a.leaf, b.leaf with
  | .ok x, .ok y => x == y
  | .error x, .error y => x == y
  | _, _ => false

/-- An access translates this way: what it read is corrected (R376), what it found is cached. -/
def State.takeWay (s : State) (asid : BitVec 16) (w : Way) : State × Except WalkErr Leaf :=
  (((unitsOf (w.units.map (64 * ·))).foldl State.correct s).cacheWay asid w, w.leaf)

/-- The leaf an access translates with: the walk's, or where cached forms give another result any of these, freely (R360, R364). -/
def State.pickLeaf (s : State) (asid : BitVec 16) (va : Nat) : State × Except WalkErr Leaf :=
  let w := freshWay s asid va
  let others := ((cachedLeaves s asid va).map (fun l => ({ leaf := .ok l, forms := [], units := [] } : Way)) ++ cachedWays s asid va).filter
    (fun x => !Way.same x w)
  match others with
  | [] => s.takeWay asid w
  | o :: os =>
      let d := s.draw
      let all := w :: o :: os
      d.2.takeWay asid (all.getD (Config.freeNat d.1 % all.length) w)

/-- Translate n bytes that lie within one page or less, from a virtual address: the leaf entry and their physical addresses
(R361). A pinned page keeps the translation of its probe pass, which checked all but the permission to read (R96, R366). -/
def State.xlatePiece (s : State) (c : XCtx) (a : Access) (va n : Nat) : State × Res (Nat × List Nat) :=
  if va / 2 ^ 56 ≠ 0 then (s, raise (addrFault cPAGE va a.w))
  else
    match findPin c.pins va with
    | some p =>
        if a.r && !bit p.pte.toNat 1 then (s, raise (addrFault cPERM va a.w))
        else (s, .ok (p.pte.toNat, addrs (p.pa + (va - p.va)) n))
    | none =>
      let r := s.pickLeaf c.asid va
      match r.2 with
      | .error .page => (r.1, raise (addrFault cPAGE va a.w))
      | .error (.noMemory pa) => (r.1, .error (.halt (.noMemory pa)))
      | .error (.uncorr la) =>
          (r.1.postUncorr 2 0xFFFF va (s.paOf la) 0 0xFF 0, raise (addrFault cDATAERR va a.w))
      | .ok l =>
        match leafAccess s c a l va n with
        | .error code => (r.1, raise (addrFault code va a.w))
        | .ok _ => (r.1, .ok (l.pte, addrs (bits l.pte 51 12 * 4096 + (va - l.base)) n))

/-- Translate n bytes from a virtual address, the lower page first (R164, R361): the leaf entries and the physical addresses.
Pages are at least 4 KiB, so n of at most 4 KiB touches at most two. -/
def State.xlate (s : State) (c : XCtx) (a : Access) (va n : Nat) : State × Res (List Nat × List Nat) :=
  let n1 := min n (4096 - va % 4096)
  let r1 := s.xlatePiece c a va n1
  match r1.2 with
  | .error e => (r1.1, .error e)
  | .ok p1 =>
    if n1 = n then (r1.1, .ok ([p1.1], p1.2))
    else
      let r2 := r1.1.xlatePiece c a ((va + n1) % 2 ^ 64) (n - n1)
      match r2.2 with
      | .error e => (r2.1, .error e)
      | .ok p2 => (r2.1, .ok ([p1.1, p2.1], p1.2 ++ p2.2))

/-- The page of an access for a pin (R96, R366), by the walk or a cached form. -/
def State.pinPage (s : State) (c : XCtx) (a : Access) (va : Nat) : State × Res Pin :=
  if va / 2 ^ 56 ≠ 0 then (s, raise (addrFault cPAGE va a.w))
  else
    let r := s.pickLeaf c.asid va
    match r.2 with
    | .error .page => (r.1, raise (addrFault cPAGE va a.w))
    | .error (.noMemory pa) => (r.1, .error (.halt (.noMemory pa)))
    | .error (.uncorr la) => (r.1.postUncorr 2 0xFFFF va (s.paOf la) 0 0xFF 0, raise (addrFault cDATAERR va a.w))
    | .ok l =>
      match leafAccess s c a l va 1 with
      | .error code => (r.1, raise (addrFault code va a.w))
      | .ok _ => (r.1, .ok { va := l.base, size := l.size, pa := bits l.pte 51 12 * 4096, pte := BitVec.ofNat 64 l.pte })

/-- The address at which the last of n bytes from a virtual address is probed: that of the first byte on its page. -/
def lastPage (va n : Nat) : Nat := max va ((va + n - 1) / 4096 * 4096) % 2 ^ 64

/-- Does a TLBI selector cover an address in an address space (R330)? -/
def TlbSel.covers (t : TlbSel) (asid : BitVec 16) (glob : Bool) (va size : Nat) : Bool :=
  match t.kind.toNat with
  | 0 => (glob || asid == t.asid) && decide (va ≤ t.va) && decide (t.va < va + size)
  | 1 => asid == t.asid && !glob
  | _ => true

end Sys2Proof.Machine
end

