-- ==== Sys2Proof/Machine/Links.lean ====
section
/-! DEFINITION. Ports, paths, virtual channels and flits of the fabric (21 R381 to R387, R394 to R397). Local port p has number p,
global port l has number 32 + l. -/

namespace Sys2Proof.Machine

def State.link (s : State) (port : Nat) : Link := tget Link.down s.fab.links port

def State.setLink (s : State) (port : Nat) (l : Link) : State :=
  { s with fab := { s.fab with links := tset Link.down s.fab.links port l } }

/-- FCTL.EN (R398). -/
def State.fabricOn (s : State) : Bool := bit (s.preg 0x680) 8

/-- Flits that a port's replay buffer holds (R394). -/
def bufferSize (port : Nat) : Nat := if port < 32 then 128 else 512

/-- NG (R381). -/
def State.ng (s : State) : Nat := s.preg 0x680 % 256

/-! ## Wavelengths (R395) -/

/-- Wavelengths that a laser unit feeds. -/
def unitWaves (u : Nat) : BitVec 16 := (0xF#16) <<< (4 * u)

/-- Wavelengths that a set of laser units feeds. -/
def wavesOf (lit : Nat → Bool) : BitVec 16 :=
  (List.range 4).foldl (fun m u => if lit u then m ||| unitWaves u else m) 0

/-- Is a laser unit of this package lit: enabled, and not failed? -/
def State.lit (s : State) (u : Nat) : Bool := bit (s.preg 0x688) u && !bit (s.preg 0x688) (4 + u)

/-- The live wavelengths of a mask, ascending. -/
def liveWaves (mask : BitVec 16) : List Nat := (List.range 16).filter (fun w => mask.getLsbD w)

/-- The wavelength on which 16-bit unit u of the stream travels, u counted from the last restripe. -/
def stripeWave (mask : BitVec 16) (u : Nat) : Option Nat := (liveWaves mask)[u % (liveWaves mask).length]?

/-- The wavelengths of the sixteen units of the next flit of a link. -/
def Link.nextWaves (l : Link) : List (Option Nat) := (List.range 16).map (fun i => stripeWave l.txMask (16 * l.striped + i))

/-! ## Wiring (R382, R383) -/

/-- The local port towards a position of the own group (R382). -/
def State.localPort (s : State) (pos : Nat) : Nat := (pos + 31 - s.rank % 32) % 32

/-- Position and global port, in a group, of link k towards another group (R383). -/
def globalEnd (ng g h k : Nat) : Nat × Nat :=
  let j := (h + ng - g) % ng - 1
  ((j + 127 * k) % 32, (j + 127 * k) / 32)

/-- Does a pair of groups use global port l of this package (R383)? -/
def State.portUsed (s : State) (l : Nat) : Bool :=
  (List.range s.ng).any (fun h => h ≠ s.rank / 32 && (List.range 4).any (fun k =>
    globalEnd s.ng (s.rank / 32) h k == (s.rank % 32, l)))

/-- Take a port out of use: the flits it holds are lost, the packets that wait there wait for another path (R397). -/
def State.dropLink (s : State) (port : Nat) : State :=
  let l := s.link port
  let s1 := s.setLink port { Link.down with replayed := l.replayed }
  { s1 with fab := { s1.fab with waiting := s1.fab.waiting ++ l.queue.map (·.held) } }

/-- Transmit and receive masks with which a port trains: the wavelengths that lit units feed at this end and at the far end. -/
def State.trainMasks (s : State) (p : Nat) : BitVec 16 × BitVec 16 :=
  if p < 32 then (0xFFFF, 0xFFFF) else (wavesOf s.lit, wavesOf (fun u => (Config.peerUnits p).getLsbD u))

/-- Train a port that is in use and not up; one that no pair uses stays untrained (R383, R414; log 31). -/
def State.trainPort (s : State) (p : Nat) : State :=
  let m := s.trainMasks p
  if p = 31 then s
  else if 32 ≤ p && !s.portUsed (p - 32) then s.dropLink p
  else if (s.link p).up || !Config.trained p || m.1 = 0 || m.2 = 0 then s
  else s.setLink p { Link.down with up := true, txMask := m.1, rxMask := m.2, replayed := (s.link p).replayed }

def State.trainLinks (s : State) : State := (List.range 48).foldl State.trainPort s

/-! ## Packets as flits (R384) -/

/-- The header flit. -/
def headerFlit (p : Packet) : BitVec 256 :=
  p.body ++ p.txid ++ (0#7) ++ BitVec.ofBool p.stage ++ p.len ++ p.type ++ p.sinc ++ p.srank ++ p.dinc ++ p.drank

/-- The flits of a packet: header, then data, the last flit padded with zeros. -/
def flitsOf (p : Packet) : List (BitVec 256) :=
  headerFlit p :: (List.range p.len.toNat).map (fun i => BitVec.ofNat 256 (leNat ((p.data.drop (32 * i)).take 32)))

/-- The packet of a header flit and its data flits. -/
def packetOf (h : BitVec 256) (d : List (BitVec 256)) : Packet :=
  { drank := h.extractLsb' 0 12, dinc := h.extractLsb' 12 4, srank := h.extractLsb' 16 12, sinc := h.extractLsb' 28 4,
    type := h.extractLsb' 32 4, len := h.extractLsb' 36 4, stage := h.getLsbD 40, txid := h.extractLsb' 48 16,
    body := h.extractLsb' 64 192, data := d.flatMap (fun f => leBytes 32 f.toNat) }

/-! ## Virtual channels and the arbiter of a port (R387) -/

/-- The class of a packet (R385): 0 request, 1 response, 2 tree. -/
def classOf (p : Packet) : Nat :=
  match p.type.toNat with
  | 0 => 0
  | 2 => 0
  | 5 => 2
  | _ => 1

/-- The virtual channel of a packet on a hop by a port: its class, and the stage of the hop (0 first local, 1 global, 2 last
local). The one hop of a packet within a group is a first local hop, as its STAGE is 0 (log 31). -/
def vcOf (p : Packet) (port : Nat) : Nat := 3 * classOf p + (if 32 ≤ port then 1 else if p.stage then 2 else 0)

/-- Flit slots of a virtual channel at the next hop. -/
def vcSlots : Nat := 32

/-- Free slots of a virtual channel at the next hop. -/
def Link.free (l : Link) (vc : Nat) : Nat := vcSlots - tget 0 l.slots vc

/-- Flits queued at the port. -/
def Link.queued (l : Link) : Nat := (l.queue.map (fun e => e.left.length)).sum + (l.sending.map (fun e => e.left.length)).getD 0

/-- The packet that the arbiter takes next: a TREE packet before any other, in the order they came; one whose channel has a free
slot for each of its flits (log 31). -/
def Link.choose (l : Link) : Option Egress :=
  let fits : Egress → Bool := fun e => decide (e.left.length ≤ l.free e.vc)
  match l.queue.find? (fun e => classOf e.held.pkt = 2 && fits e) with
  | some e => some e
  | none => l.queue.find? fits

/-- The arbiter takes a packet: its flits hold their slots from now on. -/
def Link.begin (l : Link) (e : Egress) : Link :=
  { l with queue := l.queue.erase e, sending := some e, slots := tset 0 l.slots e.vc (tget 0 l.slots e.vc + e.left.length) }

/-- The next flit of the packet being sent goes onto the link and into the replay buffer. -/
def Link.sendFlit (l : Link) (e : Egress) (f : BitVec 256) (r : List (BitVec 256)) : Link :=
  { l with sending := if r = [] then none else some { e with left := r }, buffer := l.buffer ++ [{ seq := l.txSeq, vc := e.vc, flit := f }],
           txSeq := l.txSeq + 1, striped := l.striped + 1 }

/-- One move of a port: none while it is down or its replay buffer is full (R394). After a restripe sequence it replays and continues (R396). -/
def Link.move (port : Nat) (l : Link) : Option Link :=
  if !l.up || decide (bufferSize port ≤ l.buffer.length) then none
  else
    match l.sending with
    | some e =>
      match e.left with
      | [] => some { l with sending := none }
      | f :: r => some (l.sendFlit e f r)
    | none => l.choose.map l.begin

/-- Moves until the port can go no further. -/
def Link.moves (port : Nat) : Nat → Link → Link
  | 0, l => l
  | n + 1, l =>
    match l.move port with
    | none => l
    | some m => Link.moves port n m

/-- Send what the port can send. -/
def Link.drain (port : Nat) (l : Link) : Link := l.moves port (l.queued + 2 * l.queue.length + 2)

/-- Slots at the next hop that are free again: packets have moved on there, or been lost on the way; how many, the next hop decides, whether
their flits have been acknowledged or not. Slots kept for flits that have not left yet stay. -/
def Link.release (l : Link) (choice : Nat) : Link :=
  (List.range 9).foldl (fun a vc =>
    let own := ((a.sending.filter (fun e => e.vc = vc)).map (fun e => e.left.length)).getD 0
    let n := Config.slotsFreed choice vc % (tget 0 a.slots vc - own + 1)
    { a with slots := tset 0 a.slots vc (tget 0 a.slots vc - n) }) l

/-! ## Paths (R386) -/

/-- A first hop towards a rank: its port, and whether it is the global hop. -/
structure Hop where
  port : Nat
  glob : Bool
  deriving DecidableEq, Repr

/-- The hops that qualify for a packet: the local link in the own group; for a packet of the own package to another group, one for
each global link of the pair of groups whose ends are members and whose path is up, in the order of k. The links beyond the first
hop are other packages' (log 2). A packet on its way has one hop left to choose from: the global link of the pair that ends here. -/
def State.hops (s : State) (h : HeldPkt) (choice : Nat) : List Hop :=
  let dest := h.pkt.drank.toNat
  let gs := s.rank / 32
  let gd := dest / 32
  let all :=
    if gs = gd then [{ port := s.localPort (dest % 32), glob := false }]
    else if h.pkt.stage then []
    else
      (List.range 4).filterMap (fun k =>
        let near := globalEnd s.ng gs gd k
        let far := globalEnd s.ng gd gs k
        if h.port.isSome then (if near.1 = s.rank % 32 then some { port := 32 + near.2, glob := true } else none)
        else if s.member (32 * gs + near.1) && s.member (32 * gd + far.1) then
          if near.1 = s.rank % 32 then
            (if far.1 = dest % 32 || Config.freeBit (4 * choice + k) then some { port := 32 + near.2, glob := true } else none)
          else if Config.freeBit (4 * choice + k) then some { port := s.localPort near.1, glob := false } else none
        else none)
  all.filter (fun h => (s.link h.port).up)

/-- The score of a hop for a packet: free slots of its channel at the next hop, less the flits queued at the port. -/
def State.score (s : State) (p : Packet) (h : Hop) : Int :=
  ((s.link h.port).free (vcOf p h.port) : Int) - ((s.link h.port).queued : Int)

/-- The hop with the highest score, the first on a tie. -/
def bestHop (score : Hop → Int) : List Hop → Option Hop
  | [] => none
  | h :: r =>
    match bestHop score r with
    | none => some h
    | some b => if score h < score b then some b else some h

/-- A packet at the egress port of a hop; it carries STAGE 1 from its global hop on. -/
def HeldPkt.egress (h : HeldPkt) (x : Hop) : Egress :=
  { held := h, vc := vcOf h.pkt x.port, left := flitsOf { h.pkt with stage := h.pkt.stage || x.glob } }

/-- Hand a packet to the port of its best hop; none where no path qualifies. -/
def State.route? (s : State) (h : HeldPkt) : Option State :=
  let d := s.draw
  match bestHop (d.2.score h.pkt) (d.2.hops h d.1) with
  | none => none
  | some x =>
    let l := d.2.link x.port
    some (d.2.setLink x.port (Link.drain x.port { l with queue := l.queue ++ [h.egress x] }))

/-- A packet waits for a path. -/
def State.holdPacket (s : State) (h : HeldPkt) : State := { s with fab := { s.fab with waiting := s.fab.waiting ++ [h] } }

/-- Hand a packet to the fabric: to a port, or it waits. -/
def State.toFabric (s : State) (h : HeldPkt) : State := ((if s.fabricOn then s.route? h else none)).getD (s.holdPacket h)

/-- Try the packets that wait, TREE packets first. -/
def State.pump (s : State) : State :=
  if !s.fabricOn then s
  else
    let w := s.fab.waiting
    (w.filter (fun h => classOf h.pkt = 2) ++ w.filter (fun h => classOf h.pkt ≠ 2)).foldl State.toFabric
      { s with fab := { s.fab with waiting := [] } }

/-- Every port goes on sending. -/
def State.drainPorts (s : State) : State :=
  (List.range 48).foldl (fun a p => if (a.link p).queue = [] && (a.link p).sending.isNone then a else a.setLink p ((a.link p).drain p)) s

/-- At each port that sends, the next hop frees slots (R387). -/
def State.freeSlots (s : State) : State :=
  (List.range 48).foldl (fun a p =>
    if (a.link p).queue = [] && (a.link p).sending.isNone then a
    else
      let d := a.draw
      d.2.setLink p ((d.2.link p).release d.1)) s

/-- Flits that hold slots of a virtual channel of an ingress port of this package: those of packets on their way to another one. -/
def State.slotsHeld (s : State) (port vc : Nat) : Nat :=
  let mine : HeldPkt → Bool := fun h => h.port == some port && vcOf h.pkt port == vc
  ((s.fab.waiting.filter mine).map (fun h => h.pkt.len.toNat + 1)).sum +
    (s.fab.links.map (fun x => (((x.2.queue ++ x.2.sending.toList).filter (fun e => mine e.held)).map (fun e => e.left.length)).sum)).sum

end Sys2Proof.Machine
end

