-- ==== Sys2Proof/Machine/Tree.lean ====
section
/-! DEFINITION. Sending packets and transactions (21 R384, R385, R388) and the upward half of a boundary: who leads, when a
package has arrived, and sending ARR (05 R122, R124, R136; 21 R389). -/

namespace Sys2Proof.Machine

/-- The header of a packet to a rank (R384, R393). -/
def State.mkPacket (s : State) (drank type len : Nat) (txid : BitVec 16) (body : Nat) (data : List Byte) : Packet :=
  { drank := BitVec.ofNat 12 drank, dinc := tget 0 s.fab.pinc drank, srank := BitVec.ofNat 12 s.rank,
    sinc := BitVec.ofNat 4 (s.preg 0x682), type := BitVec.ofNat 4 type, len := BitVec.ofNat 4 len, stage := false,
    txid := txid, body := BitVec.ofNat 192 body, data := data }

/-- The row that handles a packet on arrival (R385, R389); none for the types and phases that are dropped. -/
def packetRow (p : Packet) : Option Instr :=
  match p.type.toNat with
  | 0 => some (.rdreq p)
  | 1 => some (.rdrsp p)
  | 2 => some (.recv p)
  | 3 => some (.recack p)
  | 4 => some (.credit p)
  | 5 =>
    match (p.body.extractLsb' 0 8).toNat with
    | 0 => some (.treeArr p)
    | 1 => some (.treeDrain p)
    | 2 => some (.treeDrn p)
    | 3 => some (.treeCommit p)
    | 4 => some (.treeCmt p)
    | 5 => some (.treeRel p)
    | _ => none
  | _ => none

/-- Hand a packet to its receiver: one to the own package becomes the next row it causes, any other waits for a path. -/
def State.send (s : State) (p : Packet) : State :=
  if p.drank.toNat = s.rank then
    match packetRow p with
    | some i => { s with agenda := s.agenda ++ [i] }
    | none => s
  else s.toFabric { pkt := p, port := none }

/-- The first of n transaction numbers, from one on, that no outstanding transaction has. -/
def freshTx (used : List (BitVec 16)) : Nat → BitVec 16 → Option (BitVec 16)
  | 0, _ => none
  | n + 1, id => if used.contains id then freshTx used n (id + 1) else some id

/-- A transaction takes a number and its request goes out; it waits while all 65,536 numbers are outstanding (R384, R388). -/
def State.startTxn (s : State) (x : Txn) : State :=
  match freshTx (s.fab.txns.map (·.txid)) 65536 s.fab.nextTx with
  | none => { s with fab := { s.fab with unsent := s.fab.unsent ++ [x] } }
  | some id =>
    let y := { x with txid := id, pkt := { x.pkt with txid := id } }
    State.toFabric { s with fab := { s.fab with nextTx := id + 1, txns := s.fab.txns ++ [y] } } { pkt := y.pkt, port := none }

/-- Open a transaction: a request that waits for its response (R388). -/
def State.openTxn (s : State) (owner : TxFor) (va drank type len body : Nat) (data : List Byte) : State :=
  s.startTxn { txid := 0, pkt := s.mkPacket drank type len 0 body data, owner := owner, va := va }

/-- Cut (virtual, physical) addresses into runs of consecutive bytes of one 256 B block (R385). -/
def paRuns : List (Nat × Nat) → List (List (Nat × Nat))
  | [] => []
  | x :: xs =>
    match paRuns xs with
    | (y :: run) :: more =>
      if y.2 = x.2 + 1 && y.2 / 256 = x.2 / 256 then (x :: y :: run) :: more else [x] :: (y :: run) :: more
    | rest => [x] :: rest

/-- Addresses, by their physical part, in other packages. -/
def State.remote (s : State) (pas : List (Nat × Nat)) : List (Nat × Nat) := pas.filter (fun p => p.2 / 2 ^ 40 ≠ s.rank)

/-- Ask remote homes for snapshot bytes: one RDREQ for each run within a block (R385). -/
def State.requestBytes (s : State) (owner : TxFor) (pas : List (Nat × Nat)) : State :=
  (paRuns (s.remote pas)).foldl (fun a run =>
    let p := (run.headD (0, 0)).2
    a.openTxn owner (run.headD (0, 0)).1 (p / 2 ^ 40) 0 0 (p % 2 ^ 40 + (run.length - 1) * 2 ^ 40) []) s

/-! ## Leaders and the root (R389) -/

/-- The member positions of a group as a bitmap. -/
def State.groupMask (s : State) (g : Nat) : BitVec 32 :=
  BitVec.ofNat 32 (((List.range 32).filter (fun p => s.member (32 * g + p))).foldl (fun a p => a + 2 ^ p) 0)

/-- The lowest-ranked member of a group. -/
def State.leaderOf (s : State) (g : Nat) : Option Nat :=
  ((List.range 32).find? (fun p => s.member (32 * g + p))).map (32 * g + ·)

/-- The groups that have members. -/
def State.podGroups (s : State) : List Nat := (List.range (s.preg 0x680 % 256)).filter (fun g => (s.leaderOf g).isSome)

/-- The lowest-ranked member of the pod. -/
def State.root (s : State) : Option Nat := (s.podGroups.head?).bind s.leaderOf

/-- A TREE message (R385, R389). -/
def State.treePacket (s : State) (dest phase : Nat) (quiesce : Bool) (bitmap : BitVec 32) : Packet :=
  s.mkPacket dest 5 0 0 (phase + (if quiesce then 256 else 0) + s.stepNum % 2 ^ 64 * 2 ^ 64 + bitmap.toNat * 2 ^ 128) []

def Packet.phase (p : Packet) : Nat := (p.body.extractLsb' 0 8).toNat
def Packet.quiesce (p : Packet) : Bool := p.body.getLsbD 8
def Packet.stepN (p : Packet) : Nat := (p.body.extractLsb' 64 64).toNat
def Packet.bitmap (p : Packet) : BitVec 32 := p.body.extractLsb' 128 32

/-- Report a phase upwards to the leader of the own group; QUIESCE is a flag of ARR, the bitmap one of a leader's message. -/
def State.report (s : State) (phase : Nat) : State :=
  match s.leaderOf (s.rank / 32) with
  | some l => s.send (s.treePacket l phase (phase == 0 && s.disp.quiesce == .waitStep) 0)
  | none => s

/-- Has the package arrived (R122, R124)? -/
def State.packageArrived (s : State) : Bool := s.tasks.all (fun e => !e.2.stepm || !e.2.counted || e.2.arrived)

/-- Has a boundary begun, as far as the package can tell: it holds an arrived step-member task, or a record of generation n, or has been told by
an ARR of another (R124)? -/
def State.beginsBoundary (s : State) : Bool :=
  s.bnd.begun || s.tasks.any (fun e => e.2.stepm && e.2.arrived) || s.outbound.any (fun r => r.gen = s.stepNum)

/-- Is the package in a kernel cut, from the moment its tasks are saved until RESUME: no boundary passes its arrived phase (R348)? -/
def State.kernelCut (s : State) : Bool :=
  match s.disp.quiesce with
  | .saving false => true
  | .held false => true
  | _ => false

/-- QUIESCE.KERNEL holds ARR back from its start until RESUME (R348). -/
def State.arrHeld (s : State) : Bool :=
  s.kernelCut || s.disp.quiesce == .waitKernel

/-- The package counts as arrived and sends ARR (R389). -/
def State.sendArr (s : State) : State :=
  { s with bnd := { s.bnd with sentArr := true, phase := .arrived, signalled := s.disp.quiesce == Quiesce.waitStep } }.report 0

/-- Send ARR when the package has arrived and a boundary has begun. -/
def State.tryArr (s : State) : State :=
  if s.member s.rank && !s.bnd.sentArr && s.packageArrived && s.beginsBoundary && !s.arrHeld then s.sendArr else s

end Sys2Proof.Machine
end

