-- ==== Sys2Proof/Machine/Ops.lean ====
section
/-! DEFINITION. The named operations over registers, the SRF, rings, memory queues and tasks, and taking an exception and
returning from one (17 R317, R318, R321). -/

namespace Sys2Proof.Machine

/-- The outcome of a meaning. -/
abbrev Out := Host.Outcome State Fault Refusal

/-! ## Registers of a hart -/

/-- x[r]; x0 reads zero (R146). -/
def Hart.x (h : Hart) (r : Reg) : Word := if r = 0 then 0 else tget 0 h.xs r.toNat

/-- Write x[r], whose check code is then good (R323); a write to x0 is discarded (R146). -/
def Hart.setX (h : Hart) (r : Reg) (v : Word) : Hart :=
  if r = 0 then h else { h with xs := tset 0 h.xs r.toNat v, xbad := tdel h.xbad r.toNat }

/-- Move the pc on by n bytes. -/
def Hart.advance (h : Hart) (n : Nat) : Hart := { h with pc := h.pc + BitVec.ofNat 64 n }

/-- The register that a pending load entry writes. -/
def LoadEntry.dest (e : LoadEntry) : Option Reg :=
  match e.kind with
  | .scalar l => some l.d
  | .stream _ => none

/-- The register that a pending CAS or AMO writes. -/
def StoreEntry.dest (e : StoreEntry) : Option Reg :=
  match e.kind with
  | .rmw (.cas _) _ _ d _ _ _ _ => some d
  | .rmw (.amo _) _ _ d _ _ _ _ => some d
  | _ => none

/-- Is a register still to be written by an older load, CAS or AMO (R182, R200)? -/
def Hart.busy (h : Hart) (r : Reg) : Bool :=
  r ≠ 0 && (h.loads.any (fun e => e.dest == some r) || h.stores.any (fun e => e.dest == some r))

/-- The interlock of R182: every register named is written. -/
def Hart.ready (h : Hart) (rs : List Reg) : Bool := rs.all (fun r => !h.busy r)

/-! ## Agents, tasks, harts -/

/-- The task an agent belongs to. -/
def agentTask : Agent → Nat
  | .scp t => t
  | .stoek t _ => t

def State.task? (s : State) (k : Nat) : Option Task := tfind s.tasks k

def State.putTask (s : State) (k : Nat) (t : Task) : State := { s with tasks := tput s.tasks k t }

/-- Is a task placed on a physical gnoum and not being drained or saved? -/
def Task.seated (t : Task) : Bool :=
  match t.run with
  | .placed _ => true
  | _ => false

/-- Does a task's SCP run: placed, or being drained and still in mode S (R311, R338)? Not after a double fault (R318). -/
def Task.scpOn (t : Task) : Bool :=
  match t.run with
  | .placed _ => !t.doubled
  | .draining _ _ _ => t.sup.mode && !t.doubled
  | _ => false

/-- Does a task's SCP issue instructions? Not while its HALT waits (R20). -/
def Task.placed (t : Task) : Bool := t.scpOn && !t.halting

/-- Do a task's engines act: placed, draining, or finishing while the context streams out (R337, R338)? -/
def Task.onChip (t : Task) : Bool :=
  match t.run with
  | .ready _ => false
  | _ => true

def Task.stoek? (t : Task) (tag : Nat) : Option Stoek := t.stoeks.find? (fun p => p.tag = tag)

/-- Is a Stoek program executing instructions? -/
def Stoek.live (p : Stoek) : Bool := p.ending == .running

/-- The store queue with the entry of a stream instruction removed. -/
def dropStreamStore (tag : Nat) (l : List StoreEntry) : List StoreEntry :=
  l.filter (fun e => match e.kind with | .stream t => t != tag | _ => true)

/-- Is a store entry the one of a stream instruction? -/
def StoreEntry.isStream (e : StoreEntry) (tag : Nat) : Bool :=
  match e.kind with
  | .stream n => n == tag
  | _ => false

/-- The image of a descriptor as a number, its SPACE code and the space (R86). -/
def Desc.im (d : Desc) : Nat := d.image.toNat

def Desc.spaceCode (d : Desc) : Nat := bits d.im 61 60

def Desc.space (d : Desc) : Space :=
  match d.spaceCode with
  | 0 => .package
  | 1 => .pod
  | _ => .host

/-- What is left of the store entry of a stream instruction that ends before its whole effect: elements that the host port accepted have
performed at scope k and wait for the host's acknowledgement (R100, R101); nothing else is. -/
def StoreEntry.settled (e : StoreEntry) : StoreEntry := { e with kind := .store .host 0 [] [] 0, acq := false, rel := false, atK := true }

/-- The store queue once a stream instruction has ended early. -/
def Task.settleStores (t : Task) (tag : Nat) : List StoreEntry :=
  let host := t.sq.any (fun q => q.tag = tag && q.desc.space == .host)
  t.hart.stores.filterMap (fun e => if !e.isStream tag then some e else if host && e.begun then some e.settled else none)

/-- The store entry of a stream instruction has begun to perform. -/
def Task.beginStore (t : Task) (tag : Nat) : Task :=
  { t with hart := { t.hart with stores := t.hart.stores.map (fun e => if e.isStream tag then { e with begun := true } else e) } }

/-- The load queue without the entry of a stream instruction. -/
def dropStreamLoad (tag : Nat) (l : List LoadEntry) : List LoadEntry :=
  l.filter (fun e => match e.kind with | .stream t => t != tag | _ => true)

/-- A program that has faulted or has been cancelled gives up its pins once its issued stores have performed (R287, R291, R366). -/
def Stoek.unpinned (p : Stoek) : Stoek :=
  match p.ending with
  | .fault _ _ _ => if p.hart.stores.isEmpty then { p with pins := [], triples := [] } else p
  | .cancel => if p.hart.stores.isEmpty then { p with pins := [], triples := [] } else p
  | _ => p

/-- Put a Stoek program back. Once it executes no more and its loads have bound, nothing of STKRUN's load entry is left to bind, and once
its stores have performed, nothing of its store entry is left to perform: the entry has completed (R100, R103, R114, log 34). -/
def Task.putStoek (t : Task) (p : Stoek) : Task :=
  { t with stoeks := t.stoeks.map (fun q => if q.tag = p.tag then p.unpinned else q),
           hart := { t.hart with
             loads := if p.live || !p.hart.loads.isEmpty then t.hart.loads else dropStreamLoad p.tag t.hart.loads,
             stores := if p.live || !p.hart.stores.isEmpty then t.hart.stores else dropStreamStore p.tag t.hart.stores } }

/-- The hart of an agent. -/
def State.hart? (s : State) (ag : Agent) : Option Hart :=
  match s.task? (agentTask ag) with
  | none => none
  | some t =>
    match ag with
    | .scp _ => some t.hart
    | .stoek _ tag => (t.stoek? tag).map (·.hart)

/-- Does an agent execute words now? A Stoek program does on a core, which executes one instruction at a time: none while a load of the
program has not bound (R277). -/
def State.runs (s : State) (ag : Agent) : Bool :=
  match s.task? (agentTask ag) with
  | none => false
  | some t =>
    match ag with
    | .scp _ => t.placed
    | .stoek _ tag => (match t.run with | .placed _ => true | .draining _ _ _ => true | _ => false) &&
        ((t.stoek? tag).map (fun p => p.live && p.core && p.hart.loads.isEmpty)).getD false

/-- Give an agent another hart. -/
def State.putHart (s : State) (ag : Agent) (h : Hart) : State :=
  match s.task? (agentTask ag) with
  | none => s
  | some t =>
    match ag with
    | .scp k => s.putTask k { t with hart := h }
    | .stoek k tag =>
      match t.stoek? tag with
      | none => s
      | some p => s.putTask k (t.putStoek { p with hart := h })

/-- In whose name an agent's accesses translate (R352). -/
def State.xctx (s : State) (ag : Agent) : XCtx :=
  match s.task? (agentTask ag) with
  | none => { asid := 0, modeS := false, stepm := false, pins := [] }
  | some t =>
    match ag with
    | .scp _ => { asid := t.asid, modeS := t.sup.mode, stepm := t.stepm, pins := [] }
    | .stoek _ tag =>
      let m := ((t.stoek? tag).map (·.modeS)).getD false
      { asid := t.asid, modeS := m, stepm := t.stepm, pins := [] }

/-- What an executing instruction is given: the agent and its hart. An agent that executes no words changes nothing. -/
def State.onHart (s : State) (k : Agent → Hart → Out) : Out :=
  if s.runs s.focus then
    match s.hart? s.focus with
    | some h => k s.focus h
    | none => .next s
  else .next s

/-! ## The memory queues (04 R101 to R109) -/

/-- Does a queued stream instruction have an entry in the memory queues, a load entry, a store entry (R101)? -/
def hasLoadEntry : Instr → Bool
  | .sld .. | .sga .. | .nbmv .. | .descend .. | .stkrun .. | .stkrunNoring .. => true
  | _ => false

def hasStoreEntry : Instr → Bool
  | .sst .. | .ssc .. | .stkrun .. | .stkrunNoring .. => true
  | _ => false

/-- Places in program order of the unfinished stream instructions whose load entry has not entered the load queue yet: what waits for
older entries waits for these too (R101, R108). A faulted one has completed its entries. -/
def streamPlaces (sq : List QInstr) : List Nat :=
  (sq.filter (fun q => hasLoadEntry q.ins && !q.entered && q.fault.isNone)).map (·.po)

def Task.streamPos (t : Task) : List Nat := streamPlaces t.sq

/-- The same for an agent: a Stoek program has none (R114). -/
def State.streamPos (s : State) (ag : Agent) : List Nat :=
  match ag with
  | .scp k => ((s.task? k).map Task.streamPos).getD []
  | .stoek _ _ => []

/-- Has a store entry completed at a scope? Only a host store that its port accepted can stay after completing at k. A store to package
memory performs at g, k and h in the same instant, so that MARK.g acts as MARK.k (log 48). -/
def StoreEntry.doneAt (e : StoreEntry) (sc : Scope) : Bool := e.atK && sc != .h

/-- Is an entry older than a place in program order not complete at a scope? `extra` are places of unfinished stream
instructions. -/
def Hart.olderPending (h : Hart) (extra : List Nat) (po : Nat) (sc : Scope) : Bool :=
  h.loads.any (fun e => decide (e.po < po)) || extra.any (fun p => decide (p < po)) ||
    h.stores.any (fun e => decide (e.po < po) && !e.doneAt sc)

/-- Do MARK, acquire and release let an entry at a place bind or perform (R108, R109)? -/
def Hart.mayGo (h : Hart) (extra : List Nat) (po : Nat) (rel : Bool) (sc : Scope) : Bool :=
  h.marks.all (fun m => !decide (m.1 < po) || !h.olderPending extra m.1 m.2) &&
    !h.loads.any (fun e => decide (e.po < po) && e.acq) &&
    !h.stores.any (fun e => decide (e.po < po) && e.acq) &&
    (!rel || !h.olderPending extra po sc)

/-- Forget the MARKs once nothing older than them is pending. -/
def Hart.prune (h : Hart) (extra : List Nat) : Hart :=
  { h with marks := h.marks.filter (fun m => h.olderPending extra m.1 m.2) }

/-- The load entries ahead of a place in the load queue. -/
def loadsAhead (po : Nat) (isStream : Nat → Bool) : List LoadEntry → List LoadEntry
  | [] => []
  | e :: r =>
    let me := match e.kind with
      | .scalar _ => e.po == po
      | .stream t => isStream t
    if me then [] else e :: loadsAhead po isStream r

/-- A scalar load binds only when every older entry of the load queue has begun to bind (R102). -/
def Hart.loadTurn (h : Hart) (po : Nat) : Bool := (loadsAhead po (fun _ => false) h.loads).all (·.begun)

/-- A stream load entry likewise. -/
def Hart.streamLoadTurn (h : Hart) (tag : Nat) : Bool := (loadsAhead h.po.succ (· == tag) h.loads).all (·.begun)

/-- Is a load entry the one of a stream instruction? -/
def LoadEntry.isStream (e : LoadEntry) (tag : Nat) : Bool :=
  match e.kind with
  | .stream n => n == tag
  | _ => false

/-- Has the load entry of a stream instruction begun to bind? -/
def Task.loadBegun (t : Task) (tag : Nat) : Bool := t.hart.loads.any (fun e => e.isStream tag && e.begun)

/-- Is it the turn of the store entry of a stream instruction: every older entry has completed and nothing holds it back (R103,
R108, R109)? A store to host memory performs at k, and at h only when the host acknowledges it (R100). -/
def Task.storeTurn (t : Task) (tag : Nat) (host : Bool) : Bool :=
  match (if host then t.hart.stores.dropWhile (·.atK) else t.hart.stores) with
  | e :: _ => e.isStream tag && t.hart.mayGo t.streamPos e.po false .h
  | [] => false

/-- A Stoek program binds and performs only within its STKRUN's entries (R114). -/
def State.outerLoad (s : State) (ag : Agent) : Bool :=
  match ag with
  | .scp _ => true
  | .stoek k tag => ((s.task? k).map (·.loadBegun tag)).getD false

def State.outerStore (s : State) (ag : Agent) : Bool :=
  match ag with
  | .scp _ => true
  | .stoek k tag => ((s.task? k).map (·.storeTurn tag false)).getD false

/-- One byte of a scalar load: forwarded from the youngest older STP or STH to it, else none (R105). -/
def forwardByte (sp : Space) (pa po : Nat) : List StoreEntry → Option Byte
  | [] => none
  | e :: r =>
    match forwardByte sp pa po r with
    | some b => some b
    | none =>
      match e.kind with
      | .store sp' _ pas data _ =>
        if sp' = sp && decide (e.po < po) && !e.atK then ((pas.zip data).reverse.find? (fun w => w.1 = pa)).map (·.2) else none
      | _ => none

/-! ## Pending write records (05 R127 to R129, R134, R139) -/

/-- Apron bytes of a record with this many data bytes (R129). -/
def recSize (n : Nat) : Nat := 16 + 16 * ceilDiv n 16

/-- Cut (virtual address, physical address, byte) triples in element order into runs of consecutive bytes of one 256 B block. -/
def recRuns : List (Nat × Nat × Byte) → List (List (Nat × Nat × Byte))
  | [] => []
  | x :: xs =>
    match recRuns xs with
    | (y :: run) :: more =>
      if y.2.1 = x.2.1 + 1 && y.2.1 / 256 = x.2.1 / 256 then (x :: y :: run) :: more else [x] :: (y :: run) :: more
    | rest => [x] :: rest

/-- The generation that a task's pod stores take: n, or n + 1 in the kerf (R134). -/
def State.generation (s : State) (t : Task) : Nat := s.stepNum + (if t.arrived then 1 else 0)

/-- The first n granules of an apron that are not used, from one on. -/
def freshGranules (used : List Nat) : (fuel g n : Nat) → List Nat
  | 0, _, _ => []
  | f + 1, g, n =>
    if n = 0 then [] else if used.contains g then freshGranules used f (g + 1) n else g :: freshGranules used f (g + 1) (n - 1)

/-- The local addresses that a record takes in the apron whose base stands in a register (R129, R138). -/
def State.apronBytes (s : State) (reg : Nat) (r : Rec) : List Nat :=
  match s.localOf (s.preg reg) 0 with
  | .ok la => (r.place.flatMap (fun g => addrs (la + 16 * g) 16)).filter (fun a => decide (a < memLimit))
  | .error _ => []

/-- Write a record into an apron through the controllers (R369). -/
def State.writeApron (s : State) (reg : Nat) (r : Rec) : State :=
  let las := s.apronBytes reg r
  s.writeLocal 3 0xFFFF 0xFF 0 las ((List.range las.length).map (Config.apronByte r.key.toNat r.gen))

/-- A record with its place beside the records of a list. -/
def Rec.placed (r : Rec) (among : List Rec) : Rec :=
  let used := among.flatMap (·.place)
  let n := recSize r.data.length / 16
  { r with place := freshGranules used (used.length + n) 0 n }

/-- A record enters the outbound apron, at AOBASE; the inbound apron, at AIBASE (R138). -/
def State.addOutbound (s : State) (r : Rec) : State :=
  let x := r.placed s.outbound
  ({ s with outbound := s.outbound ++ [x] }).writeApron 0x210 x

def State.addInbound (s : State) (r : Rec) : State :=
  let x := r.placed s.inbound
  ({ s with inbound := s.inbound ++ [x] }).writeApron 0x211 x

/-- The record of one run (R128, R129). -/
def mkRec (pteAt : Nat → Nat) (rank lg seq gen : Nat) (run : List (Nat × Nat × Byte)) : Rec :=
  let va := ((run.head?).map (·.1)).getD 0
  let pa := ((run.head?).map (·.2.1)).getD 0
  { key := BitVec.ofNat 64 (rank * 2 ^ 52 + lg * 2 ^ 44 + seq), home := pa / 2 ^ 40, addr := pa % 2 ^ 40,
    va := va, page := some { cls := bits (pteAt va) 54 52, mw := bits (pteAt va) 11 10 }, data := run.map (·.2.2), gen := gen, sent := false, acked := false,
    place := [] }

/-- Make records of runs in order, each with the next SEQ; `pteAt` gives the leaf entry of a virtual address. -/
def State.makeRecs (s : State) (k : Nat) (pteAt : Nat → Nat) (runs : List (List (Nat × Nat × Byte))) : State :=
  match s.task? k with
  | none => s
  | some t =>
    let rs := (runs.zip (List.range runs.length)).map (fun r => mkRec pteAt s.rank t.lg (t.seq + r.2) (s.generation t) r.1)
    (rs.foldl State.addOutbound s).putTask k { t with seq := t.seq + runs.length }

/-- Bytes of the outbound apron in use: records, and the reservations of store entries and stream instructions. -/
def State.apronUsed (s : State) : Nat :=
  (s.outbound.map (fun r => recSize r.data.length)).sum +
    (s.tasks.map (fun e => (e.2.sq.map (·.resv)).sum +
      (e.2.hart.stores.map (fun x => match x.kind with | .stg _ _ _ _ r => r | _ => 0)).sum)).sum

/-- Room for more in the outbound apron (R139). -/
def State.apronRoom (s : State) (n : Nat) : Bool := decide (s.apronUsed + n ≤ bits (s.preg 0x212) 6 0 * 2 ^ 30)

/-! ## Performing a store entry -/

/-- The unit id of a task for records (R324). -/
def State.unitOf (s : State) (k : Nat) : Nat := ((s.task? k).map (·.lg)).getD 0xFFFF

/-- Write x[d] of an agent. -/
def State.writeX (s : State) (ag : Agent) (d : Reg) (v : Word) : State :=
  match s.hart? ag with
  | some h => s.putHart ag (h.setX d v)
  | none => s

/-- A deferred fault of a load, CAS or AMO, which is taken after those that arose before it (R183, R392), or the end of a Stoek program
by DATAERR (R291). -/
def State.deferFault (s : State) (ag : Agent) (f : FaultInfo) (pc : Word) : State :=
  match s.task? (agentTask ag) with
  | none => s
  | some t =>
    match ag with
    | .scp k => s.putTask k { t with deferred := t.deferred ++ [(f, pc)] }
    | .stoek k tag =>
      match t.stoek? tag with
      | none => s
      | some p =>
        match p.ending with
        | .fault _ _ _ => s
        | .cancel => s
        | _ => s.putTask k (t.putStoek { p with ending := .fault f.code pc f.va })

/-- The tag that an event record gives an agent's own accesses (R324). -/
def agentTag : Agent → Nat
  | .scp _ => 0xFF
  | .stoek _ tag => tag % 64

/-- The effect of a store entry when it performs at scope k; the entry itself is removed or marked by the caller. -/
def State.performStore (s : State) (ag : Agent) (e : StoreEntry) : State :=
  let k := agentTask ag
  let unit := s.unitOf k
  match e.kind with
  | .store .package _ pas data pc => s.writeLocal 3 unit (agentTag ag) pc.toNat (pas.map (· % 2 ^ 40)) data
  | .store .host _ pas data _ => { s with hmem := wrBytes s.hmem pas data }
  | .store .pod _ _ _ _ => s
  | .stream _ => s
  | .stg va pas data ptes _ =>
      s.makeRecs k (fun a => ptes.getD (a - va.toNat) 0) (recRuns ((addrs va.toNat pas.length).zip (pas.zip data)))
  | .reds op els pc =>
      els.foldl (fun t x => (t.rmwLocal (.red op) 4 (x.2.1 % 2 ^ 40) x.2.2.toNat unit x.1 (agentTag ag) pc.toNat).1) s
  | .rmw op dw host d b va pa pc =>
      let n := if dw then 8 else 4
      let r := if host then s.rmwHost op n pa b.toNat unit va.toNat pc.toNat
        else s.rmwLocal op n (pa % 2 ^ 40) b.toNat unit va.toNat (agentTag ag) pc.toNat
      match r.2 with
      | some old =>
          (match op with
           | .red _ => r.1
           | _ => r.1.writeX ag d (BitVec.ofNat 64 old))
      | none =>
          (match op with
           | .red _ => r.1
           | _ => r.1.deferFault ag (addrFault cDATAERR va.toNat false) pc)

/-! ## The SRF (03 R73, R77, R85) -/

/-- Footprint in bytes. -/
def Task.srfSize (t : Task) : Nat := t.foot * 2 ^ 18

/-- One SRF byte. -/
def srfByte (m : Tbl Line) (o : Nat) : Byte := (tget 0 m (o / 128)).extractLsb' (8 * (o % 128)) 8

/-- Write one SRF byte. -/
def srfPut (m : Tbl Line) (o : Nat) (b : Byte) : Tbl Line :=
  let l := tget 0 m (o / 128)
  let sh := 8 * (o % 128)
  tset 0 m (o / 128) ((l &&& ~~~((0xFF#1024) <<< sh)) ||| (b.setWidth 1024 <<< sh))

/-- n SRF bytes from an offset. -/
def srfBytes (m : Tbl Line) (o n : Nat) : List Byte := (addrs o n).map (srfByte m)

/-- n SRF bytes as a number. -/
def srfNat (m : Tbl Line) (o n : Nat) : Nat := leNat (srfBytes m o n)

/-- Write bytes at an offset. -/
def srfWrite (m : Tbl Line) (o : Nat) : List Byte → Tbl Line
  | [] => m
  | b :: bs => srfWrite (srfPut m o b) (o + 1) bs

/-- Do two byte intervals (first, length) share a byte? -/
def overlap (a b : Nat × Nat) : Bool := decide (a.1 < b.1 + b.2) && decide (b.1 < a.1 + a.2) && a.2 != 0 && b.2 != 0

/-! ## Rings (03 R79 to R85) -/

def Task.ring (t : Task) (n : Nat) : Ring := tget Ring.none t.rings n

def Task.setRing (t : Task) (n : Nat) (r : Ring) : Task := { t with rings := tset Ring.none t.rings n r }

/-- A ring's range (R79). -/
def Ring.range (r : Ring) : Nat × Nat := (r.base, r.nslot * r.slotsz * 128)

/-- SRF offset of slot i. -/
def Ring.slot (r : Ring) (i : Nat) : Nat := r.base + i * r.slotsz * 128

/-- Does an interval touch a configured ring (R85)? -/
def Task.inRing (t : Task) (iv : Nat × Nat) : Bool := t.rings.any (fun e => e.2.cfg && overlap iv e.2.range)

/-- May an interval be used as plain SRF (R19, R85)? -/
def Task.plainOk (t : Task) (iv : Nat × Nat) : Bool := decide (iv.1 + iv.2 ≤ t.srfSize) && !t.inRing iv

/-- Set one EOS tag. -/
def setEos (e : BitVec 256) (i : Nat) (v : Bool) : BitVec 256 :=
  if v then e ||| (1#256 <<< i) else e &&& ~~~(1#256 <<< i)

/-- publish(a, e) of R81 without its fault. -/
def Ring.publish (r : Ring) (a : Nat) (e : Bool) : Ring :=
  { r with eos := (List.range a).foldl (fun x i => setEos x ((r.tail + i) % r.nslot) e) r.eos,
           tail := (r.tail + a) % r.nslot, free := r.free - a, filled := r.filled + a }

/-- release(a) of R81 without its fault. -/
def Ring.release (r : Ring) (a : Nat) : Ring :=
  { r with eos := (List.range a).foldl (fun x i => setEos x ((r.head + i) % r.nslot) false) r.eos,
           head := (r.head + a) % r.nslot, filled := r.filled - a, free := r.free + a }

/-- EOS[(HEAD + i) mod NSLOT]. -/
def Ring.eosAt (r : Ring) (i : Nat) : Bool := r.eos.getLsbD ((r.head + i) % r.nslot)

/-! ## Groups (01 R33 to R37) -/

/-- Has the task been saved, and not placed again? -/
def Run.saved : Run → Bool
  | .ready _ => true
  | _ => false

/-- The tasks that are members of a group, with their arrived bits. -/
def State.members (s : State) (g : Nat) : List Bool :=
  s.tasks.filterMap (fun e => (e.2.groups.find? (fun m => m.1 = g)).map (·.2))

/-- Has the open episode of a group not released a task that is a member of it (R36)? -/
def Task.heldBy (t : Task) (g : Nat) : Bool := t.groups.contains (g, true)

/-- The SCP goes on behind the GBAR at its pc (R36). -/
def Task.passGbar (t : Task) (g : Nat) : Task :=
  { t with owed := t.owed.filter (· ≠ (g, t.hart.pc)), gbarWait := none, hart := t.hart.advance 8 }

/-- Release one task from a group's episode: its arrived bit clears; the GBAR that it arrived by completes when it executes (again), or,
where the task is saved while it waits there, at once: the saved pc moves past it (R36, R348, R420). -/
def Task.releaseGroup (t : Task) (g : Nat) : Task :=
  let t1 := { t with groups := t.groups.map (fun m => if m.1 = g then (g, false) else m) }
  if t1.gbarWait = some g && t1.run.saved then t1.passGbar g else t1

/-- Release the open episode of a group when every member has arrived (R36). -/
def State.tryRelease (s : State) (g : Nat) : State :=
  let ms := s.members g
  if !ms.isEmpty && ms.all id then { s with tasks := s.tasks.map (fun e => (e.1, e.2.releaseGroup g)) } else s

/-- A task leaves a group, and with it any arrival it still owes; that may release the episode (R35, R37). -/
def State.leaveGroup (s : State) (k g : Nat) : State :=
  match s.task? k with
  | none => s
  | some t => (s.putTask k { t with groups := t.groups.filter (fun m => m.1 ≠ g), owed := t.owed.filter (·.1 ≠ g) }).tryRelease g

/-! ## The end of tasks and launches (01 R15, R20; 17 R328) -/

/-- Where the completion word goes: a writable private page of package or host memory (R13, R14). -/
def State.xlateDone (s : State) (asid : BitVec 16) (va : Nat) : State × Res (Space × List Nat) :=
  let c : XCtx := { asid := asid, modeS := false, stepm := false, pins := [] }
  let r := s.xlate c { space := .package, r := false, w := true, x := false } va 8
  match r.2 with
  | .ok p => (r.1, .ok (.package, p.2))
  | .error (.halt h) => (r.1, .error (.halt h))
  | .error (.trap f) =>
    if f.code = BitVec.ofNat 8 cSCOPE then
      let q := r.1.xlate c { space := .host, r := false, w := true, x := false } va 8
      (q.1, q.2.map (fun p => (.host, p.2)))
    else (r.1, raise f)

/-- LAUNCH_DONEFAIL, ERR and ERRIDX of a queue (R14, R331, R332, R345). -/
def State.doneFail (s : State) (q idx cause doneaddr : Nat) : State :=
  let n := 0x303 + 4 * q
  let v := setBits (setBits (s.preg n) 16 16 1) 47 32 idx
  (s.setPreg n v).post 0x0042 0 0xFFFF [(0x18, q), (0x19, cause), (0x1A, idx), (0x20, doneaddr)]

/-- Write a completion word (R15), or report that it cannot be written (R14). -/
def State.writeDone (s : State) (asid : BitVec 16) (va word q idx : Nat) : State :=
  if va % 8 ≠ 0 || va / 2 ^ 56 ≠ 0 then s.doneFail q idx 0 va
  else
    let r := s.xlateDone asid va
    match r.2 with
    | .ok (.host, pas) => { r.1 with hmem := wrBytes r.1.hmem pas (leBytes 8 word) }
    | .ok (_, pas) => r.1.writeLocal 3 0xFFFF 0xFF 0 (pas.map (· % 2 ^ 40)) (leBytes 8 word)
    | .error _ => r.1.doneFail q idx 0 va

/-- Little-endian field of a launch record. -/
def recField (r : List Byte) (o n : Nat) : Nat := leNat ((r.drop o).take n)

/-- When no task of a launch is left and every host store of its tasks has been acknowledged, so that the completion word follows every
store at scope h (R117), write that word and free its entry (R15, R332). -/
def State.finishLaunch (s : State) (l : Nat) : State :=
  match tfind s.disp.launches l with
  | none => s
  | some la =>
    if la.left ≠ 0 || la.unacked ≠ 0 then s
    else
      let w := (if la.aborted then 2 else 0) + la.ended * 2 ^ 16
      let s1 := s.writeDone la.asid (recField la.record 0x60 8) w la.queue la.recIdx
      { s1 with disp := { s1.disp with launches := tdel s1.disp.launches l } }

/-- Take a task off its physical gnoum and out of its save slot. -/
def State.unplace (s : State) (k : Nat) : State :=
  { s with disp := { s.disp with
      physG := s.disp.physG.map (fun e => (e.1, { e.2 with active := if e.2.active = some k then none else e.2.active,
                                                           shadow := if e.2.shadow = some k then none else e.2.shadow })),
      pendingSave := s.disp.pendingSave.filter (· ≠ k) } }

/-- The physical gnoum a task holds. -/
def Run.pg : Run → Option Nat
  | .placed pg => some pg
  | .draining pg _ _ => some pg
  | .saving pg _ => pg
  | .ready _ => none

/-- The save slot a task holds or has been promised (R341). -/
def Run.slot : Run → Option Nat
  | .ready sl => sl
  | .saving _ sl => sl
  | .draining _ _ sl => sl
  | _ => none

def State.freeSlot (s : State) (sl : Option Nat) : State :=
  match sl with
  | none => s
  | some n => { s with disp := { s.disp with slots := s.disp.slots.filter (· ≠ n) } }

/-- The host stores of a task that its host port has accepted and the host has not acknowledged (R100). -/
def Task.accepted (t : Task) : Nat := (t.hart.stores.filter (·.atK)).length

/-- A task leaves its groups, its gnoum and every table, and its launch counts it and what the host has yet to acknowledge of it (R20,
R117, R328). -/
def State.endTask (s : State) (k : Nat) (halted : Bool) : State :=
  match s.task? k with
  | none => s
  | some t =>
    let s1 := t.groups.foldl (fun a m => a.leaveGroup k m.1) s
    let s2 := (s1.unplace k).freeSlot t.run.slot
    let s3 := { s2 with tasks := tdel s2.tasks k }
    let freed := if t.stepm then t.lg :: s3.disp.stepFreed else s3.disp.stepFreed
    let la := (tfind s3.disp.launches t.launch).map (fun l =>
      { l with left := l.left - 1, ended := if halted then l.ended + 1 else l.ended,
               unacked := l.unacked + t.accepted, aborted := l.aborted || !halted })
    let ls := match la with
      | some l => tput s3.disp.launches t.launch l
      | none => s3.disp.launches
    (({ s3 with disp := { s3.disp with stepFreed := freed, launches := ls } }).finishLaunch t.launch).tryArr

/-- The issued stores of a task perform in the order of R103 (R328): a scalar entry at its place, those of a running Stoek program at the
place of its STKRUN's entry (R114). Records of STG are not made; the entries of stream instructions go. -/
def State.performIssued (s : State) (k : Nat) (t : Task) : State :=
  t.hart.stores.foldl (fun a e =>
    match e.kind with
    | .stg _ _ _ _ _ => a
    | .stream tag =>
      (match t.stoek? tag with
       | some p => p.hart.stores.foldl (fun b x => b.performStore (.stoek k tag) x) a
       | none => a)
    | _ => if e.atK then a else a.performStore (.scp k) e) s

/-- Steps 1 to 5 of R328 on a task: unstarted work and its entries go, kernels and started instructions stop, Stoek programs
are cancelled with their issued stores performed, the other issued stores perform in order, its records go. A host store then waits only
for the host's acknowledgement. -/
def State.discardWork (s : State) (k : Nat) : State :=
  match s.task? k with
  | none => s
  | some t =>
    let s2 := s.performIssued k t
    let mine : Rec → Bool := fun r => decide (r.key.toNat / 2 ^ 44 = s.rank * 256 + t.lg) && decide (s.stepNum ≤ r.gen)
    let s3 := if t.stepm then { s2 with outbound := s2.outbound.filter (fun r => !mine r),
                                        inbound := s2.inbound.filter (fun r => !mine r) } else s2
    let toHost : StoreEntry → Bool := fun e => match e.kind with
      | .store .host _ _ _ _ => true
      | .rmw _ _ host _ _ _ _ _ => host
      | _ => e.atK
    match s3.task? k with
    | none => s3
    | some u =>
      let ends := u.sq.foldl (fun a q => { a with hart := { a.hart with stores := a.settleStores q.tag } }) u
      let left := (ends.hart.stores.filter toHost).map (fun e => { e with begun := true, atK := true })
      s3.putTask k { u with sq := [], kern := none, stoeks := [], hart := { u.hart with loads := [], marks := [], stores := left } }

/-- The task is terminated as by HALT in mode S (R328). -/
def State.terminate (s : State) (k : Nat) : State := (s.discardWork k).endTask k false

/-! ## Taking a trap and returning (17 R315, R317, R318, R321) -/

/-- A cause of a trap, with the fields of ECAUSE (R315). -/
structure TrapCause where
  code : BitVec 8
  cls : BitVec 2
  code8 : BitVec 8
  tag : BitVec 6
  va : Option Word
  wr : Bool
  defer : Bool
  deriving DecidableEq, Repr

/-- The value ECAUSE takes (R315). -/
def TrapCause.word (c : TrapCause) : Word :=
  (0#37) ++ BitVec.ofBool c.defer ++ BitVec.ofBool c.wr ++ BitVec.ofBool c.va.isSome ++ c.tag ++ c.code8 ++ c.cls ++ c.code

/-- The cause of an SCP fault (class 0). -/
def scpCause (f : FaultInfo) : TrapCause :=
  { code := f.code, cls := 0, code8 := 0, tag := 0, va := f.va, wr := f.wr, defer := false }

/-- The registers that trap entry writes (R317). -/
def Task.trapEntry (t : Task) (c : TrapCause) (fp rp : Word) : Task :=
  { t with sup := { t.sup with pmode := t.sup.mode, mode := true, exl := true, ecause := c.word, efpc := fp,
                               epc := rp &&& ~~~3#64, eva := c.va.getD 0 },
           hart := { t.hart with pc := t.sup.svec }, halting := false, gbarWait := none, inStepWait := false,
           full := t.full || (c.cls == 0 && c.code.toNat == cSTEPFULL) }

/-- A double fault (R318): the record is posted and the SCP stops with no register changed. Started stream instructions run to
completion; HALT_COMPLETE then ends the task. -/
def State.doubleFault (s : State) (k : Nat) (t : Task) (c : TrapCause) : State :=
  (s.post 0x0002 3 t.lg [(0x18, c.word.toNat), (0x20, t.sup.ecause.toNat), (0x28, t.sup.epc.toNat),
    (0x30, t.sup.efpc.toNat), (0x38, t.sup.eva.toNat)]).putTask k { t with doubled := true, halting := false }

/-- The end of a task after a double fault: as by HALT in mode S, and its physical gnoum is held out of service (R318). -/
def State.endDoubled (s : State) (k : Nat) (t : Task) : State :=
  let s2 := s.terminate k
  match t.run.pg with
  | some pg =>
      let g := tget PhysG.idle s2.disp.physG pg
      { s2 with disp := { s2.disp with physG := tset PhysG.idle s2.disp.physG pg { g with outOfService := true } } }
  | none => s2

/-- Take a trap (R317): the one operation every exception of the SCP goes through. -/
def State.takeTrap (s : State) (k : Nat) (c : TrapCause) (fp rp : Word) : State :=
  match s.task? k with
  | none => s
  | some t => if t.sup.exl then s.doubleFault k t c else s.putTask k (t.trapEntry c fp rp)

/-- A precise SCP fault at the instruction at pc (R183, R317). -/
def State.scpFault (s : State) (k : Nat) (f : FaultInfo) : State :=
  match s.task? k with
  | none => s
  | some t => s.takeTrap k (scpCause f) t.hart.pc t.hart.pc

/-- A fault in a Stoek program ends it at the faulting instruction (R291): its issued stores and queued deliveries still complete, and
its pins go once the stores have. -/
def State.stoekFault (s : State) (k tag : Nat) (f : FaultInfo) : State :=
  match s.task? k with
  | none => s
  | some t =>
    match t.stoek? tag with
    | none => s
    | some p => s.putTask k (t.putStoek { p with ending := .fault f.code p.hart.pc f.va })

/-- A fault of the word that an agent executes. -/
def State.agentFault (s : State) (ag : Agent) (f : FaultInfo) : State :=
  match ag with
  | .scp k => s.scpFault k f
  | .stoek k tag => s.stoekFault k tag f

/-- Does a MARK of a hart, older than a place in its program order, still hold what is younger back? -/
def Hart.heldAt (h : Hart) (extra : List Nat) (po : Nat) : Bool :=
  h.marks.any (fun m => decide (m.1 < po) && h.olderPending extra m.1 m.2)

/-- Does a MARK still hold back what an agent does now: one of its own, or of a Stoek program one of its SCP's older than the STKRUN (R108,
R114)? -/
def State.behindMark (s : State) (ag : Agent) (h : Hart) : Bool :=
  h.heldAt (s.streamPos ag) h.po ||
  (match ag with
   | .scp _ => false
   | .stoek k tag =>
     match s.task? k with
     | none => false
     | some t => t.sq.any (fun q => decide (q.tag = tag) && t.hart.heldAt t.streamPos q.po))

/-- Continue with the translation of an access, take its fault, or stop the model. A fault behind a MARK that still holds is not taken:
the access that relies on the stores before the MARK translates after them (R363). -/
def State.translated {α : Type} (s : State) (ag : Agent) (h : Hart) (r : State × Res α) (k : State → α → Out) : Out :=
  match r.2 with
  | .ok a => k r.1 a
  | .error (.trap f) => if s.behindMark ag h then .next s else .next (r.1.agentFault ag f)
  | .error (.halt e) => .fault e

/-- Where a trapped stream instruction is reissued: its fault is resolved, and a store entry taken anew goes just ahead of the
oldest store entry that has not begun to perform (R319). -/
def reissueStores (tag : Nat) (po : Nat) (l : List StoreEntry) : List StoreEntry :=
  let rest := dropStreamStore tag l
  let e : StoreEntry := { po := po, kind := .stream tag, acq := false, rel := false, begun := false, atK := false }
  rest.takeWhile (·.begun) ++ e :: rest.dropWhile (·.begun)

/-- At the return to mode U every stream fault taken and not retired is resolved by reissue (R319). The resume point stays: what is complete
of the effect, and an end-of-stream slot met but not yet published, are not done again (R98). -/
def Task.reissue (t : Task) : Task :=
  t.sq.foldl (fun u q =>
    if q.taken then
      { u with sq := u.sq.map (fun x => if x.tag = q.tag then
                  { x with fault := none, taken := false, started := false, running := false, entered := false } else x),
               hart := if hasStoreEntry q.ins then { u.hart with stores := reissueStores q.tag q.po u.hart.stores } else u.hart }
    else u) t

/-- Return from a trap (R321). A GBAR that a trap abandoned keeps its arrival, but executes again only where the return goes to it (R420). -/
def Task.eret (t : Task) : Task :=
  let u := { t with sup := { t.sup with mode := t.sup.pmode, exl := false }, hart := { t.hart with pc := t.sup.epc } }
  if t.sup.pmode then u else { u.reissue with full := false, owed := t.owed.filter (·.2 = t.sup.epc) }

end Sys2Proof.Machine
end

