-- ==== Sys2Proof/Machine/Flags.lean ====
section
/-! DEFINITION. Conditions (06 R148), the sticky flags of a kernel (02 R55) and the status word of a tag (09 R210). -/

namespace Sys2Proof.Machine

/-- a cond b on w-bit values (R148). -/
def condHolds {w : Nat} (c : Cond) (a b : BitVec w) : Bool :=
  match c with
  | .eq => a == b
  | .ne => a != b
  | .lt => a.slt b
  | .ge => !a.slt b
  | .ltu => a.ult b
  | .geu => !a.ult b
  | .gt => b.slt a
  | .le => !b.slt a
  | .gtu => b.ult a
  | .leu => !b.ult a

/-- No flag set (R25). -/
def Flags.clear : Flags := { inv := false, sat := false, i4bad := false, t5bad := false }

/-- Flags are set, never cleared (R55). -/
def Flags.or (a b : Flags) : Flags :=
  { inv := a.inv || b.inv, sat := a.sat || b.sat, i4bad := a.i4bad || b.i4bad, t5bad := a.t5bad || b.t5bad }

def flagInv (c : Bool) : Flags := { Flags.clear with inv := c }
def flagSat (c : Bool) : Flags := { Flags.clear with sat := c }

/-- The status word's fields (R210). COUNT saturates at 524,287. -/
structure StatusFields where
  code : Nat
  kcode : Nat
  flags : Flags
  dscnan : Bool
  started : Bool
  done : Bool
  tag : Nat
  fbundle : Nat
  count : Nat
  deriving DecidableEq, Repr

def b2n (b : Bool) : Nat := if b then 1 else 0

def StatusFields.word (f : StatusFields) : Word :=
  BitVec.ofNat 64 (f.code % 256 + f.kcode % 256 * 2 ^ 8 + b2n f.flags.inv * 2 ^ 16 + b2n f.flags.sat * 2 ^ 17 +
    b2n f.flags.i4bad * 2 ^ 18 + b2n f.flags.t5bad * 2 ^ 19 + b2n f.dscnan * 2 ^ 20 + b2n f.started * 2 ^ 21 +
    b2n f.done * 2 ^ 22 + f.tag % 64 * 2 ^ 24 + f.fbundle % 8192 * 2 ^ 32 + min f.count 524287 * 2 ^ 45)

/-- The fields of a plain completion. -/
def StatusFields.ended (tag code count : Nat) : StatusFields :=
  { code := code, kcode := 0, flags := Flags.clear, dscnan := false, started := true, done := true, tag := tag,
    fbundle := 0, count := count }

end Sys2Proof.Machine
end

