-- ==== Sys2Proof/Machine/Operands.lean ====
section
/-! DEFINITION. Operand forms: effective addresses, tensor descriptors and windows, SRF streams, binding blocks and the ranges
that queued instructions declare (03 R73 to R95; 06 R147; 09 R206 to R232; 13 R294 to R301). -/

namespace Sys2Proof.Machine

/-! ## Scalar operands -/

/-- Bytes of an access size (R147). -/
def szBytes : Sz → Nat
  | .b => 1
  | .h => 2
  | .w => 4
  | .d => 8

/-- The effective address x[a] + sext(off), modulo 2^64 (R195). -/
def Hart.ea {n : Nat} (h : Hart) (a : Reg) (off : BitVec n) : Word := h.x a + off.signExtend 64

def ordAcq : Ord → Bool
  | .acq => true
  | .ar => true
  | _ => false

def ordRel : Ord → Bool
  | .rel => true
  | .ar => true
  | _ => false

/-- A loaded value of a size, sign- or zero-extended (R195). -/
def extendLoad (sz : Sz) (sx : Bool) (v : Nat) : Word :=
  if sx then BitVec.ofInt 64 (signed (8 * szBytes sz) v) else BitVec.ofNat 64 v

/-! ## Descriptors (R86 to R92) -/

def Desc.base (d : Desc) : Nat := bits d.im 55 0
def Desc.fmt (d : Desc) : Nat := bits d.im 59 56
def Desc.tree (d : Desc) : Bool := bit d.im 62
def Desc.ndim (d : Desc) : Nat := bits d.im 66 64
def Desc.baxis (d : Desc) : Nat := bits d.im 69 67
def Desc.bexp (d : Desc) : Nat := bits d.im 79 72
def Desc.side (d : Desc) : Int := signed 40 (bits d.im 119 80)
def Desc.size (d : Desc) (k : Nat) : Nat := bits d.im (8 * (15 + 7 * k) + 23) (8 * (15 + 7 * k))
def Desc.stride (d : Desc) (k : Nat) : Int := signed 32 (bits d.im (8 * (18 + 7 * k) + 31) (8 * (18 + 7 * k)))
def Desc.org (d : Desc) (k : Nat) : Int := (tget 0 d.orgs k).toInt

/-- The legality of an entry (R88, R92). -/
def Desc.legal (d : Desc) : Bool :=
  let dims := List.range 7
  !bit d.im 63 && bits d.im 71 70 == 0 && d.spaceCode != 3 && d.ndim != 0 &&
  dims.all (fun k => if k < d.ndim then d.size k != 0 else d.size k == 0 && d.stride k == 0) &&
  d.stride 0 == 0 && decide (d.baxis < d.ndim) && (d.fmt == 14 || d.baxis == 0) &&
  (d.fmt != 14 || d.size 0 % 2 == 0) && (d.fmt != 15 || d.size 0 % 5 == 0) &&
  (d.fmt == 14 || d.tree || (d.bexp == 0 && d.side == 0)) &&
  (!d.tree || ([3, 4, 5, 6].contains d.fmt && d.ndim == 3 && decide (d.spaceCode ≤ 1) && decide (1 ≤ d.size 1) &&
    decide (d.size 1 ≤ 24)))

/-- Elements held in one unit of storage, and the bytes of a unit: two i4o or five t5 elements to a byte (R89). -/
def fmtPerUnit (f : Nat) : Nat := if f = 14 then 2 else if f = 15 then 5 else 1
def fmtUnitBytes (f : Nat) : Nat := if f = 14 || f = 15 then 1 else fmtWidth f / 8

/-- Bytes of one unit that lies outside the tensor: zero, or five t5 digits 1 (R90). -/
def fmtOutside (f : Nat) : List Byte := if f = 15 then [121] else List.replicate (fmtUnitBytes f) 0

/-- The field of TDMOV and TDGET (R212): its low bit in the image, width, and whether it is signed; none for ORG and VALID. -/
def tdField (f : Nat) : Option (Nat × Nat × Bool) :=
  if f = 0 then some (0, 56, false)
  else if f = 1 then some (56, 4, false)
  else if f = 2 then some (60, 2, false)
  else if f = 3 then some (62, 1, false)
  else if f = 4 then some (64, 3, false)
  else if f = 5 then some (67, 3, false)
  else if f = 6 then some (72, 8, false)
  else if f = 7 then some (80, 40, true)
  else if f ≤ 14 then some (8 * (15 + 7 * (f - 8)), 24, false)
  else if f ≤ 21 then some (8 * (18 + 7 * (f - 15)), 32, true)
  else none

/-- The value of a field as TDGET returns it (R213). -/
def Desc.field (d : Desc) (f : Nat) : Word :=
  if f = 29 then (if d.valid then 1 else 0)
  else if !d.valid then 0
  else
    match tdField f with
    | some (lo, w, sg) =>
        let v := bits d.im (lo + w - 1) lo
        if sg then BitVec.ofInt 64 (signed w v) else BitVec.ofNat 64 v
    | none => if 22 ≤ f && f ≤ 28 then BitVec.ofInt 64 (d.org (f - 22)) else 0

/-- Is a 64-bit value representable in a field of w bits (R212)? -/
def fieldFits (w : Nat) (sg : Bool) (v : Word) : Bool :=
  if sg then decide (-(2 ^ (w - 1) : Int) ≤ v.toInt) && decide (v.toInt ≤ (2 ^ (w - 1) : Int) - 1) else decide (v.toNat < 2 ^ w)

/-! ## SRF streams (R73 to R75) -/

/-- An SRF stream: offset, lines of a record, records. -/
structure Stream where
  off : Nat
  s : Nat
  n : Nat
  deriving DecidableEq, Repr

/-- off(r, j) of R74. -/
def Stream.at (st : Stream) (r j : Nat) : Nat := st.off + 2048 * (st.s * (r / 16) + j) + 128 * (r % 16)

/-- The range of R75: first byte, length. -/
def Stream.range (st : Stream) : Nat × Nat := (st.off, 2048 * st.s * ceilDiv st.n 16)

/-- The limits of R74. -/
def Stream.ok (st : Stream) : Bool :=
  st.off % 128 == 0 && decide (1 ≤ st.s) && decide (st.s ≤ 512) && decide (1 ≤ st.n) && decide (st.n ≤ 65536)

/-- SRF offset of byte b of record r. -/
def Stream.byteAt (st : Stream) (r b : Nat) : Nat := st.at r (b / 128) + b % 128

/-! ## Windows (R89, R90, R216, R217) -/

/-- The extents of x[ra] and x[rb]; 0 stands for 1 (R216). -/
def extents (a b : Word) : List Nat :=
  let f (v hi lo : Nat) : Nat := let x := bits v hi lo; if x = 0 then 1 else x
  [f a.toNat 23 0, f a.toNat 47 24, f a.toNat 63 48, f b.toNat 15 0, f b.toNat 31 16, f b.toNat 47 32, f b.toNat 63 48]

/-- Coordinates of a unit of a row-major window: mixed-radix digits of its number, the first fastest. -/
def digits : List Nat → Nat → List Nat
  | [], _ => []
  | e :: es, n => n % e :: digits es (n / e)

/-- Is a coordinate vector inside the tensor (R90)? Dimensions at or above NDIM are not tested. -/
def Desc.inside (d : Desc) (c : List Int) : Bool :=
  (List.range 7).all (fun k => decide (d.ndim ≤ k) || (let x := c.getD k 0; decide (0 ≤ x) && decide (x < d.size k)))

/-- The virtual address of the unit that holds a coordinate vector (R89), modulo 2^64. -/
def Desc.addr (d : Desc) (c : List Int) : Nat :=
  let line : Int := (List.range 6).foldl (fun a k => a + d.stride (k + 1) * c.getD (k + 1) 0) (d.base : Int)
  let c0 := c.getD 0 0
  wrap 64 (line + (c0 / (fmtPerUnit d.fmt : Int)) * (fmtUnitBytes d.fmt : Int))

/-- The coordinates of unit number n of a window with these extents; origins above NDIM place nothing. -/
def Desc.coords (d : Desc) (ext : List Nat) (n : Nat) : List Int :=
  let es := ceilDiv (ext.getD 0 1) (fmtPerUnit d.fmt) :: ext.drop 1
  let ds := digits es n
  (List.range 7).map (fun k =>
    if d.ndim ≤ k then 0
    else d.org k + (if k = 0 then (ds.getD 0 0 * fmtPerUnit d.fmt : Nat) else (ds.getD k 0 : Nat)))

/-- One unit of a moved window: its tensor address (none outside), its record and the byte within it. -/
structure Move where
  va : Option Nat
  rec' : Nat
  pos : Nat
  deriving DecidableEq, Repr

/-- A moved window: bytes of a unit, records, bytes used of each record, and the units in element order. -/
structure Window where
  ub : Nat
  n : Nat
  total : Nat
  rowUnits : Nat
  pad : Bool
  recBytes : Nat
  deriving DecidableEq, Repr

/-- The window of SLD and SST (R217). -/
def Desc.window (d : Desc) (ext : List Nat) (pad : Bool) (s : Nat) : Window :=
  let row := ceilDiv (ext.getD 0 1) (fmtPerUnit d.fmt)
  let rows := (ext.drop 1).foldl (· * ·) 1
  let ub := fmtUnitBytes d.fmt
  let total := row * rows
  { ub := ub, n := if pad then rows else ceilDiv (total * ub) (s * 128), total := total, rowUnits := row, pad := pad,
    recBytes := s * 128 }

/-- Unit number n of a window. -/
def Window.move (w : Window) (d : Desc) (ext : List Nat) (n : Nat) : Move :=
  let c := d.coords ext n
  let va := if d.inside c then some (d.addr c) else none
  if w.pad then { va := va, rec' := n / w.rowUnits, pos := n % w.rowUnits * w.ub }
  else { va := va, rec' := n * w.ub / w.recBytes, pos := n * w.ub % w.recBytes }

/-- The units of record r, in element order. -/
def Window.unitsOfRec (w : Window) (r : Nat) : List Nat :=
  if w.pad then (List.range w.rowUnits).map (fun i => r * w.rowUnits + i)
  else
    let per := w.recBytes / w.ub
    (List.range (min per (w.total - r * per))).map (fun i => r * per + i)

/-- Does an i4o window move a delta stream (R218)? -/
def Desc.hasDelta (d : Desc) : Bool := d.fmt == 14 && d.baxis == 0

/-- The delta stream beside a data stream (R218). -/
def Stream.delta (st : Stream) : Stream := { off := st.off + 2048 * st.s * ceilDiv st.n 16, s := 1, n := st.n }

/-- Start checks of SLD and SST that do not depend on the SRF: window, origins, extents, deltas (R90, R216 to R218). -/
def Desc.windowOk (d : Desc) (ext : List Nat) (pad rg : Bool) (s : Nat) : Bool :=
  let w := d.window ext pad s
  let e0 := ext.getD 0 1
  let per := fmtPerUnit d.fmt
  (List.range 7).all (fun k => decide (k < d.ndim) || ext.getD k 1 == 1) &&
  e0 % per == 0 && (per == 1 || d.org 0 % per == 0) &&
  decide (1 ≤ w.n) && decide (w.n ≤ 65536) && (!pad || decide (w.rowUnits * w.ub ≤ s * 128)) &&
  (!d.hasDelta || (pad && d.org 0 % 48 == 0 && decide (2 ≤ e0) && decide (e0 ≤ 12288) && !rg))

/-! ## The binding block of KRUN (R224) -/

def bindingOf (v : Nat) : Binding :=
  { line := bits v 14 0, size := bits v 23 15 + 1, count := bits v 40 24 + 1, kind := BitVec.ofNat 2 (bits v 42 41) }

def Binding.stream (b : Binding) : Stream := { off := b.line * 128, s := b.size, n := b.count }

def blockWord (blk : List Byte) (o n : Nat) : Nat := leNat ((blk.drop o).take n)

def blockBindings (blk : List Byte) : List Binding := (List.range 8).map (fun i => bindingOf (blockWord blk (8 * i) 8))

def blockCons (blk : List Byte) : BitVec 16 := BitVec.ofNat 16 (blockWord blk 0x40 2)
def blockProd (blk : List Byte) : BitVec 16 := BitVec.ofNat 16 (blockWord blk 0x42 2)

/-- Reserved bits and unused entries of the block are zero (R224). -/
def blockReservedOk (blk : List Byte) : Bool :=
  (List.range 8).all (fun i =>
    let v := blockWord blk (8 * i) 8
    if bits v 42 41 = 0 then v == 0 else bits v 63 43 == 0) &&
  ((blk.drop 0x44).take 60).all (· == 0)

/-! ## The descent block and the streams of DESCEND (R294 to R296) -/

structure DescentBlock where
  x : Stream
  id : Nat × Nat
  pm : Nat × Nat
  rt : Nat × Nat
  mg : Nat × Nat
  lf : Stream
  resOk : Bool
  deriving DecidableEq, Repr

def roundUp128 (n : Nat) : Nat := 128 * ceilDiv n 128

/-- The block read at an SRF offset, for a batch of b and levels l0 to l1. -/
def descentBlock (m : Tbl Line) (off b l0 l1 : Nat) (mg lf : Bool) : DescentBlock :=
  let w (i : Nat) : Nat := srfNat m (off + 8 * i) 8
  let ln (i : Nat) : Nat := bits (w i) 14 0 * 128
  { x := { off := ln 0, s := bits (w 0) 23 15 + 1, n := b },
    id := (ln 1, roundUp128 (4 * b)), pm := (ln 2, roundUp128 (2 * b)), rt := (ln 3, roundUp128 (8 * (b + 1))),
    mg := (ln 4, roundUp128 (4 * b * (l1 + 1 - l0))), lf := { off := ln 5, s := bits (w 5) 23 15 + 1, n := b },
    resOk := bits (w 0) 63 24 == 0 && bits (w 1) 63 15 == 0 && bits (w 2) 63 15 == 0 && bits (w 3) 63 15 == 0 &&
      bits (w 4) 63 15 == 0 && (mg || w 4 == 0) && bits (w 5) 63 24 == 0 && (lf || w 5 == 0) &&
      (List.range 10).all (fun i => w (6 + i) == 0) }

/-! ## Declared ranges (R94, R232) -/

/-- What a queued instruction declares: read ranges, write ranges, rings consumed and produced. -/
structure Ranges where
  reads : List (Nat × Nat)
  writes : List (Nat × Nat)
  cons : List Nat
  prod : List Nat
  deriving DecidableEq, Repr

def Ranges.none : Ranges := { reads := [], writes := [], cons := [], prod := [] }

def ringsOf (m : BitVec 16) : List Nat := (List.range 16).filter (fun i => m.getLsbD i)

/-- The stream of an SLD or SST on plain SRF, with its delta stream. -/
def windowStreams (d : Desc) (ext : List Nat) (pad : Bool) (line : BitVec 15) (s : Nat) : List (Nat × Nat) :=
  let st : Stream := { off := line.toNat * 128, s := s, n := (d.window ext pad s).n }
  if d.hasDelta then [st.range, st.delta.range] else [st.range]

/-- The descriptor number an instruction names, if any. -/
def tdOf : Instr → Option Nat
  | .tdset _ td _ | .tdmov _ td _ _ | .tdget _ td _ => some td.toNat
  | .sld _ td _ _ _ _ _ _ _ _ => some td.toNat
  | .sst _ td _ _ _ _ _ _ _ => some td.toNat
  | .sga _ td _ _ _ _ _ _ => some td.toNat
  | .ssc _ _ td _ _ _ _ _ _ => some td.toNat
  | .nbmv _ td _ _ _ _ => some td.toNat
  | .descend _ td _ _ _ _ _ _ _ _ => some td.toNat
  | _ => none

/-- The ranges of an instruction, given its descriptor and held operands; `blk` is KRUN's binding block. DESCEND's streams are
read from its block in the SRF. -/
def declared (i : Instr) (d : Desc) (ops : List Word) (blk : List Byte) (srf : Tbl Line) : Ranges :=
  let o (k : Nat) : Word := ops.getD k 0
  match i with
  | .tdset _ _ line => { Ranges.none with reads := [(line.toNat * 128, 64)] }
  | .sld _ _ line rsz rg _ pad _ _ _ =>
      if rg then { Ranges.none with prod := [line.toNat] }
      else { Ranges.none with writes := windowStreams d (extents (o 0) (o 1)) pad line (rsz.toNat + 1) }
  | .sst _ _ line rsz rg _ pad _ _ =>
      if rg then { Ranges.none with cons := [line.toNat] }
      else { Ranges.none with reads := windowStreams d (extents (o 0) (o 1)) pad line (rsz.toNat + 1) }
  | .sga _ _ line rsz _ _ _ _ =>
      { Ranges.none with reads := [((o 0).toNat, 4 * (o 1).toNat)],
                         writes := [({ off := line.toNat * 128, s := rsz.toNat + 1, n := (o 1).toNat } : Stream).range] }
  | .ssc _ _ _ line rsz _ _ _ _ =>
      { Ranges.none with reads := [((o 0).toNat, 4 * (o 1).toNat),
                                   ({ off := line.toNat * 128, s := rsz.toNat + 1, n := (o 1).toNat } : Stream).range] }
  | .scpy _ _ drop la lb rga rgb _ =>
      { reads := if rga then [] else [(la.toNat * 128, (o 0).toNat)],
        writes := if rgb || drop then [] else [(lb.toNat * 128, (o 0).toNat)],
        cons := if rga then [la.toNat] else [], prod := if rgb then [lb.toNat] else [] }
  | .krun _ _ _ _ _ _ =>
      let bs := blockBindings blk
      { reads := (bs.filter (fun b => b.kind.getLsbD 0)).map (fun b => b.stream.range),
        writes := (bs.filter (fun b => b.kind.getLsbD 1)).map (fun b => b.stream.range),
        cons := ringsOf (blockCons blk), prod := ringsOf (blockProd blk) }
  | .nbmv _ _ y acc _ _ =>
      let r := (y.toNat * 128, 4 * (o 1).toNat)
      { Ranges.none with reads := if acc then [r] else [], writes := [r] }
  | .stkrun _ n _ _ => { Ranges.none with prod := [n.toNat] }
  | .descend _ _ l0 l1 _ _ mg lf _ _ =>
      let b := descentBlock srf (o 0).toNat (o 1).toNat l0.toNat l1.toNat mg lf
      { Ranges.none with
        reads := [((o 0).toNat, 128), b.x.range] ++ (if l0 = 0 then [] else [b.pm, b.rt]),
        writes := [b.id, b.pm, b.rt] ++ (if mg then [b.mg] else []) ++ (if lf then [b.lf.range] else []) }
  | _ => Ranges.none

/-- The ring a RINGI configures. -/
def ringiOf : Instr → Option Nat
  | .ringi _ n _ _ _ => some n.toNat
  | _ => none

/-- Does an instruction set the entry of a descriptor? -/
def setsDesc (td : Nat) : Instr → Bool
  | .tdset _ n _ => n.toNat == td
  | .tdmov _ n _ _ => n.toNat == td
  | _ => false

/-- The queued instructions older than one in the queue. -/
def olderThan (po : Nat) (l : List QInstr) : List QInstr := l.filter (fun q => decide (q.po < po))

/-- The entry that TDSET or TDMOV leaves where the entry was d, or BOUNDS (R88, R211, R212). -/
def QInstr.newDescFrom (q : QInstr) (t : Task) (d : Desc) : Res Desc :=
  let bounds := plainFault cBOUNDS
  match q.ins with
  | .tdset _ _ line =>
      let o := line.toNat * 128
      if !t.plainOk (o, 64) then raise bounds
      else
        let d1 : Desc := { image := BitVec.ofNat 512 (srfNat t.srf o 64), orgs := [], valid := true }
        if d1.legal then .ok d1 else raise bounds
  | .tdmov _ _ f _ =>
      let v := q.ops.getD 0 0
      if !d.valid then raise bounds
      else
        match tdField f.toNat with
        | some (lo, w, sg) =>
            if !fieldFits w sg v then raise bounds
            else
              let d1 := { d with image := BitVec.ofNat 512 (setBits d.im (lo + w - 1) lo v.toNat) }
              if d1.legal then .ok d1 else raise bounds
        | none =>
            if fieldFits 32 true v then .ok { d with orgs := tset 0 d.orgs (f.toNat - 22) (v.setWidth 32) } else raise bounds
  | _ => raise bounds

/-- May one of these instructions still write bytes of an interval? -/
def mayWrite (l : List (QInstr × Option Ranges)) (iv : Nat × Nat) : Bool :=
  l.any (fun p => match p.2 with
    | none => true
    | some r => r.writes.any (overlap iv))

/-- The entry td once these unfinished instructions have completed (R93); none where a TDSET of it reads an image that may
still be written. -/
def descGo (t : Task) (td : Nat) (seen : List (QInstr × Option Ranges)) (d : Option Desc) :
    List (QInstr × Option Ranges) → Option Desc
  | [] => d
  | p :: r =>
    let after (d0 : Desc) : Desc := match p.1.newDescFrom t d0 with
      | .ok d1 => d1
      | .error _ => d0
    let d1 := if !setsDesc td p.1.ins then d else
      match p.1.ins with
      | .tdset _ _ line => if mayWrite seen (line.toNat * 128, 64) then none else some (after (d.getD Desc.invalid))
      | _ => d.map after
    descGo t td (seen ++ [p]) d1 r

/-- The ranges of one unfinished instruction, given those of the older ones: of its descriptor as it will be when it starts
(R93, R94); none while its descriptor image or its descent block may still be written. -/
def rangesOf (t : Task) (older : List (QInstr × Option Ranges)) (q : QInstr) : Option Ranges :=
  if q.running then some (declared q.ins q.desc q.ops q.blk t.srf)
  else
    let window (td : Nat) : Option Ranges :=
      (descGo t td [] (some (tget Desc.invalid t.descs td)) older).map (fun d => declared q.ins d q.ops q.blk t.srf)
    match q.ins with
    | .descend .. =>
        if mayWrite older ((q.ops.getD 0 0).toNat, 128) then none else some (declared q.ins q.desc q.ops q.blk t.srf)
    | .sld _ td _ _ false _ _ _ _ _ => window td.toNat
    | .sst _ td _ _ false _ _ _ _ => window td.toNat
    | _ => some (declared q.ins q.desc q.ops q.blk t.srf)

/-- The ranges of the unfinished instructions in issue order. -/
def rangesGo (t : Task) : List QInstr → List (QInstr × Option Ranges) → List (QInstr × Option Ranges)
  | [], acc => acc
  | q :: r, acc => rangesGo t r (acc ++ [(q, rangesOf t acc q)])

def Task.ranges (t : Task) : List (QInstr × Option Ranges) := rangesGo t t.sq []

/-- The ranges of the instructions older than a place in program order. -/
def Task.olderRanges (t : Task) (po : Nat) : List (QInstr × Option Ranges) := t.ranges.filter (fun p => decide (p.1.po < po))

/-! ## Completion of a queued instruction (R22, R210, R320) -/

def Task.tag (t : Task) (n : Nat) : TagInfo := tget TagInfo.fresh t.tags n

def Task.queued? (t : Task) (tag : Nat) : Option QInstr := t.sq.find? (fun q => q.tag = tag)

def Task.putQ (t : Task) (q : QInstr) : Task := { t with sq := t.sq.map (fun x => if x.tag = q.tag then q else x) }

/-- The instruction with this issue number completes; its tag keeps its status until the tag is assigned again (R22): it leaves the queue and its entries go, its pins and reservation with it. -/
def Task.completeQ (t : Task) (tag : Nat) (f : StatusFields) (dpc dva : Word) (dvav : Bool) : Task :=
  let sq := t.sq.filter (fun q => q.tag ≠ tag)
  let h := { t.hart with loads := dropStreamLoad tag t.hart.loads, stores := dropStreamStore tag t.hart.stores }
  { t with sq := sq,
           tags := if t.nextTag ≤ tag + 64 then
               tset TagInfo.fresh t.tags (tag % 64) { status := f.word, dpc := dpc, dva := dva, dvav := dvav } else t.tags,
           hart := h.prune (streamPlaces sq) }

/-- A queued instruction raises a stream fault (R208): its pins and its reservation go, its first entries complete with their partial
effect, and it waits for the trap (R97, R101, R319). -/
def Task.faultQ (t : Task) (tag : Nat) (f : FaultInfo) : Task :=
  { t with sq := t.sq.map (fun q => if q.tag = tag then
      { q with fault := some f, taken := false, running := false, pins := [], resv := 0, got := [] } else q),
           hart := { t.hart with loads := dropStreamLoad tag t.hart.loads, stores := t.settleStores tag } }

end Sys2Proof.Machine
end

