-- ==== Sys2Proof/Machine/Arith.lean ====
section
/-! DEFINITION. The summing tree of the matrix unit and of DESCEND's margins (02 R63 to R67; 13 R298). -/

namespace Sys2Proof.Machine

/-- Does an operation yield a NaN from inputs none of which is one (R55, R258)? -/
def newNan (a b r : FVal) : Bool := r.isNan && !a.isNan && !b.isNan

/-- One rounded addition in fp32. -/
def add32 (a b : FVal) : FVal := fp32.val (fp32.rnd .rne (fvAdd .rne a b))

/-- One level of the tree: neighbours added, each sum rounded to fp32; the second component is INV. -/
def pairUp : List FVal → List FVal × Bool
  | a :: b :: r =>
    let s := add32 a b
    let q := pairUp r
    (s :: q.1, newNan a b s || q.2)
  | r => (r, false)

/-- A balanced tree of the given depth. -/
def treeSum : Nat → List FVal → FVal × Bool
  | 0, l => (l.headD (.zero false), false)
  | n + 1, l =>
    let p := pairUp l
    let q := treeSum n p.1
    (q.1, p.2 || q.2)

/-- Exact products in ascending order of k; the second component is INV of a leaf. -/
def products (a b : List FVal) : List FVal × Bool :=
  let ps := (a.zip b).map (fun x => (fvMul x.1 x.2, newNan x.1 x.2 (fvMul x.1 x.2)))
  (ps.map (·.1), ps.any (·.2))

/-- A list cut into pieces of n. -/
def chunks {α : Type} (n : Nat) : Nat → List α → List (List α)
  | 0, _ => []
  | f + 1, l => if l.isEmpty then [] else l.take n :: chunks n f (l.drop n)

/-- The formats of a tree tensor and of MMA by descriptor code: block length, tree depth, the floating format (R64, R92). -/
def treeFormat (fmt : Nat) : Nat × Nat × Option FFmt :=
  if fmt = 3 then (32, 5, some bf16)
  else if fmt = 4 then (64, 6, some e5m2)
  else if fmt = 5 then (64, 6, some e4m3)
  else (64, 6, none)

/-- The margin of an entry at a node (R298): fp32 bits. -/
def margin (fmt : Nat) (x row : List Nat) (bias : Nat) : Nat :=
  let f := treeFormat fmt
  match f.2.2 with
  | none =>
      let s : Int := ((x.zip row).map (fun p => signed 8 p.1 * signed 8 p.2)).foldl (· + ·) 0
      fp32.rnd .rne (fvAdd .rne (intVal s) (fp32.val bias))
  | some fl =>
      let ps := (products (x.map fl.val) (row.map fl.val)).1
      let blocks := chunks f.1 ps.length ps
      let sums := blocks.map (fun b => (treeSum f.2.1 (b ++ List.replicate (f.1 - b.length) (.zero false))).1)
      let a := sums.foldl add32 (.zero false)
      fp32.rnd .rne (fvAdd .rne a (fp32.val bias))

/-- The sign rule of R298 on fp32 bits: 1 for zeros and positive values, 0 for negative values and NaN. -/
def signBit (m : Nat) : Bool :=
  match fp32.val m with
  | .nan => false
  | .zero _ => true
  | .inf s => !s
  | .fin s _ _ => !s

end Sys2Proof.Machine
end

