-- ==== Sys2Proof/Machine/MemoryInstr.lean ====
section
/-! DEFINITION. Loads, stores, atomics, MARK, IPF and hints (04 R101 to R109; 07 R171; 08 R195 to R204), and the rows in which
their entries bind and perform: LOAD_BIND, MC_WRITE_ACCEPT, HOST_COMPLETION, MC_WRITEBACK. -/

namespace Sys2Proof.Machine

/-- Only an SCP executes these words; a Stoek core raises ILLOP (R151). -/
def State.onScp (s : State) (k : Nat → Task → Out) : Out :=
  if s.runs s.focus then
    match s.focus with
    | .scp n =>
      match s.task? n with
      | some t => k n t
      | none => .next s
    | .stoek n tag => .next (s.stoekFault n tag (plainFault cILLOP))
  else .next s

/-- Only a Stoek program executes these words; an SCP raises ILLOP (R151). -/
def State.onStoek (s : State) (k : Nat → Task → Stoek → Out) : Out :=
  if s.runs s.focus then
    match s.focus with
    | .scp n => .next (s.scpFault n (plainFault cILLOP))
    | .stoek n tag =>
      match s.task? n with
      | some t =>
        match t.stoek? tag with
        | some p => k n t p
        | none => .next s
      | none => .next s
  else .next s

/-! ## SRF access (R77, R197) -/

/-- Is an SRF access of n bytes within the footprint and outside every ring? The offset is a 64-bit value. -/
def Task.srfOk (t : Task) (o : Word) (n : Nat) : Bool := decide (o.toNat + n ≤ t.srfSize) && !t.inRing (o.toNat, n)

/-- Does an older unfinished instruction still write (or, for a store, read) one of these bytes? -/
def Task.srfBusy (t : Task) (iv : Nat × Nat) (store : Bool) : Bool :=
  t.ranges.any (fun p => match p.2 with
    | none => true
    | some r => r.writes.any (overlap iv) || (store && r.reads.any (overlap iv)))

def execLdf (sz : Sz) (sx : Bool) (d a : Reg) (imm : BitVec 11) (s : State) : Out :=
  s.onScp fun k t =>
    let h := t.hart
    if !h.ready [d, a] then .next s
    else
      let ea := h.ea a imm
      let n := szBytes sz
      if !t.srfOk ea n then .next (s.scpFault k (plainFault cBOUNDS))
      else if t.srfBusy (ea.toNat, n) false then .next s
      else .next (s.putHart (.scp k) ((h.setX d (extendLoad sz sx (srfNat t.srf ea.toNat n))).advance 4))

def execStf (sz : Sz) (r a : Reg) (imm : BitVec 12) (s : State) : Out :=
  s.onScp fun k t =>
    let h := t.hart
    if !h.ready [r, a] then .next s
    else
      let ea := h.ea a imm
      let n := szBytes sz
      if !t.srfOk ea n then .next (s.scpFault k (plainFault cBOUNDS))
      else if t.srfBusy (ea.toNat, n) true then .next s
      else .next (s.putTask k { t with srf := srfWrite t.srf ea.toNat (leBytes n (h.x r).toNat), hart := h.advance 4 })

/-! ## Scalar loads and stores of the translated spaces -/

/-- The next place in program order. -/
def Hart.nextPo (h : Hart) : Hart := { h with po := h.po + 1 }

/-- Issue a load: translate, place its load entry, move on (R101, R183, R195, R196). -/
def issueLoad (ag : Agent) (h : Hart) (sp : Space) (sz : Sz) (sx : Bool) (ord : Ord) (d a : Reg) (imm : BitVec 11)
    (s : State) : Out :=
  if !h.ready [d, a] then .next s
  else
    let ea := h.ea a imm
    let r := s.xlate (s.xctx ag) { space := sp, r := true, w := false, x := false } ea.toNat (szBytes sz)
    s.translated ag h r fun s1 p =>
      let e : LoadEntry := { po := h.po, kind := .scalar { space := sp, sz := sz, sx := sx, d := d, va := ea, pas := p.2, pc := h.pc, got := [] },
                             acq := ordAcq ord, rel := ordRel ord, begun := false }
      .next (s1.putHart ag (({ h with loads := h.loads ++ [e] }).nextPo.advance 4))

/-- Issue a store of package or host memory: translate, place its store entry, move on. -/
def issueStore (ag : Agent) (h : Hart) (sp : Space) (sz : Sz) (ord : Ord) (r a : Reg) (imm : BitVec 12) (s : State) : Out :=
  if !h.ready [r, a] then .next s
  else
    let ea := h.ea a imm
    let n := szBytes sz
    let q := s.xlate (s.xctx ag) { space := sp, r := false, w := true, x := false } ea.toNat n
    s.translated ag h q fun s1 p =>
      let e : StoreEntry := { po := h.po, kind := .store sp ea p.2 (leBytes n (h.x r).toNat) h.pc, acq := ordAcq ord, rel := ordRel ord,
                              begun := false, atK := false }
      .next (s1.putHart ag (({ h with stores := h.stores ++ [e] }).nextPo.advance 4))

def execLdp (sz : Sz) (sx : Bool) (ord : Ord) (d a : Reg) (imm : BitVec 11) (s : State) : Out :=
  s.onHart fun ag h => issueLoad ag h .package sz sx ord d a imm s

def execStp (sz : Sz) (ord : Ord) (r a : Reg) (imm : BitVec 12) (s : State) : Out :=
  s.onHart fun ag h => issueStore ag h .package sz ord r a imm s

def execLdh (sz : Sz) (sx : Bool) (ord : Ord) (d a : Reg) (imm : BitVec 11) (s : State) : Out :=
  s.onScp fun k t => issueLoad (.scp k) t.hart .host sz sx ord d a imm s

def execSth (sz : Sz) (ord : Ord) (r a : Reg) (imm : BitVec 12) (s : State) : Out :=
  s.onScp fun k t => issueStore (.scp k) t.hart .host sz ord r a imm s

/-- The merge-unit rule of a pod page for an element of n bytes at an address (R131): classes 0 and 1 admit any. -/
def mergeOk (pte n va : Nat) : Bool :=
  decide (bits pte 54 52 ≤ 1) || (8 * n == 8 * 2 ^ bits pte 11 10 && va % n == 0)

def execLdg (sz : Sz) (sx : Bool) (ord : Ord) (d a : Reg) (imm : BitVec 11) (s : State) : Out :=
  s.onScp fun k t =>
    let h := t.hart
    if !h.ready [d, a] then .next s
    else
      let ea := h.ea a imm
      let r := s.xlate (s.xctx (.scp k)) { space := .pod, r := true, w := false, x := false } ea.toNat (szBytes sz)
      s.translated (.scp k) h r fun s1 p =>
        let e : LoadEntry := { po := h.po, kind := .scalar { space := .pod, sz := sz, sx := sx, d := d, va := ea, pas := p.2, pc := h.pc, got := [] },
                               acq := ordAcq ord, rel := ordRel ord, begun := false }
        let s2 := s1.putHart (.scp k) (({ h with loads := h.loads ++ [e] }).nextPo.advance 4)
        .next (if t.arrived then s2 else s2.requestBytes (.load (.scp k) h.po) ((addrs ea.toNat p.2.length).zip p.2))

/-- The leaf entry of each of n bytes from a virtual address: the first page's, then the second's. -/
def byteLeaves (ptes : List Nat) (va n : Nat) : List Nat :=
  (List.range n).map (fun i => if va % 4096 + i < 4096 then ptes.headD 0 else ptes.getLastD 0)

def execStg (sz : Sz) (ord : Ord) (r a : Reg) (imm : BitVec 12) (s : State) : Out :=
  s.onScp fun k t =>
    let h := t.hart
    if !h.ready [r, a] then .next s
    else
      let ea := h.ea a imm
      let n := szBytes sz
      let q := s.xlate (s.xctx (.scp k)) { space := .pod, r := false, w := true, x := false } ea.toNat n
      s.translated (.scp k) h q fun s1 p =>
        let need := 32 * (paRuns ((addrs ea.toNat n).zip p.2)).length
        if !p.1.all (fun pte => mergeOk pte n ea.toNat) then .next (s1.scpFault k (addrFault cBOUNDS ea.toNat true))
        else if !s1.apronRoom need then .next (s1.scpFault k (addrFault cSTEPFULL ea.toNat true))
        else
          let e : StoreEntry := { po := h.po, kind := .stg ea p.2 (leBytes n (h.x r).toNat) (byteLeaves p.1 ea.toNat n) need, acq := ordAcq ord, rel := ordRel ord,
                                  begun := false, atK := false }
          .next (s1.putHart (.scp k) (({ h with stores := h.stores ++ [e] }).nextPo.advance 4))

/-! ## Atomics (R200 to R203) -/

/-- Issue CAS, AMO or RED: the address is canonical and aligned, then translated; one store entry is placed (R200). -/
def issueRmw (op : Rmw) (dw : Bool) (ord : Ord) (host : Bool) (d a b : Reg) (rs : List Reg) (s : State) : Out :=
  s.onScp fun k t =>
    let h := t.hart
    if !h.ready rs then .next s
    else
      let ea := h.x a
      let n := if dw then 8 else 4
      if ea.toNat / 2 ^ 56 ≠ 0 then .next (s.scpFault k (addrFault cPAGE ea.toNat true))
      else if ea.toNat % n ≠ 0 then .next (s.scpFault k (addrFault cBOUNDS ea.toNat true))
      else
        let rd := match op with
          | .red _ => false
          | _ => true
        let q := s.xlate (s.xctx (.scp k)) { space := if host then .host else .package, r := rd, w := true, x := false } ea.toNat n
        s.translated (.scp k) h q fun s1 p =>
          let e : StoreEntry := { po := h.po, kind := .rmw op dw host d (h.x b) ea (p.2.headD 0) h.pc, acq := ordAcq ord,
                                  rel := ordRel ord, begun := false, atK := false }
          .next (s1.putHart (.scp k) (({ h with stores := h.stores ++ [e] }).nextPo.advance 4))

/-- The expected value x[d] is read at issue (R201). -/
def execCas (dw : Bool) (ord : Ord) (host : Bool) (d a b : Reg) (s : State) : Out :=
  let e := ((s.hart? s.focus).map (·.x d)).getD 0
  issueRmw (.cas e) dw ord host d a b [d, a, b] s

def execAmo (op : AmoOp) (dw : Bool) (ord : Ord) (host : Bool) (d a b : Reg) (s : State) : Out :=
  issueRmw (.amo op) dw ord host d a b [d, a, b] s

def execRed (op : RedOp) (dw : Bool) (ord : Ord) (a b : Reg) (s : State) : Out :=
  issueRmw (.red op) dw ord false 0 a b [a, b] s

/-! ## MARK, IPF, hints -/

/-- MARK is placed in both queues and the agent goes on (R108). -/
def execMark (sc : Scope) (s : State) : Out :=
  s.onHart fun ag h => .next (s.putHart ag (({ h with marks := h.marks ++ [(h.po, sc)] }).nextPo.advance 4))

/-- IPF requests code lines only: no register, no entry, no fault, no order (R204). -/
def execIpf (a : Reg) (_n : BitVec 11) (s : State) : Out :=
  s.onScp fun k t => if t.hart.ready [a] then .next (s.putHart (.scp k) (t.hart.advance 4)) else .next s

/-- A word of a hint major does nothing (R171). -/
def execHint (_b : BitVec 29) (s : State) : Out := s.onHart fun ag h => .next (s.putHart ag (h.advance 4))

/-! ## Binding loads and performing stores -/

/-- The scope at which acquire and release order an access of a space (R109). -/
def ordScope : Space → Scope
  | .pod => .k
  | _ => .h

/-- May a scalar load entry of an agent bind now (R102, R108, R109)? A pod load in the kerf waits for the release (R134), and
for its home's answers (R385). -/
def State.loadReady (s : State) (ag : Agent) (h : Hart) (e : LoadEntry) (l : ScalarLoad) : Bool :=
  s.outerLoad ag && h.loadTurn e.po && h.mayGo (s.streamPos ag) e.po e.rel (ordScope l.space) &&
    (l.space != .pod || (!(((s.task? (agentTask ag)).map (·.arrived)).getD false) &&
      ((l.pas.filter (fun p => p / 2 ^ 40 ≠ s.rank))).all (fun p => (tfind l.got p).isSome)))

/-- The scalar load entry at a place in program order. -/
def Hart.findLoad (h : Hart) (po : Nat) : Option (LoadEntry × ScalarLoad) :=
  match h.loads.find? (fun e => e.po = po && (match e.kind with | .scalar _ => true | _ => false)) with
  | some e =>
    match e.kind with
    | .scalar l => some (e, l)
    | .stream _ => none
  | none => none

def Hart.dropLoad (h : Hart) (po : Nat) : Hart :=
  { h with loads := h.loads.filter (fun e => !(e.po == po && (match e.kind with | .scalar _ => true | _ => false))) }

/-- The bytes a load binds: forwarded, or from memory, or the snapshot a remote home sent (R105, R106, R125). -/
def State.loadByte (s : State) (h : Hart) (po : Nat) (l : ScalarLoad) (pa : Nat) : Byte :=
  match l.space with
  | .host => (forwardByte .host pa po h.stores).getD (rdByte s.hmem pa)
  | .package => (forwardByte .package pa po h.stores).getD (rdByte s.mem (pa % 2 ^ 40))
  | .pod => if pa / 2 ^ 40 = s.rank then rdByte s.mem (pa % 2 ^ 40) else tget 0 l.got pa

/-- The local bytes a load reads from memory, for the ECC check: those not forwarded. -/
def State.loadLocal (s : State) (h : Hart) (po : Nat) (l : ScalarLoad) : List Nat :=
  match l.space with
  | .host => []
  | sp => (l.pas.filter (fun p => p / 2 ^ 40 = s.rank && (forwardByte sp p po h.stores).isNone)).map (· % 2 ^ 40)

/-- The host addresses a load reads: those not forwarded. -/
def loadHost (h : Hart) (po : Nat) (l : ScalarLoad) : List Nat :=
  match l.space with
  | .host => l.pas.filter (fun p => (forwardByte .host p po h.stores).isNone)
  | _ => []

/-- The first physical address of a load whose data cannot be had: an uncorrectable unit (R323), or a poisoned or failed completion of the
host (R196). -/
def State.loadError (s : State) (h : Hart) (po : Nat) (l : ScalarLoad) : Option Nat :=
  match (s.readLocal (s.loadLocal h po l)).2.2 with
  | some bad => some (s.paOf (bad / 64 * 64))
  | none => s.poisonedAt (loadHost h po l)

/-- Bind one scalar load: write its register, or defer DATAERR (R102, R105, R196, R323, R392). -/
def State.bindLoad (s : State) (ag : Agent) (h : Hart) (e : LoadEntry) (l : ScalarLoad) : State :=
  let r := s.readLocal (s.loadLocal h e.po l)
  let h1 := (h.dropLoad e.po).prune (s.streamPos ag)
  match s.loadError h e.po l with
  | some pa =>
      let s1 := r.1.postUncorr 2 (s.unitOf (agentTask ag)) l.va.toNat pa (spaceCode l.space) (agentTag ag) l.pc.toNat
      (s1.putHart ag h1).deferFault ag (addrFault cDATAERR l.va.toNat false) l.pc
  | none =>
      r.1.putHart ag (h1.setX l.d (extendLoad l.sz l.sx (leNat (l.pas.map (s.loadByte h e.po l)))))

/-- LOAD_BIND (R102): the scalar load of an agent at a place in program order binds. -/
def execLoadBind (ag : Agent) (po : Nat) (s : State) : Out :=
  match s.hart? ag with
  | none => .next s
  | some h =>
    match h.findLoad po with
    | none => .next s
    | some (e, l) => if s.loadReady ag h e l then .next (s.bindLoad ag h e l) else .next s

/-- The oldest store entry that has not performed at scope k, with the entries ahead of it and behind it. -/
def splitStores : List StoreEntry → Option (List StoreEntry × StoreEntry × List StoreEntry)
  | [] => none
  | e :: r =>
    if e.atK then (splitStores r).map (fun x => (e :: x.1, x.2)) else some ([], e, r)

/-- The space a store entry writes. -/
def StoreEntry.space (e : StoreEntry) : Space :=
  match e.kind with
  | .store sp _ _ _ _ => sp
  | .rmw _ _ host _ _ _ _ _ => if host then .host else .package
  | .stg _ _ _ _ _ => .pod
  | .reds _ _ _ => .package
  | .stream _ => .package

/-- The local bytes a store entry writes. -/
def StoreEntry.locals (e : StoreEntry) : List Nat :=
  match e.kind with
  | .store .package _ pas _ _ => pas.map (· % 2 ^ 40)
  | .rmw _ dw false _ _ _ pa _ => addrs (pa % 2 ^ 40) (if dw then 8 else 4)
  | .reds _ els _ => els.flatMap (fun x => addrs (x.2.1 % 2 ^ 40) 4)
  | _ => []

/-- Can the controllers accept a store entry now (R369)? The reductions of a POOL.wadd are accepted one after the other. -/
def StoreEntry.room (e : StoreEntry) (s : State) : Bool :=
  match e.kind with
  | .reds _ _ _ => s.canAccept (unitsOf e.locals)
  | _ => s.roomFor (unitsOf e.locals)

/-- May the next store entry of an agent perform at scope k now? A package store performs at h at the same instant, so every
older entry must have completed at h (R100, R103); a controller takes it only with room in its write queue (R369). -/
def State.acceptReady (s : State) (ag : Agent) (h : Hart) (before : List StoreEntry) (e : StoreEntry) : Bool :=
  s.outerStore ag && (match e.kind with | .stream _ => false | _ => true) &&
  (e.space != .package || before.isEmpty) &&
  h.mayGo (s.streamPos ag) e.po e.rel (ordScope e.space) && e.room s

/-- What a Stoek program performs is an element of its STKRUN's store entry, which has then begun (R114, R118). -/
def State.beginOuter (s : State) (ag : Agent) : State :=
  match ag with
  | .scp _ => s
  | .stoek k tag =>
    match s.task? k with
    | none => s
    | some t => s.putTask k (t.beginStore tag)

/-- A store entry performs at scope k: a host store stays until the host acknowledges it (R100). -/
def State.acceptStore (s : State) (ag : Agent) (before : List StoreEntry) (e : StoreEntry) (after : List StoreEntry) : State :=
  let s1 := s.performStore ag e
  match s1.hart? ag with
  | none => s1
  | some h1 =>
    let keep := match e.space with
      | .host => [{ e with begun := true, atK := true }]
      | _ => []
    (s1.putHart ag (({ h1 with stores := before ++ keep ++ after }).prune (s1.streamPos ag))).beginOuter ag

/-- MC_WRITE_ACCEPT (R369): the oldest store, reduction or atomic of an agent that has not performed is accepted. -/
def execMcWriteAccept (ag : Agent) (s : State) : Out :=
  match s.hart? ag with
  | none => .next s
  | some h =>
    match splitStores h.stores with
    | none => .next s
    | some (before, e, after) => if s.acceptReady ag h before e then .next (s.acceptStore ag before e after) else .next s

/-- The host acknowledges a store of a task of this launch that has ended (R15, R117). -/
def State.ackEnded (s : State) (l : Nat) : State :=
  match tfind s.disp.launches l with
  | none => s
  | some la =>
    if la.unacked = 0 then s
    else State.finishLaunch { s with disp := { s.disp with launches := tput s.disp.launches l { la with unacked := la.unacked - 1 } } } l

/-- HOST_COMPLETION (R100): the host acknowledges the oldest accepted host store of an agent as globally visible; where it has none, one
that an ended task of its launch has left. -/
def execHostCompletion (ag : Agent) (s : State) : Out :=
  let left := s.ackEnded (agentTask ag / 256)
  match s.hart? ag with
  | none => .next left
  | some h =>
    match h.stores with
    | e :: r => if e.atK then .next (s.putHart ag (({ h with stores := r }).prune (s.streamPos ag))) else .next left
    | [] => .next left

/-- MC_WRITEBACK (R369): the write-queue entry of a unit goes to DRAM; no value changes. No DRAM command is given while the channel
switches its data rate (R374). -/
def execMcWriteback (unit : Nat) (s : State) : Out :=
  if s.ms.wq.contains unit && !s.rateBusy (channelOf (64 * unit)) then
    .next { s with ms := { s.ms with wq := s.ms.wq.filter (· ≠ unit), ecc := tdel s.ms.ecc unit } }
  else .next s

/-- DEFERRED_LOAD_FAULT (R392): the earliest late fault of a load, CAS or AMO is taken at an instruction boundary. -/
def execDeferredLoadFault (k : Nat) (s : State) : Out :=
  match s.task? k with
  | none => .next s
  | some t =>
    match t.deferred with
    | [] => .next s
    | (f, fp) :: rest =>
      if t.scpOn then
        .next ((s.putTask k { t with deferred := rest }).takeTrap k { scpCause f with defer := true } fp t.hart.pc)
      else .next s

end Sys2Proof.Machine
end

