-- ==== Sys2Proof/Machine/System.lean ====
section
/-! DEFINITION. Fetch, and the supervisory rows: ILLOP_DECODE, INSTRUCTION_FETCH_FAULT, TRAP, SCALL, ERET, WAITE, HALT, TLBI,
TLBSYNC, HALT_COMPLETE, STREAM_FAULT_TRAP, SFCTL_RETIRE, WAKESET (17 R310 to R330; 06 R145, R151, R152; 07 R165). -/

namespace Sys2Proof.Machine

/-! ## Fetch -/

/-- What a fetch at pc finds. `fault` carries the local address of an uncorrectable read, if that is the cause. -/
inductive Fetched where
  | instr (i : Instr)
  | illop
  | fault (f : FaultInfo) (bad : Option Nat)
  | stop (r : Fault)
  deriving DecidableEq, Repr

/-- The local addresses of the 4 bytes of a word that an agent fetches (R361), by the walk or cached forms (R360, R364). -/
def State.fetchAddrs (s : State) (c : XCtx) (va : Nat) : State × Except Fetched (List Nat) :=
  if va / 2 ^ 56 ≠ 0 then (s, .error (.fault (addrFault cPAGE va false) none))
  else
    let r := s.pickLeaf c.asid va
    match r.2 with
    | .error .page => (r.1, .error (.fault (addrFault cPAGE va false) none))
    | .error (.noMemory pa) => (r.1, .error (.stop (.noMemory pa)))
    | .error (.uncorr la) => (r.1, .error (.fault (addrFault cDATAERR va false) (some la)))
    | .ok l =>
      match leafAccess s c { space := .package, r := false, w := false, x := true } l va 4 with
      | .error code => (r.1, .error (.fault (addrFault code va false) none))
      | .ok _ => (r.1, .ok (addrs (bits l.pte 51 12 * 4096 % 2 ^ 40 + (va - l.base)) 4))

/-- The word at an address that lies at these local addresses. A fetch takes the bytes as memory holds them; that it may see older
contents without a MARK.k (R119, R204) is not shown (log 49). -/
def State.readWord (s : State) (va : Nat) (las : List Nat) : State × Except Fetched (BitVec 32) :=
  let d := s.readLocal las
  match d.2.2 with
  | some a => (d.1, .error (.fault (addrFault cDATAERR va false) (some (a / 64 * 64))))
  | none => (d.1, .ok (BitVec.ofNat 32 (leNat d.2.1)))

/-- One word at an address. A 4-byte aligned word lies in one page. -/
def State.fetchWord (s : State) (c : XCtx) (va : Nat) : State × Except Fetched (BitVec 32) :=
  let r := s.fetchAddrs c va
  match r.2 with
  | .error e => (r.1, .error e)
  | .ok las => r.1.readWord va las

/-- Which decoded words an agent executes (R151). -/
def legalFor (ag : Agent) (i : Instr) : Bool :=
  match ag with
  | .scp _ => !i.isStoekOp
  | .stoek _ _ =>
    i.isStoekOp ||
    (match i with
     | .add .. | .sub .. | .and .. | .or .. | .xor .. | .andn .. | .shl .. | .shr .. | .sha .. | .rot .. | .min .. | .max ..
     | .minu .. | .maxu .. | .cmp .. | .sel .. | .clz .. | .ctz .. | .popc .. | .addi .. | .andi .. | .ori .. | .xori ..
     | .shli .. | .shri .. | .shai .. | .cmpi .. | .lih .. | .lea .. | .bc .. | .j .. | .jal .. | .jr .. | .jalr ..
     | .mul .. | .mulh .. | .mulhu .. | .div .. | .divu .. | .rem .. | .remu .. | .ldp .. | .stp .. | .mark .. | .hint .. => true
     | _ => false)

/-- What the words found decode to for an agent. -/
def fetched (ag : Agent) : Except Fetched (Dec Instr) → Fetched
  | .error e => e
  | .ok (.error _) => .illop
  | .ok (.ok i) => if legalFor ag i then .instr i else .illop

/-- Does an agent look at the word after this first word of a long form? Its major is one of the agent's and its fn one of the major's:
otherwise it is illegal whatever follows (R151, R172). -/
def examinesSecond (ag : Agent) (w0 : BitVec 32) : Bool :=
  longKnown w0 && (longStoek w0 == (match ag with | .stoek _ _ => true | .scp _ => false))

/-- The word or words at an agent's pc, decoded. Of a long major the second word's translation and permission are checked before the first
word's fn; its contents are read only where they are examined (R145, R149, R152, R165, R172). -/
def State.fetch (s : State) (ag : Agent) (pc : Word) : State × Fetched :=
  let c := s.xctx ag
  let r0 := s.fetchWord c pc.toNat
  match r0.2 with
  | .error e => (r0.1, e)
  | .ok w0 =>
    if isLongWord w0 then
      let a1 := r0.1.fetchAddrs c (pc + 4).toNat
      match a1.2 with
      | .error e => (a1.1, e)
      | .ok las =>
        if examinesSecond ag w0 then
          let r1 := a1.1.readWord (pc + 4).toNat las
          (r1.1, fetched ag (r1.2.map (decodeWords w0)))
        else (a1.1, .illop)
    else (r0.1, fetched ag (.ok (decodeWords w0 0)))

/-- ILLOP_DECODE: the word at the executing agent's pc is none of its instructions (R7, R151, R165). -/
def execIllopDecode (s : State) : Out :=
  s.onHart fun ag h =>
    let r := s.fetch ag h.pc
    match r.2 with
    | .illop => .next (r.1.agentFault ag (plainFault cILLOP))
    | _ => .next s

/-- INSTRUCTION_FETCH_FAULT: the word at pc cannot be fetched; the fault is taken there (R152, R194, R317). A fault of translation
behind a MARK that still holds is not taken: the walk after the MARK finds what was stored before it (R363). -/
def execInstructionFetchFault (s : State) : Out :=
  s.onHart fun ag h =>
    let r := s.fetch ag h.pc
    match r.2 with
    | .fault f (some la) =>
        let s1 := r.1.postUncorr 2 (s.unitOf (agentTask ag)) (f.va.getD h.pc).toNat (s.paOf la) 0 (agentTag ag) h.pc.toNat
        .next (s1.agentFault ag f)
    | .fault f none => if s.behindMark ag h then .next s else .next (r.1.agentFault ag f)
    | .stop e => .fault e
    | _ => .next s

/-! ## Supervisory instructions -/

/-- A cause of class 2 or 3 (R326). -/
def trapCause (cls : BitVec 2) (c : BitVec 8) : TrapCause :=
  { code := 0, cls := cls, code8 := c, tag := 0, va := none, wr := false, defer := false }

def execTrap (c : BitVec 8) (s : State) : Out :=
  s.onScp fun k t => .next (s.takeTrap k (trapCause 2 c) t.hart.pc (t.hart.pc + 4))

def execScall (c : BitVec 8) (s : State) : Out :=
  s.onScp fun k t => .next (s.takeTrap k (trapCause 3 c) t.hart.pc (t.hart.pc + 4))

/-- A word that only mode S may execute; in mode U it raises PERM (R168, R325). -/
def State.onSup (s : State) (k : Nat → Task → Out) : Out :=
  s.onScp fun n t => if t.sup.mode then k n t else .next (s.scpFault n (plainFault cPERM))

def execEret (s : State) : Out := s.onSup fun k t => .next (s.putTask k t.eret)

/-- WAITE (R327): wait until WAKE.PEND is 1, then clear it and go on. -/
def execWaite (s : State) : Out :=
  s.onSup fun k t =>
    if t.sup.pend then .next (s.putTask k { t with sup := { t.sup with pend := false }, hart := t.hart.advance 4 })
    else .next s

/-- HALT (R20, R328): in mode U the SCP waits for older work (HALT_COMPLETE ends the task); in mode S the task is terminated. -/
def execHalt (s : State) : Out :=
  s.onScp fun k t => if t.sup.mode then .next (s.terminate k) else .next (s.putTask k { t with halting := true })

/-- Is a stream instruction of a task started and still to run to its completion? A faulted one waits for a supervisor that will not
come, and so does one behind it that has left the queue for want of a core or of pins (R208). -/
def Task.running (t : Task) : Bool :=
  t.sq.any (fun q => q.started && q.fault.isNone && (q.running || !(olderThan q.po t.sq).any (·.fault.isSome)))

/-- Has a task that waits in HALT nothing older left: no stream instruction, no load, no store that has not performed at scope k, no late
fault (R20, R117)? -/
def Task.haltDone (t : Task) : Bool :=
  t.seated && t.halting && t.sq.isEmpty && t.hart.loads.isEmpty && t.hart.stores.all (·.doneAt .k) && t.deferred.isEmpty

/-- HALT_COMPLETE (R20): once every older stream instruction and memory access has completed at scope k, the task ends. A task that a
double fault has stopped ends once its started stream instructions have run to completion (R318). -/
def execHaltComplete (k : Nat) (s : State) : Out :=
  match s.task? k with
  | none => .next s
  | some t =>
    if t.haltDone then .next (s.endTask k true)
    else if t.doubled && !t.running then .next (s.endDoubled k t)
    else .next s

/-- The selector of TLBI (R329). -/
def tlbSel (a b : Word) : TlbSel :=
  { kind := b.extractLsb' 0 2, asid := b.extractLsb' 16 16, va := if b.extractLsb' 0 2 = 0 then a.toNat else 0, removed := false,
    uses := [] }

/-- The operand rules of TLBI (R329). -/
def tlbSelOk (a b : Word) : Bool :=
  b.extractLsb' 0 2 != 3 && b.extractLsb' 2 14 == 0 && b.extractLsb' 32 32 == 0 &&
    (b.extractLsb' 0 2 != 0 || a.extractLsb' 56 8 == 0)

/-- The selectors of a logical gnoum's TLBIs that no TLBSYNC has followed. -/
def State.selectors (s : State) (lg : Nat) : List TlbSel := tget [] s.tlbi lg

def State.setSelectors (s : State) (lg : Nat) (zs : List TlbSel) : State := { s with tlbi := tset [] s.tlbi lg zs }

def execTlbi (a b : Reg) (s : State) : Out :=
  s.onSup fun k t =>
    let h := t.hart
    if !h.ready [a, b] then .next s
    else if !tlbSelOk (h.x a) (h.x b) then .next (s.scpFault k (plainFault cBOUNDS))
    else if h.stores.any (fun e => !e.doneAt .k) then .next s
    else .next ((s.putTask k { t with hart := h.advance 4 }).setSelectors t.lg (s.selectors t.lg ++ [tlbSel (h.x a) (h.x b)]))

/-- The pending scalar accesses of a hart: place in program order and virtual address, of a POOL.wadd those of every element. -/
def pendingVas (h : Hart) : List (Nat × Nat) :=
  h.loads.filterMap (fun e => match e.kind with | .scalar l => some (e.po, l.va.toNat) | _ => none) ++
  h.stores.flatMap (fun e => match e.kind with
    | .store _ va _ _ _ => [(e.po, va.toNat)]
    | .rmw _ _ _ _ _ va _ _ => [(e.po, va.toNat)]
    | .stg va _ _ _ _ => [(e.po, va.toNat)]
    | .reds _ els _ => els.map (fun x => (e.po, x.1))
    | .stream _ => [])

/-- The agents of a task with their harts. -/
def Task.harts (k : Nat) (t : Task) : List (Agent × Hart) := (.scp k, t.hart) :: t.stoeks.map (fun p => (.stoek k p.tag, p.hart))

/-- Does a selector select a cached form: a leaf that it covers; a non-leaf entry on the path of its address, or of its address space; a
directory entry only by its address space or all (R329, R364)? -/
def TlbSel.coversEntry (z : TlbSel) (e : TlbEntry) : Bool :=
  match e.level with
  | none => z.covers e.asid (bit e.pte.toNat 5) e.va e.size
  | some l => z.covers e.asid false e.va e.size && (l != 3 || z.kind != 0)

/-- May an access of up to 8 bytes in an address space have used a cached entry? -/
def TlbEntry.usedBy (e : TlbEntry) (asid : BitVec 16) (va : Nat) : Bool :=
  (e.asid == asid || (e.level.isNone && bit e.pte.toNat 5)) && overlap (va, 8) (e.va, e.size)

/-- The pending scalar accesses that may have used one of these entries. -/
def State.usersOf (s : State) (es : List TlbEntry) : List (Agent × Nat) :=
  s.tasks.flatMap (fun x => (x.2.harts x.1).flatMap (fun y =>
    ((pendingVas y.2).filter (fun p => es.any (fun e => e.usedBy x.2.asid p.2))).map (fun p => (y.1, p.1))))

/-- Note accesses that used some of these entries with every selector that selects one of them, whoever's TLBI it is of. -/
def State.noteUses (s : State) (es : List TlbEntry) : State :=
  { s with tlbi := s.tlbi.map (fun x => (x.1, x.2.map (fun z => { z with uses := z.uses ++ s.usersOf (es.filter z.coversEntry) }))) }

/-- Note the pending accesses of a program that translated by its pins, before those go, with every selector that covers a pin (R366). -/
def State.notePins (s : State) (k : Nat) (t : Task) (p : Stoek) : State :=
  let used (z : TlbSel) : List (Agent × Nat) :=
    let ps := p.pins.filter (fun x => z.covers t.asid (bit x.pte.toNat 5) x.va x.size)
    ((pendingVas p.hart).filter (fun a => ps.any (fun x => overlap (a.2, 8) (x.va, x.size)))).map (fun a => (.stoek k p.tag, a.1))
  { s with tlbi := s.tlbi.map (fun x => (x.1, x.2.map (fun z => { z with uses := z.uses ++ used z }))) }

/-- Every unit removes the entries that the selectors of a gnoum select, the first time its TLBSYNC executes (R330). Whatever still uses a
removed entry is noted first. -/
def State.removeEntries (s : State) (lg : Nat) : State :=
  let new := (s.selectors lg).filter (fun z => !z.removed)
  let gone := s.tlb.filter (fun e => new.any (·.coversEntry e))
  let s1 := if gone.isEmpty then s else s.noteUses gone
  let s2 := s1.setSelectors lg ((s1.selectors lg).map (fun z => { z with removed := true }))
  { s2 with tlb := s2.tlb.filter (fun e => !new.any (·.coversEntry e)) }

/-- Is a scalar access still pending? -/
def State.stillPending (s : State) (x : Agent × Nat) : Bool :=
  match s.hart? x.1 with
  | some h => (pendingVas h).any (fun p => p.1 == x.2)
  | none => false

/-- Does a TLBSYNC still wait for a selector: an access that used a removed entry is pending, or an instruction holds a pin on a
page that it covers (R330)? -/
def State.syncWaits (s : State) (z : TlbSel) : Bool :=
  z.uses.any s.stillPending ||
  s.tasks.any (fun x => (x.2.sq.flatMap (·.pins) ++ x.2.stoeks.flatMap (·.pins)).any (fun p =>
    z.covers x.2.asid (bit p.pte.toNat 5) p.va p.size))

/-- TLBSYNC (R330): every unit removes the entries that this gnoum's TLBIs select; then wait until nothing uses one. -/
def execTlbsync (s : State) : Out :=
  s.onSup fun k t =>
    let s1 := s.removeEntries t.lg
    if (s1.selectors t.lg).any s1.syncWaits then .next s1
    else .next ((s1.putTask k { t with hart := t.hart.advance 4 }).setSelectors t.lg [])

/-! ## Stream faults (R208, R317, R319, R420) -/

/-- The pending stream fault that is taken next: that of the instruction issued earliest. -/
def Task.pendingFault (t : Task) : Option (QInstr × FaultInfo) :=
  match t.sq.find? (fun q => q.fault.isSome && !q.taken) with
  | some q => q.fault.map (fun f => (q, f))
  | none => none

/-- May the SCP take a stream fault: mode U with EXL clear (R317)? -/
def Task.streamTrapOk (t : Task) : Bool := t.seated && !t.sup.mode && !t.sup.exl

/-- STREAM_FAULT_TRAP: the SCP takes the trap of a pending stream fault; a waiting instruction counts as not issued (R420). -/
def execStreamFaultTrap (k : Nat) (s : State) : Out :=
  match s.task? k with
  | none => .next s
  | some t =>
    match t.pendingFault with
    | none => .next s
    | some (q, f) =>
      if t.streamTrapOk then
        let c : TrapCause := { code := f.code, cls := 1, code8 := 0, tag := BitVec.ofNat 6 q.tag, va := f.va, wr := f.wr, defer := false }
        .next ((s.putTask k (t.putQ { q with taken := true })).takeTrap k c q.pc t.hart.pc)
      else .next s

/-- Retire the stream fault whose trap was taken last: the instruction completes with its code (R319, R320). -/
def Task.retire (t : Task) : Task :=
  match t.sq.find? (fun q => q.taken) with
  | none => t
  | some q =>
    match q.fault with
    | none => t
    | some f => t.completeQ q.tag (StatusFields.ended q.tag f.code.toNat q.count) q.pc (f.va.getD 0) f.va.isSome

/-- SFCTL_RETIRE (R319): the supervisor of a task writes RETIRE. -/
def execSfctlRetire (k : Nat) (s : State) : Out :=
  match s.task? k with
  | none => .next s
  | some t => .next (s.putTask k t.retire)

/-- Set WAKE.PEND of every task bound to a logical gnoum (R312, R327). -/
def State.wake (s : State) (lg : Nat) : State :=
  { s with tasks := s.tasks.map (fun e => (e.1, if e.2.lg = lg then { e.2 with sup := { e.2.sup with pend := true } } else e.2)) }

/-- WAKESET: values 192 to 255 name no logical gnoum and are ignored, as no task is bound to them. -/
def execWakeset (lg : BitVec 8) (s : State) : Out := .next (if lg.toNat < 192 then s.wake lg.toNat else s)

end Sys2Proof.Machine
end

