-- ==== Sys2Proof/Machine/StreamIssue.lean ====
section
/-! DEFINITION. Issue of the queued stream instructions and the instructions executed at issue (09 R206 to R231; 13 R294):
TDSET to STKRUN, TDGET, RINGQ, KSTAT, SQSTAT, SQWAIT, STKCAN, GJOIN, GLEAVE, GBAR, STEP.ARR, STEP.WAIT, STEP.QRY. -/

namespace Sys2Proof.Machine

/-- Place a stream instruction in the queue: rd receives its tag, its operands are held, a store entry enters, the SCP moves on;
with 64 unfinished entries the SCP stalls (R21, R22, R101, R206, R207). -/
def Task.enqueue (t : Task) (i : Instr) (d : Reg) (ops : List Word) (blk : List Byte) : Task :=
  let n := t.nextTag
  let q : QInstr :=
    { tag := n, ins := i, pc := t.hart.pc, po := t.hart.po, modeS := t.sup.mode, ops := ops, blk := blk, started := false,
      running := false, entered := false, begun := false, ended := false, asked := 0, resume := 0, count := 0, desc := Desc.invalid,
      descs := [], pins := [], resv := 0, fault := none,
      taken := false, got := [] }
  let e : StoreEntry := { po := t.hart.po, kind := .stream n, acq := false, rel := false, begun := false, atK := false }
  let st := { StatusFields.ended n 0 0 with started := false, done := false }
  let h := { t.hart with stores := if hasStoreEntry i then t.hart.stores ++ [e] else t.hart.stores }
  { t with sq := t.sq ++ [q], nextTag := n + 1,
           tags := tset TagInfo.fresh t.tags (n % 64) { status := st.word, dpc := 0, dva := 0, dvav := false },
           hart := ((h.setX d (BitVec.ofNat 64 (n % 64))).nextPo).advance 8 }

/-- Issue with the registers named held in order. -/
def State.issue (s : State) (i : Instr) (d : Reg) (rs : List Reg) : Out :=
  s.onScp fun k t =>
    if !t.hart.ready (d :: rs) || decide (64 ≤ t.sq.length) then .next s
    else .next (s.putTask k (t.enqueue i d (rs.map t.hart.x) []))

def execTdset (d : Reg) (td : BitVec 6) (line : BitVec 15) (s : State) : Out := s.issue (.tdset d td line) d []
def execTdmov (d : Reg) (td : BitVec 6) (f : BitVec 5) (a : Reg) (s : State) : Out := s.issue (.tdmov d td f a) d [a]
def execRingi (d : Reg) (n : BitVec 4) (a : Reg) (nslot slot1 : BitVec 9) (s : State) : Out :=
  s.issue (.ringi d n a nslot slot1) d [a]
def execSld (d : Reg) (td : BitVec 6) (line : BitVec 15) (rsz : BitVec 9) (rg e pad mmas : Bool) (a b : Reg) (s : State) : Out :=
  s.issue (.sld d td line rsz rg e pad mmas a b) d [a, b]
def execSst (d : Reg) (td : BitVec 6) (line : BitVec 15) (rsz : BitVec 9) (rg e pad : Bool) (a b : Reg) (s : State) : Out :=
  s.issue (.sst d td line rsz rg e pad a b) d [a, b]
def execSga (d : Reg) (td : BitVec 6) (line : BitVec 15) (rsz : BitVec 9) (rg e : Bool) (a b : Reg) (s : State) : Out :=
  s.issue (.sga d td line rsz rg e a b) d [a, b]
def execSsc (op : SscOp) (d : Reg) (td : BitVec 6) (line : BitVec 15) (rsz : BitVec 9) (rg e : Bool) (a b : Reg) (s : State) : Out :=
  s.issue (.ssc op d td line rsz rg e a b) d [a, b]
def execScpy (d : Reg) (e drop : Bool) (la lb : BitVec 15) (rga rgb : Bool) (a : Reg) (s : State) : Out :=
  s.issue (.scpy d e drop la lb rga rgb a) d [a]
def execNbmv (d : Reg) (td : BitVec 6) (y : BitVec 15) (acc : Bool) (a b : Reg) (s : State) : Out :=
  s.issue (.nbmv d td y acc a b) d [a, b]
def execDescend (d : Reg) (td : BitVec 6) (l0 l1 : BitVec 5) (dg : BitVec 3) (pt mg lf : Bool) (a b : Reg) (s : State) : Out :=
  s.issue (.descend d td l0 l1 dg pt mg lf a b) d [a, b]
def execStkrun (d : Reg) (n : BitVec 4) (a b : Reg) (s : State) : Out := s.issue (.stkrun d n a b) d [a, b]
def execStkrunNoring (d a b : Reg) (s : State) : Out := s.issue (.stkrunNoring d a b) d [a, b]

/-- The registers x[a] to x[a + n - 1] (R224). -/
def argRegs (a : Reg) (n : Nat) : List Reg := (List.range n).map (fun i => a + BitVec.ofNat 5 i)

/-- Do a KRUN's arguments run past x31 (R224)? -/
def krunPast (a : Reg) (narg : BitVec 4) : Bool := narg.toNat ≠ 0 && decide (31 < a.toNat + narg.toNat - 1)

/-- KRUN (R224): its arguments and its binding block are read at issue, the block under the rule of LDF. -/
def execKrun (d : Reg) (ke : BitVec 13) (a : Reg) (narg : BitVec 4) (t5 : Bool) (b : Reg) (s : State) : Out :=
  s.onScp fun k t =>
    let h := t.hart
    let rs := argRegs a narg.toNat
    if krunPast a narg then .next (s.scpFault k (plainFault cILLOP))
    else if !h.ready (d :: b :: rs) || decide (64 ≤ t.sq.length) then .next s
    else
      let o := h.x b
      if o.toNat % 128 ≠ 0 || !t.srfOk o 128 then .next (s.scpFault k (plainFault cBOUNDS))
      else if t.srfBusy (o.toNat, 128) false then .next s
      else .next (s.putTask k (t.enqueue (.krun d ke a narg t5 b) d (rs.map h.x) (srfBytes t.srf o.toNat 128)))

/-! ## Instructions executed at issue -/

/-- Write a result at issue and move past a long form; wait while a register or the condition is not ready. -/
def State.atIssue (s : State) (rs : List Reg) (d : Reg) (ok : Task → Bool) (f : Task → Word) : Out :=
  s.onScp fun k t =>
    if t.hart.ready (d :: rs) && ok t then .next (s.putHart (.scp k) ((t.hart.setX d (f t)).advance 8)) else .next s

def execTdget (d : Reg) (td : BitVec 6) (f : BitVec 5) (s : State) : Out :=
  s.atIssue [] d (fun t => !t.sq.any (fun q => setsDesc td.toNat q.ins))
    (fun t => (tget Desc.invalid t.descs td.toNat).field f.toNat)

/-- The snapshot RINGQ writes (R215). -/
def Ring.snapshot (r : Ring) : Word :=
  if r.cfg then
    BitVec.ofNat 64 (r.filled + r.free * 2 ^ 9 + r.head * 2 ^ 18 + r.tail * 2 ^ 26 + r.nslot * 2 ^ 34 + 2 ^ 43 +
      b2n (r.eosAt 0) * 2 ^ 44)
  else 0

def execRingq (d : Reg) (n : BitVec 4) (s : State) : Out :=
  s.atIssue [] d (fun t => !t.sq.any (fun q => ringiOf q.ins == some n.toNat)) (fun t => (t.ring n.toNat).snapshot)

/-- The status word of the tag in x[a][5:0] (R210, R226). -/
def Task.statusOf (t : Task) (a : Reg) : Word := (t.tag ((t.hart.x a).toNat % 64)).status

/-- DONE of a status word. -/
def isDone (w : Word) : Bool := w.getLsbD 22

def execKstat (d a : Reg) (s : State) : Out := s.atIssue [a] d (fun t => isDone (t.statusOf a)) (fun t => t.statusOf a)
def execSqstat (d a : Reg) (s : State) : Out := s.atIssue [a] d (fun _ => true) (fun t => t.statusOf a)
def execSqwait (a : Reg) (s : State) : Out := s.atIssue [a] 0 (fun t => isDone (t.statusOf a)) (fun _ => 0)
def execSqwaitAll (s : State) : Out := s.atIssue [] 0 (fun t => t.sq.isEmpty) (fun _ => 0)

/-! ## STKCAN (R230) -/

/-- The unfinished STKRUN that a tag identifies now (R22). -/
def Task.stkrunOf (t : Task) (tag : Nat) : Option QInstr :=
  t.sq.find? (fun q => q.tag % 64 = tag && decide (t.nextTag ≤ q.tag + 64) &&
    (match q.ins with | .stkrun _ _ _ _ => true | .stkrunNoring _ _ _ => true | _ => false))

/-- Cancel a Stoek program: it stops, its queued deliveries are discarded, its pins go once
its issued stores have performed; a fault keeps its code. -/
def Stoek.cancel (p : Stoek) : Stoek :=
  { p with delivery := [],
           ending := match p.ending with
             | .fault c a v => .fault c a v
             | _ => .cancel }

/-- Cancel an unfinished STKRUN: one not started completes with CANCEL. -/
def Task.cancelStk (t : Task) (q : QInstr) : Task :=
  match t.stoek? q.tag with
  | some p => t.putStoek p.cancel
  | none => t.completeQ q.tag { StatusFields.ended q.tag cCANCEL 0 with started := q.started } 0 0 false

def execStkcan (a : Reg) (s : State) : Out :=
  s.onScp fun k t =>
    if !t.hart.ready [a] then .next s
    else
      let t1 := match t.stkrunOf ((t.hart.x a).toNat % 64) with
        | some q => t.cancelStk q
        | none => t
      .next (s.putTask k { t1 with hart := t1.hart.advance 8 })

/-! ## Groups (R33 to R37, R116) -/

def Task.inGroup (t : Task) (g : Nat) : Bool := t.groups.any (fun m => m.1 = g)

def execGjoin (g : BitVec 6) (s : State) : Out :=
  s.onScp fun k t =>
    if !t.gpermit.getLsbD g.toNat then .next (s.scpFault k (plainFault cPERM))
    else if t.inGroup g.toNat then .next (s.putTask k { t with hart := t.hart.advance 8 })
    else if 4 ≤ t.groups.length then .next (s.scpFault k (plainFault cBOUNDS))
    else .next (s.putTask k { t with groups := t.groups ++ [(g.toNat, false)], hart := t.hart.advance 8 })

def execGleave (g : BitVec 6) (s : State) : Out :=
  s.onScp fun k t => .next ((s.putTask k { t with hart := t.hart.advance 8 }).leaveGroup k g.toNat)

/-- Has every entry of a task older than its next instruction completed at scope k (R116, R134)? -/
def Task.drainedK (t : Task) : Bool := !t.hart.olderPending t.streamPos t.hart.po .k

/-- GBAR (R36, R116, R420): arrive once older entries have completed, wait for the release, then go on. One that was abandoned after
its arrival does not arrive again. -/
def execGbar (g : BitVec 6) (s : State) : Out :=
  s.onScp fun k t =>
    if !t.inGroup g.toNat then .next (s.scpFault k (plainFault cBOUNDS))
    else if t.owed.contains (g.toNat, t.hart.pc) then
      .next (s.putTask k (if t.heldBy g.toNat then { t with gbarWait := some g.toNat } else t.passGbar g.toNat))
    else if !t.drainedK then .next s
    else
      let t1 := { t with groups := t.groups.map (fun m => if m.1 = g.toNat then (m.1, true) else m),
                         owed := (g.toNat, t.hart.pc) :: t.owed, gbarWait := some g.toNat }
      .next ((s.putTask k t1).tryRelease g.toNat)

/-! ## Steps (R134, R135, R231) -/

/-- Only a step-member task may execute the step instructions. -/
def State.onStepMember (s : State) (k : Nat → Task → Out) : Out :=
  s.onScp fun n t => if t.stepm then k n t else .next (s.scpFault n (plainFault cSCOPE))

/-- The task counts as arrived; its pod stores now take generation n + 1 from SEQ 0 (R128, R134). -/
def Task.arrive (t : Task) : Task := { t with arrived := true, stepOwed := true, seq := 0 }

def execStepArr (s : State) : Out :=
  s.onStepMember fun k t =>
    if t.arrived || !t.drainedK then .next s
    else .next (s.putTask k { t.arrive with hart := t.hart.advance 8 }).tryArr

/-- STEP.WAIT (R135, R420): arrive if the task has not; wait for the release of the boundary arrived at; go on at once if that
boundary has been released in the meantime. -/
def execStepWait (s : State) : Out :=
  s.onStepMember fun k t =>
    if t.arrived then .next (s.putTask k { t with inStepWait := true })
    else if t.stepOwed then .next (s.putTask k { t with stepOwed := false, inStepWait := false, hart := t.hart.advance 8 })
    else if !t.drainedK then .next s
    else .next (s.putTask k { t.arrive with inStepWait := true }).tryArr

def execStepQry (d : Reg) (full : Bool) (s : State) : Out :=
  s.onStepMember fun k t =>
    if !t.hart.ready [d] then .next s
    else
      let n := s.stepNum
      let v := if full then n else n % 2 ^ 63 * 2 + b2n t.arrived
      .next (s.putHart (.scp k) ((t.hart.setX d (BitVec.ofNat 64 v)).advance 8))

end Sys2Proof.Machine
end

