-- ==== Sys2Proof/Machine/OnChip.lean ====
section
/-! DEFINITION. The check codes of a task's own state: registers of the SCP, SRF lines, descriptors and rings (17 R322, R323; 20 R376).
What is read is corrected and counted, or ends its reader with DATAERR; when an error arises is nature's doing (log 6). -/

namespace Sys2Proof.Machine

/-- What an instruction reads of its task's own state: registers, byte intervals of the SRF, descriptors, rings. -/
structure OwnReads where
  regs : List Reg
  srf : List (Nat × Nat)
  descs : List Nat
  rings : List Nat
  deriving DecidableEq, Repr

def OwnReads.none : OwnReads := { regs := [], srf := [], descs := [], rings := [] }

/-- An entry of a table of errors that a reader meets: correctable at level 1, uncorrectable at level 2. -/
def OwnReads.meets (n : OwnReads) (t : Task) (lvl : Nat) : Tbl Nat × Tbl Nat × Tbl Nat × Tbl Nat :=
  (t.hart.xbad.filter (fun e => e.2 = lvl && n.regs.any (fun r => r.toNat = e.1)),
   t.sbad.filter (fun e => e.2 = lvl && n.srf.any (overlap (128 * e.1, 128))),
   t.dbad.filter (fun e => e.2 = lvl && n.descs.contains e.1),
   t.rbad.filter (fun e => e.2 = lvl && n.rings.contains e.1))

/-- Does a reader meet an uncorrectable error? -/
def OwnReads.bad (n : OwnReads) (t : Task) : Bool :=
  let m := n.meets t 2
  !(m.1.isEmpty && m.2.1.isEmpty && m.2.2.1.isEmpty && m.2.2.2.isEmpty)

/-- The errors that a reader corrects, and the task without them. -/
def OwnReads.correct (n : OwnReads) (t : Task) : Nat × Task :=
  let m := n.meets t 1
  let without (t m : Tbl Nat) : Tbl Nat := m.foldl (fun a e => tdel a e.1) t
  (m.1.length + m.2.1.length + m.2.2.1.length + m.2.2.2.length,
   { t with hart := { t.hart with xbad := without t.hart.xbad m.1 }, sbad := without t.sbad m.2.1, dbad := without t.dbad m.2.2.1,
            rbad := without t.rbad m.2.2.2 })

/-- Correct and count what a reader meets (R323); nothing changes where it meets nothing. -/
def State.correctOwn (s : State) (k : Nat) (t : Task) (n : OwnReads) : State :=
  let c := n.correct t
  if c.1 = 0 then s else (s.putTask k c.2).countCorrected c.1

/-- Bytes of the SRF have been written: a line that they cover is good again (R323). -/
def Task.heal (t : Task) (o n : Nat) : Task :=
  { t with sbad := t.sbad.filter (fun e => !(decide (o ≤ 128 * e.1) && decide (128 * e.1 + 128 ≤ o + n))) }

/-- Every line of a record of a stream is good again. -/
def Task.healRec (t : Task) (st : Stream) (r : Nat) : Task := (List.range st.s).foldl (fun a j => a.heal (st.at r j) 128) t

/-- Does an error in a task's registers or footprint block the save of its context (R323)? -/
def Task.unsavable (t : Task) : Bool := t.hart.xbad.any (fun e => e.2 = 2) || t.sbad.any (fun e => e.2 = 2)

end Sys2Proof.Machine
end

