-- ==== Sys2Proof/Machine/StreamMove.lean ====
section
/-! DEFINITION. What SLD, SST, SGA, SSC and SCPY move: the units of a record, reads and writes of memory, the checks at start and
the probe pass (03 R89 to R98; 09 R216 to R223; 05 R127 to R131, R139). -/

namespace Sys2Proof.Machine

/-! ## Memory accesses of a queued instruction -/

/-- In whose name a queued instruction's accesses translate: the mode of its issue (R352). -/
def Task.qctx (t : Task) (q : QInstr) : XCtx := { asid := t.asid, modeS := q.modeS, stepm := t.stepm, pins := q.pins }

/-- Who reads or writes, for event records: logical gnoum, tag, pc (R324). -/
structure Who where
  unit : Nat
  tag : Nat
  pc : Nat
  deriving DecidableEq, Repr

def Task.who (t : Task) (q : QInstr) : Who := { unit := t.lg, tag := q.tag % 64, pc := q.pc.toNat }

/-- Read n bytes at a virtual address; bytes with remote homes come from `got` (R385); an uncorrectable read is DATAERR
(R323), and so is a poisoned or failed completion of the host (R196). -/
def State.readAt (s : State) (c : XCtx) (w : Who) (sp : Space) (got : Tbl Byte) (va n : Nat) : State × Res (List Byte) :=
  let r := s.xlate c { space := sp, r := true, w := false, x := false } va n
  match r.2 with
  | .error e => (r.1, .error e)
  | .ok p =>
    match sp with
    | .host =>
      (match r.1.poisonedAt p.2 with
       | some bad => (r.1.postUncorr 2 w.unit va bad 2 w.tag w.pc, raise (addrFault cDATAERR va false))
       | none => (r.1, .ok (rdBytes r.1.hmem p.2)))
    | _ =>
      let l := r.1.readLocal ((p.2.filter (fun a => a / 2 ^ 40 = s.rank)).map (· % 2 ^ 40))
      match l.2.2 with
      | some bad => (l.1.postUncorr 2 w.unit va (s.paOf (bad / 64 * 64)) (spaceCode sp) w.tag w.pc, raise (addrFault cDATAERR va false))
      | none => (l.1, .ok (p.2.map (fun a => if a / 2 ^ 40 = s.rank then rdByte l.1.mem (a % 2 ^ 40) else tget 0 got a)))

/-- Read units of ub bytes at virtual addresses, in order; `fill` stands for a unit outside the tensor (R90). -/
def State.readUnits (c : XCtx) (w : Who) (sp : Space) (got : Tbl Byte) (ub : Nat) (fill : List Byte) :
    List (Option Nat) → State → State × Res (List Byte)
  | [], s => (s, .ok [])
  | none :: r, s =>
    let q := State.readUnits c w sp got ub fill r s
    (q.1, q.2.map (fill ++ ·))
  | some va :: r, s =>
    let b := s.readAt c w sp got va ub
    match b.2 with
    | .error e => (b.1, .error e)
    | .ok x =>
      let q := State.readUnits c w sp got ub fill r b.1
      (q.1, q.2.map (x ++ ·))

/-- Remote bytes of these units that have not come yet (R385). -/
def State.missingUnits (c : XCtx) (got : Tbl Byte) (ub : Nat) : List (Option Nat) → State → State × Res (List (Nat × Nat))
  | [], s => (s, .ok [])
  | none :: r, s => State.missingUnits c got ub r s
  | some va :: r, s =>
    let b := s.xlate c { space := .pod, r := true, w := false, x := false } va ub
    match b.2 with
    | .error e => (b.1, .error e)
    | .ok p =>
      let q := State.missingUnits c got ub r b.1
      (q.1, q.2.map ((s.remote ((addrs va ub).zip p.2)).filter (fun a => (tfind got a.2).isNone) ++ ·))

/-- One store of an SST or SSC: bytes at a virtual address; only the bits of `mask` of each byte are written (R218). -/
structure Item where
  va : Nat
  data : List Byte
  mask : Byte
  deriving DecidableEq, Repr

/-- A byte with the bits of a mask replaced. -/
def mergeByte (mask old new : Byte) : Byte := (old &&& ~~~mask) ||| (new &&& mask)

/-- Bytes that stores write: physical address, the bits written, their values. -/
abbrev Writes := List (Nat × Byte × Byte)

/-- Translate stores in element order up to the first fault (R98). -/
def State.gather (c : XCtx) (sp : Space) : List Item → State → State × Writes × Option Stop
  | [], s => (s, [], none)
  | x :: r, s =>
    let p := s.xlate c { space := sp, r := false, w := true, x := false } x.va x.data.length
    match p.2 with
    | .error e => (p.1, [], some e)
    | .ok m =>
      let z := State.gather c sp r p.1
      (z.1, (m.2.zip x.data).map (fun y => (y.1, x.mask, y.2)) ++ z.2.1, z.2.2)

/-- What is left at each address: of two writes of a bit the later remains (R103). -/
def mergeWrites (ws : Writes) : Tbl (Byte × Byte) :=
  ws.foldl (fun t x => let o := (tfind t x.1).getD (0, 0); tput t x.1 (o.1 ||| x.2.1, mergeByte x.2.1 o.2 x.2.2)) []

/-- The check units that writes to package memory touch. -/
def writeUnits (ws : Writes) : List Nat := unitsOf (ws.map (·.1 % 2 ^ 40))

/-- Stores of an instruction to package memory, or to host memory, perform. The controllers take all bytes of a unit together, so that an
instruction that writes a whole unit replaces an error in it (R323, R377). -/
def State.storeWrites (s : State) (w : Who) (sp : Space) (ws : Writes) : State :=
  match sp with
  | .host => { s with hmem := ws.foldl (fun m x => wrByte m x.1 (mergeByte x.2.1 (rdByte m x.1) x.2.2)) s.hmem }
  | _ =>
    let t := mergeWrites (ws.map (fun x => (x.1 % 2 ^ 40, x.2)))
    let whole := t.filter (fun e => e.2.1 = 0xFF)
    let part := t.filter (fun e => e.2.1 ≠ 0xFF)
    let s1 := s.writeLocal 3 w.unit w.tag w.pc (whole.map (·.1)) (whole.map (·.2.2))
    s1.writeLocal 3 w.unit w.tag w.pc (part.map (·.1)) (part.map (fun e => mergeByte e.2.1 (rdByte s1.mem e.1) e.2.2))

/-! ## Records of the SRF -/

/-- The bytes of record r of a stream. -/
def getRec (m : Tbl Line) (st : Stream) (r : Nat) : List Byte := (List.range st.s).flatMap (fun j => srfBytes m (st.at r j) 128)

/-- Write record r of a stream, line by line. -/
def putRec (m : Tbl Line) (st : Stream) (r : Nat) (bs : List Byte) : Tbl Line :=
  (List.range st.s).foldl (fun a j => srfWrite a (st.at r j) ((bs.drop (128 * j)).take 128)) m

/-- Zero bytes up to a length. -/
def padTo (n : Nat) (bs : List Byte) : List Byte := bs ++ List.replicate (n - bs.length) 0

/-- The SHAKE256 digest of n bytes (R349, R405, R408, R412). -/
def digest (n : Nat) (bs : List Byte) : List Byte := padTo n ((Config.shake256 bs n).take n)

/-! ## What a moving instruction moves -/

/-- The shape of an SLD, SST, SGA or SSC. -/
structure Geo where
  load : Bool
  rows : Bool
  pad : Bool
  e : Bool
  red : Option SscOp
  mmas : Bool
  ring : Option Nat
  st : Stream
  deriving DecidableEq, Repr

def Geo.recBytes (g : Geo) : Nat := g.st.s * 128

/-- Is it an SSC with a reduction? -/
def Geo.reduces (g : Geo) : Bool :=
  match g.red with
  | none => false
  | some .store => false
  | some _ => true

/-- The shape, given the descriptor read at start. -/
def QInstr.geo (q : QInstr) : Option Geo :=
  let o (i : Nat) : Word := q.ops.getD i 0
  let win (line : BitVec 15) (rsz : BitVec 9) (pad : Bool) : Stream :=
    { off := line.toNat * 128, s := rsz.toNat + 1, n := (q.desc.window (extents (o 0) (o 1)) pad (rsz.toNat + 1)).n }
  match q.ins with
  | .sld _ _ line rsz rg e pad mmas _ _ =>
      some { load := true, rows := false, pad := pad, e := e, red := none, mmas := mmas,
             ring := if rg then some line.toNat else none, st := win line rsz pad }
  | .sst _ _ line rsz rg e pad _ _ =>
      some { load := false, rows := false, pad := pad, e := e, red := none, mmas := false,
             ring := if rg then some line.toNat else none, st := win line rsz pad }
  | .sga _ _ line rsz rg e _ _ =>
      some { load := true, rows := true, pad := false, e := e, red := none, mmas := false,
             ring := if rg then some line.toNat else none,
             st := { off := line.toNat * 128, s := rsz.toNat + 1, n := (o 1).toNat } }
  | .ssc op _ _ line rsz rg e _ _ =>
      some { load := false, rows := true, pad := false, e := e, red := some op, mmas := false,
             ring := if rg then some line.toNat else none,
             st := { off := line.toNat * 128, s := rsz.toNat + 1, n := (o 1).toNat } }
  | _ => none

/-- The records an instruction still has to move, from its resume point on. -/
def QInstr.restRecs (q : QInstr) (g : Geo) : List Nat := (List.range (g.st.n - q.resume)).map (q.resume + ·)

/-- Index j of the index list of SGA or SSC. -/
def QInstr.index (q : QInstr) (srf : Tbl Line) (j : Nat) : Nat := srfNat srf ((q.ops.getD 0 0).toNat + 4 * j) 4

/-- The coordinates of element i0 of the row of an index (R221, R283). -/
def Desc.rowCoords (d : Desc) (idx i0 : Nat) : List Int :=
  (List.range 7).map (fun k => if d.ndim ≤ k then 0 else if k = 0 then d.org 0 + (i0 : Int) else if k = 1 then (idx : Int) else d.org k)

/-- The units of a row of n bytes: their addresses, none outside (R90). -/
def Desc.rowUnits (d : Desc) (idx n : Nat) : List (Option Nat) :=
  (List.range (n / fmtUnitBytes d.fmt)).map (fun i =>
    let c := d.rowCoords idx (i * fmtPerUnit d.fmt)
    if d.inside c then some (d.addr c) else none)

/-- The units of record r, in element order, from byte 0 of the record on. -/
def QInstr.recUnits (q : QInstr) (g : Geo) (srf : Tbl Line) (r : Nat) : List (Option Nat) :=
  if g.rows then q.desc.rowUnits (q.index srf r) g.recBytes
  else
    let ext := extents (q.ops.getD 0 0) (q.ops.getD 1 0)
    let w := q.desc.window ext g.pad g.st.s
    (w.unitsOfRec r).map (fun n => (w.move q.desc ext n).va)

/-! ## Delta streams (R91, R218) -/

/-- The blocks of record r of a delta stream: the address of the byte and the nibble that hold each block's delta, none for a
block outside the tensor; and whether the block lies wholly inside the window. The last block of a line, which may be shorter than 48
elements, lies inside a window that reaches the end of the line (log 51). -/
def QInstr.deltaBlocks (q : QInstr) (r : Nat) : List (Option (Nat × Bool) × Bool) :=
  let d := q.desc
  let ext := extents (q.ops.getD 0 0) (q.ops.getD 1 0)
  let e0 := ext.getD 0 1
  let w := d.window ext true 1
  let c := d.coords ext (r * w.rowUnits)
  let row := d.inside (0 :: c.drop 1)
  let nb := ceilDiv (d.size 0) 48
  let line : Int := (List.range 6).foldl (fun a i => c.getD (6 - i) 0 + a * (d.size (6 - i) : Int)) 0
  (List.range (ceilDiv e0 48)).map (fun (b : Nat) =>
    let k : Int := d.org 0 / 48 + (b : Int)
    let ok := row && decide (0 ≤ k) && decide (k < nb)
    let va := wrap 64 ((d.base : Int) + d.side + line * ((ceilDiv nb 2 : Nat) : Int) + k / 2)
    (if ok then some (va, k % 2 == 1) else none, ok && decide (min (48 * k + 48) (d.size 0 : Int) ≤ d.org 0 + (e0 : Int))))

/-- Nibbles packed two to a byte (R59). Of an odd number the last byte's upper nibble is 0: the model's choice (log 51). -/
def packNibbles : List Nat → List Byte
  | [] => []
  | [x] => [BitVec.ofNat 8 x]
  | x :: y :: r => BitVec.ofNat 8 (x + 16 * y) :: packNibbles r

/-- A nibble of a byte. -/
def nibble (b : Byte) (hi : Bool) : Nat := if hi then b.toNat / 16 else b.toNat % 16

/-- The two deltas of one byte are one store. -/
def joinNibbles : List Item → List Item
  | a :: b :: r =>
    if a.va = b.va then { va := a.va, data := (a.data.zip b.data).map (fun x => x.1 ||| x.2), mask := a.mask ||| b.mask } :: joinNibbles r
    else a :: joinNibbles (b :: r)
  | l => l

/-- The stores of the deltas of record r from its delta record. -/
def QInstr.deltaItems (q : QInstr) (r : Nat) (delta : List Byte) : List Item :=
  let bs := q.deltaBlocks r
  joinNibbles ((bs.zip (List.range bs.length)).filterMap (fun x =>
    match x.1 with
    | (some (va, hi), true) =>
        let v := nibble (delta.getD (x.2 / 2) 0) (x.2 % 2 = 1)
        some { va := va, data := [BitVec.ofNat 8 (if hi then 16 * v else v)], mask := if hi then 0xF0 else 0x0F }
    | _ => none))

/-- The stores of record r of an SST or SSC in element order. Its deltas come right after its data, and so do the records of a pod store:
the model's choice of an order (log 51). -/
def QInstr.items (q : QInstr) (g : Geo) (srf : Tbl Line) (r : Nat) (rec : List Byte) : List Item :=
  let ub := fmtUnitBytes q.desc.fmt
  let us := q.recUnits g srf r
  let data := (us.zip (List.range us.length)).filterMap (fun x =>
    x.1.map (fun va => ({ va := va, data := (rec.drop (x.2 * ub)).take ub, mask := 0xFF } : Item)))
  if !g.rows && q.desc.hasDelta then data ++ q.deltaItems r (getRec srf g.st.delta r) else data

/-! ## Reading one record of an SLD or SGA -/

/-- The bytes of record r, and its delta record where there is one. -/
def State.loadRecord (s : State) (t : Task) (q : QInstr) (g : Geo) (r : Nat) : State × Res (List Byte × List Byte) :=
  let d := q.desc
  let c := t.qctx q
  let w := t.who q
  let a := State.readUnits c w d.space q.got (fmtUnitBytes d.fmt) (fmtOutside d.fmt) (q.recUnits g t.srf r) s
  match a.2 with
  | .error e => (a.1, .error e)
  | .ok bs =>
    if !g.rows && d.hasDelta then
      let blocks := (q.deltaBlocks r).map (·.1)
      let x := State.readUnits c w d.space q.got 1 [0xFF] (blocks.map (·.map (·.1))) a.1
      (x.1, x.2.map (fun ns => (padTo g.recBytes bs,
        padTo 128 (packNibbles ((ns.zip blocks).map (fun y => nibble y.1 ((y.2.map (·.2)).getD false)))))))
    else (a.1, .ok (padTo g.recBytes bs, []))

/-- Remote bytes of records that have not come yet; none for a space other than pod. -/
def State.missingRecords (t : Task) (q : QInstr) (g : Geo) : List Nat → State → State × Res (List (Nat × Nat))
  | [], s => (s, .ok [])
  | r :: rs, s =>
    if q.desc.space = .pod then
      let delta := if !g.rows && q.desc.hasDelta then (q.deltaBlocks r).map (fun b => b.1.map (·.1)) else []
      let a := State.missingUnits (t.qctx q) q.got (fmtUnitBytes q.desc.fmt) (q.recUnits g t.srf r) s
      match a.2 with
      | .error e => (a.1, .error e)
      | .ok m1 =>
        let b := State.missingUnits (t.qctx q) q.got 1 delta a.1
        match b.2 with
        | .error e => (b.1, .error e)
        | .ok m2 =>
          let z := State.missingRecords t q g rs b.1
          (z.1, z.2.map ((m1 ++ m2) ++ ·))
    else (s, .ok [])

/-! ## Checks at start (R207) -/

/-- The FMT codes a reduction of SSC admits, and its operation (R222). -/
def sscRed (op : SscOp) (fmt : Nat) : Option RedOp :=
  match op with
  | .store => none
  | .add => if [10, 11, 12, 13].contains fmt then some .add else none
  | .fadd => if fmt = 0 then some .fadd64 else if fmt = 1 then some .fadd32 else none
  | .min => if [10, 12].contains fmt then some .min else none
  | .max => if [10, 12].contains fmt then some .max else none
  | .or => if [10, 11, 12, 13].contains fmt then some .or else none

/-- The ring that a moving instruction names is configured, its slots of the record's size (R84, R217). -/
def Task.ringOk (t : Task) (g : Geo) : Bool :=
  match g.ring with
  | none => true
  | some n => (t.ring n).cfg && (t.ring n).slotsz == g.st.s

/-- Every declared plain range lies in the footprint and outside every ring (R19, R85). -/
def Task.rangesOk (t : Task) (r : Ranges) : Bool := (r.reads ++ r.writes).all t.plainOk

/-- The rules of SGA and SSC on their index lists and shapes (R221, R222). -/
def QInstr.rowsOk (q : QInstr) (g : Geo) : Bool :=
  let d := q.desc
  let a := (q.ops.getD 0 0).toNat
  let e0 := g.recBytes / fmtUnitBytes d.fmt * fmtPerUnit d.fmt
  g.ring.isNone && !g.e && a % 4 == 0 && g.st.ok && decide (2 ≤ d.ndim) && !d.tree &&
    (fmtPerUnit d.fmt == 1 || (d.org 0 % (fmtPerUnit d.fmt : Int) == 0 && e0 % fmtPerUnit d.fmt == 0)) &&
    (match g.red with
     | some .store => true
     | some op => (sscRed op d.fmt).isSome
     | none => true)

/-- The checks of a moving instruction when it starts, before any probe pass. An SLD for an MMAS operand that breaks the rule of BAXIS and
another limit too reports FMTAXIS: the model's choice (log 51). -/
def QInstr.moveCheck (q : QInstr) (t : Task) (g : Geo) : Res Unit :=
  let d := q.desc
  let bounds := plainFault cBOUNDS
  let ext := extents (q.ops.getD 0 0) (q.ops.getD 1 0)
  if !d.valid then raise bounds
  else if g.rows then
    if !q.rowsOk g then raise bounds
    else if g.reduces && d.space != .package then raise (plainFault cSCOPE)
    else if !t.rangesOk (declared q.ins d q.ops q.blk t.srf) then raise bounds
    else if (List.range g.st.n).any (fun j => decide (d.size 1 ≤ q.index t.srf j)) then raise bounds
    else .ok ()
  else if g.mmas && d.fmt != 14 then raise bounds
  else if g.mmas && d.baxis != 0 then raise (plainFault cFMTAXIS)
  else if (g.e && g.ring.isNone) || !d.windowOk ext g.pad g.ring.isSome g.st.s then raise bounds
  else if (g.ring.isNone && !g.st.ok) || !t.ringOk g then raise bounds
  else if !t.rangesOk (declared q.ins d q.ops q.blk t.srf) then raise bounds
  else .ok ()

/-! ## The probe pass of SST and SSC (R96, R97, R131, R139) -/

/-- Does an instruction run a probe pass: a pod store, or a reduction? -/
def QInstr.probes (q : QInstr) (g : Geo) : Bool :=
  !g.load && (q.desc.space == .pod || g.reduces)

/-- Pin the page of an address unless a pin covers it. -/
def State.pinAt (s : State) (c : XCtx) (a : Access) (pins : List Pin) (va : Nat) : State × Res (List Pin) :=
  match findPin pins va with
  | some _ => (s, .ok pins)
  | none =>
    let r := s.pinPage c a va
    (r.1, r.2.map (fun p => pins ++ [p]))

/-- What a probe pass has found: pins, and (virtual, physical) addresses of every byte in element order. -/
structure Probed where
  pins : List Pin
  bytes : List (Nat × Nat)
  deriving DecidableEq, Repr

/-- Probe stores of n bytes at virtual addresses: pins, translations, and the rule of alignment or merge unit. -/
def State.probeItems (c : XCtx) (a : Access) (ok : Nat → Nat → Nat → Bool) : List Item → Probed → State → State × Res Probed
  | [], p, s => (s, .ok p)
  | x :: r, p, s =>
    let n := x.data.length
    let p1 := s.pinAt c a p.pins x.va
    match p1.2 with
    | .error e => (p1.1, .error e)
    | .ok pins1 =>
      let p2 := p1.1.pinAt c a pins1 (lastPage x.va n)
      match p2.2 with
      | .error e => (p2.1, .error e)
      | .ok pins2 =>
        let z := p2.1.xlate { c with pins := pins2 } a x.va n
        match z.2 with
        | .error e => (z.1, .error e)
        | .ok m =>
          if m.1.all (fun pte => ok pte n x.va) then
            State.probeItems c a ok r { pins := pins2, bytes := p.bytes ++ (addrs x.va n).zip m.2 } z.1
          else (z.1, raise (addrFault cBOUNDS x.va true))

/-- Apron bytes of the records of these bytes (R129). -/
def apronNeed (bs : List (Nat × Nat)) : Nat :=
  ((recRuns (bs.map (fun b => (b.1, b.2, (0 : Byte))))).map (fun r => recSize r.length)).sum

/-- The probe pass of an SST or SSC: the pins and the apron space, or the fault. One that continues from a resume point has only the rest of its
records to make (R98, R208). -/
def State.probe (s : State) (t : Task) (q : QInstr) (g : Geo) : State × Res (Probed × Nat) :=
  let its := (q.restRecs g).flatMap (fun r => q.items g t.srf r (List.replicate g.recBytes 0))
  let pod := q.desc.space == .pod
  let rule (pte n va : Nat) : Bool := if pod then mergeOk pte n va else va % n == 0
  let r := State.probeItems (t.qctx q) { space := q.desc.space, r := false, w := true, x := false } rule its { pins := [], bytes := [] } s
  match r.2 with
  | .error e => (r.1, .error e)
  | .ok p =>
    let need := if pod then apronNeed p.bytes else 0
    if 8192 < p.pins.length then (r.1, raise (plainFault cBOUNDS))
    else if !r.1.apronRoom need then
      (r.1, raise (addrFault cSTEPFULL ((p.bytes.map (·.1)).foldl Nat.min ((p.bytes.head?.map (·.1)).getD 0)) true))
    else (r.1, .ok (p, need))

/-- Pages that a task's instructions and programs pin (R97). -/
def Task.pinned (t : Task) : Nat := (t.sq.map (·.pins.length)).sum + (t.stoeks.map (·.pins.length)).sum

/-- Pages that the tasks of a logical gnoum pin (R97, R366). -/
def State.pinnedAt (s : State) (lg : Nat) : Nat := ((s.tasks.filter (fun e => e.2.lg = lg)).map (·.2.pinned)).sum

/-! ## The data phase of stores -/

/-- Apply the elements of a reducing SSC in element order (R112, R222). -/
def State.reduceItems (c : XCtx) (w : Who) (op : RedOp) : List Item → State → State
  | [], s => s
  | x :: r, s =>
    let n := x.data.length
    let z := s.xlate c { space := .package, r := false, w := true, x := false } x.va n
    match z.2 with
    | .ok m => State.reduceItems c w op r (z.1.rmwLocal (.red op) n (m.2.headD 0 % 2 ^ 40) (leNat x.data) w.unit x.va w.tag w.pc).1
    | .error _ => State.reduceItems c w op r z.1

/-- The units that a reducing SSC writes, by the pins of its probe pass. -/
def State.reduceUnits (s : State) (c : XCtx) (its : List Item) : List Nat :=
  writeUnits (State.gather c .package its s).2.1

/-- The local addresses whose snapshot pod stores of part of a byte need, where the home is here (log 22). -/
def State.podLocal (c : XCtx) : List Item → State → State × List (Nat × Nat)
  | [], s => (s, [])
  | x :: r, s =>
    if x.mask = 0xFF then State.podLocal c r s
    else
      let z := s.xlate c { space := .pod, r := false, w := true, x := false } x.va x.data.length
      let q := State.podLocal c r z.1
      match z.2 with
      | .ok m => (q.1, ((addrs x.va x.data.length).zip m.2).filter (fun a => a.2 / 2 ^ 40 = s.rank) ++ q.2)
      | .error _ => q

/-- Read the snapshot's own bytes for pod stores of part of a byte: corrected, or DATAERR (R323, R376). -/
def State.readHalves (s : State) (c : XCtx) (w : Who) (its : List Item) : State × Res Unit :=
  let h := State.podLocal c its s
  let d := h.1.readLocal (h.2.map (·.2 % 2 ^ 40))
  match d.2.2 with
  | none => (d.1, .ok ())
  | some bad =>
    let va := ((h.2.find? (fun a => a.2 % 2 ^ 40 = bad)).map (·.1)).getD 0
    (d.1.postUncorr 2 w.unit va (s.paOf (bad / 64 * 64)) (spaceCode .pod) w.tag w.pc, raise (addrFault cDATAERR va false))

/-- What a pod store of part of a byte leaves in the rest of it: the snapshot's, read here where the home is here, else as the home sent
it (log 22). -/
def State.podOld (s : State) (got : Tbl Byte) (pa : Nat) : Byte :=
  if pa / 2 ^ 40 = s.rank then rdByte s.mem (pa % 2 ^ 40) else tget 0 got pa

/-- The (virtual address, physical address, byte) triples of pod stores. -/
def State.podBytes (c : XCtx) (got : Tbl Byte) : List Item → State → State × List (Nat × Nat × Byte)
  | [], s => (s, [])
  | x :: r, s =>
    let z := s.xlate c { space := .pod, r := false, w := true, x := false } x.va x.data.length
    match z.2 with
    | .ok m =>
      let q := State.podBytes c got r z.1
      (q.1, (((addrs x.va x.data.length).zip (m.2.zip x.data)).map (fun y => (y.1, y.2.1, mergeByte x.mask (s.podOld got y.2.1) y.2.2))) ++ q.2)
    | .error _ => State.podBytes c got r z.1

/-- Bytes of the snapshot that pod stores of part of a byte need from remote homes and that have not come. -/
def State.podMissing (c : XCtx) (got : Tbl Byte) : List Item → State → State × List (Nat × Nat)
  | [], s => (s, [])
  | x :: r, s =>
    if x.mask = 0xFF then State.podMissing c got r s
    else
      let z := s.xlate c { space := .pod, r := false, w := true, x := false } x.va x.data.length
      let q := State.podMissing c got r z.1
      match z.2 with
      | .ok m => (q.1, (s.remote ((addrs x.va x.data.length).zip m.2)).filter (fun a => (tfind got a.2).isNone) ++ q.2)
      | .error _ => q

/-- Make the pending records of items (R127). -/
def State.storePod (s : State) (k : Nat) (c : XCtx) (got : Tbl Byte) (its : List Item) : State :=
  let b := State.podBytes c got its s
  b.1.makeRecs k (fun a => ((findPin c.pins a).map (·.pte.toNat)).getD 0) (recRuns b.2)

end Sys2Proof.Machine
end

