-- ==== Sys2Proof/Machine/Descend.lean ====
section
/-! DEFINITION. DESCEND: its checks, its probe pass, its levels and its result (13 R292 to R302). -/

namespace Sys2Proof.Machine

/-! ## The tree tensor (R292) -/

def Desc.esize (d : Desc) : Nat := fmtUnitBytes d.fmt
/-- W × esize. -/
def Desc.rowBytes (d : Desc) : Nat := d.size 0 * d.esize
/-- BO, the offset of the bias. -/
def Desc.biasOff (d : Desc) : Nat := 4 * ceilDiv d.rowBytes 4
def Desc.nodeSize (d : Desc) : Nat := d.biasOff + 4
def Desc.leafBytes (d : Desc) : Nat := d.rowBytes * d.size 2
def Desc.nodeVa (d : Desc) (i : Nat) : Nat := wrap 64 ((d.base : Int) + (i : Int) * d.stride 1)
def Desc.leafVa (d : Desc) (f : Nat) : Nat := wrap 64 ((d.base : Int) + d.side + (f : Int) * d.stride 2)

/-- The fields of a DESCEND with its held operands. -/
structure DescendOp where
  l0 : Nat
  l1 : Nat
  dg : Nat
  pt : Bool
  mg : Bool
  lf : Bool
  off : Nat
  b : Nat
  deriving DecidableEq, Repr

def QInstr.descendOp (q : QInstr) : Option DescendOp :=
  match q.ins with
  | .descend _ _ l0 l1 dg pt mg lf _ _ =>
      some { l0 := l0.toNat, l1 := l1.toNat, dg := dg.toNat, pt := pt, mg := mg, lf := lf,
             off := (q.ops.getD 0 0).toNat, b := (q.ops.getD 1 0).toNat }
  | _ => none

def DescendOp.block (o : DescendOp) (srf : Tbl Line) : DescentBlock := descentBlock srf o.off o.b o.l0 o.l1 o.mg o.lf

/-- The ranges that must not overlap (R297). -/
def DescendOp.spans (o : DescendOp) (k : DescentBlock) : List (Nat × Nat) :=
  [(o.off, 128), k.x.range, k.id, k.pm, k.rt] ++ (if o.mg then [k.mg] else []) ++ (if o.lf then [k.lf.range] else [])

def disjoint : List (Nat × Nat) → Bool
  | [] => true
  | a :: r => r.all (fun b => !overlap a b) && disjoint r

/-- A run: node, start position, count (R296). -/
structure TreeRun where
  node : Nat
  start : Nat
  count : Nat
  deriving DecidableEq, Repr

/-- Run j of the table at an SRF offset. -/
def readRun (srf : Tbl Line) (rt j : Nat) : TreeRun :=
  let v := srfNat srf (rt + 8 + 8 * j) 8
  { node := bits v 31 0, start := bits v 47 32, count := bits v 63 48 }

/-- The runs and the permutation that a DESCEND starts from (R297). -/
def DescendOp.input (o : DescendOp) (k : DescentBlock) (srf : Tbl Line) : List TreeRun × List Nat :=
  if o.l0 = 0 then ([{ node := 0, start := 0, count := o.b }], List.range o.b)
  else
    ((List.range (bits (srfNat srf k.rt.1 8) 15 0)).map (readRun srf k.rt.1),
     (List.range o.b).map (fun p => srfNat srf (k.pm.1 + 2 * p) 2))

/-- Are runs contiguous from a position, their nodes strictly ascending within a level, to a total? -/
def runsOk (lo hi total : Nat) : Nat → List TreeRun → Bool
  | at', [] => at' == total
  | at', r :: rs =>
    r.start == at' && decide (lo ≤ r.node) && decide (r.node ≤ hi) && runsOk (r.node + 1) hi total (at' + r.count) rs

/-- The rules for a continuation (R297). -/
def DescendOp.contOk (o : DescendOp) (k : DescentBlock) (srf : Tbl Line) : Bool :=
  o.l0 = 0 ||
    (let h := srfNat srf k.rt.1 8
     let n := bits h 15 0
     let io := o.input k srf
     bits h 23 16 == o.l0 && bits h 63 32 == o.b && decide (1 ≤ n) && decide (n ≤ o.b) &&
       runsOk (2 ^ o.l0 - 1) (2 ^ (o.l0 + 1) - 2) o.b 0 io.1 && io.2.all (fun e => decide (e < o.b)))

/-- The checks of DESCEND when it starts (R292, R296, R297). -/
def QInstr.descendCheck (q : QInstr) (t : Task) (o : DescendOp) : Res Unit :=
  let d := q.desc
  let k := o.block t.srf
  let bounds := plainFault cBOUNDS
  if !(d.valid && d.tree) then raise bounds
  else if !(d.stride 1 % 4 == 0 && decide ((d.nodeSize : Int) ≤ d.stride 1) && decide (d.size 0 ≤ 32768) &&
      (!o.lf || decide ((d.leafBytes : Int) ≤ d.stride 2))) then raise bounds
  else if !(decide (o.l0 ≤ o.l1) && decide (o.l1 < d.size 1) && (!o.lf || o.l1 + 1 == d.size 1)) then raise bounds
  else if !(decide (1 ≤ o.b) && decide (o.b ≤ 4096) && (!o.pt || decide (o.dg * 512 + o.b ≤ 4096))) then raise bounds
  else if !(o.off % 128 == 0 && t.plainOk (o.off, 128)) then raise bounds
  else if !(k.resOk && k.x.ok && (!o.lf || k.lf.ok) && decide (d.rowBytes ≤ k.x.s * 128) &&
      (!o.lf || decide (d.leafBytes ≤ k.lf.s * 128))) then raise bounds
  else if !((o.spans k).all t.plainOk && disjoint (o.spans k)) then raise bounds
  else if !o.contOk k t.srf then raise bounds
  else if d.space = .pod && !t.stepm then raise (plainFault cSCOPE)
  else .ok ()

/-! ## The probe pass with PT (R300) -/

/-- Nodes that descend from a list in n further levels, the list itself first. -/
def descendants : Nat → List Nat → List Nat
  | 0, l => l
  | n + 1, l => l ++ descendants n (l.flatMap (fun i => [2 * i + 1, 2 * i + 2]))

/-- The nodes exactly n levels below. -/
def below : Nat → List Nat → List Nat
  | 0, l => l
  | n + 1, l => below n (l.flatMap (fun i => [2 * i + 1, 2 * i + 2]))

/-- The lowest address of a byte run on each page that it touches. -/
def pageTouches (va n : Nat) : List Nat :=
  va :: ((List.range (ceilDiv n 4096)).map (fun i => (va / 4096 + i + 1) * 4096)).filterMap (fun a =>
    if a < va + n then some (a % 2 ^ 64) else none)

/-- Pin the pages of addresses; more than 8,192 is BOUNDS. -/
def State.pinAll (c : XCtx) (a : Access) : List Nat → List Pin → State → State × Res (List Pin)
  | [], pins, s => (s, .ok pins)
  | va :: r, pins, s =>
    let p := s.pinAt c a pins va
    match p.2 with
    | .error e => (p.1, .error e)
    | .ok pins1 => if 8192 < pins1.length then (p.1, raise (plainFault cBOUNDS)) else State.pinAll c a r pins1 p.1

def State.descendProbe (s : State) (t : Task) (q : QInstr) (o : DescendOp) : State × Res (List Pin) :=
  let d := q.desc
  let roots := (o.input (o.block t.srf) t.srf).1.map (·.node)
  let nodes := descendants (o.l1 - o.l0) roots
  let leaves := if o.lf then (below (o.l1 - o.l0 + 1) roots).map (· - (2 ^ d.size 1 - 1)) else []
  State.pinAll (t.qctx q) { space := d.space, r := true, w := false, x := false }
    (nodes.flatMap (fun i => pageTouches (d.nodeVa i) d.nodeSize) ++ leaves.flatMap (fun f => pageTouches (d.leafVa f) d.leafBytes)) [] s

/-! ## The levels (R298, R299) -/

/-- How a descent is held up: a fault or a stop of the model, or remote bytes still to come. -/
inductive Held where
  | stop (e : Stop)
  | need (pas : List (Nat × Nat))
  deriving DecidableEq, Repr

/-- Read n bytes at an address in units; a pod tree's remote bytes must have come. -/
def State.readTree (s : State) (t : Task) (q : QInstr) (va n ub : Nat) : State × Except Held (List Byte) :=
  let us := (List.range (n / ub)).map (fun i => some ((va + ub * i) % 2 ^ 64))
  let m := if q.desc.space = .pod then State.missingUnits (t.qctx q) q.got ub us s else (s, .ok [])
  match m.2 with
  | .error e => (m.1, .error (.stop e))
  | .ok (p :: ps) => (m.1, .error (.need (p :: ps)))
  | .ok [] =>
    let r := State.readUnits (t.qctx q) (t.who q) q.desc.space q.got ub [] us m.1
    (r.1, match r.2 with
      | .ok b => .ok b
      | .error e => .error (.stop e))

/-- What a descent has worked out: permutation and runs of the next level, (level, entry, margin), (level, entry, bit), DSCNAN. -/
structure Route where
  perm : List Nat
  runs : List TreeRun
  margins : List (Nat × Nat × Nat)
  path : List (Nat × Nat × Bool)
  nan : Bool
  deriving DecidableEq, Repr

/-- The elements of entry e of X. -/
def xElems (srf : Tbl Line) (st : Stream) (w es e : Nat) : List Nat :=
  let v := leNat (getRec srf st e)
  (List.range w).map (fun i => elem v (8 * es) i)

/-- Add a run of the next level for a list of entries. -/
def Route.addRun (r : Route) (node : Nat) (es : List Nat) : Route :=
  if es.isEmpty then r
  else { r with runs := r.runs ++ [{ node := node, start := r.perm.length, count := es.length }], perm := r.perm ++ es }

/-- One run at one level (R299). -/
def Route.visit (r : Route) (l node : Nat) (ms : List (Nat × Nat)) : Route :=
  let bs : List (Nat × Bool) := ms.map (fun (m : Nat × Nat) => (m.1, signBit m.2))
  let r1 := { r with margins := r.margins ++ ms.map (fun (m : Nat × Nat) => (l, m.1, m.2)),
                     path := r.path ++ bs.map (fun (b : Nat × Bool) => (l, b.1, b.2)),
                     nan := r.nan || ms.any (fun m => (fp32.val m.2).isNan) }
  (r1.addRun (2 * node + 1) ((bs.filter (fun (b : Nat × Bool) => !b.2)).map Prod.fst)).addRun (2 * node + 2) ((bs.filter Prod.snd).map Prod.fst)

/-- The runs of one level, in ascending order of node. -/
def State.descendRuns (t : Task) (q : QInstr) (x : Stream) (l : Nat) (perm : List Nat) :
    List TreeRun → Route → State → State × Except Held Route
  | [], r, s => (s, .ok r)
  | run :: rs, r, s =>
    let d := q.desc
    let a := s.readTree t q (d.nodeVa run.node) d.rowBytes d.esize
    match a.2 with
    | .error e => (a.1, .error e)
    | .ok wb =>
      let b := a.1.readTree t q ((d.nodeVa run.node + d.biasOff) % 2 ^ 64) 4 4
      match b.2 with
      | .error e => (b.1, .error e)
      | .ok bb =>
        let wv := leNat wb
        let row := (List.range (d.size 0)).map (fun i => elem wv (8 * d.esize) i)
        let es := (perm.drop run.start).take run.count
        let ms := es.map (fun e => (e, margin d.fmt (xElems t.srf x (d.size 0) d.esize e) row (leNat bb)))
        State.descendRuns t q x l perm rs (r.visit l run.node ms) b.1

/-- Levels in order. -/
def State.descendLevels (t : Task) (q : QInstr) (x : Stream) : List Nat → Route → State → State × Except Held Route
  | [], r, s => (s, .ok r)
  | l :: ls, r, s =>
    let z := State.descendRuns t q x l r.perm r.runs { r with perm := [], runs := [] } s
    match z.2 with
    | .error e => (z.1, .error e)
    | .ok r1 => State.descendLevels t q x ls r1 z.1

/-- The leaf blocks of the final runs. -/
def State.descendLeaves (t : Task) (q : QInstr) : List TreeRun → State → State × Except Held (List (List Byte))
  | [], s => (s, .ok [])
  | run :: rs, s =>
    let d := q.desc
    let a := s.readTree t q (d.leafVa (run.node - (2 ^ d.size 1 - 1))) d.leafBytes d.esize
    match a.2 with
    | .error e => (a.1, .error e)
    | .ok b =>
      let z := State.descendLeaves t q rs a.1
      (z.1, z.2.map (b :: ·))

/-! ## The result (R296, R299, R300) -/

/-- The bit of a path word: entry e's level l in the 8 registers (R296). -/
def pathPos (dg e l : Nat) : Nat × Nat := (dg + e / 16 / 32, 1024 * (e % 16) + 32 * (e / 16 % 32) + l)

def setDBit (t : Tbl Wide) (r i : Nat) (b : Bool) : Tbl Wide :=
  let v := tget 0 t r
  tset 0 t r (if b then v ||| (1#16384 <<< i) else v &&& ~~~(1#16384 <<< i))

/-- Write the path words (R299). -/
def DescendOp.putPath (o : DescendOp) (path : List (Nat × Nat × Bool)) (dr : Tbl Wide) : Tbl Wide :=
  if !o.pt then dr
  else
    let d0 := if o.l0 = 0 then
        (List.range o.b).foldl (fun a e => (List.range 32).foldl (fun b l =>
          let p := pathPos o.dg e l
          setDBit b p.1 p.2 false) a) dr
      else dr
    path.foldl (fun a x =>
      let p := pathPos o.dg x.2.1 x.1
      setDBit a p.1 p.2 x.2.2) d0

/-- Write every stream at once (R300). -/
def DescendOp.putStreams (o : DescendOp) (k : DescentBlock) (r : Route) (leaves : List (List Byte)) (srf : Tbl Line) : Tbl Line :=
  let ids := r.runs.flatMap (fun run => ((r.perm.drop run.start).take run.count).map (fun e => (e, run.node)))
  let m1 := ids.foldl (fun a x => srfWrite a (k.id.1 + 4 * x.1) (leBytes 4 x.2)) srf
  let m2 := (r.perm.zip (List.range r.perm.length)).foldl (fun a x => srfWrite a (k.pm.1 + 2 * x.2) (leBytes 2 x.1)) m1
  let m3 := srfWrite m2 k.rt.1 (leBytes 8 (r.runs.length + (o.l1 + 1) * 2 ^ 16 + o.b * 2 ^ 32))
  let m4 := (r.runs.zip (List.range r.runs.length)).foldl (fun a x =>
    srfWrite a (k.rt.1 + 8 + 8 * x.2) (leBytes 8 (x.1.node + x.1.start * 2 ^ 32 + x.1.count * 2 ^ 48))) m3
  let m5 := if o.mg then
      r.margins.foldl (fun a x => srfWrite a (k.mg.1 + 4 * ((x.1 - o.l0) * o.b + x.2.1)) (leBytes 4 x.2.2)) m4
    else m4
  (leaves.zip (List.range leaves.length)).foldl (fun a x => putRec a k.lf x.2 (padTo (k.lf.s * 128) x.1)) m5

/-- The whole descent: the task after it, with its status. -/
def State.descend (s : State) (t : Task) (q : QInstr) (o : DescendOp) : State × Except Held Task :=
  let k := o.block t.srf
  let io := o.input k t.srf
  let r0 : Route := { perm := io.2, runs := io.1, margins := [], path := [], nan := false }
  let z := State.descendLevels t q k.x ((List.range (o.l1 + 1 - o.l0)).map (o.l0 + ·)) r0 s
  match z.2 with
  | .error e => (z.1, .error e)
  | .ok r =>
    let y := if o.lf then State.descendLeaves t q r.runs z.1 else (z.1, .ok [])
    match y.2 with
    | .error e => (y.1, .error e)
    | .ok leaves =>
      let t0 := { t with srf := o.putStreams k r leaves t.srf, dregs := o.putPath r.path t.dregs }
      let t1 := (List.range leaves.length).foldl (fun a j => a.healRec k.lf j) ((((t0.heal k.id.1 (4 * o.b)).heal k.pm.1 (2 * o.b)).heal k.rt.1 (8 + 8 * r.runs.length)).heal k.mg.1 (if o.mg then 4 * o.b * (o.l1 + 1 - o.l0) else 0))
      (y.1, .ok (t1.completeQ q.tag { StatusFields.ended q.tag 0 r.runs.length with dscnan := r.nan } 0 0 false))

end Sys2Proof.Machine
end

