-- ==== Sys2Proof/Machine/StreamReads.lean ====
section
/-! DEFINITION. What a queued stream instruction reads of its task's own state at each of its three moments: as it starts, as it moves one
ring slot, and as it performs what is left (03 R75, R81, R93; 17 R323; 20 R376). A kernel reads in its bundles, a Stoek program in its
operations. -/

namespace Sys2Proof.Machine

/-! ## Lines of records -/

/-- The lines of record r that hold a unit which an SST or SSC stores; `line j` is where line j of the record lies. Positions of missing
records are not read (R75), and units outside the tensor are skipped (R220). -/
def QInstr.dataLines (q : QInstr) (g : Geo) (srf : Tbl Line) (r : Nat) (line : Nat → Nat) : List (Nat × Nat) :=
  let us := q.recUnits g srf r
  (us.zip (List.range us.length)).filterMap (fun x => x.1.map (fun _ => (line (x.2 * fmtUnitBytes q.desc.fmt / 128), 128)))

/-- The line of the delta stream that record r's stored deltas come from. -/
def QInstr.deltaLines (q : QInstr) (g : Geo) (r : Nat) : List (Nat × Nat) :=
  if !g.rows && q.desc.hasDelta && (q.deltaBlocks r).any (fun b => b.1.isSome && b.2) then [(g.st.delta.at r 0, 128)] else []

/-- The index list of SGA and SSC. -/
def QInstr.indexList (q : QInstr) (g : Geo) : List (Nat × Nat) := if g.rows then [((q.ops.getD 0 0).toNat, 4 * g.st.n)] else []

/-- What a plain SST or SSC reads from its resume point on. -/
def QInstr.storeLines (q : QInstr) (g : Geo) (srf : Tbl Line) : List (Nat × Nat) :=
  (q.restRecs g).flatMap (fun r => q.dataLines g srf r (g.st.at r) ++ q.deltaLines g r)

/-- What the descent of a continuation takes up: its run table and its permutation (R297); with l0 = 0 neither is read. -/
def DescendOp.contLines (o : DescendOp) (k : DescentBlock) (srf : Tbl Line) : List (Nat × Nat) :=
  if o.l0 = 0 then [] else [(k.pm.1, 2 * o.b), (k.rt.1, 8 + 8 * min o.b (bits (srfNat srf k.rt.1 8) 15 0))]

/-- The lines of X: the bytes of every entry's row. -/
def DescendOp.xLines (o : DescendOp) (k : DescentBlock) (d : Desc) : List (Nat × Nat) :=
  (List.range o.b).flatMap (fun e => (List.range (ceilDiv d.rowBytes 128)).map (fun j => (k.x.at e j, 128)))

/-! ## The three moments -/

/-- What an instruction reads as it starts, its descriptor being d: the entry, which is then its own copy (R93), the rings it moves, and what
of the SRF its checks look at. TDSET reads no entry; TDSET, SGA, SSC and DESCEND read only what lies where it may. -/
def QInstr.startReads (q : QInstr) (t : Task) (d : Desc) : OwnReads :=
  let n := { OwnReads.none with descs := (tdOf q.ins).toList }
  let q1 := { q with desc := d }
  let r := declared q.ins d q.ops q.blk t.srf
  match q.ins with
  | .tdset _ _ line => { OwnReads.none with srf := if t.plainOk (line.toNat * 128, 64) then [(line.toNat * 128, 64)] else [] }
  | .tdmov .. => n
  | .nbmv .. => n
  | .descend .. =>
    match q1.descendOp with
    | none => n
    | some o =>
      let k := o.block t.srf
      if !t.plainOk (o.off, 128) then n
      else { n with srf := (o.off, 128) :: (if (o.spans k).all t.plainOk then o.contLines k t.srf else []) }
  | .scpy .. => { OwnReads.none with rings := r.cons ++ r.prod }
  | _ =>
    match q1.geo with
    | none => OwnReads.none
    | some g =>
      let lists := d.valid && q1.rowsOk g && !(g.reduces && d.space != .package) && t.rangesOk r
      { n with rings := r.cons ++ r.prod, srf := if lists then q1.indexList g else [] }

/-- What a running instruction reads as it moves a ring slot: the rings' state, and the slot once it is there and is one to be moved. An
end-of-stream slot's bytes are not read, and SCPY.DROP reads none. -/
def QInstr.slotReads (q : QInstr) (t : Task) : OwnReads :=
  if q.ended then OwnReads.none
  else
    match q.ins with
    | .scpy _ e drop la lb rga rgb _ =>
        let ra := t.ring la.toNat
        let rb := t.ring lb.toNat
        let unit := (if rga then ra.slotsz else rb.slotsz) * 128
        let moves := (rga || rgb) && !q.begun && !drop && (!rga || (ra.filled != 0 && !(e && ra.eosAt 0))) && (!rgb || rb.free != 0)
        { OwnReads.none with
          rings := (if rga && !q.begun then [la.toNat] else []) ++ (if rgb then [lb.toNat] else []),
          srf := if moves then [(if rga then ra.slot ra.head else la.toNat * 128 + q.resume * unit, unit)] else [] }
    | _ =>
      match q.geo with
      | none => OwnReads.none
      | some g =>
        match g.ring with
        | none => OwnReads.none
        | some n =>
          let r := t.ring n
          let moves := !g.load && t.storeTurn q.tag (q.desc.space == .host) && r.filled != 0 && !(g.e && r.eosAt 0) && decide (q.resume < g.st.n)
          { OwnReads.none with
            rings := [n], srf := if moves then q.dataLines g t.srf q.resume (fun j => r.slot r.head + 128 * j) else [] }

/-- What a running instruction reads as it performs what is left and completes. -/
def QInstr.endReads (q : QInstr) (t : Task) : OwnReads :=
  let lines (l : List (Nat × Nat)) : OwnReads := { OwnReads.none with srf := l }
  if q.ended then OwnReads.none
  else
    match q.ins with
    | .tdset _ _ line => lines [(line.toNat * 128, 64)]
    | .scpy _ _ drop la _ rga rgb _ => lines (if rga || rgb || drop then [] else [(la.toNat * 128, (q.ops.getD 0 0).toNat)])
    | .nbmv _ _ y acc _ _ => lines (if acc && t.loadBegun q.tag then [(y.toNat * 128, 4 * (q.ops.getD 1 0).toNat)] else [])
    | .descend .. =>
      match q.descendOp with
      | none => OwnReads.none
      | some o =>
        let k := o.block t.srf
        lines (if t.loadBegun q.tag then o.xLines k q.desc ++ o.contLines k t.srf else [])
    | _ =>
      match q.geo with
      | none => OwnReads.none
      | some g =>
        if g.ring.isSome then OwnReads.none
        else if g.load then lines (if t.loadBegun q.tag then q.indexList g else [])
        else lines (if t.storeTurn q.tag (q.desc.space == .host) then q.indexList g ++ q.storeLines g t.srf else [])

end Sys2Proof.Machine
end

