-- ==== Sys2Proof/Machine/StreamEngine.lean ====
section
/-! DEFINITION. The scoreboard and the stream engine: STREAM_START, RING_WAIT_SATISFIED and STREAM_COMPLETE (01 R21 to R25; 03 R80
to R85, R93, R94; 09 R207 to R229; 13 R302). -/

namespace Sys2Proof.Machine

/-! ## Leaving the queue (R23, R24, R80, R84, R93, R94, R134, R208, R302) -/

def isKrun : Instr → Bool
  | .krun .. => true
  | _ => false

def isDescend : Instr → Bool
  | .descend .. => true
  | _ => false

def isStkrun : Instr → Bool
  | .stkrun .. => true
  | .stkrunNoring .. => true
  | _ => false

/-- Does an instruction set some descriptor? -/
def setsSomeDesc : Instr → Bool
  | .tdset .. => true
  | .tdmov .. => true
  | _ => false

/-- The rings an instruction uses in either role. -/
def Ranges.uses (r : Ranges) (n : Nat) : Bool := r.cons.contains n || r.prod.contains n

/-- A hazard of a younger instruction with an older one (R94), or the same role on one ring (R84). -/
def Ranges.hazard (young old : Ranges) : Bool :=
  young.reads.any (fun a => old.writes.any (overlap a)) || young.writes.any (fun a => old.reads.any (overlap a)) ||
    young.writes.any (fun a => old.writes.any (overlap a)) || young.cons.any old.cons.contains || young.prod.any old.prod.contains

/-- BASE, SLOTSZ and NSLOT that an RINGI gives (R214). -/
def QInstr.ringiArgs (q : QInstr) : Option (Nat × Nat × Nat × Nat) :=
  match q.ins with
  | .ringi _ n _ nslot slot1 => some (n.toNat, (q.ops.getD 0 0).toNat, slot1.toNat + 1, nslot.toNat)
  | _ => none

/-- An older RINGI that an instruction waits for: of a ring it uses, or whose ring, as it is or will be, its plain ranges touch
(R80, R85, log 23). -/
def Task.behindRingi (t : Task) (old : QInstr) (r : Ranges) : Bool :=
  match old.ringiArgs with
  | none => false
  | some (n, base, lines, slots) =>
    r.uses n || (r.reads ++ r.writes).any (fun iv =>
      overlap iv (base, slots * lines * 128) || ((t.ring n).cfg && overlap iv (t.ring n).range))

/-- Must an instruction wait for this older unfinished one, whose ranges are known? -/
def Task.waitsFor (t : Task) (q : QInstr) (r : Ranges) (old : QInstr) (o : Ranges) : Bool :=
  r.hazard o || t.behindRingi old r ||
  (match q.ringiArgs with
   | some (n, _, _, _) => o.uses n || ringiOf old.ins == some n
   | none => false) ||
  (match tdOf q.ins with
   | some td => if setsSomeDesc q.ins then tdOf old.ins == some td else setsDesc td old.ins
   | none => isStkrun q.ins && setsSomeDesc old.ins) ||
  ((isKrun q.ins || isDescend q.ins) && (isKrun old.ins || isDescend old.ins))

/-- Is an instruction a pod load: its load entry would bind the snapshot (R125, R134)? -/
def Task.podLoad (t : Task) (i : Instr) : Bool :=
  match i with
  | .sld _ td _ _ _ _ _ _ _ _ => (tget Desc.invalid t.descs td.toNat).space == .pod
  | .sga _ td _ _ _ _ _ _ => (tget Desc.invalid t.descs td.toNat).space == .pod
  | .descend _ td _ _ _ _ _ _ _ _ => (tget Desc.invalid t.descs td.toNat).space == .pod
  | _ => false

/-- May a queued instruction leave the queue now? -/
def State.mayLeave (s : State) (t : Task) (q : QInstr) : Bool :=
  let older := t.olderRanges q.po
  !q.started && !older.any (fun p => p.1.fault.isSome) && decide ((t.sq.filter (·.started)).length < 32) &&
  (match t.ranges.find? (fun p => p.1.tag = q.tag) with
   | some (_, some r) => older.all (fun p => match p.2 with
       | some o => !t.waitsFor q r p.1 o
       | none => false)
   | _ => false) &&
  !t.doubled && !(t.arrived && t.podLoad q.ins) && !(isKrun q.ins && s.ksload.isSome) &&
  (match t.run with
   | .placed _ => true
   | .draining _ _ _ => !(isKrun q.ins || isDescend q.ins)
   | _ => false)

/-- The instruction has left the queue: STARTED is set (R210). -/
def Task.leave (t : Task) (q : QInstr) : Task :=
  let u := t.putQ { q with started := true }
  let w : StatusFields := { StatusFields.ended q.tag 0 q.count with done := false }
  let ti : TagInfo := { status := w.word, dpc := 0, dva := 0, dvav := false }
  if t.nextTag ≤ q.tag + 64 then { u with tags := tset TagInfo.fresh u.tags (q.tag % 64) ti } else u

/-! ## Starting (R207) -/

/-- The load entry of an instruction enters as it starts; one that was saved keeps the place of its first (R101, R118). -/
def Task.enterLoad (t : Task) (q : QInstr) : Task :=
  if hasLoadEntry q.ins && !q.entered then
    { t with hart := { t.hart with loads := t.hart.loads ++
        [{ po := q.po, kind := .stream q.tag, acq := false, rel := false, begun := false }] } }
  else t

/-- The instruction's checks have passed: it runs. -/
def Task.startQ (t : Task) (q : QInstr) (d : Desc) (pins : List Pin) (resv : Nat) : Task :=
  (t.putQ { q with running := true, entered := true, desc := d, pins := pins, resv := resv }).enterLoad q

/-- A stream fault, or a stop of the model. -/
def State.qStop (s : State) (k : Nat) (tag : Nat) (e : Stop) : Out :=
  match e with
  | .halt r => .fault r
  | .trap f =>
    match s.task? k with
    | none => .next s
    | some t => .next (s.putTask k (t.faultQ tag f))

/-- Run on after checks that touch no memory. -/
def State.startPlain (s : State) (k : Nat) (t : Task) (q : QInstr) (d : Desc) (c : Res Unit) : Out :=
  match c with
  | .error e => s.qStop k q.tag e
  | .ok _ => .next (s.putTask k (t.startQ q d [] 0))

/-- The descriptor that TDSET or TDMOV leaves, or BOUNDS (R88, R211, R212). -/
def QInstr.newDesc (q : QInstr) (t : Task) : Res (Nat × Desc) :=
  match tdOf q.ins with
  | some td => (q.newDescFrom t (tget Desc.invalid t.descs td)).map (fun d => (td, d))
  | none => raise (plainFault cBOUNDS)

/-- The ring that RINGI leaves, or BOUNDS (R80, R214). -/
def QInstr.newRing (q : QInstr) (t : Task) : Res (Nat × Ring) :=
  let bounds := plainFault cBOUNDS
  match q.ringiArgs with
  | none => raise bounds
  | some (n, base, lines, slots) =>
    if slots = 0 then .ok (n, Ring.none)
    else if 256 < slots || base % 128 ≠ 0 || decide (2 ^ 22 ≤ base) then raise bounds
    else
      let iv := (base, slots * lines * 128)
      if decide (t.srfSize < iv.1 + iv.2) || t.rings.any (fun e => e.1 != n && e.2.cfg && overlap iv e.2.range) then raise bounds
      else .ok (n, { Ring.none with cfg := true, base := base, slotsz := lines, nslot := slots, free := slots })

/-- The checks of SCPY (R223). -/
def QInstr.scpyCheck (q : QInstr) (t : Task) : Res Unit :=
  match q.ins with
  | .scpy _ e drop la lb rga rgb _ =>
      let n := (q.ops.getD 0 0).toNat
      let ra := t.ring la.toNat
      let rb := t.ring lb.toNat
      let unit (r : Ring) : Nat := r.slotsz * 128
      let ok :=
        (!e || rga) && (!drop || (lb == 0 && !rgb)) && n % 128 == 0 && decide (n ≤ 2 ^ 22) &&
        (n != 0 || (e && (rgb || drop))) &&
        (!rga || (ra.cfg && n % unit ra == 0)) && (!rgb || (rb.cfg && n % unit rb == 0)) &&
        (!(rga && rgb) || ra.slotsz == rb.slotsz) &&
        (rga || t.plainOk (la.toNat * 128, n)) && (rgb || drop || t.plainOk (lb.toNat * 128, n)) &&
        (rga || rgb || drop || !overlap (la.toNat * 128, n) (lb.toNat * 128, n))
      if ok then .ok () else raise (plainFault cBOUNDS)
  | _ => .ok ()

/-- The checks of a KRUN's binding block when it starts (R224). -/
def QInstr.krunCheck (q : QInstr) (t : Task) : Res Unit :=
  let used := (blockBindings q.blk).filter (fun b => b.kind ≠ 0)
  if blockReservedOk q.blk && blockCons q.blk &&& blockProd q.blk == 0 && used.all (fun b => b.stream.ok && t.plainOk b.stream.range) then .ok ()
  else raise (plainFault cBOUNDS)

/-- The kernel-array state at the first bundle (R25, R224). -/
def QInstr.newKernel (q : QInstr) : Option Kernel :=
  match q.ins with
  | .krun _ ke _ _ t5 _ =>
      some { tag := q.tag, pc := ke.toNat, t5trap := t5, count := 0, binds := blockBindings q.blk, cons := blockCons q.blk,
             prod := blockProd q.blk, k := (q.ops.zip (List.range 8)).foldl (fun a x => tset 0 a x.2 x.1) [], q := [], v := [], p := [],
             m := [], bench := [], loops := [], flags := Flags.clear, g := [], seen := [], inflight := [], occV0 := 0, occV1 := 0,
             occM := 0, loopWait := none, entry := [], vbad := [], mbad := [], bbad := [] }
  | _ => none

/-- The checks of NBMV (R227). -/
def QInstr.nbmvCheck (q : QInstr) (t : Task) (d : Desc) : Res Unit :=
  match q.ins with
  | .nbmv _ _ y _ _ _ =>
      let r := (q.ops.getD 1 0).toNat
      if d.valid && d.fmt == 6 && d.space == .package && d.ndim == 2 && !d.tree && d.org 0 == 0 && d.base % 256 == 0 &&
          d.stride 1 % 256 == 0 && decide (1 ≤ r) && decide (r ≤ 65536) && t.plainOk (y.toNat * 128, 4 * r) then .ok ()
      else raise (plainFault cBOUNDS)
  | _ => .ok ()

/-- A fault of a probe pass. It is not taken while a MARK older than the instruction holds: what relies on the stores before the MARK
translates after them (R363). -/
def State.probeStop (s s1 : State) (k : Nat) (t : Task) (q : QInstr) (e : Stop) : Out :=
  if t.hart.heldAt t.streamPos q.po then .next s else s1.qStop k q.tag e

/-- Wait for pins to be released where these would be more than 8,192 (R97); else start with them. -/
def State.startPinned (s s1 : State) (k : Nat) (t : Task) (q : QInstr) (d : Desc) (pins : List Pin) (resv : Nat) : Out :=
  if 8192 < s.pinnedAt t.lg + pins.length then .next s else .next (s1.putTask k (t.startQ q d pins resv))

/-- SLD, SST, SGA and SSC start. -/
def State.startMove (s : State) (k : Nat) (t : Task) (q : QInstr) (d : Desc) : Out :=
  let q1 := { q with desc := d }
  match q1.geo with
  | none => .next s
  | some g =>
    match q1.moveCheck t g with
    | .error e => s.qStop k q.tag e
    | .ok _ =>
      if q1.probes g then
        let p := s.probe t q1 g
        match p.2 with
        | .error e => s.probeStop p.1 k t q e
        | .ok x => s.startPinned p.1 k t q d x.1.pins x.2
      else .next (s.putTask k (t.startQ q d [] 0))

/-- DESCEND starts. -/
def State.startDescend (s : State) (k : Nat) (t : Task) (q : QInstr) (d : Desc) : Out :=
  let q1 := { q with desc := d }
  match q1.descendOp with
  | none => .next s
  | some o =>
    match q1.descendCheck t o with
    | .error e => s.qStop k q.tag e
    | .ok _ =>
      if o.pt then
        let p := s.descendProbe t q1 o
        match p.2 with
        | .error e => s.probeStop p.1 k t q e
        | .ok pins => s.startPinned p.1 k t q d pins 0
      else .next (s.putTask k (t.startQ q d [] 0))

/-! ## STKRUN (R229, R274 to R276, R278) -/

/-- Programs that hold a Stoek core. -/
def State.coresUsed (s : State) : Nat := (s.tasks.map (fun e => (e.2.stoeks.filter (·.core)).length)).sum

/-- Does an STKRUN that has left the queue lack a core? -/
def Task.wantsCore (t : Task) (q : QInstr) : Bool :=
  isStkrun q.ins && q.started && (match t.stoek? q.tag with
    | some p => p.live && !p.core
    | none => !q.running && decide (t.stoeks.length < 4))

/-- When the STKRUNs that want a core asked for it, of tasks that are placed. -/
def State.asking (s : State) : List Nat :=
  s.tasks.flatMap (fun e => if e.2.seated then (e.2.sq.filter e.2.wantsCore).map (·.asked) else [])

/-- Is a core granted to this request now: a core is free and no older request waits (R229)? -/
def State.granted (s : State) (t : Task) (q : QInstr) : Bool :=
  t.wantsCore q && decide (s.coresUsed < 96) && s.asking.all (fun a => decide (q.asked ≤ a))

/-- A program that lost its core in a save receives one again (R275, R337). -/
def State.regrant (s : State) (k : Nat) (t : Task) (q : QInstr) : State :=
  match t.stoek? q.tag with
  | some p => if t.seated && s.granted t q then s.putTask k (t.putStoek { p with core := true }) else s
  | none => s

/-- The ring of an STKRUN, with RE. -/
def stkrunRing : Instr → Option Nat
  | .stkrun _ n _ _ => some n.toNat
  | _ => none

/-- The registers at the start of a program (R229). -/
def startHart (t : Task) (q : QInstr) : Hart :=
  (((({ Hart.empty with pc := q.ops.getD 0 0 }).setX 10 (q.ops.getD 1 0)).setX 11 (BitVec.ofNat 64 t.lg)).setX 12
    (BitVec.ofNat 64 (q.tag % 64)))

/-- The descriptors a program sees: those of its place in program order (R278). -/
def QInstr.seenDescs (q : QInstr) (t : Task) : Tbl Desc := q.descs.foldl (fun a e => tset Desc.invalid a e.1 e.2) t.descs

/-- STKRUN starts once it is granted a core. A fault of its start check, or an uncorrectable error in its ring's state, completes it with the
code; no instruction of its program has faulted then, and DPC holds the address of the STKRUN itself: the model's choice (log 56). -/
def State.startStkrun (s : State) (k : Nat) (t : Task) (q : QInstr) : Out :=
  if !s.granted t q then .next s
  else
    let pc := q.ops.getD 0 0
    let own := { OwnReads.none with rings := (stkrunRing q.ins).toList }
    let ringOk := match stkrunRing q.ins with
      | some n => (t.ring n).cfg && decide ((t.ring n).slotsz ≤ 64)
      | none => true
    let stop (s : State) (code : Nat) : Out := .next (s.putTask k (t.completeQ q.tag (StatusFields.ended q.tag code 0) q.pc 0 false))
    if own.bad t then stop (s.postOnChip 2 t.lg (q.tag % 64) q.pc.toNat) cDATAERR
    else if pc.toNat % 4 ≠ 0 || !ringOk then stop s cBOUNDS
    else
      let s := s.correctOwn k t own
      let t := (own.correct t).2
      let p : Stoek := { tag := q.tag, core := true, ring := stkrunRing q.ins, hart := startHart t q, ix := [], ixn := 0, map := [], tile := [],
                         delivery := [], pins := [], triples := [], published := 0, descs := q.seenDescs t, modeS := q.modeS,
                         ending := .running }
      let u := t.startQ q Desc.invalid [] 0
      .next (s.putTask k { u with stoeks := u.stoeks ++ [p] })

/-- The descriptor that an instruction finds when it starts. -/
def QInstr.entry (q : QInstr) (t : Task) : Desc :=
  match tdOf q.ins with
  | some td => tget Desc.invalid t.descs td
  | none => Desc.invalid

/-- The checks of an instruction that has left the queue, and its start. -/
def State.tryRun (s : State) (k : Nat) (t : Task) (q : QInstr) : Out :=
  let d := q.entry t
  match q.ins with
  | .tdset .. => s.startPlain k t q d ((q.newDesc t).map (fun _ => ()))
  | .tdmov .. => s.startPlain k t q d ((q.newDesc t).map (fun _ => ()))
  | .ringi .. => s.startPlain k t q d ((q.newRing t).map (fun _ => ()))
  | .sld .. => s.startMove k t q d
  | .sst .. => s.startMove k t q d
  | .sga .. => s.startMove k t q d
  | .ssc .. => s.startMove k t q d
  | .scpy .. => s.startPlain k t q d (q.scpyCheck t)
  | .krun .. =>
      match q.krunCheck t with
      | .error e => s.qStop k q.tag e
      | .ok _ => .next (s.putTask k { t.startQ q d [] 0 with kern := q.newKernel })
  | .nbmv .. => s.startPlain k t q d (q.nbmvCheck t d)
  | .descend .. => s.startDescend k t q d
  | .stkrun .. => s.startStkrun k t q
  | .stkrunNoring .. => s.startStkrun k t q
  | _ => .next s

/-- Give the moment of a request (R229). -/
def State.stamp (s : State) : Nat × State := (s.disp.readySeq, { s with disp := { s.disp with readySeq := s.disp.readySeq + 1 } })

/-! ## The load entry begins to bind (R102, R385) -/

/-- Is a transaction of a stream instruction outstanding? -/
def State.asked (s : State) (k tag : Nat) : Bool := s.fab.txns.any (fun x => x.owner == .stream k tag)

/-- Ask remote homes for what a pod SLD or SGA lacks. -/
def State.askRemote (s : State) (k : Nat) (t : Task) (q : QInstr) : State :=
  if q.desc.space ≠ .pod || s.asked k q.tag then s
  else
    match q.geo with
    | none => s
    | some g =>
      if !g.load then s
      else
        let m := State.missingRecords t q g (q.restRecs g) s
        match m.2 with
        | .ok pas => m.1.requestBytes (.stream k q.tag) pas
        | .error _ => s

/-- The load entry of a running instruction begins to bind once its turn has come and nothing holds it back. -/
def State.beginLoad (s : State) (k : Nat) (t : Task) (q : QInstr) : Out :=
  if t.hart.streamLoadTurn q.tag && t.hart.mayGo t.streamPos q.po false .h then
    let ls := t.hart.loads.map (fun e => if e.isStream q.tag then { e with begun := true } else e)
    let t1 := { t with hart := { t.hart with loads := ls } }
    .next ((s.putTask k t1).askRemote k t1 q)
  else .next s

/-- The bytes that a pod SST has taken from its ring since it last made records, put in element order into items. -/
def QInstr.gotItems (q : QInstr) (g : Geo) (srf : Tbl Line) : List Item :=
  ((List.range q.resume).filter (fun r => (tfind q.got (r * g.recBytes)).isSome)).flatMap (fun r =>
    q.items g srf r ((List.range g.recBytes).map (fun i => tget 0 q.got (r * g.recBytes + i))))

/-- Records of what a pod SST took from its ring. -/
def State.flushPod (s : State) (k : Nat) (t : Task) (q : QInstr) (g : Geo) : State :=
  if q.desc.space = .pod then s.storePod k (t.qctx q) [] (q.gotItems g t.srf) else s

/-- What a faulting instruction leaves behind of its partial effect: the records of the slots that a pod SST has released (R97, R98). -/
def State.flushTaken (s : State) (k : Nat) (t : Task) (q : QInstr) : State :=
  match q.geo with
  | some g => if q.running && !g.load && g.ring.isSome then s.flushPod k t q g else s
  | none => s

/-- An instruction reads of its task's own state: an uncorrectable error there is a stream fault DATAERR, a correctable one is corrected
(R322, R323). -/
def State.reading (s : State) (k : Nat) (t : Task) (q : QInstr) (n : OwnReads) (f : State → Task → Out) : Out :=
  if n.bad t then ((s.flushTaken k t q).postOnChip 2 t.lg (q.tag % 64) q.pc.toNat).qStop k q.tag (.trap (plainFault cDATAERR))
  else f (s.correctOwn k t n) (n.correct t).2

/-- STREAM_START: a queued instruction leaves the queue and starts (R23); one that waits for a core or for pins starts (R97, R229),
unless an older one has faulted (R208, R319); the load entry of a running one begins to bind; a program that was saved takes a core. -/
def execStreamStart (k tag : Nat) (s : State) : Out :=
  match s.task? k with
  | none => .next s
  | some t =>
    match t.queued? tag with
    | none => .next s
    | some q =>
      if q.fault.isSome || !t.onChip then .next s
      else if q.running then
        if isStkrun q.ins && t.wantsCore q then .next (s.regrant k t q)
        else if hasLoadEntry q.ins then s.beginLoad k t q else .next s
      else if q.started then
        if t.seated && !(olderThan q.po t.sq).any (·.fault.isSome) then s.reading k t q (q.startReads t (q.entry t)) (fun s1 t1 => s1.tryRun k t1 q) else .next s
      else if s.mayLeave t q then
        let m := s.stamp
        let q1 := { q with started := true, asked := m.1 }
        let t1 := t.leave q1
        (m.2.putTask k t1).reading k t1 q1 (q1.startReads t1 (q1.entry t1)) (fun s1 t2 => s1.tryRun k t2 q1)
      else .next s

/-! ## Moving ring slots: RING_WAIT_SATISFIED (R81, R82, R219, R220, R223) -/

/-- A stream fault in the data phase; the task is as the caller left it. -/
def State.dataStop (s : State) (k : Nat) (t : Task) (tag : Nat) (e : Stop) : Out := (s.putTask k t).qStop k tag e

/-- The load entry of an instruction has bound every element: it has completed (R100). -/
def Task.boundAll (t : Task) (tag : Nat) : Task :=
  let h := { t.hart with loads := dropStreamLoad tag t.hart.loads }
  { t with hart := h.prune t.streamPos }

/-- One slot of an SLD to a ring. Its load entry completes with the last record, before the end-of-stream slot. -/
def State.sldSlot (s : State) (k : Nat) (t : Task) (q : QInstr) (g : Geo) (n : Nat) : Out :=
  let r := t.ring n
  if r.free = 0 || q.ended then .next s
  else if q.resume < g.st.n then
    if !t.loadBegun q.tag then .next s
    else
      let m := State.missingRecords t q g [q.resume] s
      match m.2 with
      | .error e => m.1.qStop k q.tag e
      | .ok (_ :: _) => .next (s.askRemote k t q)
      | .ok [] =>
        let b := m.1.loadRecord t q g q.resume
        match b.2 with
        | .error e => b.1.qStop k q.tag e
        | .ok x =>
          let last := q.resume + 1 = g.st.n
          let t1 := ({ t with srf := srfWrite t.srf (r.slot r.tail) x.1 }).heal (r.slot r.tail) g.recBytes
          let t2 := if last then t1.boundAll q.tag else t1
          let q1 := { q with resume := q.resume + 1, count := q.count + 1, ended := last && !g.e }
          .next (b.1.putTask k ((t2.setRing n (r.publish 1 false)).putQ q1))
  else .next (s.putTask k ((t.setRing n (r.publish 1 true)).putQ { q with resume := q.resume + 1, count := q.count + 1, ended := true }))

/-- Every element of a store to host memory has performed at scope k; at h it performs when the host acknowledges it (R100). -/
def Task.atK (t : Task) (tag : Nat) : Task :=
  { t with hart := { t.hart with stores := t.hart.stores.map (fun e => if e.isStream tag then { e with begun := true, atK := true } else e) } }

/-- What has ended of an SST or SSC to host memory is at scope k. -/
def QInstr.settle (q : QInstr) (t : Task) : Task := if q.ended && q.desc.space == .host then t.atK q.tag else t

/-- Is a store entry of an instruction still in the queue? -/
def Task.storePending (t : Task) (tag : Nat) : Bool := t.hart.stores.any (fun e => e.isStream tag)

/-- One slot of an SST from a ring. -/
def State.sstSlot (s : State) (k : Nat) (t0 : Task) (q : QInstr) (g : Geo) (n : Nat) : Out :=
  let r := t0.ring n
  if q.ended || !t0.storeTurn q.tag (q.desc.space == .host) || r.filled = 0 then .next s
  else if g.e && r.eosAt 0 then
    let q1 := { q with count := q.count + 1, ended := true }
    .next (s.putTask k (q1.settle ((t0.setRing n (r.release 1)).putQ q1)))
  else if g.st.n ≤ q.resume then (s.flushPod k t0 q g).qStop k q.tag (.trap (plainFault cBOUNDS))
  else
      let t := t0.beginStore q.tag
      let rec' := srfBytes t.srf (r.slot r.head) g.recBytes
      let q1 := { q with resume := q.resume + 1, count := q.count + 1, ended := q.resume + 1 = g.st.n && !g.e }
      if q.desc.space = .pod then
        let got := (rec'.zip (List.range rec'.length)).foldl (fun a x => tput a (q.resume * g.recBytes + x.2) x.1) q.got
        .next (s.putTask k ((t.setRing n (r.release 1)).putQ { q1 with got := got }))
      else
        let z := State.gather (t.qctx q) q.desc.space (q.items g t.srf q.resume rec') s
        if q.desc.space = .package && !z.1.canAccept (writeUnits z.2.1) then .next s
        else
          let s1 := z.1.storeWrites (t.who q) q.desc.space z.2.1
          match z.2.2 with
          | some e => s1.dataStop k (if z.2.1.isEmpty then t0 else t) q.tag e
          | none => .next (s1.putTask k (q1.settle ((t.setRing n (r.release 1)).putQ q1)))

/-- One slot of an SCPY (R223): `begun` while its end-of-stream slot is still to be published. -/
def State.scpySlot (s : State) (k : Nat) (t : Task) (q : QInstr) : Out :=
  match q.ins with
  | .scpy _ e drop la lb rga rgb _ =>
      let n := (q.ops.getD 0 0).toNat
      let ra := t.ring la.toNat
      let rb := t.ring lb.toNat
      let unit := (if rga then ra.slotsz else rb.slotsz) * 128
      if q.ended || !(rga || rgb) then .next s
      else if q.begun then
        if rb.free = 0 then .next s
        else .next (s.putTask k ((t.setRing lb.toNat (rb.publish 1 true)).putQ { q with begun := false, ended := true }))
      else if rga && ra.filled = 0 then .next s
      else if e && ra.eosAt 0 then
        .next (s.putTask k ((t.setRing la.toNat (ra.release 1)).putQ { q with count := q.count + 1, begun := rgb, ended := !rgb }))
      else if rgb && rb.free = 0 then .next s
      else
        let data := srfBytes t.srf (if rga then ra.slot ra.head else la.toNat * 128 + q.resume * unit) unit
        let srf := if rgb then srfWrite t.srf (rb.slot rb.tail) data
          else if drop then t.srf else srfWrite t.srf (lb.toNat * 128 + q.resume * unit) data
        let w := if rgb then rb.slot rb.tail else lb.toNat * 128 + q.resume * unit
        let t0 := if drop then t else ({ t with srf := srf }).heal w unit
        let t1 := if rgb then t0.setRing lb.toNat (rb.publish 1 false) else t0
        let t2 := if rga then t1.setRing la.toNat ((t1.ring la.toNat).release 1) else t1
        let step := if rga then 1 else unit / 128
        .next (s.putTask k (t2.putQ { q with resume := q.resume + 1, count := q.count + step, ended := n ≠ 0 && (q.resume + 1) * unit == n }))
  | _ => .next s

/-- RING_WAIT_SATISFIED: the ring wait of a running stream instruction is satisfied and it moves one slot. -/
def execRingWaitSatisfied (k tag : Nat) (s : State) : Out :=
  match s.task? k with
  | none => .next s
  | some t =>
    match t.queued? tag with
    | none => .next s
    | some q =>
      if !q.running || !t.onChip then .next s
      else
        s.reading k t q (q.slotReads t) fun s t =>
          match q.ins with
          | .scpy .. => s.scpySlot k t q
          | .sld .. =>
              match q.geo with
              | some g => (match g.ring with | some n => s.sldSlot k t q g n | none => .next s)
              | none => .next s
          | .sst .. =>
              match q.geo with
              | some g => (match g.ring with | some n => s.sstSlot k t q g n | none => .next s)
              | none => .next s
          | _ => .next s

/-! ## STREAM_COMPLETE (R98, R211 to R229) -/

/-- Move the records of a plain SLD or SGA from the resume point on, by the task as it stood (its index list). -/
def State.loadRecords (k : Nat) (t0 : Task) (q : QInstr) (g : Geo) : List Nat → State → Task → State × Task × Nat × Option Stop
  | [], s, t => (s, t, g.st.n, none)
  | r :: rs, s, t =>
    let b := s.loadRecord t0 q g r
    match b.2 with
    | .error e => (b.1, t, r, some e)
    | .ok x =>
      let m1 := putRec t.srf g.st r x.1
      let m2 := if !g.rows && q.desc.hasDelta then putRec m1 g.st.delta r x.2 else m1
      let t1 := ({ t with srf := m2 }).healRec g.st r
      State.loadRecords k t0 q g rs b.1 (if !g.rows && q.desc.hasDelta then t1.healRec g.st.delta r else t1)

/-- What the records of a plain SST or SSC write to package or host memory from the resume point on, the records that are whole, and the
fault that ends them (R98). -/
def State.gatherRecords (t : Task) (q : QInstr) (g : Geo) : List Nat → State → State × Writes × Nat × Option Stop
  | [], s => (s, [], g.st.n, none)
  | r :: rs, s =>
    let z := State.gather (t.qctx q) q.desc.space (q.items g t.srf r (getRec t.srf g.st r)) s
    match z.2.2 with
    | some e => (z.1, z.2.1, r, some e)
    | none =>
      let y := State.gatherRecords t q g rs z.1
      (y.1, z.2.1 ++ y.2.1, y.2.2)

/-- Complete with no fault. -/
def State.finishQ (s : State) (k : Nat) (t : Task) (q : QInstr) (count : Nat) : Out :=
  .next (s.putTask k (t.completeQ q.tag (StatusFields.ended q.tag 0 count) 0 0 false))

/-- End after the data phase: complete, or a stream fault with its resume point. -/
def State.endData (s : State) (k : Nat) (t : Task) (q : QInstr) (r : Nat) (e : Option Stop) : Out :=
  match e with
  | none => s.finishQ k t q r
  | some x => s.dataStop k (t.putQ { q with resume := r, count := r }) q.tag x

/-- A plain SLD or SGA moves its data and completes. -/
def State.completeLoad (s : State) (k : Nat) (t : Task) (q : QInstr) (g : Geo) : Out :=
  if !t.loadBegun q.tag then .next s
  else
    let m := State.missingRecords t q g (q.restRecs g) s
    match m.2 with
    | .error e => m.1.qStop k q.tag e
    | .ok (_ :: _) => .next (s.askRemote k t q)
    | .ok [] =>
      let z := State.loadRecords k t q g (q.restRecs g) m.1 t
      z.1.endData k z.2.1 q z.2.2.1 z.2.2.2

/-- A pod SST or SSC makes its records (R127) and completes. Where it stores half of a byte the other half is the snapshot's, which a remote
home sends and which the kerf does not have yet (log 22). -/
def State.completePod (s : State) (k : Nat) (t : Task) (q : QInstr) (g : Geo) (all : List Item) : Out :=
  let m := State.podMissing (t.qctx q) q.got all s
  if t.arrived && all.any (fun x => x.mask ≠ 0xFF) then .next s
  else if !m.2.isEmpty then .next (if s.asked k q.tag then s else m.1.requestBytes (.stream k q.tag) m.2)
  else
    let h := m.1.readHalves (t.qctx q) (t.who q) all
    match h.2 with
    | .error e => h.1.qStop k q.tag e
    | .ok _ =>
      let s1 := h.1.storePod k (t.qctx q) q.got all
      match s1.task? k with
      | none => .next s1
      | some t1 => s1.finishQ k t1 q g.st.n

/-- A plain SST or SSC performs and completes; one to host memory once the host has acknowledged it. -/
def State.completeStore (s : State) (k : Nat) (t : Task) (q : QInstr) (g : Geo) : Out :=
  if q.ended then (if t.storePending q.tag then .next s else s.finishQ k t q q.count)
  else if !t.storeTurn q.tag (q.desc.space == .host) then .next s
  else
    let all := (List.range g.st.n).flatMap (fun r => q.items g t.srf r (getRec t.srf g.st r))
    if q.desc.space = .pod then s.completePod k t q g all
    else
      match g.red.bind (fun op => sscRed op q.desc.fmt) with
      | some op =>
        if s.canAccept (s.reduceUnits (t.qctx q) all) then (State.reduceItems (t.qctx q) (t.who q) op all s).finishQ k t q g.st.n
        else .next s
      | none =>
        let z := State.gatherRecords t q g (q.restRecs g) s
        if q.desc.space = .package && !z.1.canAccept (writeUnits z.2.1) then .next s
        else
          let s1 := z.1.storeWrites (t.who q) q.desc.space z.2.1
          if q.desc.space = .host && z.2.2.2.isNone then
            .next (s1.putTask k ((t.putQ { q with ended := true, resume := z.2.2.1, count := z.2.2.1 }).atK q.tag))
          else s1.endData k (if z.2.1.isEmpty then t else t.beginStore q.tag) q z.2.2.1 z.2.2.2

/-- The i32 results of NBMV row by row (R227). -/
def State.nbmvRows (t : Task) (q : QInstr) (x : List Byte) (y : Nat) (acc : Bool) : List Nat → State → State × Res (List Nat)
  | [], s => (s, .ok [])
  | i :: is, s =>
    let d := q.desc
    let us := (List.range (d.size 0)).map (fun (j : Nat) =>
      let c : List Int := [(j : Int), d.org 1 + (i : Int)]
      if d.inside c then some (d.addr c) else none)
    let b := State.readUnits (t.qctx q) (t.who q) .package [] 1 [0] us s
    match b.2 with
    | .error e => (b.1, .error e)
    | .ok w =>
      let dot : Int := ((w.zip x).map (fun p => p.1.toInt * p.2.toInt)).foldl (· + ·) 0
      let a : Int := if acc then signed 32 (srfNat t.srf (y + 4 * i) 4) else 0
      let z := State.nbmvRows t q x y acc is b.1
      (z.1, z.2.map (wrap 32 (dot + a) :: ·))

/-- NBMV writes its results and completes; its COUNT is the number of rows, the model's choice of what a record moved is (log 51). -/
def State.completeNbmv (s : State) (k : Nat) (t : Task) (q : QInstr) : Out :=
  match q.ins with
  | .nbmv _ _ y acc _ _ =>
      if !t.loadBegun q.tag then .next s
      else
        let n := (q.ops.getD 1 0).toNat
        let xs := (List.range (q.desc.size 0)).map (fun i => some (((q.ops.getD 0 0).toNat + i) % 2 ^ 64))
        let v := State.readUnits (t.qctx q) (t.who q) .package [] 1 [0] xs s
        match v.2 with
        | .error e => v.1.qStop k q.tag e
        | .ok x =>
          let z := State.nbmvRows t q x (y.toNat * 128) acc (List.range n) v.1
          match z.2 with
          | .error e => z.1.qStop k q.tag e
          | .ok rs =>
            let srf := srfWrite t.srf (y.toNat * 128) (rs.flatMap (leBytes 4))
            z.1.finishQ k (({ t with srf := srf }).heal (y.toNat * 128) (4 * n)) q n
  | _ => .next s

def State.completeDescend (s : State) (k : Nat) (t : Task) (q : QInstr) : Out :=
  match q.descendOp with
  | none => .next s
  | some o =>
    if !t.loadBegun q.tag || s.asked k q.tag then .next s
    else
      let z := s.descend t q o
      match z.2 with
      | .ok t1 => .next (z.1.putTask k t1)
      | .error (.stop e) => z.1.qStop k q.tag e
      | .error (.need pas) => .next (s.requestBytes (.stream k q.tag) pas)

/-- Entries that an unstarted older STKRUN must still see as they were (R278). -/
def Task.keepDesc (t : Task) (po td : Nat) : Task :=
  { t with sq := t.sq.map (fun x => if isStkrun x.ins && !x.running && decide (x.po < po) && (tfind x.descs td).isNone then
      { x with descs := tput x.descs td (tget Desc.invalid t.descs td) } else x) }

def State.completeDesc (s : State) (k : Nat) (t : Task) (q : QInstr) : Out :=
  match q.newDesc t with
  | .error e => s.qStop k q.tag e
  | .ok (td, d) =>
    let t1 := t.keepDesc q.po td
    let whole := match q.ins with
      | .tdset .. => true
      | _ => false
    s.finishQ k { t1 with descs := tset Desc.invalid t1.descs td d, dbad := if whole then tdel t1.dbad td else t1.dbad } q 0

def State.completeRingi (s : State) (k : Nat) (t : Task) (q : QInstr) : Out :=
  match q.newRing t with
  | .error e => s.qStop k q.tag e
  | .ok (n, r) => s.finishQ k { t.setRing n r with rbad := tdel t.rbad n } q 0

/-- A plain SCPY copies and completes. -/
def State.completeScpy (s : State) (k : Nat) (t : Task) (q : QInstr) : Out :=
  match q.ins with
  | .scpy _ _ drop la lb rga rgb _ =>
      if rga || rgb then (if q.ended then s.finishQ k t q q.count else .next s)
      else
        let n := (q.ops.getD 0 0).toNat
        let srf := if drop then t.srf else srfWrite t.srf (lb.toNat * 128) (srfBytes t.srf (la.toNat * 128) n)
        s.finishQ k (if drop then t else ({ t with srf := srf }).heal (lb.toNat * 128) n) q (n / 128)
  | _ => .next s

/-- Has an ending program nothing left to do: its stores performed, its loads bound, its deliveries published (R230, R290, R291)? -/
def Stoek.finished (p : Stoek) : Bool :=
  p.hart.stores.isEmpty && p.hart.loads.isEmpty &&
  (match p.ending with
   | .running => false
   | .skend => p.delivery.isEmpty
   | .fault _ _ _ => p.delivery.isEmpty
   | .cancel => true)

/-- STKRUN completes once its program has ended and nothing of it is left. -/
def State.completeStkrun (s : State) (k : Nat) (t : Task) (q : QInstr) : Out :=
  match t.stoek? q.tag with
  | none => .next s
  | some p =>
    if !p.finished then .next s
    else
      let t1 := { t with stoeks := t.stoeks.filter (fun x => x.tag ≠ q.tag) }
      match p.ending with
      | .fault code dpc dva =>
          .next (s.putTask k (t1.completeQ q.tag (StatusFields.ended q.tag code.toNat p.published) dpc (dva.getD 0) dva.isSome))
      | .cancel => .next (s.putTask k (t1.completeQ q.tag (StatusFields.ended q.tag cCANCEL p.published) 0 0 false))
      | _ => s.finishQ k t1 q p.published

/-- A ring SLD or SST whose last slot has moved completes: a pod SST makes its records, one to host memory waits for the host. -/
def State.completeRing (s : State) (k : Nat) (t : Task) (q : QInstr) (g : Geo) : Out :=
  if !q.ended || (!g.load && q.desc.space == .host && t.storePending q.tag) then .next s
  else
    let s1 := if g.load then s else s.flushPod k t q g
    match s1.task? k with
    | none => .next s1
    | some t1 => s1.finishQ k t1 q q.count

/-- SLD, SST, SGA or SSC. -/
def State.completeMove (s : State) (k : Nat) (t : Task) (q : QInstr) : Out :=
  match q.geo with
  | none => .next s
  | some g =>
    match g.ring with
    | some _ => s.completeRing k t q g
    | none => if g.load then s.completeLoad k t q g else s.completeStore k t q g

/-- STREAM_COMPLETE: a running instruction performs what is left of its effect and completes. KRUN completes in KERNEL_BUNDLE. -/
def execStreamComplete (k tag : Nat) (s : State) : Out :=
  match s.task? k with
  | none => .next s
  | some t =>
    match t.queued? tag with
    | none => .next s
    | some q =>
      if !q.running || q.fault.isSome || !t.onChip then .next s
      else
        s.reading k t q (q.endReads t) fun s t =>
          match q.ins with
          | .tdset .. => s.completeDesc k t q
          | .tdmov .. => s.completeDesc k t q
          | .ringi .. => s.completeRingi k t q
          | .scpy .. => s.completeScpy k t q
          | .nbmv .. => s.completeNbmv k t q
          | .descend .. => s.completeDescend k t q
          | .stkrun .. => s.completeStkrun k t q
          | .stkrunNoring .. => s.completeStkrun k t q
          | .krun .. => .next s
          | _ => s.completeMove k t q

end Sys2Proof.Machine
end

