-- ==== Sys2Proof/Machine/KernelU.lean ====
section
/-! DEFINITION. Reading kernel-array registers, results in flight (06 R155 to R159), and the U slot (10 R233 to R243). -/

namespace Sys2Proof.Machine

/-! ## Registers of the kernel array -/

def Kernel.kreg (k : Kernel) (r : BitVec 5) : Word := tget 0 k.k r.toNat
def Kernel.qreg (k : Kernel) (r : BitVec 3) : Bool := tget false k.q r.toNat
def Kernel.vreg (k : Kernel) (r : Nat) : Nat := (tget 0 k.v r).toNat
def Kernel.preg (k : Kernel) (r : Nat) : WPred := tget 0 k.p r
def Kernel.mreg (k : Kernel) (r : Nat) : Nat := (tget 0 k.m r).toNat

/-- Element i of a predicate at width w: the bit of its lowest byte, elements counted through the clusters in turn (R155). -/
def predElem (p : WPred) (w i : Nat) : Bool := p.getLsbD (w * i / 8)

/-- Elements of width w in all 16 clusters. -/
def nElems (w : Nat) : Nat := 16384 / w

/-- How many elements of a predicate are set (R236). -/
def countSet (p : WPred) (w : Nat) : Nat := ((List.range (nElems w)).filter (predElem p w)).length

/-! ## Results (R156, R158) -/

/-- The register that a result is for. -/
inductive LandKey where
  | k (r : Nat) | q (r : Nat) | v (r : Nat) | p (r : Nat) | m (r : Nat) | d (r : Nat)
  deriving DecidableEq, Repr

def LandVal.key : LandVal → LandKey
  | .k r _ => .k r
  | .q r _ => .q r
  | .v r _ _ => .v r
  | .p r _ _ => .p r
  | .m r _ _ => .m r
  | .d r _ _ => .d r

/-- Bits of a mask replaced. -/
def putMask {n : Nat} (old val mask : BitVec n) : BitVec n := (old &&& ~~~mask) ||| (val &&& mask)

/-- A result lands in a kernel-array register. A result that fills its whole register leaves it with a good check code (R323). -/
def Kernel.land (k : Kernel) (x : LandVal) : Kernel :=
  match x with
  | .k r v => { k with k := tset 0 k.k r v }
  | .q r v => { k with q := tset false k.q r v }
  | .v r v m => { k with v := tset 0 k.v r (putMask (tget 0 k.v r) v m),
                         vbad := if m = BitVec.allOnes 16384 then tdel k.vbad r else k.vbad }
  | .p r v m => { k with p := tset 0 k.p r (putMask (tget 0 k.p r) v m) }
  | .m r v m => { k with m := tset 0 k.m r (putMask (tget 0 k.m r) v m),
                         mbad := if m = BitVec.allOnes 131072 then tdel k.mbad r else k.mbad }
  | .d _ _ _ => k

/-- A result lands in a path-trace register. -/
def landD (d : Tbl Wide) (x : LandVal) : Tbl Wide :=
  match x with
  | .d r v m => tset 0 d r (putMask (tget 0 d r) v m)
  | _ => d

/-- The results that land at the end of the bundle, and those that stay in flight. -/
def landNow (l : List Landing) : List LandVal × List Landing :=
  ((l.filter (fun x => x.left = 0)).map (·.val), (l.filter (fun x => x.left ≠ 0)).map (fun x => { x with left := x.left - 1 }))

/-- Do two results land in one register at one bundle? `phantom` are index writes that count as landing now (R239). -/
def collides (old new : List Landing) (phantom : List LandKey) : Bool :=
  let ks (l : List Landing) : List (Nat × LandKey) := l.map (fun x => (x.left, x.val.key))
  let ph : List (Nat × LandKey) := phantom.map (fun x => (0, x))
  let dup : List (Nat × LandKey) → Bool := fun l => decide (¬ l.Nodup)
  let fresh := ks new ++ ph
  dup fresh || fresh.any (fun x => (ks old).contains x)

/-! ## The U slot -/

/-- A kernel fault: code and KCODE (R29, R210). -/
structure KFault where
  code : Nat
  kcode : Nat
  deriving DecidableEq, Repr

def kfault (code : Nat) : KFault := { code := code, kcode := 0 }

/-- A loop that a U slot enters (R238): the last bundle, the kind, the index register and its first value. -/
structure LoopPlan where
  last : Nat
  kind : LoopKind
  kd : Option Nat
  base : Nat
  deriving DecidableEq, Repr

/-- What a U slot does at bundle start: results with their latencies, a branch taken, a loop, KEND. -/
structure UPlan where
  results : List Landing
  branch : Option Nat
  loop : Option LoopPlan
  ends : Bool
  deriving DecidableEq, Repr

def UPlan.none : UPlan := { results := [], branch := Option.none, loop := Option.none, ends := false }

/-- A k result of latency L. -/
def kRes (L : Nat) (kd : BitVec 5) (v : Word) : Landing := { left := L - 1, val := .k kd.toNat v }

def UPlan.one (L : Nat) (kd : BitVec 5) (v : Word) : UPlan := { UPlan.none with results := [kRes L kd v] }

/-- Is END a legal end at this bundle (R238)? -/
def Kernel.endOk (k : Kernel) (last : Nat) : Bool :=
  decide (k.pc < last) && (match k.loops with | e :: _ => decide (last ≤ e.last) | [] => true)

/-- The stack has no room for an entry (R32). -/
def Kernel.loopsFull (k : Kernel) : Bool := decide (8 ≤ k.loops.length)

/-- The stream that a stream number names. -/
def Kernel.bind (k : Kernel) (s : Nat) : Binding := k.binds.getD s (bindingOf 0)

/-- The SRF offset of ptr[j] of a bound stream, and its value (R240). -/
def rowPtrAt (b : Binding) (j : Nat) : Nat :=
  let pos := 4 * j
  let rb := 128 * b.size
  b.stream.at (pos / rb) (pos % rb / 128) + pos % 128

def rowPtr (srf : Tbl Line) (b : Binding) (j : Nat) : Nat := srfNat srf (rowPtrAt b j) 4

/-- The condition of a BRU, or NUBR (R237). -/
def Kernel.branchTaken (k : Kernel) (c : BruCond) : Except KFault Bool :=
  match c with
  | .always => .ok true
  | .nz a => .ok (k.kreg a != 0)
  | .z a => .ok (k.kreg a == 0)
  | .q a => .ok (k.qreg a)
  | .nq a => .ok (!k.qreg a)
  | .p w p =>
      let n := countSet (k.preg p.toNat) (intWidth w)
      if n = 0 then .ok false else if n = nElems (intWidth w) then .ok true else .error (kfault cNUBR)
  | .np w p =>
      let n := countSet (k.preg p.toNat) (intWidth w)
      if n = 0 then .ok true else if n = nElems (intWidth w) then .ok false else .error (kfault cNUBR)

/-- LOOPRP's first pointer and count, or its fault (R240, R323). A stream that is not declared for reading gives BOUNDS (log 29). -/
def Kernel.rowSpan (k : Kernel) (t : Task) (st : BitVec 3) (ka : BitVec 5) : Except KFault (Nat × Nat) :=
  let srf := t.srf
  let b := k.bind st.toNat
  let r := (k.kreg ka).toNat
  let bad (j : Nat) : Bool := tget 0 t.sbad (rowPtrAt b j / 128) == 2
  if !b.kind.getLsbD 0 then .error (kfault cBOUNDS)
  else if 2 ^ 62 ≤ r + 1 || decide (b.count ≤ 4 * (r + 1) / (128 * b.size)) then .error (kfault cBOUNDS)
  else if bad r || bad (r + 1) then .error (kfault cDATAERR)
  else
    let p0 := rowPtr srf b r
    let p1 := rowPtr srf b (r + 1)
    if p1 < p0 then .error (kfault cRPNEG) else .ok (p0, p1 - p0)

/-- The static part of a U slot: its checks and its values at bundle start (R233 to R243). A loop's END is checked before its other operands
(log 29). -/
def Kernel.planU (k : Kernel) (t : Task) (u : UOp) : Except KFault UPlan :=
  let K := k.kreg
  match u with
  | .kadd d a b => .ok (.one 1 d (K a + K b))
  | .ksub d a b => .ok (.one 1 d (K a - K b))
  | .kand d a b => .ok (.one 1 d (K a &&& K b))
  | .kor d a b => .ok (.one 1 d (K a ||| K b))
  | .kxor d a b => .ok (.one 1 d (K a ^^^ K b))
  | .kshl d a b => .ok (.one 1 d (K a <<< ((K b).toNat % 64)))
  | .kshr ar d a b => .ok (.one 1 d (if ar then (K a).sshiftRight ((K b).toNat % 64) else K a >>> ((K b).toNat % 64)))
  | .kmul d a b => .ok (.one 3 d (K a * K b))
  | .kcmp c d a b qd =>
      let t1 := condHolds c (K a) (K b)
      let r := kRes 1 d (if t1 then 1 else 0)
      .ok { UPlan.none with results := match qd with
        | some x => [r, { left := 0, val := .q x.toNat t1 }]
        | none => [r] }
  | .kmovi d imm => .ok (.one 1 d (imm.signExtend 64))
  | .kmoviSh d imm => .ok (.one 1 d ((K d <<< 16) ||| imm.setWidth 64))
  | .ksel d q a b => .ok (.one 1 d (if k.qreg q then K a else K b))
  | .kget w64 d va c l =>
      let v := k.vreg va.toNat
      let lane (i : Nat) : Nat := elem v 32 (32 * c.toNat + i)
      if w64 && l.getLsbD 0 then .error (kfault cILLBND)
      else .ok (.one 4 d (if w64 then BitVec.ofNat 64 (lane l.toNat + lane (l.toNat + 1) * 2 ^ 32)
        else BitVec.ofInt 64 (signed 32 (lane l.toNat))))
  | .vote md w qd pa kd =>
      let n := countSet (k.preg pa.toNat) (intWidth w)
      let all := nElems (intWidth w)
      let b := match md with
        | .any => decide (0 < n)
        | .all => n == all
        | .uni => n == 0 || n == all
      .ok { UPlan.none with results := ({ left := 1, val := .q qd.toNat b } : Landing) ::
        (match kd with | some d => [kRes 2 d (BitVec.ofNat 64 n)] | none => []) }
  | .bru c tgt =>
      match k.branchTaken c with
      | .error f => .error f
      | .ok b => .ok { UPlan.none with branch := if b then some tgt.toNat else none }
  | .loop kd a last =>
      let n := (K a).toNat
      if !k.endOk last.toNat then .error (kfault cILLBND)
      else if n ≠ 0 && k.loopsFull then .error (kfault cLOOPDEPTH)
      else .ok { UPlan.none with loop := some { last := last.toNat, kind := .counted n, kd := kd.map (·.toNat), base := 0 } }
  | .looprp kd a st last =>
      if !k.endOk last.toNat then .error (kfault cILLBND)
      else
        match k.rowSpan t st a with
        | .error f => .error f
        | .ok (p, n) =>
          if n ≠ 0 && k.loopsFull then .error (kfault cLOOPDEPTH)
          else .ok { UPlan.none with loop := some { last := last.toNat, kind := .ptr p n, kd := some kd.toNat, base := p } }
  | .loopes kd n last =>
      if !k.endOk last.toNat then .error (kfault cILLBND)
      else if !k.cons.getLsbD n.toNat || !(t.ring n.toNat).cfg then .error (kfault cBOUNDS)
      else .ok { UPlan.none with loop := some { last := last.toNat, kind := .eos n.toNat, kd := kd.map (·.toNat), base := 0 } }
  | .kend => .ok { UPlan.none with ends := true }
  | .kflt c => .error { code := cKFLT, kcode := c.toNat }
  | .nop => .ok UPlan.none

/-! ## The loop stack (R238 to R242) -/

/-- The index value of iteration i of a loop. -/
def LoopEntry.index (e : LoopEntry) (i : Nat) : Word :=
  match e.kind with
  | .ptr first _ => BitVec.ofNat 64 (first + i)
  | _ => BitVec.ofNat 64 i

/-- Iterations of a loop whose count is known. -/
def LoopKind.count? : LoopKind → Option Nat
  | .counted n => some n
  | .ptr _ n => some n
  | .eos _ => none

/-- Index writes that count as landing at the end of the bundle that stands for END bundle b: those that will land, and those
that a LOOPES check of their own or above them decides. The write of a LOOP or LOOPRP in its last iteration, and of an entry below one
that goes round, can never land (R239). -/
def indexKeys (b : Nat) : List LoopEntry → List LandKey
  | [] => []
  | e :: r =>
    if e.last ≠ b then []
    else
      let key := match e.kd with | some d => [LandKey.k d] | none => []
      match e.kind.count? with
      | none => key ++ indexKeys b r
      | some n => if e.iter + 1 < n then key else indexKeys b r

/-- One satisfied wait of a kernel on a ring (R264). -/
def Kernel.see (k : Kernel) (n c : Nat) : Kernel := { k with seen := tset 0 k.seen n (max (tget 0 k.seen n) c) }

/-- A release or publish takes its slots off SEEN. -/
def Kernel.unsee (k : Kernel) (n c : Nat) : Kernel := { k with seen := tset 0 k.seen n (tget 0 k.seen n - c) }

/-- The loop goes round: its index register, the next iteration. -/
def Kernel.goRound (k : Kernel) (e : LoopEntry) (r : List LoopEntry) : Kernel :=
  let e1 := { e with iter := e.iter + 1 }
  let k1 := { k with loops := e1 :: r, pc := e.start, loopWait := none }
  match e.kd with
  | some d => { k1 with k := tset 0 k1.k d (e.index (e.iter + 1)) }
  | none => k1

/-- The step of R242 after bundle b, on the stack given; a LOOPES check that must wait holds the sequencer (`loopWait`). -/
def loopStep (b : Nat) : List LoopEntry → Task → Kernel → Task × Kernel
  | [], t, k => (t, { k with loops := [], pc := b + 1, loopWait := none })
  | e :: r, t, k =>
    if e.last ≠ b then (t, { k with loops := e :: r, pc := b + 1, loopWait := none })
    else
      match e.kind with
      | .eos n =>
          let ring := t.ring n
          if ring.filled = 0 then (t, { k with loops := e :: r, loopWait := some b })
          else if ring.eosAt 0 then loopStep b r (t.setRing n (ring.release 1)) ((k.see n 1).unsee n 1)
          else (t, (k.see n 1).goRound e r)
      | .counted c => if e.iter + 1 < c then (t, k.goRound e r) else loopStep b r t k
      | .ptr _ c => if e.iter + 1 < c then (t, k.goRound e r) else loopStep b r t k

/-- A taken branch pops every entry whose body does not contain the target, from the top down (R242). -/
def popTo (target : Nat) : List LoopEntry → List LoopEntry
  | [] => []
  | e :: r => if e.start ≤ target && decide (target ≤ e.last) then e :: r else popTo target r

end Sys2Proof.Machine
end

