-- ==== Sys2Proof/Machine/KernelV.lean ====
section
/-! DEFINITION. The V slots: integer, floating, conversion, quantisation, ternary, packing and predicate operations and the descent
helpers (10 R244 to R255; 13 R303). Element j of a wide register, counted through the clusters in turn, is its bits
[w(j+1)-1 : wj]. -/

namespace Sys2Proof.Machine

/-- What a V slot produces: results with their masks, and flags. -/
structure VOut where
  outs : List LandVal
  flags : Flags
  deriving DecidableEq, Repr

/-- The elements of width w of all clusters. -/
def lanes (w v : Nat) : List Nat := (List.range (nElems w)).map (elem v w)

/-- The guard of an instruction for the elements of width w (R155). -/
def Kernel.guard (k : Kernel) (i : VInstr) (w : Nat) : List Bool :=
  (List.range (nElems w)).map (fun j => !i.pge || predElem (k.preg i.pg.toNat) w j)

/-- All-ones elements where a list of Booleans holds. -/
def maskOf (w : Nat) (en : List Bool) : Nat := packElems w (en.map (fun b => if b then 2 ^ w - 1 else 0))

/-- Flags of the elements that are written (R55, R244). -/
def enabledFlags (en : List Bool) (fs : List Flags) : Flags :=
  (en.zip fs).foldl (fun a x => if x.1 then a.or x.2 else a) Flags.clear

/-- Write elements of width w to v[r], where enabled. -/
def outV (r w : Nat) (en : List Bool) (xs : List (Nat × Flags)) : VOut :=
  { outs := [.v r (BitVec.ofNat 16384 (packElems w (xs.map (·.1)))) (BitVec.ofNat 16384 (maskOf w en))],
    flags := enabledFlags en (xs.map (·.2)) }

/-- Write the bits of elements of width w to p[r], where enabled. -/
def outP (r w : Nat) (en xs : List Bool) : VOut :=
  { outs := [.p r (BitVec.ofNat 2048 (maskOf (w / 8) xs)) (BitVec.ofNat 2048 (maskOf (w / 8) en))], flags := Flags.clear }

/-- A value without flags. -/
def noFlag (x : Nat) : Nat × Flags := (x, Flags.clear)

/-! ## Integer operations (R246, R247) -/

/-- One element of an elementwise integer operation. -/
def intElem (op : IntOp) (w : Nat) (fn : Bool) (a b c : Nat) : Nat :=
  let sa := signed w a
  let sb := signed w b
  match op with
  | .vadd => (a + b) % 2 ^ w
  | .vsub => wrap w ((a : Int) - b)
  | .vmul => a * b % 2 ^ w
  | .vmulh => if fn then a * b / 2 ^ w else wrap w (sa * sb / ((2 ^ w : Nat) : Int))
  | .vmad => (a * b + c) % 2 ^ w
  | .vmin => if fn then min a b else if sa ≤ sb then a else b
  | .vmax => if fn then max a b else if sa ≥ sb then a else b
  | .vabs => if sa < 0 then wrap w (-sa) else a
  | .vand => a &&& b
  | .vor => a ||| b
  | .vxor => a ^^^ b
  | .vshl => a * 2 ^ (b % w) % 2 ^ w
  | .vshr => a / 2 ^ (b % w)
  | .vsha => wrap w (sa / ((2 ^ (b % w) : Nat) : Int))
  | _ => 0

/-- The reduction of VRED (R247). -/
def redElems (op : Nat) (w : Nat) (fn : Bool) (xs : List Nat) : Nat :=
  let two (a b : Nat) : Nat :=
    if op = 0 then (a + b) % 2 ^ w else if op = 1 then intElem .vmin w fn a b 0 else intElem .vmax w fn a b 0
  match xs with
  | [] => 0
  | x :: r => r.foldl two x

/-- The condition of VCMP, by the code in vc. -/
def cmpElem (c : BitVec 4) (w a b : Nat) : Bool :=
  match condOf c with
  | some x => condHolds x (BitVec.ofNat w a) (BitVec.ofNat w b)
  | none => false

/-- The value VMOV gives to element i of cluster cl (R247). -/
def Kernel.movElem (k : Kernel) (i : VInstr) (w j a : Nat) : Nat :=
  let e := 1024 / w
  match i.vb.toNat with
  | 0 => a
  | 1 => (k.kreg (i.va.setWidth 5)).toNat % 2 ^ w
  | 2 => wrap w (i.vc.toInt)
  | 3 => i.vc.toNat
  | 4 => j % e
  | _ => j / e

def Kernel.intV (k : Kernel) (op : IntOp) (w : Nat) (i : VInstr) : VOut :=
  let a := k.vreg i.va.toNat
  let b := k.vreg i.vb.toNat
  let c := k.vreg i.vc.toNat
  let en := k.guard i w
  let n := nElems w
  let e := 1024 / w
  let js := List.range n
  match op with
  | .vcmp => outP i.vd.toNat w en (js.map (fun j => cmpElem (i.vc.setWidth 4) w (elem a w j) (elem b w j)))
  | .vsel =>
      let p := k.preg i.vc.toNat
      outV i.vd.toNat w en (js.map (fun j => noFlag (if predElem p w j then elem a w j else elem b w j)))
  | .vmov => outV i.vd.toNat w en (js.map (fun j => noFlag (k.movElem i w j (elem a w j))))
  | .vperm => outV i.vd.toNat w en (js.map (fun j => noFlag (elem a w (j / e * e + elem b w j % e))))
  | .vshf =>
      outV i.vd.toNat w en (js.map (fun j =>
        let p := j % e + i.vc.toNat
        noFlag (if p < e then elem a w (j / e * e + p) else elem b w (j / e * e + (p - e)))))
  | .vred =>
      outV i.vd.toNat w en (js.map (fun j =>
        noFlag (if j % e = 0 then redElems i.vc.toNat w i.fn ((List.range e).map (fun x => elem a w (j + x))) else 0)))
  | o => outV i.vd.toNat w en (js.map (fun j => noFlag (intElem o w i.fn (elem a w j) (elem b w j) (elem c w j))))

/-! ## Floating operations (R248, R249) -/

/-- The format of a floating opcode field (R175). -/
def fltFmt (f : BitVec 2) : FFmt :=
  match f.toNat with
  | 0 => fp64 | 1 => fp32 | 2 => bf16 | _ => fp16

/-- A rounded result with INV where a NaN comes from inputs none of which is one (R55). -/
def rounded (f : FFmt) (r : Nat) (ins : List FVal) : Nat × Flags :=
  (r, flagInv ((f.val r).isNan && ins.all (fun x => !x.isNan)))

/-- The condition of VFCMP (R50, R248). -/
def fcmp (c : Nat) (a b : FVal) : Bool :=
  match c with
  | 0 => fvEq a b
  | 1 => !fvEq a b
  | 2 => fvLt a b
  | 3 => fvLt a b || fvEq a b
  | 4 => fvLt b a
  | 5 => fvLt b a || fvEq a b
  | 6 => a.isNan || b.isNan
  | _ => !(a.isNan || b.isNan)

/-- The bits of a with a replaced sign (VFSGN). -/
def sgnElem (mode w a b : Nat) : Nat :=
  let s := bit b (w - 1)
  let t := if mode = 0 then s else if mode = 1 then !s else (bit a (w - 1) != s)
  a % 2 ^ (w - 1) + (if t then 2 ^ (w - 1) else 0)

def fltElem (op : FltOp) (f : FFmt) (rm : RMode) (mode a b c : Nat) : Nat × Flags :=
  let x := f.val a
  let y := f.val b
  let z := f.val c
  match op with
  | .vfadd => rounded f (f.rnd rm (fvAdd rm x y)) [x, y]
  | .vfsub => rounded f (f.rnd rm (fvAdd rm x (fvNeg y))) [x, y]
  | .vfmul => rounded f (f.rnd rm (fvMul x y)) [x, y]
  | .vfma => rounded f (f.rnd rm (fvAdd rm (fvMul x y) z)) [x, y, z]
  | .vfmin => noFlag (f.fmin a b)
  | .vfmax => noFlag (f.fmax a b)
  | .vfcmp => noFlag 0
  | .vfsgn => noFlag (sgnElem mode f.w a b)
  | .vfrcp => rounded f (f.rnd rm (fvRcp x)) [x]
  | .vfrsq => rounded f (f.rnd rm (fvRsq x)) [x]
  | .vfexp2 => rounded f (f.exp2 rm x) [x]
  | .vflog2 => rounded f (f.log2 rm x) [x]
  | .vfclp => noFlag (f.fmin (f.fmax a b) c)

def Kernel.fltV (k : Kernel) (op : FltOp) (f : FFmt) (i : VInstr) : VOut :=
  let a := k.vreg i.va.toNat
  let b := k.vreg i.vb.toNat
  let c := k.vreg i.vc.toNat
  let en := k.guard i f.w
  let js := List.range (nElems f.w)
  match op with
  | .vfcmp => outP i.vd.toNat f.w en (js.map (fun j => fcmp i.vc.toNat (f.val (elem a f.w j)) (f.val (elem b f.w j))))
  | o => outV i.vd.toNat f.w en (js.map (fun j =>
      fltElem o f (rmodeOf i.rnd) i.vc.toNat (elem a f.w j) (elem b f.w j) (elem c f.w j)))

/-! ## VCVT (R53, R54, R250) -/

/-- The floating format of an FMT code, if it is one. -/
def fmtFloat (c : Nat) : Option FFmt :=
  match c with
  | 0 => some fp64 | 1 => some fp32 | 2 => some fp16 | 3 => some bf16 | 4 => some e5m2 | 5 => some e4m3
  | _ => none

/-- Is an integer FMT code signed? -/
def fmtSigned (c : Nat) : Bool := c = 6 || c = 8 || c = 10 || c = 12

/-- The integer value of an element of an integer FMT code. -/
def fmtInt (c x : Nat) : Int := if fmtSigned c then signed (fmtWidth c) x else (x : Int)

/-- Is a floating FMT code a narrow format of R53? -/
def fmtNarrow (c : Nat) : Bool := c = 2 || c = 3 || c = 4 || c = 5

/-- Convert the value of a floating number or an integer to a destination format: to a narrow one by RNE whatever the round field holds, from
an integer too (R53, R54; log 16). -/
def toFmt (dst : Nat) (rm : RMode) (v : FVal) : Nat × Flags :=
  match fmtFloat dst with
  | some f =>
      if fmtNarrow dst then let r := f.narrow v; (r.1, flagSat r.2) else noFlag (f.rnd rm v)
  | none =>
      let r := fvToIntSat (if dst = 6 then .rne else rm) (fmtSigned dst) (fmtWidth dst) v
      (r.1, flagSat r.2)

/-- One conversion (R250). -/
def cvtElem (src dst : Nat) (rm : RMode) (x : Nat) : Nat × Flags :=
  match fmtFloat src with
  | some f => toFmt dst rm (f.val x)
  | none =>
    match fmtFloat dst with
    | some _ => toFmt dst rm (intVal (fmtInt src x))
    | none =>
      let w := fmtWidth dst
      let c := clampInt (intLo (fmtSigned dst) w) (intHi (fmtSigned dst) w) (fmtInt src x)
      if fmtWidth src < w then noFlag (wrap w (fmtInt src x)) else (wrap w c.1, flagSat c.2)

def Kernel.cvtV (k : Kernel) (i : VInstr) : VOut :=
  let src := i.vc.toNat / 16
  let dst := i.vc.toNat % 16
  let ws := fmtWidth src
  let wd := fmtWidth dst
  let es := 1024 / ws
  let ed := 1024 / wd
  let a := k.vreg i.va.toNat
  let part := i.vb.toNat
  let en := k.guard i wd
  let js := List.range (nElems wd)
  let cvt := cvtElem src dst (rmodeOf i.rnd)
  if wd > ws then outV i.vd.toNat wd en (js.map (fun j => cvt (elem a ws (j / ed * es + part * ed + j % ed))))
  else
    let mine (j : Nat) : Bool := decide (part * es ≤ j % ed) && decide (j % ed < part * es + es)
    outV i.vd.toNat wd ((en.zip js).map (fun x => x.1 && mine x.2))
      (js.map (fun j => if mine j then cvt (elem a ws (j / ed * es + (j % ed - part * es))) else noFlag 0))

/-! ## i4o (R56 to R60, R251, R252) -/

/-- The magnitude of outlier code i = 2e + m (R57, R58). -/
def outlierMag (i : Nat) : Nat := (2 + i % 2) * 2 ^ (i / 2) * 4

/-- A pair of nibbles decoded: the two integers, and whether it sets I4BAD (R57, R58). -/
def decodePair (lo hi : Nat) : Int × Int × Bool :=
  if lo = 8 then
    let m : Int := outlierMag (hi % 8)
    (if hi ≥ 8 then -m else m, 0, false)
  else (signed 4 lo, if hi = 8 then 0 else signed 4 hi, hi = 8)

/-- The integers of n i4o nibbles from nibble position p of a string, with their I4BAD marks. -/
def decodeNibbles (v p n : Nat) : List (Int × Bool) :=
  (List.range (n / 2)).flatMap (fun j =>
    let d := decodePair (elem v 4 (p + 2 * j)) (elem v 4 (p + 2 * j + 1))
    [(d.1, false), (d.2.1, d.2.2)])

/-- The outlier code whose magnitude is nearest a scaled magnitude; a tie goes to m = 0. -/
def nearestOutlier (x t : Nat) : Nat :=
  let dist (i : Nat) : Nat := ((x : Int) - (outlierMag i * 2 ^ t : Nat)).natAbs
  (List.range 8).foldl (fun best i =>
    if dist i < dist best || (dist i = dist best && i % 2 = 0) then i else best) 0

/-- One pair of VQBS: values as integers in units of 2^-t of s; the byte and SAT. -/
def quantPair (t : Nat) (a b : Int) : Nat × Bool :=
  let unit : Int := 2 ^ t
  let rnd (x : Int) : Int :=
    let r : Int := roundShift .rne false x.natAbs t
    (clampInt (-7) 7 (if x < 0 then -r else r)).1
  let pa := rnd a
  let pb := rnd b
  let ep := (a - pa * unit).natAbs + (b - pb * unit).natAbs
  let code := nearestOutlier a.natAbs t
  let om : Int := (outlierMag code : Int) * unit
  let o : Int := if a < 0 then -om else om
  let eo := (a - o).natAbs + b.natAbs
  let sat := decide (112 * 2 ^ t ≤ a.natAbs)
  if eo < ep then (8 + 16 * (code + (if a < 0 then 8 else 0)), sat) else (wrap 4 pa + 16 * wrap 4 pb, sat)

/-- fp32 bits as an integer in units of 2^-149, with NaN and infinities replaced; the second component is SAT (R251). -/
def quantInput (x : Nat) : Int × Bool :=
  match fp32.val x with
  | .nan => (0, true)
  | .inf s => (let m : Int := (2 ^ 24 - 1) * 2 ^ 253; (if s then -m else m, true))
  | .zero _ => (0, false)
  | .fin s m e => (scaled s m e (-149), false)

/-- One block of VQBS: delta, the 24 bytes, SAT. -/
def quantBlock (B : Nat) (xs : List Nat) : Nat × List Nat × Bool :=
  let ins := xs.map quantInput
  let vs := ins.map (·.1)
  let amax := (vs.map Int.natAbs).foldl max 0
  let sat0 := ins.any (·.2)
  if amax = 0 then (15, List.replicate 24 0, sat0)
  else
    let fits (d : Nat) : Bool := decide (amax ≤ 96 * 2 ^ (22 + B - d))
    let D := ((List.range 15).filter fits).foldl max 0
    let t := 22 + B - D
    let ps := (List.range 24).map (fun j => quantPair t (vs.getD (2 * j) 0) (vs.getD (2 * j + 1) 0))
    (D, ps.map (·.1), sat0 || ps.any (·.2))

/-- VQBS in every cluster (R251). -/
def Kernel.qbsV (k : Kernel) (i : VInstr) : VOut :=
  let B := (k.kreg (i.vb.setWidth 5)).toNat % 256
  let per (c : Nat) : Nat × Bool :=
    let xs := (List.range 3).flatMap (fun r => (List.range 32).map (fun e => elem (k.vreg (i.va.toNat + r)) 32 (32 * c + e)))
    let b0 := quantBlock B (xs.take 48)
    let b1 := quantBlock B (xs.drop 48)
    (packElems 8 (b0.2.1 ++ b1.2.1 ++ [b0.1 + 16 * b1.1]), b0.2.2 || b1.2.2)
  let rs := (List.range 16).map per
  { outs := [.v i.vd.toNat (BitVec.ofNat 16384 (packElems 1024 (rs.map (·.1)))) (BitVec.allOnes 16384)],
    flags := flagSat (rs.any (·.2)) }

/-- The fp32 value q * 2^(B-127-D), rounded (R60, R252). -/
def dequant (rm : RMode) (B D : Nat) (q : Int) : Nat :=
  if q = 0 then 0 else fp32.rnd rm (.fin (decide (q < 0)) q.natAbs ((B : Int) - 127 - D))

/-- VDQBS in every cluster (R252). -/
def Kernel.dqbsV (k : Kernel) (i : VInstr) : VOut :=
  let B := (k.kreg (i.vb.setWidth 5)).toNat % 256
  let rm := rmodeOf i.rnd
  let per (c : Nat) : List (Nat × Bool) :=
    let v := elem (k.vreg i.va.toNat) 1024 c
    (List.range 2).flatMap (fun bl =>
      let D := elem v 4 (96 + bl)
      (decodeNibbles v (48 * bl) 48).map (fun x => if D = 15 then (0, false) else (dequant rm B D x.1, x.2)))
  let all := (List.range 16).map per
  { outs := (List.range 3).map (fun r => LandVal.v (i.vd.toNat + r)
      (BitVec.ofNat 16384 (packElems 32 (all.flatMap (fun l => ((l.drop (32 * r)).take 32).map (·.1))))) (BitVec.allOnes 16384)),
    flags := { Flags.clear with i4bad := all.any (·.any (·.2)) } }

/-! ## t5 (R61, R62, R253) -/

/-- Digit k of a byte as an i8 element; an illegal byte decodes as zeros. -/
def t5Elem (b k : Nat) : Nat := if b ≥ 243 then 0 else wrap 8 (((b / 3 ^ k % 3 : Nat) : Int) - 1)

/-- Is an illegal byte decoded: one with an enabled element (R61)? -/
def Kernel.t5Bad (k : Kernel) (i : VInstr) : Bool :=
  let a := k.vreg i.va.toNat
  let en (c e : Nat) : Bool := !i.pge || predElem (k.preg i.pg.toNat) 8 (128 * c + e)
  (List.range 16).any (fun c => (List.range 25).any (fun m =>
    decide (243 ≤ elem a 8 (128 * c + 25 * i.vb.toNat + m)) && (List.range 5).any (fun x => en c (5 * m + x))))

def Kernel.untV (k : Kernel) (i : VInstr) : VOut :=
  let a := k.vreg i.va.toNat
  let o := outV i.vd.toNat 8 (k.guard i 8) ((List.range 2048).map (fun j =>
    let c := j / 128
    let e := j % 128
    noFlag (if e < 125 then t5Elem (elem a 8 (128 * c + 25 * i.vb.toNat + e / 5)) (e % 5) else 0)))
  { o with flags := { Flags.clear with t5bad := k.t5Bad i } }

/-! ## Packing (R254) -/

/-- One element narrowed by VPACK: mode 0 truncates, 1 and 2 saturate; i8 to i4o clamps to −7 to 7. -/
def packElem (mode w x : Nat) : Nat × Flags :=
  let h := w / 2
  let s := signed w x
  if mode = 0 then noFlag (x % 2 ^ h)
  else if w = 8 then let c := clampInt (-7) 7 s; (wrap 4 c.1, flagSat c.2)
  else
    let c := clampInt (intLo (mode == 1) h) (intHi (mode == 1) h) s
    (wrap h c.1, flagSat c.2)

def Kernel.packV (k : Kernel) (i : VInstr) : VOut :=
  let w := 8 * 2 ^ (i.vc.toNat % 4)
  let e := 1024 / w
  let a := k.vreg i.va.toNat
  let b := k.vreg i.vb.toNat
  let mode := i.vc.toNat / 4 % 4
  let en := (List.range (nElems (w / 2))).map (fun j => !i.pge || (k.preg i.pg.toNat).getLsbD (w / 2 * j / 8))
  outV i.vd.toNat (w / 2) en ((List.range (nElems (w / 2))).map (fun j =>
    let x := j % (2 * e)
    let c := j / (2 * e)
    packElem mode w (if x < e then elem a w (c * e + x) else elem b w (c * e + (x - e)))))

/-- VUNPK. An odd nibble 1000b sets I4BAD only through a destination element that is written, as R244 says of INV and SAT (log 52). -/
def Kernel.unpkV (k : Kernel) (i : VInstr) : VOut :=
  let sz := i.vc.toNat % 4
  let w := 4 * 2 ^ sz
  let e := 1024 / w
  let d := 2 * w
  let a := k.vreg i.va.toNat
  let sgn := i.vc.getLsbD 2
  let js := List.range (nElems d)
  let src (j : Nat) : Nat := j / (e / 2) * e + i.vb.toNat * (e / 2) + j % (e / 2)
  outV i.vd.toNat d (k.guard i d) (js.map (fun j =>
    let p := src j
    if sz = 0 then
      let x := decodePair (elem a 4 (p / 2 * 2)) (elem a 4 (p / 2 * 2 + 1))
      if p % 2 = 0 then noFlag (wrap 8 x.1) else (wrap 8 x.2.1, { Flags.clear with i4bad := x.2.2 })
    else noFlag (if sgn then wrap d (signed w (elem a w p)) else elem a w p)))

/-! ## Predicates (R255) -/

/-- A whole predicate result. -/
def wholeP (r : Nat) (v : WPred) : VOut := { outs := [.p r v (BitVec.allOnes 2048)], flags := Flags.clear }

def Kernel.plogV (k : Kernel) (i : VInstr) : VOut :=
  let a := k.preg i.va.toNat
  let b := k.preg i.vb.toNat
  wholeP i.vd.toNat (match i.vc.toNat with
    | 0 => a &&& b
    | 1 => a ||| b
    | 2 => a ^^^ b
    | 3 => a &&& ~~~b
    | 4 => ~~~(a ||| b)
    | _ => ~~~a)

def Kernel.pmovV (k : Kernel) (i : VInstr) : VOut :=
  let pd := i.vd.toNat
  match i.vc.toNat % 8 with
  | 0 => wholeP pd (k.preg i.va.toNat)
  | 1 => wholeP pd (BitVec.allOnes 2048)
  | 2 => wholeP pd 0
  | 3 => wholeP pd (BitVec.ofNat 2048 (packElems 1 ((lanes 8 (k.vreg i.va.toNat)).map (· % 2))))
  | 4 => { outs := [.v pd (BitVec.ofNat 16384 (packElems 8 ((List.range 2048).map (fun b => if (k.preg i.va.toNat).getLsbD b then 1 else 0))))
             (BitVec.allOnes 16384)], flags := Flags.clear }
  | _ =>
      let w := 8 * 2 ^ (i.vc.toNat / 8 % 4)
      let e := 1024 / w
      let n := min (k.kreg (i.vb.setWidth 5)).toNat e
      wholeP pd (BitVec.ofNat 2048 (maskOf (w / 8) ((List.range (nElems w)).map (fun j => decide (j % e < n)))))

/-! ## Descent helpers (R303) -/

/-- The bit of element j: of a predicate, or by the sign rule on fp32. -/
def Kernel.helperBit (k : Kernel) (i : VInstr) (j : Nat) : Bool :=
  if i.fn then signBit (elem (k.vreg i.vb.toNat) 32 j) else predElem (k.preg i.vb.toNat) 32 j

def Kernel.nchildV (k : Kernel) (i : VInstr) : VOut :=
  let a := k.vreg i.va.toNat
  outV i.vd.toNat 32 (k.guard i 32) ((List.range 512).map (fun j =>
    noFlag ((2 * elem a 32 j + 1 + b2n (k.helperBit i j)) % 2 ^ 32)))

def Kernel.ppushV (k : Kernel) (i : VInstr) : VOut :=
  let n := (k.kreg (i.va.setWidth 5)).toNat % 32
  let en := k.guard i 32
  let js := List.range 512
  { outs := [.d i.vd.toNat (BitVec.ofNat 16384 (packElems 32 (js.map (fun j => b2n (k.helperBit i j) * 2 ^ n))))
      (BitVec.ofNat 16384 (packElems 32 (en.map (fun b => b2n b * 2 ^ n))))], flags := Flags.clear }

/-- The node of R293 after l levels from the bits of a path word. -/
def pathNode (word l : Nat) : Nat := (List.range l).foldl (fun a j => (2 * a + 1 + b2n (bit word j)) % 2 ^ 32) 0

def Kernel.ptrdV (k : Kernel) (dregs : Tbl Wide) (i : VInstr) : VOut :=
  let d := (tget 0 dregs i.va.toNat).toNat
  let n := (k.kreg (i.vb.setWidth 5)).toNat % 32
  outV i.vd.toNat 32 (k.guard i 32) ((List.range 512).map (fun j =>
    let x := elem d 32 j
    noFlag (match i.vc.toNat with
      | 0 => x
      | 1 => b2n (bit x n)
      | _ => pathNode x n)))

/-! ## Dispatch, latency and occupancy (R245, R303) -/

def Kernel.execV (k : Kernel) (dregs : Tbl Wide) (i : VInstr) : VOut :=
  match i.op with
  | .int o f => k.intV o (intWidth f) i
  | .flt o f => k.fltV o (fltFmt f) i
  | .vcvt => k.cvtV i
  | .vqbs => k.qbsV i
  | .vdqbs => k.dqbsV i
  | .vunt => k.untV i
  | .vpack => k.packV i
  | .vunpk => k.unpkV i
  | .plog => k.plogV i
  | .pmov => k.pmovV i
  | .nchild => k.nchildV i
  | .ppush => k.ppushV i
  | .ptrd => k.ptrdV dregs i
  | .nop => { outs := [], flags := Flags.clear }

/-- Latency and occupancy of an integer opcode. -/
def intTiming (o : IntOp) (f : BitVec 2) : Nat × Nat :=
  match o with
  | .vperm => (3, 1)
  | .vshf => (3, 1)
  | .vred => (5, 1)
  | .vmul => if f = 3 then (6, 2) else (4, 1)
  | .vmulh => if f = 3 then (6, 2) else (4, 1)
  | .vmad => if f = 3 then (6, 2) else (4, 1)
  | _ => (2, 1)

def fltTiming (o : FltOp) (f : BitVec 2) : Nat × Nat :=
  match o with
  | .vfcmp => (2, 1)
  | .vfrcp => if f = 0 then (24, 4) else (12, 1)
  | .vfrsq => if f = 0 then (24, 4) else (12, 1)
  | .vfexp2 => if f = 0 then (24, 4) else (12, 1)
  | .vflog2 => if f = 0 then (24, 4) else (12, 1)
  | _ => if f = 0 then (6, 2) else (4, 1)

/-- Latency and occupancy of a V slot. An explicit no-operation is no instruction issued to the slot's unit: with occupancy 0 it never
meets an occupied one (log 52). -/
def VInstr.timing (i : VInstr) : Nat × Nat :=
  match i.op with
  | .int o f => intTiming o f
  | .flt o f => fltTiming o f
  | .vcvt => (3, 1)
  | .vunt => (3, 1)
  | .vqbs => (8, 3)
  | .vdqbs => (4, 1)
  | .vpack => (2, 1)
  | .vunpk => (2, 1)
  | .plog => (1, 1)
  | .pmov => (1, 1)
  | .nchild => (2, 1)
  | .ppush => (2, 1)
  | .ptrd => (2, 1)
  | .nop => (1, 0)

/-- The vector registers that a V slot reads (R246 to R255, R303). -/
def VInstr.sources (i : VInstr) : List Nat :=
  let a := i.va.toNat
  let b := i.vb.toNat
  match i.op with
  | .int .vmad _ => [a, b, i.vc.toNat]
  | .int .vmov _ => if b = 0 then [a] else []
  | .int .vabs _ => [a]
  | .int .vred _ => [a]
  | .int _ _ => [a, b]
  | .flt .vfma _ => [a, b, i.vc.toNat]
  | .flt .vfclp _ => [a, b, i.vc.toNat]
  | .flt .vfrcp _ => [a]
  | .flt .vfrsq _ => [a]
  | .flt .vfexp2 _ => [a]
  | .flt .vflog2 _ => [a]
  | .flt _ _ => [a, b]
  | .vqbs => [a, a + 1, a + 2]
  | .vpack => [a, b]
  | .vcvt => [a]
  | .vdqbs => [a]
  | .vunt => [a]
  | .vunpk => [a]
  | .plog => []
  | .pmov => if i.vc.toNat % 8 = 3 then [a] else []
  | .nchild => if i.fn then [a, b] else [a]
  | .ppush => if i.fn then [b] else []
  | .ptrd => []
  | .nop => []

/-- Does a V slot fault with T5BAD (R61, R253)? -/
def Kernel.vFault (k : Kernel) (i : VInstr) : Bool :=
  match i.op with
  | .vunt => k.t5trap && k.t5Bad i
  | _ => false

end Sys2Proof.Machine
end

