-- ==== Sys2Proof/Machine/KernelM.lean ====
section
/-! DEFINITION. The M slot: MMA in seven formats, MMAS, and the accumulator moves (02 R63 to R69; 11 R256 to R260). An accumulator
m[r] of all clusters is held as 16 × 8,192 bits, cluster c in bits [8192(c+1)-1 : 8192c]. -/

namespace Sys2Proof.Machine

/-- The 1,024 bits of cluster c of a vector register. -/
def Kernel.vcl (k : Kernel) (r c : Nat) : Nat := elem (k.vreg r) 1024 c

/-- The 8,192 bits of cluster c of an accumulator. -/
def Kernel.mcl (k : Kernel) (r c : Nat) : Nat := elem (k.mreg r) 8192 c

/-- n consecutive vector registers of a cluster as one bit string (R257). -/
def Kernel.vstring (k : Kernel) (r n c : Nat) : Nat := packElems 1024 ((List.range n).map (fun i => k.vcl (r + i) c))

/-- The floating format of an MMA, if it has one. -/
def mmaFloat : MmaFmt → Option FFmt
  | .fp64 => some fp64
  | .fp32 => some fp32
  | .bf16 => some bf16
  | .fp16 => some fp16
  | .e4m3 => some e4m3
  | .e5m2 => some e5m2
  | .i8 => none

/-- The depth of the tree (R64). -/
def mmaDepth : MmaFmt → Nat
  | .fp64 => 0
  | .fp32 => 3
  | .bf16 => 5
  | .fp16 => 5
  | _ => 6

/-- Accumulate a rounded value; the second component is INV. -/
def accAdd (f : FFmt) (c : Nat) (v : FVal) : Nat × Bool :=
  let r := f.rnd .rne (fvAdd .rne (f.val c) v)
  (r, newNan (f.val c) v (f.val r))

/-- One accumulator element of MMA (R64). -/
def mmaElem (m : MmaFmt) (c : Nat) (a b : List Nat) : Nat × Bool :=
  match mmaFloat m with
  | none =>
      let s : Int := ((a.zip b).map (fun p => signed 8 p.1 * signed 8 p.2)).foldl (· + ·) 0
      (wrap 32 ((c : Int) + s), false)
  | some f =>
      let p := products (a.map f.val) (b.map f.val)
      let t := treeSum (mmaDepth m) p.1
      let r := accAdd (if m = .fp64 then fp64 else fp32) c t.1
      (r.1, p.2 || t.2 || r.2)

/-- The 256 elements of an MMA in one cluster, with INV (R257, R258). -/
def Kernel.mmaCluster (k : Kernel) (m : MmaFmt) (md va vb c : Nat) : List (Nat × Bool) :=
  let sh := mmaShape m
  let w := sh.1
  let K := sh.2.1
  let A := k.vstring va sh.2.2 c
  let B := k.vstring vb sh.2.2 c
  let C := if m = .fp64 then packElems 8192 [k.mcl md c, k.mcl (md + 1) c] else k.mcl md c
  let cw := if m = .fp64 then 64 else 32
  (List.range 256).map (fun e =>
    mmaElem m (elem C cw e) ((List.range K).map (fun x => elem A w (e / 16 * K + x))) ((List.range K).map (fun x => elem B w (e % 16 * K + x))))

/-- All bits of an accumulator of all clusters. -/
def mAll : BitVec 131072 := BitVec.allOnes 131072

/-- Accumulator results of n consecutive accumulators from one bit string for each cluster. -/
def outM (md n : Nat) (per : List Nat) : List LandVal :=
  (List.range n).map (fun i => .m (md + i) (BitVec.ofNat 131072 (packElems 8192 (per.map (fun v => elem v 8192 i)))) mAll)

def Kernel.mma (k : Kernel) (m : MmaFmt) (md va vb : Nat) : VOut :=
  let cs := (List.range 16).map (k.mmaCluster m md va vb)
  let cw := if m = .fp64 then 64 else 32
  { outs := outM md (if m = .fp64 then 2 else 1) (cs.map (fun l => packElems cw (l.map (·.1)))),
    flags := flagInv (cs.any (·.any (·.2))) }

/-- One block's contribution of MMAS as a rounded fp32 value (R65). -/
def mmasBlock (ba bb da db : Nat) (qa qb : List Int) : FVal :=
  if da = 15 || db = 15 then .zero false
  else
    let s : Int := ((qa.zip qb).map (fun p => p.1 * p.2)).foldl (· + ·) 0
    if s = 0 then .zero false
    else fp32.val (fp32.rnd .rne (.fin (decide (s < 0)) s.natAbs ((ba : Int) - 127 - da + (bb : Int) - 127 - db)))

/-- The 256 elements of an MMAS in one cluster with INV, and I4BAD (R65, R259). -/
def Kernel.mmasCluster (k : Kernel) (md va vb ka kb vc c : Nat) : List (Nat × Bool) × Bool :=
  let ba := (k.kreg (BitVec.ofNat 5 ka)).toNat % 256
  let bb := (k.kreg (BitVec.ofNat 5 kb)).toNat % 256
  let dl := k.vcl vc c
  let A := k.vstring va 6 c
  let B := k.vstring vb 6 c
  let C := k.mcl md c
  let delta (i bl : Nat) : Nat := elem dl 4 (2 * i + bl)
  let rows (v : Nat) : List (List (Int × Bool)) := (List.range 16).map (fun i => decodeNibbles v (96 * i) 96)
  let ra := rows A
  let rb := rows B
  let blk (r : List (List (Int × Bool))) (i bl : Nat) : List (Int × Bool) := ((r.getD i []).drop (48 * bl)).take 48
  let els := (List.range 256).map (fun e =>
    let i := e / 16
    let j := e % 16
    let add (x : Nat × Bool) (bl : Nat) : Nat × Bool :=
      let v := mmasBlock ba bb (delta i bl) (delta (16 + j) bl) ((blk ra i bl).map (·.1)) ((blk rb j bl).map (·.1))
      let r := accAdd fp32 x.1 v
      (r.1, x.2 || r.2)
    add (add (elem C 32 e, false) 0) 1)
  let bad (r : List (List (Int × Bool))) (o : Nat) : Bool :=
    (List.range 16).any (fun i => (List.range 2).any (fun bl => delta (o + i) bl != 15 && (blk r i bl).any (·.2)))
  (els, bad ra 0 || bad rb 16)

def Kernel.mmas (k : Kernel) (md va vb ka kb vc : Nat) : VOut :=
  let cs := (List.range 16).map (k.mmasCluster md va vb ka kb vc)
  { outs := outM md 1 (cs.map (fun l => packElems 32 (l.1.map (·.1)))),
    flags := { flagInv (cs.any (fun l => l.1.any (·.2))) with i4bad := cs.any (·.2) } }

/-- Eighth q of an accumulator, all clusters, as a vector register (R260). -/
def Kernel.eighth (k : Kernel) (md q : Nat) : Wide :=
  BitVec.ofNat 16384 (packElems 1024 ((List.range 16).map (fun c => elem (k.mcl md c) 1024 q)))

/-- A vector register placed in eighth q of an accumulator: bits and mask. -/
def Kernel.intoEighth (k : Kernel) (va q : Nat) : BitVec 131072 × BitVec 131072 :=
  (BitVec.ofNat 131072 (packElems 8192 ((List.range 16).map (fun c => k.vcl va c * 2 ^ (1024 * q)))),
   BitVec.ofNat 131072 (packElems 8192 (List.replicate 16 ((2 ^ 1024 - 1) * 2 ^ (1024 * q)))))

/-- The results and flags of an M instruction (R258 to R260). -/
def Kernel.execM (k : Kernel) (m : MOp) : VOut :=
  let wide := BitVec.allOnes 16384
  match m with
  | .mma f md va vb => k.mma f md.toNat va.toNat vb.toNat
  | .mmas md va vb ka kb vc => k.mmas md.toNat va.toNat vb.toNat ka.toNat kb.toNat vc.toNat
  | .mzero md => { outs := [.m md.toNat 0 mAll], flags := Flags.clear }
  | .mldv all md va q =>
      if all then
        { outs := [.m md.toNat (BitVec.ofNat 131072 (packElems 8192 ((List.range 16).map (k.vstring va.toNat 8)))) mAll], flags := Flags.clear }
      else
        let x := k.intoEighth va.toNat q.toNat
        { outs := [.m md.toNat x.1 x.2], flags := Flags.clear }
  | .mstv all va md q =>
      if all then { outs := (List.range 8).map (fun i => .v (va.toNat + i) (k.eighth md.toNat i) wide), flags := Flags.clear }
      else { outs := [.v va.toNat (k.eighth md.toNat q.toNat) wide], flags := Flags.clear }
  | .nop => { outs := [], flags := Flags.clear }

/-- The vector registers and the accumulators that an M instruction reads (R257 to R260). -/
def MOp.sources : MOp → List Nat × List Nat
  | .mma f md va vb =>
      let n := (mmaShape f).2.2
      ((List.range n).map (va.toNat + ·) ++ (List.range n).map (vb.toNat + ·), if f = .fp64 then [md.toNat, md.toNat + 1] else [md.toNat])
  | .mmas md va vb _ _ vc => (vc.toNat :: (List.range 6).map (va.toNat + ·) ++ (List.range 6).map (vb.toNat + ·), [md.toNat])
  | .mzero _ => ([], [])
  | .mldv all _ va _ => (if all then (List.range 8).map (va.toNat + ·) else [va.toNat], [])
  | .mstv _ _ md _ => ([], [md.toNat])
  | .nop => ([], [])

/-- Latency and occupancy (R256); of an explicit no-operation as in a V slot (log 52). -/
def MOp.timing : MOp → Nat × Nat
  | .mma _ _ _ _ => (8, 8)
  | .mmas _ _ _ _ _ _ => (6, 6)
  | .mzero _ => (1, 1)
  | .mldv all _ _ _ => if all then (8, 8) else (2, 1)
  | .mstv all _ _ _ => if all then (8, 8) else (2, 1)
  | .nop => (1, 0)

end Sys2Proof.Machine
end

