-- ==== Sys2Proof/Machine/KernelC.lean ====
section
/-! DEFINITION. The C slots: rings and bound streams, the inter-cluster switch, the bench and direct SRF access (03 R76, R78, R84,
R85, R95; 11 R262 to R273). -/

namespace Sys2Proof.Machine

/-- A wait of a bundle: ring, whether as producer, count (R263). -/
structure RWait where
  ring : Nat
  prod : Bool
  count : Nat
  deriving DecidableEq, Repr

/-- A ring operation of a bundle: ring, whether a publish, count, EOS tag, whether its count is checked against SEEN (RADV, R267). -/
structure RMove where
  ring : Nat
  publish : Bool
  count : Nat
  eos : Bool
  checked : Bool
  deriving DecidableEq, Repr

/-- The SRF lines that the 16 clusters use, none for a cluster without a record; as line numbers. -/
abbrev Lines := List (Option Nat)

/-- What a C slot does: its wait, the SRF lines it reads, its results, its line writes, its bench write, its ring operation, a cursor
advance. -/
structure CPlan where
  waits : List RWait
  lines : List Nat
  results : List Landing
  srf : List (Nat × Line)
  bench : List (Nat × Wide)
  moves : List RMove
  cursor : Option (Nat × Nat)
  deriving DecidableEq, Repr

def CPlan.none : CPlan := { waits := [], lines := [], results := [], srf := [], bench := [], moves := [], cursor := Option.none }

def bounds : KFault := kfault cBOUNDS

/-- LOFF + k[kx], no wrap (R263). -/
def Kernel.lineIndex (k : Kernel) (kx : Option (BitVec 5)) (loff : BitVec 3) : Nat :=
  loff.toNat + (match kx with | some x => (k.kreg x).toNat | none => 0)

/-- The lines of a port of RDR (`prod` false) or RWR, and its wait, or the fault of a static check (R264 to R266). The slot of a
ring is known only once the wait is satisfied; `t` gives the counters at that time. RINGWAIT comes before the limit of the line (log 29). -/
def Kernel.portLines (k : Kernel) (t : Task) (p : Port) (prod : Bool) (j : Nat) : Except KFault (Lines × List RWait) :=
  match p with
  | .ring n w1 =>
      let r := t.ring n.toNat
      let w := w1.toNat + 1
      let role := if prod then k.prod.getLsbD n.toNat else k.cons.getLsbD n.toNat
      if !role || !r.cfg then .error bounds
      else if decide (r.nslot < w) then .error (kfault cRINGWAIT)
      else if r.slotsz ≤ 16 * j then .error bounds
      else
        let slot := ((if prod then r.tail else r.head) + w - 1) % r.nslot
        .ok ((List.range 16).map (fun c =>
              if 16 * j + c < r.slotsz then some (r.base / 128 + slot * r.slotsz + 16 * j + c) else none),
             [{ ring := n.toNat, prod := prod, count := w }])
  | .stream s roff =>
      let b := k.bind s.toNat
      let rnd := (tget 0 k.g s.toNat).toNat + roff.toNat
      if !(if prod then b.kind.getLsbD 1 else b.kind.getLsbD 0) then .error bounds
      else if b.size ≤ j || b.count ≤ 16 * rnd then .error bounds
      else
        .ok ((List.range 16).map (fun c => if 16 * rnd + c < b.count then some (b.stream.at (16 * rnd + c) j / 128) else none), [])

/-- The 16 lines of SRFL or SRFS, or BOUNDS (R273). -/
def Kernel.direct (k : Kernel) (t : Task) (kx : BitVec 5) (n : BitVec 9) (wr : Bool) : Except KFault Lines :=
  let o := (k.kreg kx).toNat + 128 * n.toNat
  let rs := (k.binds.filter (fun b => if wr then b.kind.getLsbD 1 else b.kind.getLsbD 0)).map (fun b => b.stream.range)
  let okLine (c : Nat) : Bool :=
    let a := o + 128 * c
    !t.inRing (a, 128) && rs.any (fun r => decide (r.1 ≤ a) && decide (a + 128 ≤ r.1 + r.2))
  if o % 128 = 0 && decide (o + 2047 < t.srfSize) && (List.range 16).all okLine then
    .ok ((List.range 16).map (fun c => some (o / 128 + c)))
  else .error bounds

/-- The register that 16 lines fill; a cluster without a record reads zero. -/
def readLines (srf : Tbl Line) (ls : Lines) : Wide :=
  BitVec.ofNat 16384 (packElems 1024 (ls.map (fun l => match l with | some x => (tget 0 srf x).toNat | none => 0)))

/-- The line writes of a register. -/
def Kernel.writeLines (k : Kernel) (va : Nat) (ls : Lines) : List (Nat × Line) :=
  (ls.zip (List.range 16)).filterMap (fun x => x.1.map (fun l => (l, BitVec.ofNat 1024 (k.vcl va x.2))))

/-- A whole vector-register result of latency L. -/
def vRes (L r : Nat) (v : Wide) : Landing := { left := L - 1, val := .v r v (BitVec.allOnes 16384) }

/-- A register exchanged among clusters: cluster c receives that of cluster src c (R270, R271). -/
def Kernel.exchange (k : Kernel) (vr : Nat) (src : Nat → Nat) : Wide :=
  BitVec.ofNat 16384 (packElems 1024 ((List.range 16).map (fun c => k.vcl vr (src c % 16))))

/-- The checks and values of a C slot at bundle start (R262 to R273). -/
def Kernel.planC (k : Kernel) (t : Task) (c : COp) : Except KFault CPlan :=
  match c with
  | .rdr vd p kx loff =>
      match k.portLines t p false (k.lineIndex kx loff) with
      | .error f => .error f
      | .ok x => .ok { CPlan.none with waits := x.2, lines := x.1.filterMap id, results := [vRes 3 vd.toNat (readLines t.srf x.1)] }
  | .rwr va p kx loff =>
      match k.portLines t p true (k.lineIndex kx loff) with
      | .error f => .error f
      | .ok x => .ok { CPlan.none with waits := x.2, srf := k.writeLines va.toNat x.1 }
  | .radv (.ring n) kx a =>
      let cnt := match kx with | some x => (k.kreg x).toNat | none => a.toNat
      let cons := k.cons.getLsbD n.toNat
      if 16 < a.toNat then .error (kfault cILLBND)
      else if !(cons || k.prod.getLsbD n.toNat) || !(t.ring n.toNat).cfg then .error bounds
      else .ok { CPlan.none with moves := [{ ring := n.toNat, publish := !cons, count := cnt, eos := false, checked := true }] }
  | .radv (.stream s) kx a =>
      let cnt := match kx with | some x => (k.kreg x).toNat | none => a.toNat
      if 16 < a.toNat then .error (kfault cILLBND) else .ok { CPlan.none with cursor := some (s.toNat, cnt) }
  | .reos n =>
      if !k.prod.getLsbD n.toNat || !(t.ring n.toNat).cfg then .error bounds
      else .ok { CPlan.none with waits := [{ ring := n.toNat, prod := true, count := 1 }],
                                 moves := [{ ring := n.toNat, publish := true, count := 1, eos := true, checked := false }] }
  | .xsw vr md =>
      let src : Nat → Nat := match md with
        | .rot m => fun x => x + m.toNat
        | .xor m => fun x => x ^^^ m.toNat
        | .map kx => fun x => elem (k.kreg kx).toNat 4 x
      .ok { CPlan.none with results := [vRes 3 vr.toNat (k.exchange vr.toNat src)] }
  | .xbc vr src =>
      let s := match src with
        | .inl x => x.toNat
        | .inr kx => (k.kreg kx).toNat % 16
      .ok { CPlan.none with results := [vRes 3 vr.toNat (k.exchange vr.toNat (fun _ => s))] }
  | .bld vd l => .ok { CPlan.none with results := [vRes 1 vd.toNat (tget 0 k.bench l.toNat)] }
  | .bst va l => .ok { CPlan.none with bench := [(l.toNat, tget 0 k.v va.toNat)] }
  | .srfl vd kx n =>
      match k.direct t kx n false with
      | .error f => .error f
      | .ok ls => .ok { CPlan.none with lines := ls.filterMap id, results := [vRes 3 vd.toNat (readLines t.srf ls)] }
  | .srfs va kx n =>
      match k.direct t kx n true with
      | .error f => .error f
      | .ok ls => .ok { CPlan.none with srf := k.writeLines va.toNat ls }
  | .nop => .ok CPlan.none

/-- Is a wait satisfied (R81)? -/
def RWait.ok (w : RWait) (t : Task) : Bool :=
  if w.prod then decide (w.count ≤ (t.ring w.ring).free) else decide (w.count ≤ (t.ring w.ring).filled)

/-- The vector registers and the bench lines that a C slot reads (R265 to R273). -/
def COp.sources : COp → List Nat × List Nat
  | .rwr va _ _ _ => ([va.toNat], [])
  | .xsw vr _ => ([vr.toNat], [])
  | .xbc vr _ => ([vr.toNat], [])
  | .bst va _ => ([va.toNat], [])
  | .srfs va _ _ => ([va.toNat], [])
  | .bld _ l => ([], [l.toNat])
  | _ => ([], [])

/-- The counter operation of a bundle and SEEN after it, or RINGOVF: of RADV where its count exceeds SEEN (R263, R267), and of every
release and publish where its count exceeds what the ring holds then (R81, R268). -/
def RMove.apply (m : RMove) (a : Task × Kernel) : Except KFault (Task × Kernel) :=
  let r := a.1.ring m.ring
  if m.checked && decide (tget 0 a.2.seen m.ring < m.count) then .error (kfault cRINGOVF)
  else if (if m.publish then r.free else r.filled) < m.count then .error (kfault cRINGOVF)
  else
    .ok (if m.count = 0 then a.1 else a.1.setRing m.ring (if m.publish then r.publish m.count m.eos else r.release m.count),
         a.2.unsee m.ring m.count)

end Sys2Proof.Machine
end

