-- ==== Sys2Proof/Machine/SideTable.lean ====
section
/-! DEFINITION. Reads of the dispatch unit by virtual address, and the safe points of a side table (18 R332, R339, R346). -/

namespace Sys2Proof.Machine

/-- The local address of a virtual address on a readable private page, seen in mode U (R14, R346); an error that the walk meets is
reported (R356). -/
def State.readableAt (s : State) (asid : BitVec 16) (va : Nat) : State × Option Nat :=
  let r := s.xlatePiece { asid := asid, modeS := false, stepm := false, pins := [] } { space := .package, r := true, w := false, x := false } va 1
  (r.1, match r.2 with
    | .ok p => p.2.head?.map (· % 2 ^ 40)
    | .error _ => none)

/-- n bytes from a virtual address, page by page; none where a byte cannot be read. Errors are corrected and counted, or reported
(R323). -/
def State.readVa (asid : BitVec 16) : (pages : Nat) → (va n : Nat) → State → State × Option (List Byte)
  | 0, _, n, s => (s, if n = 0 then some [] else none)
  | f + 1, va, n, s =>
    if n = 0 then (s, some [])
    else
      let m := min n (4096 - va % 4096)
      let a := s.readableAt asid va
      match a.2 with
      | none => (a.1, none)
      | some la =>
        let r := a.1.readLocal (addrs la m)
        match r.2.2 with
        | some bad => (r.1.postUncorr 2 0xFFFF (va + (bad - la)) (s.paOf (bad / 64 * 64)) 0 0xFF 0, none)
        | none =>
          let z := State.readVa asid f (va + m) (n - m) r.1
          (z.1, z.2.map (r.2.1 ++ ·))

/-- n bytes from a virtual address. -/
def State.readV (s : State) (asid : BitVec 16) (va n : Nat) : State × Option (List Byte) := State.readVa asid (n / 4096 + 2) va n s

/-- A safe-point entry: its bundle and its 128 bytes (R346). -/
structure SafePoint where
  bundle : Nat
  entry : List Byte
  deriving DecidableEq, Repr

/-- One entry; none where a reserved bit or byte is not zero. -/
def safePoint (e : List Byte) : Option SafePoint :=
  if bits (recField e 0 8) 63 13 ≠ 0 || (e.drop 0x43).any (· ≠ 0) then none
  else some { bundle := bits (recField e 0 8) 12 0, entry := e }

/-- Entries of 128 bytes each, in strictly ascending order of their bundles. -/
def safePoints : Nat → Option Nat → List Byte → Option (List SafePoint)
  | 0, _, _ => some []
  | n + 1, prev, bs =>
    match safePoint (bs.take 128) with
    | none => none
    | some p =>
      if prev.any (fun b => decide (p.bundle ≤ b)) then none
      else (safePoints n (some p.bundle) (bs.drop 128)).map (p :: ·)

/-- The safe points of a side table; none where the launch has no table or the table breaks a rule of R346. -/
def State.sideTable (s : State) (asid : BitVec 16) (va : Nat) : State × List SafePoint :=
  if va = 0 then (s, [])
  else
    let h := s.readV asid va 16
    match h.2 with
    | none => (h.1, [])
    | some hd =>
      let n := recField hd 0 4
      let off := recField hd 8 8
      if 65536 < n || recField hd 4 4 ≠ 0 || off % 128 ≠ 0 then (h.1, [])
      else
        let b := h.1.readV asid (va + off) (128 * n)
        (b.1, (b.2.bind (safePoints n none)).getD [])

/-- The side table of a task's launch. -/
def State.taskSafePoints (s : State) (t : Task) : State × List SafePoint :=
  match tfind s.disp.launches t.launch with
  | none => (s, [])
  | some l => s.sideTable t.asid (recField l.record 0x18 8)

/-- Keep the listed registers that a mask names; the others read zero (R339). -/
def keepLive {α : Type} (mask : Nat) (t : Tbl α) : Tbl α := t.filter (fun e => mask.testBit e.1)

/-- The kernel-array state that a forced save keeps (R339). -/
def Kernel.live (k : Kernel) (e : List Byte) : Kernel :=
  { k with v := keepLive (recField e 0x08 32) k.v, bench := keepLive (recField e 0x28 16) k.bench,
           m := keepLive (recField e 0x38 4) k.m }

/-- No result in flight and no unit occupied (R339). -/
def Kernel.quiet (k : Kernel) : Bool :=
  k.inflight.isEmpty && k.occV0 == 0 && k.occV1 == 0 && k.occM == 0 && k.loopWait.isNone

end Sys2Proof.Machine
end

