-- ==== Sys2Proof/Machine/KernelRun.lean ====
section
/-! DEFINITION. KERNEL_BUNDLE: the kernel sequencer issues one bundle (01 R24, R28 to R32; 06 R153 to R159; 10 R242, R243; 11 R263,
R264; 18 R338, R339). -/

namespace Sys2Proof.Machine

/-- The status of a KRUN that ends (R210). -/
def Kernel.status (k : Kernel) (code kcode fbundle : Nat) : StatusFields :=
  { code := code, kcode := kcode, flags := k.flags, dscnan := false, started := true, done := true, tag := k.tag,
    fbundle := fbundle, count := k.count }

/-- The kernel ends: results in flight towards path-trace registers land in order, KRUN completes (R29, R159). -/
def Task.endKernel (t : Task) (k : Kernel) (code kcode fbundle : Nat) : Task :=
  let far := (k.inflight.map (·.left)).foldl max 0
  let order := (List.range (far + 1)).flatMap (fun n => (k.inflight.filter (fun x => x.left = n)).map (·.val))
  let t1 := { t with dregs := order.foldl landD t.dregs, kern := none, ksaved := false }
  t1.completeQ k.tag (k.status code kcode fbundle) 0 0 false

/-- A kernel fault at a bundle (R29): no slot of the bundle has executed. -/
def Task.kernelFault (t : Task) (k : Kernel) (f : KFault) (bundle : Nat) : Task := t.endKernel k f.code f.kcode bundle

/-- Everything the slots of a bundle do, once the static checks have passed. -/
structure BPlan where
  u : UPlan
  /-- The results in flight, the bundle's own among them. -/
  flying : List Landing
  flags : Flags
  c0 : CPlan
  c1 : CPlan
  occ : Nat × Nat × Nat
  deriving DecidableEq, Repr

/-- Results of a V or M slot of latency L. -/
def outLandings (L : Nat) (o : VOut) : List Landing := o.outs.map (fun v => { left := L - 1, val := v })

/-- The registers of a V instruction stay within v0 to v255 (R251, R252). -/
def vInRange (i : VInstr) : Bool :=
  match i.op with
  | .vqbs => decide (i.va.toNat ≤ 253)
  | .vdqbs => decide (i.vd.toNat ≤ 253)
  | _ => true

/-- The registers of an M instruction stay within v0 to v255 and m0 to m31 (R256, R257, R260). -/
def mInRange : MOp → Bool
  | .mma f md va vb =>
    let n := (mmaShape f).2.2
    decide (va.toNat + n ≤ 256) && decide (vb.toNat + n ≤ 256) && !(f == .fp64 && md.getLsbD 0)
  | .mmas _ va vb _ _ _ => decide (va.toNat + 6 ≤ 256) && decide (vb.toNat + 6 ≤ 256)
  | .mldv all _ va q => !all || (q == 0 && decide (va.toNat ≤ 248))
  | .mstv all va _ q => !all || (q == 0 && decide (va.toNat ≤ 248))
  | _ => true

/-- A V slot: its static checks, then its results (R61, R156, R158). Occupancy comes before T5BAD, and T5BAD before a collision of its
results (log 29). -/
def Kernel.planV (k : Kernel) (t : Task) (occ : Nat) : Option VInstr → Except KFault (List Landing × Flags × Nat)
  | none => .ok ([], Flags.clear, 0)
  | some i =>
    if !vInRange i || (occ ≠ 0 && (VInstr.timing i).2 ≠ 0) then .error (kfault cILLBND)
    else if k.vFault i then .error (kfault cT5BAD)
    else let o := k.execV t.dregs i; .ok (outLandings (VInstr.timing i).1 o, o.flags, (VInstr.timing i).2)

/-- The M slot. -/
def Kernel.planM (k : Kernel) (occ : Nat) : Option MOp → Except KFault (List Landing × Flags × Nat)
  | none => .ok ([], Flags.clear, 0)
  | some m =>
    if !mInRange m || (occ ≠ 0 && (MOp.timing m).2 ≠ 0) then .error (kfault cILLBND)
    else let o := k.execM m; .ok (outLandings (MOp.timing m).1 o, o.flags, (MOp.timing m).2)

/-- A C slot. -/
def Kernel.planCSlot (k : Kernel) (t : Task) : Option COp → Except KFault CPlan
  | none => .ok CPlan.none
  | some c => k.planC t c

/-- The wait of a LOOPES at its own bundle (R241). -/
def UPlan.wait (u : UPlan) : List RWait :=
  match u.loop with
  | some { kind := .eos n, .. } => [{ ring := n, prod := false, count := 1 }]
  | _ => []

/-- How the U slot's loop turns out once the waits are satisfied: entered, run no times, and whether an end-of-stream slot is
released (R238, R241). -/
inductive LoopTurn where
  | none
  | enter (p : LoopPlan)
  | skip (last : Nat) (eos : Option Nat)
  deriving DecidableEq, Repr

def UPlan.turn (u : UPlan) (t : Task) : LoopTurn :=
  match u.loop with
  | Option.none => .none
  | some p =>
    match p.kind with
    | .counted n => if n = 0 then .skip p.last Option.none else .enter p
    | .ptr _ n => if n = 0 then .skip p.last Option.none else .enter p
    | .eos n => if (t.ring n).eosAt 0 then .skip p.last (some n) else .enter p

/-- Index registers written at the end of this bundle by the loop stack (R239): by the U slot's entry, or as END bundle. -/
def Kernel.phantoms (k : Kernel) (u : UPlan) (turn : LoopTurn) : List LandKey :=
  match turn with
  | .enter p => match p.kd with
    | some d => [.k d]
    | Option.none => []
  | .skip last _ => indexKeys last k.loops
  | .none => if u.branch.isSome || u.ends then [] else indexKeys k.pc k.loops

/-- The results in flight with a slot's own, or the ILLBND of two results that land in one register at one bundle (R158). -/
def joinOuts (flying new : List Landing) (phantom : List LandKey) : Except KFault (List Landing) :=
  if collides flying new phantom then .error (kfault cILLBND) else .ok (flying ++ new)

/-- Is the U slot's loop a LOOPES, whose first check comes with the ring waits (R241)? -/
def UPlan.loopsEos (u : UPlan) : Bool :=
  match u.loop with
  | some { kind := .eos _, .. } => true
  | _ => false

/-- The static checks and the plan of a bundle, the fault of the first slot in the order U, V0, V1, M, C0, C1 (R263). What a LOOPES
check of the bundle decides is not known yet. -/
def Kernel.planBundle (k : Kernel) (t : Task) (b : Bundle) : Except KFault BPlan := do
  let u ← match b.u with
    | none => .ok UPlan.none
    | some op => k.planU t op
  let l0 ← joinOuts k.inflight u.results (if u.loopsEos then [] else k.phantoms u (u.turn t))
  let v0 ← k.planV t k.occV0 b.v0
  let l1 ← joinOuts l0 v0.1 []
  let v1 ← k.planV t k.occV1 b.v1
  let l2 ← joinOuts l1 v1.1 []
  let m ← k.planM k.occM b.m
  let l3 ← joinOuts l2 m.1 []
  let c0 ← k.planCSlot t b.c0
  let l4 ← joinOuts l3 c0.results []
  let c1 ← k.planCSlot t b.c1
  let l5 ← joinOuts l4 c1.results []
  .ok { u := u, flying := l5, flags := (v0.2.1.or v1.2.1).or m.2.1, c0 := c0, c1 := c1, occ := (v0.2.2, v1.2.2, m.2.2) }

/-! ## Check codes (17 R323; 20 R376) -/

/-- What a bundle reads: vector registers, accumulators, bench lines, and of its task SRF lines and rings. -/
structure KReads where
  v : List Nat
  m : List Nat
  bench : List Nat
  own : OwnReads
  deriving DecidableEq, Repr

def Kernel.reads (k : Kernel) (b : Bundle) (p : BPlan) : KReads :=
  let c (o : Option COp) : List Nat × List Nat := (o.map COp.sources).getD ([], [])
  let m := (b.m.map MOp.sources).getD ([], [])
  let u : List Nat := match b.u with
    | some (.kget _ _ va _ _) => [va.toNat]
    | _ => []
  let rowLines : List (Nat × Nat) := match b.u with
    | some (.looprp _ a st _) =>
      let r := (k.kreg a).toNat
      [(rowPtrAt (k.bind st.toNat) r, 4), (rowPtrAt (k.bind st.toNat) (r + 1), 4)]
    | _ => []
  let ends := (k.loops.filter (fun e => e.last = k.pc)).filterMap (fun e => match e.kind with
    | .eos n => some n
    | _ => none)
  { v := u ++ (b.v0.map VInstr.sources).getD [] ++ (b.v1.map VInstr.sources).getD [] ++ m.1 ++ (c b.c0).1 ++ (c b.c1).1,
    m := m.2, bench := (c b.c0).2 ++ (c b.c1).2,
    own := { OwnReads.none with
      srf := rowLines ++ (p.c0.lines ++ p.c1.lines).map (fun l => (128 * l, 128)),
      rings := ends ++ (p.u.wait ++ p.c0.waits ++ p.c1.waits).map (·.ring) ++ (p.c0.moves ++ p.c1.moves).map (·.ring) } }

/-- Does a bundle meet an uncorrectable error? -/
def KReads.bad (n : KReads) (k : Kernel) (t : Task) : Bool :=
  n.own.bad t || n.v.any (fun r => tget 0 k.vbad r == 2) || n.m.any (fun r => tget 0 k.mbad r == 2) ||
    n.bench.any (fun l => tget 0 k.bbad l == 2)

/-- The errors that a bundle corrects, counted, and the kernel and the task without them. -/
def KReads.correct (n : KReads) (k : Kernel) (t : Task) : Nat × Kernel × Task :=
  let met (l : List Nat) (b : Tbl Nat) : Tbl Nat := b.filter (fun e => e.2 = 1 && l.contains e.1)
  let left (l : List Nat) (b : Tbl Nat) : Tbl Nat := b.filter (fun e => !(e.2 = 1 && l.contains e.1))
  let o := n.own.correct t
  (o.1 + (met n.v k.vbad).length + (met n.m k.mbad).length + (met n.bench k.bbad).length,
   { k with vbad := left n.v k.vbad, mbad := left n.m k.mbad, bbad := left n.bench k.bbad }, o.2)

/-- Write lines of the SRF. -/
def putLines (srf : Tbl Line) (ls : List (Nat × Line)) : Tbl Line := ls.foldl (fun m x => tset 0 m x.1 x.2) srf

/-- Advance the round cursors (R267). -/
def Kernel.advance (k : Kernel) (c : CPlan) : Kernel :=
  match c.cursor with
  | some (st, a) => { k with g := tset 0 k.g st (tget 0 k.g st + BitVec.ofNat 64 a) }
  | none => k

/-- Where the sequencer goes after bundle b (R237, R242); a bundle index past the last is ILLBND (R153). -/
def Task.nextBundle (t : Task) (k : Kernel) (p : BPlan) (turn : LoopTurn) : Task × Kernel :=
  match p.u.branch with
  | some target => (t, { k with pc := target, loops := popTo target k.loops })
  | none =>
    match turn with
    | .enter lp =>
        let e : LoopEntry := { start := k.pc + 1, last := lp.last, kind := lp.kind, iter := 0, kd := lp.kd }
        let k1 := match lp.kd with
          | some d => { k with k := tset 0 k.k d (e.index 0) }
          | none => k
        (t, { k1 with loops := e :: k1.loops, pc := k.pc + 1 })
    | .skip last _ => loopStep last k.loops t k
    | .none => loopStep k.pc k.loops t k

/-- A kernel fault at the bundle; a DATAERR posts its record too (R29, R322). -/
def State.stopKernel (s : State) (n : Nat) (t : Task) (k : Kernel) (f : KFault) : State :=
  let s1 := if f.code = cDATAERR then s.postOnChip 2 t.lg (k.tag % 64) 0 else s
  s1.putTask n (t.kernelFault k f k.pc)

/-- Put back the kernel after its step; a step past bundle 8,191 faults. -/
def State.putKernel (s : State) (n : Nat) (t : Task) (k : Kernel) : State :=
  if 8191 < k.pc && k.loopWait.isNone then s.putTask n (t.kernelFault k { code := cILLBND, kcode := 1 } 8191)
  else s.putTask n { t with kern := some k }

/-- What a bundle leaves once nothing faults: the writes of R263's step 5, the results that land, the step to the next bundle. `a` is
the task and the kernel after the bundle's counter operations (step 6). -/
def State.finishBundle (s : State) (n : Nat) (p : BPlan) (turn : LoopTurn) (a : Task × Kernel) : State :=
  let lines := p.c0.srf ++ p.c1.srf
  let benches := p.c0.bench ++ p.c1.bench
  let t1 := { a.1 with srf := putLines a.1.srf lines, sbad := lines.foldl (fun (m : Tbl Nat) (x : Nat × Line) => tdel m x.1) a.1.sbad }
  let k1 := ((a.2).advance p.c0).advance p.c1
  let l := landNow p.flying
  let k2 := l.1.foldl Kernel.land { k1 with
    bench := benches.foldl (fun m x => tset 0 m x.1 x.2) k1.bench, bbad := benches.foldl (fun (m : Tbl Nat) (x : Nat × Wide) => tdel m x.1) k1.bbad,
    inflight := l.2, count := k1.count + 1, flags := k1.flags.or p.flags,
    occV0 := max (k1.occV0 - 1) (p.occ.1 - 1), occV1 := max (k1.occV1 - 1) (p.occ.2.1 - 1),
    occM := max (k1.occM - 1) (p.occ.2.2 - 1) }
  let t2 := { t1 with dregs := l.1.foldl landD t1.dregs }
  if p.u.ends then s.putTask n (t2.endKernel k2 0 0 0)
  else
    let r := t2.nextBundle k2 p turn
    s.putKernel n r.1 r.2

/-- The bundle once its waits are satisfied: what a LOOPES check decides, then RINGOVF, then its reads, then its effects (R263). A fault
leaves everything as it was before the bundle. -/
def State.runBundle (s : State) (n : Nat) (t : Task) (k0 : Kernel) (b : Bundle) (p : BPlan) : State :=
  let turn := p.u.turn t
  let waits := p.u.wait ++ p.c0.waits ++ p.c1.waits
  let k1 := waits.foldl (fun a w => a.see w.ring w.count) k0
  let enters := match turn with
    | .enter _ => true
    | _ => false
  if enters && k0.loopsFull then s.stopKernel n t k0 (kfault cLOOPDEPTH)
  else if collides p.flying [] (if p.u.loopsEos then k0.phantoms p.u turn else []) then s.stopKernel n t k0 (kfault cILLBND)
  else
    let first : Task × Kernel := match turn with
      | .skip _ (some r) => (t.setRing r ((t.ring r).release 1), k1.unsee r 1)
      | _ => (t, k1)
    match (p.c0.moves ++ p.c1.moves).foldl (fun (a : Except KFault (Task × Kernel)) m => a.bind m.apply) (.ok first) with
    | .error f => s.stopKernel n t k0 f
    | .ok a =>
      let rd := k0.reads b p
      if rd.bad k0 t then s.stopKernel n t k0 (kfault cDATAERR)
      else
        let c := rd.correct a.2 a.1
        (if c.1 = 0 then s else s.countCorrected c.1).finishBundle n p turn (c.2.2, c.2.1)

/-- FORCED_SAVE (R339): at a usable safe point within the second drain limit the kernel is saved instead. -/
def State.forcedSave (s : State) (t : Task) (k : Kernel) : State × Option Task :=
  match t.run with
  | .draining _ true _ =>
      if k.quiet then
        let z := s.taskSafePoints t
        (z.1, (z.2.find? (fun p => p.bundle = k.pc)).map (fun p =>
          { t with kern := some { k.live p.entry with entry := p.entry }, ksaved := true }))
      else (s, none)
  | _ => (s, none)

/-- May a task's kernel issue bundles: on a physical gnoum, not saved? -/
def Task.kernelRuns (t : Task) : Bool :=
  !t.ksaved && (match t.run with
    | .placed _ => true
    | .draining _ _ _ => true
    | _ => false)

/-- The next bundle of a kernel is decoded and checked, waits, or executes. -/
def State.issueBundle (s : State) (n : Nat) (t : Task) (k : Kernel) : State :=
  match decodeBundle (tget 0 s.kstore k.pc) with
  | .error _ => s.stopKernel n t k (kfault cILLBND)
  | .ok b =>
    match k.planBundle t b with
    | .error f => s.stopKernel n t k f
    | .ok p => if (p.u.wait ++ p.c0.waits ++ p.c1.waits).all (fun w => w.ok t) then s.runBundle n t k b p else s

/-- The step of a running kernel. -/
def State.kernelStep (s : State) (n : Nat) (t : Task) (k : Kernel) : State :=
  match k.loopWait with
  | some b => let r := loopStep b k.loops t k; s.putKernel n r.1 r.2
  | none =>
    let z := s.forcedSave t k
    match z.2 with
    | some u => z.1.putTask n u
    | none => z.1.issueBundle n t k

/-- KERNEL_BUNDLE: the sequencer of a task's gnoum issues the next bundle, or waits. -/
def execKernelBundle (n : Nat) (s : State) : Out :=
  match s.task? n with
  | none => .next s
  | some t =>
    match t.kern with
    | none => .next s
    | some k => .next (if t.kernelRuns then s.kernelStep n t k else s)

/-- The kernel is stopped before its next bundle when the second drain limit passes (R338). -/
def State.budgetKill (s : State) (n : Nat) (t : Task) (k : Kernel) : State :=
  (s.putTask n (t.endKernel k cBUDGET 0 k.pc)).post 0x0041 0 t.lg
    [(0x18, t.lg), (0x1A, t.launch), (0x1B, k.tag % 64), (0x1C, k.pc)]

end Sys2Proof.Machine
end

