-- ==== Sys2Proof/Machine/StoekOps.lean ====
section
/-! DEFINITION. The nine Stoek operations and STOEK_PUBLISH (12 R274 to R291). An operation that reads memory executes when its load
entry may bind (R279); limits are checked before indices, and indices before translations. -/

namespace Sys2Proof.Machine

/-- Bytes of the assembly tile (R274). -/
def tileSize : Nat := 8192

def Stoek.tileBytes (p : Stoek) (o n : Nat) : List Byte := (addrs o n).map (tget 0 p.tile)

/-- Write bytes of the assembly tile. -/
def Stoek.tilePut (p : Stoek) (o : Nat) (bs : List Byte) : Stoek :=
  { p with tile := (bs.zip (List.range bs.length)).foldl (fun t x => tset 0 t (o + x.2) x.1) p.tile }

/-- IX[j]. -/
def Stoek.ixAt (p : Stoek) (j : Nat) : Nat := (tget 0 p.ix j).toNat

/-- Write IX from an index on. -/
def Stoek.putIx (p : Stoek) (o : Nat) (vs : List Nat) : Stoek :=
  { p with ix := (vs.zip (List.range vs.length)).foldl (fun t x => tset 0 t (o + x.2) (BitVec.ofNat 32 x.1)) p.ix }

/-- May a read of a program bind now: within its STKRUN's load entry, behind its older loads, not held by MARK or order (R114,
R279)? -/
def State.stoekReads (s : State) (k : Nat) (p : Stoek) : Bool :=
  s.outerLoad (.stoek k p.tag) && p.hart.loadTurn p.hart.po && p.hart.mayGo [] p.hart.po false .g

/-- Context and name of a program's accesses. -/
def Stoek.ctx (t : Task) (p : Stoek) : XCtx := { asid := t.asid, modeS := p.modeS, stepm := t.stepm, pins := p.pins }
def Stoek.who (t : Task) (p : Stoek) : Who := { unit := t.lg, tag := p.tag % 64, pc := p.hart.pc.toNat }

/-- The operation ends: a program in a new state, past its two words. -/
def State.stoekDone (s : State) (k : Nat) (t : Task) (p : Stoek) : Out :=
  .next (s.putTask k (t.putStoek { p with hart := p.hart.advance 8 }))

/-- The operation faults: nothing of it takes effect (R291). -/
def State.stoekStop (s : State) (k : Nat) (p : Stoek) (e : Stop) : Out :=
  match e with
  | .halt r => .fault r
  | .trap f => .next (s.stoekFault k p.tag f)

/-- BOUNDS of an operation. -/
def State.stoekBounds (s : State) (k : Nat) (p : Stoek) : Out := .next (s.stoekFault k p.tag (plainFault cBOUNDS))

/-! ## Indices (R281, R282) -/

def execIxrd (app : Bool) (d a b : Reg) (s : State) : Out :=
  s.onStoek fun k t p =>
    let h := p.hart
    if !h.ready [d, a, b] then .next s
    else
      let va := (h.x a).toNat
      let n := (h.x b).toNat
      let o := if app then p.ixn else 0
      if va % 4 ≠ 0 || n = 0 || 1024 < o + n then s.stoekBounds k p
      else if !s.stoekReads k p then .next s
      else
        let r := State.readUnits (p.ctx t) (p.who t) .package [] 4 [] ((List.range n).map (fun i => some ((va + 4 * i) % 2 ^ 64))) s
        match r.2 with
        | .error e => r.1.stoekStop k p e
        | .ok bs =>
          let p1 := p.putIx o ((List.range n).map (fun i => leNat ((bs.drop (4 * i)).take 4)))
          r.1.stoekDone k t { p1 with ixn := o + n, hart := h.setX d (BitVec.ofNat 64 (o + n)) }

/-- Position of a value in a list, if it is there. -/
def indexIn (v : Nat) : List Nat → Nat → Option Nat
  | [], _ => none
  | x :: xs, i => if x = v then some i else indexIn v xs (i + 1)

/-- The loop of R282: distinct values in order of first occurrence, and the map. -/
def dedup : List Nat → List Nat → List Nat → List Nat × List Nat
  | [], d, m => (d, m)
  | v :: vs, d, m =>
    match indexIn v d 0 with
    | some i => dedup vs d (m ++ [i])
    | none => dedup vs (d ++ [v]) (m ++ [d.length])

def execDdup (d : Reg) (mt : Bool) (line : BitVec 6) (s : State) : Out :=
  s.onStoek fun k t p =>
    if !p.hart.ready [d] then .next s
    else if mt && decide (tileSize < 128 * line.toNat + 2 * p.ixn) then s.stoekBounds k p
    else
      let r := dedup ((List.range p.ixn).map p.ixAt) [] []
      let u := r.1.length
      let map := (r.2.zip (List.range r.2.length)).foldl (fun m x => tset 0 m x.2 (BitVec.ofNat 16 x.1)) p.map
      let p1 := { p.putIx 0 r.1 with ixn := u, map := map, hart := p.hart.setX d (BitVec.ofNat 64 u) }
      s.stoekDone k t (if mt then p1.tilePut (128 * line.toNat) (r.2.flatMap (leBytes 2)) else p1)

/-! ## Rows (R283 to R287) -/

/-- What a row operation works on: descriptor, W, the indices. -/
structure RowOp where
  d : Desc
  td : Nat
  w : Nat
  ixs : List Nat
  deriving DecidableEq, Repr

/-- Bytes of one row. -/
def RowOp.bytes (o : RowOp) : Nat := o.w / fmtPerUnit o.d.fmt * fmtUnitBytes o.d.fmt

/-- The checks of R283 on operands and indices. -/
def Stoek.rowOp (p : Stoek) (td w : Nat) (a b : Reg) : Res RowOp :=
  let d := tget Desc.invalid p.descs td
  let pos := (p.hart.x a).toNat
  let c := (p.hart.x b).toNat
  let per := fmtPerUnit d.fmt
  if 1024 < c || p.ixn < pos + c || w = 0 || !d.valid || d.tree || d.ndim < 2 then raise (plainFault cBOUNDS)
  else if d.space ≠ .package then raise (plainFault cSCOPE)
  else if w % per ≠ 0 || d.org 0 % per ≠ 0 then raise (plainFault cBOUNDS)
  else
    let ixs := (List.range c).map (fun i => p.ixAt (pos + i))
    if ixs.any (fun v => decide (d.size 1 ≤ v)) then raise (plainFault cBOUNDS)
    else .ok { d := d, td := td, w := w, ixs := ixs }

/-- A row operation reads its descriptor: an uncorrectable error there ends the program with DATAERR, a correctable one is corrected
(R322, R323). -/
def State.rowReading (s : State) (k : Nat) (t : Task) (p : Stoek) (td : Nat) (f : State → Task → Out) : Out :=
  let n := { OwnReads.none with descs := [td] }
  if n.bad t then
    .next ((s.postOnChip 2 t.lg (p.tag % 64) p.hart.pc.toNat).stoekFault k p.tag (plainFault cDATAERR))
  else f (s.correctOwn k t n) (n.correct t).2

/-- The bytes of the rows, in order. -/
def State.readRows (s : State) (t : Task) (p : Stoek) (o : RowOp) : List Nat → State × Res (List (List Byte))
  | [] => (s, .ok [])
  | v :: vs =>
    let r := State.readUnits (p.ctx t) (p.who t) .package [] (fmtUnitBytes o.d.fmt) (fmtOutside o.d.fmt) (o.d.rowUnits v o.bytes) s
    match r.2 with
    | .error e => (r.1, .error e)
    | .ok bs =>
      let z := r.1.readRows t p o vs
      (z.1, z.2.map (bs :: ·))

/-- ROWLD (R284). -/
def execRowld (td : BitVec 6) (line : BitVec 6) (w : BitVec 16) (a b : Reg) (s : State) : Out :=
  s.onStoek fun k t p =>
    if !p.hart.ready [a, b] then .next s
    else
      s.rowReading k t p td.toNat fun s t =>
        match p.rowOp td.toNat w.toNat a b with
        | .error e => s.stoekStop k p e
        | .ok o =>
          let rl := ceilDiv o.bytes 128
          if 64 < line.toNat + o.ixs.length * rl then s.stoekBounds k p
          else if !s.stoekReads k p then .next s
          else
            let r := s.readRows t p o o.ixs
            match r.2 with
            | .error e => r.1.stoekStop k p e
            | .ok rows => r.1.stoekDone k t (p.tilePut (128 * line.toNat) (rows.flatMap (padTo (128 * rl))))

/-- An element of a row widened to fp32 or i32 (R54, R285). -/
def widen (fmt x : Nat) : Nat :=
  if fmt = 1 || fmt = 10 then x
  else if fmt = 6 then wrap 32 (signed 8 x)
  else match fmtFloat fmt with
    | some f => fp32.rnd .rne (f.val x)
    | none => x

/-- One element of POOL: from a start value and the rest of its column (R285). -/
def poolElem (isMax flt : Bool) (a0 : Nat) (ys : List Nat) : Nat :=
  ys.foldl (fun a y =>
    if flt then (if isMax then fp32.fmax a y else fp32.add .rne a y)
    else if isMax then (if signed 32 a ≥ signed 32 y then a else y) else (a + y) % 2 ^ 32) a0

/-- POOL.sum and POOL.max (R285); a NaN is delivered in the canonical form (R48). -/
def execPool (isMax acc : Bool) (td : BitVec 6) (line : BitVec 6) (w : BitVec 16) (a b : Reg) (s : State) : Out :=
  s.onStoek fun k t p =>
    if !p.hart.ready [a, b] then .next s
    else
      s.rowReading k t p td.toNat fun s t =>
        match p.rowOp td.toNat w.toNat a b with
        | .error e => s.stoekStop k p e
        | .ok o =>
          let lines := ceilDiv (4 * o.w) 128
          if !([1, 2, 3, 6, 10].contains o.d.fmt) || 64 < line.toNat + lines then s.stoekBounds k p
          else if !s.stoekReads k p then .next s
          else
            let r := s.readRows t p o o.ixs
            match r.2 with
            | .error e => r.1.stoekStop k p e
            | .ok rows =>
              let ub := fmtUnitBytes o.d.fmt
              let col (e : Nat) : List Nat := rows.map (fun x => widen o.d.fmt (leNat ((x.drop (e * ub)).take ub)))
              let out := (List.range o.w).map (fun e =>
                let flt := o.d.fmt ≤ 3
                if acc then poolElem isMax flt (leNat (p.tileBytes (128 * line.toNat + 4 * e) 4)) (col e)
                else match col e with
                  | [] => 0
                  | y :: ys => poolElem isMax flt y ys)
              let canon := if o.d.fmt ≤ 3 then out.map (fun x => fp32.rnd .rne (fp32.val x)) else out
              r.1.stoekDone k t (p.tilePut (128 * line.toNat) (padTo (128 * lines) (canon.flatMap (leBytes 4))))

/-- The elements of POOL.wadd in order: address of each inside element and its tile element (R286). -/
def RowOp.wadds (o : RowOp) (p : Stoek) (line : Nat) : List (Nat × BitVec 32) :=
  o.ixs.flatMap (fun v => ((o.d.rowUnits v (4 * o.w)).zip (List.range o.w)).filterMap (fun x =>
    x.1.map (fun va => (va, BitVec.ofNat 32 (leNat (p.tileBytes (128 * line + 4 * x.2) 4))))))

/-- Physical addresses of reductions on naturally aligned elements (R107). -/
def State.xlateReds (c : XCtx) : List (Nat × BitVec 32) → State → State × Res (List (Nat × Nat × BitVec 32))
  | [], s => (s, .ok [])
  | (va, x) :: r, s =>
    if va % 4 ≠ 0 then (s, raise (addrFault cBOUNDS va true))
    else
      let z := s.xlate c { space := .package, r := false, w := true, x := false } va 4
      match z.2 with
      | .error e => (z.1, .error e)
      | .ok p =>
        let q := State.xlateReds c r z.1
        (q.1, q.2.map ((va, p.2.headD 0, x) :: ·))

/-- POOL.wadd (R286): its reductions are one store entry. -/
def execPoolWadd (td : BitVec 6) (line : BitVec 6) (w : BitVec 16) (a b : Reg) (s : State) : Out :=
  s.onStoek fun k t p =>
    if !p.hart.ready [a, b] then .next s
    else
      s.rowReading k t p td.toNat fun s t =>
        match p.rowOp td.toNat w.toNat a b with
        | .error e => s.stoekStop k p e
        | .ok o =>
          if !([1, 10].contains o.d.fmt) || 64 < line.toNat + ceilDiv (4 * o.w) 128 ||
              !o.ixs.all (fun v => p.triples.contains (o.td, o.w, v)) then s.stoekBounds k p
          else
            let els := o.wadds p line.toNat
            let z := State.xlateReds (p.ctx t) els s
            match z.2 with
            | .error e => if s.behindMark (.stoek k p.tag) p.hart then .next s else z.1.stoekStop k p e
            | .ok ps =>
              let op : RedOp := if o.d.fmt = 1 then .fadd32 else .add
              let e : StoreEntry := { po := p.hart.po, kind := .reds op ps p.hart.pc, acq := false,
                                      rel := false, begun := false, atK := false }
              z.1.stoekDone k t { p with hart := { p.hart with stores := p.hart.stores ++ [e] }.nextPo }

/-- The pages that the rows of a PROBE touch, each pinned once (R96, R287). -/
def State.probeRows (c : XCtx) (ub : Nat) : List (Option Nat) → List Pin → State → State × Res (List Pin)
  | [], ps, s => (s, .ok ps)
  | none :: r, ps, s => State.probeRows c ub r ps s
  | some va :: r, ps, s =>
    let x : Access := { space := .package, r := false, w := true, x := false }
    let p1 := s.pinAt c x ps va
    match p1.2 with
    | .error e => (p1.1, .error e)
    | .ok ps1 =>
      let p2 := p1.1.pinAt c x ps1 (lastPage va ub)
      match p2.2 with
      | .error e => (p2.1, .error e)
      | .ok ps2 => State.probeRows c ub r ps2 p2.1

/-- Does a page hold a byte of one of these units? -/
def touchedBy (ub : Nat) (units : List (Option Nat)) (p : Pin) : Bool :=
  units.any (fun u => match u with
    | some va => overlap (va, ub) (p.va, p.size)
    | none => false)

/-- PROBE (R287): BOUNDS where the pages of its own rows are too many, a wait where those of its gnoum are. -/
def execProbe (td : BitVec 6) (w : BitVec 16) (a b : Reg) (s : State) : Out :=
  s.onStoek fun k t p =>
    if !p.hart.ready [a, b] then .next s
    else
      s.rowReading k t p td.toNat fun s t =>
        match p.rowOp td.toNat w.toNat a b with
        | .error e => s.stoekStop k p e
        | .ok o =>
          if !s.stoekReads k p then .next s
          else
            let ub := fmtUnitBytes o.d.fmt
            let units := o.ixs.flatMap (fun v => o.d.rowUnits v o.bytes)
            let z := State.probeRows (p.ctx t) ub units p.pins s
            match z.2 with
            | .error e => z.1.stoekStop k p e
            | .ok ps =>
              if 8192 < (ps.filter (touchedBy ub units)).length then s.stoekBounds k p
              else if 8192 < s.pinnedAt t.lg + (ps.length - p.pins.length) then .next s
              else
                let tr := (o.ixs.map (fun v => (o.td, o.w, v))).filter (fun x => !p.triples.contains x)
                z.1.stoekDone k t { p with pins := ps, triples := p.triples ++ tr.eraseDups }

/-- UNPIN (R287). A POOL.wadd that is still to perform goes on with the translation its pins gave, and holds a TLBSYNC on it (R366). -/
def execUnpin (s : State) : Out :=
  s.onStoek fun k t p => (s.notePins k t p).stoekDone k t { p with pins := [], triples := [] }

/-! ## Tiles and the end (R288 to R290) -/

/-- SQW (R288). -/
def execSqw (sz : Sz) (a b : Reg) (off : BitVec 13) (s : State) : Out :=
  s.onStoek fun k t p =>
    if !p.hart.ready [a, b] then .next s
    else
      let o := (p.hart.x a + off.setWidth 64).toNat
      let n := szBytes sz
      if tileSize < o + n then s.stoekBounds k p
      else s.stoekDone k t (p.tilePut o (leBytes n (p.hart.x b).toNat))

/-- EMIT (R289): append a tile, a mark or both when the queue has room for all of it. -/
def execEmit (e eos : Bool) (s : State) : Out :=
  s.onStoek fun k t p =>
    match p.ring with
    | none => s.stoekBounds k p
    | some n =>
      let tile := Delivery.tile (p.tileBytes 0 (128 * (t.ring n).slotsz))
      let new := if eos then [Delivery.mark] else if e then [tile, .mark] else [tile]
      if 32 < p.delivery.length + new.length then .next s
      else s.stoekDone k t { p with delivery := p.delivery ++ new }

/-- SKEND (R290): no further instruction; STREAM_COMPLETE ends the STKRUN once stores and deliveries are through. -/
def execSkend (s : State) : Out :=
  s.onStoek fun k t p => .next (s.putTask k (t.putStoek { p with ending := .skend }))

/-- STOEK_PUBLISH (R289): the oldest delivery goes into a free slot of the ring. An uncorrectable error in the ring's state ends the program
with DATAERR (R322, R323); its deliveries are lost and the fault has the program's present pc, the model's choice (log 56). -/
def execStoekPublish (k tag : Nat) (s : State) : Out :=
  match s.task? k with
  | none => .next s
  | some t =>
    match t.stoek? tag with
    | none => .next s
    | some p =>
      match p.ring, p.delivery with
      | some n, x :: rest =>
        let own := { OwnReads.none with rings := [n] }
        if !t.onChip then .next s
        else if own.bad t then
          .next (((s.postOnChip 2 t.lg (p.tag % 64) p.hart.pc.toNat).putTask k
            (t.putStoek { p with delivery := [] })).deferFault (.stoek k tag) (plainFault cDATAERR) p.hart.pc)
        else
          let s1 := s.correctOwn k t own
          let t0 := (own.correct t).2
          let r := t0.ring n
          if r.free = 0 then .next s1
          else
            let p1 := { p with delivery := rest, published := p.published + 1 }
            let t1 := match x with
              | .tile bs => ({ t0 with srf := srfWrite t0.srf (r.slot r.tail) bs }).heal (r.slot r.tail) bs.length
              | .mark => t0
            .next (s1.putTask k ((t1.putStoek p1).setRing n (r.publish 1 (x == .mark))))
      | _, _ => .next s

end Sys2Proof.Machine
end

