-- ==== Sys2Proof/Machine/Context.lean ====
section
/-! DEFINITION. The context of a task, written and read back (18 R350). What R350 leaves open (a loop stack entry, the order of the Stoek
section, and what a task must keep that its table gives no place) has a layout of the model's own, at the end of the Stoek section (log
30). -/

namespace Sys2Proof.Machine

/-! ## Writing -/

/-- Zero bytes. -/
def zeros (n : Nat) : List Byte := List.replicate n 0

/-- Supervisory context registers at first placement (R18, R314). -/
def Sup.first (svec : Word) : Sup :=
  { mode := false, pmode := false, exl := false, ecause := 0, epc := 0, efpc := 0, eva := 0, ssave0 := 0, ssave1 := 0,
    ssave2 := 0, ssave3 := 0, svec := svec, dtag := 0, pend := false }

/-- What R18 gives a task at its first placement. -/
def State.firstPlaced (s : State) (t : Task) : Task :=
  { t with sup := Sup.first (BitVec.ofNat 64 (s.preg 0x216)), hart := t.hart.setX 13 (BitVec.ofNat 64 s.podRank) }

/-- STATUS as a word (R314). -/
def Sup.status (u : Sup) : Nat := b2n u.mode + 2 * b2n u.pmode + 4 * b2n u.exl

/-- A descriptor's 96 bytes. -/
def descBytes (d : Desc) : List Byte :=
  padTo 96 (leBytes 64 d.im ++ (List.range 7).flatMap (fun k => leBytes 4 (tget 0 d.orgs k).toNat) ++ leBytes 1 (b2n d.valid))

/-- A ring's 64 bytes. -/
def ringBytes (r : Ring) : List Byte :=
  padTo 64 (leBytes 8 (r.base % 2 ^ 22 + r.slotsz * 2 ^ 22 + r.nslot * 2 ^ 32 + r.filled * 2 ^ 41 + r.free * 2 ^ 50 + b2n r.cfg * 2 ^ 59) ++
    leBytes 8 (r.head + 256 * r.tail) ++ leBytes 32 r.eos.toNat)

/-- A tag's 32 bytes. -/
def tagBytes (t : TagInfo) : List Byte :=
  leBytes 8 t.status.toNat ++ leBytes 8 t.dpc.toNat ++ leBytes 8 t.dva.toNat ++ zeros 8

/-- A queued instruction's 256 bytes. -/
def qinstrBytes (q : QInstr) : List Byte :=
  padTo 8 (encodeBytes q.ins) ++ leBytes 8 (q.tag % 64 + 64 * b2n q.started + 128 * b2n q.fault.isSome) ++ leBytes 8 q.resume ++
    padTo 104 ((q.ops.take 8).flatMap (fun w => leBytes 8 w.toNat)) ++ padTo 128 q.blk

/-- A loop stack entry's 32 bytes: START, END, kind and index register, iteration, limits. -/
def loopBytes (e : LoopEntry) : List Byte :=
  let k : Nat × Nat × Nat := match e.kind with
    | .counted n => (0, 0, n)
    | .ptr f n => (1, f, n)
    | .eos n => (2, n, 0)
  leBytes 2 e.start ++ leBytes 2 e.last ++ leBytes 1 k.1 ++ leBytes 1 (match e.kd with | some d => 128 + d | none => 0) ++ zeros 2 ++
    leBytes 8 e.iter ++ leBytes 8 k.2.1 ++ leBytes 8 k.2.2

/-- Register numbers below n that a mask names. -/
def maskRegs (n mask : Nat) : List Nat := (List.range n).filter mask.testBit

/-- The kernel record of a forced save with its safe-point entry (R350). -/
def kernelBytes (k : Kernel) : List Byte :=
  let entry := k.entry
  let head := k.pc + k.tag % 64 * 2 ^ 13 + b2n k.flags.inv * 2 ^ 19 + b2n k.flags.sat * 2 ^ 20 + b2n k.flags.i4bad * 2 ^ 21 +
    b2n k.flags.t5bad * 2 ^ 22 + b2n k.t5trap * 2 ^ 23 + min k.count 524287 * 2 ^ 24
  let clusters := (List.range 16).flatMap (fun c =>
    (List.range 16).flatMap (fun r => leBytes 16 (elem (tget 0 k.p r).toNat 128 c)) ++
    (maskRegs 256 (recField entry 0x08 32)).flatMap (fun r => leBytes 128 (elem (tget 0 k.v r).toNat 1024 c)) ++
    (maskRegs 32 (recField entry 0x38 4)).flatMap (fun r => leBytes 1024 (elem (tget 0 k.m r).toNat 8192 c)) ++
    (maskRegs 128 (recField entry 0x28 16)).flatMap (fun r => leBytes 128 (elem (tget 0 k.bench r).toNat 1024 c)))
  padTo 0x300 (padTo 16 (leBytes 8 head) ++ padTo 128 entry ++ (List.range 32).flatMap (fun r => leBytes 8 (tget 0 k.k r).toNat) ++
    padTo 8 [BitVec.ofNat 8 ((maskRegs 8 255).foldl (fun a r => a + b2n (tget false k.q r) * 2 ^ r) 0)] ++
    padTo 256 (k.loops.flatMap loopBytes) ++ (List.range 8).flatMap (fun r => leBytes 8 (tget 0 k.g r).toNat) ++
    (List.range 16).flatMap (fun r => leBytes 2 (tget 0 k.seen r)) ++ leBytes 8 k.loops.length) ++ clusters

/-- The Stoek record of a program: fixed part, then deliveries, then triples. -/
def stoekBytes (p : Stoek) (slot : Nat) : List Byte :=
  leBytes 8 p.tag ++ leBytes 8 p.hart.pc.toNat ++ (List.range 32).flatMap (fun r => leBytes 8 (tget 0 p.hart.xs r).toNat) ++
    leBytes 8 p.ixn ++ leBytes 8 p.published ++ leBytes 8 p.delivery.length ++ leBytes 8 p.triples.length ++
    leBytes 8 (match p.ring with | some n => n + 1 | none => 0) ++ leBytes 8 slot ++ (List.range 1024).flatMap (fun i => leBytes 4 (p.ixAt i)) ++ (List.range 1024).flatMap (fun i => leBytes 2 (tget 0 p.map i).toNat) ++
    p.tileBytes 0 tileSize ++
    p.delivery.flatMap (fun d => match d with
      | .tile bs => leBytes 8 1 ++ padTo (128 * slot) bs
      | .mark => leBytes 8 0 ++ zeros (128 * slot)) ++
    p.triples.flatMap (fun t => leBytes 8 t.1 ++ leBytes 8 t.2.1 ++ leBytes 8 t.2.2)

/-- Lines of a delivery slot of a program. -/
def Task.stoekSlot (t : Task) (p : Stoek) : Nat := match p.ring with | some n => (t.ring n).slotsz | none => 0

/-! ## The model's own part of the Stoek section (log 30) -/

/-- Numbers of 8 bytes behind their count. -/
def natsBytes (l : List Nat) : List Byte := leBytes 8 l.length ++ l.flatMap (leBytes 8)

/-- Descriptors with their numbers behind their count. -/
def descsBytes (l : Tbl Desc) : List Byte := leBytes 8 l.length ++ l.flatMap (fun e => leBytes 8 e.1 ++ descBytes e.2)

def scopeCode : Scope → Nat
  | .g => 0
  | .k => 1
  | .h => 2

/-- A fault as numbers. -/
def FaultInfo.nats (f : FaultInfo) : List Nat := [f.code.toNat, (f.va.getD 0).toNat, b2n f.va.isSome, b2n f.wr]

/-- The numbers that a table of errors holds. -/
def tblNats (t : Tbl Nat) : List Nat := t.flatMap (fun e => [e.1, e.2])

/-- What R350 gives no place of a queued instruction: its whole issue number among it, of which its tag is the low part (R22). -/
def QInstr.ownNats (q : QInstr) : List Nat :=
  [q.pc.toNat, b2n q.modeS, q.count, b2n q.ended, b2n q.begun, b2n q.entered, q.asked, b2n q.taken] ++
    (match q.fault with
     | some f => 1 :: f.nats
     | none => [0, 0, 0, 0, 0]) ++ (q.tag + 1) :: q.got.flatMap (fun e => [e.1, e.2.toNat])

/-- How a program stands, as numbers. -/
def StoekEnd.nats : StoekEnd → List Nat
  | .running => [0, 0, 0, 0, 0]
  | .skend => [1, 0, 0, 0, 0]
  | .fault c pc va => [2, c.toNat, pc.toNat, (va.getD 0).toNat, b2n va.isSome]
  | .cancel => [3, 0, 0, 0, 0]

/-- What R350 gives no place of a task: arrivals that are owed, the issue number of its next instruction, MARKs with the number of queued
instructions before them, the order of the stream entries of the memory queues, late faults, errors of descriptors and rings, tags with
DVAV. -/
def Task.ownNats (t : Task) : List (List Nat) :=
  [[b2n t.stepOwed, b2n t.counted, b2n t.fresh, match t.gbarWait with | some g => g + 1 | none => 0, b2n t.full, t.nextTag + 1],
   t.owed.flatMap (fun e => [e.1, e.2.toNat]),
   t.hart.marks.flatMap (fun m => [(t.sq.filter (fun q => decide (q.po < m.1))).length, scopeCode m.2]),
   t.hart.loads.flatMap (fun e => match e.kind with
     | .stream n => [n, b2n e.begun]
     | _ => []),
   t.hart.stores.flatMap (fun e => match e.kind with
     | .stream n => [n, b2n e.begun]
     | _ => []),
   t.deferred.flatMap (fun d => d.1.nats ++ [d.2.toNat]),
   tblNats t.dbad, tblNats t.rbad,
   (t.tags.filter (·.2.dvav)).map (·.1)]

/-- What R349 gives no place of a task's launch and of the step: the index and the address of the launch's record, and the logical gnoums that
step-member tasks have left in the step. -/
def State.ownNats (s : State) (t : Task) : List (List Nat) :=
  [match tfind s.disp.launches t.launch with
   | some la => [la.recIdx, la.recpa]
   | none => [], s.disp.stepFreed]

/-- How many lists of numbers the model's own part holds. -/
def ownLists : Nat := 11

def Task.ownBytes (t : Task) (more : List (List Nat)) : List Byte :=
  (t.ownNats ++ more).flatMap natsBytes ++ t.sq.flatMap (fun q => natsBytes q.ownNats ++ descsBytes q.descs) ++
    t.stoeks.flatMap (fun p => natsBytes (b2n p.modeS :: p.ending.nats) ++ descsBytes p.descs)

/-- The context of a task; `budget` is what is left of it, `more` what its package adds to the model's own part (R350). -/
def Task.contextBytes (t : Task) (budget : Nat) (more : List (List Nat)) : List Byte :=
  let kern := match t.kern with
    | some k => if t.ksaved then kernelBytes k else []
    | none => []
  let stk := t.stoeks.flatMap (fun p => stoekBytes p (t.stoekSlot p)) ++ t.ownBytes more
  let flags := b2n t.ksaved + 2 * b2n (t.sq.any (fun q => q.fault.isSome)) + 4 * b2n t.stepm + 8 * b2n t.arrived +
    16 * b2n t.gbarWait.isSome + 32 * b2n t.inStepWait
  let head := padTo 64 (leBytes 2 t.lg ++ leBytes 2 t.launch ++ leBytes 2 t.index ++ leBytes 2 t.foot ++ leBytes 4 flags ++ leBytes 4 budget ++
    leBytes 8 t.seq ++ leBytes 1 (t.nextTag % 64) ++ leBytes 1 t.sq.length ++ leBytes 1 t.stoeks.length ++ zeros 5 ++
    leBytes 8 kern.length ++ leBytes 8 stk.length ++ leBytes 8 (0xC000 + t.srfSize + kern.length + stk.length))
  let sup := padTo 128 (([t.hart.pc.toNat, t.sup.status, t.sup.ecause.toNat, t.sup.epc.toNat, t.sup.efpc.toNat, t.sup.eva.toNat,
    t.sup.ssave0.toNat, t.sup.ssave1.toNat, t.sup.ssave2.toNat, t.sup.ssave3.toNat, t.sup.svec.toNat, t.sup.dtag.toNat,
    b2n t.sup.pend]).flatMap (leBytes 8))
  let groups := padTo 64 ((List.range 4).flatMap (fun i => match t.groups[i]? with
    | some g => leBytes 1 g.1 ++ leBytes 1 (b2n g.2)
    | none => leBytes 2 0xFFFF))
  padTo 0xC000 (padTo 0x7000 (padTo 0x3000 (head ++ (List.range 32).flatMap (fun r => leBytes 8 (t.hart.x (BitVec.ofNat 5 r)).toNat) ++ sup ++ groups ++
      (List.range 64).flatMap (fun i => descBytes (tget Desc.invalid t.descs i)) ++ (List.range 16).flatMap (fun i => ringBytes (t.ring i)) ++
      (List.range 64).flatMap (fun i => tagBytes (t.tag i))) ++
      (List.range 16).flatMap (fun c => (List.range 8).flatMap (fun r => leBytes 128 (elem (tget 0 t.dregs r).toNat 1024 c)))) ++
      t.sq.flatMap qinstrBytes) ++
    (List.range (t.srfSize / 128)).flatMap (fun l => leBytes 128 (tget 0 t.srf l).toNat) ++ kern ++ stk

/-- The context that a task has when it is saved; one that was never placed has that of its first placement (R18, R350). The budget left is
open (log 2). -/
def State.contextBytes (s : State) (t : Task) (c : Nat) : List Byte :=
  (if t.fresh then { s.firstPlaced t with fresh := true } else t).contextBytes (Config.freeNat c % (t.budget + 1)) (s.ownNats t)

/-! ## Reading back -/

/-- n bytes at an offset of a string. -/
def slice (b : List Byte) (o n : Nat) : List Byte := (b.drop o).take n

/-- A sparse table of n entries by a reader, those equal to the default left out. -/
def readTbl {α : Type} [DecidableEq α] (d : α) (n : Nat) (f : Nat → α) : Tbl α :=
  (List.range n).filterMap (fun i => if f i = d then none else some (i, f i))

def readDesc (b : List Byte) (o : Nat) : Desc :=
  { image := BitVec.ofNat 512 (recField b o 64), orgs := readTbl 0 7 (fun k => BitVec.ofNat 32 (recField b (o + 64 + 4 * k) 4)),
    valid := recField b (o + 92) 1 != 0 }

def readRing (b : List Byte) (o : Nat) : Ring :=
  let w := recField b o 8
  { cfg := bit w 59, base := bits w 21 0, slotsz := bits w 31 22, nslot := bits w 40 32, filled := bits w 49 41, free := bits w 58 50,
    head := recField b (o + 8) 1, tail := recField b (o + 9) 1, eos := BitVec.ofNat 256 (recField b (o + 16) 32) }

def readTag (b : List Byte) (o : Nat) : TagInfo :=
  { status := BitVec.ofNat 64 (recField b o 8), dpc := BitVec.ofNat 64 (recField b (o + 8) 8), dva := BitVec.ofNat 64 (recField b (o + 16) 8),
    dvav := recField b (o + 16) 8 != 0 }

/-- The issue number of a tag, given the number of the next instruction: the latest that has this tag. -/
def fullTag (next t6 : Nat) : Nat := next - 1 - (next - 1 + 64 - t6) % 64

/-- Numbers behind their count, and the bytes that follow. -/
def readNats (b : List Byte) : List Nat × List Byte :=
  let n := min (recField b 0 8) (b.length / 8)
  ((List.range n).map (fun i => recField b (8 + 8 * i) 8), b.drop (8 + 8 * n))

def readDescs (b : List Byte) : Tbl Desc × List Byte :=
  let n := min (recField b 0 8) (b.length / 104)
  ((List.range n).map (fun i => (recField b (8 + 104 * i) 8, readDesc b (16 + 104 * i))), b.drop (8 + 104 * n))

/-- Several lists of numbers one behind the other. -/
def readLists : Nat → List Byte → List (List Nat) × List Byte
  | 0, b => ([], b)
  | n + 1, b =>
    let x := readNats b
    let r := readLists n x.2
    (x.1 :: r.1, r.2)

/-- Groups of k numbers of a list. -/
def groupsOf (k : Nat) (l : List Nat) : List (List Nat) := (List.range (l.length / k)).map (fun i => (l.drop (k * i)).take k)

def scopeOf : Nat → Scope
  | 0 => .g
  | 1 => .k
  | _ => .h

def readFault (l : List Nat) : FaultInfo :=
  { code := BitVec.ofNat 8 (l.getD 0 0), va := if l.getD 2 0 = 0 then none else some (BitVec.ofNat 64 (l.getD 1 0)), wr := l.getD 3 0 != 0 }

def readEnd (l : List Nat) : StoekEnd :=
  match l.getD 0 0 with
  | 0 => .running
  | 1 => .skend
  | 2 => .fault (BitVec.ofNat 8 (l.getD 1 0)) (BitVec.ofNat 64 (l.getD 2 0)) (if l.getD 4 0 = 0 then none else some (BitVec.ofNat 64 (l.getD 3 0)))
  | _ => .cancel

def readErrs (l : List Nat) : Tbl Nat := (groupsOf 2 l).map (fun g => (g.getD 0 0, g.getD 1 0))

/-- A queued instruction at its place in program order; it is not running. -/
def readQ (b : List Byte) (o next po : Nat) : Option QInstr :=
  match decodeWords (BitVec.ofNat 32 (recField b o 4)) (BitVec.ofNat 32 (recField b (o + 4) 4)) with
  | .error _ => none
  | .ok i =>
    let f := recField b (o + 8) 8
    some { tag := fullTag next (bits f 5 0), ins := i, pc := 0, po := po, modeS := false,
           ops := (List.range 8).map (fun k => BitVec.ofNat 64 (recField b (o + 0x18 + 8 * k) 8)), blk := slice b (o + 0x80) 128,
           started := bit f 6, running := false, entered := false, begun := false, ended := false, asked := 0, resume := recField b (o + 0x10) 8,
           count := 0, desc := Desc.invalid, descs := [], pins := [], resv := 0, fault := none, taken := false, got := [] }

/-- The instruction with the model's own numbers of it. -/
def QInstr.withOwn (q : QInstr) (l : List Nat) (d : Tbl Desc) : QInstr :=
  { q with tag := if l.getD 13 0 = 0 then q.tag else l.getD 13 0 - 1,
           got := (groupsOf 2 (l.drop 14)).map (fun g => (g.getD 0 0, BitVec.ofNat 8 (g.getD 1 0))), pc := BitVec.ofNat 64 (l.getD 0 0), modeS := l.getD 1 0 != 0, count := l.getD 2 0, ended := l.getD 3 0 != 0,
           begun := l.getD 4 0 != 0, entered := l.getD 5 0 != 0, asked := l.getD 6 0, taken := l.getD 7 0 != 0,
           fault := if l.getD 8 0 = 0 then none else some (readFault (l.drop 9)), descs := d }

/-- The own parts of queued instructions, one behind the other. -/
def readOwnQ : List QInstr → List Byte → List QInstr × List Byte
  | [], b => ([], b)
  | q :: r, b =>
    let x := readNats b
    let d := readDescs x.2
    let z := readOwnQ r d.2
    (q.withOwn x.1 d.1 :: z.1, z.2)

/-- The own parts of programs, one behind the other. -/
def readOwnP : List Stoek → List Byte → List Stoek
  | [], _ => []
  | p :: r, b =>
    let x := readNats b
    let d := readDescs x.2
    { p with modeS := x.1.getD 0 0 != 0, ending := readEnd (x.1.drop 1), descs := d.1 } :: readOwnP r d.2

def readLoop (b : List Byte) (o : Nat) : LoopEntry :=
  let kd := recField b (o + 5) 1
  let x := recField b (o + 16) 8
  let y := recField b (o + 24) 8
  { start := recField b o 2, last := recField b (o + 2) 2,
    kind := match recField b (o + 4) 1 with | 0 => .counted y | 1 => .ptr x y | _ => .eos x,
    iter := recField b (o + 8) 8, kd := if 128 ≤ kd then some (kd - 128) else none }

/-- The kernel of a kernel record; its issue number and its binding block are those of its KRUN. -/
def readKernel (b : List Byte) (tag : Nat) (blk : List Byte) : Kernel :=
  let head := recField b 0 8
  let entry := slice b 0x10 128
  let vs := maskRegs 256 (recField entry 0x08 32)
  let ms := maskRegs 32 (recField entry 0x38 4)
  let bs := maskRegs 128 (recField entry 0x28 16)
  let size := 256 + 128 * vs.length + 1024 * ms.length + 128 * bs.length
  let wide (f : Nat → Nat) (w : Nat) : Nat := packElems w ((List.range 16).map f)
  { tag := tag, pc := bits head 12 0, t5trap := bit head 23, count := bits head 42 24, binds := blockBindings blk,
    cons := blockCons blk, prod := blockProd blk, k := readTbl 0 32 (fun r => BitVec.ofNat 64 (recField b (0x90 + 8 * r) 8)),
    q := readTbl false 8 (fun r => bit (recField b 0x190 1) r),
    v := readTbl 0 256 (fun r => match indexIn r vs 0 with
      | some i => BitVec.ofNat 16384 (wide (fun c => recField b (0x300 + size * c + 256 + 128 * i) 128) 1024)
      | none => 0),
    p := readTbl 0 16 (fun r => BitVec.ofNat 2048 (wide (fun c => recField b (0x300 + size * c + 16 * r) 16) 128)),
    m := readTbl 0 32 (fun r => match indexIn r ms 0 with
      | some i => BitVec.ofNat 131072 (wide (fun c => recField b (0x300 + size * c + 256 + 128 * vs.length + 1024 * i) 1024) 8192)
      | none => 0),
    bench := readTbl 0 128 (fun r => match indexIn r bs 0 with
      | some i => BitVec.ofNat 16384 (wide (fun c => recField b (0x300 + size * c + 256 + 128 * vs.length + 1024 * ms.length + 128 * i) 128) 1024)
      | none => 0),
    loops := (List.range (min 8 (recField b 0x2F8 8))).map (fun i => readLoop b (0x198 + 32 * i)),
    flags := { inv := bit head 19, sat := bit head 20, i4bad := bit head 21, t5bad := bit head 22 },
    g := readTbl 0 8 (fun r => BitVec.ofNat 64 (recField b (0x298 + 8 * r) 8)), seen := readTbl 0 16 (fun r => recField b (0x2D8 + 2 * r) 2),
    inflight := [], occV0 := 0, occV1 := 0, occM := 0, loopWait := none,
    entry := entry, vbad := [], mbad := [], bbad := [] }

/-- Bytes of a Stoek record before its deliveries. -/
def stoekFixed : Nat := 320 + 4096 + 2048 + 8192

/-- Read Stoek records one behind the other, and the bytes that follow. A restored program has no core yet (R275, R351). -/
def readStoeks : Nat → List Byte → List Stoek × List Byte
  | 0, b => ([], b)
  | n + 1, b =>
    let ring := recField b 304 8
    let slot := recField b 312 8
    let nd := recField b 288 8
    let nt := recField b 296 8
    let o := stoekFixed + nd * (8 + 128 * slot)
    let p : Stoek :=
      { tag := recField b 0 8, core := false, ring := if ring = 0 then none else some (ring - 1),
        hart := { Hart.empty with pc := BitVec.ofNat 64 (recField b 8 8) &&& ~~~3#64, xs := readTbl 0 32 (fun r => BitVec.ofNat 64 (recField b (16 + 8 * r) 8)) },
        ix := readTbl 0 1024 (fun i => BitVec.ofNat 32 (recField b (320 + 4 * i) 4)), ixn := recField b 272 8,
        map := readTbl 0 1024 (fun i => BitVec.ofNat 16 (recField b (4416 + 2 * i) 2)),
        tile := readTbl 0 tileSize (fun i => BitVec.ofNat 8 (recField b (6464 + i) 1)),
        delivery := (List.range nd).map (fun i => let a := stoekFixed + i * (8 + 128 * slot)
          if recField b a 8 = 1 then .tile (slice b (a + 8) (128 * slot)) else .mark),
        pins := [], triples := (List.range nt).map (fun i => (recField b (o + 24 * i) 8, recField b (o + 24 * i + 8) 8, recField b (o + 24 * i + 16) 8)),
        published := recField b 280 8, descs := [], modeS := false, ending := .running }
    let z := readStoeks n (b.drop (o + 24 * nt))
    (p :: z.1, z.2)

/-- The kernel that a context holds, if it was saved by a forced save. -/
def Task.readKernel (t : Task) (saved : Bool) (kb : List Byte) : Task :=
  match if saved then t.sq.find? (fun q => isKrun q.ins && q.started && q.tag % 64 = bits (recField kb 0 8) 18 13) else none with
  | some k =>
    { t with ksaved := true, kern := some (Machine.readKernel kb k.tag k.blk),
             sq := t.sq.map (fun q => if q.tag = k.tag then { q with running := true } else q) }
  | none => t

/-- The task with the model's own lists of it. `place` gives the place in program order of a tag. -/
def Task.withOwn (t : Task) (l : List (List Nat)) : Task :=
  let nth (i : Nat) : List Nat := l.getD i []
  let place (n : Nat) : Nat := ((t.queued? n).map (·.po)).getD 0
  { t with stepOwed := (nth 0).getD 0 0 != 0, counted := (nth 0).getD 1 0 != 0, fresh := (nth 0).getD 2 0 != 0, full := (nth 0).getD 4 0 != 0,
           nextTag := if (nth 0).getD 5 0 = 0 then t.nextTag else (nth 0).getD 5 0 - 1,
           owed := (groupsOf 2 (nth 1)).map (fun g => (g.getD 0 0, BitVec.ofNat 64 (g.getD 1 0))),
           gbarWait := if t.gbarWait.isSome && (nth 0).getD 3 0 != 0 then some ((nth 0).getD 3 0 - 1) else none,
           hart := { t.hart with
             marks := (groupsOf 2 (nth 2)).map (fun g => (2 * g.getD 0 0, scopeOf (g.getD 1 0))),
             loads := (groupsOf 2 (nth 3)).map (fun g => let n := g.getD 0 0
               { po := place n, kind := .stream n, acq := false, rel := false, begun := g.getD 1 0 != 0 }),
             stores := (groupsOf 2 (nth 4)).map (fun g => let n := g.getD 0 0
               { po := place n, kind := .stream n, acq := false, rel := false, begun := g.getD 1 0 != 0, atK := false }) },
           deferred := (groupsOf 5 (nth 5)).map (fun g => (readFault g, BitVec.ofNat 64 (g.getD 4 0))),
           dbad := readErrs (nth 6), rbad := readErrs (nth 7),
           tags := t.tags.map (fun e => (e.1, { e.2 with dvav := (nth 8).contains e.1 })) }

/-- The task of a context, with its launch, and the package's lists of the model's own part (R350). Bits that R312 and R315 reserve read zero whatever the image holds (R8). -/
def readContext (b : List Byte) (la : Launch) (seq now : Nat) : Task × List (List Nat) :=
  let next := 64 + recField b 0x18 1
  let flags := recField b 8 4
  let x (o : Nat) : Word := BitVec.ofNat 64 (recField b o 8)
  let nq := recField b 0x19 1
  let foot := recField b 6 1
  let kb := b.drop (0xC000 + foot * 2 ^ 18)
  let status := (x 0x148).toNat
  let groups := (List.range 4).filterMap (fun i => let w := recField b (0x1C0 + 2 * i) 2
    if w = 0xFFFF then none else some (w % 256, w / 256 != 0))
  let t : Task :=
    { launch := recField b 2 1, index := recField b 4 2, lg := recField b 0 2, foot := foot, stepm := bit flags 2, asid := la.asid,
      gpermit := BitVec.ofNat 64 (recField la.record 0x10 8), prio := recField la.record 0x0B 1 % 8, budget := recField la.record 0x0C 4,
      run := .ready none, readySeq := seq, readyAt := now, since := now, fresh := false,
      hart := { Hart.empty with pc := x 0x140 &&& ~~~3#64, xs := readTbl 0 32 (fun r => if r = 0 then 0 else x (0x40 + 8 * r)), po := 2 * nq + 2 },
      sup := { mode := bit status 0, pmode := bit status 1, exl := bit status 2, ecause := BitVec.ofNat 64 ((x 0x150).toNat % 2 ^ 27),
               epc := x 0x158 &&& ~~~3#64, efpc := x 0x160, eva := x 0x168, ssave0 := x 0x170, ssave1 := x 0x178, ssave2 := x 0x180,
               ssave3 := x 0x188, svec := x 0x190 &&& ~~~63#64, dtag := BitVec.ofNat 6 (recField b 0x198 8),
               pend := recField b 0x1A0 8 % 2 == 1 },
      groups := groups, owed := [], gbarWait := if bit flags 4 then some 0 else none, inStepWait := bit flags 5, stepOwed := false,
      full := false, arrived := bit flags 3, counted := true, seq := recField b 0x10 8, halting := false, doubled := false, deferred := [],
      srf := readTbl 0 (foot * 2048) (fun l => BitVec.ofNat 1024 (recField b (0xC000 + 128 * l) 128)),
      descs := readTbl Desc.invalid 64 (fun i => readDesc b (0x200 + 96 * i)), rings := readTbl Ring.none 16 (fun i => readRing b (0x1A00 + 64 * i)),
      tags := readTbl TagInfo.fresh 64 (fun i => readTag b (0x1E00 + 32 * i)), nextTag := next,
      dregs := readTbl 0 8 (fun r => BitVec.ofNat 16384 (packElems 1024 ((List.range 16).map (fun c => recField b (0x3000 + 1024 * c + 128 * r) 128)))),
      sq := (List.range nq).filterMap (fun i => readQ b (0x7000 + 256 * i) next (2 * i + 1)),
      kern := none, ksaved := false, stoeks := [], sbad := [], dbad := [], rbad := [] }
  let ps := readStoeks (recField b 0x1A 1) (kb.drop (recField b 0x20 8))
  let own := readLists ownLists ps.2
  let qs := readOwnQ t.sq own.2
  let t1 := { t with sq := qs.1.map (fun (q : QInstr) => if ps.1.any (fun p => p.tag = q.tag) then { q with running := true } else q),
                     stoeks := readOwnP ps.1 qs.2 }
  ((t1.withOwn own.1).readKernel (bit flags 0) kb, own.1.drop 9)

def readTask (b : List Byte) (la : Launch) (seq now : Nat) : Task := (readContext b la seq now).1

end Sys2Proof.Machine
end

