-- ==== Sys2Proof/Machine/LaunchUnit.lean ====
section
/-! DEFINITION. The dispatch unit: launch queues, admission, placement, switching and saving (01 R13 to R18; 18 R331 to R344; 22
R417). A row that a register write causes is written once over `Wr`, which MTC and the host use too. -/

namespace Sys2Proof.Machine

/-- What a write of a control register does: it is done, it raises BOUNDS and changes nothing, it waits, or the model stops. -/
inductive Wr where
  | done (s : State)
  | bounds
  | wait
  | stop (r : Fault)
  deriving DecidableEq, Repr

/-- A register write as a row of its own: one that is refused or waits changes nothing. -/
def Wr.out (w : Wr) (s : State) : Out :=
  match w with
  | .done t => .next t
  | .bounds => .next s
  | .wait => .next s
  | .stop r => .fault r

/-- Replace the bits of a mask of a register. -/
def State.setMasked (s : State) (num mask : Nat) (v : Word) : State :=
  let m := BitVec.ofNat 64 mask
  s.setPreg num (((BitVec.ofNat 64 (s.preg num) &&& ~~~m) ||| (v &&& m)).toNat)

/-! ## Launch queue registers (R331) -/

def lqBase (q : Nat) : Nat := 0x300 + 4 * q
def lqCtl (q : Nat) : Nat := 0x301 + 4 * q
def lqTail (q : Nat) : Nat := 0x302 + 4 * q
def lqStat (q : Nat) : Nat := 0x303 + 4 * q

/-- The ring length of a launch queue. -/
def State.lqLen (s : State) (q : Nat) : Nat := 2 ^ bits (s.preg (lqCtl q)) 3 0
def State.lqEn (s : State) (q : Nat) : Bool := bit (s.preg (lqCtl q)) 7
def State.lqHead (s : State) (q : Nat) : Nat := bits (s.preg (lqStat q)) 15 0

/-- A write of LQCTL: LOG2N 1 to 12, GBASE up to 191; a change of LOG2N, GBASE or ASID while EN is 1 is ignored. -/
def State.wrLqctl (s : State) (q : Nat) (v : Word) : Wr :=
  let n := bits v.toNat 3 0
  if n = 0 || 12 < n || 191 < bits v.toNat 15 8 then .bounds
  else
    let old := s.preg (lqCtl q)
    let same := bits old 3 0 == n && bits old 15 8 == bits v.toNat 15 8 && bits old 47 32 == bits v.toNat 47 32
    if s.lqEn q && !same then .done s else .done (s.setMasked (lqCtl q) 0x0000FFFF0000FF8F v)

/-- LQCTL_WRITE. -/
def execLqctlWrite (q : BitVec 4) (v : Word) (s : State) : Out := (s.wrLqctl q.toNat v).out s

/-- LQTAIL_DOORBELL (R332): software moves TAIL. -/
def State.wrLqtail (s : State) (q : Nat) (v : Word) : Wr := .done (s.setMasked (lqTail q) 0xFFFF v)

def execLqtailDoorbell (q : BitVec 4) (v : Word) (s : State) : Out := (s.wrLqtail q.toNat v).out s

/-! ## Admission (R13, R14, R332, R333) -/

/-- The queue whose turn it is: the first from the round-robin pointer with a record to read. -/
def State.nextQueue (s : State) : Option Nat :=
  ((List.range 16).map (fun i => (s.disp.rr + i) % 16)).find? (fun q =>
    s.lqEn q && decide (s.lqHead q ≠ bits (s.preg (lqTail q)) 15 0))

/-- The lowest free launch table entry of 256. -/
def State.freeEntry (s : State) : Option Nat := (List.range 256).find? (fun l => (tfind s.disp.launches l).isNone)

/-- Does a step-member task hold a logical gnoum? -/
def State.stepHeld (s : State) (lg : Nat) : Bool := s.tasks.any (fun e => e.2.stepm && e.2.lg == lg)

/-- The byte offset of the lowest-offset field of a record that fails the checks of R14. R14 speaks of a zero-bit rule of DONEADDR that R13
does not state; a virtual address has 56 bits, so bits [63:56] must be zero here as in ENTRY (log 53). -/
def State.badField (s : State) (q : Nat) (asid : BitVec 16) (gbase : Nat) (r : List Byte) : Option Nat :=
  let entry := recField r 0 8
  let tc := recField r 8 2
  let foot := recField r 0x0A 1
  let flags := recField r 0x0B 1
  let side := recField r 0x18 8
  let done := recField r 0x60 8
  if entry % 4 ≠ 0 || entry / 2 ^ 56 ≠ 0 then some 0
  else if tc = 0 || 192 < tc then some 8
  else if foot = 0 || 16 < foot then some 0x0A
  else if flags / 16 ≠ 0 || (bit flags 3 && (!bit (s.preg 0x215) q ||
      (List.range tc).any (fun i => s.stepHeld ((gbase + i) % 192)))) then some 0x0B
  else if side % 64 ≠ 0 || (side ≠ 0 && (s.readableAt asid side).2.isNone) then some 0x18
  else if done % 8 ≠ 0 || done / 2 ^ 56 ≠ 0 then some 0x60
  else if (r.drop 0x68).any (· ≠ 0) then some 0x68
  else none

/-- The registers of R18, but for x13, which is set at placement. -/
def firstHart (r : List Byte) (index tcount lg : Nat) : Hart :=
  let xs := (List.range 8).foldl (fun h i => h.setX (BitVec.ofNat 5 (2 + i)) (BitVec.ofNat 64 (recField r (0x20 + 8 * i) 8)))
    { Hart.empty with pc := BitVec.ofNat 64 (recField r 0 8) &&& ~~~3#64 }
  ((xs.setX 10 (BitVec.ofNat 64 index)).setX 11 (BitVec.ofNat 64 tcount)).setX 12 (BitVec.ofNat 64 lg)

/-- Is a new step-member task on a logical gnoum counted at the boundary that closes the current step (R122, R123)? -/
def State.countsNow (s : State) (lg : Nat) : Bool := !s.bnd.sentArr && !s.disp.stepFreed.contains lg

/-- Task i of a launch (R16, R18). -/
def State.newTask (s : State) (l : Nat) (asid : BitVec 16) (gbase : Nat) (r : List Byte) (seq i : Nat) : Task :=
  let lg := (gbase + i) % 192
  let flags := recField r 0x0B 1
  { launch := l, index := i, lg := lg, foot := recField r 0x0A 1, stepm := bit flags 3, asid := asid,
    gpermit := BitVec.ofNat 64 (recField r 0x10 8), prio := flags % 8, budget := recField r 0x0C 4, run := .ready none,
    readySeq := seq, readyAt := s.disp.clock, since := 0, fresh := true, hart := firstHart r i (recField r 8 2) lg, sup := Sup.first 0, groups := [],
    owed := [], gbarWait := none, inStepWait := false, stepOwed := false, full := false, arrived := false, counted := s.countsNow lg, seq := 0,
    halting := false, doubled := false, deferred := [], srf := [], descs := [], rings := [], tags := [], nextTag := 0, dregs := [], sq := [],
    kern := none, ksaved := false, stoeks := [], sbad := [], dbad := [], rbad := [] }

/-- Key of a task. -/
def taskKey (l i : Nat) : Nat := 256 * l + i

/-- The bytes of the kernel-store image. -/
def State.kernelImage (s : State) : List Byte :=
  (List.range 8192).flatMap (fun i => leBytes 32 (tget 0 s.kstore i).toNat)

/-- Write bytes for the dispatch unit or the management core at a physical address (R353). -/
def State.putPhys (s : State) (pa : Nat) (bs : List Byte) : Except Fault State :=
  match s.localOf pa bs.length with
  | .ok la => .ok (s.putLocal la bs)
  | .error (.halt r) => .error r
  | .error (.trap _) => .ok s

/-- REPLAY_CAPTURE (R417). -/
def State.capture (s : State) (l : Nat) (la : Launch) : Except Fault State :=
  let ctl := s.preg 0x719
  if !bit ctl 5 then .ok s
  else
    let e := la.record ++ leBytes 8 la.seq ++ leBytes 1 la.queue ++ leBytes 1 l ++ leBytes 2 0 ++ leBytes 4 la.asid.toNat ++
      leBytes 8 s.stepNum ++ leBytes 1 (s.preg 0x701) ++ leBytes 7 0 ++ digest 64 s.kernelImage ++ leBytes 32 0
    match s.putPhys (bits (s.preg 0x718) 51 0 + 256 * (bits ctl 63 32 % 2 ^ bits ctl 4 0)) e with
    | .error r => .error r
    | .ok s1 => .ok (s1.setPregBits 0x719 63 32 (bits ctl 63 32 + 1))

/-- Create the tasks of an accepted launch. -/
def State.createLaunch (s : State) (q idx recpa l : Nat) (asid : BitVec 16) (gbase : Nat) (r : List Byte) : Except Fault State :=
  let tc := recField r 8 2
  let la : Launch := { record := r, queue := q, asid := asid, gbase := gbase, seq := s.disp.admSeq, left := tc, ended := 0,
                       unacked := 0, aborted := false, stepm := bit (recField r 0x0B 1) 3, recpa := recpa, recIdx := idx }
  match s.capture l la with
  | .error e => .error e
  | .ok s1 =>
    let m := s1.stamp
    let ts := (List.range tc).foldl (fun t i => tput t (taskKey l i) (m.2.newTask l asid gbase r m.1 i)) m.2.tasks
    .ok { m.2 with tasks := ts, disp := { m.2.disp with admSeq := m.2.disp.admSeq + 1,
                                                         launches := tput m.2.disp.launches l la } }

/-- The record at HEAD of a queue is read, checked, and admitted or rejected (R14, R332). -/
def State.admitFrom (s : State) (q l : Nat) : Except Fault State :=
  let head := s.lqHead q
  let ctl := s.preg (lqCtl q)
  let asid := BitVec.ofNat 16 (bits ctl 47 32)
  let gbase := bits ctl 15 8
  let pa := bits (s.preg (lqBase q)) 51 0 + 128 * (head % s.lqLen q)
  let s0 := (s.setPregBits (lqStat q) 15 0 (head + 1))
  let s1 := { s0 with disp := { s0.disp with rr := (q + 1) % 16 } }
  let la := pa % 2 ^ 40
  if pa / 2 ^ 40 ≠ s.rank || memLimit < la + 128 then .ok (s1.doneFail q head 1 0)
  else
    let rd := s1.readLocal (addrs la 128)
    match rd.2.2 with
    | some bad => .ok ((rd.1.postUncorr 2 0xFFFF 0 (s.paOf (bad / 64 * 64)) 0 0xFF 0).doneFail q head 1 0)
    | none =>
      let r := rd.2.1
      let side := recField r 0x18 8
      let s2 := if side = 0 then rd.1 else (rd.1.readableAt asid side).1
      match rd.1.badField q asid gbase r with
      | some off => .ok (s2.writeDone asid (recField r 0x60 8) (1 + off * 256) q head)
      | none => s2.createLaunch q head pa l asid gbase r

/-- Are admission and placement enabled (R344, R347)? -/
def State.dispatching (s : State) : Bool := bit (s.preg 0x340) 0 && s.disp.quiesce == .idle && bits (s.preg 0x347) 1 0 != 2

/-- LAUNCH_ADMIT. -/
def execLaunchAdmit (s : State) : Out :=
  if !s.dispatching then .next s
  else
    match s.nextQueue, s.freeEntry with
    | some q, some l =>
      match s.admitFrom q l with
      | .ok t => .next t
      | .error r => .fault r
    | _, _ => .next s

/-! ## Choosing and placing (R123, R334, R336) -/

/-- May a task be placed: ready, and not held by R123? -/
def Task.placeable (t : Task) : Bool :=
  (match t.run with
   | .ready _ => true
   | _ => false) && (!t.stepm || t.counted)

/-- Effective priority when the dispatch unit's clock shows this many nanoseconds: PRIO and a whole step for each millisecond since the
task became ready (R334). -/
def Task.effPrio (t : Task) (now : Nat) : Nat := min 7 (t.prio + (now - t.readyAt) / 1000000)

/-- Time passes: the clock shows at least this. -/
def State.passTo (s : State) (time : Nat) : State := { s with disp := { s.disp with clock := max s.disp.clock time } }

/-- The limit of n microseconds that began for a task is over: limits of several tasks run side by side. -/
def State.passLimit (s : State) (t : Task) (n : Nat) : State := s.passTo (t.since + 1000 * n)

/-- The ready task that R334 chooses, and the state with the time that has passed until the choice, which is free but never none (log 46):
whoever waits rises in priority (R42). -/
def State.bestReady (s : State) : Option (Nat × Task) × State :=
  let d := s.draw
  let s1 := d.2.passTo (d.2.disp.clock + 1 + Config.freeNat d.1)
  let pick := s.tasks.foldl (fun (b : Option (Nat × Task)) e =>
    if !e.2.placeable then b
    else
      match b with
      | none => some e
      | some x =>
        let p := e.2.effPrio s1.disp.clock
        let y := x.2.effPrio s1.disp.clock
        if y < p || (p = y && e.2.readySeq < x.2.readySeq) then some e else b) none
  match pick with
  | none => (none, s)
  | some x => (some x, s1)

/-- Is a physical gnoum number that of a gnoum that can hold tasks: 0 to 51 of a die, not fused out (R413), in service (R318)? -/
def State.inService (s : State) (pg : Nat) : Bool :=
  let g := tget PhysG.idle s.disp.physG pg
  decide (pg < 256) && decide (pg % 64 < 52) && !g.fused && !g.outOfService

/-- The state that placement gives a task: R18 at the first, the saved one later; STATUS as R314 says. Its budget begins (R335). -/
def State.placedTask (s : State) (t : Task) (pg : Nat) : Task :=
  if t.fresh then
    { s.firstPlaced t with run := .placed pg, since := s.disp.clock, fresh := false }
  else { t with run := .placed pg, since := s.disp.clock, ksaved := false,
                sup := { t.sup with mode := false, pmode := false, exl := false } }

/-- The address of a save slot (R341). -/
def State.slotAt (s : State) (n : Nat) : Nat := bits (s.preg 0x342) 51 0 + 2 ^ 23 * n

/-- A saved task as its context in memory gives it: what the dispatch unit holds of it, and what has happened to it since the save (a release
of its episode or its boundary moves the saved pc past its wait, R348; WAKE.PEND set, R327; the host acknowledges its stores; bytes arrive),
stands beside (log 54). -/
def Task.fromContext (t : Task) (b : List Byte) (la : Launch) : Task :=
  let r := readTask b la t.readySeq t.readyAt
  let past := (r.gbarWait.isSome && t.gbarWait.isNone) || (r.inStepWait && !t.inStepWait)
  let h := if past then r.hart.advance 8 else r.hart
  { r with launch := t.launch, index := t.index, lg := t.lg, foot := t.foot, stepm := t.stepm, run := t.run, fresh := t.fresh,
           groups := t.groups, owed := t.owed, gbarWait := t.gbarWait, inStepWait := t.inStepWait, stepOwed := t.stepOwed,
           arrived := t.arrived, counted := t.counted, sup := { r.sup with pend := r.sup.pend || t.sup.pend }, hart := { h with stores := t.hart.stores.filter (·.atK) ++ h.stores },
           sq := r.sq.map (fun q => { q with got := ((t.queued? q.tag).map (·.got)).getD q.got }) }

/-- A saved task is read from its slot (R341, R342), whose errors are corrected; none where its context cannot be read. A task without a slot is
as it stands. -/
def State.fromSlot (s : State) (t : Task) : State × Option Task :=
  match t.run.slot, tfind s.disp.launches t.launch with
  | some n, some la =>
    let h := s.mgcRead (s.slotAt n) 64
    match h.2 with
    | none => (h.1, none)
    | some hd =>
      let r := h.1.mgcRead (s.slotAt n) (min (recField hd 0x30 8) (2 ^ 23))
      (r.1, r.2.map (fun b => t.fromContext b la))
  | _, _ => (s, some t)

/-- Place a task on a physical gnoum (R336): its context is read, its save slot is free again, and its logical gnoum is bound there now (R41).
A task whose context has an uncorrectable error ends (log 54). -/
def State.placeOn (s : State) (pg k : Nat) : State :=
  match s.task? k with
  | none => s
  | some t0 =>
    let r := s.fromSlot t0
    match r.2 with
    | none => r.1.terminate k
    | some t =>
      let s1 := r.1.freeSlot t.run.slot
      let ph := s1.disp.physG.map (fun e => (e.1, { e.2 with shadow := if e.2.shadow = some k then none else e.2.shadow }))
      let g := tget PhysG.idle ph pg
      ({ s1 with disp := { s1.disp with physG := tset PhysG.idle ph pg { g with active := some k },
                                        bound := tput s1.disp.bound t.lg pg } }).putTask k (r.1.placedTask t pg)

/-- TASK_PLACE: a free physical gnoum takes the ready task that R334 chooses. -/
def execTaskPlace (pg : Nat) (s : State) : Out :=
  if s.dispatching && s.inService pg && (tget PhysG.idle s.disp.physG pg).active.isNone then
    let b := s.bestReady
    match b.1 with
    | some x => .next (b.2.placeOn pg x.1)
    | none => .next s
  else .next s

/-- SHADOW_PRELOAD (R341, R342): the task expected next, if it fits the free half, is preloaded from its slot; nothing of it changes. -/
def execShadowPreload (pg : Nat) (s : State) : Out :=
  let g := tget PhysG.idle s.disp.physG pg
  match g.active with
  | none => .next s
  | some a =>
    let b := s.bestReady
    match b.1, s.task? a with
    | some x, some t =>
      if s.dispatching && t.foot ≤ 8 && x.2.foot ≤ 8 && g.shadow.isNone then
        let r := b.2.fromSlot x.2
        .next (if r.2.isNone then r.1 else
          { r.1 with disp := { r.1.disp with physG := tset PhysG.idle r.1.disp.physG pg { g with shadow := some x.1 } } })
      else .next s
    | _, _ => .next s

/-! ## Switching (R335, R337, R338, R341) -/

/-- A free save slot (R341). -/
def State.freeSaveSlot (s : State) : Option Nat :=
  (List.range (bits (s.preg 0x343) 15 0)).find? (fun n => !s.disp.slots.contains n)

/-- Is a KRUN or DESCEND of a task running? -/
def Task.running2 (t : Task) : Bool := t.kern.isSome || t.sq.any (fun q => isDescend q.ins && q.running)

/-- A placed task begins to drain (R338). -/
def State.drains (s : State) (t : Task) (pg : Nat) (slot : Option Nat) : Task :=
  { t with run := .draining pg false slot, since := s.disp.clock }

/-- Switch a placed task out, into this slot: by a fast switch to the preloaded task where R337 allows it, else by a drain. -/
def State.switchOut (s : State) (k : Nat) (t : Task) (pg : Nat) (slot : Option Nat) (best : Option Nat) : State :=
  let s1 := match slot with
    | some n => { s with disp := { s.disp with slots := s.disp.slots ++ [n] } }
    | none => s
  let g := tget PhysG.idle s1.disp.physG pg
  match g.shadow.bind (fun x => (s1.task? x).map (fun u => (x, u))) with
  | some (x, u) =>
    if u.placeable && u.foot ≤ 8 && t.foot ≤ 8 && !t.sup.mode && !t.running2 && best == some x then
      (s1.putTask k { t with run := .saving none slot, halting := false }).placeOn pg x
    else s1.putTask k (s1.drains t pg slot)
  | none => s1.putTask k (s1.drains t pg slot)

/-- BUDGET_EXPIRY (R335): switch to the best ready task, or a fresh budget. -/
def execBudgetExpiry (k : Nat) (s : State) : Out :=
  match s.task? k with
  | none => .next s
  | some t =>
    match t.run with
    | .placed pg =>
      if t.budget = 0 || !s.dispatching then .next s
      else
        let b := (s.passLimit t t.budget).bestReady
        let again := b.2.putTask k { t with since := b.2.disp.clock }
        match b.1, s.freeSaveSlot with
        | some x, some n =>
          if t.prio ≤ x.2.effPrio b.2.disp.clock then .next (b.2.switchOut k t pg (some n) (some x.1)) else .next again
        | _, _ => .next again
    | _ => .next s

/-- DRAIN_LIMIT_EXPIRY (R338): the sequencer starts to look for a safe point; at the second expiry a kernel that stands at
one is saved, and any other ends with BUDGET (R44). -/
def execDrainLimitExpiry (k : Nat) (s : State) : Out :=
  match s.task? k with
  | none => .next s
  | some t =>
    match t.run, t.kern with
    | .draining pg false slot, some _ => 
        let s1 := s.passLimit t (s.preg 0x341)
        .next (s1.putTask k { t with run := .draining pg true slot, since := s1.disp.clock })
    | .draining _ true _, some kn =>
      if t.ksaved then .next s
      else
        let z := (s.passLimit t (s.preg 0x341)).forcedSave t kn
        match z.2 with
        | some u => .next (z.1.putTask k u)
        | none => .next (z.1.budgetKill k t kn)
    | _, _ => .next s

/-- Does a running instruction run to completion before a save finishes (R337)? -/
def QInstr.mustFinish (q : QInstr) : Bool :=
  q.running && q.fault.isNone &&
  (match q.ins with
   | .tdset .. => true
   | .tdmov .. => true
   | .ringi .. => true
   | .descend .. => true
   | _ => match q.geo with
     | some g => q.probes g
     | none => false)

/-- Has every scalar entry of a hart completed at scope k (R118)? -/
def Hart.scalarDone (h : Hart) : Bool :=
  h.loads.all (fun e => match e.kind with | .stream _ => true | .scalar _ => false) &&
  h.stores.all (fun e => e.atK || (match e.kind with | .stream _ => true | _ => false))

/-- A task at a kernel boundary or with its kernel saved, its SCP stopped in mode U (R338). -/
def Task.atBoundary (t : Task) : Bool := (t.kern.isNone || t.ksaved) && !t.sup.mode

/-- May the save of a task finish (R118, R337)? -/
def Task.savable (t : Task) : Bool :=
  t.atBoundary && t.hart.scalarDone && !t.sq.any QInstr.mustFinish && t.stoeks.all (fun p => p.hart.scalarDone)

/-- Started moves stop at a boundary and keep their resume point and their place in the load queue (R118, R337, R340); programs give up
their cores (R337). -/
def Task.pause (t : Task) : Task :=
  let stops : QInstr → Bool := fun q => q.running && !isKrun q.ins && !isStkrun q.ins
  { t with sq := t.sq.map (fun q => if stops q then { q with running := false, pins := [] } else q), halting := false,
           stoeks := t.stoeks.map (fun p => { p with core := false }) }

/-- A task that is saved at a STEP.WAIT or GBAR whose boundary or episode has been released: its saved pc is past it (R348). -/
def Task.settleWaits (t : Task) : Task :=
  let t1 := if t.inStepWait && t.stepOwed && !t.arrived then { t with inStepWait := false, stepOwed := false, hart := t.hart.advance 8 } else t
  match t1.gbarWait with
  | some g => if t1.heldBy g then t1 else t1.passGbar g
  | none => t1

/-- What a save reads: the registers and the whole footprint, descriptors and rings (R323, R350). -/
def Task.savedReads (t : Task) : OwnReads :=
  { regs := (List.range 32).map (BitVec.ofNat 5), srf := [(0, t.srfSize)], descs := List.range 64, rings := List.range 16 }

/-- A context streams to its save slot (R337, R341); a task that a quiesce saves without a slot has its context in the image alone. -/
def State.intoSlot (s : State) (t : Task) (slot : Option Nat) : Except Fault State :=
  match slot with
  | none => .ok s
  | some n =>
    let d := s.draw
    d.2.putPhys (s.slotAt n) (s.contextBytes t d.1)

/-- The records of the uncorrectable errors that a save meets in descriptors and rings, which no instruction consumes (R323). -/
def State.postUnread (s : State) (t : Task) : State :=
  ((t.dbad ++ t.rbad).filter (fun e => e.2 = 2)).foldl (fun a _ => a.postOnChip 3 t.lg 0xFF 0) s

/-- The context of a task is in its slot: the gnoum is free and the task is ready (R118, R337, R341). An uncorrectable error in what is
saved ends the task where it is in a register or the footprint; of one in a descriptor or a ring, whose state goes on with it, only the
record is posted (R323). -/
def State.finishSave (s : State) (k : Nat) (t : Task) (slot : Option Nat) : Except Fault State :=
  if t.unsavable then .ok ((s.postOnChip 3 t.lg 0xFF 0).terminate k)
  else
    let m := (s.postUnread t).stamp
    let n := t.savedReads.correct t
    let s1 := if n.1 = 0 then m.2 else m.2.countCorrected n.1
    let u := { n.2.pause.settleWaits with run := .ready slot, readySeq := m.1, readyAt := s.disp.clock }
    let ph := s1.disp.physG.map (fun e => (e.1, { e.2 with active := if e.2.active = some k then none else e.2.active }))
    ({ s1 with disp := { s1.disp with physG := ph } }.putTask k u).intoSlot u slot

/-- CONTEXT_SAVE_COMPLETE: the context of a drained task begins to stream out; when nothing of it moves any more, it is in its slot
(R118, R337, R338). -/
def execContextSaveComplete (k : Nat) (s : State) : Out :=
  match s.task? k with
  | none => .next s
  | some t =>
    match t.run with
    | .draining pg _ slot => if t.atBoundary then .next (s.putTask k { t with run := .saving (some pg) slot }) else .next s
    | .saving _ slot =>
      if !t.savable then .next s
      else
        match s.finishSave k t slot with
        | .ok s1 => .next s1
        | .error r => .fault r
    | _ => .next s

/-! ## Commands on single tasks (R343, R344) -/

/-- The task that LGNOUM and LIDX name. -/
def State.taskOf (s : State) (lg lidx : Nat) : Option Nat :=
  (s.tasks.find? (fun e => e.2.launch = lidx && e.2.lg = lg)).map (·.1)

def State.wrTerminate (s : State) (lg lidx : Nat) : Wr :=
  match s.taskOf lg lidx with
  | none => .bounds
  | some k => .done (s.terminate k)

/-- TASKCMD_TERMINATE. -/
def execTaskcmdTerminate (lg lidx : BitVec 8) (s : State) : Out := (s.wrTerminate lg.toNat lidx.toNat).out s

/-- The launch record as memory holds it now, or as it was admitted where it cannot be read or where a restored image does not
tell its address (R323, R332, R349). -/
def State.rereadRecord (s : State) (la : Launch) : State × List Byte :=
  if 2 ^ 52 ≤ la.recpa then (s, la.record)
  else
    let r := s.mgcRead la.recpa 128
    (r.1, r.2.getD la.record)

/-- RERUN: the task's work is discarded and it is created anew from its launch record; the launch goes on, and still waits for the host
to acknowledge the task's earlier stores (R117, R343). -/
def State.rerun (s : State) (k : Nat) : State :=
  let s1 := s.discardWork k
  match s1.task? k with
  | none => s1
  | some t =>
    let s2 := t.groups.foldl (fun a m => a.leaveGroup k m.1) s1
    let s3 := (s2.unplace k).freeSlot t.run.slot
    match tfind s3.disp.launches t.launch with
    | none => s3
    | some la =>
      let m := s3.stamp
      let r := m.2.rereadRecord la
      let s4 := { r.1 with disp := { r.1.disp with
        launches := tput r.1.disp.launches t.launch { la with unacked := la.unacked + t.accepted } } }
      s4.putTask k (s4.newTask t.launch la.asid la.gbase r.2 m.1 t.index)

def State.wrRerun (s : State) (lg lidx : Nat) : Wr :=
  match s.taskOf lg lidx with
  | none => .bounds
  | some k => .done (s.rerun k)

/-- TASKCMD_RERUN. -/
def execTaskcmdRerun (lg lidx : BitVec 8) (s : State) : Out := (s.wrRerun lg.toNat lidx.toNat).out s

/-- SAVE: the task is switched out now, or as soon as a slot is free; the row run again starts a pending one. -/
def State.wrSave (s : State) (lg lidx : Nat) : Wr :=
  match s.taskOf lg lidx with
  | none => .bounds
  | some k =>
    if bits (s.preg 0x343) 15 0 = 0 then .bounds
    else
      let idle := Wr.done { s with disp := { s.disp with pendingSave := s.disp.pendingSave.filter (· ≠ k) } }
      match s.task? k with
      | none => idle
      | some t =>
        match t.run with
        | .placed pg =>
          match s.freeSaveSlot with
          | none =>
              if s.disp.pendingSave.contains k then .done s
              else .done { s with disp := { s.disp with pendingSave := s.disp.pendingSave ++ [k] } }
          | some n =>
              let b := s.bestReady
              let s1 := { b.2 with disp := { b.2.disp with pendingSave := b.2.disp.pendingSave.filter (· ≠ k) } }
              .done (s1.switchOut k t pg (some n) (if s.dispatching then b.1.map (·.1) else none))
        | _ => idle

/-- TASKCMD_SAVE. -/
def execTaskcmdSave (lg lidx : BitVec 8) (s : State) : Out := (s.wrSave lg.toNat lidx.toNat).out s

/-- GRESET (R344): a gnoum held out of service returns; PGN above 51 raises BOUNDS. -/
def State.wrGreset (s : State) (pgn die : Nat) : Wr :=
  if 51 < pgn then .bounds
  else
    let g := tget PhysG.idle s.disp.physG (64 * die + pgn)
    if g.fused then .done s
    else .done { s with disp := { s.disp with physG := tset PhysG.idle s.disp.physG (64 * die + pgn) { g with outOfService := false } } }

def execGreset (pgn : BitVec 6) (die : BitVec 2) (s : State) : Out := (s.wrGreset pgn.toNat die.toNat).out s

/-- Is a task saved or being saved (R344)? A task that has never been placed is not. -/
def State.anySaved (s : State) : Bool :=
  s.tasks.any (fun e => match e.2.run with
    | .ready sl => sl.isSome || !e.2.fresh
    | .saving _ _ => true
    | _ => false)

/-- CTX_POOL_WRITE (R344): CTXBASE or CTXN, only while no task is saved; N up to 4,096. -/
def State.wrCtxPool (s : State) (isN : Bool) (v : Word) : Wr :=
  if isN && decide (4096 < bits v.toNat 15 0) then .bounds
  else if s.anySaved then .done s
  else if isN then .done (s.setMasked 0x343 0xFFFF v)
  else .done (s.setMasked 0x342 0xFFFFFFFFFFFFF v)

def execCtxPoolWrite (isN : Bool) (v : Word) (s : State) : Out := (s.wrCtxPool isN v).out s

end Sys2Proof.Machine
end

