-- ==== Sys2Proof/Machine/Boundary.lean ====
section
/-! DEFINITION. Supersteps: the six TREE messages of a boundary, the aprons, the commit, the watchdog, and the step registers (05 R121
to R144; 17 R316; 18 R347, R348; 21 R389, R390). -/

namespace Sys2Proof.Machine

/-! ## Packets on arrival (R384, R385, R393) -/

/-- Add one to a 32-bit count field of DROPCNT. -/
def State.countDrop (s : State) (lo : Nat) : State := s.setPregBits 0x685 (lo + 31) lo (bits (s.preg 0x685) (lo + 31) lo + 1)

/-- A packet from another package is accepted, or dropped and counted; one for another rank is not received. A message to the own
package never enters the fabric. -/
def State.receive (s : State) (p : Packet) : Option State × State :=
  if p.srank.toNat = s.rank then (some s, s)
  else if p.drank.toNat ≠ s.rank || !bit (s.preg 0x680) 8 then (none, s)
  else if p.dinc.toNat ≠ s.preg 0x682 then (none, s.countDrop 0)
  else if 5 < p.type.toNat || 8 < p.len.toNat || (p.type.toNat = 5 && 5 < Packet.phase p) then (none, s.countDrop 32)
  else (some s, s)

/-- Handle a packet that is accepted. -/
def State.onPacket (s : State) (p : Packet) (k : State → Out) : Out :=
  match s.receive p with
  | (some t, _) => k t
  | (none, t) => .next t

/-! ## The inbound apron (R129, R140, R390) -/

/-- Bytes of the inbound apron in use, and promised by credits at the largest record. -/
def State.inboundUsed (s : State) : Nat :=
  (s.inbound.map (fun r => recSize r.data.length)).sum + 272 * (s.bnd.granted.map (·.2)).sum

/-- Bytes of the inbound apron that are free. -/
def State.inboundFree (s : State) : Nat := bits (s.preg 0x212) 14 8 * 2 ^ 30 - s.inboundUsed

/-- STEP_INBOUND_FULL, once a boundary: `need` are the inbound bytes required. -/
def State.postFull (s : State) (need : Nat) : State :=
  if s.bnd.fullPosted then s
  else ({ s with bnd := { s.bnd with fullPosted := true } }).post 0x0012 0 0xFFFF [(0x18, need), (0x20, bits (s.preg 0x212) 14 8)]

/-- Read a record in an apron (R323, R376): what is correctable is corrected. Of a record of the own apron with an uncorrectable error MC_UNCORR
is posted; it goes on with data to which the spec gives no value (log 57). -/
def State.readApron (s : State) (reg : Nat) (r : Rec) : List Byte × State :=
  let d := s.readLocal (s.apronBytes reg r)
  match d.2.2 with
  | none => (r.data, d.1)
  | some bad =>
    let c := d.1.draw
    ((List.range r.data.length).map (fun i => BitVec.ofNat 8 (Config.freeNat c.1 / 256 ^ i)),
     c.2.postUncorr 2 0xFFFF 0 (s.paOf (bad / 64 * 64)) 0 0xFF 0)

/-- Records of the own package whose home is the own package move to its inbound apron directly (R385). -/
def State.moveOwn (s : State) : State :=
  s.outbound.foldl (fun a r =>
    if r.gen = s.stepNum && r.home = s.rank && !r.acked then
      if recSize r.data.length ≤ a.inboundFree then
        let b := a.readApron 0x210 r
        ({ b.2 with outbound := b.2.outbound.map (fun (x : Rec) =>
            if x.key = r.key && x.gen = r.gen then { x with sent := true, acked := true } else x) }).addInbound { r with data := b.1 }
      else a.postFull (a.inboundUsed + recSize r.data.length)
    else a) s

/-- The other members of the pod. -/
def State.others (s : State) : List Nat :=
  ((List.range (32 * (s.preg 0x680 % 256))).filter (fun r => s.member r && r != s.rank))

/-- Grant records to members that hold no grant, each a share of what is free and one record at least (R390). -/
def State.grant : List Nat → State → State
  | [], s => s
  | r :: rs, s =>
    if s.inboundFree < 272 then s
    else
      let n := min 65535 (max 1 (s.inboundFree / 272 / (rs.length + 1)))
      let s1 := { s with bnd := { s.bnd with granted := tset 0 s.bnd.granted r n } }
      State.grant rs (s1.send (s1.mkPacket r 4 0 0 n []))

/-- The other members that hold no grant. -/
def State.needy (s : State) : List Nat := s.others.filter (fun r => tget 0 s.bnd.granted r = 0)

/-- Grant to every member whose grant is used up. Where the apron has no room for one more record of such a member, the boundary
holds for it, and the home says so (R140; that it may have no further record is more than the home can know, log 45). -/
def State.grantAll (s : State) : State :=
  let s1 := State.grant s.needy s
  if s1.needy = [] then s1 else s1.postFull (s1.inboundUsed + 272)

/-- Send records for which a credit is held (R390). -/
def State.sendRecs (s : State) : State :=
  s.outbound.foldl (fun a r =>
    let c := tget 0 a.bnd.credits r.home
    if r.gen = s.stepNum && r.home ≠ s.rank && !r.sent && !r.acked && c ≠ 0 then
      let a1 := { a with bnd := { a.bnd with credits := tset 0 a.bnd.credits r.home (c - 1) },
                         outbound := a.outbound.map (fun (x : Rec) => if x.key = r.key && x.gen = r.gen then { x with sent := true } else x) }
      let b := a1.readApron 0x210 r
      b.2.openTxn (.record r.key) 0 r.home 2 (ceilDiv r.data.length 32) (r.key.toNat + r.addr * 2 ^ 64 + (r.data.length - 1) * 2 ^ 104) b.1
    else a) s

/-- Records bound for a dead or removed home are discarded, also where it is the own package (R132, R142, R391). -/
def State.dropDead (s : State) : State :=
  { s with outbound := s.outbound.filter (fun r => r.gen ≠ s.stepNum || ((r.home = s.rank || s.member r.home) && !s.deadPeer r.home)) }

/-- DRN is sent once every record of generation n is acknowledged or discarded (R389). -/
def State.tryDrn (s : State) : State :=
  if s.bnd.phase = .draining && s.outbound.all (fun r => r.gen ≠ s.stepNum || r.acked) then
    ({ s with bnd := { s.bnd with phase := .drained, sentDrn := true } }).report 2
  else s

/-- The drained phase at this package (R390). -/
def State.drainLocal (s : State) : State :=
  ({ s with bnd := { s.bnd with phase := .draining } }).dropDead.moveOwn.grantAll.sendRecs.tryDrn

/-- Records that can go now go, to the own apron and against credits; space that is free is granted. -/
def State.drainOn (s : State) : State :=
  if s.bnd.phase = .draining then s.dropDead.moveOwn.grantAll.sendRecs.tryDrn
  else if s.bnd.phase = .drained then s.grantAll else s

/-! ## Commit (R132, R133, R143) -/

/-- What a commit has found so far: the key that stays on each byte of an EXCL page, the lowest conflicting key of each byte in
conflict, and the address of a read that failed. -/
structure CommitAcc where
  stays : Tbl Word
  conflicts : Tbl Word
  bad : Option Nat
  deriving DecidableEq, Repr

/-- The source of a key (R128). -/
def srcOf (k : Word) : Nat := k.toNat / 2 ^ 44

/-- The floating format of a merge width. -/
def mergeFmt (mw : Nat) : FFmt := if mw = 1 then bf16 else if mw = 2 then fp32 else fp64

/-- The value a merge class leaves (R132). -/
def mergeVal (cls mw v w : Nat) : Nat :=
  let n := 8 * 2 ^ mw
  match cls with
  | 2 => (v + w) % 2 ^ n
  | 3 => (mergeFmt mw).add .rne v w
  | 4 => if signed n v ≤ signed n w then v else w
  | 5 => if signed n v ≥ signed n w then v else w
  | 6 => (mergeFmt mw).fmax v w
  | _ => v ||| w

/-- The legal combinations of class and merge width (R130). -/
def legalClasses : List (Nat × Nat) :=
  [(0, 0), (1, 0), (2, 2), (2, 3), (3, 1), (3, 2), (3, 3), (4, 2), (4, 3), (5, 2), (5, 3), (6, 2), (6, 3), (7, 2), (7, 3)]

/-! ### The page of a byte (R130, R133)

A record carries no class (R385), so the home takes it from the page tables of its own package that map the page; of a page that only
other packages map, it is an input (log 45). -/

/-- Indices of the entries of a table of n that are not zero. -/
def tableIdx (m : List Host.Cell) (base n : Nat) : List Nat :=
  ((m.filter (fun c => decide (base ≤ c.1) && decide (c.1 < base + 8 * n))).map (fun c => (c.1 - base) / 8)).eraseDups

/-- What a leaf entry of a level says of a pod page homed here. -/
def State.podPage? (s : State) (e lvl : Nat) : Option PodPage :=
  let z := leafSize e lvl
  if bit e 0 && bits e 9 8 == 1 && bits e 51 40 == s.rank && leafOk { pte := e, base := 0, size := z } then
    some { kind := { cls := bits e 54 52, mw := bits e 11 10 }, base := bits e 39 12 * 4096, size := z }
  else none

/-- The pod pages homed here that a table of a level maps. -/
def State.podPages (s : State) : (lvl t : Nat) → List PodPage
  | 0, t => (tableIdx s.mem t 512).filterMap (fun i => s.podPage? (rdNat s.mem (t + 8 * i) 8) 0)
  | l + 1, t =>
    (tableIdx s.mem t (if l = 2 then 131072 else 512)).flatMap (fun i =>
      let e := rdNat s.mem (t + 8 * i) 8
      if bit e 7 then (if l = 2 then [] else (s.podPage? e (l + 1)).toList)
      else if bit e 0 then s.podPages l (bits e 39 12 * 2 ^ 12) else [])

/-- The pod pages homed here that any address space maps. -/
def State.allPodPages (s : State) : List PodPage :=
  let d := s.preg 0x400 % 2 ^ 40
  (tableIdx s.mem d 65536).flatMap (fun i =>
    let e := rdNat s.mem (d + 8 * i) 8
    if bit e 0 then s.podPages 3 (bits e 39 20 * 2 ^ 20) else [])

/-- Does a page hold a local address? -/
def PodPage.holds (p : PodPage) (la : Nat) : Bool := decide (p.base ≤ la) && decide (la < p.base + p.size)

/-- First byte and size of the page of a local address that nothing known to the package maps: one of the sizes of R355 and R360, freely. -/
def unknownSpan (la : Nat) : Nat × Nat :=
  let z := ([0x40000000, 0x200000, 0x10000].find? (fun z => Config.podSize (la / z * z) z)).getD 0x1000
  (la / z * z, z)

/-- The page of a local address at a commit: as a page table of the package maps it; else as page tables of other packages do; else a page
that the spec does not tell of, with the kind that an own record on it names or a free one. -/
def State.pageAt (s : State) (la : Nat) : PodPage :=
  match (s.allPodPages ++ s.otherPages).find? (·.holds la) with
  | some p => p
  | none =>
    let sp := unknownSpan la
    let own := (s.inbound.filter (fun r => decide (sp.1 ≤ r.addr) && decide (r.addr < sp.1 + sp.2))).findSome? (·.page)
    let c := legalClasses.getD (Config.podClass sp.1 sp.2 % 15) (1, 0)
    { kind := own.getD { cls := c.1, mw := c.2 }, base := sp.1, size := sp.2 }

/-- The bytes of an EXCL record that it writes: those that no other source has written. -/
def exclWrites (stays : Tbl Word) (key : Word) (ws : List (Nat × Byte)) : List (Nat × Byte) :=
  ws.filter (fun x => match tfind stays x.1 with
    | some k0 => decide (srcOf k0 = srcOf key)
    | none => true)

/-- What an EXCL record adds to what a commit has found: its key on each byte it writes, a conflict on each other. -/
def exclFound (a : CommitAcc) (key : Word) (ws : List (Nat × Byte)) : CommitAcc :=
  ws.foldl (fun a x =>
    match tfind a.stays x.1 with
    | some k0 =>
        if srcOf k0 = srcOf key then { a with stays := tput a.stays x.1 key }
        else { a with conflicts := if (tfind a.conflicts x.1).isSome then a.conflicts else tput a.conflicts x.1 key }
    | none => { a with stays := tput a.stays x.1 key }) a

/-- Merge a record of classes 2 to 7 unit by unit (R132). -/
def State.mergeRec (s : State) (k : PageKind) (r : Rec) : State :=
  let n := 2 ^ k.mw
  (List.range (r.data.length / n)).foldl (fun s i =>
    let o := r.addr + i * n
    let x := (s.readLocal (addrs o n)).1
    x.putLocal o (leBytes n (mergeVal k.cls k.mw (rdNat x.mem o n) (leNat ((r.data.drop (i * n)).take n))))) s

/-- Apply one record at its home; an uncorrectable read, of the record or of the bytes it is merged into, stops the commit (R143). -/
def commitRec (kindOf : Nat → PageKind) (a : State × CommitAcc) (r : Rec) : State × CommitAcc :=
  let k := kindOf r.addr
  let apron := unitsOf (a.1.apronBytes 0x211 r)
  let ws := if k.cls = 0 then exclWrites a.2.stays r.key ((addrs r.addr r.data.length).zip r.data)
    else (addrs r.addr r.data.length).zip r.data
  let las := ws.map (·.1)
  let needs := fun u => a.1.badUnit u && (2 ≤ k.cls || !coversUnit las u)
  if a.2.bad.isSome then a
  else
    match (apron.find? a.1.badUnit).orElse (fun _ => (unitsOf las).find? needs) with
    | some u => (a.1, { a.2 with bad := some (64 * u) })
    | none =>
      let s1 := apron.foldl State.correct a.1
      if 2 ≤ k.cls then (s1.mergeRec k r, a.2)
      else
        (s1.writeLocal 3 0xFFFF 0xFF 0 las (ws.map (·.2)),
          if k.cls = 0 then exclFound a.2 r.key ((addrs r.addr r.data.length).zip r.data) else a.2)

/-- Insert by key. -/
def insertRec (r : Rec) : List Rec → List Rec
  | [] => [r]
  | x :: xs => if r.key.toNat ≤ x.key.toNat then r :: x :: xs else x :: insertRec r xs

/-- Records in ascending key order (R128). -/
def sortRecs (l : List Rec) : List Rec := l.foldr insertRec []

/-- The lowest conflicting byte of each page; `base` gives the first byte of a byte's page. -/
def pageConflicts (base : Nat → Nat) : Tbl Word → Option Nat → List (Nat × Word)
  | [], _ => []
  | (a, k) :: r, prev =>
    if prev = some (base a) then pageConflicts base r prev else (a, k) :: pageConflicts base r (some (base a))

/-- STEP_CONFLICT events of a boundary, at most 256, each with the final overflow count (R133). -/
def State.postConflicts (s : State) (base : Nat → Nat) (acc : CommitAcc) : State :=
  let all := pageConflicts base acc.conflicts none
  let final := all.length - 256
  (all.take 256).foldl (fun a c => a.post 0x0010 0 0xFFFF
    [(0x18, s.paOf c.1), (0x20, (tget 0 acc.stays c.1).toNat), (0x28, c.2.toNat), (0x30, final)]) s

/-- Begin to save every task for a quiesce: admission and placement have stopped (R347, R348). Each takes a slot while there are free
ones (R341); the image holds all of them. -/
def State.beginSaving (s : State) (step : Bool) : State :=
  let s1 := { s with disp := { s.disp with quiesce := .saving step } }
  s1.tasks.foldl (fun a e => match e.2.run with
    | .placed pg =>
      let sl := a.freeSaveSlot
      { a with disp := { a.disp with slots := a.disp.slots ++ sl.toList } }.putTask e.1 { e.2 with run := .draining pg false sl, since := a.disp.clock }
    | _ => a) s1

/-- The records of generation n that this home applies, in ascending key order. -/
def State.toCommit (s : State) : List Rec := sortRecs (s.inbound.filter (fun r => r.gen = s.stepNum))

/-- The commit at this package: every record of generation n in ascending key order, the events, then CMT (R132, R389). -/
def State.commitLocal (s : State) : State :=
  let z := s.toCommit.foldl (commitRec (fun la => (s.pageAt la).kind)) (s, { stays := [], conflicts := [], bad := none })
  match z.2.bad with
  | some la =>
      ({ z.1 with bnd := { z.1.bnd with phase := .committing } }).post 0x0013 3 0xFFFF [(0x18, s.paOf la)]
  | none =>
    let s1 := ({ z.1 with inbound := z.1.inbound.filter (fun r => r.gen ≠ s.stepNum) }).postConflicts (fun la => (s.pageAt la).base) z.2
    let s2 := { s1 with bnd := { s1.bnd with phase := .committed, sentCmt := true } }
    let s3 := if s2.disp.quiesce = .waitStep && s2.bnd.signalled then s2.beginSaving true else s2
    s3.report 4

/-! ## Release (R121, R134, R135, R348) -/

/-- A task at the release: its arrival ends, and its STEP.WAIT finds the boundary released (R135, R420); a task saved in its
STEP.WAIT has its saved pc advanced past it (R348). -/
def Task.release (t : Task) : Task :=
  let t1 := { t with arrived := false, counted := true }
  if t.inStepWait && t.run.saved then { t1 with inStepWait := false, stepOwed := false, hart := t1.hart.advance 8 } else t1

/-- Pod loads issued in the kerf ask their remote homes now (R134, R385). -/
def State.askKerfLoads (s : State) : State :=
  s.tasks.foldl (fun a e => e.2.hart.loads.foldl (fun b x =>
    match x.kind with
    | .scalar l => if l.space = .pod && l.got.isEmpty && !b.fab.txns.any (fun y => y.owner == .load (.scp e.1) x.po) then
        b.requestBytes (.load (.scp e.1) x.po) ((addrs l.va.toNat l.pas.length).zip l.pas) else b
    | .stream _ => b) a) s

/-- The release at this package. -/
def State.releaseLocal (s : State) : State :=
  let n := s.stepNum
  let s1 := (s.setPreg 0x214 ((n + 1) % 2 ^ 64)).askKerfLoads
  let s2 := { s1 with outbound := s1.outbound.filter (fun (r : Rec) => r.gen ≠ n), inbound := s1.inbound.filter (fun (r : Rec) => r.gen ≠ n),
                      tasks := s1.tasks.map (fun (e : Nat × Task) => (e.1, e.2.release)), bnd := Boundary.idle,
                      disp := { s1.disp with stepFreed := [] } }
  let s3 := if s2.disp.quiesce = .waitKernel then s2.beginSaving false else s2
  s3.tryArr

/-! ## Leaders and the root (R389) -/

/-- Report bitmaps of a phase: as leader, and as root. -/
def Boundary.lead (b : Boundary) (ph : Nat) : BitVec 32 := if ph = 0 then b.lead0 else if ph = 2 then b.lead2 else b.lead4
def Boundary.roots (b : Boundary) (ph : Nat) : Tbl (BitVec 32) := if ph = 0 then b.root0 else if ph = 2 then b.root2 else b.root4

def Boundary.setLead (b : Boundary) (ph : Nat) (v : BitVec 32) : Boundary :=
  if ph = 0 then { b with lead0 := v } else if ph = 2 then { b with lead2 := v } else { b with lead4 := v }

def Boundary.setRoot (b : Boundary) (ph g : Nat) (v : BitVec 32) : Boundary :=
  if ph = 0 then { b with root0 := tset 0 b.root0 g v } else if ph = 2 then { b with root2 := tset 0 b.root2 g v }
  else { b with root4 := tset 0 b.root4 g v }

/-- Is the package the leader of its group, the root of the pod? -/
def State.isLeader (s : State) : Bool := s.leaderOf (s.rank / 32) == some s.rank
def State.isRoot (s : State) : Bool := s.root == some s.rank

/-- Does a bitmap hold every member of a group? -/
def State.groupFull (s : State) (g : Nat) (b : BitVec 32) : Bool := s.groupMask g &&& ~~~b == 0

/-- Send a downward message to every leader. -/
def State.toLeaders (s : State) (ph : Nat) : State :=
  (s.podGroups.filterMap s.leaderOf).foldl (fun a l => a.send (a.treePacket l ph false 0)) s

/-- The root sends the withheld release once every member has resumed; of other members nothing in the spec tells it (log 2). -/
def State.resumeRelease (s : State) : State :=
  if s.bnd.withheld && s.bnd.resumed && s.isRoot then
    if s.others.isEmpty then { s with bnd := { s.bnd with withheld := false } }.toLeaders 5
    else
      let d := s.draw
      if Config.freeBit d.1 then { d.2 with bnd := { d.2.bnd with withheld := false } }.toLeaders 5 else d.2
  else s

/-- The root goes on to the next phase once every leader has reported (R389): not past the arrived phase in its own kernel cut (R348), and
with REL withheld after a signalled quiesce until every member has resumed (R347). -/
def State.rootCheck (s : State) (ph : Nat) : State :=
  if !s.isRoot || !s.podGroups.all (fun g => s.groupFull g (tget 0 (s.bnd.roots ph) g)) then s
  else if ph = 0 then (if s.kernelCut then s else s.toLeaders 1)
  else if ph = 2 then s.toLeaders 3
  else if s.bnd.quiesceSeen then ({ s with bnd := { s.bnd with withheld := true } }).resumeRelease
  else s.toLeaders 5

/-- A leader whose group has reported tells the root (R389). -/
def State.leadCheck (s : State) (ph : Nat) : State :=
  let g := s.rank / 32
  if !s.isLeader || !s.groupFull g (s.bnd.lead ph) then s
  else if s.isRoot then ({ s with bnd := s.bnd.setRoot ph g (s.bnd.lead ph) }).rootCheck ph
  else
    match s.root with
    | some r => s.send (s.treePacket r ph (ph == 0 && s.bnd.quiesceSeen) (s.bnd.lead ph))
    | none => s

/-- An upward message is counted: a member's by the leader, under its rank; a leader's by the root, with its bitmap. -/
def State.countReport (s : State) (p : Packet) (ph : Nat) : State :=
  let g := p.srank.toNat / 32
  let b := { s.bnd with quiesceSeen := s.bnd.quiesceSeen || (ph = 0 && Packet.quiesce p), watchdog := s.bnd.watchdog || s.isRoot }
  if g = s.rank / 32 then ({ s with bnd := b.setLead ph (b.lead ph ||| 1#32 <<< (p.srank.toNat % 32)) }).leadCheck ph
  else ({ s with bnd := b.setRoot ph g (tget 0 (b.roots ph) g ||| Packet.bitmap p) }).rootCheck ph

/-- A message of the current step. -/
def State.current (s : State) (p : Packet) : Bool := Packet.stepN p == s.stepNum && s.member p.srank.toNat

/-- TREE_ARR. It tells that a boundary has begun: a package that waits for nothing arrives then, or once it has nothing left to wait for
(R122, R124). A row in the package's own name tells one that is no leader so. -/
def execTreeArr (p : Packet) (s : State) : Out :=
  s.onPacket p fun s0 =>
    if !s0.current p then .next s0
    else
      let own := p.srank.toNat = s0.rank && !s0.bnd.sentArr
      let s1 := ({ s0 with bnd := { s0.bnd with begun := true } }).tryArr
      if own then .next s1 else .next (s1.countReport p 0)

/-- The members of the own group but the package itself. -/
def State.groupOthers (s : State) : List Nat :=
  ((List.range 32).map (32 * (s.rank / 32) + ·)).filter (fun r => s.member r && r != s.rank)

/-- A leader passes a downward message on to its group. -/
def State.passDown (s : State) (ph : Nat) : State :=
  if s.isLeader then s.groupOthers.foldl (fun a r => a.send (a.treePacket r ph false 0)) s else s

/-- TREE_DRAIN: the drained phase begins here; in a kernel cut no boundary passes its arrived phase (R348). -/
def execTreeDrain (p : Packet) (s : State) : Out :=
  s.onPacket p fun s0 =>
    if s0.current p && s0.bnd.phase = .arrived && !s0.kernelCut then .next (s0.passDown 1).drainLocal else .next s0

/-- TREE_DRN. -/
def execTreeDrn (p : Packet) (s : State) : Out :=
  s.onPacket p fun s0 => .next (if s0.current p then s0.countReport p 2 else s0)

/-- TREE_COMMIT: this home commits. -/
def execTreeCommit (p : Packet) (s : State) : Out :=
  s.onPacket p fun s0 =>
    if s0.current p && s0.bnd.phase = .drained then .next (s0.passDown 3).commitLocal else .next s0

/-- TREE_CMT. -/
def execTreeCmt (p : Packet) (s : State) : Out :=
  s.onPacket p fun s0 => .next (if s0.current p then s0.countReport p 4 else s0)

/-- TREE_REL: receipt is the release. -/
def execTreeRel (p : Packet) (s : State) : Out :=
  s.onPacket p fun s0 =>
    if s0.current p && s0.bnd.phase = .committed then .next (s0.passDown 5).releaseLocal else .next s0

/-- CREDIT: records may be sent to a home (R390). -/
def execCredit (p : Packet) (s : State) : Out :=
  s.onPacket p fun s0 =>
    if s0.bnd.phase = .draining || s0.bnd.phase = .arrived then
      let h := p.srank.toNat
      let c := tget 0 s0.bnd.credits h + (p.body.extractLsb' 0 32).toNat
      let s1 := { s0 with bnd := { s0.bnd with credits := tset 0 s0.bnd.credits h c } }
      .next (if s1.bnd.phase = .draining then s1.sendRecs else s1)
    else .next s0

/-- A boundary in progress is evaluated again after a change of membership or of the dead-peer bitmap (R142, R391). -/
def State.reevaluate (s : State) : State :=
  let s1 := s.drainOn
  let s2 := [0, 2, 4].foldl (fun a ph => a.leadCheck ph) s1
  if s2.isRoot then [0, 2, 4].foldl (fun a ph =>
    if (tget 0 (a.bnd.roots ph) (a.rank / 32)) ≠ 0 then a.rootCheck ph else a) s2 else s2

/-! ## The watchdog (R141) -/

/-- The members that a root knows to have reported a phase. -/
def State.reported (s : State) (ph r : Nat) : Bool :=
  let b := if r / 32 = s.rank / 32 then s.bnd.lead ph else tget 0 (s.bnd.roots ph) (r / 32)
  b.getLsbD (r % 32)

/-- The phase that a boundary is in, 0 arrived, 1 drained, 2 committed, and the message that ends it. -/
def State.pendingPhase (s : State) : Option (Nat × Nat) :=
  [(0, 0), (1, 2), (2, 4)].find? (fun x => !s.podGroups.all (fun g => s.groupFull g (tget 0 (s.bnd.roots x.2) g)))

/-- The root's watchdog runs from the moment the first member arrives at the boundary (R124, R141): a task of the own package, or
a member that a report tells of. -/
def State.watchdogOn (s : State) : Bool := s.bnd.watchdog || s.tasks.any (fun e => e.2.stepm && e.2.arrived)

/-- STEP_WATCHDOG_EXPIRY: the root writes the bitmap of laggards to SKEWBUF and posts STEP_SKEW. -/
def execStepWatchdogExpiry (s : State) : Out :=
  if !s.isRoot || !s.watchdogOn || bits (s.preg 0x212) 51 32 = 0 then .next s
  else
    match s.pendingPhase with
    | none => .next s
    | some (ph, msg) =>
      let late := (List.range 512).map (fun i => BitVec.ofNat 8 ((List.range 8).foldl (fun a b =>
        if s.member (8 * i + b) && !s.reported msg (8 * i + b) then a + 2 ^ b else a) 0))
      match s.putPhys (s.preg 0x213) late with
      | .error r => .fault r
      | .ok s1 => .next (s1.post 0x0011 0 0xFFFF [(0x18, ph), (0x20, s.preg 0x213)])

/-! ## Step registers (R124, R138, R316) -/

/-- Is a boundary in progress at this package? -/
def State.boundaryOn (s : State) : Bool :=
  s.bnd.begun || s.bnd.phase != .idle || s.bnd.lead0 != 0 || !s.bnd.root0.isEmpty || s.tasks.any (fun e => e.2.stepm && e.2.arrived)

/-- STEPNUM_WRITE: only with no step-member task admitted and no boundary in progress. -/
def State.wrStepnum (s : State) (v : Word) : Wr :=
  if s.tasks.any (fun e => e.2.stepm) || s.boundaryOn then .bounds else .done (s.setPreg 0x214 v.toNat)

def execStepnumWrite (v : Word) (s : State) : Out := (s.wrStepnum v).out s

/-- STEPQ_WRITE: no bit of a queue with an admitted step-member task may be cleared. -/
def State.wrStepq (s : State) (v : Word) : Wr :=
  let used := fun q => s.tasks.any (fun e => e.2.stepm && ((tfind s.disp.launches e.2.launch).map (·.queue)) == some q)
  if (List.range 16).any (fun q => bit (s.preg 0x215) q && !v.getLsbD q && used q) then .bounds
  else .done (s.setMasked 0x215 0xFFFF v)

def execStepqWrite (v : Word) (s : State) : Out := (s.wrStepq v).out s

/-- A step-member task waits after STEPFULL outside the boundary: it has taken that fault and not run in mode U since, or a stream instruction
of its queue has it pending (R139, R316). -/
def Task.stepFull (t : Task) : Bool :=
  t.stepm && !t.arrived && (t.full || t.sq.any (fun q => (q.fault.map (·.code)) == some (BitVec.ofNat 8 cSTEPFULL)))

/-- STEPCFG_WRITE (R316). A write that raises AOSIZE alone acts at once while a task waits after STEPFULL. -/
def State.wrStepcfg (s : State) (v : Word) : Wr :=
  let ao := bits v.toNat 6 0
  let ai := bits v.toNat 14 8
  let wd := bits v.toNat 51 32
  let old := s.preg 0x212
  if ao = 0 || 64 < ao || ai = 0 || 64 < ai || 1000000 < wd then .bounds
  else if s.boundaryOn && ((bits old 6 0 != ao && !(decide (bits old 6 0 < ao) && s.tasks.any (fun e => e.2.stepFull))) ||
      bits old 51 32 != wd || decide (ai < bits old 14 8)) then .wait
  else
    let s1 := s.setMasked 0x212 0x000FFFFF00007F7F v
    .done ({ s1 with bnd := { s1.bnd with fullPosted := s1.bnd.fullPosted && !decide (bits old 14 8 < ai) } }).drainOn

def execStepcfgWrite (v : Word) (s : State) : Out := (s.wrStepcfg v).out s

/-- PODMAP_WRITE (R124, R142): the records of a package that leaves are discarded, its credits go (R390), and a boundary in progress is evaluated again. -/
def State.wrPodmap (s : State) (i : Nat) (v : Word) : Wr :=
  let gone := fun r => r / 64 = i && bit (s.preg (0x600 + i)) (r % 64) && !v.getLsbD (r % 64)
  let s1 := s.setPreg (0x600 + i) v.toNat
  let keep : Rec → Bool := fun r => !gone (r.key.toNat / 2 ^ 52)
  let dropRanks : Tbl Nat → Tbl Nat := fun t => t.filter (fun e => !gone e.1)
  let s2 := { s1 with inbound := s1.inbound.filter keep, outbound := s1.outbound.filter keep,
                      bnd := { s1.bnd with granted := dropRanks s1.bnd.granted, credits := dropRanks s1.bnd.credits } }
  let s3 := if s2.bnd.sentArr then s2.report 0 else s2
  let s4 := if s3.bnd.sentDrn then s3.report 2 else s3
  let s5 := if s4.bnd.sentCmt then s4.report 4 else s4
  .done (if s5.bnd.phase = .idle then s5 else s5.reevaluate)

def execPodmapWrite (i : BitVec 6) (v : Word) (s : State) : Out := (s.wrPodmap i.toNat v).out s

end Sys2Proof.Machine
end

