-- ==== Sys2Proof/Machine/Fabric.lean ====
section
/-! DEFINITION. The Brixeth fabric: requests and responses, retries and dead peers, flits, lasers, the fabric registers (21 R381 to
R399). The messages of a boundary are in Boundary. -/

namespace Sys2Proof.Machine

/-! ## Transactions (R385, R388) -/

/-- Body fields of RDREQ: home local address and byte count. -/
def reqAddr (p : Packet) : Nat := (p.body.extractLsb' 0 40).toNat
def reqCount (p : Packet) : Nat := (p.body.extractLsb' 40 8).toNat + 1

/-- A response to a request (R388): its TXID. -/
def State.respond (s : State) (p : Packet) (type len body : Nat) (data : List Byte) : State :=
  s.send (s.mkPacket p.srank.toNat type len p.txid body data)

/-- RDREQ: the home answers with the bytes of its snapshot, or with DATAERR. -/
def execRdreq (p : Packet) (s : State) : Out :=
  s.onPacket p fun s0 =>
    let n := reqCount p
    if memLimit < reqAddr p + n then .next s0
    else
      let r := s0.readLocal (addrs (reqAddr p) n)
      match r.2.2 with
      | some bad => .next ((r.1.postUncorr 2 0xFFFF 0 (s0.paOf (bad / 64 * 64)) 1 0xFF 0).respond p 1 0 cDATAERR [])
      | none => .next (r.1.respond p 1 (ceilDiv n 32) 0 r.2.1)

/-- The transaction a response belongs to. -/
def State.txn? (s : State) (p : Packet) : Option Txn :=
  s.fab.txns.find? (fun x => x.txid = p.txid && x.pkt.drank = p.srank)

/-- A transaction ends: its request no longer waits for a path (R386), and one that waited for a number takes it. -/
def State.closeTxn (s : State) (x : Txn) : State :=
  let s1 := { s with fab := { s.fab with
    txns := s.fab.txns.filter (fun y => y.txid ≠ x.txid),
    waiting := s.fab.waiting.filter (fun h => !(h.port.isNone && classOf h.pkt == 0 && h.pkt.txid == x.txid)) } }
  match s1.fab.unsent with
  | [] => s1
  | y :: r => State.startTxn { s1 with fab := { s1.fab with unsent := r } } y

/-- Bytes by physical address added to a table. -/
def addGot (got : Tbl Byte) (pa : Nat) (bs : List Byte) : Tbl Byte :=
  ((addrs pa bs.length).zip bs).foldl (fun t x => tput t x.1 x.2) got

/-- A load ends without its value: its entry goes, its fault is deferred (R392). -/
def State.failLoad (s : State) (ag : Agent) (po code : Nat) : State :=
  match s.hart? ag with
  | none => s
  | some h =>
    match h.findLoad po with
    | none => s
    | some (_, l) => (s.putHart ag ((h.dropLoad po).prune (s.streamPos ag))).deferFault ag (addrFault code l.va.toNat false) l.pc

/-- Who waits for a transaction gets its fault: the load, or the stream instruction with its partial effect; a record is discarded
(R391, R392). -/
def State.failOwner (s : State) (x : Txn) (code : Nat) : State :=
  match x.owner with
  | .load ag po => s.failLoad ag po code
  | .stream k tag =>
      match s.task? k with
      | none => s
      | some t =>
        match t.queued? tag with
        | none => s
        | some q => if q.fault.isSome || !q.running then s else s.putTask k (t.faultQ tag (addrFault code x.va false))
  | .record key => { s with outbound := s.outbound.filter (fun r => r.key ≠ key || r.gen ≠ s.stepNum) }

/-- A transaction ends with a fault. -/
def State.failTxn (s : State) (x : Txn) (code : Nat) : State := (s.closeTxn x).failOwner x code

/-- Bytes arrive for who asked for them. -/
def State.deposit (s : State) (x : Txn) (bs : List Byte) : State :=
  let pa := x.pkt.drank.toNat * 2 ^ 40 + reqAddr x.pkt
  match x.owner with
  | .load ag po =>
      match s.hart? ag with
      | none => s
      | some h => s.putHart ag { h with loads := h.loads.map (fun e =>
          match e.kind with
          | .scalar l => if e.po = po then { e with kind := .scalar { l with got := addGot l.got pa bs } } else e
          | .stream _ => e) }
  | .stream k tag =>
      match s.task? k with
      | none => s
      | some t =>
        match t.queued? tag with
        | none => s
        | some q => s.putTask k (t.putQ { q with got := addGot q.got pa bs })
  | .record _ => s

/-- RDRSP: one whose TXID is no longer outstanding is discarded. -/
def execRdrsp (p : Packet) (s : State) : Out :=
  s.onPacket p fun s0 =>
    match s0.txn? p with
    | none => .next s0
    | some x =>
      if (p.body.extractLsb' 0 8).toNat = 0 then .next ((s0.closeTxn x).deposit x (p.data.take (reqCount x.pkt)))
      else .next (s0.failTxn x cDATAERR)

/-- The record of a REC. -/
def recOf (s : State) (p : Packet) : Rec :=
  { key := p.body.extractLsb' 0 64, home := s.rank, addr := (p.body.extractLsb' 64 40).toNat, va := 0, page := none,
    data := p.data.take ((p.body.extractLsb' 104 8).toNat + 1), gen := s.stepNum, sent := true, acked := true, place := [] }

/-- REC (row REC): the home keeps the record, or acknowledges and discards one it holds already. -/
def execRecv (p : Packet) (s : State) : Out :=
  s.onPacket p fun s0 =>
    let r := recOf s0 p
    if s0.bnd.phase ≠ .draining && s0.bnd.phase ≠ .drained then .next s0
    else if s0.inbound.any (fun x => x.key = r.key) then .next (s0.respond p 3 0 r.key.toNat [])
    else if !s0.member p.srank.toNat || tget 0 s0.bnd.granted p.srank.toNat = 0 || memLimit < r.addr + r.data.length then .next s0
    else
      let g := tget 0 s0.bnd.granted p.srank.toNat - 1
      let s1 := ({ s0 with bnd := { s0.bnd with granted := tset 0 s0.bnd.granted p.srank.toNat g } }).addInbound r
      .next (s1.respond p 3 0 r.key.toNat []).grantAll

/-- RECACK: the record is in its home's inbound apron. -/
def execRecack (p : Packet) (s : State) : Out :=
  s.onPacket p fun s0 =>
    match s0.txn? p with
    | none => .next s0
    | some x =>
      let key := p.body.extractLsb' 0 64
      let s1 := s0.closeTxn x
      .next ({ s1 with outbound := s1.outbound.map (fun (r : Rec) =>
        if r.key = key && r.gen = s1.stepNum then { r with acked := true } else r) }).tryDrn

/-- FABRIC_RETRY: a request without a response within RETRY is sent again. -/
def execFabricRetry (txid : BitVec 16) (s : State) : Out :=
  match s.fab.txns.find? (fun x => x.txid = txid) with
  | none => .next s
  | some x => .next (s.toFabric { pkt := x.pkt, port := none })

/-! ## Dead peers (R391) -/

/-- Set a rank's bit in the dead-peer bitmap. -/
def State.setDead (s : State) (r : Nat) : State :=
  let n := 0x640 + r / 64
  s.setPreg n (s.preg n ||| 2 ^ (r % 64))

/-- The places of a task's pod loads that have not asked their home r yet: loads of the kerf (R134). -/
def Task.unasked (t : Task) (r : Nat) : List Nat :=
  t.hart.loads.filterMap (fun e =>
    match e.kind with
    | .scalar l => if l.space = .pod && l.got.isEmpty && l.pas.any (fun p => p / 2 ^ 40 = r) then some e.po else none
    | .stream _ => none)

/-- Everything outstanding to a dead rank ends, a load of the kerf included, and the records bound for it are discarded. -/
def State.endPeer (s : State) (r : Nat) : State :=
  let mine := s.fab.txns.filter (fun x => x.pkt.drank.toNat = r)
  let late := s.fab.unsent.filter (fun x => x.pkt.drank.toNat = r)
  let s9 : State := { s with fab := { s.fab with unsent := s.fab.unsent.filter (fun x => x.pkt.drank.toNat ≠ r) } }
  let s0 : State := late.foldl (fun a x => a.failOwner x cPEERDEAD) (mine.foldl (fun a x => a.failTxn x cPEERDEAD) s9)
  let s1 := if r = s.rank then s0 else
    s0.tasks.foldl (fun a e => (e.2.unasked r).foldl (fun b po => b.failLoad (.scp e.1) po cPEERDEAD) a) s0
  if s1.bnd.phase = .draining then s1.dropDead.tryDrn else s1

/-- FABRIC_TIMEOUT: the destination is dead. -/
def execFabricTimeout (txid : BitVec 16) (s : State) : Out :=
  match s.fab.txns.find? (fun x => x.txid = txid) with
  | none => .next s
  | some x =>
    let r := x.pkt.drank.toNat
    let n := ((s.fab.txns ++ s.fab.unsent).filter (fun y => y.pkt.drank.toNat = r)).length
    .next (((s.setDead r).endPeer r).post 0x0022 2 0xFFFF [(0x18, r), (0x1C, n)])

/-- DEADSET (R398). -/
def State.wrDeadset (s : State) (r : Nat) : Wr := .done ((s.setDead r).endPeer r)

def execDeadset (rank : BitVec 12) (s : State) : Out := (s.wrDeadset rank.toNat).out s

/-! ## Links (R394, R396, R397) -/

/-- A packet that has arrived whole by a port: for this package, its row; for another, its next hop. One whose LEN is above 8 is
dropped where it arrives (R384). -/
def State.arrive (s : State) (port : Nat) (p : Packet) : State :=
  if p.drank.toNat ≠ s.rank then (if 8 < p.len.toNat then s.countDrop 32 else s.toFabric { pkt := p, port := some port })
  else
    match packetRow p with
    | some i => { s with agenda := s.agenda ++ [i] }
    | none => if p.dinc.toNat ≠ s.preg 0x682 then s.countDrop 0 else s.countDrop 32

/-- FLIT_RECEIVE: only the next flit in sequence with a good check code is accepted; the far end sends one only against a free slot
of its virtual channel here (R387). -/
def execFlitReceive (port : BitVec 6) (seq : BitVec 12) (flit : BitVec 256) (good : Bool) (s : State) : Out :=
  let l := s.link port.toNat
  let fs := l.partialPkt ++ [flit]
  let h := fs.headD 0
  let len := (h.extractLsb' 36 4).toNat
  if !l.up || !good || seq ≠ l.rxSeq || decide (vcSlots < s.slotsHeld port.toNat (vcOf (packetOf h []) port.toNat) + fs.length) then .next s
  else
    let s1 := s.setLink port.toNat { l with rxSeq := l.rxSeq + 1, partialPkt := fs }
    if 8 < len || len + 1 ≤ fs.length then
      .next ((s1.setLink port.toNat { l with rxSeq := l.rxSeq + 1, partialPkt := [] }).arrive port.toNat (packetOf h (fs.drop 1)))
    else .next s1

/-- Where in the replay buffer the flit with a sequence number stands. -/
def Link.ackAt (l : Link) (seq : BitVec 12) : Option Nat := (l.buffer.map (·.seq)).idxOf? seq

/-- FLIT_ACK: flits up to this one leave the replay buffer, slots at the next hop are free again, and the port goes on sending. An
acknowledgement of a flit that was first sent after a restripe sequence answers that sequence; one of an older flit may have been sent before it
or answer it (log 31). -/
def execFlitAck (port : BitVec 6) (seq : BitVec 12) (s : State) : Out :=
  let l := s.link port.toNat
  if !l.up then .next s
  else
    let d := s.draw
    let l0 := match l.ackAt seq with
      | none => l
      | some i => { l with buffer := l.buffer.drop (i + 1), before := l.before - (i + 1),
                           restriping := l.restriping && decide (i < l.before) && Config.freeBit d.1 }
    let l1 := l0.release d.1
    .next (d.2.setLink port.toNat (if s.fabricOn then l1.drain port.toNat else l1)).pump

/-- A replay: every unacknowledged flit is sent again (R394), and its units are numbered on (R395). -/
def Link.replay (l : Link) : Link := { l with replayed := min 65535 (l.replayed + l.buffer.length), striped := l.striped + l.buffer.length }

/-- A restripe sequence carries a new mask; units are numbered anew behind it, and its answer is awaited (R395, R396). -/
def Link.sequence (l : Link) (mask : BitVec 16) : Link :=
  { l with txMask := mask, restriping := true, before := l.buffer.length, striped := 0 }

/-- LINK_REPLAY. -/
def execLinkReplay (port : BitVec 6) (s : State) : Out :=
  let l := s.link port.toNat
  .next (if l.up then s.setLink port.toNat l.replay else s)

/-- Take a link down: its flits are lost (R397). -/
def State.linkDown (s : State) (port : Nat) : State :=
  (s.dropLink port).post 0x0023 2 0xFFFF [(0x18, port % 32), (0x19, port / 32)]

/-- Restripe a global link to a narrower mask: behind the sequence the replay buffer is sent again, and sending continues
(R396). An empty mask takes the link down (R397). -/
def State.restripe (s : State) (port : Nat) (lost : BitVec 16) (unit detectNs replayNs : Nat) : State :=
  let l := s.link port
  let mask := l.txMask &&& ~~~lost
  if mask = 0 then s.linkDown port
  else
    let first := (l.buffer.head?.map (·.seq)).getD l.txSeq
    (s.setLink port (l.sequence mask).replay).post 0x0021 1 0xFFFF
      [(0x18, port - 32), (0x1A, l.txMask.toNat), (0x1C, mask.toNat), (0x1E, unit), (0x20, l.buffer.length), (0x22, first.toNat),
       (0x24, detectNs), (0x28, replayNs)]

/-- The global ports that are up, in ascending order. -/
def State.upGlobals (s : State) : List Nat := ((List.range 16).map (32 + ·)).filter (fun p => (s.link p).up)

/-- Every global link that is up and uses some of these wavelengths goes on without them, in ascending port order. -/
def State.restripeAll (s : State) (lost : BitVec 16) (unit detectNs replayNs : Nat) : State :=
  s.upGlobals.foldl (fun a p =>
    if (a.link p).txMask &&& lost = 0 then a else a.restripe p lost unit detectNs replayNs) s

/-- LASER_FAILURE: the monitor of this package finds a unit failed; or the far end of a global link reports wavelengths that have
gone dark; or the far end's restripe sequence brings the mask with which it goes on, and this end switches to it (R396). -/
def execLaserFailure (unit : BitVec 2) (how : LightLoss) (port : BitVec 6) (detectNs replayNs : BitVec 32) (s : State) : Out :=
  match how with
  | .monitor =>
    let u := unit.toNat
    let ctl := s.preg 0x688
    if !bit ctl u then .next s
    else
      let on := bits ctl 3 0 - 2 ^ u
      let s1 := (s.setPreg 0x688 (on + (bits ctl 7 4 ||| 2 ^ u) * 16)).post 0x0020 1 0xFFFF [(0x18, u), (0x19, on)]
      .next (s1.restripeAll (unitWaves u) u detectNs.toNat replayNs.toNat)
  | .report lost =>
    let p := port.toNat
    if p < 32 || !(s.link p).up || (s.link p).txMask &&& lost = 0 then .next s
    else .next (s.restripe p lost 0xFF detectNs.toNat replayNs.toNat)
  | .restriped mask =>
    let p := port.toNat
    if p < 32 || !(s.link p).up then .next s
    else .next (if mask = 0 then s.linkDown p else s.setLink p { s.link p with rxMask := mask })

/-- RESTRIPE_TIMEOUT: an unanswered restripe takes the link down. -/
def execRestripeTimeout (port : BitVec 6) (s : State) : Out :=
  .next (if (s.link port.toNat).up && (s.link port.toNat).restriping then s.linkDown port.toNat else s)

/-! ## Registers (R398) -/

/-- FCTL_WRITE: NG 1 to 128; a write that would change NG while EN is 1 is ignored in whole. A new NG trains its ports (log 31). -/
def State.wrFctl (s : State) (v : Word) : Wr :=
  let ng := bits v.toNat 7 0
  if ng = 0 || 128 < ng then .bounds
  else if bit (s.preg 0x680) 8 && ng ≠ s.ng then .done s
  else
    let s0 := s.setMasked 0x680 0x1FF v
    let s1 := if ng = s.ng then s0 else s0.trainLinks
    .done (if s1.fabricOn then s1.drainPorts.pump else s1)

def execFctlWrite (v : Word) (s : State) : Out := (s.wrFctl v).out s

/-- LASERCTL_WRITE: FAIL bits clear. Units that are lit from now on widen the mask of each global link that is up by a restripe
sequence, with no replay (R396); units that are put out leave the masks as a failed one does (log 31). -/
def State.wrLaserctl (s : State) (v : Word) : Wr :=
  let old := s.preg 0x688
  let fail := bits old 7 4 - (bits old 7 4 &&& bits v.toNat 7 4)
  let s1 := s.setPreg 0x688 (bits v.toNat 3 0 + fail * 16)
  let more := wavesOf (fun u => s1.lit u && !s.lit u)
  let s2 := s1.upGlobals.foldl (fun a p =>
    let l := a.link p
    if more &&& ~~~l.txMask = 0 then a else a.setLink p (l.sequence (l.txMask ||| more))) s1
  .done ((List.range 4).foldl (fun a u => if s.lit u && !s1.lit u then a.restripeAll (unitWaves u) u 0 0 else a) s2)

def execLaserctlWrite (v : Word) (s : State) : Out := (s.wrLaserctl v).out s

end Sys2Proof.Machine
end

