-- ==== Sys2Proof/Machine/Hbm.lean ====
section
/-! DEFINITION. The HBM4E memory system: data-rate points, temperatures, refresh, activation counters, patrol scrub (20 R373 to R380). -/

namespace Sys2Proof.Machine

/-- Set bits of a per-stack status register. -/
def State.setField (s : State) (num hi lo v : Nat) : State := s.setPregBits num hi lo v

/-! ## Data-rate points (R374) -/

/-- The target that MRATE holds for a package channel. -/
def State.rateTarget (s : State) (ch : Nat) : Nat := bits (s.preg (0x510 + ch / 32)) (2 * (ch % 32) + 1) (2 * (ch % 32))

/-- A channel whose target differs from its point begins to switch, towards the target as it stands. -/
def State.startSwitch (s : State) (ch : Nat) : State :=
  let t := s.rateTarget ch
  if s.rateBusy ch || t = tget 0 s.ms.rate ch then s
  else
    let s1 := s.setField (0x520 + ch / 32) (ch % 32) (ch % 32) 1
    { s1 with ms := { s1.ms with target := tset 0 s1.ms.target ch t } }

/-- MRATE_WRITE: targets of the 32 channels of a stack; code 3 raises BOUNDS. -/
def State.wrMrate (s : State) (stack : Nat) (v : Word) : Wr :=
  if 11 < stack || (List.range 32).any (fun c => bits v.toNat (2 * c + 1) (2 * c) = 3) then .bounds
  else .done ((List.range 32).foldl (fun a c => a.startSwitch (32 * stack + c)) (s.setPreg (0x510 + stack) v.toNat))

def execMrateWrite (stack : BitVec 4) (v : Word) (s : State) : Out := (s.wrMrate stack.toNat v).out s

/-! ## Temperature and refresh (R373) -/

/-- Key of a layer of a stack. -/
def layerKey (stack layer : Nat) : Nat := 16 * stack + layer

/-- The refresh state that a sample asks for, from the state before. -/
def refreshState (old temp : Nat) : Nat :=
  let up := if 95 < temp then 2 else if 85 < temp then 1 else 0
  if old ≤ up then up
  else if old = 2 && temp ≤ 93 then (if temp ≤ 83 then 0 else 1)
  else if old = 1 && temp ≤ 83 then 0 else old

/-- The hottest layer of a stack, the lowest on a tie. -/
def State.hottest (s : State) (stack : Nat) : Nat :=
  (List.range 16).foldl (fun b l =>
    if tget 0 s.ms.temp (layerKey stack b) < tget 0 s.ms.temp (layerKey stack l) then l else b) 0

/-- Is any layer of a stack above a temperature? -/
def State.hotter (s : State) (stack t : Nat) : Bool :=
  (List.range 16).any (fun l => decide (t < tget 0 s.ms.temp (layerKey stack l)))

/-- The refresh state that a layer has, or will have from its next refresh command on. -/
def State.refreshNext (s : State) (key : Nat) : Nat := (tfind s.ms.refreshDue key).getD (tget 0 s.ms.refresh key)

/-- A layer's sensor is sampled; the change of its refresh state takes effect at its next refresh command; the activation throttle
follows the stack. -/
def State.sample (s : State) (k layer temp : Nat) : State :=
  let key := layerKey k layer
  let due := refreshState (s.refreshNext key) temp
  let s1 := { s with ms := { s.ms with temp := tput s.ms.temp key temp, refreshDue := tput s.ms.refreshDue key due } }
  let h := s1.hottest k
  let s2 := (s1.setField (0x540 + k) 7 0 (tget 0 s1.ms.temp (layerKey k h))).setField (0x540 + k) 11 8 h
  let thr := tget false s2.ms.thr k
  let on := s2.hotter k 105
  let off := !s2.hotter k 103
  if (!thr && on) || (thr && off) then
    let s3 := ({ s2 with ms := { s2.ms with thr := tset false s2.ms.thr k (!thr) } }).setField (0x540 + k) 12 12 (b2n (!thr))
    s3.post 0x0032 1 0xFFFF [(0x18, k), (0x19, layer), (0x1A, temp), (0x1B, b2n (!thr))]
  else s2

/-- TEMP_SAMPLE. -/
def execTempSample (stack layer : BitVec 4) (temp : BitVec 8) (s : State) : Out :=
  if 11 < stack.toNat then .next s else .next (s.sample stack.toNat layer.toNat temp.toNat)

/-- Stage 3 of bring-up: the sensors of all layers, whose readings nothing in the spec tells (log 2), are sampled, so that MTEMP
holds the hottest layer of each stack (R9, R379), and refresh starts (R414). -/
def State.startRefresh (s : State) : State :=
  let s1 := (List.range 192).foldl (fun a i => a.draw.2.sample (i / 16) (i % 16) (Config.freeNat a.draw.1 % 256)) s
  { s1 with ms := { s1.ms with refreshing := true } }

/-- Key of a row's activation counter. -/
def rowKey (ch bank row : Nat) : Nat := (ch * 32 + bank) * 65536 + row

/-- Reset the counters of rows (R375). -/
def State.resetRows (s : State) (ch bank : Nat) (rows : List Nat) : State :=
  { s with ms := { s.ms with act := rows.foldl (fun t r => tdel t (rowKey ch bank r)) s.ms.act,
                             actBad := rows.foldl (fun t r => tdel t (rowKey ch bank r)) s.ms.actBad } }

/-- A refresh command is issued: rows of a bank are refreshed and their counters reset; the layer's pending refresh state takes effect. -/
def State.refreshRows (s : State) (c : Refresh) : State :=
  let rows := ((List.range c.count).map (c.first + ·)).filter (· < 65536)
  let s1 := s.resetRows c.ch c.bank rows
  let stack := c.ch / 32
  let layer := c.ch % 32 / 2
  match tfind s1.ms.refreshDue (layerKey stack layer) with
  | none => s1
  | some st =>
    let s2 := { s1 with ms := { s1.ms with refresh := tset 0 s1.ms.refresh (layerKey stack layer) st,
                                           refreshDue := tdel s1.ms.refreshDue (layerKey stack layer) } }
    s2.setField (0x530 + stack) (2 * layer + 1) (2 * layer) st

/-- REFRESH_COMMAND, once refresh has started (R414). One that falls due while the channel switches its data rate is issued at once after the
switch (R374). -/
def execRefreshCommand (ch : Nat) (bank : BitVec 5) (firstRow count : BitVec 16) (s : State) : Out :=
  let c : Refresh := { ch := ch, bank := bank.toNat, first := firstRow.toNat, count := count.toNat }
  if 384 ≤ ch || !s.ms.refreshing then .next s
  else if s.rateBusy ch then .next { s with ms := { s.ms with held := s.ms.held ++ [c] } }
  else .next (s.refreshRows c)

/-- The refreshes of a channel that fell due while it switched its data rate are issued. -/
def State.issueHeld (s : State) (ch : Nat) : State :=
  let s1 := (s.ms.held.filter (fun c => c.ch = ch)).foldl State.refreshRows s
  { s1 with ms := { s1.ms with held := s1.ms.held.filter (fun c => c.ch ≠ ch) } }

/-- RATE_SWITCH_COMPLETE: the channel runs at its new point and posts MEM_RATE; the refreshes that fell due meanwhile are issued at once, and
a target written meanwhile applies next. Commands were held for at most 1.5 µs. -/
def execRateSwitchComplete (ch : Nat) (stallNs : BitVec 32) (s : State) : Out :=
  if 384 ≤ ch || !s.rateBusy ch || 1500 < stallNs.toNat then .next s
  else
    let old := tget 0 s.ms.rate ch
    let new := tget 0 s.ms.target ch
    let s1 := s.setField (0x520 + ch / 32) (ch % 32) (ch % 32) 0
    let s2 := { s1 with ms := { s1.ms with rate := tset 0 s1.ms.rate ch new, target := tset 0 s1.ms.target ch 0 } }
    .next (((s2.post 0x0031 0 0xFFFF [(0x18, ch), (0x1A, old), (0x1B, new), (0x1C, stallNs.toNat)]).issueHeld ch).startSwitch ch)

/-! ## Activation counters (R375) -/

/-- MEM_ACTSAT, or a count in EVTS: at most one record for each bank in a millisecond, which the model has no clock to tell. -/
def State.postActsat (s : State) (ch bank row cause : Nat) : State :=
  let key := ch * 32 + bank
  let d := s.draw
  if tget false s.ms.posted key && Config.freeBit d.1 then
    d.2.setPregBits 0x500 63 32 (bits (d.2.preg 0x500) 63 32 + 1)
  else
    ({ d.2 with ms := { d.2.ms with posted := tset false d.2.ms.posted key true } }).post 0x0030 0 0xFFFF
      [(0x18, ch / 32), (0x1A, ch % 32), (0x1C, bank), (0x1E, row), (0x20, cause)]

/-- ROW_PRECHARGE: the row's counter goes up by one; one that reaches ACTMAX or has bad parity is saturated: its neighbours are
refreshed, which changes no value and, being no routine refresh, no counter (log 37); it is written back as 0, and MEM_ACTSAT
follows. A precharge that ends a burst in flight counts also while the channel switches its data rate (R374). -/
def execRowPrecharge (ch : Nat) (bank : BitVec 5) (row : BitVec 16) (s : State) : Out :=
  if 384 ≤ ch then .next s
  else
    let key := rowKey ch bank.toNat row.toNat
    let bad := tget false s.ms.actBad key
    let n := tget 0 s.ms.act key + 1
    if bits (s.preg 0x500) 11 0 ≤ n || bad then
      .next ((s.resetRows ch bank.toNat [row.toNat]).postActsat ch bank.toNat row.toNat (b2n bad))
    else .next { s with ms := { s.ms with act := tput s.ms.act key n } }

/-- PATROL_SCRUB (R378): a unit is read through its controller; a correctable one is written back, an uncorrectable one reported. -/
def execPatrolScrub (unit : Nat) (s : State) : Out :=
  if memLimit < 64 * unit + 64 || bits (s.preg 0x501) 23 0 = 0 || s.rateBusy (channelOf (64 * unit)) then .next s
  else if s.badUnit unit then .next (s.postUncorr 2 0xFFFF 0 (s.paOf (64 * unit)) 0 0xFF 0)
  else .next (s.correct unit)

end Sys2Proof.Machine
end

