-- ==== Sys2Proof/Machine/Image.lean ====
section
/-! DEFINITION. The package image around the task contexts (18 R349). -/

namespace Sys2Proof.Machine

/-! ## Writing -/

/-- Pad to whole 4 KiB blocks. -/
def padPage (bs : List Byte) : List Byte := padTo (4096 * ceilDiv bs.length 4096) bs

/-- A launch table entry's 192 bytes. -/
def launchBytes (l : Nat) (a : Launch) : List Byte :=
  padTo 192 (padTo 128 a.record ++ leBytes 1 a.queue ++ leBytes 1 l ++ leBytes 2 a.left ++ leBytes 2 a.ended ++ leBytes 2 a.gbase ++
    leBytes 8 a.seq)

/-- An outbound record. -/
def recBytes (r : Rec) : List Byte :=
  leBytes 8 r.key.toNat ++ leBytes 8 (r.va % 2 ^ 56 + (r.data.length - 1) * 2 ^ 56) ++ leBytes 8 r.gen ++ leBytes 8 0 ++
    padTo (16 * ceilDiv r.data.length 16) r.data

/-- Contexts one behind the other from an offset: each with its offset, and all their bytes. -/
def layContexts : Nat → List (Nat × List Byte) → List (Nat × Nat) × List Byte
  | _, [] => ([], [])
  | o, (k, bs) :: r =>
    let b := padPage bs
    let z := layContexts (o + b.length) r
    ((k, o) :: z.1, b ++ z.2)

/-- The whole image with DIGEST zero, for a cut; the budgets left are open (log 2). -/
def State.imageBytes (s : State) (step : Bool) : List Byte :=
  let launches := padPage (s.disp.launches.flatMap (fun e => launchBytes e.1 e.2))
  let dirOff := 4096 + launches.length
  let dirLen := 4096 * ceilDiv (16 * s.tasks.length) 4096
  let ctx := layContexts (dirOff + dirLen) (s.tasks.map (fun e => (e.1, s.contextBytes e.2 (s.freeCtr + e.1))))
  let dir := padTo dirLen (ctx.1.flatMap (fun x => match s.task? x.1 with
    | some t => leBytes 2 t.lg ++ leBytes 2 t.launch ++ leBytes 4 t.index ++ leBytes 8 x.2
    | none => zeros 16))
  let apOff := dirOff + dirLen + ctx.2.length
  let gens := if step then [s.stepNum + 1] else [s.stepNum, s.stepNum + 1]
  let ap := (gens.flatMap (fun g => sortRecs (s.outbound.filter (fun r => r.gen = g)))).flatMap recBytes
  let body := launches ++ dir ++ ctx.2 ++ padPage ap
  let queues := (List.range 16).flatMap (fun q => padTo 64 (leBytes 8 (s.preg (lqCtl q)) ++ leBytes 8 (s.preg (lqTail q)) ++ leBytes 8 (s.lqHead q)))
  padTo 4096 (leBytes 4 0x00060001 ++ leBytes 2 s.rank ++ leBytes 2 (b2n step) ++ leBytes 8 (4096 + body.length) ++
    leBytes 8 (if s.tasks.any (fun e => e.2.stepm) then s.stepNum else 0) ++ leBytes 8 4096 ++ leBytes 2 s.disp.launches.length ++
    leBytes 2 s.tasks.length ++ leBytes 4 0 ++ leBytes 8 dirOff ++ leBytes 8 apOff ++ leBytes 8 ap.length ++ queues) ++ body

/-- Replace bytes of a string. -/
def overlay (base : List Byte) (o : Nat) (bs : List Byte) : List Byte := base.take o ++ bs ++ base.drop (o + bs.length)

/-- The image with its DIGEST. -/
def signImage (img : List Byte) : List Byte := overlay img 0x440 (digest 32 img)

/-! ## Reading back -/

/-- A launch of the launch table; the address and the index of its record stand in the contexts of its tasks (log 30). -/
def readLaunch (b : List Byte) (o : Nat) : Nat × Launch :=
  let r := slice b o 128
  (recField b (o + 0x81) 1,
   { record := r, queue := recField b (o + 0x80) 1, asid := 0, gbase := recField b (o + 0x86) 1, seq := recField b (o + 0x88) 8,
     left := recField b (o + 0x82) 2, ended := recField b (o + 0x84) 2, unacked := 0,
     aborted := decide (recField b (o + 0x82) 2 + recField b (o + 0x84) 2 < recField r 8 2), stepm := bit (recField r 0x0B 1) 3, recpa := 2 ^ 52,
     recIdx := 0 })

end Sys2Proof.Machine
end

