-- ==== Sys2Proof/Machine/Quiesce.lean ====
section
/-! DEFINITION. Quiesce, resume and restore (18 R344, R345, R347, R348, R351). -/

namespace Sys2Proof.Machine

/-- QSTAT.STATE. -/
def State.qstate (s : State) : Nat := bits (s.preg 0x347) 1 0

def State.setQstate (s : State) (st err len : Nat) : State := s.setPreg 0x347 (st + err * 2 ^ 8 + len * 2 ^ 32)

/-- May a quiesce command start: none in progress, no cut held? -/
def State.quiesceFree (s : State) : Bool := s.qstate != 1 && s.qstate != 2 && s.disp.quiesce == .idle

/-- QUIESCE.STEP (R347): the next boundary that closes is signalled; its committed phase starts the saves. -/
def State.wrQuiesceStep (s : State) : Wr :=
  if !s.quiesceFree then .done s
  else .done { s.setQstate 1 0 0 with disp := { s.disp with quiesce := .waitStep } }

def execQuiesceStep (s : State) : Out := (s.wrQuiesceStep).out s

/-- Is a boundary of the pod past its arrived phase? A package that has sent its ARR and is not the root cannot tell before DRAIN comes:
either may be so (log 2). -/
def State.pastArrived (s : State) : Bool × State :=
  match s.bnd.phase with
  | .idle => (false, s)
  | .arrived =>
    if s.isRoot then (s.podGroups.all (fun g => s.groupFull g (tget 0 s.bnd.root0 g)), s)
    else let d := s.draw; (Config.freeBit d.1, d.2)
  | _ => (true, s)

/-- QUIESCE.KERNEL (R348): with step-member tasks, first until no boundary of the pod is past its arrived phase. -/
def State.wrQuiesceKernel (s : State) : Wr :=
  if !s.quiesceFree then .done s
  else
    let s1 := s.setQstate 1 0 0
    if s1.tasks.any (fun e => e.2.stepm) then
      let p := s1.pastArrived
      if p.1 then .done { p.2 with disp := { p.2.disp with quiesce := .waitKernel } } else .done (p.2.beginSaving false)
    else .done (s1.beginSaving false)

def execQuiesceKernel (s : State) : Out := (s.wrQuiesceKernel).out s

/-- Is a task off the chip? -/
def Task.away (t : Task) : Bool :=
  match t.run with
  | .ready _ => true
  | _ => false

/-- Are the memory-controller write queues, the host port and the fabric unit drained of every access of the package's tasks (R347)? -/
def State.drained (s : State) : Bool :=
  s.tasks.all (fun e => e.2.away && e.2.accepted == 0) && s.disp.launches.all (fun l => l.2.unacked == 0) && s.ms.wq.isEmpty &&
    s.fab.txns.isEmpty && s.fab.unsent.isEmpty

/-- QUIESCE_DONE: the image is written at QIMG, STATE becomes 2, the record is posted. A step cut holds no record of generation n: the
package's own, which every home has committed, go (R347). -/
def execQuiesceDone (s : State) : Out :=
  match s.disp.quiesce with
  | .saving step =>
    if !s.drained then .next s
    else
      let img := signImage (s.imageBytes step)
      let d := { s with freeCtr := s.freeCtr + 65536, disp := { s.disp with quiesce := .held step },
                        outbound := if step then s.outbound.filter (fun r => r.gen ≠ s.stepNum) else s.outbound }
      let at' := bits (s.preg 0x346) 51 0
      match d.putPhys at' img with
      | .error r => .fault r
      | .ok s1 => .next ((s1.setQstate 2 0 (img.length / 4096)).post 0x0040 0 0xFFFF
          [(0x18, at'), (0x20, img.length), (0x28, b2n step), (0x30, s1.stepNum)])
  | _ => .next s

/-- RESUME (R348): STATE 0, tasks may be placed, a withheld release may proceed. Given again, it only asks for that release. -/
def State.wrResume (s : State) : Wr :=
  match s.disp.quiesce with
  | .held step =>
      let s1 := { s.setQstate 0 0 0 with disp := { s.disp with quiesce := .idle } }
      if step then .done ({ s1 with bnd := { s1.bnd with resumed := true } }).resumeRelease else .done (s1.tryArr.rootCheck 0)
  | .idle => .done s.resumeRelease
  | _ => .done s

def execResume (s : State) : Out := (s.wrResume).out s

/-! ## RESTORE (R348, R349, R351) -/

/-- What a restore ends with: a state; or the image offset of the failing item and its fault code, with the state in which it was met. -/
abbrev Restored := Except (State × Nat × Nat) State

/-- A failed restore admits nothing: of what it did, corrections, cached translations, posted records and what was written into the outbound
apron remain (R323, R348). -/
def State.unrestored (s bad : State) : State :=
  [0x201, 0x202, 0x220].foldl (fun a n => a.setPreg n (bad.preg n))
    { s with tlb := bad.tlb, mem := bad.mem, ms := bad.ms, hmem := bad.hmem, host := bad.host, freeCtr := bad.freeCtr }

/-- The address spaces through which a saved record may be translated: that of the step member on its logical gnoum, those of admitted step
launches that had a task there, and, where the task and its launch have ended, for which the image names none, those of the launch queues:
the model's choice (log 38). -/
def State.recAsids (s : State) (key : Word) : List (BitVec 16) :=
  let lg := key.toNat / 2 ^ 44 % 256
  (s.tasks.filter (fun e => e.2.stepm && e.2.lg == lg)).map (·.2.asid) ++
    ((s.disp.launches.filter (fun e => e.2.stepm && decide ((lg + 192 - e.2.gbase) % 192 < recField e.2.record 8 2))).map (·.2.asid)) ++
    (List.range 16).map (fun q => BitVec.ofNat 16 (bits (s.preg (lqCtl q)) 47 32))

/-- Translate a saved record through the first of these address spaces that maps its place; a fault is that of the first. -/
def State.xlateRec (s : State) (va len : Nat) : List (BitVec 16) → State × Res (List Nat × List Nat)
  | [] => (s, raise (plainFault cPAGE))
  | a :: rest =>
    let x := s.xlate { asid := a, modeS := false, stepm := true, pins := [] } { space := .pod, r := false, w := true, x := false } va len
    match x.2 with
    | .ok p => (x.1, .ok p)
    | .error e =>
      let y := State.xlateRec x.1 va len rest
      match y.2 with
      | .ok p => (y.1, .ok p)
      | .error _ => (y.1, .error e)

/-- The saved records, each translated again; n bytes of the section are left. -/
def State.restoreRecs (img : List Byte) : Nat → Nat → Nat → State → Restored
  | 0, _, _, s => .ok s
  | f + 1, o, n, s =>
    if n = 0 then .ok s
    else
      let key := BitVec.ofNat 64 (recField img o 8)
      let va := recField img (o + 8) 7
      let len := recField img (o + 15) 1 + 1
      let size := 32 + 16 * ceilDiv len 16
      let x := s.xlateRec va len (s.recAsids key)
      match x.2 with
      | .error (.trap e) => .error (x.1, o, e.code.toNat)
      | .error (.halt _) => .error (x.1, o, cPAGE)
      | .ok p =>
        let pa := p.2.headD 0
        let pte := p.1.headD 0
        let r : Rec := { key := key, home := pa / 2 ^ 40, addr := pa % 2 ^ 40, va := va,
                         page := some { cls := bits pte 54 52, mw := bits pte 11 10 },
                         data := slice img (o + 32) len, gen := recField img (o + 16) 8, sent := false, acked := false, place := [] }
        if !x.1.apronRoom (recSize len) then .error (x.1, o, cSTEPFULL)
        else State.restoreRecs img f (o + size) (n - size) (x.1.addOutbound r)

/-- Repeat PROBE for every saved triple of a program; a fault ends the program with its code (R351). -/
def State.reprobe (s : State) (k : Nat) (p : Stoek) : State :=
  match s.task? k with
  | none => s
  | some t =>
    let one (a : State × Res (List Pin)) (x : Nat × Nat × Nat) : State × Res (List Pin) :=
      let o : RowOp := { d := tget Desc.invalid p.descs x.1, td := x.1, w := x.2.1, ixs := [x.2.2] }
      match a.2 with
      | .ok ps => State.probeRows (p.ctx t) (fmtUnitBytes o.d.fmt) (o.d.rowUnits x.2.2 o.bytes) ps a.1
      | .error e => (a.1, .error e)
    let z := p.triples.foldl one (s, .ok [])
    match z.2 with
    | .ok ps => z.1.putTask k (t.putStoek { p with pins := ps })
    | .error (.trap e) => z.1.putTask k (t.putStoek { p with ending := .fault e.code p.hart.pc e.va, triples := [] })
    | .error (.halt _) => z.1

/-- The image in memory at QIMG, with DIGEST as it stands; none where it does not lie in the package's memory or cannot be read. -/
def State.readImage (s : State) : State × Option (List Byte) :=
  let pa := bits (s.preg 0x346) 51 0
  let h := s.mgcRead pa 16
  match h.2 with
  | none => h
  | some hd => if recField hd 8 8 < 4096 then (h.1, none) else h.1.mgcRead pa (recField hd 8 8)

/-- The registers of launch queue q that an image holds, with what R331 reserves zero (R8); none where LOG2N or GBASE is out of range. -/
def State.restoreQueue (s : State) (img : List Byte) (q : Nat) : Option State :=
  let ctl := recField img (0x40 + 64 * q) 8
  let n := bits ctl 3 0
  if n = 0 || 12 < n || 191 < bits ctl 15 8 then none
  else some (((s.setPreg (lqCtl q) (ctl &&& 0x0000FFFF0000FF8F)).setPreg (lqTail q) (recField img (0x48 + 64 * q) 2)).setPregBits (lqStat q) 15 0
    (recField img (0x50 + 64 * q) 2))

/-- The queues of an image; the image offset of one whose registers are out of range. -/
def State.restoreQueues (s : State) (img : List Byte) : Restored :=
  (List.range 16).foldl (fun a q => a.bind (fun x =>
    match x.restoreQueue img q with
    | some y => .ok y
    | none => .error (x, 0x40 + 64 * q, 1 + Config.freeNat s.freeCtr % 19))) (.ok s)

/-- A save slot is no longer free. -/
def State.holdSlot (s : State) (n : Nat) : State := { s with disp := { s.disp with slots := s.disp.slots ++ [n] } }

/-- A restored task takes a free save slot of the pool, as every saved task holds one (R341). -/
def State.reslot (s : State) (k : Nat) : State :=
  match s.freeSaveSlot with
  | none => s
  | some n =>
    match s.task? k with
    | none => s
    | some t =>
      let u := { t with run := .ready (some n) }
      match s.intoSlot u (some n) with
      | .ok s1 => (s1.holdSlot n).putTask k u
      | .error _ => s

/-- Recreate launches, tasks and records from an image (R349 to R351). -/
def State.restoreFrom (s : State) (img : List Byte) : Restored :=
  let open' := 1 + Config.freeNat s.freeCtr % 19
  if recField img 0 4 ≠ 0x00060001 then .error (s, 0, open')
  else if recField img 4 2 ≠ s.rank then .error (s, 4, cSCOPE)
  else if slice img 0x440 32 ≠ digest 32 (overlay img 0x440 (zeros 32)) then .error (s, 0x440, open')
  else (s.restoreQueues img).bind fun q0 =>
    let step := recField img 6 1 = 1
    let nl := recField img 0x20 2
    let nt := recField img 0x22 2
    let lo := recField img 0x18 8
    let dir := recField img 0x28 8
    let pls := (List.range nl).map (fun i => let x := readLaunch img (lo + 192 * i)
      (x.1, { x.2 with asid := BitVec.ofNat 16 (bits (q0.preg (lqCtl x.2.queue)) 47 32) }))
    let m := q0.stamp
    let cs := (List.range nt).filterMap (fun i =>
      let o := dir + 16 * i
      match tfind (pls.foldl (fun t e => tput t e.1 e.2) []) (recField img (o + 2) 1) with
      | some la => some (readContext (img.drop (recField img (o + 8) 8)) la m.1 s.disp.clock)
      | none => none)
    let ls := pls.map (fun e => match cs.find? (fun c => c.1.launch = e.1 && c.2.headD [] ≠ []) with
      | some c => (e.1, { e.2 with recIdx := (c.2.headD []).getD 0 0, recpa := (c.2.headD []).getD 1 (2 ^ 52) })
      | none => e)
    let ts := cs.map (fun c => (taskKey c.1.launch c.1.index, c.1))
    let stepped := ts.any (fun e => e.2.stepm)
    let s1 := { (if stepped then m.2.setPreg 0x214 (recField img 0x10 8) else m.2) with
      tasks := ts.foldl (fun t e => tput t e.1 e.2) [],
      disp := { m.2.disp with launches := ls.foldl (fun t e => tput t e.1 e.2) [],
                              stepFreed := ((cs.find? (fun c => c.1.stepm)).map (fun c => c.2.getD 1 [])).getD [],
                              admSeq := (ls.map (fun e => e.2.seq + 1)).foldl max m.2.disp.admSeq, quiesce := .held step } }
    match State.restoreRecs img (recField img 0x38 8 / 32 + 1) (recField img 0x30 8) (recField img 0x38 8) s1 with
    | .error e => .error e
    | .ok s2 =>
      let s3 := s2.tasks.foldl (fun a e => e.2.stoeks.foldl (fun b p => b.reprobe e.1 p) a) s2
      let s4 := s3.tasks.foldl (fun a e => if e.2.fresh then a else a.reslot e.1) s3
      let b := if step then { Boundary.idle with phase := .committed, sentArr := true, sentDrn := true, sentCmt := true,
                                                 quiesceSeen := s4.isRoot, withheld := s4.isRoot } else Boundary.idle
      .ok ({ s4 with bnd := b }.setQstate 2 0 (img.length / 4096))

/-- RESTORE: an idle package takes the image at QIMG; a failure admits nothing. -/
def State.wrRestore (s : State) : Wr :=
  if !s.tasks.isEmpty || !s.disp.launches.isEmpty || s.disp.quiesce ≠ .idle || s.qstate = 1 then .done s
  else
    let r := s.readImage
    match r.2 with
    | none =>
        let d := r.1.draw
        let c := 1 + Config.freeNat d.1 % 19
        .done ((d.2.setQstate 3 c 0).post 0x0043 3 0xFFFF [(0x18, 0), (0x20, c)])
    | some img =>
      match r.1.restoreFrom img with
      | .ok t => .done { t with freeCtr := t.freeCtr + 1 }
      | .error (x, o, c) =>
        let u := r.1.unrestored x
        .done (({ u with freeCtr := u.freeCtr + 1 }.setQstate 3 c 0).post 0x0043 3 0xFFFF [(0x18, o), (0x20, c)])

def execRestore (s : State) : Out := (s.wrRestore).out s

end Sys2Proof.Machine
end

