-- ==== Sys2Proof/Machine/Firmware.lean ====
section
/-! DEFINITION. Host link, firmware, kernel-store loads, identity, bring-up and ageing (22 R401, R403, R405 to R416). -/

namespace Sys2Proof.Machine

/-! ## Host link (R401, R403) -/

/-- UCIE_MODULE_FAIL: the link goes on with the modules that remain, and HOST_LINK is posted. -/
def execUcieModuleFail (m : BitVec 2) (s : State) : Out :=
  if !s.host.modules.getLsbD m.toNat then .next s
  else
    let up := s.host.modules &&& ~~~(1#4 <<< m.toNat)
    .next ({ s with host := { s.host with modules := up } }.post 0x0046 1 0xFFFF [(0x18, up.toNat)])

/-- MSIX_HOLDOFF_EXPIRY: 10 µs after an interrupt, the vector is raised again if records came since. -/
def execMsixHoldoffExpiry (s : State) : Out :=
  if !s.host.holdoff then .next s
  else
    let s1 := { s with host := { s.host with holdoff := false, irqPending := false } }
    .next (if s.host.irqPending then s1.interrupt else s1)

/-! ## Kernel-store loads (R408, R409) -/

/-- KSSTAT. -/
def State.setKsstat (s : State) (st cause : Nat) : State := s.setPreg 0x706 (st + cause * 256)

/-- KSCMD (R404, R409): starts a load; ignored while one runs. -/
def State.wrKscmd (s : State) (v : Word) : Wr :=
  let first := bits v.toNat 12 0
  let count := bits v.toNat 26 13
  if count = 0 || 8192 < count || 8192 < first + count then .bounds
  else if s.ksload.isSome then .done s
  else .done ({ s with ksload := some { first := first, count := count, verify := bit v.toNat 27 } }.setKsstat 1 0)

/-- KSCMD_LOAD. -/
def execKscmdLoad (v : Word) (s : State) : Out := (s.wrKscmd v).out s

/-- The header of a container breaks R408: cause 4. -/
def headerBreach (h : List Byte) (count : Nat) : Bool :=
  recField h 0 4 ≠ 0x41464341 || recField h 4 2 ≠ 1 || recField h 7 1 ≠ 6 || (slice h 0x2C 4).any (· ≠ 0) ||
    (slice h 0x38 72).any (· ≠ 0) || recField h 0x28 4 ≠ count

/-- What a load reads: the state after its reads, the causes of refusal that hold, the object's SECVER, the bundle bytes. -/
structure KsRead where
  s : State
  causes : List Nat
  secver : Nat
  bytes : List Byte
  deriving DecidableEq, Repr

/-- The reads and checks of a verified load (R409): header, key, container, kernel section. -/
def State.readContainer (s : State) (l : KsLoad) : KsRead :=
  let pa := bits (s.preg 0x704) 51 0
  let key := bits (s.preg 0x70A) 51 0
  let h := s.mgcRead pa 128
  match h.2 with
  | none => { s := h.1, causes := 5 :: (if key = 0 then [6] else []), secver := 0, bytes := [] }
  | some hd =>
    let sec := recField hd 8 4
    let len := recField hd 0x18 8
    let body := h.1.mgcRead pa len
    let code := body.1.mgcRead (pa + recField hd 0x20 8) (32 * l.count)
    let kd := if key = 0 then (code.1, some []) else code.1.mgcRead key 57
    let low := if sec < s.preg 0x701 then [2] else []
    let breach := if headerBreach hd l.count then [4] else []
    match body.2, code.2, kd.2 with
    | some b, some c, some k =>
      let sig := slice b (len - 128) 114
      let bad := if key = 0 then [6]
        else if Config.ed448Verify k (digest 64 (b.take (len - 128))) sig then [] else [1]
      { s := kd.1, causes := bad ++ low ++ breach, secver := sec, bytes := c }
    | _, _, _ => { s := kd.1, causes := 5 :: ((if key = 0 then [6] else []) ++ low ++ breach), secver := sec, bytes := [] }

/-- The reads of a load (R409). -/
def State.readLoad (s : State) (l : KsLoad) : KsRead :=
  let saved := if s.tasks.any (fun e => e.2.ksaved) then [3] else []
  if l.verify then
    let r := s.readContainer l
    { r with causes := r.causes ++ saved }
  else
    let r := s.mgcRead (bits (s.preg 0x704) 51 0) (32 * l.count)
    match r.2 with
    | some b => { s := r.1, causes := saved, secver := 0, bytes := b }
    | none => { s := r.1, causes := 5 :: saved, secver := 0, bytes := [] }

/-- Put bundles into the kernel store. -/
def putBundles (st : Tbl (BitVec 256)) (first : Nat) (n : Nat) (bs : List Byte) : Tbl (BitVec 256) :=
  (List.range n).foldl (fun a i => tset 0 a (first + i) (BitVec.ofNat 256 (leNat (slice bs (32 * i) 32)))) st

/-! ## Attestation (R412) -/

/-- Write management-core data at scope h; failed where that is not memory of the package. -/
def State.attWrite (s : State) (buf : Nat) (bs : List Byte) : State :=
  match s.localOf buf bs.length with
  | .ok la => (s.putLocal la bs).setPreg 0x711 2
  | .error _ => s.setPreg 0x711 3

/-- The 192 signed bytes of a report. -/
def State.reportBody (s : State) (nonce : List Byte) : List Byte :=
  leBytes 8 devid ++ leBytes 1 (s.preg 0x701) ++ leBytes 1 (bits (s.preg 0x700) 15 8) ++ zeros 6 ++ nonce ++
    digest 64 s.host.fwBody ++ digest 64 s.kernelImage ++ zeros 16

/-- The 320-byte report. -/
def State.reportBytes (s : State) (nonce : List Byte) : List Byte :=
  let b := s.reportBody nonce
  b ++ padTo 114 ((Config.identitySign (digest 64 b)).take 114) ++ zeros 14

/-- Read the nonce at BUF and write the report there. -/
def State.report412 (s : State) (buf : Nat) : State :=
  let r := s.mgcRead buf 32
  match r.2 with
  | none => r.1.setPreg 0x711 3
  | some nonce => r.1.attWrite buf (r.1.reportBytes nonce)

/-- ATTCMD with OP 0: a load that runs is waited for. -/
def State.wrAttReport (s : State) (buf : Nat) : Wr :=
  if s.ksload.isSome then .done { s.setPreg 0x711 1 with host := { s.host with attBusy := s.host.attBusy ++ [buf] } }
  else .done (s.report412 buf)

/-- ATT_REPORT: BUF is a multiple of 64. -/
def execAttReport (buf : BitVec 52) (s : State) : Out := (s.wrAttReport (buf.toNat / 64 * 64)).out s

/-- ATTCMD with OP 1. -/
def State.wrAttCertificate (s : State) (buf : Nat) : Wr := .done (s.attWrite buf (Config.certificate.take 1024))

/-- ATT_CERTIFICATE. -/
def execAttCertificate (buf : BitVec 52) (s : State) : Out := (s.wrAttCertificate (buf.toNat / 64 * 64)).out s

/-- ATTCMD (R404). -/
def State.wrAttcmd (s : State) (v : Word) : Wr :=
  let buf := bits v.toNat 51 6 * 64
  match bits v.toNat 63 62 with
  | 0 => s.wrAttReport buf
  | 1 => s.wrAttCertificate buf
  | _ => .bounds

/-- Is a kernel running on some gnoum? -/
def State.kernelOn (s : State) : Bool := s.tasks.any (fun e => e.2.kern.isSome && !e.2.ksaved)

/-- The end of a load: refused for one of the causes that hold, or the bundles copied; then the reports that waited. -/
def State.finishLoad (s : State) (l : KsLoad) : State :=
  let r := s.readLoad l
  let s1 := { r.s with ksload := none }
  let s2 :=
    match r.causes with
    | [] => { s1 with kstore := putBundles s1.kstore l.first l.count r.bytes }.setKsstat 2 0
    | c :: cs =>
      let d := s1.draw
      let cause := (c :: cs).getD (Config.freeNat d.1 % (cs.length + 1)) c
      (d.2.setKsstat 3 cause).post 0x0045 1 0xFFFF
        [(0x18, cause), (0x19, r.secver % 256), (0x1A, s.preg 0x701), (0x20, bits (s.preg 0x704) 51 0)]
  s2.host.attBusy.foldl State.report412 { s2 with host := { s2.host with attBusy := [] } }

/-- KERNEL_STORE_COPY: once every running kernel has ended. -/
def execKernelStoreCopy (s : State) : Out :=
  match s.ksload with
  | none => .next s
  | some l => .next (if s.kernelOn then s else s.finishLoad l)

/-! ## The translation cache (R410, R411) -/

/-- Zero n bytes of local memory. -/
def State.zeroLocal (s : State) (la n : Nat) : State :=
  { s with mem := s.mem.filter (fun c => c.1 < la || la + n ≤ c.1),
           ms := { s.ms with ecc := s.ms.ecc.filter (fun e => 64 * e.1 < la || la + n < 64 * e.1 + 64) } }

/-- TCBASE (R410): after a boot that advanced SVFUSE, the first write zeroes the region first. -/
def State.wrTcbase (s : State) (v : Word) : Wr :=
  let s1 := s.setMasked 0x708 0xFFFFFFFFFFFFF v
  let base := bits v.toNat 51 0
  let size := bits (s.preg 0x709) 39 0
  if !s.host.fuseAdvanced || s.host.tcZeroed then .done s1
  else
    let s2 := { s1 with host := { s1.host with tcZeroed := true } }
    if size = 0 then .done s2
    else
      match s2.localOf base size with
      | .ok la => .done (s2.zeroLocal la size)
      | .error (.halt r) => .stop r
      | .error (.trap _) => .done s2

/-- TCBASE_WRITE. -/
def execTcbaseWrite (v : Word) (s : State) : Out := (s.wrTcbase v).out s

/-! ## Ageing (R415, R416) -/

/-- A plan for one die: AGE_PLAN with SEV 2 where the supply does not allow the margin. The supply follows the plan in steps (R415). -/
def State.agePlan (s : State) (die newMv slack : Nat) (starved : Bool) : State :=
  let old := tget 0 s.host.plans die
  let ps := tset 0 s.host.plans die newMv
  let worst := ps.foldl (fun m e => max m e.2) 0
  (({ s with host := { s.host with plans := ps, planned := true } }).setPreg 0x720 worst).post 0x0044 (if starved then 2 else 0) 0xFFFF
    [(0x18, die), (0x1A, old), (0x1C, newMv), (0x1E, slack)]

/-- A supply margin one step of at most 10 mV nearer its plan. -/
def marginStep (now plan : Nat) : Nat := if now ≤ plan then min plan (now + 10) else max plan (now - 10)

/-- The supply of each die goes one step on. -/
def State.stepMargins (s : State) : State :=
  { s with host := { s.host with margins := (List.range 4).foldl (fun m d =>
      tset 0 m d (marginStep (tget 0 m d) (tget 0 s.host.plans d))) s.host.margins } }

/-- BOOTSTAT.STAGE. -/
def State.stage (s : State) : Nat := bits (s.preg 0x700) 3 0

def State.setStage (s : State) (n : Nat) : State := s.setPregBits 0x700 3 0 n

/-- AGEING_CHECK: the firmware of a package that is ready plans a die's margin. -/
def execAgeingCheck (die : BitVec 2) (newMv slackPs : BitVec 16) (starved : Bool) (s : State) : Out :=
  .next (if s.stage = 7 then s.agePlan die.toNat newMv.toNat slackPs.toNat starved else s)

/-! ## Firmware images and bring-up (R405 to R407, R413, R414) -/

/-- The body of an image. -/
def imageBody (im : List Byte) : List Byte := slice im 256 (recField im 8 8)

/-- Has an image the form of R405 (log 32)? -/
def imageForm (im : List Byte) : Bool :=
  decide (256 + recField im 8 8 ≤ im.length) && recField im 0 4 == 0x41464657 && decide (1 ≤ recField im 4 4) &&
    decide (recField im 4 4 ≤ 64) && (slice im 0x18 0x28).all (· = 0) && (slice im 0xB2 6).all (· = 0) &&
    (slice im 0xF1 15).all (· = 0)

/-- The check of R406. -/
def State.imageOk (s : State) (im : List Byte) : Bool :=
  let key := slice im 0xB8 57
  imageForm im && digest 32 key == Config.romKeyDigest &&
    Config.ed448Verify key (digest 64 (imageBody im)) (slice im 0x40 114) && decide (s.preg 0x701 ≤ recField im 4 4)

/-- The good physical gnoums of a die, in ascending order (R413). -/
def goodGnoums (d : Nat) : List Nat := ((List.range 52).map (64 * d + ·)).filter (fun pg => !Config.fusedOut pg)

/-- Logical gnoum 48 d + k is bound to the k-th good physical gnoum of die d (R413). -/
def startBinding : Tbl Nat :=
  (List.range 192).filterMap (fun lg => ((goodGnoums (lg / 48))[lg % 48]?).map (fun pg => (lg, pg)))

/-- The harvest map (R413): the fused gnoums are out, the logical gnoums are bound. -/
def State.harvest (s : State) : State :=
  let ph := (List.range 256).foldl (fun t pg =>
    if pg % 64 < 52 && Config.fusedOut pg then tset PhysG.idle t pg { PhysG.idle with fused := true } else t) s.disp.physG
  { s with disp := { s.disp with physG := ph, bound := startBinding } }

/-- Has every die at least 48 good gnoums? -/
def State.harvestOk (s : State) : Bool :=
  (List.range 4).all (fun d => 48 ≤ ((List.range 52).filter (fun k => !(tget PhysG.idle s.disp.physG (64 * d + k)).fused)).length)

/-- Stage 6: the plan of every die, from monitors whose readings nothing in the spec tells (log 2). -/
def State.firstPlans (s : State) : State :=
  (List.range 4).foldl (fun a d =>
    let x := a.draw
    let y := x.2.draw
    y.2.agePlan d (Config.freeNat x.1 % 65536) (Config.freeNat y.1 % 65536) (Config.freeBit y.1)) s

/-- Start an image that passed its check: fuses, then stages 2 to 7; a failure is posted over the sideband (R414). -/
def State.startImage (s : State) (im : List Byte) : State :=
  let sec := recField im 4 4
  let s1 := { s with host := { s.host with fwBody := imageBody im, fuseAdvanced := decide (s.preg 0x701 < sec), tcZeroed := false } }
  let s2 := ((s1.setPreg 0x701 (max (s.preg 0x701) sec)).setPregBits 0x700 15 8 sec)
  let s3 := s2.startRefresh.harvest
  if !s3.harvestOk then { s3.setStage 14 with host := { s3.host with sideband := s3.host.sideband ++ [14] } }
  else
    let s4 := (s3.setPregBits 0x688 3 0 0xF).trainLinks.firstPlans
    (s4.setPregBits 0x340 0 0 1).setStage 7

/-- Check an image and start it, or await one. -/
def State.boot (s : State) (im : List Byte) : State := if s.imageOk im then s.startImage im else s.setStage 15

/-- POWER_ON: a package that has not been started boots from its flash. The values that firmware loads for this package are its
rank, incarnation, PTDIR and SVECDEF. -/
def execPowerOn (rank : BitVec 12) (incarnation : BitVec 4) (ptdir svecdef : Word) (s : State) : Out :=
  if s.stage ≠ 0 then .next s
  else
    let s1 := (((s.setPreg 0x002 rank.toNat).setPreg 0x682 incarnation.toNat).setMasked 0x400 0xFFFFFFFF80000 ptdir).setMasked
      0x216 0xFFFFFFFFFFFFFFC0 svecdef
    .next (s1.boot s1.host.flash)

/-- SIDEBAND_IMAGE_PUSH: while the ROM awaits an image. -/
def execSidebandImagePush (im : List Byte) (s : State) : Out :=
  .next (if s.stage = 15 then { s with host := { s.host with sram := im } }.boot im else s)

/-- SIDEBAND_FLASH_REWRITE: running firmware rewrites the flash. -/
def execSidebandFlashRewrite (im : List Byte) (s : State) : Out :=
  .next (if s.stage = 0 || s.stage = 15 then s else { s with host := { s.host with flash := im } })

end Sys2Proof.Machine
end

