-- ==== Sys2Proof/Machine/Registers.lean ====
section
/-! DEFINITION. Control space: which registers there are, reading and writing one under its type, MFC and MTC (00 R8, R9; 03 R72;
06 R147; 08 R199; 17 R312 to R316, R319, R320, R327; 18 R331, R343, R344; 19 R354; 20 R379; 21 R398; 22 R404). -/

namespace Sys2Proof.Machine

/-! ## The map of control space -/

/-- Registers of the gnoum (R312). -/
def gnoumReg (n : Nat) : Bool :=
  [0x000, 0x001, 0x002, 0x010, 0x011, 0x012, 0x100, 0x101, 0x102, 0x103, 0x104, 0x105, 0x106, 0x107, 0x108, 0x109, 0x10A, 0x10B].contains n

/-- Registers of the package (R312, R331, R344, R354, R379, R398, R404). -/
def packageReg (n : Nat) : Bool :=
  [0x200, 0x201, 0x202, 0x210, 0x211, 0x212, 0x213, 0x214, 0x215, 0x216, 0x220, 0x230, 0x340, 0x341, 0x342, 0x343, 0x344, 0x345,
   0x346, 0x347, 0x348, 0x400, 0x420, 0x421, 0x500, 0x501, 0x680, 0x681, 0x682, 0x683, 0x684, 0x685, 0x686, 0x688, 0x6A0].contains n ||
  [0x700, 0x701, 0x702, 0x704, 0x705, 0x706, 0x708, 0x709, 0x70A, 0x710, 0x711, 0x718, 0x719, 0x720].contains n ||
  (decide (0x300 ≤ n) && decide (n < 0x340)) || (decide (0x510 ≤ n) && decide (n < 0x51C)) || (decide (0x520 ≤ n) && decide (n < 0x52C)) ||
  (decide (0x530 ≤ n) && decide (n < 0x53C)) || (decide (0x540 ≤ n) && decide (n < 0x54C)) || (decide (0x600 ≤ n) && decide (n < 0x680)) ||
  (decide (0x690 ≤ n) && decide (n < 0x6A0))

/-- A number with an assigned register (R72, R312). -/
def assignedReg (n : Nat) : Bool := gnoumReg n || packageReg n

/-- The registers that mode U may access (R312). -/
def userReg (n : Nat) : Bool := [0x000, 0x001, 0x002, 0x010, 0x011, 0x012].contains n

/-! ## Reading -/

/-- STATUS (R314). -/
def Sup.statusWord (u : Sup) : Word := BitVec.ofNat 64 u.status

/-- A register of the gnoum (R312 to R315, R320); SFCTL is write-only. -/
def State.readGnoum (s : State) (t : Task) (n : Nat) : Word :=
  let tag := tget TagInfo.fresh t.tags t.sup.dtag.toNat
  match n with
  | 0x000 => BitVec.ofNat 64 devid
  | 0x001 => BitVec.ofNat 64 t.lg
  | 0x002 => BitVec.ofNat 64 s.podRank
  | 0x010 => t.sup.dtag.setWidth 64 ||| (BitVec.ofBool tag.dvav).setWidth 64 <<< 8
  | 0x011 => tag.dpc
  | 0x012 => tag.dva
  | 0x100 => t.sup.statusWord
  | 0x101 => t.sup.ecause
  | 0x102 => t.sup.epc
  | 0x103 => t.sup.efpc
  | 0x104 => t.sup.eva
  | 0x105 => t.sup.ssave0
  | 0x106 => t.sup.ssave1
  | 0x107 => t.sup.ssave2
  | 0x108 => t.sup.ssave3
  | 0x109 => t.sup.svec
  | 0x10B => (BitVec.ofBool t.sup.pend).setWidth 64
  | _ => 0

/-- GLSTAT of global port l (R398). -/
def State.glstat (s : State) (l : Nat) : Nat :=
  let k := s.link (32 + l)
  k.txMask.toNat + k.rxMask.toNat * 2 ^ 16 + b2n k.up * 2 ^ 32 + k.replayed % 65536 * 2 ^ 48

/-- LLSTAT (R398). -/
def State.llstat (s : State) : Nat := (List.range 31).foldl (fun a p => a + b2n (s.link p).up * 2 ^ p) 0

/-- A register of the package. Write-only registers read zero (R9). AGESTAT.HOURS is 0 until a plan is made; from then on it never
falls, and is below 24 (log 2: the model has no clock). -/
def State.readPackage (s : State) (n : Nat) : Word × State :=
  if [0x230, 0x344, 0x345, 0x348, 0x686, 0x705, 0x710].contains n then (0, s)
  else if n = 0x684 then (BitVec.ofNat 64 (tget 0 s.fab.pinc (s.preg 0x683)).toNat, s)
  else if 0x690 ≤ n && n < 0x6A0 then (BitVec.ofNat 64 (s.glstat (n - 0x690)), s)
  else if n = 0x6A0 then (BitVec.ofNat 64 s.llstat, s)
  else if n = 0x720 then
    if !s.host.planned then (BitVec.ofNat 64 (s.preg 0x720), s)
    else
      let d := s.draw
      let h := bits (s.preg 0x720) 31 16
      let t := d.2.setPregBits 0x720 31 16 (h + Config.freeNat d.1 % max 1 (24 - h))
      (BitVec.ofNat 64 (t.preg 0x720), t)
  else (BitVec.ofNat 64 (s.preg n), s)

/-! ## Writing -/

/-- A register of the gnoum, by the types of its fields (R312 to R315, R319, R327); the read-only ones ignore writes. -/
def Task.writeGnoum (t : Task) (n : Nat) (v : Word) : Task :=
  match n with
  | 0x010 => { t with sup := { t.sup with dtag := v.extractLsb' 0 6 } }
  | 0x100 => { t with sup := { t.sup with pmode := v.getLsbD 1, exl := v.getLsbD 2 } }
  | 0x102 => { t with sup := { t.sup with epc := v &&& ~~~3#64 } }
  | 0x105 => { t with sup := { t.sup with ssave0 := v } }
  | 0x106 => { t with sup := { t.sup with ssave1 := v } }
  | 0x107 => { t with sup := { t.sup with ssave2 := v } }
  | 0x108 => { t with sup := { t.sup with ssave3 := v } }
  | 0x109 => { t with sup := { t.sup with svec := v &&& ~~~63#64 } }
  | 0x10A => if v.getLsbD 0 then t.retire else t
  | 0x10B => { t with sup := { t.sup with pend := t.sup.pend && !v.getLsbD 0 } }
  | _ => t

/-- EVQCTL: LOG2N 4 to 20, HEAD (R312). -/
def State.wrEvqctl (s : State) (v : Word) : Wr :=
  if bits v.toNat 4 0 < 4 || 20 < bits v.toNat 4 0 then .bounds else .done (s.setMasked 0x201 0xFFFFF01F v)

/-- EVQCTL_WRITE. -/
def execEvqctlWrite (v : Word) (s : State) : Out := (s.wrEvqctl v).out s

/-- HWSIZE: a multiple of 4 KiB, the window below 2^52 (R354). -/
def State.wrHwsize (s : State) (v : Word) : Wr :=
  if bits v.toNat 11 0 ≠ 0 || 2 ^ 52 < s.preg 0x420 + bits v.toNat 52 0 then .bounds
  else .done (s.setMasked 0x421 0x1FFFFFFFFFFFFF v)

/-- HWSIZE_WRITE. -/
def execHwsizeWrite (v : Word) (s : State) : Out := (s.wrHwsize v).out s

/-- TASKCMD (R343). -/
def State.wrTaskcmd (s : State) (v : Word) : Wr :=
  let lg := bits v.toNat 7 0
  let lidx := bits v.toNat 15 8
  match bits v.toNat 19 16 with
  | 1 => s.wrTerminate lg lidx
  | 2 => s.wrRerun lg lidx
  | 3 => s.wrSave lg lidx
  | _ => .bounds

/-- QCMD (R344): ignored while STATE is 1. -/
def State.wrQcmd (s : State) (v : Word) : Wr :=
  let c := bits v.toNat 2 0
  if c = 0 || 4 < c then .bounds
  else if s.qstate = 1 then .done s
  else if c = 1 then s.wrQuiesceStep
  else if c = 2 then s.wrQuiesceKernel
  else if c = 3 then s.wrResume
  else s.wrRestore

/-- Clear the bits of a register that are written one, within a mask (W1C, R9). -/
def State.clearBits (s : State) (n mask : Nat) (v : Word) : State :=
  s.setPreg n ((BitVec.ofNat 64 (s.preg n) &&& ~~~(v &&& BitVec.ofNat 64 mask)).toNat)

/-- Bits that software writes in the registers whose fields have no range and no behaviour of their own. -/
def plainMask (n : Nat) : Option Nat :=
  if 0x300 ≤ n && n < 0x340 && n % 4 = 0 then some 0xFFFFFFFFFF000
  else if [0x200, 0x210, 0x211, 0x213].contains n then some 0xFFFFFFFFFFFFFFFF
  else if n = 0x216 then some 0xFFFFFFFFFFFFFFC0
  else if n = 0x340 then some 1
  else if n = 0x346 || n = 0x704 || n = 0x70A || n = 0x718 then some 0xFFFFFFFFFFFFF
  else if n = 0x400 then some 0xFFFFFFFF80000
  else if n = 0x420 then some 0xFFFFFFFFFF000
  else if n = 0x501 then some 0xFFFFFF
  else if n = 0x682 then some 0xF
  else if n = 0x683 then some 0xFFF
  else if n = 0x709 then some 0xFFFFFFFFFF
  else none

/-- Bits that a write of one clears, in the registers that hold nothing else. -/
def w1cMask (n : Nat) : Option Nat :=
  if 0x300 ≤ n && n < 0x340 && n % 4 = 3 then some 0x10000
  else if n = 0x202 || n = 0x220 || n = 0x685 || (0x640 ≤ n && n < 0x680) then some 0xFFFFFFFFFFFFFFFF
  else none

/-- The registers with a range or with bits of two types, but no behaviour beyond their own value: DRAINLIM, ACTCFG, FABTO, PINC,
HMWIN, RCAPCTL. -/
def State.wrRanged (s : State) (n : Nat) (v : Word) : Option Wr :=
  let w := v.toNat
  if n = 0x341 then some (if bits w 19 0 = 0 || 1000000 < bits w 19 0 then .bounds else .done (s.setMasked n 0xFFFFF v))
  else if n = 0x500 then some (if bits w 11 0 < 256 then .bounds else .done ((s.setMasked n 0xFFF v).clearBits n 0xFFFFFFFF00000000 v))
  else if n = 0x681 then
    let lim := bits w 19 0
    let re := bits w 39 20
    some (if lim < 2 || 1000000 < lim || re = 0 || lim ≤ re then .bounds else .done (s.setMasked n 0xFFFFFFFFFF v))
  else if n = 0x684 then
    some (.done { s with fab := { s.fab with pinc := tset 0 s.fab.pinc (s.preg 0x683) (v.extractLsb' 0 4) } })
  else if n = 0x702 then some (if 11 < bits w 3 0 then .bounds else .done (s.setMasked n 0xF v))
  else if n = 0x719 then
    some (if bits w 4 0 < 4 || 20 < bits w 4 0 then .bounds
          else
            let s1 := s.setMasked n 0x3F v
            .done (if bit w 5 && !bit (s.preg n) 5 then s1.setPregBits n 63 32 0 else s1))
  else none

/-- A write of a register that has no behaviour of its own, applied under its type; none for the others. -/
def State.wrPlain (s : State) (n : Nat) (v : Word) : Option Wr :=
  match plainMask n with
  | some m => some (.done (s.setMasked n m v))
  | none =>
    match w1cMask n with
    | some m => some (.done (s.clearBits n m v))
    | none => s.wrRanged n v

/-- REGISTER_WRITE. -/
def execRegisterWrite (num : BitVec 12) (v : Word) (s : State) : Out :=
  match s.wrPlain num.toNat v with
  | some w => w.out s
  | none => .next s

/-- A write of a package register. A read-only one is not changed (R9). -/
def State.writePackage (s : State) (n : Nat) (v : Word) : Wr :=
  match s.wrPlain n v with
  | some w => w
  | none =>
    if 0x300 ≤ n && n < 0x340 then (if n % 4 = 1 then s.wrLqctl ((n - 0x300) / 4) v else s.wrLqtail ((n - 0x300) / 4) v)
    else if 0x510 ≤ n && n < 0x51C then s.wrMrate (n - 0x510) v
    else if 0x600 ≤ n && n < 0x640 then s.wrPodmap (n - 0x600) v
    else
      match n with
      | 0x201 => s.wrEvqctl v
      | 0x212 => s.wrStepcfg v
      | 0x214 => s.wrStepnum v
      | 0x215 => s.wrStepq v
      | 0x230 => .done (if bits v.toNat 7 0 < 192 then s.wake (bits v.toNat 7 0) else s)
      | 0x342 => s.wrCtxPool false v
      | 0x343 => s.wrCtxPool true v
      | 0x344 => s.wrTaskcmd v
      | 0x345 => s.wrQcmd v
      | 0x348 => s.wrGreset (bits v.toNat 5 0) (bits v.toNat 7 6)
      | 0x421 => s.wrHwsize v
      | 0x680 => s.wrFctl v
      | 0x686 => s.wrDeadset (bits v.toNat 11 0)
      | 0x688 => s.wrLaserctl v
      | 0x705 => s.wrKscmd v
      | 0x708 => s.wrTcbase v
      | 0x710 => s.wrAttcmd v
      | _ => .done s

/-! ## MFC and MTC (R72, R147, R199) -/

/-- The number that MFC or MTC names, or the fault it raises. -/
def ctlNumber (t : Task) (off : Word) (a : Reg) : Res Nat :=
  let n := (t.hart.x a + off).toNat
  if 4096 ≤ n || !assignedReg n then raise (plainFault cILLOP)
  else if !t.sup.mode && !userReg n then raise (plainFault cPERM)
  else .ok n

/-- MFC. -/
def execMfc (d a : Reg) (imm : BitVec 11) (s : State) : Out :=
  s.onScp fun k t =>
    if !t.hart.ready [d, a] then .next s
    else
      match ctlNumber t (imm.signExtend 64) a with
      | .error (.trap f) => .next (s.scpFault k f)
      | .error (.halt r) => .fault r
      | .ok n =>
        let r := if gnoumReg n then (s.readGnoum t n, s) else s.readPackage n
        .next (r.2.putTask k { t with hart := (t.hart.setX d r.1).advance 4 })

/-- MTC: the write comes after the word is issued, so that a task it ends or starts anew is not moved on. -/
def execMtc (r a : Reg) (imm : BitVec 12) (s : State) : Out :=
  s.onScp fun k t =>
    if !t.hart.ready [r, a] then .next s
    else
      match ctlNumber t (imm.signExtend 64) a with
      | .error (.trap f) => .next (s.scpFault k f)
      | .error (.halt e) => .fault e
      | .ok n =>
        let v := t.hart.x r
        let on := { t with hart := t.hart.advance 4 }
        if gnoumReg n then .next (s.putTask k (on.writeGnoum n v))
        else
          match (s.putTask k on).writePackage n v with
          | .done u => .next u
          | .bounds => .next (s.scpFault k (plainFault cBOUNDS))
          | .wait => .next s
          | .stop e => .fault e

end Sys2Proof.Machine
end

