-- ==== Sys2Proof/Machine/HostWindow.lean ====
section
/-! DEFINITION. The host's accesses through its register window and its memory window (22 R402). -/

namespace Sys2Proof.Machine

/-- Do the windows respond (R401, R407, R414)? -/
def State.windowsOn (s : State) : Bool := s.host.modules != 0 && s.stage != 15

/-- Keep what a read of the host returned. -/
def State.giveHost (s : State) (bs : List Byte) : State := { s with host := { s.host with rdata := bs } }

/-- HOST_BAR0_ACCESS: an access of 8 bytes at 8 × num is one of register num, from 0x200 on; below 0x1000 reads are zero and
writes ignored. What a read of a number with no register returns, or one of another size or alignment, is free, and such a write is
ignored (log 33). -/
def execHostBar0Access (off : BitVec 16) (op : HostOp) (s : State) : Out :=
  let n := off.toNat / 8
  if !s.windowsOn || s.stage < 2 then .next s
  else
    match op with
    | .read len =>
        if off.toNat + len ≤ 0x1000 then .next (s.giveHost (zeros len))
        else if off.toNat % 8 = 0 && len = 8 && packageReg n then
          let r := s.readPackage n
          .next (r.2.giveHost (leBytes 8 r.1.toNat))
        else
          let d := s.draw
          .next (d.2.giveHost (leBytes len (Config.freeNat d.1)))
    | .write bs =>
        if off.toNat % 8 ≠ 0 || bs.length ≠ 8 || n < 0x200 || !packageReg n then .next s
        else (s.writePackage n (BitVec.ofNat 64 (leNat bs))).out s

/-- HOST_BAR2_ACCESS: bytes of the slice that HMWIN selects. A read of an uncorrectable unit is recorded, and what it returns is
free; a write waits for room in the write queues. -/
def execHostBar2Access (off : BitVec 36) (op : HostOp) (s : State) : Out :=
  let la := bits (s.preg 0x702) 3 0 * 2 ^ 36 + off.toNat
  if !s.windowsOn || s.stage < 3 then .next s
  else
    match op with
    | .read len =>
        if 2 ^ 36 < off.toNat + len then .next s
        else
          let r := s.readLocal (addrs la len)
          match r.2.2 with
          | none => .next (r.1.giveHost r.2.1)
          | some bad =>
              let d := (r.1.postUncorr 2 0xFFFF 0 (s.paOf (bad / 64 * 64)) 0 0xFF 0).draw
              .next (d.2.giveHost (leBytes len (Config.freeNat d.1)))
    | .write bs =>
        if 2 ^ 36 < off.toNat + bs.length || !s.roomFor (unitsOf (addrs la bs.length)) then .next s
        else .next (s.writeLocal 3 0xFFFF 0xFF 0 (addrs la bs.length) bs)

end Sys2Proof.Machine
end

