-- ==== Sys2Proof/Machine/Scalar.lean ====
section
/-! DEFINITION. Integer, immediate, address, branch, call, multiply and divide instructions (08 R182 to R194), executed by an
SCP and by a Stoek core alike (R151, R205). An instruction that must wait for a register leaves the state as it is (R182). -/

namespace Sys2Proof.Machine

/-- A register result: wait for the registers named, write x[d], move on (R182, R184). -/
def State.result (s : State) (rs : List Reg) (d : Reg) (f : Hart → Word) : Out :=
  s.onHart fun ag h =>
    if h.ready (d :: rs) then .next (s.putHart ag ((h.setX d (f h)).advance 4)) else .next s

def execAdd (d a b : Reg) (s : State) : Out := s.result [a, b] d fun h => h.x a + h.x b
def execSub (d a b : Reg) (s : State) : Out := s.result [a, b] d fun h => h.x a - h.x b
def execAnd (d a b : Reg) (s : State) : Out := s.result [a, b] d fun h => h.x a &&& h.x b
def execOr (d a b : Reg) (s : State) : Out := s.result [a, b] d fun h => h.x a ||| h.x b
def execXor (d a b : Reg) (s : State) : Out := s.result [a, b] d fun h => h.x a ^^^ h.x b
def execAndn (d a b : Reg) (s : State) : Out := s.result [a, b] d fun h => h.x a &&& ~~~(h.x b)

/-- The shift count b[5:0] (R184). -/
def shiftCount (b : Word) : Nat := (b.extractLsb' 0 6).toNat

def execShl (d a b : Reg) (s : State) : Out := s.result [a, b] d fun h => h.x a <<< shiftCount (h.x b)
def execShr (d a b : Reg) (s : State) : Out := s.result [a, b] d fun h => h.x a >>> shiftCount (h.x b)
def execSha (d a b : Reg) (s : State) : Out := s.result [a, b] d fun h => (h.x a).sshiftRight (shiftCount (h.x b))
def execRot (d a b : Reg) (s : State) : Out := s.result [a, b] d fun h => (h.x a).rotateLeft (shiftCount (h.x b))

def execMin (d a b : Reg) (s : State) : Out :=
  s.result [a, b] d fun h => if condHolds .lt (h.x b) (h.x a) then h.x b else h.x a
def execMax (d a b : Reg) (s : State) : Out :=
  s.result [a, b] d fun h => if condHolds .lt (h.x a) (h.x b) then h.x b else h.x a
def execMinu (d a b : Reg) (s : State) : Out :=
  s.result [a, b] d fun h => if condHolds .ltu (h.x b) (h.x a) then h.x b else h.x a
def execMaxu (d a b : Reg) (s : State) : Out :=
  s.result [a, b] d fun h => if condHolds .ltu (h.x a) (h.x b) then h.x b else h.x a

def execCmp (c : Cond) (d a b : Reg) (s : State) : Out :=
  s.result [a, b] d fun h => if condHolds c (h.x a) (h.x b) then 1 else 0
def execSel (d a b c : Reg) (s : State) : Out :=
  s.result [a, b, c] d fun h => if h.x c ≠ 0 then h.x a else h.x b

/-- Leading zero bits (R184): counted from bit n - 1 down. -/
def leadingZeros (a : Word) : Nat → Nat
  | 0 => 0
  | n + 1 => if a.getLsbD n then 0 else 1 + leadingZeros a n

/-- Trailing zero bits (R184): of the n bits from bit i up. -/
def trailingZeros (a : Word) (i : Nat) : Nat → Nat
  | 0 => 0
  | n + 1 => if a.getLsbD i then 0 else 1 + trailingZeros a (i + 1) n

/-- One bits among the n lowest (R184). -/
def onesCount (a : Word) : Nat → Nat
  | 0 => 0
  | n + 1 => (if a.getLsbD n then 1 else 0) + onesCount a n

def execClz (d a : Reg) (s : State) : Out := s.result [a] d fun h => BitVec.ofNat 64 (leadingZeros (h.x a) 64)
def execCtz (d a : Reg) (s : State) : Out := s.result [a] d fun h => BitVec.ofNat 64 (trailingZeros (h.x a) 0 64)
def execPopc (d a : Reg) (s : State) : Out := s.result [a] d fun h => BitVec.ofNat 64 (onesCount (h.x a) 64)

def execAddi (d a : Reg) (imm : BitVec 16) (s : State) : Out := s.result [a] d fun h => h.x a + imm.signExtend 64
def execAndi (d a : Reg) (imm : BitVec 16) (s : State) : Out := s.result [a] d fun h => h.x a &&& imm.setWidth 64
def execOri (d a : Reg) (imm : BitVec 16) (s : State) : Out := s.result [a] d fun h => h.x a ||| imm.setWidth 64
def execXori (d a : Reg) (imm : BitVec 16) (s : State) : Out := s.result [a] d fun h => h.x a ^^^ imm.setWidth 64

def execShli (d a : Reg) (n : BitVec 6) (s : State) : Out := s.result [a] d fun h => h.x a <<< n.toNat
def execShri (d a : Reg) (n : BitVec 6) (s : State) : Out := s.result [a] d fun h => h.x a >>> n.toNat
def execShai (d a : Reg) (n : BitVec 6) (s : State) : Out := s.result [a] d fun h => (h.x a).sshiftRight n.toNat

def execCmpi (c : Cond) (d a : Reg) (imm : BitVec 12) (s : State) : Out :=
  s.result [a] d fun h => if condHolds c (h.x a) (imm.signExtend 64) then 1 else 0

def execLih (d : Reg) (imm : BitVec 16) (s : State) : Out :=
  s.result [] d fun h => (h.x d <<< 16) ||| imm.setWidth 64

def execLea (d a b : Reg) (sc : BitVec 3) (imm : BitVec 8) (s : State) : Out :=
  s.result [a, b] d fun h => h.x a + (h.x b <<< sc.toNat) + imm.signExtend 64

/-! ## Branches and calls (R191 to R194) -/

def execBc (c : Cond) (a b : Reg) (off : BitVec 12) (s : State) : Out :=
  s.onHart fun ag h =>
    if h.ready [a, b] then
      .next (s.putHart ag
        (if condHolds c (h.x a) (h.x b) then { h with pc := h.pc + (off.signExtend 64 <<< 2) } else h.advance 4))
    else .next s

def execJ (off : BitVec 26) (s : State) : Out :=
  s.onHart fun ag h => .next (s.putHart ag { h with pc := h.pc + (off.signExtend 64 <<< 2) })

def execJal (off : BitVec 26) (s : State) : Out :=
  s.onHart fun ag h =>
    if h.ready [1] then
      .next (s.putHart ag { h.setX 1 (h.pc + 4) with pc := h.pc + (off.signExtend 64 <<< 2) })
    else .next s

def execJr (a : Reg) (s : State) : Out :=
  s.onHart fun ag h => if h.ready [a] then .next (s.putHart ag { h with pc := h.x a &&& ~~~3#64 }) else .next s

def execJalr (d a : Reg) (s : State) : Out :=
  s.onHart fun ag h =>
    if h.ready [d, a] then .next (s.putHart ag { h.setX d (h.pc + 4) with pc := h.x a &&& ~~~3#64 }) else .next s

/-! ## Multiply and divide (R190) -/

/-- The quotient of DIV (R190): toward zero, all ones for a zero divisor; −2^63 / −1 is −2^63. -/
def divWord (a b : Word) : Word := if b = 0 then BitVec.allOnes 64 else a.sdiv b

/-- The remainder of REM (R190): the sign of the dividend, the dividend for a zero divisor. -/
def remWord (a b : Word) : Word := if b = 0 then a else a.srem b

def execMul (d a b : Reg) (s : State) : Out := s.result [a, b] d fun h => h.x a * h.x b
def execMulh (d a b : Reg) (s : State) : Out :=
  s.result [a, b] d fun h => (((h.x a).signExtend 128 * (h.x b).signExtend 128) >>> 64).setWidth 64
def execMulhu (d a b : Reg) (s : State) : Out :=
  s.result [a, b] d fun h => (((h.x a).setWidth 128 * (h.x b).setWidth 128) >>> 64).setWidth 64
def execDiv (d a b : Reg) (s : State) : Out := s.result [a, b] d fun h => divWord (h.x a) (h.x b)
def execDivu (d a b : Reg) (s : State) : Out :=
  s.result [a, b] d fun h => if h.x b = 0 then BitVec.allOnes 64 else h.x a / h.x b
def execRem (d a b : Reg) (s : State) : Out := s.result [a, b] d fun h => remWord (h.x a) (h.x b)
def execRemu (d a b : Reg) (s : State) : Out :=
  s.result [a, b] d fun h => if h.x b = 0 then h.x a else h.x a % h.x b

end Sys2Proof.Machine
end

