-- ==== Sys2Proof/Machine/Dispatch.lean ====
section
/-! DEFINITION. The dispatch of an instruction or event to its meaning. -/

namespace Sys2Proof.Machine

def exec (i : Instr) (s : State) : Host.Outcome State Fault Refusal :=
  match i with
  | .add d a b => Sys2Proof.Machine.execAdd d a b s
  | .sub d a b => Sys2Proof.Machine.execSub d a b s
  | .and d a b => Sys2Proof.Machine.execAnd d a b s
  | .or d a b => Sys2Proof.Machine.execOr d a b s
  | .xor d a b => Sys2Proof.Machine.execXor d a b s
  | .andn d a b => Sys2Proof.Machine.execAndn d a b s
  | .shl d a b => Sys2Proof.Machine.execShl d a b s
  | .shr d a b => Sys2Proof.Machine.execShr d a b s
  | .sha d a b => Sys2Proof.Machine.execSha d a b s
  | .rot d a b => Sys2Proof.Machine.execRot d a b s
  | .min d a b => Sys2Proof.Machine.execMin d a b s
  | .max d a b => Sys2Proof.Machine.execMax d a b s
  | .minu d a b => Sys2Proof.Machine.execMinu d a b s
  | .maxu d a b => Sys2Proof.Machine.execMaxu d a b s
  | .cmp c d a b => Sys2Proof.Machine.execCmp c d a b s
  | .sel d a b c => Sys2Proof.Machine.execSel d a b c s
  | .clz d a => Sys2Proof.Machine.execClz d a s
  | .ctz d a => Sys2Proof.Machine.execCtz d a s
  | .popc d a => Sys2Proof.Machine.execPopc d a s
  | .addi d a imm => Sys2Proof.Machine.execAddi d a imm s
  | .andi d a imm => Sys2Proof.Machine.execAndi d a imm s
  | .ori d a imm => Sys2Proof.Machine.execOri d a imm s
  | .xori d a imm => Sys2Proof.Machine.execXori d a imm s
  | .shli d a n => Sys2Proof.Machine.execShli d a n s
  | .shri d a n => Sys2Proof.Machine.execShri d a n s
  | .shai d a n => Sys2Proof.Machine.execShai d a n s
  | .cmpi c d a imm => Sys2Proof.Machine.execCmpi c d a imm s
  | .lih d imm => Sys2Proof.Machine.execLih d imm s
  | .lea d a b sc imm => Sys2Proof.Machine.execLea d a b sc imm s
  | .bc c a b off => Sys2Proof.Machine.execBc c a b off s
  | .j off => Sys2Proof.Machine.execJ off s
  | .jal off => Sys2Proof.Machine.execJal off s
  | .jr a => Sys2Proof.Machine.execJr a s
  | .jalr d a => Sys2Proof.Machine.execJalr d a s
  | .mul d a b => Sys2Proof.Machine.execMul d a b s
  | .mulh d a b => Sys2Proof.Machine.execMulh d a b s
  | .mulhu d a b => Sys2Proof.Machine.execMulhu d a b s
  | .div d a b => Sys2Proof.Machine.execDiv d a b s
  | .divu d a b => Sys2Proof.Machine.execDivu d a b s
  | .rem d a b => Sys2Proof.Machine.execRem d a b s
  | .remu d a b => Sys2Proof.Machine.execRemu d a b s
  | .ldf sz sx d a imm => Sys2Proof.Machine.execLdf sz sx d a imm s
  | .stf sz r a imm => Sys2Proof.Machine.execStf sz r a imm s
  | .ldp sz sx ord d a imm => Sys2Proof.Machine.execLdp sz sx ord d a imm s
  | .stp sz ord r a imm => Sys2Proof.Machine.execStp sz ord r a imm s
  | .ldg sz sx ord d a imm => Sys2Proof.Machine.execLdg sz sx ord d a imm s
  | .stg sz ord r a imm => Sys2Proof.Machine.execStg sz ord r a imm s
  | .ldh sz sx ord d a imm => Sys2Proof.Machine.execLdh sz sx ord d a imm s
  | .sth sz ord r a imm => Sys2Proof.Machine.execSth sz ord r a imm s
  | .mfc d a imm => Sys2Proof.Machine.execMfc d a imm s
  | .mtc r a imm => Sys2Proof.Machine.execMtc r a imm s
  | .cas dw ord host d a b => Sys2Proof.Machine.execCas dw ord host d a b s
  | .amo op dw ord host d a b => Sys2Proof.Machine.execAmo op dw ord host d a b s
  | .red op dw ord a b => Sys2Proof.Machine.execRed op dw ord a b s
  | .mark sc => Sys2Proof.Machine.execMark sc s
  | .ipf a n => Sys2Proof.Machine.execIpf a n s
  | .hint bits => Sys2Proof.Machine.execHint bits s
  | .trap c => Sys2Proof.Machine.execTrap c s
  | .scall c => Sys2Proof.Machine.execScall c s
  | .eret => Sys2Proof.Machine.execEret s
  | .waite => Sys2Proof.Machine.execWaite s
  | .halt => Sys2Proof.Machine.execHalt s
  | .tlbi a b => Sys2Proof.Machine.execTlbi a b s
  | .tlbsync => Sys2Proof.Machine.execTlbsync s
  | .streamFaultTrap t => Sys2Proof.Machine.execStreamFaultTrap t s
  | .deferredLoadFault t => Sys2Proof.Machine.execDeferredLoadFault t s
  | .loadBind ag po => Sys2Proof.Machine.execLoadBind ag po s
  | .haltComplete t => Sys2Proof.Machine.execHaltComplete t s
  | .tdset d td line => Sys2Proof.Machine.execTdset d td line s
  | .tdmov d td field a => Sys2Proof.Machine.execTdmov d td field a s
  | .tdget d td field => Sys2Proof.Machine.execTdget d td field s
  | .ringi d n a nslot slot1 => Sys2Proof.Machine.execRingi d n a nslot slot1 s
  | .ringq d n => Sys2Proof.Machine.execRingq d n s
  | .sld d td line rsz rg e pad mmas a b => Sys2Proof.Machine.execSld d td line rsz rg e pad mmas a b s
  | .sst d td line rsz rg e pad a b => Sys2Proof.Machine.execSst d td line rsz rg e pad a b s
  | .sga d td line rsz rg e a b => Sys2Proof.Machine.execSga d td line rsz rg e a b s
  | .ssc op d td line rsz rg e a b => Sys2Proof.Machine.execSsc op d td line rsz rg e a b s
  | .scpy d e drop linea lineb rga rgb a => Sys2Proof.Machine.execScpy d e drop linea lineb rga rgb a s
  | .krun d kentry a narg t5 b => Sys2Proof.Machine.execKrun d kentry a narg t5 b s
  | .kstat d a => Sys2Proof.Machine.execKstat d a s
  | .sqstat d a => Sys2Proof.Machine.execSqstat d a s
  | .sqwait a => Sys2Proof.Machine.execSqwait a s
  | .sqwaitAll => Sys2Proof.Machine.execSqwaitAll s
  | .nbmv d td yline acc a b => Sys2Proof.Machine.execNbmv d td yline acc a b s
  | .descend d td l0 l1 dg pt mg lf a b => Sys2Proof.Machine.execDescend d td l0 l1 dg pt mg lf a b s
  | .stkrun d n a b => Sys2Proof.Machine.execStkrun d n a b s
  | .stkrunNoring d a b => Sys2Proof.Machine.execStkrunNoring d a b s
  | .stkcan a => Sys2Proof.Machine.execStkcan a s
  | .gjoin g => Sys2Proof.Machine.execGjoin g s
  | .gleave g => Sys2Proof.Machine.execGleave g s
  | .gbar g => Sys2Proof.Machine.execGbar g s
  | .stepArr => Sys2Proof.Machine.execStepArr s
  | .stepWait => Sys2Proof.Machine.execStepWait s
  | .stepQry d full => Sys2Proof.Machine.execStepQry d full s
  | .streamStart t tag => Sys2Proof.Machine.execStreamStart t tag s
  | .ringWaitSatisfied t tag => Sys2Proof.Machine.execRingWaitSatisfied t tag s
  | .streamComplete t tag => Sys2Proof.Machine.execStreamComplete t tag s
  | .kernelBundle t => Sys2Proof.Machine.execKernelBundle t s
  | .ixrd app d a b => Sys2Proof.Machine.execIxrd app d a b s
  | .rowld td line w a b => Sys2Proof.Machine.execRowld td line w a b s
  | .ddup d mt line => Sys2Proof.Machine.execDdup d mt line s
  | .pool isMax acc td line w a b => Sys2Proof.Machine.execPool isMax acc td line w a b s
  | .poolWadd td line w a b => Sys2Proof.Machine.execPoolWadd td line w a b s
  | .emit e eos => Sys2Proof.Machine.execEmit e eos s
  | .sqw sz a b off => Sys2Proof.Machine.execSqw sz a b off s
  | .probe td w a b => Sys2Proof.Machine.execProbe td w a b s
  | .unpin => Sys2Proof.Machine.execUnpin s
  | .skend => Sys2Proof.Machine.execSkend s
  | .stoekPublish t tag => Sys2Proof.Machine.execStoekPublish t tag s
  | .mcWriteAccept ag => Sys2Proof.Machine.execMcWriteAccept ag s
  | .mcWriteback unit => Sys2Proof.Machine.execMcWriteback unit s
  | .msixHoldoffExpiry => Sys2Proof.Machine.execMsixHoldoffExpiry s
  | .launchAdmit => Sys2Proof.Machine.execLaunchAdmit s
  | .taskPlace pg => Sys2Proof.Machine.execTaskPlace pg s
  | .shadowPreload pg => Sys2Proof.Machine.execShadowPreload pg s
  | .budgetExpiry t => Sys2Proof.Machine.execBudgetExpiry t s
  | .drainLimitExpiry t => Sys2Proof.Machine.execDrainLimitExpiry t s
  | .contextSaveComplete t => Sys2Proof.Machine.execContextSaveComplete t s
  | .lqctlWrite q v => Sys2Proof.Machine.execLqctlWrite q v s
  | .lqtailDoorbell q v => Sys2Proof.Machine.execLqtailDoorbell q v s
  | .taskcmdTerminate lg lidx => Sys2Proof.Machine.execTaskcmdTerminate lg lidx s
  | .taskcmdRerun lg lidx => Sys2Proof.Machine.execTaskcmdRerun lg lidx s
  | .taskcmdSave lg lidx => Sys2Proof.Machine.execTaskcmdSave lg lidx s
  | .quiesceStep => Sys2Proof.Machine.execQuiesceStep s
  | .quiesceKernel => Sys2Proof.Machine.execQuiesceKernel s
  | .quiesceDone => Sys2Proof.Machine.execQuiesceDone s
  | .resume => Sys2Proof.Machine.execResume s
  | .restore => Sys2Proof.Machine.execRestore s
  | .greset pgn die => Sys2Proof.Machine.execGreset pgn die s
  | .ctxPoolWrite isN v => Sys2Proof.Machine.execCtxPoolWrite isN v s
  | .sfctlRetire t => Sys2Proof.Machine.execSfctlRetire t s
  | .wakeset lg => Sys2Proof.Machine.execWakeset lg s
  | .stepnumWrite v => Sys2Proof.Machine.execStepnumWrite v s
  | .stepqWrite v => Sys2Proof.Machine.execStepqWrite v s
  | .stepcfgWrite v => Sys2Proof.Machine.execStepcfgWrite v s
  | .evqctlWrite v => Sys2Proof.Machine.execEvqctlWrite v s
  | .registerWrite num v => Sys2Proof.Machine.execRegisterWrite num v s
  | .hwsizeWrite v => Sys2Proof.Machine.execHwsizeWrite v s
  | .fctlWrite v => Sys2Proof.Machine.execFctlWrite v s
  | .deadset rank => Sys2Proof.Machine.execDeadset rank s
  | .laserctlWrite v => Sys2Proof.Machine.execLaserctlWrite v s
  | .mrateWrite stack v => Sys2Proof.Machine.execMrateWrite stack v s
  | .rateSwitchComplete ch stallNs => Sys2Proof.Machine.execRateSwitchComplete ch stallNs s
  | .kscmdLoad v => Sys2Proof.Machine.execKscmdLoad v s
  | .kernelStoreCopy => Sys2Proof.Machine.execKernelStoreCopy s
  | .tcbaseWrite v => Sys2Proof.Machine.execTcbaseWrite v s
  | .attReport buf => Sys2Proof.Machine.execAttReport buf s
  | .attCertificate buf => Sys2Proof.Machine.execAttCertificate buf s
  | .hostBar0Access off op => Sys2Proof.Machine.execHostBar0Access off op s
  | .hostBar2Access off op => Sys2Proof.Machine.execHostBar2Access off op s
  | .ucieModuleFail m => Sys2Proof.Machine.execUcieModuleFail m s
  | .powerOn rank incarnation ptdir svecdef => Sys2Proof.Machine.execPowerOn rank incarnation ptdir svecdef s
  | .sidebandImagePush image => Sys2Proof.Machine.execSidebandImagePush image s
  | .ageingCheck die newMv slackPs starved => Sys2Proof.Machine.execAgeingCheck die newMv slackPs starved s
  | .tempSample stack layer temp => Sys2Proof.Machine.execTempSample stack layer temp s
  | .refreshCommand ch bank firstRow count => Sys2Proof.Machine.execRefreshCommand ch bank firstRow count s
  | .rowPrecharge ch bank row => Sys2Proof.Machine.execRowPrecharge ch bank row s
  | .patrolScrub unit => Sys2Proof.Machine.execPatrolScrub unit s
  | .stepWatchdogExpiry => Sys2Proof.Machine.execStepWatchdogExpiry s
  | .treeArr p => Sys2Proof.Machine.execTreeArr p s
  | .treeDrain p => Sys2Proof.Machine.execTreeDrain p s
  | .treeDrn p => Sys2Proof.Machine.execTreeDrn p s
  | .treeCommit p => Sys2Proof.Machine.execTreeCommit p s
  | .treeCmt p => Sys2Proof.Machine.execTreeCmt p s
  | .treeRel p => Sys2Proof.Machine.execTreeRel p s
  | .rdreq p => Sys2Proof.Machine.execRdreq p s
  | .rdrsp p => Sys2Proof.Machine.execRdrsp p s
  | .recv p => Sys2Proof.Machine.execRecv p s
  | .recack p => Sys2Proof.Machine.execRecack p s
  | .credit p => Sys2Proof.Machine.execCredit p s
  | .fabricRetry txid => Sys2Proof.Machine.execFabricRetry txid s
  | .fabricTimeout txid => Sys2Proof.Machine.execFabricTimeout txid s
  | .flitReceive port seq flit good => Sys2Proof.Machine.execFlitReceive port seq flit good s
  | .flitAck port seq => Sys2Proof.Machine.execFlitAck port seq s
  | .laserFailure unit how port detectNs replayNs => Sys2Proof.Machine.execLaserFailure unit how port detectNs replayNs s
  | .restripeTimeout port => Sys2Proof.Machine.execRestripeTimeout port s
  | .illopDecode => Sys2Proof.Machine.execIllopDecode s
  | .instructionFetchFault => Sys2Proof.Machine.execInstructionFetchFault s
  | .hostCompletion ag => Sys2Proof.Machine.execHostCompletion ag s
  | .podmapWrite idx v => Sys2Proof.Machine.execPodmapWrite idx v s
  | .linkReplay port => Sys2Proof.Machine.execLinkReplay port s
  | .sidebandFlashRewrite image => Sys2Proof.Machine.execSidebandFlashRewrite image s

end Sys2Proof.Machine
end

