-- ==== Sys2Proof/Machine/Policy.lean ====
section
/-! DEFINITION. Which agent or engine acts next (log 1). The spec leaves the interleaving open; this is one of those it permits, and
`State.agenda` can ask for any other. -/

namespace Sys2Proof.Machine

/-! ## What a word reads of its task's own state -/

/-- The registers whose values a word reads, so that it waits until older loads, CAS and AMO have written them (R182, R206). -/
def sources : Instr → List Reg
  | .add _ a b | .sub _ a b | .and _ a b | .or _ a b | .xor _ a b | .andn _ a b | .shl _ a b | .shr _ a b | .sha _ a b | .rot _ a b
  | .min _ a b | .max _ a b | .minu _ a b | .maxu _ a b | .cmp _ _ a b | .mul _ a b | .mulh _ a b | .mulhu _ a b | .div _ a b
  | .divu _ a b | .rem _ a b | .remu _ a b | .lea _ a b _ _ | .bc _ a b _ | .stf _ a b _ | .stp _ _ a b _ | .stg _ _ a b _
  | .sth _ _ a b _ | .mtc a b _ | .amo _ _ _ _ _ a b | .red _ _ _ a b | .tlbi a b | .sld _ _ _ _ _ _ _ _ a b | .sst _ _ _ _ _ _ _ a b
  | .sga _ _ _ _ _ _ a b | .ssc _ _ _ _ _ _ _ a b | .nbmv _ _ _ _ a b | .descend _ _ _ _ _ _ _ _ a b | .stkrun _ _ a b
  | .stkrunNoring _ a b => [a, b]
  | .sel _ a b c => [a, b, c]
  | .cas _ _ _ d a b => [d, a, b]
  | .clz _ a | .ctz _ a | .popc _ a | .addi _ a _ | .andi _ a _ | .ori _ a _ | .xori _ a _ | .shli _ a _ | .shri _ a _ | .shai _ a _
  | .cmpi _ _ a _ | .jr a | .jalr _ a | .ldf _ _ _ a _ | .ldp _ _ _ _ a _ | .ldg _ _ _ _ a _ | .ldh _ _ _ _ a _ | .mfc _ a _
  | .ipf a _ | .tdmov _ _ _ a | .ringi _ _ a _ _ | .scpy _ _ _ _ _ _ _ a | .kstat _ a | .sqstat _ a | .sqwait a | .stkcan a => [a]
  | .lih d _ => [d]
  | .krun _ _ a narg _ b => b :: argRegs a narg.toNat
  | _ => []

/-- What the word that an SCP executes reads of its task's own state as it stands: its registers; LDF and KRUN read the SRF, TDGET a
descriptor, RINGQ a ring. Nothing while older work holds it (R77, R182, R213, R215), and nothing past a check that comes before its
operands: privilege (R165), the registers of KRUN (R224), the limits of LDF and KRUN. -/
def Task.wordReads (t : Task) (i : Instr) : OwnReads :=
  let h := t.hart
  let n := { OwnReads.none with regs := sources i }
  let plain (o : Word) (len : Nat) : List (Nat × Nat) := if t.srfOk o len && !t.srfBusy (o.toNat, len) false then [(o.toNat, len)] else []
  if !h.ready (sources i) then OwnReads.none
  else
    match i with
    | .ldf sz _ _ a imm => { n with srf := plain (h.ea a imm) (szBytes sz) }
    | .krun _ _ a narg _ b => if krunPast a narg then OwnReads.none else { n with srf := if (h.x b).toNat % 128 = 0 then plain (h.x b) 128 else [] }
    | .tdget _ td _ => { n with descs := if t.sq.any (fun q => setsDesc td.toNat q.ins) then [] else [td.toNat] }
    | .ringq _ r => { n with rings := if t.sq.any (fun q => ringiOf q.ins == some r.toNat) then [] else [r.toNat] }
    | .tlbi _ _ => if t.sup.mode then n else OwnReads.none
    | .mtc _ a imm => (match ctlNumber t (imm.signExtend 64) a with
        | .ok _ => n
        | .error _ => { OwnReads.none with regs := [a] })
    | _ => n

/-- What an agent's instruction meets in its operands: DATAERR at the instruction, or the state with what it corrected. -/
def State.operands (s : State) (ag : Agent) (i : Instr) : State × Bool :=
  match ag with
  | .stoek _ _ => (s, true)
  | .scp k =>
    match s.task? k with
    | none => (s, true)
    | some t =>
      let n := t.wordReads i
      if n.bad t then ((s.postOnChip 2 t.lg 0xFF t.hart.pc.toNat).scpFault k (plainFault cDATAERR), false)
      else (s.correctOwn k t n, true)

/-! ## The turn of an agent -/

/-- Do the memory controllers accept what a step writes: do they hold at most their 64 entries each (R369, R370)? -/
def accepting : Out → Bool
  | .next t => !t.overfull
  | _ => true

/-- Fetch at an agent's pc and execute what is found there (R145, R152, R165). The instruction executes in the state that its fetch
leaves (translations cached, errors corrected); where its operands hold an uncorrectable error it ends with DATAERR (R322). -/
def State.fetchIssue (s : State) : Out :=
  match s.hart? s.focus with
  | none => .next s
  | some h =>
    let f := s.fetch s.focus h.pc
    match f.2 with
    | .instr i =>
      let o := f.1.operands s.focus i
      if o.2 then exec i o.1 else .next o.1
    | .illop => exec .illopDecode s
    | .fault _ _ => exec .instructionFetchFault s
    | .stop r => .fault r

/-- The event that an SCP takes before its next instruction: a deferred load fault (R392), or a pending stream fault in mode U with
EXL clear (R317). -/
def Task.beforeIssue (t : Task) (k : Nat) : Option Instr :=
  if !t.deferred.isEmpty && t.scpOn then some (.deferredLoadFault k)
  else if t.pendingFault.isSome && t.streamTrapOk then some (.streamFaultTrap k)
  else none

/-- The turn of the agent in focus; what the memory controllers do not accept it tries again later (log 55). -/
def State.agentTurn (s : State) : Out :=
  let s1 := { s with engineTurn := true }
  let before := match s.focus with
    | .scp k => (s.task? k).bind (Task.beforeIssue · k)
    | .stoek _ _ => none
  let o := match before with
    | some e => exec e s1
    | none => if s.runs s.focus then s1.fetchIssue else .next s1
  if accepting o then o else .next s1

/-! ## The turn of the engines -/

/-- All agents: the SCP of each task, then its Stoek programs. -/
def State.agents (s : State) : List Agent :=
  s.tasks.flatMap (fun e => Agent.scp e.1 :: e.2.stoeks.map (fun p => Agent.stoek e.1 p.tag))

/-- The agent after another in the list, or the first. -/
def agentAfter (ag : Agent) (l : List Agent) : Option Agent :=
  match (l.dropWhile (· ≠ ag)).tail.head? with
  | some b => some b
  | none => l.head?

/-- The events of the memory queues of an agent: its oldest pending loads, its store queue, its accepted host stores. -/
def hartEvents (ag : Agent) (h : Hart) : List Instr :=
  h.loads.map (fun e => .loadBind ag e.po) ++ [.mcWriteAccept ag, .hostCompletion ag]

/-- The events that the engines of a task may perform. -/
def taskEvents (k : Nat) (t : Task) : List Instr :=
  hartEvents (.scp k) t.hart ++ t.stoeks.flatMap (fun p => .stoekPublish k p.tag :: hartEvents (.stoek k p.tag) p.hart) ++
    t.sq.flatMap (fun q => [.streamStart k q.tag, .ringWaitSatisfied k q.tag, .streamComplete k q.tag]) ++
    [.kernelBundle k, .contextSaveComplete k, .haltComplete k]

/-- The physical gnoums that could take a task. -/
def State.openGnoums (s : State) : List Nat :=
  (List.range 256).filter (fun pg => s.inService pg && (tget PhysG.idle s.disp.physG pg).active.isNone)

/-- The events of the dispatch unit and the management core. -/
def State.unitEvents (s : State) : List Instr :=
  s.disp.pendingSave.filterMap (fun k => (s.task? k).map (fun t => .taskcmdSave (BitVec.ofNat 8 t.lg) (BitVec.ofNat 8 t.launch))) ++
    s.disp.launches.filterMap (fun e => if e.2.unacked = 0 then none else some (.hostCompletion (.scp (taskKey e.1 0)))) ++
    [.kernelStoreCopy, .quiesceDone, .launchAdmit] ++ (s.openGnoums.take 1).map .taskPlace

/-- The first of these events that does something and that the memory controllers accept. -/
def State.firstOf (s : State) : List Instr → Out
  | [] => .next s
  | e :: es =>
    match exec e s with
    | .next t => if t = s || t.overfull then s.firstOf es else .next t
    | o => o

/-- What goes on without a row of its own: the oldest store of a host agent performs (R99, log 44), slots at the next hops are free again and
packets leave (R387), each die's margin moves a step (R415). -/
def State.passive (s : State) : State :=
  let s1 := match s.host.stores with
    | x :: r => { s with hmem := wrBytes s.hmem (addrs x.1 x.2.length) x.2, host := { s.host with stores := r } }
    | [] => s
  let s2 := s1.freeSlots
  (if s2.fabricOn then s2.drainPorts else s2).pump.stepMargins

/-- The turn of the engines: focus moves to the next agent; one event of the units, or of that agent's task, or a writeback. -/
def State.engineRun (s : State) : Out :=
  let s1 := State.passive { s with engineTurn := false, focus := (agentAfter s.focus s.agents).getD s.focus }
  let mine := match s1.task? (agentTask s1.focus) with
    | some t => taskEvents (agentTask s1.focus) t
    | none => []
  s1.firstOf (s1.unitEvents ++ mine ++ ((s1.ms.wq.filter (fun u => !s1.rateBusy (channelOf (64 * u)))).take 1).map .mcWriteback)

end Sys2Proof.Machine
end

