-- ==== Sys2Proof/Machine/Step.lean ====
section
/-! DEFINITION. One step of the package, and the placing of an instruction where the next step fetches it. -/

namespace Sys2Proof.Machine

/-- One step (log 1): the event at the head of the agenda, else in turn the agent in focus and the engines. An event that the memory
controllers do not accept comes later (log 55). -/
def step (s : State) : Host.Outcome State Fault Refusal :=
  match s.agenda with
  | e :: r =>
    let o := exec e { s with agenda := r }
    if accepting o then o else .next { s with agenda := r ++ [e] }
  | [] => if s.engineTurn then s.engineRun else s.agentTurn

/-- The bytes of a table row's instruction (R6, R145). -/
def rowBytes (w : Nat) : List Byte := leBytes 8 w

/-- Is the first word one that only a Stoek core executes (R280)? -/
def rowIsStoek (w : Nat) : Bool :=
  match decode (rowBytes w) with
  | .ok (i, _) => i.isStoekOp
  | .error _ => false

/-- The address at which a loaded program starts (log 7). -/
def loadPc : Word := 0x1000

/-- A translation of address space 0 that maps the first GiB of virtual addresses to local address 2^30: directory at 0, root table
at 1 MiB, level-2 table at 2 MiB (R354 to R357). -/
def loadTables (rank : Nat) (m : List Host.Cell) : List Host.Cell :=
  let up := rank * 2 ^ 40
  wrNat (wrNat (wrNat m 0 8 (up + 0x100001)) 0x100000 8 (up + 0x200001)) 0x200000 8 (up + 0x4000008F)

/-- The Stoek program of a loaded task. -/
def loadStoek : Stoek :=
  { tag := 0, core := true, ring := none, hart := { Hart.empty with pc := loadPc }, ix := [], ixn := 0, map := [], tile := [], delivery := [],
    pins := [], triples := [], published := 0, descs := [], modeS := true, ending := .running }

/-- The task of a loaded program: placed on gnoum 0, in mode S so that every word runs. -/
def loadTask (stoek : Bool) : Task :=
  { launch := 0, index := 0, lg := 0, foot := 1, stepm := false, asid := 0, gpermit := 0xFFFFFFFFFFFFFFFF, prio := 0, budget := 0,
    run := .placed 0, readySeq := 0, readyAt := 0, since := 0, fresh := false, hart := { Hart.empty with pc := loadPc },
    sup := { Sup.first 0 with mode := true }, groups := [], owed := [], gbarWait := none, inStepWait := false, stepOwed := false,
    full := false, arrived := false, counted := false, seq := 0, halting := false, doubled := false, deferred := [], srf := [], descs := [], rings := [], tags := [],
    nextTag := 0, dregs := [], sq := [], kern := none, ksaved := false, stoeks := if stoek then [loadStoek] else [],
    sbad := [], dbad := [], rbad := [] }

/-- The state with an instruction stored where the next step fetches it: a task that is ready to run it is put in place (log 7). -/
def State.withFetchWord (s : State) (_nbits w : Nat) : State :=
  let st := rowIsStoek w
  let m := wrList (loadTables s.rank s.mem) (2 ^ 30 + 0x1000) (rowBytes w)
  let s1 := s.setPreg 0x400 (s.rank * 2 ^ 40)
  { s1 with agenda := [], focus := if st then .stoek 0 0 else .scp 0, engineTurn := false, mem := m,
            tlb := [], ms := { s1.ms with ecc := [] }, tasks := tput s1.tasks 0 (loadTask st) }

end Sys2Proof.Machine
end

