-- ==== Sys2Proof/Safety.lean ====
section
/-! DEFINITION. What counts as a safe step and a sound state, and the terms in which statements say who executes and what of the state
an instruction changes. -/

namespace Sys2Proof

/-- The step does not leave the machine that the spec describes: no access to what is not memory, no refusal. -/
def safeStep (s : Machine.State) : Prop := ∃ t, Machine.step s = .next t

/-- The package's memory and the host's memory are in canonical form. -/
def memorySound (s : Machine.State) : Prop := Machine.Memory.wf s.mem = true ∧ Machine.Memory.wf s.hmem = true

/-- The control registers are in canonical form. -/
def registersSound (s : Machine.State) : Prop := Machine.twf 0 s.pregs = true

/-- What every step keeps: equal memories and equal register files are equal data. -/
def sound (s : Machine.State) : Prop := memorySound s ∧ registersSound s

namespace Machine

/-! ## Who executes -/

/-- The agent in focus executes words with this hart: its task is placed (or drains, R338), and its Stoek program has not ended. -/
def Executes (s : State) (ag : Agent) (h : Hart) : Prop := s.focus = ag ∧ s.runs ag = true ∧ s.hart? ag = some h

/-- The SCP of task k is in focus and executes words. -/
def ScpExecutes (s : State) (k : Nat) (t : Task) : Prop := s.focus = .scp k ∧ s.task? k = some t ∧ t.placed = true

/-- The Stoek program p of task k is in focus and executes words. -/
def StoekExecutes (s : State) (k tag : Nat) (t : Task) (p : Stoek) : Prop :=
  s.focus = .stoek k tag ∧ s.runs (.stoek k tag) = true ∧ s.task? k = some t ∧ t.stoek? tag = some p

/-- No check code of a task's own state has an error, so that nothing it reads is corrected or refused (R323). -/
def Task.clean (t : Task) : Prop := t.hart.xbad = [] ∧ t.sbad = [] ∧ t.dbad = [] ∧ t.rbad = []

/-! ## What a load binds -/

/-- A store entry, older than a place in program order and not performed, leaves byte b at a physical address of a space. -/
def StoreEntry.Gives (e : StoreEntry) (sp : Space) (pa po : Nat) (b : Byte) : Prop :=
  e.po < po ∧ e.atK = false ∧ ∃ va pas data pc l r, e.kind = .store sp va pas data pc ∧ pas.zip data = l ++ (pa, b) :: r ∧
    ∀ x ∈ r, x.1 ≠ pa

/-- The byte that a load takes at a physical address (R105, R106, R125): of package or host memory, that of the youngest older store to it
that has not performed, else memory's; of a pod address, memory's at its home. -/
def BindsByte (s : State) (h : Hart) (po : Nat) (l : ScalarLoad) (pa : Nat) (b : Byte) : Prop :=
  (l.space = .pod ∧ b = if pa / 2 ^ 40 = s.rank then rdByte s.mem (pa % 2 ^ 40) else tget 0 l.got pa) ∨
  (l.space ≠ .pod ∧ ∃ pre e post, h.stores = pre ++ e :: post ∧ e.Gives l.space pa po b ∧ ∀ x ∈ post, ∀ c, ¬x.Gives l.space pa po c) ∨
  (l.space ≠ .pod ∧ (∀ x ∈ h.stores, ∀ c, ¬x.Gives l.space pa po c) ∧
    b = if l.space = .host then rdByte s.hmem pa else rdByte s.mem (pa % 2 ^ 40))

/-! ## What changes -/

/-- Every byte of both memories reads as before. -/
def SameMemory (s t : State) : Prop := (∀ a, rdByte t.mem a = rdByte s.mem a) ∧ ∀ a, rdByte t.hmem a = rdByte s.hmem a

/-- Only task k differs: every other task, both memories, every package register and unit is as before. -/
def OnlyTask (s t : State) (k : Nat) (u : Task) : Prop :=
  t.task? k = some u ∧ (∀ j, j ≠ k → t.task? j = s.task? j) ∧ SameMemory s t ∧ { t with tasks := s.tasks } = s

/-- A task apart from its SCP's hart and its Stoek programs. -/
def Task.bare (t : Task) : Task := { t with hart := Hart.empty, stoeks := [] }

/-- A Stoek program apart from its hart. -/
def Stoek.bare (p : Stoek) : Stoek := { p with hart := Hart.empty }

/-- The Stoek program of a task with a tag. -/
def State.program (s : State) (k tag : Nat) : Option Stoek := (s.task? k).bind (·.stoek? tag)

/-- Of the tasks and the memories only the hart of one agent differs: the harts of all others, every other field of every task
(mode, status and exception registers, SRF, rings, descriptors, queues) and program, and both memories are as before. -/
def HartChanges (s t : State) (ag : Agent) (h' : Hart) : Prop :=
  t.hart? ag = some h' ∧ (∀ b, b ≠ ag → t.hart? b = s.hart? b) ∧
  (∀ k, (t.task? k).map Task.bare = (s.task? k).map Task.bare) ∧
  (∀ k n, (t.program k n).map Stoek.bare = (s.program k n).map Stoek.bare) ∧ SameMemory s t

/-- Only the hart of one agent differs in the whole state, every package register and unit included. -/
def OnlyHart (s t : State) (ag : Agent) (h' : Hart) : Prop := HartChanges s t ag h' ∧ { t with tasks := s.tasks } = s

/-- Only one Stoek program differs: the task's other programs and every other field of the task, every other task, both
memories, every package register and unit is as before. -/
def OnlyProgram (s t : State) (k tag : Nat) (p : Stoek) : Prop :=
  t.program k tag = some p ∧ (∀ n, n ≠ tag → t.program k n = s.program k n) ∧
  (t.task? k).map (fun u => { u with stoeks := [] }) = (s.task? k).map (fun u => { u with stoeks := [] }) ∧
  (∀ j, j ≠ k → t.task? j = s.task? j) ∧ SameMemory s t ∧ { t with tasks := s.tasks } = s

/-- Every package register but CECOUNT (0x220) holds what it held. -/
def SameRegisters (s t : State) : Prop := ∀ n, n ≠ 0x220 → t.preg n = s.preg n

/-- Outside the tasks, only what a translation may touch differs: cached translations, corrected check units and their count
(CECOUNT), and the counter of free choices. -/
def SameButTranslation (s t : State) : Prop :=
  SameRegisters s t ∧
  { t with tasks := s.tasks, tlb := s.tlb, freeCtr := s.freeCtr, pregs := s.pregs, ms := { t.ms with ecc := s.ms.ecc } } = s

/-- The same, where requests may also have gone to the fabric. -/
def SameButRequests (s t : State) : Prop :=
  SameRegisters s t ∧
  { t with tasks := s.tasks, tlb := s.tlb, freeCtr := s.freeCtr, pregs := s.pregs, ms := { t.ms with ecc := s.ms.ecc },
           fab := s.fab } = s

/-- Register d of a hart takes a value, with a good check code (R323); x0 takes none; every other register is as before. -/
def RegisterSet (h h' : Hart) (d : Reg) (v : Word) : Prop :=
  (∀ r, h'.x r = if r = d ∧ r ≠ 0 then v else h.x r) ∧
  ∀ n, tget 0 h'.xbad n = if n = d.toNat ∧ n ≠ 0 then 0 else tget 0 h.xbad n

/-- Register d of a hart takes a value, the pc moves n bytes on, and nothing else of the hart changes. -/
def RegisterWritten (h h' : Hart) (d : Reg) (v : Word) (n : Nat) : Prop :=
  RegisterSet h h' d v ∧ h'.pc = h.pc + BitVec.ofNat 64 n ∧ { h' with xs := h.xs, xbad := h.xbad, pc := h.pc } = h

/-- Instruction i completes with a register result: it answers the next state in which register d holds v, the pc has moved n
bytes on, and nothing else has changed. -/
def Results (i : Instr) (s : State) (ag : Agent) (h : Hart) (d : Reg) (v : Word) (n : Nat) : Prop :=
  ∃ t h', exec i s = .next t ∧ OnlyHart s t ag h' ∧ RegisterWritten h h' d v n

/-- Instruction i completes with a jump: register d holds v, the pc holds the target, and nothing else has changed. -/
def Jumps (i : Instr) (s : State) (ag : Agent) (h : Hart) (d : Reg) (v target : Word) : Prop :=
  ∃ t h', exec i s = .next t ∧ OnlyHart s t ag h' ∧ RegisterSet h h' d v ∧ h'.pc = target ∧
    { h' with xs := h.xs, xbad := h.xbad, pc := h.pc } = h

/-- Instruction i completes and changes task k alone. -/
def Becomes (i : Instr) (s : State) (k : Nat) (u : Task) : Prop := ∃ t, exec i s = .next t ∧ OnlyTask s t k u

/-- Instruction i completes and changes one Stoek program alone. -/
def ProgramBecomes (i : Instr) (s : State) (k tag : Nat) (p : Stoek) : Prop :=
  ∃ t, exec i s = .next t ∧ OnlyProgram s t k tag p

/-- A field of a word, bits [hi:lo], as a number. -/
def wordBits (v : Word) (hi lo : Nat) : Nat := v.toNat / 2 ^ lo % 2 ^ (hi + 1 - lo)

/-- Task u is task t after the SCP has taken a trap (R317): the causes in the fields of ECAUSE (R315), the faulting pc, the return
pc with its last two bits clear, the faulting address or 0, the former mode in PMODE, mode S, EXL, and the pc at SVEC. The wait
that a trap interrupts is given up; the trap for STEPFULL is kept in mind until the return to mode U (R139, R316); nothing else of the
task changes. -/
def TrapTaken (t u : Task) (code cls code8 tag : Nat) (va : Option Word) (wr late : Bool) (fp rp : Word) : Prop :=
  u.sup.ecause.toNat = code + cls * 2 ^ 8 + code8 * 2 ^ 10 + tag * 2 ^ 18 + va.isSome.toNat * 2 ^ 24 + wr.toNat * 2 ^ 25 +
    late.toNat * 2 ^ 26 ∧
  u.sup.efpc = fp ∧ u.sup.epc.toNat = rp.toNat / 4 * 4 ∧ u.sup.eva = va.getD 0 ∧ u.sup.pmode = t.sup.mode ∧ u.sup.mode = true ∧
  u.sup.exl = true ∧ u.hart.pc = t.sup.svec ∧
  { u.sup with ecause := t.sup.ecause, efpc := t.sup.efpc, epc := t.sup.epc, eva := t.sup.eva, pmode := t.sup.pmode,
               mode := t.sup.mode, exl := t.sup.exl } = t.sup ∧
  { u.hart with pc := t.hart.pc } = t.hart ∧
  u.full = (t.full || decide (code = cSTEPFULL ∧ cls = 0)) ∧
  { u with sup := t.sup, hart := t.hart, halting := t.halting, gbarWait := t.gbarWait, inStepWait := t.inStepWait, full := t.full } = t

/-- Instruction i of the SCP of task k raises a fault of class 0 at its own pc, and nothing of it takes effect. -/
def Faults (i : Instr) (s : State) (k : Nat) (t : Task) (code : Nat) (va : Option Word) (wr : Bool) : Prop :=
  ∃ u, Becomes i s k u ∧ TrapTaken t u code 0 0 0 va wr false t.hart.pc t.hart.pc

/-- Task u is task t with instruction i placed last in its stream queue (R21, R22): operands held, not started, no fault; register d
holds the tag; the pc is past both words; the tag's status has neither STARTED (bit 21) nor DONE (bit 22); a store entry has
entered where the instruction has one. Nothing else of the task changes. -/
def Queued (t u : Task) (i : Instr) (d : Reg) (ops : List Word) (blk : List Byte) : Prop :=
  ∃ q, u.sq = t.sq ++ [q] ∧ q.ins = i ∧ q.ops = ops ∧ q.blk = blk ∧ q.tag = t.nextTag ∧ q.pc = t.hart.pc ∧ q.po = t.hart.po ∧
    q.started = false ∧ q.running = false ∧ q.fault = none ∧ u.nextTag = t.nextTag + 1 ∧
    (∀ r, u.hart.x r = if r = d ∧ r ≠ 0 then BitVec.ofNat 64 (t.nextTag % 64) else t.hart.x r) ∧
    u.hart.pc = t.hart.pc + 8 ∧ u.hart.loads = t.hart.loads ∧
    u.hart.stores.map (·.kind) = t.hart.stores.map (·.kind) ++ (if hasStoreEntry i then [.stream t.nextTag] else []) ∧
    wordBits (u.tag (t.nextTag % 64)).status 22 21 = 0 ∧
    { u with sq := t.sq, nextTag := t.nextTag, tags := t.tags, hart := t.hart } = t

/-- A stream instruction that is queued with its registers held (R206): its register d, and the registers whose values it holds. -/
def HoldsRegisters (i : Instr) (d a b : Reg) (rs : List Reg) : Prop :=
  (∃ td line, i = .tdset d td line ∧ rs = []) ∨ (∃ td f, i = .tdmov d td f a ∧ rs = [a]) ∨
  (∃ n nslot slot1, i = .ringi d n a nslot slot1 ∧ rs = [a]) ∨
  (∃ td line rsz rg e pad mm, i = .sld d td line rsz rg e pad mm a b ∧ rs = [a, b]) ∨
  (∃ td line rsz rg e pad, i = .sst d td line rsz rg e pad a b ∧ rs = [a, b]) ∨
  (∃ td line rsz rg e, i = .sga d td line rsz rg e a b ∧ rs = [a, b]) ∨
  (∃ op td line rsz rg e, i = .ssc op d td line rsz rg e a b ∧ rs = [a, b]) ∨
  (∃ e dr la lb rga rgb, i = .scpy d e dr la lb rga rgb a ∧ rs = [a]) ∨
  (∃ td y acc, i = .nbmv d td y acc a b ∧ rs = [a, b]) ∨
  (∃ td l0 l1 dg pt mg lf, i = .descend d td l0 l1 dg pt mg lf a b ∧ rs = [a, b]) ∨
  (∃ n, i = .stkrun d n a b ∧ rs = [a, b]) ∨ (i = .stkrunNoring d a b ∧ rs = [a, b])

/-- A queued instruction whose tag is no other's starts, of a task that is on a gnoum: either it leaves the queue now (R23), with STARTED set
and the moment it asks for a core, or it had left the queue and waited for a core or for pins, and no older one has faulted (R208, R229). Its
checks are made in state s0, where its task is t0 and it is q0. -/
def StartsFrom (s : State) (k : Nat) (t : Task) (q : QInstr) (s0 : State) (t0 : Task) (q0 : QInstr) : Prop :=
  (q.started = false ∧ s.mayLeave t q = true ∧ q0 = { q with started := true, asked := s.disp.readySeq } ∧ t0 = t.leave q0 ∧
     s0 = State.putTask { s with disp := { s.disp with readySeq := s.disp.readySeq + 1 } } k t0) ∨
  (q.started = true ∧ t.seated = true ∧ (∀ x ∈ t.sq, x.po < q.po → x.fault = none) ∧ q0 = q ∧ t0 = t ∧ s0 = s)

/-- The checks that an instruction makes as it starts, in the order of R207, with its descriptor d: all but STKRUN's. -/
def StartChecks (t : Task) (q : QInstr) (d : Desc) (c : Res Unit) : Prop :=
  (setsSomeDesc q.ins = true ∧ c = (q.newDesc t).map (fun _ => ())) ∨
  (∃ e n a ns s1, q.ins = .ringi e n a ns s1 ∧ c = (q.newRing t).map (fun _ => ())) ∨
  (∃ e x dr la lb rga rgb a, q.ins = .scpy e x dr la lb rga rgb a ∧ c = q.scpyCheck t) ∨
  (isKrun q.ins = true ∧ c = q.krunCheck t) ∨ (∃ e td y acc a b, q.ins = .nbmv e td y acc a b ∧ c = q.nbmvCheck t d) ∨
  (∃ g, QInstr.geo { q with desc := d } = some g ∧ c = QInstr.moveCheck { q with desc := d } t g) ∨
  (∃ o, q.descendOp = some o ∧ c = QInstr.descendCheck { q with desc := d } t o)

/-- Does an instruction probe its pages before it starts: a pod store, a reduction, a DESCEND with PT (R96, R300)? -/
def ProbesPages (q : QInstr) (d : Desc) : Prop :=
  (∃ g, QInstr.geo { q with desc := d } = some g ∧ QInstr.probes { q with desc := d } g = true) ∨ ∃ o, q.descendOp = some o ∧ o.pt = true

/-- Task u is task t with instruction q of its queue running: its descriptor and pins are held, and its load entry has entered the load
queue where it has one and had not entered before a save (R101). Of the rest only the kernel array and the Stoek programs may differ. -/
def StreamRuns (t u : Task) (q : QInstr) (d : Desc) (pins : List Pin) (resv : Nat) : Prop :=
  u.queued? q.tag = some { q with running := true, entered := true, desc := d, pins := pins, resv := resv } ∧
  (∀ n, n ≠ q.tag → u.queued? n = t.queued? n) ∧
  u.hart.loads = t.hart.loads ++ (if hasLoadEntry q.ins && !q.entered then
    [{ po := q.po, kind := .stream q.tag, acq := false, rel := false, begun := false }] else []) ∧
  { u.hart with loads := t.hart.loads } = t.hart ∧
  { u with sq := t.sq, hart := t.hart, kern := t.kern, stoeks := t.stoeks } = t

/-- Task u is task t with a stream fault of instruction q to be taken (R208): it does not run, its pins and its reservation are gone. -/
def StreamFaulted (t u : Task) (q : QInstr) (f : FaultInfo) : Prop :=
  u.queued? q.tag = some { q with fault := some f, taken := false, running := false, pins := [], resv := 0, got := [] } ∧
  (∀ n, n ≠ q.tag → u.queued? n = t.queued? n) ∧ u.hart.xs = t.hart.xs ∧ u.hart.pc = t.hart.pc ∧
  { u with sq := t.sq, hart := t.hart } = t

/-- Task u is task t after the instruction with a tag has completed with a code and a COUNT (R22, R210): it has left the queue with its load and store
entries, and its tag, if no later instruction has taken it, is DONE. Of the rest only what an effect names may differ: the SRF, the
rings, the descriptors (and which of them a queued STKRUN is to see, R278), the D registers and the Stoek programs. -/
def StreamCompleted (t u : Task) (tag code count : Nat) : Prop :=
  u.sq.map (fun x => { x with descs := [] }) = (t.sq.filter (fun x => x.tag ≠ tag)).map (fun x => { x with descs := [] }) ∧
  (∀ e, e ∈ u.hart.loads ↔ e ∈ t.hart.loads ∧ e.kind ≠ .stream tag) ∧
  (∀ e, e ∈ u.hart.stores ↔ e ∈ t.hart.stores ∧ e.kind ≠ .stream tag) ∧
  u.hart.xs = t.hart.xs ∧ u.hart.pc = t.hart.pc ∧ u.hart.po = t.hart.po ∧
  (t.nextTag ≤ tag + 64 → wordBits (u.tag (tag % 64)).status 7 0 = code % 256 ∧
    wordBits (u.tag (tag % 64)).status 22 21 = 3 ∧ wordBits (u.tag (tag % 64)).status 63 45 = min count 524287) ∧
  (∀ n, n ≠ tag % 64 → u.tag n = t.tag n) ∧
  { u with sq := t.sq, tags := t.tags, hart := t.hart, srf := t.srf, rings := t.rings, descs := t.descs, dregs := t.dregs,
           stoeks := t.stoeks } = t

/-- An STKRUN older than q that has not started is to see the descriptors that it was to see (R278). -/
def StkrunsSeeTheSame (t u : Task) (q : QInstr) : Prop :=
  ∀ x ∈ t.sq, isStkrun x.ins = true → x.running = false → x.po < q.po → x.tag ≠ q.tag →
    ∃ x' ∈ u.sq, x'.tag = x.tag ∧ ∀ m, tget Desc.invalid (x'.seenDescs u) m = tget Desc.invalid (x.seenDescs t) m

/-- n bytes of the SRF from an offset hold what f gives; every other byte is as before. -/
def SrfTakes (m m' : Tbl Line) (o n : Nat) (f : Nat → Byte) : Prop :=
  ∀ a, srfByte m' a = if o ≤ a ∧ a < o + n then f (a - o) else srfByte m a

/-- A ring publishes one slot, which ends its stream or not (R81). -/
def RingPublishes (r r' : Ring) (eos : Bool) : Prop :=
  r'.filled = r.filled + 1 ∧ r'.free = r.free - 1 ∧ r'.tail = (r.tail + 1) % r.nslot ∧
  (∀ i, i < 256 → r'.eos.getLsbD i = if i = r.tail % r.nslot then eos else r.eos.getLsbD i) ∧
  { r' with filled := r.filled, free := r.free, tail := r.tail, eos := r.eos } = r

/-- A ring releases one slot (R81). -/
def RingReleases (r r' : Ring) : Prop :=
  r'.filled = r.filled - 1 ∧ r'.free = r.free + 1 ∧ r'.head = (r.head + 1) % r.nslot ∧
  (∀ i, i < 256 → r'.eos.getLsbD i = (decide (i ≠ r.head % r.nslot) && r.eos.getLsbD i)) ∧
  { r' with filled := r.filled, free := r.free, head := r.head, eos := r.eos } = r

/-- Of the rings of a task only those numbered here may differ. -/
def OtherRings (l : List Nat) (t u : Task) : Prop := ∀ j, j ∉ l → u.ring j = t.ring j

/-! ## Streams that move -/

/-- A running stream instruction with a tag, without a fault, of a task that is on a gnoum and whose own state has no error. -/
def StreamAt (s : State) (k tag : Nat) (t : Task) (q : QInstr) : Prop :=
  s.task? k = some t ∧ t.onChip = true ∧ t.clean ∧ t.queued? tag = some q ∧ q.fault = none ∧ q.running = true

/-- The rings, descriptors, D registers and Stoek programs of a task are as before. -/
def OthersStay (t u : Task) : Prop := u.rings = t.rings ∧ u.descs = t.descs ∧ u.dregs = t.dregs ∧ u.stoeks = t.stoeks

/-- Of the tasks only task k differs. -/
def OtherTasks (s t : State) (k : Nat) : Prop := ∀ j, j ≠ k → t.task? j = s.task? j

/-- What writes leave of byte a that held b: each replaces the bits of its mask, in order. -/
def writesLeave (ws : Writes) (a : Nat) (b : Byte) : Byte :=
  ws.foldl (fun v x => if x.1 = a then (v &&& ~~~x.2.1) ||| (x.2.2 &&& x.2.1) else v) b

/-- An SST or SSC writes these bytes to package or host memory: every byte of that memory is what the writes leave of it, the other memory
is as before. -/
def StoresTo (sp : Space) (ws : Writes) (s s' : State) : Prop :=
  (sp = .package → (∀ a, rdByte s'.mem a = writesLeave (ws.map (fun x => (x.1 % 2 ^ 40, x.2))) a (rdByte s.mem a)) ∧
    ∀ a, rdByte s'.hmem a = rdByte s.hmem a) ∧
  (sp = .host → (∀ a, rdByte s'.hmem a = writesLeave ws a (rdByte s.hmem a)) ∧ ∀ a, rdByte s'.mem a = rdByte s.mem a)

/-- Records enter an apron whose base stands in a register (R129, R138, R369): each has granules of its own there, as many as its size, and no byte
of memory outside them has changed. -/
def ApronTakes (s s' : State) (reg : Nat) (old recs : List Rec) : Prop :=
  (∀ i r, recs[i]? = some r → 16 * r.place.length = recSize r.data.length ∧ r.place.Nodup ∧
    ∀ j x, (old ++ recs)[j]? = some x → j ≠ old.length + i → ∀ g ∈ r.place, g ∉ x.place) ∧
  ∀ a, (∀ r ∈ recs, a ∉ s.apronBytes reg r) → rdByte s'.mem a = rdByte s.mem a

/-- The controllers can take these writes now: there is room in their queues, and no unit that they touch has an uncorrectable error. -/
def CanStore (sp : Space) (ws : Writes) (s : State) : Prop :=
  sp = .package → s.canAccept (writeUnits ws) = true ∧ ∀ u ∈ writeUnits ws, s.badUnit u = false

/-! ## Tree descents -/

/-- The entries that a run holds. -/
def runEntries (perm : List Nat) (r : TreeRun) : List Nat := (perm.drop r.start).take r.count

/-- One level of a descent (R299): of each run in order, first the entries that go left, then those that go right, in the order they had; each
list that is not empty is a run of the child. `m j e` is the margin of entry e in run j. -/
def LevelLeaves (m : Nat → Nat → Nat) (perm : List Nat) (runs : List TreeRun) (perm' : List Nat) (runs' : List TreeRun) : Prop :=
  ∃ ls : List (Nat × List Nat),
    ls = ((runs.zip (List.range runs.length)).flatMap (fun x =>
      [(2 * x.1.node + 1, (runEntries perm x.1).filter (fun e => !signBit (m x.2 e))),
       (2 * x.1.node + 2, (runEntries perm x.1).filter (fun e => signBit (m x.2 e)))])).filter (fun x => !x.2.isEmpty) ∧
    perm' = ls.flatMap (·.2) ∧ runs'.length = ls.length ∧
    ∀ j x, ls[j]? = some x →
      runs'[j]? = some ({ node := x.1, start := ((ls.take j).map (·.2.length)).sum, count := x.2.length } : TreeRun)

/-- The bit of level l in entry e's path word (R296). -/
def pathBit (dr : Tbl Wide) (dg e l : Nat) : Bool :=
  (elem (elem (tget 0 dr (dg + e / 512)).toNat 1024 (e % 16)) 32 (e / 16 % 32)).testBit l

/-! ## The image of a quiesce -/

/-- A task fits the fields of a context (R350). -/
def TaskFits (t : Task) : Prop :=
  t.launch < 256 ∧ t.index < 192 ∧ t.lg < 192 ∧ 1 ≤ t.foot ∧ t.foot ≤ 16 ∧ t.fresh = false ∧ t.hart.pc.toNat % 4 = 0 ∧ t.sq.length ≤ 64 ∧
  t.stoeks.length ≤ 4 ∧ t.groups.length ≤ 4 ∧ (∀ g ∈ t.groups, g.1 < 64) ∧ t.seq < 2 ^ 64 ∧
  ∀ q ∈ t.sq, q.ins.isLong = true ∧ q.ins.wellFormed = true ∧ q.ops.length ≤ 8 ∧ q.blk.length ≤ 128 ∧ q.resume < 2 ^ 64

/-- The tables of a package fit the fields of its image (R349, R350): queues as R331 allows, launches and tasks each under their own number, no task
that was never placed. -/
def ImageFits (s : State) (step : Bool) : Prop :=
  (∀ q, q < 16 → 1 ≤ bits (s.preg (0x301 + 4 * q)) 3 0 ∧ bits (s.preg (0x301 + 4 * q)) 3 0 ≤ 12 ∧ bits (s.preg (0x301 + 4 * q)) 15 8 ≤ 191) ∧
  (s.tasks.map (·.1)).Nodup ∧ s.tasks.length < 2 ^ 16 ∧ s.disp.launches.length < 2 ^ 16 ∧ (s.imageBytes step).length < 2 ^ 64 ∧
  (∀ e ∈ s.disp.launches, e.1 < 256 ∧ e.2.record.length = 128) ∧
  ∀ e ∈ s.tasks, e.1 = 256 * e.2.launch + e.2.index ∧ TaskFits e.2 ∧ (tfind s.disp.launches e.2.launch).isSome = true

/-- A restored task is the one that was saved, as far as programs see it: its names, registers, status, memberships, SRF, descriptors, path-trace
registers and the queue of its stream instructions, with their resume points; it is ready. -/
def SavedTask (t u : Task) : Prop :=
  (∃ sl, u.run = .ready sl) ∧ u.launch = t.launch ∧ u.index = t.index ∧ u.lg = t.lg ∧ u.foot = t.foot ∧ u.stepm = t.stepm ∧
  (∀ r, u.hart.x r = t.hart.x r) ∧ u.hart.pc = t.hart.pc ∧ u.sup.mode = t.sup.mode ∧ u.sup.pmode = t.sup.pmode ∧ u.sup.exl = t.sup.exl ∧
  u.sup.efpc = t.sup.efpc ∧ u.sup.eva = t.sup.eva ∧ u.sup.ssave0 = t.sup.ssave0 ∧ u.sup.ssave1 = t.sup.ssave1 ∧ u.sup.ssave2 = t.sup.ssave2 ∧
  u.sup.ssave3 = t.sup.ssave3 ∧ u.sup.dtag = t.sup.dtag ∧ u.sup.pend = t.sup.pend ∧ u.sup.ecause.toNat = t.sup.ecause.toNat % 2 ^ 27 ∧
  u.sup.epc.toNat = t.sup.epc.toNat / 4 * 4 ∧ u.sup.svec.toNat = t.sup.svec.toNat / 64 * 64 ∧ u.groups = t.groups ∧ u.arrived = t.arrived ∧
  u.inStepWait = t.inStepWait ∧ u.seq = t.seq ∧ (∀ a, a < t.foot * 2 ^ 18 → srfByte u.srf a = srfByte t.srf a) ∧
  (∀ i, i < 64 → (tget Desc.invalid u.descs i).image = (tget Desc.invalid t.descs i).image ∧
    (tget Desc.invalid u.descs i).valid = (tget Desc.invalid t.descs i).valid ∧
    ∀ j, j < 7 → tget 0 (tget Desc.invalid u.descs i).orgs j = tget 0 (tget Desc.invalid t.descs i).orgs j) ∧
  (∀ i, i < 8 → tget 0 u.dregs i = tget 0 t.dregs i) ∧
  u.sq.map (fun q => (q.ins, q.resume, q.started)) = t.sq.map (fun q => (q.ins, q.resume, q.started))

/-! ## Placing tasks -/

/-- The slot of a saved task holds the context that its save streamed there, which can be read (R341). -/
def SlotHolds (s : State) (t : Task) : Prop :=
  ∃ n la a c s0 bs, t.run.slot = some n ∧ tfind s.disp.launches t.launch = some la ∧ s.rank * 2 ^ 40 + a = s.slotAt n ∧ bs = State.contextBytes s0 t c ∧
    a + bs.length ≤ memLimit ∧ bs.length ≤ 2 ^ 23 ∧ rdBytes s.mem (addrs a bs.length) = bs ∧ (∀ u, tget 0 s.ms.ecc u = 0) ∧ TaskFits t

/-- Task v is task u placed at a moment (R18, R314, R335, R341): for the first time with the registers of R18, later with what was saved, in mode U
with EXL clear; of a task without a slot everything else stays. -/
def PlacedAs (s : State) (u v : Task) (pg now : Nat) : Prop :=
  v.run = .placed pg ∧ v.sup.mode = false ∧ v.sup.pmode = false ∧ v.sup.exl = false ∧
  (u.run.slot = none → v.since = now ∧ (∀ r, r ≠ 13 → v.hart.x r = u.hart.x r) ∧ v.hart.pc = u.hart.pc ∧ v.srf = u.srf ∧ v.rings = u.rings ∧
    v.descs = u.descs ∧ v.sq = u.sq ∧ v.groups = u.groups ∧ v.kern = u.kern ∧ v.stoeks = u.stoeks ∧
    (u.fresh = true → v.sup.svec = BitVec.ofNat 64 (s.preg 0x216) ∧ v.hart.x 13 = BitVec.ofNat 64 s.podRank ∧ v.sup.pend = false) ∧
    (u.fresh = false → v.hart = u.hart ∧ v.sup = { u.sup with mode := false, pmode := false, exl := false })) ∧
  (SlotHolds s u → ∃ w, SavedTask u w ∧
    v = { w with run := .placed pg, since := now, ksaved := false, sup := { w.sup with mode := false, pmode := false, exl := false } })

/-- R337 lets a fast switch take task x from task t: x is preloaded there and is the one that R334 chooses, both fit halves, t is in mode U and runs
no kernel and no DESCEND. -/
def FastTo (s : State) (t : Task) (pg x : Nat) (best : Option (Nat × Task)) : Prop :=
  (tget PhysG.idle s.disp.physG pg).shadow = some x ∧ best.map (·.1) = some x ∧ t.foot ≤ 8 ∧ t.sup.mode = false ∧ t.running2 = false ∧
  ∃ u, s.task? x = some u ∧ u.placeable = true ∧ u.foot ≤ 8

/-- A placed task k is switched out into save slot n (R337, R341): it drains, or, where R337 allows it, is saved while the preloaded task takes its
gnoum at once. Of the other tasks, the memories and the registers nothing changes. -/
def SwitchedOut (s s' : State) (k : Nat) (t : Task) (pg n : Nat) (best : Option (Nat × Task)) : Prop :=
  ((∀ x, ¬FastTo s t pg x best) → SameMemory s s' ∧ s'.pregs = s.pregs ∧
    s'.task? k = some { t with run := .draining pg false (some n), since := s'.disp.clock } ∧ (∀ j, j ≠ k → s'.task? j = s.task? j) ∧
    n ∈ s'.disp.slots) ∧
  ∀ x u, FastTo s t pg x best → s.task? x = some u → u.run.slot = none ∨ SlotHolds s u → SameMemory s s' ∧ s'.pregs = s.pregs ∧
    s'.task? k = some { t with run := .saving none (some n), halting := false } ∧ (∃ v, s'.task? x = some v ∧ PlacedAs s u v pg s'.disp.clock) ∧
    (∀ j, j ≠ k → j ≠ x → s'.task? j = s.task? j) ∧ (tget PhysG.idle s'.disp.physG pg).active = some x ∧
    (tget PhysG.idle s'.disp.physG pg).shadow = none ∧ (u.run.slot ≠ some n → n ∈ s'.disp.slots) ∧
    ∀ m, u.run.slot = some m → m ∉ s'.disp.slots

/-! ## Number formats -/

/-- The magnitude that a pattern without its sign stands for, in units of the format's least subnormal number, with the exponents counted on
past those of the format. -/
def gridVal (f : FFmt) (p : Nat) : Nat :=
  if p / 2 ^ f.fb = 0 then p % 2 ^ f.fb else (2 ^ f.fb + p % 2 ^ f.fb) * 2 ^ (p / 2 ^ f.fb - 1)

/-- Pattern r is the magnitude m * 2^e of a sign rounded in a mode (R51): toward zero, up, down, or to the nearest, ties to even. -/
def RoundsTo (f : FFmt) (rm : RMode) (neg : Bool) (m : Nat) (e : Int) (r : Nat) : Prop :=
  let g : Int := 1 - f.bias - f.fb
  let x := m * 2 ^ (e - g).toNat
  let at' (p : Nat) : Nat := gridVal f p * 2 ^ (g - e).toNat
  let down := at' r ≤ x ∧ x < at' (r + 1)
  let up := x ≤ at' r ∧ ∀ p, p < r → at' p < x
  match rm with
  | .rtz => down
  | .rup => if neg then down else up
  | .rdn => if neg then up else down
  | .rne => ∀ p, ((x : Int) - at' r).natAbs ≤ ((x : Int) - at' p).natAbs ∧
      (p ≠ r → ((x : Int) - at' r).natAbs = ((x : Int) - at' p).natAbs → r % 2 = 0)

/-- Pattern r is a positive real number rounded in a mode (R51), told by where the number lies among the halves of the format's grid:
`above z`, it is not below z half units; `below z`, it is not above them. -/
def RoundsReal (f : FFmt) (rm : RMode) (neg : Bool) (above below : Nat → Prop) (r : Nat) : Prop :=
  let down := above (2 * gridVal f r) ∧ ¬above (2 * gridVal f (r + 1))
  let up := below (2 * gridVal f r) ∧ ∀ p, p < r → ¬below (2 * gridVal f p)
  match rm with
  | .rtz => down
  | .rup => if neg then down else up
  | .rdn => if neg then up else down
  | .rne => (r = 0 ∨ above (gridVal f (r - 1) + gridVal f r)) ∧ below (gridVal f r + gridVal f (r + 1)) ∧
      (r % 2 = 1 → ¬below (gridVal f (r - 1) + gridVal f r) ∧ ¬above (gridVal f r + gridVal f (r + 1)))

/-- The pattern of a rounded magnitude r with its sign: beyond the largest finite pattern it becomes that pattern or an infinity, by the mode
(R52). -/
def Ranged (f : FFmt) (top : Nat) (rm : RMode) (neg : Bool) (r : Nat) : Nat :=
  (if neg then 2 ^ (f.w - 1) else 0) +
    (if r ≤ top then r else if f = e4m3 ∨ rm = .rtz ∨ (rm = .rup ∧ neg = true) ∨ (rm = .rdn ∧ neg = false) then top else top + 1)

/-- The number that VQBS takes for an fp32 pattern, in units of 2^-149: 0 for a NaN, the largest finite number for an infinity (R251). -/
def QuantTakes (v : Nat) (x : Int) : Prop :=
  (fp32.val v = .nan → x = 0) ∧ (∀ s, fp32.val v = .zero s → x = 0) ∧
  (∀ s, fp32.val v = .inf s → x = (if s then -1 else 1) * ((2 ^ 24 - 1) * 2 ^ 253)) ∧
  ∀ s m e, fp32.val v = .fin s m e → x = (if s then -1 else 1) * (m * 2 ^ (e + 149).toNat)

/-- The integer that an even or odd nibble of VQBS stands for: the one of -7 to 7 nearest to x in units of u, an even one at a tie (R251). -/
def NibbleNearest (u x p : Int) : Prop :=
  p.natAbs ≤ 7 ∧ ∀ z : Int, z.natAbs ≤ 7 → (x - p * u).natAbs ≤ (x - z * u).natAbs ∧
    (z ≠ p → (x - p * u).natAbs = (x - z * u).natAbs → p % 2 = 0)

/-- The outlier that VQBS tries for x in units of u: of its sign, of the eight magnitudes of R57, the nearest, of m = 0 at a tie (R251). -/
def OutlierNearest (u x o : Int) : Prop :=
  (x < 0 → o < 0) ∧ (0 ≤ x → 0 < o) ∧ o.natAbs ∈ [8, 12, 16, 24, 32, 48, 64, 96] ∧
  ∀ z : Int, (x < 0 → z < 0) → (0 ≤ x → 0 < z) → z.natAbs ∈ [8, 12, 16, 24, 32, 48, 64, 96] → (x - o * u).natAbs ≤ (x - z * u).natAbs ∧
    (z ≠ o → (x - o * u).natAbs = (x - z * u).natAbs → o.natAbs ∈ [8, 16, 32, 64])

/-- The nibbles of VQBS for a pair of numbers in units of u: the outlier of the first with nothing of the second where that errs less than the
nearest integers of both, else these (R251). -/
def PairQuantised (u a b : Int) (lo hi : Nat) : Prop :=
  ∃ pa pb o : Int, NibbleNearest u a pa ∧ NibbleNearest u b pb ∧ OutlierNearest u a o ∧
    ((a - o * u).natAbs + b.natAbs < (a - pa * u).natAbs + (b - pb * u).natAbs → decodePair lo hi = (o, 0, false)) ∧
    ((a - pa * u).natAbs + (b - pb * u).natAbs ≤ (a - o * u).natAbs + b.natAbs → lo ≠ 8 ∧ hi ≠ 8 ∧ signed 4 lo = pa ∧ signed 4 hi = pb)

/-- The six floating-point formats with the patterns of their largest finite numbers (R46). -/
def FormatOf (f : FFmt) (top : Nat) : Prop :=
  (f, top) ∈ [(fp64, 0x7FEFFFFFFFFFFFFF), (fp32, 0x7F7FFFFF), (fp16, 0x7BFF), (bf16, 0x7F7F), (e5m2, 0x7B), (e4m3, 0x7E)]

/-! ## Kernels -/

/-- The slots of a bundle keep the rules of their opcodes and fields (R174 to R177): V slots as the decoder's tables say; the count of a RADV
a register or a number. What registers and counts they may name, the static checks of the bundle say (R263). -/
def BundleLegal (b : Bundle) : Prop :=
  (∀ i, b.v0 = some i ∨ b.v1 = some i → vLegal i = true) ∧
  (∀ pt kx a, b.c0 = some (.radv pt kx a) ∨ b.c1 = some (.radv pt kx a) → kx.isSome = true → a = 0)

/-- Task t runs kernel k, which is not saved, does not wait at the end of a loop and has not met its second drain limit. -/
def BundleAt (s : State) (n : Nat) (t : Task) (k : Kernel) : Prop :=
  s.task? n = some t ∧ t.kern = some k ∧ t.ksaved = false ∧
  ((∃ pg, t.run = .placed pg) ∨ ∃ pg slot, t.run = .draining pg false slot) ∧ k.loopWait = none

/-- The next bundle decodes to b, its static checks pass with plan p, its waits are satisfied, and no check code of the task or of the
kernel has an error (R263, R323). -/
def BundleReady (s : State) (n : Nat) (t : Task) (k : Kernel) (b : Bundle) (p : BPlan) : Prop :=
  BundleAt s n t k ∧ decodeBundle (tget 0 s.kstore k.pc) = .ok b ∧ k.planBundle t b = .ok p ∧
  (∀ w ∈ p.u.wait ++ p.c0.waits ++ p.c1.waits, w.ok t = true) ∧ t.clean ∧ k.vbad = [] ∧ k.mbad = [] ∧ k.bbad = []

/-- The results whose time has come are in their registers, with the bits that they do not write kept; a register for which none has come
holds what it held, of the k registers those apart that the loop stack writes (R156, R239). -/
def ResultsLand (fl : List Landing) (index : List Nat) (k k' : Kernel) (d d' : Tbl Wide) : Prop :=
  (∀ r, (∀ x ∈ fl, x.left = 0 → x.val.key ≠ .k r) → r ∉ index → tget 0 k'.k r = tget 0 k.k r) ∧
  (∀ r, (∀ x ∈ fl, x.left = 0 → x.val.key ≠ .q r) → tget false k'.q r = tget false k.q r) ∧
  (∀ r, (∀ x ∈ fl, x.left = 0 → x.val.key ≠ .v r) → tget 0 k'.v r = tget 0 k.v r) ∧
  (∀ r, (∀ x ∈ fl, x.left = 0 → x.val.key ≠ .p r) → tget 0 k'.p r = tget 0 k.p r) ∧
  (∀ r, (∀ x ∈ fl, x.left = 0 → x.val.key ≠ .m r) → tget 0 k'.m r = tget 0 k.m r) ∧
  (∀ r, (∀ x ∈ fl, x.left = 0 → x.val.key ≠ .d r) → tget 0 d' r = tget 0 d r) ∧
  ∀ x ∈ fl, x.left = 0 →
    (∀ r v, x.val = .k r v → r ∉ index → tget 0 k'.k r = v) ∧ (∀ r v, x.val = .q r v → tget false k'.q r = v) ∧
    (∀ r v m, x.val = .v r v m → tget 0 k'.v r = (tget 0 k.v r &&& ~~~m) ||| (v &&& m)) ∧
    (∀ r v m, x.val = .p r v m → tget 0 k'.p r = (tget 0 k.p r &&& ~~~m) ||| (v &&& m)) ∧
    (∀ r v m, x.val = .m r v m → tget 0 k'.m r = (tget 0 k.m r &&& ~~~m) ||| (v &&& m)) ∧
    (∀ r v m, x.val = .d r v m → tget 0 d' r = (tget 0 d r &&& ~~~m) ||| (v &&& m))

/-- A planned bundle brings a result of latency L (R156, R263): it lands at the end of the bundle issued L − 1 bundles later. -/
def Brings (p : BPlan) (L : Nat) (v : LandVal) : Prop := { left := L - 1, val := v } ∈ p.flying

/-- Element j of width w is enabled for a V instruction: it is not guarded, or the guard's bit of the element is 1 (R155, R244). -/
def Enabled (k : Kernel) (i : VInstr) (w j : Nat) : Prop := i.pge = true → (tget 0 k.p i.pg.toNat).getLsbD (w * j / 8) = true

/-- A V instruction brings its register, with latency L, elements of width w: those that are enabled, each as f says. -/
def VectorBrings (k : Kernel) (p : BPlan) (i : VInstr) (L w : Nat) (f : Nat → Nat → Prop) : Prop :=
  ∃ val mask, Brings p L (.v i.vd.toNat val mask) ∧ ∀ j, j < 16384 / w →
    (Enabled k i w j → elem mask.toNat w j = 2 ^ w - 1 ∧ f j (elem val.toNat w j)) ∧ (¬Enabled k i w j → elem mask.toNat w j = 0)

/-- A V instruction brings its predicate, with latency L: all bits of the enabled elements of width w, each as f says. -/
def PredicateBrings (k : Kernel) (p : BPlan) (i : VInstr) (L w : Nat) (f : Nat → Bool → Prop) : Prop :=
  ∃ val mask, Brings p L (.p i.vd.toNat val mask) ∧ ∀ j, j < 16384 / w → ∀ b, w * j / 8 ≤ b → b < w * (j + 1) / 8 →
    (Enabled k i w j → mask.getLsbD b = true ∧ f j (val.getLsbD b)) ∧ (¬Enabled k i w j → mask.getLsbD b = false)

/-- A slot brings the whole of a vector register with latency L: for each cluster c its 1,024 bits are f c. -/
def ClustersBring (p : BPlan) (L r : Nat) (f : Nat → Nat → Prop) : Prop :=
  ∃ val, Brings p L (.v r val (BitVec.allOnes 16384)) ∧ ∀ c, c < 16 → f c (elem val.toNat 1024 c)

/-- The rings and SEEN after the ring operations of a bundle in order (R81, R263, R267, R268), or none where one overflows: a RADV
beyond SEEN, and any beyond the slots that are there. -/
def ringsAfter : List RMove → (Nat → Ring) → (Nat → Nat) → Option ((Nat → Ring) × (Nat → Nat))
  | [], r, seen => some (r, seen)
  | m :: l, r, seen =>
    if (m.checked = true ∧ seen m.ring < m.count) ∨ (if m.publish then (r m.ring).free else (r m.ring).filled) < m.count then none
    else ringsAfter l
      (fun n => if n = m.ring ∧ m.count ≠ 0 then (if m.publish then (r n).publish m.count m.eos else (r n).release m.count) else r n)
      (fun n => if n = m.ring then seen n - m.count else seen n)

/-- The 16 SRF lines that a port of a C slot names, by cluster; none for a cluster without a record
(R264 to R266). -/
def PortLine (k : Kernel) (t : Task) (pt : Port) (prod : Bool) (j c : Nat) : Option Nat :=
  match pt with
  | .ring n w => if 16 * j + c < (t.ring n.toNat).slotsz then some ((t.ring n.toNat).base / 128 +
      (((if prod then (t.ring n.toNat).tail else (t.ring n.toNat).head) + w.toNat) % (t.ring n.toNat).nslot) * (t.ring n.toNat).slotsz +
        16 * j + c) else none
  | .stream st off => if 16 * ((tget 0 k.g st.toNat).toNat + off.toNat) + c < (k.bind st.toNat).count then
      some ((k.bind st.toNat).stream.at (16 * ((tget 0 k.g st.toNat).toNat + off.toNat) + c) j / 128) else none

/-- Every package register but those listed holds what it held. -/
def RegistersBut (l : List Nat) (s t : State) : Prop := ∀ n, n ∉ l → t.preg n = s.preg n

/-- The write of a control register has its effect and no other: the bits of the mask take those of the value, every other bit
and everything else of the machine is as before. -/
def RegisterTakes (s t : State) (num mask : Nat) (v : Word) : Prop :=
  (∀ b, b < 64 → (t.preg num).testBit b = if mask.testBit b then v.getLsbD b else (s.preg num).testBit b) ∧
  RegistersBut [num] s t ∧ { t with pregs := s.pregs } = s

/-- A step-member task that has not arrived waits after STEPFULL: its SCP has taken that fault of an STG and has not returned to mode U, or a
stream instruction of its queue has it pending (R139, R316). -/
def WaitsAfterStepfull (t : Task) : Prop :=
  t.stepm = true ∧ t.arrived = false ∧ (t.full = true ∨
    ∃ q ∈ t.sq, ∃ f, q.fault = some f ∧ f.code.toNat = cSTEPFULL)

/-- A global link goes on without some wavelengths (R396, R397): it sends a restripe sequence, whose answer it then awaits, and sends again
what is not acknowledged; it goes down, and loses what it holds, where no wavelength is left. -/
def LinkNarrows (l l' : Link) (lost : BitVec 16) : Prop :=
  (l.txMask &&& ~~~lost ≠ 0 → l' = { l with txMask := l.txMask &&& ~~~lost, restriping := true, before := l.buffer.length,
                                            striped := l.buffer.length,
                                            replayed := min 65535 (l.replayed + l.buffer.length) }) ∧
  (l.txMask &&& ~~~lost = 0 → l' = { Link.down with replayed := l.replayed })

/-- An event record is posted (R324): with room in the event queue its 64 bytes stand at the tail slot in host memory and TAIL
moves on; without, DROPPED counts it. Every other byte of host memory is as before. -/
def Posted (s t : State) (type sev unit : Nat) (pay : List (Nat × Nat)) : Prop :=
  let n := 2 ^ bits (s.preg 0x201) 4 0
  let tail := bits (s.preg 0x201) 51 32
  let at' := s.preg 0x200 + 64 * (tail % n)
  let full := (tail + 1) % n = bits (s.preg 0x201) 31 12 % n
  let num := payloadNat ([(0, type), (2, sev), (4, s.rank), (6, unit), (8, s.host.evSeq % 2 ^ 64),
    (16, if s.member s.rank then s.stepNum else 0)] ++ pay)
  t.host.evSeq = s.host.evSeq + 1 ∧
  (full → t.preg 0x201 = s.preg 0x201 ∧ t.preg 0x202 = (s.preg 0x202 + 1) % 2 ^ 64 ∧ ∀ a, rdByte t.hmem a = rdByte s.hmem a) ∧
  (¬ full → bits (t.preg 0x201) 51 32 = (tail + 1) % 2 ^ 20 ∧ bits (t.preg 0x201) 31 0 = bits (s.preg 0x201) 31 0 ∧
    t.preg 0x202 = s.preg 0x202 ∧ rdNat t.hmem at' 64 = num % 2 ^ (8 * 64) ∧
    ∀ a, a < at' ∨ at' + 64 ≤ a → rdByte t.hmem a = rdByte s.hmem a)

/-- A completion word goes to DONEADDR (R13 to R15): the eight bytes that it translates to, in state x, hold the word and no other byte has
changed; where it names no place to write, the queue's LQSTAT shows ERR and the record's index and LAUNCH_DONEFAIL is posted. -/
def CompletionWord (x s t : State) (asid : BitVec 16) (done word q idx : Nat) : Prop :=
  (done % 8 = 0 → done < 2 ^ 56 → ∀ sp pas, (x.xlateDone asid done).2 = .ok (sp, pas) →
    (sp = .host → t.hmem = wrBytes s.hmem pas (leBytes 8 word) ∧ ∀ a, rdByte t.mem a = rdByte s.mem a) ∧
    (sp ≠ .host → (∀ a, rdByte t.mem a = rdByte (wrBytes s.mem (pas.map (· % 2 ^ 40)) (leBytes 8 word)) a) ∧
      ∀ a, rdByte t.hmem a = rdByte s.hmem a)) ∧
  (done % 8 ≠ 0 ∨ 2 ^ 56 ≤ done ∨ (∃ e, (x.xlateDone asid done).2 = .error e) →
    Posted s t 0x0042 0 0xFFFF [(0x18, q), (0x19, 0), (0x1A, idx), (0x20, done)] ∧ bit (t.preg (0x303 + 4 * q)) 16 = true ∧
    bits (t.preg (0x303 + 4 * q)) 47 32 = idx ∧ ∀ a, rdByte t.mem a = rdByte s.mem a)

/-- A packet of this package has been handed to the fabric: its flits are last in the queue of one port, which has sent on what it can, or
it waits for a path. -/
def OnFabric (s t : State) (p : Packet) : Prop :=
  (t.fab.waiting = s.fab.waiting ++ [{ pkt := p, port := none }] ∧ ∀ j, t.link j = s.link j) ∨
  ∃ port st, t.link port = Link.drain port { s.link port with queue := (s.link port).queue ++
      [{ held := { pkt := p, port := none }, vc := vcOf p port, left := flitsOf { p with stage := st } }] } ∧
    (∀ j, j ≠ port → t.link j = s.link j) ∧ t.fab.waiting = s.fab.waiting

/-- The home of a run of remote bytes (virtual and physical addresses, ascending) is asked for them (R384, R385, R388): an RDREQ that names the
first byte's local address and the count goes out under a number that no outstanding transaction has; with all of them in use it waits. -/
def HomeAsked (s t : State) (owner : TxFor) (run : List (Nat × Nat)) : Prop :=
  ∃ (a : Nat × Nat) (x : Txn), run.head? = some a ∧ x.owner = owner ∧ x.va = a.1 ∧ x.pkt.drank.toNat = a.2 / 2 ^ 40 % 4096 ∧
    x.pkt.dinc = tget 0 s.fab.pinc (a.2 / 2 ^ 40) ∧ x.pkt.srank.toNat = s.rank ∧ x.pkt.sinc.toNat = s.preg 0x682 % 16 ∧ x.pkt.type = 0 ∧
    x.pkt.len = 0 ∧ x.pkt.stage = false ∧ x.pkt.data = [] ∧ x.pkt.txid = x.txid ∧
    x.pkt.body.toNat = a.2 % 2 ^ 40 + (run.length - 1) * 2 ^ 40 ∧
    (((∀ y ∈ s.fab.txns, y.txid ≠ x.txid) ∧ t.fab.txns = s.fab.txns ++ [x] ∧ t.fab.unsent = s.fab.unsent ∧ t.fab.pinc = s.fab.pinc ∧
        OnFabric s t x.pkt) ∨
      ((∀ n : BitVec 16, ∃ y ∈ s.fab.txns, y.txid = n) ∧ t.fab = { s.fab with unsent := s.fab.unsent ++ [x] }))

/-- The homes of these runs are asked, one after the other; nothing else of the fabric changes. -/
def HomesAsked (s t : State) (owner : TxFor) : List (List (Nat × Nat)) → Prop
  | [] => t.fab = s.fab
  | r :: rs => ∃ m, HomeAsked s m owner r ∧ SameRegisters s m ∧ HomesAsked m t owner rs

/-- A packet has been sent: one to the own package is the next row on the agenda, any other is on the fabric. -/
def Sent (s t : State) (p : Packet) : Prop :=
  (p.drank.toNat = s.rank → ∀ i, packetRow p = some i → t.agenda = s.agenda ++ [i]) ∧ (p.drank.toNat ≠ s.rank → OnFabric s t p)

/-- What CAS, AMO or RED leaves in n bytes that held `old` (R201 to R203). -/
def rmwLeaves (op : Rmw) (n old : Nat) (b : Word) : Nat :=
  match op with
  | .cas x => if old = x.toNat % 2 ^ (8 * n) then b.toNat % 2 ^ (8 * n) else old
  | .amo o => amoNew o (8 * n) old (b.toNat % 2 ^ (8 * n))
  | .red o => redNew o (8 * n) old (b.toNat % 2 ^ (8 * n)) % 2 ^ (8 * n)

/-- What a package register reads as (R9, R312, R344, R379, R398, R404): the write-only ones zero; PINC the incarnation of the rank in
PIDX; GLSTAT and LLSTAT the state of the links; any other, AGESTAT before the first plan among them, what it holds. -/
def PackageReads (s : State) (n : Nat) (v : Word) : Prop :=
  if n = 0x230 ∨ n = 0x344 ∨ n = 0x345 ∨ n = 0x348 ∨ n = 0x686 ∨ n = 0x705 ∨ n = 0x710 then v = 0
  else if n = 0x684 then v.toNat = (tget 0 s.fab.pinc (s.preg 0x683)).toNat
  else if 0x690 ≤ n ∧ n < 0x6A0 then ∀ l, l = s.link (n - 0x690 + 32) →
    wordBits v 15 0 = l.txMask.toNat ∧ wordBits v 31 16 = l.rxMask.toNat ∧ v.getLsbD 32 = l.up ∧ wordBits v 47 33 = 0 ∧
    wordBits v 63 48 = l.replayed % 65536
  else if n = 0x6A0 then ∀ b, v.getLsbD b = (decide (b < 31) && (s.link b).up)
  else v = BitVec.ofNat 64 (s.preg n)

/-- The bits that software writes in the package registers whose fields have no range and no behaviour of their own. -/
def PlainBits (n m : Nat) : Prop :=
  (n, m) ∈ [(0x200, 0xFFFFFFFFFFFFFFFF), (0x210, 0xFFFFFFFFFFFFFFFF), (0x211, 0xFFFFFFFFFFFFFFFF), (0x213, 0xFFFFFFFFFFFFFFFF),
    (0x216, 0xFFFFFFFFFFFFFFC0), (0x340, 1), (0x346, 0xFFFFFFFFFFFFF), (0x400, 0xFFFFFFFF80000), (0x420, 0xFFFFFFFFFF000),
    (0x501, 0xFFFFFF), (0x682, 0xF), (0x683, 0xFFF), (0x704, 0xFFFFFFFFFFFFF), (0x709, 0xFFFFFFFFFF), (0x70A, 0xFFFFFFFFFFFFF),
    (0x718, 0xFFFFFFFFFFFFF)] ∨
  ∃ q, q < 16 ∧ n = 0x300 + 4 * q ∧ m = 0xFFFFFFFFFF000

/-- The bits that a write of one clears, in the package registers that have no others. -/
def OneClearsBits (n m : Nat) : Prop :=
  (n, m) ∈ [(0x202, 0xFFFFFFFFFFFFFFFF), (0x220, 0xFFFFFFFFFFFFFFFF), (0x685, 0xFFFFFFFFFFFFFFFF)] ∨
  (∃ q, q < 16 ∧ n = 0x303 + 4 * q ∧ m = 0x10000) ∨ (0x640 ≤ n ∧ n < 0x680 ∧ m = 0xFFFFFFFFFFFFFFFF)

/-- The fields of a launch record that break a rule of R13 and R14, by their offsets (that bits [63:56] of DONEADDR must be zero is the
model's reading, log 53). -/
def RecordBreaks (s : State) (q : Nat) (asid : BitVec 16) (gbase : Nat) (r : List Byte) (off : Nat) : Prop :=
  match off with
  | 0x00 => recField r 0 8 % 4 ≠ 0 ∨ 2 ^ 56 ≤ recField r 0 8
  | 0x08 => recField r 8 2 = 0 ∨ 192 < recField r 8 2
  | 0x0A => recField r 0x0A 1 = 0 ∨ 16 < recField r 0x0A 1
  | 0x0B => 16 ≤ recField r 0x0B 1 ∨ (8 ≤ recField r 0x0B 1 % 16 ∧ ((s.preg 0x215).testBit q = false ∨
      ∃ i, i < recField r 8 2 ∧ ∃ e ∈ s.tasks, e.2.stepm = true ∧ e.2.lg = (gbase + i) % 192))
  | 0x18 => recField r 0x18 8 % 64 ≠ 0 ∨ (recField r 0x18 8 ≠ 0 ∧ (s.readableAt asid (recField r 0x18 8)).2 = none)
  | 0x60 => recField r 0x60 8 % 8 ≠ 0 ∨ 2 ^ 56 ≤ recField r 0x60 8
  | 0x68 => ∃ b ∈ r.drop 0x68, b ≠ 0
  | _ => False

/-- The conditions of R148 on signed and unsigned numbers. -/
def condMeaning : Cond → Word → Word → Prop
  | .eq, a, b => a.toNat = b.toNat
  | .ne, a, b => a.toNat ≠ b.toNat
  | .lt, a, b => a.toInt < b.toInt
  | .ge, a, b => b.toInt ≤ a.toInt
  | .ltu, a, b => a.toNat < b.toNat
  | .geu, a, b => b.toNat ≤ a.toNat
  | .gt, a, b => b.toInt < a.toInt
  | .le, a, b => a.toInt ≤ b.toInt
  | .gtu, a, b => b.toNat < a.toNat
  | .leu, a, b => a.toNat ≤ b.toNat

end Machine

end Sys2Proof
end

