-- ==== Sys2Proof/Certificates/Slice0/Obligations.lean ====
section
/-! DEFINITION. The statements for the provers. Each docstring names the rules of the spec that the statement follows, or says what of it
is the model's own choice. -/

section

open Sys2Proof Sys2Proof.Machine

/-! ## Encodings -/

/-- R145 to R149, R165 to R172, R280, R294, R325: the bytes of every well-formed word or long form decode to it, whatever follows.
R7, R165: what decodes is a well-formed word, and its bytes are exactly the encoding of that word: no reserved bit is passed over
and no two words decode to one instruction. -/
def Obligations.EncodingAndDecodingAgree : Prop :=
  (∀ (i : Instr) (rest : List Byte), i.isWord = true → i.wellFormed = true → decode (encodeBytes i ++ rest) = .ok (i, rest)) ∧
  (∀ (bs : List Byte) (i : Instr) (rest : List Byte), decode bs = .ok (i, rest) →
     i.isWord = true ∧ i.wellFormed = true ∧ bs = encodeBytes i ++ rest)

/-- The worked encodings of R148, R184 (`sel`), R188 (`lih`), R189 (`lea`), R190 (`divu`) and R204 (`ipf`), and words laid out by
hand from R147, R149, R168, R169 and R172. -/
def Obligations.WorkedEncodingsDecode : Prop :=
  decode (leBytes 4 0x4864C010) = .ok (.ldp .d false .none 3 4 16, []) ∧
  decode (leBytes 4 0x28A01FFD) = .ok (.bc .ne 5 0 0xFFD, []) ∧
  decode (leBytes 4 0x74000001) = .ok (.mark .k, []) ∧
  decode (leBytes 4 0x7809003F) = .ok (.ipf 9 63, []) ∧
  decode (leBytes 4 0x046531E4) = .ok (.sel 3 5 6 4, []) ∧
  decode (leBytes 4 0x38642804) = .ok (.divu 3 4 5, []) ∧
  decode (leBytes 4 0x24A63B08) = .ok (.lea 5 6 7 3 8, []) ∧
  decode (leBytes 4 0x20E04567) = .ok (.lih 7 0x4567, []) ∧
  decode (leBytes 4 (0x15 * 2 ^ 26 + 3 * 2 ^ 21 + 4 * 2 ^ 16 + 2 * 2 ^ 14 + 2 * 2 ^ 12 + 0xFFC)) = .ok (.stg .w .rel 3 4 0xFFC, []) ∧
  decode (leBytes 4 (0x1B * 2 ^ 26 + 3 * 2 ^ 21 + 4 * 2 ^ 16 + 3 * 2 ^ 14 + 5 * 2 ^ 7 + 1 * 2 ^ 3 + 4)) =
    .ok (.amo .add true .none true 3 4 5, []) ∧
  decode (leBytes 4 (0x20 * 2 ^ 26 + 1 * 2 ^ 8 + 0x2A)) = .ok (.scall 0x2A, []) ∧
  decode (leBytes 4 (0x31 * 2 ^ 26 + 5 * 2 ^ 21 + 6 * 2 ^ 16 + 7 * 2 ^ 11) ++ leBytes 4 (9 * 2 ^ 26 + 12 * 2 ^ 11 + 3 * 2 ^ 2 + 2 + 1)) =
    .ok (.sld 5 9 12 3 true true false false 6 7, []) ∧
  decode (leBytes 4 (0x34 * 2 ^ 26 + 4 * 2 ^ 5) ++ leBytes 4 63) = .ok (.gbar 63, []) ∧
  decode (leBytes 4 (0x35 * 2 ^ 26 + 8 * 2 ^ 5) ++ leBytes 4 0) = .ok (.skend, []) ∧
  decode (leBytes 4 0) = .error .unassigned

/-- R153, R173 to R178: the code of every bundle whose slots keep the rules of their opcodes decodes to it, and what decodes is such a
bundle and its code exactly: no header bit, no bit of an absent slot, no reserved field is passed over, and no two codes mean one
bundle. -/
def Obligations.BundleCodesAgree : Prop :=
  (∀ b : Bundle, BundleLegal b → decodeBundle (encodeBundle b) = .ok b) ∧
  (∀ (w : BitVec 256) (b : Bundle), decodeBundle w = .ok b → BundleLegal b ∧ encodeBundle b = w)

/-! ## The step -/

/-- R145, R152, R165: where the agent in focus executes, nothing is to be taken before its next instruction, and the bytes at its pc
can be fetched and decode to an instruction that the agent may execute, the step is that instruction's, with the turn of the engines
next. `las` are the addresses of the first word, `las2` those of the second of a long form; the fetch changes no task and no byte of
memory. R322, R323: an SCP whose state holds no check code with an error has nothing corrected; a word that reads a register with an
uncorrectable error, has its operands and passes the checks that come before them is not executed. The model's agenda (log 1): an event at
its head is the next step. R369, R370: what would leave a controller with more than 64 entries in its write queue is not done, and is tried
again later (log 55). -/
def Obligations.StepRunsTheDecodedInstruction : Prop :=
  (∀ (s s1 s2 : State) (ag : Agent) (h : Hart) (las las2 : List Nat) (i : Instr) (f : State × Fetched) (o : State × Bool),
     s.agenda = [] → s.engineTurn = false → Executes s ag h →
     (∀ k t, ag = .scp k → s.task? k = some t → t.beforeIssue k = none) →
     s1 = { s with engineTurn := true } → s1.fetchAddrs (s.xctx ag) h.pc.toNat = (s2, .ok las) →
     (∀ a, a ∈ las → s2.badUnit (a / 64) = false) →
     (if i.isLong then ((s2.readLocal las).1.fetchAddrs (s.xctx ag) (h.pc + 4).toNat).2 = .ok las2 else las2 = []) →
     (∀ a, a ∈ las2 → s2.badUnit (a / 64) = false) →
     decode (rdBytes s.mem (las ++ las2)) = .ok (i, []) → legalFor ag i = true →
     f = s1.fetch ag h.pc → o = f.1.operands ag i →
     f.2 = .instr i ∧ f.1.mem = s.mem ∧ f.1.tasks = s.tasks ∧
       ∀ r, r = (if o.2 then exec i o.1 else .next o.1) → step s = if accepting r then r else .next s1) ∧
  (∀ (s : State) (k tag : Nat) (t : Task) (i : Instr), s.operands (.stoek k tag) i = (s, true) ∧
     (s.task? k = some t → t.hart.xbad = [] → t.sbad = [] → t.dbad = [] → t.rbad = [] → s.operands (.scp k) i = (s, true)) ∧
     (s.task? k = some t → (∃ r ∈ sources i, tget 0 t.hart.xbad r.toNat = 2) → t.hart.ready (sources i) = true →
       (∀ a b, i = .tlbi a b → t.sup.mode = true) → (∀ d ke a narg t5 b, i = .krun d ke a narg t5 b → a.toNat + narg.toNat ≤ 32) →
       (∀ a r imm, i = .mtc a r imm → ∃ n, ctlNumber t (BitVec.ofInt 64 imm.toInt) a = .ok n) → (s.operands (.scp k) i).2 = false)) ∧
  (∀ (s : State) (i : Instr) (rest : List Instr), s.agenda = i :: rest → ∀ r, r = exec i { s with agenda := rest } →
     step s = if accepting r then r else .next { s with agenda := rest ++ [i] }) ∧
  (∀ r : Out, accepting r = false ↔ ∃ t ch, r = .next t ∧ 64 < (t.ms.wq.filter (fun u => channelOf (64 * u) = ch)).length)

/-- R7, R151, R165: where the word at the pc can be fetched and is none of the agent's instructions, ILLOP_DECODE raises ILLOP;
where it cannot be fetched, INSTRUCTION_FETCH_FAULT raises the fault of the fetch (R152, R194). The step is that row's; on an SCP with
EXL clear both take the trap at the pc, in the state that the fetch leaves. R363: a fault of translation is not taken while a MARK before the
word still waits for an older store. R323, R324: a fetch that found an uncorrectable unit posts MC_UNCORR, with the address of the word that
it could not fetch. R172: of a long form whose major and fn are none of the agent's, the second
word's contents are not examined. -/
def Obligations.UnfetchableAndIllegalWordsTrap : Prop :=
  (∀ (s s1 : State) (ag : Agent) (h : Hart), s.agenda = [] → s.engineTurn = false → Executes s ag h →
     (∀ k t, ag = .scp k → s.task? k = some t → t.beforeIssue k = none) → s1 = { s with engineTurn := true } →
     ((s1.fetch ag h.pc).2 = .illop → ∀ r, r = exec .illopDecode s1 → step s = if accepting r then r else .next s1) ∧
     (∀ f bad, (s1.fetch ag h.pc).2 = .fault f bad → ∀ r, r = exec .instructionFetchFault s1 → step s = if accepting r then r else .next s1)) ∧
  (∀ (s s1 s2 : State) (ag : Agent) (pc : Word) (las las2 : List Nat) (w : BitVec 32), s.fetchAddrs (s.xctx ag) pc.toNat = (s1, .ok las) →
     s1.readWord pc.toNat las = (s2, .ok w) → (s2.fetchAddrs (s.xctx ag) (pc + 4).toNat).2 = .ok las2 →
     0x30 ≤ w.toNat / 2 ^ 26 → w.toNat / 2 ^ 26 ≤ 0x37 →
     (∀ w' w2 i, w'.toNat / 2 ^ 26 = w.toNat / 2 ^ 26 → w'.toNat / 32 % 64 = w.toNat / 32 % 64 → decodeWords w' w2 = .ok i →
       legalFor ag i = false) →
     (s.fetch ag pc).2 = .illop) ∧
  (∀ (s : State) (k : Nat) (t : Task) (f : State × Fetched), ScpExecutes s k t → t.sup.exl = false → f = s.fetch (.scp k) t.hart.pc →
    (f.2 = .illop → ∃ s' u, exec .illopDecode s = .next s' ∧ OnlyTask f.1 s' k u ∧
      TrapTaken t u cILLOP 0 0 0 none false false t.hart.pc t.hart.pc) ∧
    (∀ x, f.2 = .fault x none → s.behindMark (.scp k) t.hart = true → exec .instructionFetchFault s = .next s) ∧
    (∀ x, f.2 = .fault x none → s.behindMark (.scp k) t.hart = false → ∃ s' u, exec .instructionFetchFault s = .next s' ∧ OnlyTask f.1 s' k u ∧
      TrapTaken t u x.code.toNat 0 0 0 x.va x.wr false t.hart.pc t.hart.pc) ∧
    (∀ x la, f.2 = .fault x (some la) → ∃ s' u, exec .instructionFetchFault s = .next s' ∧ s'.task? k = some u ∧
      TrapTaken t u x.code.toNat 0 0 0 x.va x.wr false t.hart.pc t.hart.pc ∧
      ∃ syn, Posted f.1 s' 0x0001 2 t.lg [(0x18, (x.va.getD t.hart.pc).toNat), (0x20, s.rank * 2 ^ 40 + la), (0x28, 0xFF * 256),
        (0x30, t.hart.pc.toNat), (0x38, syn)]))

/-! ## Reset and what every step keeps -/

/-- R316, R331, R344, R379, R398, R404: the reset values that the spec states are in State.reset; no task, launch, record,
translation or transaction is there. The value 0 of register 0x700, whose FWSV has a dash in the table of R404, is the model's choice
(log 3), and no rule of the spec. -/
def Obligations.ResetHoldsTheStatedValues : Prop :=
  (∀ q, q < 16 → wordBits (BitVec.ofNat 64 (State.reset.preg (lqCtl q))) 3 0 = 4) ∧
  State.reset.preg 0x212 = 8 + 8 * 2 ^ 8 + 10000 * 2 ^ 32 ∧ State.reset.preg 0x341 = 500 ∧
  State.reset.preg 0x500 = 2048 ∧ State.reset.preg 0x501 = 86400 ∧ State.reset.preg 0x680 = 1 ∧
  State.reset.preg 0x681 = 200 + 20 * 2 ^ 20 ∧ State.reset.preg 0x719 = 8 ∧ State.reset.preg 0x214 = 0 ∧
  State.reset.preg 0x700 = 0 ∧ State.reset.tasks = [] ∧ State.reset.disp.launches = [] ∧ State.reset.inbound = [] ∧
  State.reset.outbound = [] ∧ State.reset.tlb = [] ∧ State.reset.fab.txns = [] ∧ State.reset.bnd.phase = .idle

/-- The state after reset is sound: its memories and register file are in canonical form. -/
def Obligations.ResetIsSound : Prop := sound State.reset

/-- From every state in which they are, the model's memories and register file stay in canonical form, whatever the step does: equal
contents are equal data. -/
def Obligations.StepKeepsSoundness : Prop := ∀ s t : State, sound s → step s = .next t → sound t

/-! ## Scalar instructions: an SCP and a Stoek core alike -/

/-- R182, R206: while a register whose value a word of an SCP reads is still to be written by an older load, CAS or AMO, the word waits
and nothing changes: every word that reads a register, be it arithmetic, a branch, a load or store, an atomic, MFC, MTC, TLBI, IPF or a
stream instruction (KRUN reads its arguments too). That a word waits for its own destination as well is the model's reading
(log 11). -/
def Obligations.InterlockedWordsWait : Prop :=
  (∀ (s : State) (k : Nat) (t : Task) (i : Instr), ScpExecutes s k t → i.isStoekOp = false →
     (∀ a b, i = .tlbi a b → t.sup.mode = true) →
     (∀ d ke a narg t5 b, i = .krun d ke a narg t5 b → narg = 0 ∨ a.toNat + narg.toNat ≤ 32) →
     t.hart.ready (sources i) = false → exec i s = .next s) ∧
  (∀ (s : State) (ag : Agent) (h : Hart) (d a b : Reg), Executes s ag h →
    (h.ready [d, a, b] = false → exec (.add d a b) s = .next s ∧ exec (.mul d a b) s = .next s ∧ exec (.divu d a b) s = .next s) ∧
    (h.ready [d, a] = false →
      (∀ imm, exec (.addi d a imm) s = .next s) ∧ exec (.clz d a) s = .next s ∧ exec (.jalr d a) s = .next s ∧
      ∀ sz sx ord imm, exec (.ldp sz sx ord d a imm) s = .next s) ∧
    (h.ready [a, b] = false → (∀ c off, exec (.bc c a b off) s = .next s) ∧ ∀ sz ord imm, exec (.stp sz ord a b imm) s = .next s)) ∧
  (∀ (s : State) (k : Nat) (t : Task) (d : Reg), ScpExecutes s k t → t.hart.ready [d] = false →
    (∀ td line, exec (.tdset d td line) s = .next s) ∧ (∀ td f a, exec (.tdmov d td f a) s = .next s) ∧
    (∀ a imm, exec (.mfc d a imm) s = .next s) ∧ (∀ sz sx a imm, exec (.ldf sz sx d a imm) s = .next s) ∧
    (∀ td f, exec (.tdget d td f) s = .next s) ∧ (∀ n, exec (.ringq d n) s = .next s) ∧ (∀ a, exec (.kstat d a) s = .next s) ∧
    (t.stepm = true → ∀ full, exec (.stepQry d full) s = .next s))

/-- R184, R185, R188, R189, R190: sums, differences, products and addresses modulo 2^64, from the operands as numbers; MULH and
MULHU give the upper half of the product of the operands as signed and as unsigned numbers. Nothing but x[d] and the pc changes.
R184: CLZ and CTZ count the zero bits above the highest and below the lowest one bit, 64 for zero; POPC counts the one bits. R190:
quotients round toward zero and remainders take the sign of the dividend; a zero divisor gives all ones and the dividend; −2^63 / −1
gives −2^63 and remainder 0, as wrapping modulo 2^64 does. None of it traps. -/
def Obligations.ArithmeticResults : Prop :=
  ((∀ (s : State) (ag : Agent) (h : Hart) (d a b : Reg), Executes s ag h →
      (h.ready [d, a, b] = true →
        Results (.add d a b) s ag h d (BitVec.ofInt 64 ((h.x a).toInt + (h.x b).toInt)) 4 ∧
        Results (.sub d a b) s ag h d (BitVec.ofInt 64 ((h.x a).toInt - (h.x b).toInt)) 4 ∧
        Results (.mul d a b) s ag h d (BitVec.ofInt 64 ((h.x a).toInt * (h.x b).toInt)) 4 ∧
        Results (.mulh d a b) s ag h d (BitVec.ofInt 64 ((h.x a).toInt * (h.x b).toInt / 2 ^ 64)) 4 ∧
        Results (.mulhu d a b) s ag h d (BitVec.ofNat 64 ((h.x a).toNat * (h.x b).toNat / 2 ^ 64)) 4 ∧
        ∀ sc imm, Results (.lea d a b sc imm) s ag h d
          (BitVec.ofInt 64 ((h.x a).toInt + (h.x b).toInt * 2 ^ sc.toNat + imm.toInt)) 4) ∧
      (h.ready [d, a] = true → ∀ imm, Results (.addi d a imm) s ag h d (BitVec.ofInt 64 ((h.x a).toInt + imm.toInt)) 4) ∧
      (h.ready [d] = true → ∀ imm, Results (.lih d imm) s ag h d (BitVec.ofNat 64 ((h.x d).toNat * 2 ^ 16 + imm.toNat)) 4)) ∧
   (∀ (s : State) (ag : Agent) (h : Hart) (d a : Reg), Executes s ag h → h.ready [d, a] = true →
      (∃ n, n ≤ 64 ∧ Results (.clz d a) s ag h d (BitVec.ofNat 64 n) 4 ∧ (h.x a).toNat < 2 ^ (64 - n) ∧
        (n < 64 → 2 ^ (63 - n) ≤ (h.x a).toNat)) ∧
      (∃ n, n ≤ 64 ∧ Results (.ctz d a) s ag h d (BitVec.ofNat 64 n) 4 ∧ (h.x a).toNat % 2 ^ n = 0 ∧
        (n < 64 → (h.x a).toNat / 2 ^ n % 2 = 1)) ∧
      Results (.popc d a) s ag h d (BitVec.ofNat 64 ((List.range 64).countP (fun n => (h.x a).getLsbD n))) 4)) ∧
  (∀ (s : State) (ag : Agent) (h : Hart) (d a b : Reg), Executes s ag h → h.ready [d, a, b] = true →
     (h.x b ≠ 0 →
       Results (.div d a b) s ag h d (BitVec.ofInt 64 ((h.x a).toInt.tdiv (h.x b).toInt)) 4 ∧
       Results (.rem d a b) s ag h d (BitVec.ofInt 64 ((h.x a).toInt.tmod (h.x b).toInt)) 4 ∧
       Results (.divu d a b) s ag h d (BitVec.ofNat 64 ((h.x a).toNat / (h.x b).toNat)) 4 ∧
       Results (.remu d a b) s ag h d (BitVec.ofNat 64 ((h.x a).toNat % (h.x b).toNat)) 4) ∧
     (h.x b = 0 →
       Results (.div d a b) s ag h d (BitVec.ofInt 64 (-1)) 4 ∧ Results (.divu d a b) s ag h d (BitVec.ofInt 64 (-1)) 4 ∧
       Results (.rem d a b) s ag h d (h.x a) 4 ∧ Results (.remu d a b) s ag h d (h.x a) 4))

/-- R184, R185: the logical instructions, bit by bit; ANDI, ORI and XORI extend their immediate with zeros. R184, R186: shifts and
rotation to the left by the count's low six bits: multiplication and division by powers of two of the operand as an unsigned or, for
SHA, a signed number. R148, R184, R187: comparisons give 1 or 0 under the conditions of R148, minima and maxima one of their
operands, SEL the first operand where the third is not zero. -/
def Obligations.LogicShiftAndComparisonResults : Prop :=
  ((∀ (s : State) (ag : Agent) (h : Hart) (d a b : Reg), Executes s ag h →
      (h.ready [d, a, b] = true → ∀ v : Word,
        ((∀ n, v.getLsbD n = ((h.x a).getLsbD n && (h.x b).getLsbD n)) → Results (.and d a b) s ag h d v 4) ∧
        ((∀ n, v.getLsbD n = ((h.x a).getLsbD n || (h.x b).getLsbD n)) → Results (.or d a b) s ag h d v 4) ∧
        ((∀ n, v.getLsbD n = ((h.x a).getLsbD n ^^ (h.x b).getLsbD n)) → Results (.xor d a b) s ag h d v 4) ∧
        ((∀ n, v.getLsbD n = ((h.x a).getLsbD n && !(h.x b).getLsbD n)) → Results (.andn d a b) s ag h d v 4)) ∧
      (h.ready [d, a] = true → ∀ (imm : BitVec 16) (v : Word),
        ((∀ n, v.getLsbD n = ((h.x a).getLsbD n && imm.getLsbD n)) → Results (.andi d a imm) s ag h d v 4) ∧
        ((∀ n, v.getLsbD n = ((h.x a).getLsbD n || imm.getLsbD n)) → Results (.ori d a imm) s ag h d v 4) ∧
        ((∀ n, v.getLsbD n = ((h.x a).getLsbD n ^^ imm.getLsbD n)) → Results (.xori d a imm) s ag h d v 4))) ∧
   (∀ (s : State) (ag : Agent) (h : Hart) (d a b : Reg), Executes s ag h →
      (h.ready [d, a, b] = true → ∀ n, n = (h.x b).toNat % 64 →
        Results (.shl d a b) s ag h d (BitVec.ofNat 64 ((h.x a).toNat * 2 ^ n)) 4 ∧
        Results (.shr d a b) s ag h d (BitVec.ofNat 64 ((h.x a).toNat / 2 ^ n)) 4 ∧
        Results (.sha d a b) s ag h d (BitVec.ofInt 64 ((h.x a).toInt / 2 ^ n)) 4 ∧
        Results (.rot d a b) s ag h d (BitVec.ofNat 64 ((h.x a).toNat * 2 ^ n + (h.x a).toNat / 2 ^ (64 - n))) 4) ∧
      (h.ready [d, a] = true → ∀ n : BitVec 6,
        Results (.shli d a n) s ag h d (BitVec.ofNat 64 ((h.x a).toNat * 2 ^ n.toNat)) 4 ∧
        Results (.shri d a n) s ag h d (BitVec.ofNat 64 ((h.x a).toNat / 2 ^ n.toNat)) 4 ∧
        Results (.shai d a n) s ag h d (BitVec.ofInt 64 ((h.x a).toInt / 2 ^ n.toNat)) 4))) ∧
  (∀ (s : State) (ag : Agent) (h : Hart) (d a b : Reg), Executes s ag h →
     (h.ready [d, a, b] = true →
       (∀ c, (condMeaning c (h.x a) (h.x b) → Results (.cmp c d a b) s ag h d 1 4) ∧
         (¬condMeaning c (h.x a) (h.x b) → Results (.cmp c d a b) s ag h d 0 4)) ∧
       Results (.min d a b) s ag h d (BitVec.ofInt 64 (min (h.x a).toInt (h.x b).toInt)) 4 ∧
       Results (.max d a b) s ag h d (BitVec.ofInt 64 (max (h.x a).toInt (h.x b).toInt)) 4 ∧
       Results (.minu d a b) s ag h d (BitVec.ofNat 64 (min (h.x a).toNat (h.x b).toNat)) 4 ∧
       Results (.maxu d a b) s ag h d (BitVec.ofNat 64 (max (h.x a).toNat (h.x b).toNat)) 4) ∧
     (∀ c, h.ready [d, a, b, c] = true →
       (h.x c ≠ 0 → Results (.sel d a b c) s ag h d (h.x a) 4) ∧ (h.x c = 0 → Results (.sel d a b c) s ag h d (h.x b) 4)) ∧
     (h.ready [d, a] = true → ∀ c (imm : BitVec 12),
       (condMeaning c (h.x a) (BitVec.ofInt 64 imm.toInt) → Results (.cmpi c d a imm) s ag h d 1 4) ∧
       (¬condMeaning c (h.x a) (BitVec.ofInt 64 imm.toInt) → Results (.cmpi c d a imm) s ag h d 0 4)))

/-- R148, R191 to R193: where each branch and call goes, and which link register it writes; JALR reads its target before it writes
its link. Nothing else changes. R171: a hint moves the pc and does nothing else; R204: so does IPF; R108: MARK takes the next place
in program order, with its scope, and moves the pc. -/
def Obligations.BranchesCallsHintsAndMarks : Prop :=
  ((∀ (c : Cond) (a b : Reg) (off : BitVec 12), decode (leBytes 4 (0x0A * 2 ^ 26 + a.toNat * 2 ^ 21 + b.toNat * 2 ^ 16 +
        (match c with | .eq => 0 | .ne => 1 | .lt => 2 | .ge => 3 | .ltu => 4 | .geu => 5 | .gt => 6 | .le => 7 | .gtu => 8 | .leu => 9) *
          2 ^ 12 + off.toNat)) = .ok (.bc c a b off, [])) ∧
   (∀ off : BitVec 26, decode (leBytes 4 (0x0B * 2 ^ 26 + off.toNat)) = .ok (.j off, []) ∧
      decode (leBytes 4 (0x0C * 2 ^ 26 + off.toNat)) = .ok (.jal off, []))) ∧
  (∀ (s : State) (ag : Agent) (h : Hart) (d a b : Reg), Executes s ag h →
     (h.ready [a, b] = true → ∀ c (off : BitVec 12),
       (condMeaning c (h.x a) (h.x b) → Jumps (.bc c a b off) s ag h 0 0 (h.pc + BitVec.ofInt 64 (off.toInt * 4))) ∧
       (¬condMeaning c (h.x a) (h.x b) → Jumps (.bc c a b off) s ag h 0 0 (h.pc + 4))) ∧
     (∀ off : BitVec 26, Jumps (.j off) s ag h 0 0 (h.pc + BitVec.ofInt 64 (off.toInt * 4))) ∧
     (h.ready [1] = true → ∀ off : BitVec 26,
       Jumps (.jal off) s ag h 1 (h.pc + 4) (h.pc + BitVec.ofInt 64 (off.toInt * 4))) ∧
     (h.ready [a] = true → Jumps (.jr a) s ag h 0 0 (BitVec.ofNat 64 ((h.x a).toNat / 4 * 4))) ∧
     (h.ready [d, a] = true → Jumps (.jalr d a) s ag h d (h.pc + 4) (BitVec.ofNat 64 ((h.x a).toNat / 4 * 4)))) ∧
  (∀ (s : State) (ag : Agent) (h : Hart), Executes s ag h →
     (∀ bits, Results (.hint bits) s ag h 0 0 4) ∧
     (∀ sc, ∃ t h', exec (.mark sc) s = .next t ∧ OnlyHart s t ag h' ∧
       h' = { h with marks := h.marks ++ [(h.po, sc)], po := h.po + 1, pc := h.pc + 4 }) ∧
     (∀ k a n, ag = .scp k → h.ready [a] = true → Results (.ipf a n) s ag h 0 0 4))

/-! ## The SRF -/

/-- R77, R195, R197: LDF reads n bytes of the SRF, lowest address first, extended with zeros or, with S, with the sign; it writes no
memory, no SRF byte and nothing but x[d] and the pc. An address outside the footprint or inside a ring raises BOUNDS. R77, R195,
R197: STF writes the low n bytes of x[r] to the SRF, lowest address first, and no other SRF byte; no register and no memory changes.
An address outside the footprint or inside a ring raises BOUNDS. -/
def Obligations.ScalarSrfAccesses : Prop :=
  (∀ (s : State) (k : Nat) (t : Task) (sz : Sz) (sx : Bool) (d a : Reg) (imm : BitVec 11) (ea : Nat),
     ScpExecutes s k t → t.hart.ready [d, a] = true → ea = (t.hart.x a + BitVec.ofInt 64 imm.toInt).toNat →
     (ea + szBytes sz ≤ t.foot * 2 ^ 18 → t.inRing (ea, szBytes sz) = false → t.srfBusy (ea, szBytes sz) false = false →
       Results (.ldf sz sx d a imm) s (.scp k) t.hart d
         (if sx then (BitVec.ofNat (8 * szBytes sz) (leNat ((List.range (szBytes sz)).map (fun i => srfByte t.srf (ea + i))))).signExtend 64
          else BitVec.ofNat 64 (leNat ((List.range (szBytes sz)).map (fun i => srfByte t.srf (ea + i))))) 4) ∧
     (t.foot * 2 ^ 18 < ea + szBytes sz ∨ t.inRing (ea, szBytes sz) = true → t.sup.exl = false →
       Faults (.ldf sz sx d a imm) s k t cBOUNDS none false)) ∧
  (∀ (s : State) (k : Nat) (t : Task) (sz : Sz) (r a : Reg) (imm : BitVec 12) (ea : Nat),
     ScpExecutes s k t → t.hart.ready [r, a] = true → ea = (t.hart.x a + BitVec.ofInt 64 imm.toInt).toNat →
     (ea + szBytes sz ≤ t.foot * 2 ^ 18 → t.inRing (ea, szBytes sz) = false → t.srfBusy (ea, szBytes sz) true = false →
       ∃ u, Becomes (.stf sz r a imm) s k u ∧ { u with srf := t.srf } = { t with hart := t.hart.advance 4 } ∧
         ∀ o, srfByte u.srf o = if ea ≤ o ∧ o < ea + szBytes sz then BitVec.ofNat 8 ((t.hart.x r).toNat / 2 ^ (8 * (o - ea)))
           else srfByte t.srf o) ∧
     (t.foot * 2 ^ 18 < ea + szBytes sz ∨ t.inRing (ea, szBytes sz) = true → t.sup.exl = false →
       Faults (.stf sz r a imm) s k t cBOUNDS none false))

/-! ## Memory: issue -/

/-- R101, R182, R195, R196: a load whose address translates places its entry in the load queue and moves on; no register and no byte
of memory changes until it binds. LDP of an SCP or a Stoek program, LDG and LDH of an SCP; an LDG outside the kerf asks the homes of
remote bytes at once. R101, R195, R196, R198: a store whose address translates places its entry, with the low n bytes of x[r], in the
store queue and moves on; no register and no byte of memory changes until it performs. An STG reserves 32 bytes of apron for each
256-byte block it touches. R385, R388: the homes are asked by one RDREQ for each run of remote bytes within a 256-byte block; where every byte
is the own package's, and of an LDG in the kerf (R134), the fabric is as before. -/
def Obligations.LoadsAndStoresEnterTheirQueues : Prop :=
  (∀ (s : State) (ag : Agent) (h : Hart) (sz : Sz) (sx : Bool) (ord : Ord) (d a : Reg) (imm : BitVec 11) (ea : Word),
     Executes s ag h → h.ready [d, a] = true → ea = h.x a + BitVec.ofInt 64 imm.toInt →
     (∀ p, (s.xlate (s.xctx ag) { space := .package, r := true, w := false, x := false } ea.toNat (szBytes sz)).2 = .ok p →
       ∃ t h', exec (.ldp sz sx ord d a imm) s = .next t ∧ HartChanges s t ag h' ∧ SameButTranslation s t ∧
         h' = { h with po := h.po + 1, pc := h.pc + 4, loads := h.loads ++
           [{ po := h.po, acq := ordAcq ord, rel := ordRel ord, begun := false,
              kind := .scalar { space := .package, sz := sz, sx := sx, d := d, va := ea, pas := p.2, pc := h.pc, got := [] } }] }) ∧
     (∀ k p, ag = .scp k →
       (s.xlate (s.xctx ag) { space := .host, r := true, w := false, x := false } ea.toNat (szBytes sz)).2 = .ok p →
       ∃ t h', exec (.ldh sz sx ord d a imm) s = .next t ∧ HartChanges s t ag h' ∧ SameButTranslation s t ∧
         h' = { h with po := h.po + 1, pc := h.pc + 4, loads := h.loads ++
           [{ po := h.po, acq := ordAcq ord, rel := ordRel ord, begun := false,
              kind := .scalar { space := .host, sz := sz, sx := sx, d := d, va := ea, pas := p.2, pc := h.pc, got := [] } }] }) ∧
     (∀ k p, ag = .scp k →
       (s.xlate (s.xctx ag) { space := .pod, r := true, w := false, x := false } ea.toNat (szBytes sz)).2 = .ok p →
       ∃ t h', exec (.ldg sz sx ord d a imm) s = .next t ∧ HartChanges s t ag h' ∧ SameButRequests s t ∧
         ((∃ u, s.task? k = some u ∧ u.arrived = true) → SameButTranslation s t) ∧
         ((∀ pa ∈ p.2, pa / 2 ^ 40 = s.rank) → SameButTranslation s t) ∧
         ((∃ u, s.task? k = some u ∧ u.arrived = false) →
           HomesAsked s t (.load ag h.po) (paRuns (((addrs ea.toNat p.2.length).zip p.2).filter (fun x => x.2 / 2 ^ 40 ≠ s.rank)))) ∧
         h' = { h with po := h.po + 1, pc := h.pc + 4, loads := h.loads ++
           [{ po := h.po, acq := ordAcq ord, rel := ordRel ord, begun := false,
              kind := .scalar { space := .pod, sz := sz, sx := sx, d := d, va := ea, pas := p.2, pc := h.pc, got := [] } }] })) ∧
  (∀ (s : State) (ag : Agent) (h : Hart) (sz : Sz) (ord : Ord) (r a : Reg) (imm : BitVec 12) (ea : Word),
     Executes s ag h → h.ready [r, a] = true → ea = h.x a + BitVec.ofInt 64 imm.toInt →
     (∀ p, (s.xlate (s.xctx ag) { space := .package, r := false, w := true, x := false } ea.toNat (szBytes sz)).2 = .ok p →
       ∃ t h', exec (.stp sz ord r a imm) s = .next t ∧ HartChanges s t ag h' ∧ SameButTranslation s t ∧
         h' = { h with po := h.po + 1, pc := h.pc + 4, stores := h.stores ++
           [{ po := h.po, acq := ordAcq ord, rel := ordRel ord, begun := false, atK := false,
              kind := .store .package ea p.2 (leBytes (szBytes sz) (h.x r).toNat) h.pc }] }) ∧
     (∀ k p, ag = .scp k →
       (s.xlate (s.xctx ag) { space := .host, r := false, w := true, x := false } ea.toNat (szBytes sz)).2 = .ok p →
       ∃ t h', exec (.sth sz ord r a imm) s = .next t ∧ HartChanges s t ag h' ∧ SameButTranslation s t ∧
         h' = { h with po := h.po + 1, pc := h.pc + 4, stores := h.stores ++
           [{ po := h.po, acq := ordAcq ord, rel := ordRel ord, begun := false, atK := false,
              kind := .store .host ea p.2 (leBytes (szBytes sz) (h.x r).toNat) h.pc }] }) ∧
     (∀ k p need, ag = .scp k →
       (s.xlate (s.xctx ag) { space := .pod, r := false, w := true, x := false } ea.toNat (szBytes sz)).2 = .ok p →
       need = 32 * (paRuns ((addrs ea.toNat (szBytes sz)).zip p.2)).length → (∀ pte ∈ p.1, mergeOk pte (szBytes sz) ea.toNat = true) →
       s.apronRoom need = true →
       ∃ t h', exec (.stg sz ord r a imm) s = .next t ∧ HartChanges s t ag h' ∧ SameButTranslation s t ∧
         h' = { h with po := h.po + 1, pc := h.pc + 4, stores := h.stores ++
           [{ po := h.po, acq := ordAcq ord, rel := ordRel ord, begun := false, atK := false,
              kind := .stg ea p.2 (leBytes (szBytes sz) (h.x r).toNat) (byteLeaves p.1 ea.toNat (szBytes sz)) need }] }))

/-! ## Memory: binding and performing -/

/-- R102, R105, R106, R195: when a scalar load binds and its data can be had, its register takes its bytes, the lowest first, extended
as the load says, each that of the youngest older store to it that has not performed, or else memory's (of a remote pod byte, the one
its home sent); its entry goes; no other register, no store entry and no byte of memory changes, and no other agent's hart. R102, R108,
R109: the oldest load of an SCP, of package or host memory, with no MARK and no acquire before it and no release of its own, may
always bind. -/
def Obligations.LoadsBindTheirBytes : Prop :=
  ∀ (s : State) (ag : Agent) (h : Hart) (po : Nat) (e : LoadEntry) (l : ScalarLoad) (bytes : List Byte),
    s.hart? ag = some h → h.findLoad po = some (e, l) →
    (s.loadReady ag h e l = true ∨ ((∃ k, ag = .scp k) ∧ l.space ≠ .pod ∧ h.loads.head? = some e ∧ h.marks = [] ∧ e.rel = false ∧
      (∀ x ∈ h.loads, x.acq = false ∨ e.po ≤ x.po) ∧ ∀ x ∈ h.stores, x.acq = false ∨ e.po ≤ x.po)) →
    (∀ u, s.badUnit u = false) → s.host.poison = [] → bytes.length = l.pas.length →
    (∀ x ∈ l.pas.zip bytes, BindsByte s h e.po l x.1 x.2) →
    ∃ t h', exec (.loadBind ag po) s = .next t ∧ t.hart? ag = some h' ∧
      (∀ r, h'.x r = if r = l.d ∧ r ≠ 0 then
        (if l.sx then (BitVec.ofNat (8 * szBytes l.sz) (leNat bytes)).signExtend 64 else BitVec.ofNat 64 (leNat bytes)) else h.x r) ∧
      h'.pc = h.pc ∧ h'.stores = h.stores ∧ h'.loads = (h.dropLoad e.po).loads ∧ SameMemory s t ∧ SameRegisters s t ∧
      ((∃ k, ag = .scp k) ∨ (∃ k tag p, ag = .stoek k tag ∧ s.program k tag = some p ∧ p.ending = .running) → HartChanges s t ag h')

/-- R103, R107, R369: when the oldest store entry of an agent, a store to package memory, may perform and no unit is uncorrectable,
each of its bytes goes to the local address that translation gave it, and every byte outside those addresses reads as before; no
register of the agent changes, and the entry goes. R100: a host store that may perform writes its bytes to host memory and stays in
the queue, performed at scope k, until HOST_COMPLETION takes it out; the package's memory and the registers do not change. R369: a
writeback takes its unit out of the write queue and changes no value; R374: not while its channel switches its data rate. -/
def Obligations.StoresPerformAndComplete : Prop :=
  ((∀ (s : State) (ag : Agent) (h : Hart) (before after : List StoreEntry) (e : StoreEntry) (va pc : Word) (pas : List Nat)
      (data : List Byte),
      s.hart? ag = some h → splitStores h.stores = some (before, e, after) → e.kind = .store .package va pas data pc →
      s.acceptReady ag h before e = true → (∀ u, s.badUnit u = false) →
      ∃ t h', exec (.mcWriteAccept ag) s = .next t ∧ t.hart? ag = some h' ∧ h'.xs = h.xs ∧ h'.pc = h.pc ∧ h'.loads = h.loads ∧
        h'.stores = before ++ after ∧
        (∀ a, rdByte t.mem a = rdByte (wrBytes s.mem (pas.map (· % 2 ^ 40)) data) a) ∧
        (∀ a, a ∉ pas.map (· % 2 ^ 40) → rdByte t.mem a = rdByte s.mem a) ∧ (∀ a, rdByte t.hmem a = rdByte s.hmem a)) ∧
   (∀ (s : State) (ag : Agent) (h : Hart),
      s.hart? ag = some h →
      (∀ (before after : List StoreEntry) (e : StoreEntry) (va pc : Word) (pas : List Nat) (data : List Byte),
        splitStores h.stores = some (before, e, after) → e.kind = .store .host va pas data pc → s.acceptReady ag h before e = true →
        ∃ t h', exec (.mcWriteAccept ag) s = .next t ∧ t.hart? ag = some h' ∧ h'.xs = h.xs ∧ h'.pc = h.pc ∧ h'.loads = h.loads ∧
          h'.stores = before ++ [{ e with begun := true, atK := true }] ++ after ∧ t.hmem = wrBytes s.hmem pas data ∧
          (∀ a, rdByte t.mem a = rdByte s.mem a)) ∧
      (∀ e rest, h.stores = e :: rest → e.atK = true →
        ∃ t h', exec (.hostCompletion ag) s = .next t ∧ t.hart? ag = some h' ∧ h'.xs = h.xs ∧ h'.pc = h.pc ∧
          h'.loads = h.loads ∧ h'.stores = rest ∧ SameMemory s t))) ∧
  (∀ (s : State) (unit : Nat),
     (unit ∈ s.ms.wq → s.rateBusy (channelOf (64 * unit)) = false →
       ∃ t, exec (.mcWriteback unit) s = .next t ∧ unit ∉ t.ms.wq ∧ (∀ u, u ≠ unit → (u ∈ t.ms.wq ↔ u ∈ s.ms.wq)) ∧
         (∀ u, tget 0 t.ms.ecc u = if u = unit then 0 else tget 0 s.ms.ecc u) ∧ SameMemory s t ∧ t.tasks = s.tasks ∧ t.pregs = s.pregs) ∧
     (unit ∉ s.ms.wq ∨ s.rateBusy (channelOf (64 * unit)) = true → exec (.mcWriteback unit) s = .next s))

/-- R109, R200 to R203: CAS, AMO and RED at a canonical, aligned address that translates place one entry in the store queue, CAS with the
expected value x[d] as it is at issue; no register and no byte of memory changes until it performs. An address whose top byte is not zero
raises PAGE, one that is not aligned BOUNDS. R201, R202, R203: a package atomic that may perform reads n bytes, leaves there what CAS, AMO
or RED says, and, for CAS and AMO, gives x[d] the old value, extended with zeros; every other byte reads as before. R100, R111: one on
host memory does the same there and stays in the queue until the host has acknowledged it. R111, R202, R203: what the operations leave, on
numbers; the floating sums are the rounded sums of R52. -/
def Obligations.AtomicsQueueAndPerform : Prop :=
  (∀ (s : State) (k : Nat) (t : Task) (dw : Bool) (ord : Ord) (host : Bool) (d a b : Reg) (n : Nat) (op : AmoOp) (red : RedOp),
    ScpExecutes s k t → t.hart.ready [d, a, b] = true → n = (if dw then 8 else 4) →
    (∀ (i : Instr) (rmw : Rmw) (rd : Bool) (sp : Space) (dst : Reg),
      (i, rmw, rd, sp, dst) = (.cas dw ord host d a b, .cas (t.hart.x d), true, if host then .host else .package, d) ∨
      (i, rmw, rd, sp, dst) = (.amo op dw ord host d a b, .amo op, true, if host then .host else .package, d) ∨
      (i, rmw, rd, sp, dst) = (.red red dw ord a b, .red red, false, .package, 0) →
      (∀ p, (t.hart.x a).toNat < 2 ^ 56 → (t.hart.x a).toNat % n = 0 →
        (s.xlate (s.xctx (.scp k)) { space := sp, r := rd, w := true, x := false } (t.hart.x a).toNat n).2 = .ok p →
        ∃ s' h', exec i s = .next s' ∧ HartChanges s s' (.scp k) h' ∧ SameButTranslation s s' ∧
          h' = { t.hart with po := t.hart.po + 1, pc := t.hart.pc + 4, stores := t.hart.stores ++
            [{ po := t.hart.po, acq := ordAcq ord, rel := ordRel ord, begun := false, atK := false,
               kind := .rmw rmw dw (sp == .host) dst (t.hart.x b) (t.hart.x a) (p.2.headD 0) t.hart.pc }] }) ∧
      (t.sup.exl = false → 2 ^ 56 ≤ (t.hart.x a).toNat → Faults i s k t cPAGE (some (t.hart.x a)) true) ∧
      (t.sup.exl = false → (t.hart.x a).toNat < 2 ^ 56 → (t.hart.x a).toNat % n ≠ 0 →
        Faults i s k t cBOUNDS (some (t.hart.x a)) true))) ∧
  (∀ (s : State) (ag : Agent) (h : Hart) (before after : List StoreEntry) (e : StoreEntry) (op : Rmw) (dw host : Bool) (d : Reg)
     (b va : Word) (pa : Nat) (pc : Word) (n la old : Nat),
     s.hart? ag = some h → splitStores h.stores = some (before, e, after) → e.kind = .rmw op dw host d b va pa pc →
     s.acceptReady ag h before e = true → (∀ u, s.badUnit u = false) → s.host.poison = [] → n = (if dw then 8 else 4) →
     la = (if host then pa else pa % 2 ^ 40) → old = rdNat (if host then s.hmem else s.mem) la n →
     ∃ t h', exec (.mcWriteAccept ag) s = .next t ∧ t.hart? ag = some h' ∧ h'.pc = h.pc ∧
       h'.stores = before ++ (if host then [{ e with begun := true, atK := true }] else []) ++ after ∧
       ((∃ o, op = .red o) → ∀ r, h'.x r = h.x r) ∧
       ((∀ o, op ≠ .red o) → ∀ r, h'.x r = if r = d ∧ r ≠ 0 then BitVec.ofNat 64 old else h.x r) ∧
       rdNat (if host then t.hmem else t.mem) la n = rmwLeaves op n old b ∧
       (∀ a, (host = true ∨ a < la ∨ la + n ≤ a) → rdByte t.mem a = rdByte s.mem a) ∧
       (∀ a, (host = false ∨ a < la ∨ la + n ≤ a) → rdByte t.hmem a = rdByte s.hmem a)) ∧
  (∀ (w old b : Nat), old < 2 ^ w → b < 2 ^ w → 0 < w →
     amoNew .swap w old b = b ∧ amoNew .add w old b = (old + b) % 2 ^ w ∧
     (∀ i, (amoNew .and w old b).testBit i = (old.testBit i && b.testBit i)) ∧
     (∀ i, (amoNew .or w old b).testBit i = (old.testBit i || b.testBit i)) ∧
     (∀ i, (amoNew .xor w old b).testBit i = (old.testBit i ^^ b.testBit i)) ∧
     signed w (amoNew .min w old b) = min (signed w old) (signed w b) ∧
     signed w (amoNew .max w old b) = max (signed w old) (signed w b) ∧
     amoNew .minu w old b = min old b ∧ amoNew .maxu w old b = max old b ∧
     redNew .add w old b = (old + b) % 2 ^ w ∧ (∀ i, (redNew .or w old b).testBit i = (old.testBit i || b.testBit i)) ∧
     signed w (redNew .min w old b) = min (signed w old) (signed w b) ∧
     signed w (redNew .max w old b) = max (signed w old) (signed w b) ∧
     redNew .fadd32 w old b = fp32.rnd .rne (fvAdd .rne (fp32.val old) (fp32.val b)) ∧
     redNew .fadd64 w old b = fp64.rnd .rne (fvAdd .rne (fp64.val old) (fp64.val b)))

/-! ## Control registers -/

/-- R9, R72, R147, R199, R312, R314, R315, R320: MFC writes x[d] with the register that x[a] + imm11 numbers and changes nothing
else. Once AGESTAT (0x720) counts hours, a read of it has a free HOURS, not below the last and below 24 (log 2). A number with no
register raises ILLOP, and in mode U one that is not open to mode U raises PERM. R312 to R315, R320: what the registers of the gnoum
read as. -/
def Obligations.MfcReadsItsRegister : Prop :=
  (∀ (s : State) (k : Nat) (t : Task) (d a : Reg) (imm : BitVec 11) (n : Nat),
     ScpExecutes s k t → t.hart.ready [d, a] = true → n = (t.hart.x a + BitVec.ofInt 64 imm.toInt).toNat →
     (n < 4096 → gnoumReg n = true → (t.sup.mode = true ∨ userReg n = true) →
       Results (.mfc d a imm) s (.scp k) t.hart d (s.readGnoum t n) 4) ∧
     (n < 4096 → packageReg n = true → (n ≠ 0x720 ∨ s.host.planned = false) → t.sup.mode = true →
       ∃ v, PackageReads s n v ∧ Results (.mfc d a imm) s (.scp k) t.hart d v 4) ∧
     (n = 0x720 → s.host.planned = true → bits (s.preg 0x720) 31 16 < 24 → t.sup.mode = true →
       ∃ t' h' v, exec (.mfc d a imm) s = .next t' ∧ HartChanges s t' (.scp k) h' ∧ RegisterWritten t.hart h' d v 4 ∧
         wordBits v 15 0 = s.preg 0x720 % 2 ^ 16 ∧ bits (s.preg 0x720) 31 16 ≤ wordBits v 31 16 ∧ wordBits v 31 16 < 24) ∧
     (t.sup.exl = false → (4096 ≤ n ∨ assignedReg n = false) → Faults (.mfc d a imm) s k t cILLOP none false) ∧
     (t.sup.exl = false → n < 4096 → assignedReg n = true → t.sup.mode = false → userReg n = false →
       Faults (.mfc d a imm) s k t cPERM none false)) ∧
  (∀ (s : State) (t : Task),
     wordBits (s.readGnoum t 0x000) 15 0 = 0x4146 ∧ wordBits (s.readGnoum t 0x000) 23 16 = 6 ∧
     s.readGnoum t 0x001 = BitVec.ofNat 64 t.lg ∧ s.readGnoum t 0x002 = BitVec.ofNat 64 s.podRank ∧
     (s.readGnoum t 0x010).toNat = t.sup.dtag.toNat + 256 * (t.tag t.sup.dtag.toNat).dvav.toNat ∧
     s.readGnoum t 0x011 = (t.tag t.sup.dtag.toNat).dpc ∧ s.readGnoum t 0x012 = (t.tag t.sup.dtag.toNat).dva ∧
     (s.readGnoum t 0x100).toNat = t.sup.mode.toNat + 2 * t.sup.pmode.toNat + 4 * t.sup.exl.toNat ∧
     s.readGnoum t 0x101 = t.sup.ecause ∧ s.readGnoum t 0x102 = t.sup.epc ∧ s.readGnoum t 0x103 = t.sup.efpc ∧
     s.readGnoum t 0x104 = t.sup.eva ∧ s.readGnoum t 0x105 = t.sup.ssave0 ∧ s.readGnoum t 0x106 = t.sup.ssave1 ∧
     s.readGnoum t 0x107 = t.sup.ssave2 ∧ s.readGnoum t 0x108 = t.sup.ssave3 ∧ s.readGnoum t 0x109 = t.sup.svec ∧
     s.readGnoum t 0x10A = 0 ∧ (s.readGnoum t 0x10B).toNat = t.sup.pend.toNat)

/-- R9, R312, R314, R315, R327: MTC to a register of the gnoum writes the bits that software may write: DTAG, PMODE and EXL of
STATUS, EPC with its last two bits clear, SSAVE0 to SSAVE3, SVEC with its last six bits clear, and a one clears WAKE.PEND; the
read-only ones ignore it. Nothing else of the task but the pc changes. R9, R331, R344, R354, R379, R398, R404: MTC, and the row
REGISTER_WRITE, to a package register whose fields have no range and no behaviour of their own replace the bits that software may write,
or, in a register of event flags, clear the bits written one; every other register, all tasks but the writer's pc, and both memories are
as before. -/
def Obligations.RegisterWritesTakeTheirBits : Prop :=
  (∀ (s : State) (k : Nat) (t : Task) (r a : Reg) (imm : BitVec 12) (n : Nat) (v : Word),
     ScpExecutes s k t → t.hart.ready [r, a] = true → n = (t.hart.x a + BitVec.ofInt 64 imm.toInt).toNat → v = t.hart.x r →
     gnoumReg n = true → (t.sup.mode = true ∨ userReg n = true) → n ≠ 0x10A →
     ∃ u, Becomes (.mtc r a imm) s k u ∧ { u with sup := t.sup } = { t with hart := t.hart.advance 4 } ∧
       u.sup = { t.sup with
         dtag := if n = 0x010 then v.setWidth 6 else t.sup.dtag
         pmode := if n = 0x100 then v.getLsbD 1 else t.sup.pmode
         exl := if n = 0x100 then v.getLsbD 2 else t.sup.exl
         epc := if n = 0x102 then BitVec.ofNat 64 (v.toNat / 4 * 4) else t.sup.epc
         ssave0 := if n = 0x105 then v else t.sup.ssave0
         ssave1 := if n = 0x106 then v else t.sup.ssave1
         ssave2 := if n = 0x107 then v else t.sup.ssave2
         ssave3 := if n = 0x108 then v else t.sup.ssave3
         svec := if n = 0x109 then BitVec.ofNat 64 (v.toNat / 64 * 64) else t.sup.svec
         pend := if n = 0x10B then t.sup.pend && !v.getLsbD 0 else t.sup.pend }) ∧
  (∀ (s : State) (num : BitVec 12) (v : Word) (m : Nat) (new : Word),
     (PlainBits num.toNat m ∧
         (∀ b, new.getLsbD b = if m.testBit b then v.getLsbD b else (BitVec.ofNat 64 (s.preg num.toNat)).getLsbD b)) ∨
       (OneClearsBits num.toNat m ∧
         (∀ b, new.getLsbD b = ((BitVec.ofNat 64 (s.preg num.toNat)).getLsbD b && !(m.testBit b && v.getLsbD b)))) →
     (∃ t, exec (.registerWrite num v) s = .next t ∧ t.preg num.toNat = new.toNat ∧
       (∀ j, j ≠ num.toNat → t.preg j = s.preg j) ∧ { t with pregs := s.pregs } = s) ∧
     (∀ k tk r a imm, ScpExecutes s k tk → tk.hart.ready [r, a] = true → tk.sup.mode = true →
       (tk.hart.x a + BitVec.ofInt 64 imm.toInt).toNat = num.toNat → tk.hart.x r = v →
       ∃ t, exec (.mtc r a imm) s = .next t ∧ t.preg num.toNat = new.toNat ∧ (∀ j, j ≠ num.toNat → t.preg j = s.preg j) ∧
         t.task? k = some { tk with hart := tk.hart.advance 4 } ∧ { t with pregs := s.pregs, tasks := s.tasks } = s))

/-! ## Traps -/

/-- R168, R325, R329, R330: in mode U, ERET, WAITE, TLBI and TLBSYNC raise PERM; R151: a Stoek program that executes them, or any other word of
the SCP's alone, ends with ILLOP at that word, its pins gone once its stores have performed; an SCP that executes a word of the Stoek cores'
alone raises ILLOP. R9, R72, R147, R199, R312: where MTC traps: no
register has the number (ILLOP), or mode U may not write it (PERM); a value that a package register refuses (BOUNDS). -/
def Obligations.ForbiddenWordsAndWritesFault : Prop :=
  ((∀ (s : State) (k : Nat) (t : Task) (a b : Reg), ScpExecutes s k t → t.sup.exl = false → t.sup.mode = false →
     Faults .eret s k t cPERM none false ∧ Faults .waite s k t cPERM none false ∧ Faults (.tlbi a b) s k t cPERM none false ∧
     Faults .tlbsync s k t cPERM none false) ∧
   (∀ (s : State) (k : Nat) (t : Task) (i : Instr), ScpExecutes s k t → t.sup.exl = false → i.isWord = true →
     legalFor (.scp k) i = false → Faults i s k t cILLOP none false) ∧
   (∀ (s : State) (k tag : Nat) (t : Task) (p : Stoek) (i : Instr), StoekExecutes s k tag t p → i.isWord = true →
     legalFor (.stoek k tag) i = false →
     ∃ s' q, exec i s = .next s' ∧ s'.program k tag = some q ∧
       q.ending = .fault (BitVec.ofNat 8 cILLOP) p.hart.pc none ∧ (p.hart.stores = [] → q.pins = []) ∧ q.hart = p.hart) ∧
   (∀ (k tag : Nat) (i : Instr), (i ∈ [.eret, .waite, .tlbsync, .halt, .sqwaitAll, .stepArr, .stepWait] ∨ (∃ a b, i = .tlbi a b) ∨
       (∃ c, i = .scall c ∨ i = .trap c) ∨ (∃ g, i = .gbar g ∨ i = .gjoin g ∨ i = .gleave g) ∨ (∃ d a imm, i = .mfc d a imm) ∨
       (∃ r a imm, i = .mtc r a imm) ∨ (∃ sz sx d a imm, i = .ldf sz sx d a imm) ∨ (∃ sz r a imm, i = .stf sz r a imm) ∨
       (∃ a n, i = .ipf a n) ∨ ∃ d td line, i = .tdset d td line) → i.isWord = true ∧ legalFor (.stoek k tag) i = false) ∧
   (∀ (k : Nat) (i : Instr), i.isStoekOp = true → i.isWord = true ∧ legalFor (.scp k) i = false)) ∧
  (∀ (s : State) (k : Nat) (t : Task) (r a : Reg) (imm : BitVec 12) (n : Nat),
     ScpExecutes s k t → t.hart.ready [r, a] = true → n = (t.hart.x a + BitVec.ofInt 64 imm.toInt).toNat → t.sup.exl = false →
     ((4096 ≤ n ∨ assignedReg n = false) → Faults (.mtc r a imm) s k t cILLOP none false) ∧
     (n < 4096 → assignedReg n = true → t.sup.mode = false → userReg n = false → Faults (.mtc r a imm) s k t cPERM none false) ∧
     (n < 4096 → packageReg n = true → t.sup.mode = true →
       (s.putTask k { t with hart := t.hart.advance 4 }).writePackage n (t.hart.x r) = .bounds →
       Faults (.mtc r a imm) s k t cBOUNDS none false))

/-- R315, R317, R326: TRAP and SCALL take a trap of class 2 and 3 with their code; EFPC holds their pc and EPC the next word's. R318: TRAP or
SCALL with EXL set is a double fault: its record is posted and the SCP executes no more; once no stream instruction that has started is
left to run (one that waits for a core or for pins behind a faulted one never runs, R208), HALT_COMPLETE ends the task and its physical gnoum
is out of service. R321: ERET returns the mode to PMODE, clears EXL and goes to EPC; no register, no memory and no other supervisory register
changes; a return to mode U with no stream fault taken changes nothing else, but that the wait after STEPFULL ends (R139) and that an arrival
of a GBAR that the return does not go to is no longer its (R420). R319: a return to mode U resolves every stream fault taken. -/
def Obligations.TrapsEnterAndReturn : Prop :=
  (∀ (s : State) (k : Nat) (t : Task) (c : BitVec 8), ScpExecutes s k t → t.sup.exl = false →
     (∃ u, Becomes (.trap c) s k u ∧ TrapTaken t u 0 2 c.toNat 0 none false false t.hart.pc (t.hart.pc + 4)) ∧
     (∃ u, Becomes (.scall c) s k u ∧ TrapTaken t u 0 3 c.toNat 0 none false false t.hart.pc (t.hart.pc + 4))) ∧
  (∀ (s : State) (k : Nat) (t : Task) (c : BitVec 8) (i : Instr) (cls : Nat), ScpExecutes s k t → t.sup.exl = true →
     (i = .trap c ∧ cls = 2) ∨ (i = .scall c ∧ cls = 3) →
     ∃ s', exec i s = .next s' ∧ s'.task? k = some { t with doubled := true, halting := false } ∧ (∀ j, j ≠ k → s'.task? j = s.task? j) ∧
       s'.mem = s.mem ∧ Posted s s' 0x0002 3 t.lg [(0x18, cls * 2 ^ 8 + c.toNat * 2 ^ 10), (0x20, t.sup.ecause.toNat),
         (0x28, t.sup.epc.toNat), (0x30, t.sup.efpc.toNat), (0x38, t.sup.eva.toNat)]) ∧
  (∀ (s : State) (k pg : Nat) (t : Task), s.task? k = some t → t.doubled = true → t.halting = false → t.run.pg = some pg →
     ((∀ q ∈ t.sq, q.started = false ∨ q.fault ≠ none ∨ (q.running = false ∧ ∃ x ∈ t.sq, x.po < q.po ∧ x.fault ≠ none)) →
       ∃ s', exec (.haltComplete k) s = .next s' ∧ s'.task? k = none ∧ (tget PhysG.idle s'.disp.physG pg).outOfService = true) ∧
     ((∃ q ∈ t.sq, q.started = true ∧ q.fault = none ∧ (q.running = true ∨ ∀ x ∈ t.sq, x.po < q.po → x.fault = none)) →
       exec (.haltComplete k) s = .next s)) ∧
  (∀ (s : State) (k : Nat) (t : Task), ScpExecutes s k t → t.sup.mode = true →
    ∃ u, Becomes .eret s k u ∧ u.sup = { t.sup with mode := t.sup.pmode, exl := false } ∧ u.hart.pc = t.sup.epc ∧
      (∀ r, u.hart.x r = t.hart.x r) ∧ { u with sup := t.sup, hart := t.hart, sq := t.sq, owed := t.owed, full := t.full } = t ∧
      (t.sup.pmode = true → u.owed = t.owed ∧ u.full = t.full) ∧
      (t.sup.pmode = false → u.full = false ∧ ∀ o, o ∈ u.owed ↔ o ∈ t.owed ∧ o.2 = t.sup.epc) ∧
      (t.sup.pmode = true ∨ (∀ q ∈ t.sq, q.taken = false) → u.sq = t.sq ∧ { u.hart with pc := t.hart.pc } = t.hart) ∧
      (t.sup.pmode = false → ∀ q ∈ u.sq, q.taken = false))

/-- R20, R327, R328: WAITE waits until WAKE.PEND is one, then clears it; WAKESET sets it in every task on its logical gnoum. HALT in
mode U stops the SCP until older work is done at scope k, and HALT_COMPLETE then ends the task, whose launch waits for the stores that the
host has yet to acknowledge (R117); in mode S it ends the task at once. R15: with the last task, and nothing to be acknowledged, the launch's
entry is free and its completion word, with ABORTED and the number of tasks that ended by HALT, goes to DONEADDR. -/
def Obligations.WaitingWakingAndHalting : Prop :=
  (∀ (s : State) (k : Nat) (t : Task), ScpExecutes s k t → t.sup.mode = true →
    (t.sup.pend = true → Becomes .waite s k { t with sup := { t.sup with pend := false }, hart := t.hart.advance 4 }) ∧
    (t.sup.pend = false → exec .waite s = .next s) ∧
    ∃ s', exec .halt s = .next s' ∧ s'.task? k = none) ∧
  (∀ (s : State) (k : Nat) (t : Task), ScpExecutes s k t → t.sup.mode = false → Becomes .halt s k { t with halting := true }) ∧
  (∀ (s : State) (lg : BitVec 8), ∃ t, exec (.wakeset lg) s = .next t ∧ { t with tasks := s.tasks } = s ∧
    ∀ k, t.task? k = (s.task? k).map (fun u =>
      if u.lg = lg.toNat ∧ lg.toNat < 192 then { u with sup := { u.sup with pend := true } } else u)) ∧
  (∀ (s : State) (k : Nat) (t : Task) (la : Launch), s.task? k = some t → t.seated = true → t.halting = true → t.sq = [] →
    t.hart.loads = [] → (∀ e ∈ t.hart.stores, e.atK = true) → t.deferred = [] → tfind s.disp.launches t.launch = some la →
    (2 ≤ la.left ∨ 1 ≤ la.unacked + t.hart.stores.length → ∃ s', exec (.haltComplete k) s = .next s' ∧ s'.task? k = none ∧
      tfind s'.disp.launches t.launch =
        some { la with left := la.left - 1, ended := la.ended + 1, unacked := la.unacked + t.hart.stores.length }) ∧
    (la.left = 1 → la.unacked = 0 → t.hart.stores = [] → la.queue < 16 → la.recIdx < 2 ^ 16 → (∀ u, tget 0 s.ms.ecc u = 0) →
      ∃ s', exec (.haltComplete k) s = .next s' ∧ s'.task? k = none ∧ tfind s'.disp.launches t.launch = none ∧
        CompletionWord s s s' la.asid (recField la.record 0x60 8) ((if la.aborted then 2 else 0) + (la.ended + 1) * 2 ^ 16) la.queue la.recIdx))

/-- R329: TLBI, its operands legal and every older store complete at scope k, leaves its selector with its gnoum and moves on; it waits for a
store that is not; illegal operands raise BOUNDS. R330: TLBSYNC removes every cached entry that a selector of this gnoum selects and no other;
while a pending access used a selected entry, or an instruction holds a pin on a page that a selector covers, it waits; then it forgets the
selectors of its gnoum and moves on. Whoever still uses an entry that is removed is known to every selector that selects it, of whatever gnoum.
A leaf is selected as R329 says, an entry of a directory or a table as R364 says. -/
def Obligations.TranslationsAreInvalidated : Prop :=
  (∀ (s : State) (k : Nat) (t : Task) (a b : Reg), ScpExecutes s k t → t.sup.mode = true → t.hart.ready [a, b] = true →
    (tlbSelOk (t.hart.x a) (t.hart.x b) = true →
      ((∀ e ∈ t.hart.stores, e.atK = true) →
        ∃ s', exec (.tlbi a b) s = .next s' ∧ s'.task? k = some { t with hart := t.hart.advance 4 } ∧ (∀ j, j ≠ k → s'.task? j = s.task? j) ∧
          { s' with tasks := s.tasks, tlbi := s.tlbi } = s ∧
          ∀ lg, s'.selectors lg = if lg = t.lg then s.selectors lg ++ [tlbSel (t.hart.x a) (t.hart.x b)] else s.selectors lg) ∧
      ((∃ e ∈ t.hart.stores, e.atK = false) → exec (.tlbi a b) s = .next s)) ∧
    (tlbSelOk (t.hart.x a) (t.hart.x b) = false → t.sup.exl = false → Faults (.tlbi a b) s k t cBOUNDS none false)) ∧
  (∀ (a b : Word), (tlbSelOk a b = true ↔ wordBits b 1 0 ≠ 3 ∧ wordBits b 15 2 = 0 ∧ wordBits b 63 32 = 0 ∧
      (wordBits b 1 0 = 0 → wordBits a 63 56 = 0)) ∧
    (tlbSel a b).removed = false ∧ (tlbSel a b).uses = [] ∧
    ∀ e : TlbEntry, (tlbSel a b).coversEntry e = true ↔
      (wordBits b 1 0 = 0 ∧ (e.asid.toNat = wordBits b 31 16 ∨ (e.level = none ∧ bit e.pte.toNat 5 = true)) ∧ e.level ≠ some 3 ∧
        e.va ≤ a.toNat ∧ a.toNat < e.va + e.size) ∨
      (wordBits b 1 0 = 1 ∧ e.asid.toNat = wordBits b 31 16 ∧ (e.level = none → bit e.pte.toNat 5 = false)) ∨ 2 ≤ wordBits b 1 0) ∧
  (∀ (s s1 : State) (k : Nat) (t : Task), ScpExecutes s k t → t.sup.mode = true → s1 = s.removeEntries t.lg →
    (∀ e, e ∈ s1.tlb ↔ e ∈ s.tlb ∧ ∀ z ∈ s.selectors t.lg, z.removed = false → z.coversEntry e = false) ∧
    { s1 with tlb := s.tlb, tlbi := s.tlbi } = s ∧
    (∀ lg, (s1.selectors lg).map (fun z => (z.kind, z.asid, z.va)) = (s.selectors lg).map (fun z => (z.kind, z.asid, z.va))) ∧
    (∀ lg e z x y p, e ∈ s.tlb → e ∉ s1.tlb → z ∈ s.selectors lg → z.coversEntry e = true → x ∈ s.tasks → y ∈ x.2.harts x.1 →
      p ∈ pendingVas y.2 → e.usedBy x.2.asid p.2 = true →
      ∃ z' ∈ s1.selectors lg, (z'.kind, z'.asid, z'.va) = (z.kind, z.asid, z.va) ∧ (y.1, p.1) ∈ z'.uses) ∧
    ((∃ z ∈ s1.selectors t.lg, (∃ u ∈ z.uses, s1.stillPending u = true) ∨
        ∃ x ∈ s1.tasks, ∃ pin, ((∃ q ∈ x.2.sq, pin ∈ q.pins) ∨ ∃ p ∈ x.2.stoeks, pin ∈ p.pins) ∧
          z.covers x.2.asid (bit pin.pte.toNat 5) pin.va pin.size = true) → exec .tlbsync s = .next s1) ∧
    ((∀ z ∈ s1.selectors t.lg, (∀ u ∈ z.uses, s1.stillPending u = false) ∧
        ∀ x ∈ s1.tasks, ∀ pin, ((∃ q ∈ x.2.sq, pin ∈ q.pins) ∨ ∃ p ∈ x.2.stoeks, pin ∈ p.pins) →
          z.covers x.2.asid (bit pin.pte.toNat 5) pin.va pin.size = false) →
      ∃ s', exec .tlbsync s = .next s' ∧ s'.task? k = some { t with hart := t.hart.advance 4 } ∧ (∀ j, j ≠ k → s'.task? j = s.task? j) ∧
        { s' with tasks := s.tasks, tlb := s.tlb, tlbi := s.tlbi } = s ∧ s'.tlb = s1.tlb ∧
        ∀ lg, s'.selectors lg = if lg = t.lg then [] else s1.selectors lg))

/-- R317, R420: the SCP in mode U with EXL clear takes the trap of the pending stream fault issued first: class 1, its code and tag,
EFPC the instruction's own pc, EPC the SCP's; R392: of the late faults of loads, CAS and AMO the earliest is taken, with DEFER, at its
instruction's pc, and the later ones stay pending. -/
def Obligations.LateFaultsAreTaken : Prop :=
  (∀ (s : State) (k : Nat) (t : Task) (q : QInstr) (f : FaultInfo), s.task? k = some t → t.pendingFault = some (q, f) →
    t.seated = true → t.sup.mode = false → t.sup.exl = false →
    ∃ u, Becomes (.streamFaultTrap k) s k u ∧
      TrapTaken (t.putQ { q with taken := true }) u f.code.toNat 1 0 (q.tag % 64) f.va f.wr false q.pc t.hart.pc) ∧
  (∀ (s : State) (k : Nat) (t : Task) (f : FaultInfo) (fp : Word) (rest : List (FaultInfo × Word)), s.task? k = some t →
    t.deferred = (f, fp) :: rest → t.scpOn = true → t.sup.exl = false →
    ∃ u, Becomes (.deferredLoadFault k) s k u ∧
      TrapTaken { t with deferred := rest } u f.code.toNat 0 0 0 f.va f.wr true fp t.hart.pc)

/-! ## Stream instructions -/

/-- R21, R22, R206, R207: with fewer than 64 unfinished entries, a stream instruction whose registers are written is placed in the
queue with its operands, its tag goes to x[d], and the SCP goes on after both words; nothing else of the machine changes: TDSET,
TDMOV, RINGI, SLD, SST, SGA, SSC, SCPY, NBMV, DESCEND, STKRUN in both forms, and KRUN. R206, R224: KRUN is queued with its NARG
arguments x[a] to x[a + NARG − 1] and the 128 bytes of its binding block, read at issue; a block that is not aligned to 128 bytes, or
not plain SRF inside the footprint, raises BOUNDS; arguments past x31 raise ILLOP. R207: with 64 unfinished entries in the queue each of
them waits and changes nothing. -/
def Obligations.StreamInstructionsAreQueued : Prop :=
  (∀ (s : State) (k : Nat) (t : Task) (d a b : Reg) (i : Instr) (rs : List Reg), ScpExecutes s k t → HoldsRegisters i d a b rs →
     (t.hart.ready (d :: rs) = true → t.sq.length < 64 → ∃ u, Becomes i s k u ∧ Queued t u i d (rs.map t.hart.x) []) ∧
     (64 ≤ t.sq.length → exec i s = .next s)) ∧
  (∀ (s : State) (k : Nat) (t : Task) (d : Reg) (ke : BitVec 13) (a : Reg) (narg : BitVec 4) (t5 : Bool) (b : Reg) (o : Nat),
     ScpExecutes s k t → o = (t.hart.x b).toNat →
     (narg = 0 ∨ a.toNat + narg.toNat ≤ 32 →
       (t.hart.ready (d :: b :: (List.range narg.toNat).map (fun i => a + BitVec.ofNat 5 i)) = true → t.sq.length < 64 →
         (o % 128 = 0 → o + 128 ≤ t.foot * 2 ^ 18 → t.inRing (o, 128) = false → t.srfBusy (o, 128) false = false →
           ∃ u, Becomes (.krun d ke a narg t5 b) s k u ∧
             Queued t u (.krun d ke a narg t5 b) d ((List.range narg.toNat).map (fun i => t.hart.x (a + BitVec.ofNat 5 i)))
               ((List.range 128).map (fun i => srfByte t.srf (o + i)))) ∧
         (t.sup.exl = false → o % 128 ≠ 0 ∨ t.foot * 2 ^ 18 < o + 128 ∨ t.inRing (o, 128) = true →
           Faults (.krun d ke a narg t5 b) s k t cBOUNDS none false)) ∧
       (64 ≤ t.sq.length → exec (.krun d ke a narg t5 b) s = .next s)) ∧
     (narg ≠ 0 → 32 < a.toNat + narg.toNat → t.sup.exl = false → Faults (.krun d ke a narg t5 b) s k t cILLOP none false))

/-- R210, R213, R215, R226: the instructions executed at issue write their result to x[d], move past both words and change
nothing else: TDGET once no TDSET or TDMOV of its descriptor is queued, RINGQ once no RINGI of its ring is, KSTAT and SQWAIT once
the tag is done, SQWAIT of all once the queue is empty, SQSTAT at once. R86, R212, R213: the field of a descriptor that each selector
of TDGET reads; zero for one that is not valid. R79, R215: the fields of RINGQ's word: FILLED, FREE, HEAD, TAIL, NSLOT, CFG and whether
the head slot ends its stream; zero for a ring that is not configured. R22, R230: STKCAN goes on at once. An STKRUN not started completes
with CANCEL and leaves the queue; a running program is cancelled, its deliveries gone, its pins once its stores have performed, unless it
has faulted; where the tag is no unfinished STKRUN's, nothing but the pc changes. -/
def Obligations.ResultsAtIssue : Prop :=
  (∀ (s : State) (k : Nat) (t : Task) (d a : Reg), ScpExecutes s k t →
     (t.hart.ready [d] = true →
       (∀ td f, (∀ q ∈ t.sq, setsDesc td.toNat q.ins = false) →
         Results (.tdget d td f) s (.scp k) t.hart d ((tget Desc.invalid t.descs td.toNat).field f.toNat) 8) ∧
       (∀ n, (∀ q ∈ t.sq, ringiOf q.ins ≠ some n.toNat) →
         Results (.ringq d n) s (.scp k) t.hart d (t.ring n.toNat).snapshot 8)) ∧
     (t.hart.ready [d, a] = true →
       Results (.sqstat d a) s (.scp k) t.hart d (t.tag ((t.hart.x a).toNat % 64)).status 8 ∧
       ((t.tag ((t.hart.x a).toNat % 64)).status.getLsbD 22 = true →
         Results (.kstat d a) s (.scp k) t.hart d (t.tag ((t.hart.x a).toNat % 64)).status 8)) ∧
     (t.hart.ready [a] = true → (t.tag ((t.hart.x a).toNat % 64)).status.getLsbD 22 = true →
       Results (.sqwait a) s (.scp k) t.hart 0 0 8) ∧
     (t.hart.ready [a] = true → (t.tag ((t.hart.x a).toNat % 64)).status.getLsbD 22 = false →
       exec (.sqwait a) s = .next s ∧ exec (.kstat d a) s = .next s) ∧
     (t.sq = [] → Results .sqwaitAll s (.scp k) t.hart 0 0 8) ∧ (t.sq ≠ [] → exec .sqwaitAll s = .next s)) ∧
  (∀ d : Desc,
     (d.valid = true → d.field 0 = (d.image.extractLsb' 0 56).setWidth 64 ∧ d.field 1 = (d.image.extractLsb' 56 4).setWidth 64 ∧
       d.field 2 = (d.image.extractLsb' 60 2).setWidth 64 ∧ d.field 3 = (d.image.extractLsb' 62 1).setWidth 64 ∧
       d.field 4 = (d.image.extractLsb' 64 3).setWidth 64 ∧ d.field 5 = (d.image.extractLsb' 67 3).setWidth 64 ∧
       d.field 6 = (d.image.extractLsb' 72 8).setWidth 64 ∧ d.field 7 = (d.image.extractLsb' 80 40).signExtend 64 ∧
       (∀ i, i < 7 → d.field (8 + i) = (d.image.extractLsb' (120 + 56 * i) 24).setWidth 64 ∧
         d.field (15 + i) = (d.image.extractLsb' (144 + 56 * i) 32).signExtend 64 ∧
         d.field (22 + i) = (tget 0 d.orgs i).signExtend 64) ∧ d.field 29 = 1) ∧
     (d.valid = false → ∀ f, d.field f = 0)) ∧
  (∀ r : Ring, r.filled < 2 ^ 9 → r.free < 2 ^ 9 → r.head < 2 ^ 8 → r.tail < 2 ^ 8 → r.nslot < 2 ^ 9 →
     (r.cfg = true → wordBits r.snapshot 8 0 = r.filled ∧ wordBits r.snapshot 17 9 = r.free ∧ wordBits r.snapshot 25 18 = r.head ∧
       wordBits r.snapshot 33 26 = r.tail ∧ wordBits r.snapshot 42 34 = r.nslot ∧ r.snapshot.getLsbD 43 = true ∧
       r.snapshot.getLsbD 44 = r.eosAt 0 ∧ wordBits r.snapshot 63 45 = 0) ∧
     (r.cfg = false → r.snapshot = 0)) ∧
  (∀ (s : State) (k : Nat) (t : Task) (a : Reg), ScpExecutes s k t → t.hart.ready [a] = true →
     (t.stkrunOf ((t.hart.x a).toNat % 64) = none → Results (.stkcan a) s (.scp k) t.hart 0 0 8) ∧
     (∀ q, t.stkrunOf ((t.hart.x a).toNat % 64) = some q → t.stoek? q.tag = none →
       ∃ u, Becomes (.stkcan a) s k u ∧ u.hart.pc = t.hart.pc + 8 ∧ u.hart.xs = t.hart.xs ∧ (∀ x ∈ u.sq, x.tag ≠ q.tag) ∧
         wordBits (u.tag (q.tag % 64)).status 7 0 = 19 ∧ (u.tag (q.tag % 64)).status.getLsbD 22 = true) ∧
     (∀ q p, t.stkrunOf ((t.hart.x a).toNat % 64) = some q → t.stoek? q.tag = some p →
       ∃ u p', Becomes (.stkcan a) s k u ∧ u.hart.pc = t.hart.pc + 8 ∧ u.hart.xs = t.hart.xs ∧ u.stoek? q.tag = some p' ∧
         p'.delivery = [] ∧ (p.hart.stores = [] → p'.pins = []) ∧ p'.hart = p.hart ∧
         ((∀ c x v, p.ending ≠ .fault c x v) → p'.ending = .cancel) ∧ ((∃ c x v, p.ending = .fault c x v) → p'.ending = p.ending)))

/-! ## Groups and steps -/

/-- R33, R34, R35: GJOIN of a group that GPERMIT admits makes the task a member (or leaves one a member), PERM where it does not admit it,
BOUNDS for a fifth group; GLEAVE takes the membership away, with an arrival still owed, and changes no register of the task. R36, R116,
R420: GBAR of a member waits for its older accesses, then arrives and waits; the arrival that leaves no member missing releases every
member: arrived bits clear, and each GBAR that arrived goes on at its next execution, or at once where its task is saved while it waits
there (R348). Which GBAR has arrived its address tells (log 24): another of the same group arrives anew. One that is no member raises BOUNDS. That the faults are precise traps of class 0 is the model's reading (log 24). -/
def Obligations.GroupsAndBarriers : Prop :=
  (∀ (s : State) (k : Nat) (t : Task) (g : BitVec 6), ScpExecutes s k t →
     (t.gpermit.getLsbD g.toNat = true → t.inGroup g.toNat = false → t.groups.length < 4 →
       Becomes (.gjoin g) s k { t with groups := t.groups ++ [(g.toNat, false)], hart := t.hart.advance 8 }) ∧
     (t.gpermit.getLsbD g.toNat = true → t.inGroup g.toNat = true → Becomes (.gjoin g) s k { t with hart := t.hart.advance 8 }) ∧
     (t.sup.exl = false → t.gpermit.getLsbD g.toNat = false → Faults (.gjoin g) s k t cPERM none false) ∧
     (t.sup.exl = false → t.gpermit.getLsbD g.toNat = true → t.inGroup g.toNat = false → 4 ≤ t.groups.length →
       Faults (.gjoin g) s k t cBOUNDS none false) ∧
     ∃ s' u, exec (.gleave g) s = .next s' ∧ s'.task? k = some u ∧ u.groups = t.groups.filter (fun m => m.1 ≠ g.toNat) ∧
       u.owed = t.owed.filter (·.1 ≠ g.toNat) ∧ u.hart = t.hart.advance 8 ∧ u.sup = t.sup ∧ SameMemory s s' ∧
       { s' with tasks := s.tasks } = s) ∧
  (∀ (s : State) (k : Nat) (t : Task) (g : BitVec 6), ScpExecutes s k t →
     (t.sup.exl = false → t.inGroup g.toNat = false → Faults (.gbar g) s k t cBOUNDS none false) ∧
     (t.inGroup g.toNat = true → (g.toNat, t.hart.pc) ∈ t.owed →
       ((g.toNat, true) ∉ t.groups →
         Becomes (.gbar g) s k { t with owed := t.owed.filter (· ≠ (g.toNat, t.hart.pc)), gbarWait := none, hart := t.hart.advance 8 }) ∧
       ((g.toNat, true) ∈ t.groups → Becomes (.gbar g) s k { t with gbarWait := some g.toNat })) ∧
     (t.inGroup g.toNat = true → (g.toNat, t.hart.pc) ∉ t.owed → t.drainedK = false → exec (.gbar g) s = .next s) ∧
     (∀ t1, t.inGroup g.toNat = true → (g.toNat, t.hart.pc) ∉ t.owed → t.drainedK = true →
       t1 = { t with owed := (g.toNat, t.hart.pc) :: t.owed, gbarWait := some g.toNat,
                     groups := t.groups.map (fun m => if m.1 = g.toNat then (m.1, true) else m) } →
       (((s.putTask k t1).members g.toNat).all id = false → Becomes (.gbar g) s k t1) ∧
       (((s.putTask k t1).members g.toNat).all id = true →
         ∃ s', exec (.gbar g) s = .next s' ∧ SameMemory s s' ∧ { s' with tasks := s.tasks } = s ∧
           ∀ j u0, (s.putTask k t1).task? j = some u0 → ∃ u, s'.task? j = some u ∧ (∀ b, (g.toNat, b) ∈ u.groups → b = false) ∧
             (∀ m b, m ≠ g.toNat → ((m, b) ∈ u.groups ↔ (m, b) ∈ u0.groups)) ∧
             (u0.run.saved = false ∨ u0.gbarWait ≠ some g.toNat → { u with groups := u0.groups } = u0) ∧
             (u0.run.saved = true → u0.gbarWait = some g.toNat → { u with groups := u0.groups } =
               { u0 with owed := u0.owed.filter (· ≠ (g.toNat, u0.hart.pc)), gbarWait := none, hart := u0.hart.advance 8 }))))

/-- R121, R134, R135, R231: STEP.ARR and STEP.WAIT of a step-member task wait for its older accesses, then arrive: later pod stores take
generation n + 1 from SEQ 0. STEP.ARR moves on at once, STEP.WAIT waits for the release. A task that is no step member raises SCOPE. That
a STEP.WAIT after a release goes on at once is the model's reading (log 35). R231: STEP.QRY gives the step number, in full or shifted up
by one with the task's arrived bit below it. That the fault is a precise trap of class 0 is the model's reading (log 24). -/
def Obligations.StepInstructionsArrive : Prop :=
  (∀ (s : State) (k : Nat) (t : Task), ScpExecutes s k t →
     (t.stepm = false → t.sup.exl = false → Faults .stepArr s k t cSCOPE none false ∧ Faults .stepWait s k t cSCOPE none false ∧
       ∀ d full, Faults (.stepQry d full) s k t cSCOPE none false) ∧
     (t.stepm = true → t.arrived = false → t.drainedK = true →
       (∃ s', exec .stepArr s = .next s' ∧ SameMemory s s' ∧ (∀ j, j ≠ k → s'.task? j = s.task? j) ∧
         s'.task? k = some { t with arrived := true, stepOwed := true, seq := 0, hart := t.hart.advance 8 }) ∧
       (t.stepOwed = false → ∃ s', exec .stepWait s = .next s' ∧ SameMemory s s' ∧ (∀ j, j ≠ k → s'.task? j = s.task? j) ∧
         s'.task? k = some { t with arrived := true, stepOwed := true, seq := 0, inStepWait := true })) ∧
     (t.stepm = true → t.arrived = false → t.drainedK = false → exec .stepArr s = .next s) ∧
     (t.stepm = true → t.arrived = true → exec .stepArr s = .next s ∧ Becomes .stepWait s k { t with inStepWait := true }) ∧
     (t.stepm = true → t.arrived = false → t.stepOwed = true →
       Becomes .stepWait s k { t with stepOwed := false, inStepWait := false, hart := t.hart.advance 8 })) ∧
  (∀ (s : State) (k : Nat) (t : Task) (d : Reg), ScpExecutes s k t → t.stepm = true → t.hart.ready [d] = true →
     Results (.stepQry d true) s (.scp k) t.hart d (BitVec.ofNat 64 s.stepNum) 8 ∧
     Results (.stepQry d false) s (.scp k) t.hart d (BitVec.ofNat 64 (2 * s.stepNum + t.arrived.toNat)) 8)

/-! ## The stream engine and the kernel sequencer -/

/-- R23, R207, R210, R224: a queued instruction that may leave the queue, or that waited for a core or for pins, makes its checks; where they
pass it runs: STARTED is set and DONE is not, and no SRF byte, ring, descriptor, register or byte of memory changes. R101: its load entry
enters the load queue. A KRUN's kernel then stands at KENTRY with its arguments in k0 to k7. R208: where a check fails, the
instruction holds the stream fault instead. R96, R97, R300: a pod store, a reduction and a DESCEND with PT pin what their probe
pass finds, wait where a gnoum would pin more than 8,192 pages, and fault where the probe does; a probe that faults while an older MARK
holds is made again (the model's reading of R363, log 50). R229, R275: an STKRUN starts its program with the registers of R229 once a core
is granted to it, else it waits; a pc that is not a multiple of 4, and a ring that is not configured or of slots over 64 lines, complete
it with BOUNDS; that DPC then holds the STKRUN's own address is the model's choice (log 56). R102: the load entry of a running instruction begins to bind at its turn. R23: one that may not leave the queue
waits. -/
def Obligations.QueuedInstructionsStart : Prop :=
  (∀ (s : State) (k tag : Nat) (t : Task) (q : QInstr) (s0 : State) (t0 : Task) (q0 : QInstr) (d : Desc),
    s.task? k = some t → t.onChip = true → t.clean → t.queued? tag = some q → q.fault = none → q.running = false →
    StartsFrom s k t q s0 t0 q0 → d = ((tdOf q.ins).map (tget Desc.invalid t0.descs)).getD Desc.invalid →
    (q.started = false → t.nextTag ≤ q.tag + 64 → wordBits (t0.tag (q.tag % 64)).status 22 21 = 1) ∧
    (∀ c, StartChecks t0 q0 d c →
      (∀ f, c = .error (.trap f) → ∃ s' u, exec (.streamStart k tag) s = .next s' ∧ OnlyTask s0 s' k u ∧ StreamFaulted t0 u q0 f) ∧
      (c = .ok () → ¬ProbesPages q0 d → ∃ s' u, exec (.streamStart k tag) s = .next s' ∧ OnlyTask s0 s' k u ∧ StreamRuns t0 u q0 d [] 0 ∧
        u.stoeks = t0.stoeks ∧ (isKrun q.ins = false → u.kern = t0.kern) ∧
        (∀ e ke a n t5 b, q.ins = .krun e ke a n t5 b → ∃ kn, u.kern = some kn ∧ kn.tag = q.tag ∧ kn.pc = ke.toNat ∧ kn.t5trap = t5 ∧
          kn.count = 0 ∧ kn.loops = [] ∧ kn.inflight = [] ∧ kn.v = [] ∧ kn.m = [] ∧ kn.p = [] ∧ kn.q = [] ∧ kn.bench = [] ∧ kn.g = [] ∧
          ∀ i, i < 8 → tget 0 kn.k i = if i < q.ops.length then q.ops.getD i 0 else 0))) ∧
    (∀ g s1 r, QInstr.geo { q0 with desc := d } = some g → QInstr.probes { q0 with desc := d } g = true →
      QInstr.moveCheck { q0 with desc := d } t0 g = .ok () → s0.probe t0 { q0 with desc := d } g = (s1, r) →
      (∀ p need, r = .ok (p, need) →
        (s0.pinnedAt t0.lg + p.pins.length ≤ 8192 → ∃ s' u, exec (.streamStart k tag) s = .next s' ∧ OnlyTask s1 s' k u ∧
          StreamRuns t0 u q0 d p.pins need ∧ u.kern = t0.kern ∧ u.stoeks = t0.stoeks) ∧
        (8192 < s0.pinnedAt t0.lg + p.pins.length → exec (.streamStart k tag) s = .next s0)) ∧
      (∀ f, r = .error (.trap f) →
        ((∃ m ∈ t0.hart.marks, m.1 < q0.po ∧ t0.hart.olderPending t0.streamPos m.1 m.2 = true) → exec (.streamStart k tag) s = .next s0) ∧
        ((∀ m ∈ t0.hart.marks, m.1 < q0.po → t0.hart.olderPending t0.streamPos m.1 m.2 = false) → s1.task? k = some t0 →
          ∃ s' u, exec (.streamStart k tag) s = .next s' ∧ OnlyTask s1 s' k u ∧ StreamFaulted t0 u q0 f))) ∧
    (∀ o s1 pins, q0.descendOp = some o → o.pt = true → QInstr.descendCheck { q0 with desc := d } t0 o = .ok () →
      s0.descendProbe t0 { q0 with desc := d } o = (s1, .ok pins) →
      (s0.pinnedAt t0.lg + pins.length ≤ 8192 → ∃ s' u, exec (.streamStart k tag) s = .next s' ∧ OnlyTask s1 s' k u ∧
        StreamRuns t0 u q0 d pins 0 ∧ u.kern = t0.kern ∧ u.stoeks = t0.stoeks) ∧
      (8192 < s0.pinnedAt t0.lg + pins.length → exec (.streamStart k tag) s = .next s0)) ∧
    (∀ pc ringOk, isStkrun q.ins = true → pc = q.ops.getD 0 0 →
      (ringOk ↔ ∀ e n a b, q.ins = .stkrun e n a b → (t0.ring n.toNat).cfg = true ∧ (t0.ring n.toNat).slotsz ≤ 64) →
      (s0.granted t0 q0 = false → exec (.streamStart k tag) s = .next s0) ∧
      (s0.granted t0 q0 = true → pc.toNat % 4 = 0 → ringOk → ∃ s' u p, exec (.streamStart k tag) s = .next s' ∧ OnlyTask s0 s' k u ∧
        StreamRuns t0 u q0 Desc.invalid [] 0 ∧ u.kern = t0.kern ∧ u.stoeks = t0.stoeks ++ [p] ∧ p.tag = q.tag ∧ p.core = true ∧
        (∀ e n a b, q.ins = .stkrun e n a b → p.ring = some n.toNat) ∧ (∀ e a b, q.ins = .stkrunNoring e a b → p.ring = none) ∧
        p.hart.pc = pc ∧ (∀ r, p.hart.x r = if r = 10 then q.ops.getD 1 0 else if r = 11 then BitVec.ofNat 64 t0.lg
          else if r = 12 then BitVec.ofNat 64 (q.tag % 64) else 0) ∧ p.hart.loads = [] ∧ p.hart.stores = [] ∧
        p.ending = .running ∧ p.ixn = 0 ∧ p.delivery = [] ∧ p.pins = [] ∧ p.modeS = q.modeS) ∧
      (s0.granted t0 q0 = true → pc.toNat % 4 ≠ 0 ∨ ¬ringOk → ∃ s' u, exec (.streamStart k tag) s = .next s' ∧ OnlyTask s0 s' k u ∧
        StreamCompleted t0 u tag cBOUNDS 0 ∧ u.srf = t0.srf ∧ u.rings = t0.rings ∧ u.stoeks = t0.stoeks ∧
        (t.nextTag ≤ q.tag + 64 → (u.tag (q.tag % 64)).dpc = q.pc)))) ∧
  (∀ (s : State) (k tag : Nat) (t : Task) (q : QInstr), s.task? k = some t → t.onChip = true → t.queued? tag = some q → q.fault = none →
    (q.running = false → q.started = false → s.mayLeave t q = false → exec (.streamStart k tag) s = .next s) ∧
    (q.running = true → hasLoadEntry q.ins = true → isStkrun q.ins = false → q.desc.space ≠ .pod →
      (t.hart.streamLoadTurn q.tag && t.hart.mayGo t.streamPos q.po false .h) = true →
      ∃ u, Becomes (.streamStart k tag) s k u ∧ u.hart.loads = t.hart.loads.map (fun e =>
          if e.isStream q.tag then { e with begun := true } else e) ∧ { u with hart := { u.hart with loads := t.hart.loads } } = t))

/-- R88, R211, R210: a running TDSET completes: its descriptor is valid and holds the 64 SRF bytes it names, with origins zero. R212: a
running TDMOV gives one field of a valid descriptor the value it holds, and every other field of it stays. R80, R214: a running RINGI
leaves its ring empty, with BASE, SLOTSZ and NSLOT as given, or unconfigured for NSLOT 0. Other descriptors, rings, the SRF and memory are
as before; R278: an older STKRUN that has not started is still to see what it saw. R81, R223: an SCPY with a ring moves one slot, its
waits satisfied: the slot at the source ring's head, or the next lines of plain SRF, goes to the tail slot of the other ring, to the next
lines of plain SRF, or with DROP nowhere; the source releases, the other ring publishes. With E the head slot that ends its stream is
released with no bytes, and an empty slot that ends the stream is published where the target is a ring. While a slot that it needs is
empty or none is free it waits. It completes after its last slot; a plain SCPY copies its bytes and completes with COUNT in lines. -/
def Obligations.DescriptorsRingsAndCopies : Prop :=
  (∀ (s : State) (k tag : Nat) (t : Task) (q : QInstr), s.task? k = some t → t.onChip = true → t.clean → t.queued? tag = some q →
    q.fault = none → q.running = true →
    (∀ d td line n e, q.ins = .tdset d td line → q.newDesc t = .ok (n, e) →
      ∃ u, Becomes (.streamComplete k tag) s k u ∧ StreamCompleted t u tag 0 0 ∧
        tget Desc.invalid u.descs td.toNat =
          { image := BitVec.ofNat 512 (leNat ((List.range 64).map (fun i => srfByte t.srf (line.toNat * 128 + i)))), orgs := [],
            valid := true } ∧
        (∀ m, m ≠ td.toNat → tget Desc.invalid u.descs m = tget Desc.invalid t.descs m) ∧ StkrunsSeeTheSame t u q ∧ u.srf = t.srf ∧
        u.rings = t.rings ∧ u.dregs = t.dregs ∧ u.stoeks = t.stoeks) ∧
    (∀ d td f a n e, q.ins = .tdmov d td f a → f.toNat ≤ 28 → q.newDesc t = .ok (n, e) →
      ∃ u x x', Becomes (.streamComplete k tag) s k u ∧ StreamCompleted t u tag 0 0 ∧ x = tget Desc.invalid t.descs td.toNat ∧
        x' = tget Desc.invalid u.descs td.toNat ∧ x.valid = true ∧ x'.valid = true ∧ x'.field f.toNat = q.ops.getD 0 0 ∧
        (∀ g, g ≠ f.toNat → x'.field g = x.field g) ∧
        (∀ m, m ≠ td.toNat → tget Desc.invalid u.descs m = tget Desc.invalid t.descs m) ∧ StkrunsSeeTheSame t u q ∧ u.srf = t.srf ∧
        u.rings = t.rings ∧ u.dregs = t.dregs ∧ u.stoeks = t.stoeks) ∧
    (∀ d n a ns s1 m r, q.ins = .ringi d n a ns s1 → q.newRing t = .ok (m, r) →
      ∃ u, Becomes (.streamComplete k tag) s k u ∧ StreamCompleted t u tag 0 0 ∧
        (ns = 0 → (u.ring n.toNat).cfg = false) ∧
        (ns ≠ 0 → (u.ring n.toNat).cfg = true ∧ (u.ring n.toNat).base = (q.ops.getD 0 0).toNat ∧
          (u.ring n.toNat).slotsz = s1.toNat + 1 ∧ (u.ring n.toNat).nslot = ns.toNat ∧ (u.ring n.toNat).free = ns.toNat ∧
          (u.ring n.toNat).filled = 0 ∧ (u.ring n.toNat).head = 0 ∧ (u.ring n.toNat).tail = 0 ∧ (u.ring n.toNat).eos = 0) ∧
        OtherRings [n.toNat] t u ∧ u.srf = t.srf ∧ u.descs = t.descs ∧ u.dregs = t.dregs ∧ u.stoeks = t.stoeks) ∧
    (∀ d e dr la lb rga rgb a n, q.ins = .scpy d e dr la lb rga rgb a → n = (q.ops.getD 0 0).toNat →
      ((rga || rgb) = false → ∃ u, Becomes (.streamComplete k tag) s k u ∧ StreamCompleted t u tag 0 (n / 128) ∧
        (dr = false → SrfTakes t.srf u.srf (lb.toNat * 128) n (fun i => srfByte t.srf (la.toNat * 128 + i))) ∧ (dr = true → u.srf = t.srf) ∧
        u.rings = t.rings ∧ u.descs = t.descs ∧ u.dregs = t.dregs ∧ u.stoeks = t.stoeks) ∧
      ((rga || rgb) = true → q.ended = true → ∃ u, Becomes (.streamComplete k tag) s k u ∧ StreamCompleted t u tag 0 q.count ∧
        u.srf = t.srf ∧ u.rings = t.rings ∧ u.descs = t.descs ∧ u.dregs = t.dregs ∧ u.stoeks = t.stoeks) ∧
      ((rga || rgb) = true → q.ended = false → exec (.streamComplete k tag) s = .next s))) ∧
  (∀ (s : State) (k tag : Nat) (t : Task) (q : QInstr) (d : Reg) (e dr : Bool) (la lb : BitVec 15) (rga rgb : Bool) (a : Reg)
     (n unit src dst : Nat) (ra rb : Ring), s.task? k = some t → t.onChip = true → t.clean → t.queued? tag = some q →
    q.running = true → q.ins = .scpy d e dr la lb rga rgb a → (rga || rgb) = true → q.ended = false →
    n = (q.ops.getD 0 0).toNat → ra = t.ring la.toNat → rb = t.ring lb.toNat → unit = 128 * (if rga then ra.slotsz else rb.slotsz) →
    src = (if rga then ra.slot ra.head else la.toNat * 128 + q.resume * unit) →
    dst = (if rgb then rb.slot rb.tail else lb.toNat * 128 + q.resume * unit) →
    (q.begun = false → rga = true → ra.filled ≠ 0 → e = true → ra.eosAt 0 = true →
      ∃ u, Becomes (.ringWaitSatisfied k tag) s k u ∧ RingReleases ra (u.ring la.toNat) ∧ OtherRings [la.toNat] t u ∧
        u.queued? tag = some { q with count := q.count + 1, begun := rgb, ended := !rgb } ∧
        { u with sq := t.sq, rings := t.rings } = t) ∧
    (q.begun = true → rb.free ≠ 0 →
      ∃ u, Becomes (.ringWaitSatisfied k tag) s k u ∧ RingPublishes rb (u.ring lb.toNat) true ∧ OtherRings [lb.toNat] t u ∧
        u.queued? tag = some { q with begun := false, ended := true } ∧ { u with sq := t.sq, rings := t.rings } = t) ∧
    (q.begun = false → (rga = true → ra.filled ≠ 0) → (e && ra.eosAt 0) = false → (rgb = true → rb.free ≠ 0) →
      ∃ u, Becomes (.ringWaitSatisfied k tag) s k u ∧
        (dr = false → SrfTakes t.srf u.srf dst unit (fun i => srfByte t.srf (src + i))) ∧ (dr = true → u.srf = t.srf) ∧
        (rga = true → (rgb = false ∨ la ≠ lb) → RingReleases ra (u.ring la.toNat)) ∧
        (rgb = true → (rga = false ∨ la ≠ lb) → RingPublishes rb (u.ring lb.toNat) false) ∧
        (rga = true → rgb = true → la = lb → ∃ r, RingPublishes rb r false ∧ RingReleases r (u.ring lb.toNat)) ∧
        OtherRings ((if rga then [la.toNat] else []) ++ if rgb then [lb.toNat] else []) t u ∧
        u.queued? tag = some { q with resume := q.resume + 1, count := q.count + (if rga then 1 else unit / 128),
                                      ended := decide (n ≠ 0) && (q.resume + 1) * unit == n } ∧
        { u with sq := t.sq, rings := t.rings, srf := t.srf } = t) ∧
    ((q.begun = true ∧ rb.free = 0) ∨ (q.begun = false ∧ rga = true ∧ ra.filled = 0) ∨
       (q.begun = false ∧ (e && ra.eosAt 0) = false ∧ rgb = true ∧ rb.free = 0) → exec (.ringWaitSatisfied k tag) s = .next s))

/-- R29, R159, R178, R210: a bundle that does not decode, or that fails a static check, ends its KRUN at that bundle: ILLBND, or the
check's code; no slot executes, no SRF byte and no byte of memory changes; FBUNDLE names the bundle and COUNT the bundles issued. R263: while a
wait is not satisfied nothing changes. R28, R156, R263: else it issues, here with no ring operation and no loop that turns here: the results whose
time has come land, the rest of those in flight come one bundle nearer, units stay occupied, the C slots' lines and bench lines are
written, the cursors move, and the sequencer stands at the next bundle; nothing else changes. KEND completes the KRUN with code 0; the
step past bundle 8,191 ends it with ILLBND. R158: results in flight never meet (an invariant). -/
def Obligations.KernelBundlesIssue : Prop :=
  (∀ (s : State) (n : Nat) (t : Task) (k : Kernel) (f : KFault), BundleAt s n t k →
    ((∃ r, decodeBundle (tget 0 s.kstore k.pc) = .error r) ∧ f = { code := cILLBND, kcode := 0 }) ∨
      (∃ b, decodeBundle (tget 0 s.kstore k.pc) = .ok b ∧ k.planBundle t b = .error f) → f.code ≠ cDATAERR →
    ∃ u, Becomes (.kernelBundle n) s n u ∧ StreamCompleted { t with kern := none } u k.tag f.code k.count ∧ u.srf = t.srf ∧
      u.rings = t.rings ∧ u.descs = t.descs ∧ u.stoeks = t.stoeks ∧
      (t.nextTag ≤ k.tag + 64 → wordBits (u.tag (k.tag % 64)).status 44 32 = k.pc % 8192 ∧
        wordBits (u.tag (k.tag % 64)).status 15 8 = f.kcode % 256)) ∧
  (∀ (s : State) (n : Nat) (t : Task) (k : Kernel) (b : Bundle) (p : BPlan), BundleAt s n t k →
    decodeBundle (tget 0 s.kstore k.pc) = .ok b → k.planBundle t b = .ok p →
    (∃ w ∈ p.u.wait ++ p.c0.waits ++ p.c1.waits, w.ok t = false) → exec (.kernelBundle n) s = .next s) ∧
  (∀ (s : State) (n : Nat) (t : Task) (k : Kernel) (b : Bundle) (p : BPlan), BundleReady s n t k b p →
    p.c0.moves = [] → p.c1.moves = [] → p.u.loop = none → collides [] k.inflight [] = false →
    (p.u.ends = true → ∃ u, Becomes (.kernelBundle n) s n u ∧ StreamCompleted { t with kern := none } u k.tag 0 (k.count + 1) ∧
      u.srf = putLines t.srf (p.c0.srf ++ p.c1.srf) ∧ u.rings = t.rings ∧ u.descs = t.descs ∧ u.stoeks = t.stoeks) ∧
    (p.u.ends = false → p.u.branch = none → (∀ e r, k.loops = e :: r → e.last ≠ k.pc) →
      (k.pc = 8191 → ∃ u, Becomes (.kernelBundle n) s n u ∧ StreamCompleted { t with kern := none } u k.tag cILLBND (k.count + 1)) ∧
      (k.pc < 8191 → ∃ u k', Becomes (.kernelBundle n) s n u ∧ u.kern = some k' ∧ k'.pc = k.pc + 1 ∧ k'.loops = k.loops ∧
        k'.count = k.count + 1 ∧ k'.inflight = (p.flying.filter (fun x => x.left ≠ 0)).map (fun x => { x with left := x.left - 1 }) ∧
        collides [] k'.inflight [] = false ∧ ResultsLand p.flying [] k k' t.dregs u.dregs ∧
        k'.flags = k.flags.or p.flags ∧ k'.occV0 = max (k.occV0 - 1) (p.occ.1 - 1) ∧ k'.occV1 = max (k.occV1 - 1) (p.occ.2.1 - 1) ∧
        k'.occM = max (k.occM - 1) (p.occ.2.2 - 1) ∧
        (∀ l, tget 0 k'.bench l = ((p.c0.bench ++ p.c1.bench).foldl (fun v x => if x.1 = l then x.2 else v) (tget 0 k.bench l))) ∧
        (∀ i, tget 0 k'.g i = tget 0 k.g i + (match p.c0.cursor with | some (j, a) => if j = i then BitVec.ofNat 64 a else 0 | none => 0) +
          (match p.c1.cursor with | some (j, a) => if j = i then BitVec.ofNat 64 a else 0 | none => 0)) ∧
        u.srf = putLines t.srf (p.c0.srf ++ p.c1.srf) ∧ k'.binds = k.binds ∧ k'.cons = k.cons ∧ k'.prod = k.prod ∧ k'.tag = k.tag ∧
        { u with kern := t.kern, srf := t.srf, dregs := t.dregs } = t)))

/-- R235, R236, R237: what a U slot brings its k or q register, with the latency of R234: sums, products, shifts, comparisons, moves, the
lanes of KGET and the votes over a predicate; and the branch that BRU takes, or NUBR where the elements disagree. R29: KFLT ends
the kernel with its code. R238 to R242: LOOP, LOOPRP and LOOPES enter their bodies, with the index register at its first value, or pass
them where they run no times; after the last bundle of a body the loop goes round, with the next index, or ends, a LOOPES when the head slot
of its ring ends the stream, which it releases; it waits while the ring is empty. R242: a taken branch leaves the bodies that do not hold
its target. -/
def Obligations.UniformSlotsSteer : Prop :=
  (∀ (k : Kernel) (t : Task) (b : Bundle) (p : BPlan) (u : UOp) (K : BitVec 5 → Word), k.planBundle t b = .ok p → b.u = some u →
    (∀ r, K r = tget 0 k.k r.toNat) →
    (∀ d x y, (u = .kadd d x y → Brings p 1 (.k d.toNat (K x + K y))) ∧ (u = .ksub d x y → Brings p 1 (.k d.toNat (K x - K y))) ∧
      (u = .kand d x y → Brings p 1 (.k d.toNat (K x &&& K y))) ∧ (u = .kor d x y → Brings p 1 (.k d.toNat (K x ||| K y))) ∧
      (u = .kxor d x y → Brings p 1 (.k d.toNat (K x ^^^ K y))) ∧
      (u = .kmul d x y → ∃ v : Word, v.toNat = (K x).toNat * (K y).toNat % 2 ^ 64 ∧ Brings p 3 (.k d.toNat v)) ∧
      (u = .kshl d x y → ∃ v : Word, v.toNat = (K x).toNat * 2 ^ ((K y).toNat % 64) % 2 ^ 64 ∧ Brings p 1 (.k d.toNat v)) ∧
      (u = .kshr false d x y → ∃ v : Word, v.toNat = (K x).toNat / 2 ^ ((K y).toNat % 64) ∧ Brings p 1 (.k d.toNat v)) ∧
      (u = .kshr true d x y → ∃ v : Word, v.toInt = (K x).toInt / 2 ^ ((K y).toNat % 64) ∧ Brings p 1 (.k d.toNat v)) ∧
      (∀ c qd, u = .kcmp c d x y qd → ∃ v : Bool, (v = true ↔ condMeaning c (K x) (K y)) ∧ Brings p 1 (.k d.toNat (if v then 1 else 0)) ∧
        ∀ z, qd = some z → Brings p 1 (.q z.toNat v)) ∧
      (∀ q, u = .ksel d q x y → Brings p 1 (.k d.toNat (if tget false k.q q.toNat then K x else K y)))) ∧
    (∀ d imm, (u = .kmovi d imm → Brings p 1 (.k d.toNat (imm.signExtend 64))) ∧
      (u = .kmoviSh d imm → ∃ v : Word, v.toNat = ((K d).toNat * 2 ^ 16 + imm.toNat) % 2 ^ 64 ∧ Brings p 1 (.k d.toNat v))) ∧
    (∀ w64 d va c l lo, u = .kget w64 d va c l → lo = elem (tget 0 k.v va.toNat).toNat 32 (32 * c.toNat + l.toNat) →
      (w64 = false → Brings p 4 (.k d.toNat (BitVec.ofInt 64 (signed 32 lo)))) ∧
      (w64 = true → Brings p 4 (.k d.toNat (BitVec.ofNat 64
        (lo + elem (tget 0 k.v va.toNat).toNat 32 (32 * c.toNat + l.toNat + 1) * 2 ^ 32))))) ∧
    (∀ md w qd pa kd set, u = .vote md w qd pa kd →
      set = (List.range (16384 / (8 * 2 ^ w.toNat))).filter (fun j => (tget 0 k.p pa.toNat).getLsbD (8 * 2 ^ w.toNat * j / 8)) →
      Brings p 2 (.q qd.toNat (match md with
        | .any => !set.isEmpty
        | .all => set.length == 16384 / (8 * 2 ^ w.toNat)
        | .uni => set.isEmpty || set.length == 16384 / (8 * 2 ^ w.toNat))) ∧
      ∀ d, kd = some d → Brings p 2 (.k d.toNat (BitVec.ofNat 64 set.length))) ∧
    (∀ c tgt, u = .bru c tgt → p.u.branch = if (match c with
        | .always => true
        | .nz x => K x != 0
        | .z x => K x == 0
        | .q x => tget false k.q x.toNat
        | .nq x => !tget false k.q x.toNat
        | .p w pa => (List.range (16384 / (8 * 2 ^ w.toNat))).any (fun j => (tget 0 k.p pa.toNat).getLsbD (8 * 2 ^ w.toNat * j / 8))
        | .np w pa => (List.range (16384 / (8 * 2 ^ w.toNat))).all (fun j => !(tget 0 k.p pa.toNat).getLsbD (8 * 2 ^ w.toNat * j / 8)))
      then some tgt.toNat else none) ∧
    (u = .kend → p.u.ends = true)) ∧
  (∀ (k : Kernel) (t : Task) (b : Bundle),
    (∀ c, b.u = some (.kflt c) → k.planBundle t b = .error { code := cKFLT, kcode := c.toNat }) ∧
    (∀ w pa tgt i j, b.u = some (.bru (.p w pa) tgt) ∨ b.u = some (.bru (.np w pa) tgt) → i < 16384 / (8 * 2 ^ w.toNat) →
      j < 16384 / (8 * 2 ^ w.toNat) → (tget 0 k.p pa.toNat).getLsbD (8 * 2 ^ w.toNat * i / 8) = true →
      (tget 0 k.p pa.toNat).getLsbD (8 * 2 ^ w.toNat * j / 8) = false → k.planBundle t b = .error { code := cNUBR, kcode := 0 })) ∧
  (∀ (s : State) (n : Nat) (t : Task) (k : Kernel) (b : Bundle) (p : BPlan), BundleReady s n t k b p →
    p.c0.moves = [] → p.c1.moves = [] → p.u.ends = false →
    (∀ tgt, p.u.branch = some tgt → p.u.loop = none → tgt < 8192 → ∃ u k', Becomes (.kernelBundle n) s n u ∧ u.kern = some k' ∧
      k'.pc = tgt ∧ k'.loops = k.loops.dropWhile (fun e => !(decide (e.start ≤ tgt) && decide (tgt ≤ e.last))) ∧ u.rings = t.rings) ∧
    (∀ lp, p.u.loop = some lp → p.u.branch = none →
      (∀ base, ((∃ c, c ≠ 0 ∧ lp.kind = .counted c ∧ base = 0) ∨ (∃ f c, c ≠ 0 ∧ lp.kind = .ptr f c ∧ base = f) ∨
          (∃ m, lp.kind = .eos m ∧ (t.ring m).eosAt 0 = false ∧ base = 0)) → k.loops.length < 8 → k.pc < 8191 →
        collides p.flying [] (k.phantoms p.u (p.u.turn t)) = false →
        ∃ u k', Becomes (.kernelBundle n) s n u ∧ u.kern = some k' ∧ k'.pc = k.pc + 1 ∧
          k'.loops = { start := k.pc + 1, last := lp.last, kind := lp.kind, iter := 0, kd := lp.kd } :: k.loops ∧
          (∀ d, lp.kd = some d → tget 0 k'.k d = BitVec.ofNat 64 base) ∧ u.rings = t.rings) ∧
      ((∀ e r, k.loops = e :: r → e.last ≠ lp.last) → lp.last < 8191 →
        (lp.kind = .counted 0 ∨ (∃ f, lp.kind = .ptr f 0) → ∃ u k', Becomes (.kernelBundle n) s n u ∧ u.kern = some k' ∧
          k'.pc = lp.last + 1 ∧ k'.loops = k.loops ∧ u.rings = t.rings) ∧
        (∀ m, lp.kind = .eos m → (t.ring m).eosAt 0 = true → ∃ u k', Becomes (.kernelBundle n) s n u ∧ u.kern = some k' ∧
          k'.pc = lp.last + 1 ∧ k'.loops = k.loops ∧ RingReleases (t.ring m) (u.ring m) ∧ OtherRings [m] t u))) ∧
    (∀ e r, p.u.loop = none → p.u.branch = none → k.loops = e :: r → e.last = k.pc →
      (∀ base, ((∃ c, e.kind = .counted c ∧ e.iter + 1 < c ∧ base = 0) ∨ (∃ f c, e.kind = .ptr f c ∧ e.iter + 1 < c ∧ base = f) ∨
          (∃ m, e.kind = .eos m ∧ (t.ring m).filled ≠ 0 ∧ (t.ring m).eosAt 0 = false ∧ base = 0)) → e.start < 8192 →
        ∃ u k', Becomes (.kernelBundle n) s n u ∧ u.kern = some k' ∧ k'.pc = e.start ∧ k'.loops = { e with iter := e.iter + 1 } :: r ∧
          (∀ d, e.kd = some d → tget 0 k'.k d = BitVec.ofNat 64 (base + (e.iter + 1))) ∧ u.rings = t.rings) ∧
      ((∀ x y, r = x :: y → x.last ≠ k.pc) → k.pc < 8191 →
        ((∃ c, c ≤ e.iter + 1 ∧ (e.kind = .counted c ∨ ∃ f, e.kind = .ptr f c)) → ∃ u k', Becomes (.kernelBundle n) s n u ∧
          u.kern = some k' ∧ k'.pc = k.pc + 1 ∧ k'.loops = r ∧ u.rings = t.rings) ∧
        (∀ m, e.kind = .eos m → (t.ring m).filled ≠ 0 → (t.ring m).eosAt 0 = true → ∃ u k', Becomes (.kernelBundle n) s n u ∧
          u.kern = some k' ∧ k'.pc = k.pc + 1 ∧ k'.loops = r ∧ RingReleases (t.ring m) (u.ring m) ∧ OtherRings [m] t u)) ∧
      (∀ m, e.kind = .eos m → (t.ring m).filled = 0 → ∃ u k', Becomes (.kernelBundle n) s n u ∧ u.kern = some k' ∧
        k'.loopWait = some k.pc ∧ k'.loops = k.loops ∧ u.rings = t.rings)))

/-- R246, R247: what a V slot with an integer operation brings its register, element by element of width 8, 16, 32 or 64 bits: sums,
products and their high halves, minima, maxima, logic, shifts, selections, moves, permutations, and the reduction of each cluster; VCMP
brings its predicate. R248, R249: floating operations bring the exact result rounded once in the format and by the round field (the statement
NumberFormatsRound says what rounding is, and what the reciprocals, the root, the exponential and the logarithm are), and INV where a NaN
comes of no NaN. R250: VCVT converts part PART. R251: VQBS brings the deltas and nibbles of two blocks of 48 numbers in each cluster. R252,
R253: VDQBS and VUNT expand i4o blocks and t5 bytes. R254: VPACK and VUNPK. R255: predicate logic and moves. R303: NCHILD, PPUSH, PTRD. R155, R244: elements
whose guard is 0 are not written. R158: a slot whose unit is occupied ends the kernel. Latencies are those of R245 and R303. -/
def Obligations.VectorSlotsCompute : Prop :=
  ∀ (k : Kernel) (t : Task) (b : Bundle) (p : BPlan) (i : VInstr) (V : BitVec 8 → Nat → Nat → Nat), k.planBundle t b = .ok p →
    b.v0 = some i ∨ b.v1 = some i → (∀ r w j, V r w j = elem (tget 0 k.v r.toNat).toNat w j) →
    (b.v0 = some i → k.occV0 = 0 ∨ i.op = .nop) ∧ (b.v1 = some i → k.occV1 = 0 ∨ i.op = .nop) ∧
    (∀ o f w L e, i.op = .int o f → w = 8 * 2 ^ f.toNat → e = 1024 / w →
      L = (if o = .vperm ∨ o = .vshf then 3 else if o = .vred then 5
        else if o = .vmul ∨ o = .vmulh ∨ o = .vmad then (if w = 64 then 6 else 4) else 2) →
      (o = .vcmp → ∀ c, condOf (i.vc.setWidth 4) = some c → PredicateBrings k p i L w (fun j v => v = true ↔
        condMeaning c (BitVec.ofInt 64 (signed w (V i.va w j))) (BitVec.ofInt 64 (signed w (V i.vb w j))))) ∧
      (o ≠ .vcmp → VectorBrings k p i L w (fun j x => match o with
        | .vadd => x = (V i.va w j + V i.vb w j) % 2 ^ w
        | .vsub => (x + V i.vb w j) % 2 ^ w = V i.va w j
        | .vmul => x = V i.va w j * V i.vb w j % 2 ^ w
        | .vmulh => if i.fn then x = V i.va w j * V i.vb w j / 2 ^ w
            else signed w x = signed w (V i.va w j) * signed w (V i.vb w j) / 2 ^ w
        | .vmad => x = (V i.va w j * V i.vb w j + V i.vc w j) % 2 ^ w
        | .vmin => if i.fn then x = min (V i.va w j) (V i.vb w j) else signed w x = min (signed w (V i.va w j)) (signed w (V i.vb w j))
        | .vmax => if i.fn then x = max (V i.va w j) (V i.vb w j) else signed w x = max (signed w (V i.va w j)) (signed w (V i.vb w j))
        | .vabs => x = (signed w (V i.va w j)).natAbs
        | .vand => x = V i.va w j &&& V i.vb w j
        | .vor => x = V i.va w j ||| V i.vb w j
        | .vxor => x = V i.va w j ^^^ V i.vb w j
        | .vshl => x = V i.va w j * 2 ^ (V i.vb w j % w) % 2 ^ w
        | .vshr => x = V i.va w j / 2 ^ (V i.vb w j % w)
        | .vsha => signed w x = signed w (V i.va w j) / 2 ^ (V i.vb w j % w)
        | .vcmp => True
        | .vsel => x = if (tget 0 k.p i.vc.toNat).getLsbD (w * j / 8) then V i.va w j else V i.vb w j
        | .vmov => (i.vb = 0 → x = V i.va w j) ∧ (i.vb = 1 → x = (tget 0 k.k (i.va.toNat % 32)).toNat % 2 ^ w) ∧
            (i.vb = 2 → signed w x = i.vc.toInt) ∧ (i.vb = 3 → x = i.vc.toNat) ∧ (i.vb = 4 → x = j % e) ∧ (i.vb = 5 → x = j / e)
        | .vperm => x = V i.va w (j / e * e + V i.vb w j % e)
        | .vshf => x = if j % e + i.vc.toNat < e then V i.va w (j + i.vc.toNat) else V i.vb w (j + i.vc.toNat - e)
        | .vred => if j % e ≠ 0 then x = 0 else
            (i.vc = 0 → x = ((List.range e).map (fun m => V i.va w (j + m))).sum % 2 ^ w) ∧
            (i.vc = 1 → (∃ m, m < e ∧ x = V i.va w (j + m)) ∧ ∀ m, m < e →
              if i.fn then x ≤ V i.va w (j + m) else signed w x ≤ signed w (V i.va w (j + m))) ∧
            (i.vc = 2 → (∃ m, m < e ∧ x = V i.va w (j + m)) ∧ ∀ m, m < e →
              if i.fn then V i.va w (j + m) ≤ x else signed w (V i.va w (j + m)) ≤ signed w x)))) ∧
    (∀ o f F R L (x y z : Nat → FVal), i.op = .flt o f → F = [fp64, fp32, bf16, fp16].getD f.toNat fp64 →
      R = [RMode.rne, .rtz, .rup, .rdn].getD i.rnd.toNat .rne → (∀ j, x j = F.val (V i.va F.w j)) → (∀ j, y j = F.val (V i.vb F.w j)) →
      (∀ j, z j = F.val (V i.vc F.w j)) →
      L = (if o = .vfcmp then 2 else if o = .vfrcp ∨ o = .vfrsq ∨ o = .vfexp2 ∨ o = .vflog2 then (if F.w = 64 then 24 else 12)
        else if F.w = 64 then 6 else 4) →
      (o = .vfcmp → PredicateBrings k p i L F.w (fun j v => v = true ↔
        (i.vc = 0 ∧ fvEq (x j) (y j)) ∨ (i.vc = 1 ∧ ¬fvEq (x j) (y j)) ∨ (i.vc = 2 ∧ fvLt (x j) (y j)) ∨
        (i.vc = 3 ∧ (fvLt (x j) (y j) ∨ fvEq (x j) (y j))) ∨ (i.vc = 4 ∧ fvLt (y j) (x j)) ∨
        (i.vc = 5 ∧ (fvLt (y j) (x j) ∨ fvEq (x j) (y j))) ∨ (i.vc = 6 ∧ ((x j).isNan ∨ (y j).isNan)) ∨
        (7 ≤ i.vc.toNat ∧ ¬(x j).isNan ∧ ¬(y j).isNan))) ∧
      (o ≠ .vfcmp → VectorBrings k p i L F.w (fun j v => match o with
        | .vfadd => v = F.rnd R (fvAdd R (x j) (y j)) ∧ ((F.val v).isNan → ¬(x j).isNan → ¬(y j).isNan → p.flags.inv = true)
        | .vfsub => v = F.rnd R (fvAdd R (x j) (fvNeg (y j))) ∧ ((F.val v).isNan → ¬(x j).isNan → ¬(y j).isNan → p.flags.inv = true)
        | .vfmul => v = F.rnd R (fvMul (x j) (y j)) ∧ ((F.val v).isNan → ¬(x j).isNan → ¬(y j).isNan → p.flags.inv = true)
        | .vfma => v = F.rnd R (fvAdd R (fvMul (x j) (y j)) (z j)) ∧
            ((F.val v).isNan → ¬(x j).isNan → ¬(y j).isNan → ¬(z j).isNan → p.flags.inv = true)
        | .vfmin => v = F.fmin (V i.va F.w j) (V i.vb F.w j)
        | .vfmax => v = F.fmax (V i.va F.w j) (V i.vb F.w j)
        | .vfcmp => True
        | .vfsgn => v % 2 ^ (F.w - 1) = V i.va F.w j % 2 ^ (F.w - 1) ∧ (i.vc = 0 → v.testBit (F.w - 1) = (V i.vb F.w j).testBit (F.w - 1)) ∧
            (i.vc = 1 → v.testBit (F.w - 1) = !(V i.vb F.w j).testBit (F.w - 1)) ∧
            (i.vc = 2 → v.testBit (F.w - 1) = ((V i.va F.w j).testBit (F.w - 1) != (V i.vb F.w j).testBit (F.w - 1)))
        | .vfrcp => v = F.rnd R (fvRcp (x j))
        | .vfrsq => v = F.rnd R (fvRsq (x j))
        | .vfexp2 => v = F.exp2 R (x j)
        | .vflog2 => v = F.log2 R (x j)
        | .vfclp => v = F.fmin (F.fmax (V i.va F.w j) (V i.vb F.w j)) (V i.vc F.w j)))) ∧
    (∀ src dst ws wd es ed part, i.op = .vcvt → src = i.vc.toNat / 16 → dst = i.vc.toNat % 16 → src ≤ 13 → dst ≤ 13 →
      ws = fmtWidth src → wd = fmtWidth dst → es = 1024 / ws → ed = 1024 / wd → part = i.vb.toNat → part < max ws wd / min ws wd →
      (ws < wd → VectorBrings k p i 3 wd (fun j x => x = (cvtElem src dst (rmodeOf i.rnd) (V i.va ws (j / ed * es + part * ed + j % ed))).1)) ∧
      (wd ≤ ws → ∃ val mask, Brings p 3 (.v i.vd.toNat val mask) ∧ ∀ j, j < 16384 / wd →
        (Enabled k i wd j → part * es ≤ j % ed → j % ed < (part + 1) * es → elem mask.toNat wd j = 2 ^ wd - 1 ∧
          elem val.toNat wd j = (cvtElem src dst (rmodeOf i.rnd) (V i.va ws (j / ed * es + (j % ed - part * es)))).1) ∧
        (¬Enabled k i wd j ∨ j % ed < part * es ∨ (part + 1) * es ≤ j % ed → elem mask.toNat wd j = 0))) ∧
    (i.op = .vqbs → ∃ val, Brings p 8 (.v i.vd.toNat val (BitVec.allOnes 16384)) ∧ ∀ c, c < 16 →
      (∀ n, 98 ≤ n → n < 256 → elem val.toNat 4 (256 * c + n) = 0) ∧
      ∀ (bl B D amax : Nat) (src : Nat → Nat) (x : Nat → Int), bl < 2 → B = (tget 0 k.k (i.vb.toNat % 32)).toNat % 256 →
        D = elem val.toNat 4 (256 * c + 96 + bl) →
        (∀ j, src j = V (i.va + BitVec.ofNat 8 ((48 * bl + j) / 32)) 32 (32 * c + (48 * bl + j) % 32)) → (∀ j, QuantTakes (src j) (x j)) →
        (∀ j, j < 48 → (x j).natAbs ≤ amax) → (∃ j, j < 48 ∧ (x j).natAbs = amax) →
        (amax = 0 → D = 15 ∧ ∀ n, n < 48 → elem val.toNat 4 (256 * c + 48 * bl + n) = 0) ∧
        (amax ≠ 0 → D ≤ 14 ∧ (D ≠ 0 → amax ≤ 96 * 2 ^ (22 + B - D)) ∧ (∀ d, D < d → d ≤ 14 → 96 * 2 ^ (22 + B - d) < amax) ∧
          ∀ m, m < 24 → PairQuantised (2 ^ (22 + B - D)) (x (2 * m)) (x (2 * m + 1)) (elem val.toNat 4 (256 * c + 48 * bl + 2 * m))
            (elem val.toNat 4 (256 * c + 48 * bl + 2 * m + 1))) ∧
        ((∃ j, j < 48 ∧ ((fp32.val (src j)).isNan = true ∨ ∃ s, fp32.val (src j) = .inf s)) → p.flags.sat = true)) ∧
    (i.op = .vdqbs → ∀ q, q < 3 → ∃ val, Brings p 4 (.v (i.vd.toNat + q) val (BitVec.allOnes 16384)) ∧ ∀ c m D B, c < 16 → m < 32 →
      B = (tget 0 k.k (i.vb.toNat % 32)).toNat % 256 → D = V i.va 4 (256 * c + 96 + (32 * q + m) / 48) →
      elem val.toNat 32 (32 * c + m) = if D = 15 then 0 else dequant (rmodeOf i.rnd) B D
        (let pr := decodePair (V i.va 4 (256 * c + (32 * q + m) / 2 * 2)) (V i.va 4 (256 * c + (32 * q + m) / 2 * 2 + 1))
         if m % 2 = 0 then pr.1 else pr.2.1)) ∧
    (i.op = .vunt → VectorBrings k p i 3 8 (fun j x => x = if j % 128 < 125 then
      t5Elem (V i.va 8 (128 * (j / 128) + 25 * i.vb.toNat + j % 128 / 5)) (j % 128 % 5) else 0)) ∧
    (∀ w e, i.op = .vpack → w = 8 * 2 ^ (i.vc.toNat % 4) → e = 1024 / w → 2 ≤ w / 2 → ∃ val mask, Brings p 2 (.v i.vd.toNat val mask) ∧
      ∀ j x, j < 16384 / (w / 2) → x = (if j % (2 * e) < e then V i.va w (j / (2 * e) * e + j % (2 * e))
          else V i.vb w (j / (2 * e) * e + (j % (2 * e) - e))) →
        (i.pge = false ∨ (tget 0 k.p i.pg.toNat).getLsbD (w / 2 * j / 8) = true →
          elem mask.toNat (w / 2) j = 2 ^ (w / 2) - 1 ∧ elem val.toNat (w / 2) j = (packElem (i.vc.toNat / 4 % 4) w x).1)) ∧
    (∀ w e, i.op = .vunpk → i.vc.toNat % 4 ≠ 0 → w = 4 * 2 ^ (i.vc.toNat % 4) → e = 1024 / w → VectorBrings k p i 2 (2 * w) (fun j x =>
      ∀ y, y = V i.va w (j / (e / 2) * e + i.vb.toNat * (e / 2) + j % (e / 2)) →
        if i.vc.getLsbD 2 then signed (2 * w) x = signed w y else x = y)) ∧
    (i.op = .vunpk → i.vc.toNat % 4 = 0 → VectorBrings k p i 2 8 (fun j x => ∀ n, n = j / 128 * 256 + i.vb.toNat * 128 + j % 128 →
      (let pr := decodePair (V i.va 4 (n / 2 * 2)) (V i.va 4 (n / 2 * 2 + 1)); signed 8 x = if n % 2 = 0 then pr.1 else pr.2.1))) ∧
    (∀ a c, i.op = .plog → a = tget 0 k.p i.va.toNat → c = tget 0 k.p i.vb.toNat → ∃ val, Brings p 1 (.p i.vd.toNat val (BitVec.allOnes 2048)) ∧
      ∀ m, m < 2048 → (i.vc = 0 → val.getLsbD m = (a.getLsbD m && c.getLsbD m)) ∧ (i.vc = 1 → val.getLsbD m = (a.getLsbD m || c.getLsbD m)) ∧
        (i.vc = 2 → val.getLsbD m = (a.getLsbD m != c.getLsbD m)) ∧ (i.vc = 3 → val.getLsbD m = (a.getLsbD m && !c.getLsbD m)) ∧
        (i.vc = 4 → val.getLsbD m = !(a.getLsbD m || c.getLsbD m)) ∧ (i.vc = 5 → val.getLsbD m = !a.getLsbD m)) ∧
    (i.op = .pmov → (i.vc.toNat % 8 = 0 → Brings p 1 (.p i.vd.toNat (tget 0 k.p i.va.toNat) (BitVec.allOnes 2048))) ∧
      (i.vc.toNat % 8 = 1 → Brings p 1 (.p i.vd.toNat (BitVec.allOnes 2048) (BitVec.allOnes 2048))) ∧
      (i.vc.toNat % 8 = 2 → Brings p 1 (.p i.vd.toNat 0 (BitVec.allOnes 2048))) ∧
      (i.vc.toNat % 8 = 3 → ∃ val, Brings p 1 (.p i.vd.toNat val (BitVec.allOnes 2048)) ∧
        ∀ m, m < 2048 → val.getLsbD m = decide (V i.va 8 m % 2 = 1)) ∧
      (i.vc.toNat % 8 = 4 → ∃ val, Brings p 1 (.v i.vd.toNat val (BitVec.allOnes 16384)) ∧
        ∀ m, m < 2048 → elem val.toNat 8 m = if (tget 0 k.p i.va.toNat).getLsbD m then 1 else 0) ∧
      (∀ w, i.vc.toNat % 8 = 5 → w = 8 * 2 ^ (i.vc.toNat / 8 % 4) → ∃ val, Brings p 1 (.p i.vd.toNat val (BitVec.allOnes 2048)) ∧
        ∀ j m, j < 16384 / w → w * j / 8 ≤ m → m < w * (j + 1) / 8 →
          val.getLsbD m = decide (j % (1024 / w) < (tget 0 k.k (i.vb.toNat % 32)).toNat))) ∧
    (∀ bit : Nat → Bool, (∀ j, bit j = if i.fn then signBit (V i.vb 32 j) else (tget 0 k.p i.vb.toNat).getLsbD (32 * j / 8)) →
      (i.op = .nchild → VectorBrings k p i 2 32 (fun j x => x = (2 * V i.va 32 j + (if bit j then 2 else 1)) % 2 ^ 32)) ∧
      (∀ n, i.op = .ppush → n = (tget 0 k.k (i.va.toNat % 32)).toNat % 32 → ∃ val mask, Brings p 2 (.d i.vd.toNat val mask) ∧
        ∀ j, j < 512 → (Enabled k i 32 j → elem mask.toNat 32 j = 2 ^ n ∧ (elem val.toNat 32 j).testBit n = bit j) ∧
          (¬Enabled k i 32 j → elem mask.toNat 32 j = 0))) ∧
    (∀ n (d : Nat → Nat), i.op = .ptrd → n = (tget 0 k.k (i.vb.toNat % 32)).toNat % 32 → (∀ j, d j = elem (tget 0 t.dregs i.va.toNat).toNat 32 j) →
      VectorBrings k p i 2 32 (fun j x => (i.vc = 0 → x = d j) ∧ (i.vc = 1 → x = if (d j).testBit n then 1 else 0) ∧
        (i.vc = 2 → x = (List.range n).foldl (fun a m => (2 * a + (if (d j).testBit m then 2 else 1)) % 2 ^ 32) 0)))

/-- R257, R258: MMA brings each cluster's 16 × 16 accumulators the old value plus the sum of products of row i of A and row j of B: in i8
exactly, modulo 2^32; in the formats narrower than fp64 the tree of R64 rounded to fp32 at each node and then added once; in fp64 one
product added. R259: MMAS adds the two blocks of 48 in turn, each scaled by its deltas and exponents. R260: MZERO, and the moves between an
accumulator and one vector register or eight. Latencies are those of R256. R158: an occupied unit ends the kernel. -/
def Obligations.MatrixSlotsCompute : Prop :=
  ∀ (k : Kernel) (t : Task) (b : Bundle) (p : BPlan) (o : MOp) (V : Nat → Nat → Nat → Nat → Nat) (M : Nat → Nat → Nat → Nat → Nat),
    k.planBundle t b = .ok p → b.m = some o → (∀ r c w j, V r c w j = elem (elem (tget 0 k.v r).toNat 1024 c) w j) →
    (∀ r c w j, M r c w j = elem (elem (tget 0 k.m r).toNat 8192 c) w j) →
    (k.occM = 0 ∨ o = .nop) ∧
    (∀ md va vb, o = .mma .i8 md va vb → ∃ val, Brings p 8 (.m md.toNat val (BitVec.allOnes 131072)) ∧
      ∀ c e, c < 16 → e < 256 → elem (elem val.toNat 8192 c) 32 e = wrap 32 ((M md.toNat c 32 e : Int) +
        ((List.range 64).map (fun x => signed 8 (V (va.toNat + (e / 16 * 64 + x) / 128) c 8 ((e / 16 * 64 + x) % 128)) *
          signed 8 (V (vb.toNat + (e % 16 * 64 + x) / 128) c 8 ((e % 16 * 64 + x) % 128)))).sum)) ∧
    (∀ f md va vb F K depth n, o = .mma f md va vb →
      (f, F, K, depth) ∈ [(MmaFmt.fp32, fp32, 8, 3), (.bf16, bf16, 32, 5), (.fp16, fp16, 32, 5), (.e4m3, e4m3, 64, 6), (.e5m2, e5m2, 64, 6)] →
      n = 1024 / F.w → ∃ val, Brings p 8 (.m md.toNat val (BitVec.allOnes 131072)) ∧
      ∀ c e, c < 16 → e < 256 → elem (elem val.toNat 8192 c) 32 e = fp32.rnd .rne (fvAdd .rne (fp32.val (M md.toNat c 32 e))
        (treeSum depth (products
          ((List.range K).map (fun x => F.val (V (va.toNat + (e / 16 * K + x) / n) c F.w ((e / 16 * K + x) % n))))
          ((List.range K).map (fun x => F.val (V (vb.toNat + (e % 16 * K + x) / n) c F.w ((e % 16 * K + x) % n))))).1).1)) ∧
    (∀ md va vb, o = .mma .fp64 md va vb → ∀ h, h < 2 → ∃ val, Brings p 8 (.m (md.toNat + h) val (BitVec.allOnes 131072)) ∧
      ∀ c e, c < 16 → e < 128 → elem (elem val.toNat 8192 c) 64 e = fp64.rnd .rne (fvAdd .rne (fp64.val (M (md.toNat + h) c 64 e))
        (fvMul (fp64.val (V va.toNat c 64 ((128 * h + e) / 16))) (fp64.val (V vb.toNat c 64 (e % 16)))))) ∧
    (∀ md va vb ka kb vc, o = .mmas md va vb ka kb vc → ∃ val, Brings p 6 (.m md.toNat val (BitVec.allOnes 131072)) ∧
      ∀ c e (A B : Nat → Int × Int × Bool) (q : Nat → FVal), c < 16 → e < 256 →
        (∀ x, A x = decodePair (V (va.toNat + (e / 16 * 96 + 2 * x) / 256) c 4 ((e / 16 * 96 + 2 * x) % 256))
          (V (va.toNat + (e / 16 * 96 + 2 * x) / 256) c 4 ((e / 16 * 96 + 2 * x) % 256 + 1))) →
        (∀ x, B x = decodePair (V (vb.toNat + (e % 16 * 96 + 2 * x) / 256) c 4 ((e % 16 * 96 + 2 * x) % 256))
          (V (vb.toNat + (e % 16 * 96 + 2 * x) / 256) c 4 ((e % 16 * 96 + 2 * x) % 256 + 1))) →
        (∀ bl, q bl = mmasBlock ((tget 0 k.k ka.toNat).toNat % 256) ((tget 0 k.k kb.toNat).toNat % 256)
          (V vc.toNat c 4 (2 * (e / 16) + bl)) (V vc.toNat c 4 (2 * (16 + e % 16) + bl))
          ((List.range 24).flatMap (fun x => [(A (24 * bl + x)).1, (A (24 * bl + x)).2.1]))
          ((List.range 24).flatMap (fun x => [(B (24 * bl + x)).1, (B (24 * bl + x)).2.1]))) →
        elem (elem val.toNat 8192 c) 32 e = fp32.rnd .rne (fvAdd .rne
          (fp32.val (fp32.rnd .rne (fvAdd .rne (fp32.val (M md.toNat c 32 e)) (q 0)))) (q 1))) ∧
    (∀ ba bb da db (qa qb : List Int) (sum : Int), sum = ((qa.zip qb).map (fun x => x.1 * x.2)).sum →
      mmasBlock ba bb da db qa qb = if da = 15 ∨ db = 15 ∨ sum = 0 then .zero false
        else fp32.val (fp32.rnd .rne (.fin (decide (sum < 0)) sum.natAbs ((ba : Int) + bb - 254 - da - db)))) ∧
    (∀ md, o = .mzero md → Brings p 1 (.m md.toNat 0 (BitVec.allOnes 131072))) ∧
    (∀ md va q, o = .mldv true md va q → ∃ val, Brings p 8 (.m md.toNat val (BitVec.allOnes 131072)) ∧
      ∀ c n, c < 16 → n < 8 → elem (elem val.toNat 8192 c) 1024 n = V (va.toNat + n) c 1024 0) ∧
    (∀ md va q, o = .mldv false md va q → ∃ val mask, Brings p 2 (.m md.toNat val mask) ∧
      ∀ c n, c < 16 → n < 8 → elem (elem mask.toNat 8192 c) 1024 n = (if n = q.toNat then 2 ^ 1024 - 1 else 0) ∧
        (n = q.toNat → elem (elem val.toNat 8192 c) 1024 n = V va.toNat c 1024 0)) ∧
    (∀ va md q, (o = .mstv true va md q → ∀ n, n < 8 → ClustersBring p 8 (va.toNat + n) (fun c x => x = M md.toNat c 1024 n)) ∧
      (o = .mstv false va md q → ClustersBring p 2 va.toNat (fun c x => x = M md.toNat c 1024 q.toNat)))

/-- R264, R265, R266: RDR brings a vector register the lines that its port names, cluster by cluster, zero for a cluster without a record,
with latency 3; RWR writes those lines from one; a ring port waits for its slots. R267, R268: RADV releases or publishes slots of a ring,
or moves the cursor of a stream; REOS publishes an empty slot that ends the stream; with RADV beyond the slots whose waits were satisfied,
and any beyond the slots there are, the kernel ends with RINGOVF. R270, R271: XSW and XBC exchange clusters. R272: BLD and BST move a
bench line. R273: SRFL and SRFS move 16 lines of the SRF. R263: a slot whose port, ring or lines its rules do not admit ends the kernel:
no plan exists. -/
def Obligations.PortSlotsMoveData : Prop :=
  (∀ (k : Kernel) (t : Task) (b : Bundle) (p : BPlan) (c : COp) (cp : CPlan) (line : Option (BitVec 5) → BitVec 3 → Nat),
    k.planBundle t b = .ok p → (b.c0 = some c ∧ cp = p.c0) ∨ (b.c1 = some c ∧ cp = p.c1) →
    (∀ kx l, line kx l = l.toNat + ((kx.map (fun x => (tget 0 k.k x.toNat).toNat)).getD 0)) →
    (∀ vd pt kx l, c = .rdr vd pt kx l → ClustersBring p 3 vd.toNat (fun n x =>
        x = ((PortLine k t pt false (line kx l) n).map (fun m => (tget 0 t.srf m).toNat)).getD 0) ∧
      (∀ n w, pt = .ring n w → cp.waits = [{ ring := n.toNat, prod := false, count := w.toNat + 1 }] ∧ k.cons.getLsbD n.toNat = true ∧
        (t.ring n.toNat).cfg = true ∧ w.toNat < (t.ring n.toNat).nslot ∧ 16 * line kx l < (t.ring n.toNat).slotsz) ∧
      (∀ st f, pt = .stream st f → cp.waits = [] ∧ (k.bind st.toNat).kind.getLsbD 0 = true ∧ line kx l < (k.bind st.toNat).size ∧
        16 * ((tget 0 k.g st.toNat).toNat + f.toNat) < (k.bind st.toNat).count)) ∧
    (∀ va pt kx l, c = .rwr va pt kx l → (∀ m v, (m, v) ∈ cp.srf ↔ ∃ n, n < 16 ∧ PortLine k t pt true (line kx l) n = some m ∧
        v = BitVec.ofNat 1024 (elem (tget 0 k.v va.toNat).toNat 1024 n)) ∧
      (∀ n w, pt = .ring n w → cp.waits = [{ ring := n.toNat, prod := true, count := w.toNat + 1 }] ∧ k.prod.getLsbD n.toNat = true ∧
        (t.ring n.toNat).cfg = true ∧ w.toNat < (t.ring n.toNat).nslot ∧ 16 * line kx l < (t.ring n.toNat).slotsz) ∧
      (∀ st f, pt = .stream st f → cp.waits = [] ∧ (k.bind st.toNat).kind.getLsbD 1 = true ∧ line kx l < (k.bind st.toNat).size ∧
        16 * ((tget 0 k.g st.toNat).toNat + f.toNat) < (k.bind st.toNat).count)) ∧
    (∀ kx a cnt, cnt = (match kx with | some x => (tget 0 k.k x.toNat).toNat | none => a.toNat) →
      (∀ n, c = .radv (.ring n) kx a → (k.cons.getLsbD n.toNat = true ∨ k.prod.getLsbD n.toNat = true) ∧ (t.ring n.toNat).cfg = true ∧
        cp.moves = [{ ring := n.toNat, publish := !k.cons.getLsbD n.toNat, count := cnt, eos := false, checked := true }]) ∧
      (∀ st, c = .radv (.stream st) kx a → cp.cursor = some (st.toNat, cnt) ∧ cp.moves = [])) ∧
    (∀ n, c = .reos n → k.prod.getLsbD n.toNat = true ∧ (t.ring n.toNat).cfg = true ∧
      cp.waits = [{ ring := n.toNat, prod := true, count := 1 }] ∧
      cp.moves = [{ ring := n.toNat, publish := true, count := 1, eos := true, checked := false }]) ∧
    (∀ vr md, c = .xsw vr md → ClustersBring p 3 vr.toNat (fun n x => x = elem (tget 0 k.v vr.toNat).toNat 1024 (match md with
      | .rot m => (n + m.toNat) % 16
      | .xor m => n ^^^ m.toNat
      | .map kx => (tget 0 k.k kx.toNat).toNat / 16 ^ n % 16))) ∧
    (∀ vr src, c = .xbc vr src → ClustersBring p 3 vr.toNat (fun _ x => x = elem (tget 0 k.v vr.toNat).toNat 1024 (match src with
      | .inl m => m.toNat
      | .inr kx => (tget 0 k.k kx.toNat).toNat % 16))) ∧
    (∀ v l, (c = .bld v l → Brings p 1 (.v v.toNat (tget 0 k.bench l.toNat) (BitVec.allOnes 16384))) ∧
      (c = .bst v l → cp.bench = [(l.toNat, tget 0 k.v v.toNat)])) ∧
    (∀ v kx n o, o = (tget 0 k.k kx.toNat).toNat + 128 * n.toNat →
      (c = .srfl v kx n → o % 128 = 0 ∧ o + 2048 ≤ t.foot * 2 ^ 18 ∧
        ClustersBring p 3 v.toNat (fun m x => x = (tget 0 t.srf (o / 128 + m)).toNat)) ∧
      (c = .srfs v kx n → o % 128 = 0 ∧ o + 2048 ≤ t.foot * 2 ^ 18 ∧ ∀ l x, (l, x) ∈ cp.srf ↔ ∃ m, m < 16 ∧ l = o / 128 + m ∧
        x = BitVec.ofNat 1024 (elem (tget 0 k.v v.toNat).toNat 1024 m)))) ∧
  (∀ (s : State) (n : Nat) (t : Task) (k : Kernel) (b : Bundle) (p : BPlan) (seen : Nat → Nat) (o : Option ((Nat → Ring) × (Nat → Nat))),
    BundleReady s n t k b p → p.u.loop = none →
    (∀ m, seen m = ((p.c0.waits ++ p.c1.waits).filter (fun w => w.ring = m)).foldl (fun a w => max a w.count) (tget 0 k.seen m)) →
    o = ringsAfter (p.c0.moves ++ p.c1.moves) t.ring seen →
    (o = none → ∃ u, Becomes (.kernelBundle n) s n u ∧ StreamCompleted { t with kern := none } u k.tag cRINGOVF k.count ∧ u.srf = t.srf ∧
      u.rings = t.rings) ∧
    (∀ r, o = some r → p.u.ends = false → p.u.branch = none → (∀ e l, k.loops = e :: l → e.last ≠ k.pc) → k.pc < 8191 →
      ∃ u k', Becomes (.kernelBundle n) s n u ∧ u.kern = some k' ∧ k'.pc = k.pc + 1 ∧ ∀ m, u.ring m = r.1 m ∧ tget 0 k'.seen m = r.2 m))

/-! ## What moves, and where to -/

/-- R74: where a line of a record of a stream stands. R89, R90: the address of an element's unit, and which elements lie outside the tensor. R216,
R217: the extents of a window, the coordinates of its units in order, and how they fill records, one row to a record or without gaps. R221:
the rows of SGA and SSC. R90, R100, R105: a record is read unit by unit in order, the fill value standing for a unit outside; a byte of a
unit is memory's at its physical address, one with a remote home as the home sent it (R385); an uncorrectable unit is DATAERR (R323).
R98: stores translate in element order, one for each unit inside. R127: pod stores are cut into the longest runs of consecutive bytes of one 256-byte
block, in element order. The delta streams of i4o are not in this statement. -/
def Obligations.ElementsAndTheirPlaces : Prop :=
  (∀ (st : Stream) (r j r' j' : Nat), st.at r j = st.off + 2048 * (st.s * (r / 16) + j) + 128 * (r % 16) ∧
    (j < st.s → j' < st.s → st.at r j = st.at r' j' → r = r' ∧ j = j')) ∧
  (∀ (d : Desc) (c : List Int) (per ub : Nat), per = (if d.fmt = 14 then 2 else if d.fmt = 15 then 5 else 1) →
    ub = [8, 4, 2, 2, 1, 1, 1, 1, 2, 2, 4, 4, 8, 8, 1, 1].getD d.fmt 1 →
    (d.addr c : Int) = ((d.base : Int) + ((List.range 6).map (fun k => d.stride (k + 1) * c.getD (k + 1) 0)).sum +
      c.getD 0 0 / per * ub) % 2 ^ 64 ∧
    (d.inside c = true ↔ ∀ k, k < 7 → k < d.ndim → 0 ≤ c.getD k 0 ∧ c.getD k 0 < d.size k) ∧
    fmtUnitBytes d.fmt = ub ∧ fmtOutside d.fmt = (if d.fmt = 15 then [121] else List.replicate ub 0)) ∧
  (∀ a b : Word, extents a b = [wordBits a 23 0, wordBits a 47 24, wordBits a 63 48, wordBits b 15 0, wordBits b 31 16,
    wordBits b 47 32, wordBits b 63 48].map (fun x => if x = 0 then 1 else x)) ∧
  (∀ (d : Desc) (ext : List Nat) (n per : Nat) (e g : Nat → Nat), ext.length = 7 → per = (if d.fmt = 14 then 2 else if d.fmt = 15 then 5 else 1) →
    (∀ k, e k = if k = 0 then (ext.getD 0 1 + per - 1) / per else ext.getD k 1) → (∀ k, k < 7 → g k < e k) →
    n = g 0 + e 0 * (g 1 + e 1 * (g 2 + e 2 * (g 3 + e 3 * (g 4 + e 4 * (g 5 + e 5 * g 6))))) →
    ∀ k, k < 7 → (d.coords ext n).getD k 0 = if k < d.ndim then d.org k + ((if k = 0 then g 0 * per else g k : Nat) : Int) else 0) ∧
  (∀ (q : QInstr) (g : Geo) (srf : Tbl Line) (r row rows ub : Nat) (ext : List Nat) (unit : Nat → Option Nat), q.geo = some g → g.rows = false →
    ext = extents (q.ops.getD 0 0) (q.ops.getD 1 0) → row = (ext.getD 0 1 + fmtPerUnit q.desc.fmt - 1) / fmtPerUnit q.desc.fmt →
    rows = (ext.drop 1).foldl (· * ·) 1 → ub = fmtUnitBytes q.desc.fmt →
    (∀ n, unit n = if q.desc.inside (q.desc.coords ext n) then some (q.desc.addr (q.desc.coords ext n)) else none) →
    (g.pad = true → g.st.n = rows ∧ q.recUnits g srf r = (List.range row).map (fun i => unit (r * row + i))) ∧
    (g.pad = false → g.st.n = (row * rows * ub + 128 * g.st.s - 1) / (128 * g.st.s) ∧ q.recUnits g srf r =
      (List.range (min (128 * g.st.s / ub) (row * rows - r * (128 * g.st.s / ub)))).map (fun i => unit (r * (128 * g.st.s / ub) + i)))) ∧
  (∀ (q : QInstr) (g : Geo) (srf : Tbl Line) (r idx : Nat), q.geo = some g → g.rows = true →
    idx = leNat ((List.range 4).map (fun i => srfByte srf ((q.ops.getD 0 0).toNat + 4 * r + i))) →
    g.st.n = (q.ops.getD 1 0).toNat ∧ q.recUnits g srf r = (List.range (128 * g.st.s / fmtUnitBytes q.desc.fmt)).map (fun i =>
      let c := (List.range 7).map (fun k => if q.desc.ndim ≤ k then 0 else if k = 0 then q.desc.org 0 + ((i * fmtPerUnit q.desc.fmt : Nat) : Int)
        else if k = 1 then (idx : Int) else q.desc.org k)
      if q.desc.inside c then some (q.desc.addr c) else none)) ∧
  (∀ (q : QInstr) (g : Geo) (srf : Tbl Line) (r : Nat) (rec : List Byte) (ub : Nat), ub = fmtUnitBytes q.desc.fmt →
    (g.rows || !q.desc.hasDelta) = true → q.items g srf r rec = (List.range (q.recUnits g srf r).length).filterMap (fun i =>
      ((q.recUnits g srf r).getD i none).map (fun va => { va := va, data := (rec.drop (i * ub)).take ub, mask := 0xFF }))) ∧
  (∀ (s s1 : State) (c : XCtx) (w : Who) (sp : Space) (got : Tbl Byte) (va n : Nat) (m : List Nat) (pas : List Nat),
    s.xlate c { space := sp, r := true, w := false, x := false } va n = (s1, .ok (m, pas)) →
    (sp ≠ .host → (∀ a ∈ pas, a / 2 ^ 40 = s.rank → s1.badUnit (a % 2 ^ 40 / 64) = false) → ∃ s2, s2.mem = s1.mem ∧
      s.readAt c w sp got va n = (s2, .ok (pas.map (fun a => if a / 2 ^ 40 = s.rank then rdByte s1.mem (a % 2 ^ 40) else tget 0 got a)))) ∧
    (sp = .host → (∀ a ∈ pas, a / 64 ∉ s1.host.poison) → s.readAt c w sp got va n = (s1, .ok (pas.map (rdByte s1.hmem)))) ∧
    ((sp ≠ .host ∧ ∃ a ∈ pas, a / 2 ^ 40 = s.rank ∧ s1.badUnit (a % 2 ^ 40 / 64) = true) ∨ (sp = .host ∧ ∃ a ∈ pas, a / 64 ∈ s1.host.poison) →
      ∃ f, (s.readAt c w sp got va n).2 = .error (.trap f) ∧ f.code.toNat = cDATAERR)) ∧
  (∀ (c : XCtx) (w : Who) (sp : Space) (got : Tbl Byte) (ub : Nat) (fill : List Byte) (us : List (Option Nat)) (s : Nat → State)
     (b : Nat → List Byte), (∀ i, i < us.length → (us.getD i none = none → s (i + 1) = s i ∧ b i = fill) ∧
      ∀ va, us.getD i none = some va → (s i).readAt c w sp got va ub = (s (i + 1), .ok (b i))) →
    State.readUnits c w sp got ub fill us (s 0) = (s us.length, .ok ((List.range us.length).flatMap b))) ∧
  (∀ (s s1 : State) (t : Task) (q : QInstr) (g : Geo) (r : Nat) (bs : List Byte), (g.rows || !q.desc.hasDelta) = true →
    State.readUnits (t.qctx q) (t.who q) q.desc.space q.got (fmtUnitBytes q.desc.fmt) (fmtOutside q.desc.fmt) (q.recUnits g t.srf r) s =
      (s1, .ok bs) →
    s.loadRecord t q g r = (s1, .ok (bs ++ List.replicate (g.recBytes - bs.length) 0, []))) ∧
  (∀ (c : XCtx) (sp : Space) (its : List Item) (s : Nat → State) (pte pa : Nat → List Nat), (∀ i x, its[i]? = some x →
      (s i).xlate c { space := sp, r := false, w := true, x := false } x.va x.data.length = (s (i + 1), .ok (pte i, pa i))) →
    State.gather c sp its (s 0) = (s its.length, (its.zip (List.range its.length)).flatMap (fun y =>
      ((pa y.2).zip y.1.data).map (fun z => (z.1, y.1.mask, z.2))), none)) ∧
  (∀ bs : List (Nat × Nat × Byte), (recRuns bs).flatten = bs ∧
    (∀ run ∈ recRuns bs, run ≠ [] ∧ ∀ i x y, run[i]? = some x → run[i + 1]? = some y → y.2.1 = x.2.1 + 1 ∧ y.2.1 / 256 = x.2.1 / 256) ∧
    ∀ i a b x y, (recRuns bs)[i]? = some a → (recRuns bs)[i + 1]? = some b → a.getLast? = some x → b.head? = some y →
      ¬(y.2.1 = x.2.1 + 1 ∧ y.2.1 / 256 = x.2.1 / 256))

/-- R217, R218, R221: an SLD or SGA whose load entry has begun and whose remote bytes have come completes: record by record from its resume
point the lines of its stream, and of the delta stream beside it, hold what the record holds; every other SRF byte is as before; COUNT is the
number of records. R218, R222: an SST or SSC at its turn writes its elements' bytes in order, the last remaining, to package memory, or to host
memory where it completes once the host has acknowledged it; an SSC with a reduction leaves at each element what RED leaves. R127, R128, R131:
a pod SST or SSC makes its records, of the generation of R134, in order. R369: what the controllers cannot take waits. R219, R220: an SLD to
a ring fills one free slot, and with E an empty one last; an SST from a ring stores one slot, ends at the slot that ends the stream, and
holds a BOUNDS fault for a slot too many. -/
def Obligations.StreamsMoveTheirBytes : Prop :=
  (∀ (s : State) (k tag : Nat) (t : Task) (q : QInstr) (g : Geo) (st : Nat → State) (x : Nat → List Byte × List Byte),
    StreamAt s k tag t q → q.geo = some g → g.ring = none → g.load = true → q.resume ≤ g.st.n →
    (t.loadBegun tag = false → exec (.streamComplete k tag) s = .next s) ∧
    (t.loadBegun tag = true → State.missingRecords t q g (q.restRecs g) s = (st q.resume, .ok []) →
      (∀ r, q.resume ≤ r → r < g.st.n → (st r).loadRecord t q g r = (st (r + 1), .ok (x r))) →
      ∃ s' u, exec (.streamComplete k tag) s = .next s' ∧ OnlyTask (st g.st.n) s' k u ∧ StreamCompleted t u tag 0 g.st.n ∧ OthersStay t u ∧
        (∀ r j i, q.resume ≤ r → r < g.st.n → j < g.st.s → i < 128 → 128 * j + i < (x r).1.length →
          srfByte u.srf (g.st.at r j + i) = (x r).1.getD (128 * j + i) 0) ∧
        ((!g.rows && q.desc.hasDelta) = true → ∀ r i, q.resume ≤ r → r < g.st.n → i < 128 → i < (x r).2.length →
          srfByte u.srf (g.st.delta.at r 0 + i) = (x r).2.getD i 0) ∧
        ∀ o, (∀ r j, q.resume ≤ r → r < g.st.n → j < g.st.s → o < g.st.at r j ∨ g.st.at r j + 128 ≤ o) →
          ((!g.rows && q.desc.hasDelta) = true → ∀ r, q.resume ≤ r → r < g.st.n → o < g.st.delta.at r 0 ∨ g.st.delta.at r 0 + 128 ≤ o) →
          srfByte u.srf o = srfByte t.srf o)) ∧
  (∀ (s : State) (k tag : Nat) (t : Task) (q : QInstr) (g : Geo) (all : List Item), StreamAt s k tag t q → q.geo = some g → g.ring = none →
    g.load = false → q.ended = false →
    all = (List.range g.st.n).flatMap (fun r => q.items g t.srf r (getRec t.srf g.st r)) →
    (t.storeTurn tag (q.desc.space == .host) = false → exec (.streamComplete k tag) s = .next s) ∧
    (t.storeTurn tag (q.desc.space == .host) = true →
      (∀ s1 ws, q.desc.space ≠ .pod → g.red.bind (fun op => sscRed op q.desc.fmt) = none →
        State.gatherRecords t q g (q.restRecs g) s = (s1, ws, g.st.n, none) →
        (CanStore q.desc.space ws s1 → ∃ s' u, exec (.streamComplete k tag) s = .next s' ∧ s'.task? k = some u ∧ OtherTasks s1 s' k ∧
          StoresTo q.desc.space ws s1 s' ∧
          (q.desc.space = .package → StreamCompleted t u tag 0 g.st.n ∧ OthersStay t u ∧ u.srf = t.srf) ∧
          (q.desc.space = .host → u.queued? tag = some { q with ended := true, resume := g.st.n, count := g.st.n } ∧
            u.hart.stores = t.hart.stores.map (fun e => if e.isStream tag then { e with begun := true, atK := true } else e) ∧
            { u with sq := t.sq, hart := { u.hart with stores := t.hart.stores } } = t)) ∧
        (q.desc.space = .package → s1.canAccept (writeUnits ws) = false → exec (.streamComplete k tag) s = .next s)) ∧
      (∀ op n (σ τ : Nat → State) (la : Nat → Nat), q.desc.space ≠ .pod → g.red.bind (fun op => sscRed op q.desc.fmt) = some op →
        (s.canAccept (s.reduceUnits (t.qctx q) all) = false → exec (.streamComplete k tag) s = .next s) ∧
        (s.canAccept (s.reduceUnits (t.qctx q) all) = true → σ 0 = s →
          (∀ i x, all[i]? = some x → x.data.length = n ∧ (∃ m pas, (σ i).xlate (t.qctx q) { space := .package, r := false, w := true, x := false }
            x.va n = (τ i, .ok (m, pas)) ∧ la i = pas.headD 0 % 2 ^ 40) ∧ (∀ j, j < n → (τ i).badUnit ((la i + j) / 64) = false) ∧
            σ (i + 1) = ((τ i).rmwLocal (.red op) n (la i) (leNat x.data) (t.who q).unit x.va (t.who q).tag (t.who q).pc).1) →
          (∃ s' u, exec (.streamComplete k tag) s = .next s' ∧ OnlyTask (σ all.length) s' k u ∧ StreamCompleted t u tag 0 g.st.n ∧
            OthersStay t u ∧ u.srf = t.srf) ∧
          ∀ i x, all[i]? = some x → rdNat (σ (i + 1)).mem (la i) n =
              redNew op (8 * n) (rdNat (τ i).mem (la i) n) (leNat x.data % 2 ^ (8 * n)) % 2 ^ (8 * n) ∧
            ∀ a, a < la i ∨ la i + n ≤ a → rdByte (σ (i + 1)).mem a = rdByte (τ i).mem a)) ∧
      (∀ s1, q.desc.space = .pod → State.podMissing (t.qctx q) q.got all s = (s1, []) → (t.arrived = true → ∀ x ∈ all, x.mask = 0xFF) →
        (∀ s2 f, s1.readHalves (t.qctx q) (t.who q) all = (s2, .error (.trap f)) → s2.task? k = some t →
          ∃ s' u, exec (.streamComplete k tag) s = .next s' ∧ OnlyTask s2 s' k u ∧ StreamFaulted t u q f) ∧
        ∀ s2 s3 bs runs, s1.readHalves (t.qctx q) (t.who q) all = (s2, .ok ()) → State.podBytes (t.qctx q) q.got all s2 = (s3, bs) →
          s3.task? k = some t → (∀ x, s3.badUnit x = false) → runs = recRuns bs →
          ∃ s' u recs, exec (.streamComplete k tag) s = .next s' ∧ s'.task? k = some u ∧ OtherTasks s3 s' k ∧
            ApronTakes s3 s' 0x210 s3.outbound recs ∧ (∀ a, rdByte s'.hmem a = rdByte s3.hmem a) ∧
            StreamCompleted { t with seq := t.seq + runs.length } u tag 0 g.st.n ∧ OthersStay t u ∧ u.srf = t.srf ∧
            s'.outbound = s3.outbound ++ recs ∧ recs.length = runs.length ∧ ∀ i r run, recs[i]? = some r → runs[i]? = some run →
              r.key = BitVec.ofNat 64 (s3.rank * 2 ^ 52 + t.lg * 2 ^ 44 + (t.seq + i)) ∧ r.data = run.map (·.2.2) ∧
              r.gen = s3.stepNum + (if t.arrived then 1 else 0) ∧ r.sent = false ∧ r.acked = false ∧
              ∀ y, run.head? = some y → r.va = y.1 ∧ r.home = y.2.1 / 2 ^ 40 ∧ r.addr = y.2.1 % 2 ^ 40))) ∧
  (∀ (s : State) (k tag : Nat) (t : Task) (q : QInstr) (g : Geo), StreamAt s k tag t q → q.geo = some g → q.ended = true →
    (g.load = true ∨ q.desc.space = .package → g.ring.isSome = true → ∃ u, Becomes (.streamComplete k tag) s k u ∧
      StreamCompleted t u tag 0 q.count ∧ OthersStay t u ∧ u.srf = t.srf) ∧
    (g.load = false → q.desc.space = .host → (t.storePending tag = true → exec (.streamComplete k tag) s = .next s) ∧
      (t.storePending tag = false → ∃ u, Becomes (.streamComplete k tag) s k u ∧ StreamCompleted t u tag 0 q.count ∧ OthersStay t u ∧
        u.srf = t.srf))) ∧
  (∀ (s : State) (k tag n : Nat) (t : Task) (q : QInstr) (g : Geo) (r : Ring), StreamAt s k tag t q → q.geo = some g → g.ring = some n →
    q.ended = false → r = t.ring n →
    (g.load = true →
      (r.free = 0 → exec (.ringWaitSatisfied k tag) s = .next s) ∧
      (∀ s1 s2 x, r.free ≠ 0 → q.resume < g.st.n → t.loadBegun tag = true → State.missingRecords t q g [q.resume] s = (s1, .ok []) →
        s1.loadRecord t q g q.resume = (s2, .ok x) → ∃ s' u, exec (.ringWaitSatisfied k tag) s = .next s' ∧ OnlyTask s2 s' k u ∧
          SrfTakes t.srf u.srf (r.slot r.tail) x.1.length (fun i => x.1.getD i 0) ∧ RingPublishes r (u.ring n) false ∧ OtherRings [n] t u ∧
          u.queued? tag = some { q with resume := q.resume + 1, count := q.count + 1, ended := decide (q.resume + 1 = g.st.n) && !g.e } ∧
          (∀ e, e ∈ u.hart.loads ↔ e ∈ t.hart.loads ∧ (q.resume + 1 = g.st.n → e.kind ≠ .stream tag)) ∧
          { u with srf := t.srf, rings := t.rings, sq := t.sq, hart := t.hart } = t) ∧
      (r.free ≠ 0 → g.st.n ≤ q.resume → ∃ u, Becomes (.ringWaitSatisfied k tag) s k u ∧ RingPublishes r (u.ring n) true ∧ OtherRings [n] t u ∧
        u.queued? tag = some { q with resume := q.resume + 1, count := q.count + 1, ended := true } ∧
        { u with rings := t.rings, sq := t.sq } = t)) ∧
    (g.load = false → (t.storeTurn tag (q.desc.space == .host) = false ∨ r.filled = 0 → exec (.ringWaitSatisfied k tag) s = .next s) ∧
      (t.storeTurn tag (q.desc.space == .host) = true → r.filled ≠ 0 →
        ((g.e && r.eosAt 0) = true → ∃ u, Becomes (.ringWaitSatisfied k tag) s k u ∧ RingReleases r (u.ring n) ∧ OtherRings [n] t u ∧
          u.queued? tag = some { q with count := q.count + 1, ended := true } ∧ { u with rings := t.rings, sq := t.sq, hart := t.hart } = t) ∧
        ((g.e && r.eosAt 0) = false → q.resume < g.st.n → ∀ q1 rec, rec = srfBytes t.srf (r.slot r.head) g.recBytes →
          q1 = { q with resume := q.resume + 1, count := q.count + 1, ended := decide (q.resume + 1 = g.st.n) && !g.e } →
          (∀ s1 ws, q.desc.space ≠ .pod → State.gather (t.qctx q) q.desc.space (q.items g t.srf q.resume rec) s = (s1, ws, none) →
            CanStore q.desc.space ws s1 → ∃ s' u, exec (.ringWaitSatisfied k tag) s = .next s' ∧ s'.task? k = some u ∧ OtherTasks s1 s' k ∧
              StoresTo q.desc.space ws s1 s' ∧ RingReleases r (u.ring n) ∧ OtherRings [n] t u ∧ u.queued? tag = some q1 ∧
              { u with rings := t.rings, sq := t.sq, hart := t.hart } = t) ∧
          (q.desc.space = .pod → ∃ u q2, Becomes (.ringWaitSatisfied k tag) s k u ∧ RingReleases r (u.ring n) ∧ OtherRings [n] t u ∧
            u.queued? tag = some q2 ∧ { q2 with got := q.got } = q1 ∧ (∀ i, i < g.recBytes → tget 0 q2.got (q.resume * g.recBytes + i) = rec.getD i 0) ∧
            { u with rings := t.rings, sq := t.sq, hart := t.hart } = t)) ∧
        ((g.e && r.eosAt 0) = false → g.st.n ≤ q.resume → q.desc.space ≠ .pod → ∃ u, Becomes (.ringWaitSatisfied k tag) s k u ∧
          StreamFaulted t u q { code := BitVec.ofNat 8 cBOUNDS, va := none, wr := false }))))

/-- R227: NBMV leaves R sums of products of its rows with the vector at x[a], each on top of the old value with ACC, as 32-bit numbers in the
SRF (that its COUNT is R is the model's choice, log 51). R297, R299, R300, R296: a DESCEND, of the root or continued from the runs and the
permutation in its streams, goes level by level: the entries of each run go to the left or the right child by the signs of their margins, in
the order they had; it leaves ID, PERM, the run table, with MG the margins, with LF the leaf blocks, with PT the bits of the path words, all
others kept (cleared first at the root); COUNT is the number of runs. R298: the margin is the exact sum for i8, rounded once with the bias,
and else the block sums added one by one and then the bias, each rounded to fp32; a NaN goes left. R210, R230, R290, R291: an STKRUN completes once its program has ended and
nothing of it is left, with COUNT the slots it published, and with the code, pc and address of its fault, or with CANCEL. -/
def Obligations.DescentsAndProgramsComplete : Prop :=
  (∀ (s : State) (k tag : Nat) (t : Task) (q : QInstr) (d : Reg) (td : BitVec 6) (y : BitVec 15) (acc : Bool) (a b : Reg) (n o : Nat)
     (x : List Byte) (w : Nat → List Byte) (σ : Nat → State), StreamAt s k tag t q → q.ins = .nbmv d td y acc a b →
    n = (q.ops.getD 1 0).toNat → o = y.toNat * 128 →
    (t.loadBegun tag = false → exec (.streamComplete k tag) s = .next s) ∧
    (t.loadBegun tag = true →
      State.readUnits (t.qctx q) (t.who q) .package [] 1 [0] ((List.range (q.desc.size 0)).map (fun j =>
        some (((q.ops.getD 0 0).toNat + j) % 2 ^ 64))) s = (σ 0, .ok x) →
      (∀ i, i < n → State.readUnits (t.qctx q) (t.who q) .package [] 1 [0] ((List.range (q.desc.size 0)).map (fun (j : Nat) =>
        let c : List Int := [(j : Int), q.desc.org 1 + (i : Int)]
        if q.desc.inside c then some (q.desc.addr c) else none)) (σ i) = (σ (i + 1), .ok (w i))) →
      ∃ s' u, exec (.streamComplete k tag) s = .next s' ∧ OnlyTask (σ n) s' k u ∧ StreamCompleted t u tag 0 n ∧ OthersStay t u ∧
        (∀ i, i < n → srfNat u.srf (o + 4 * i) 4 = wrap 32 ((((w i).zip x).map (fun p => p.1.toInt * p.2.toInt)).sum +
          (if acc then signed 32 (srfNat t.srf (o + 4 * i) 4) else 0))) ∧
        ∀ m, m < o ∨ o + 4 * n ≤ m → srfByte u.srf m = srfByte t.srf m)) ∧
  (∀ (s z : State) (k tag : Nat) (t : Task) (q : QInstr) (o : DescendOp) (bk : DescentBlock) (P : Nat → List Nat) (R : Nat → List TreeRun)
     (σ τ : Nat → Nat → State) (ω : Nat → State) (wb bb : Nat → Nat → List Byte) (lb : Nat → List Byte) (m : Nat → Nat → Nat → Nat),
    StreamAt s k tag t q → q.descendOp = some o → q.descendCheck t o = .ok () → bk = o.block t.srf → t.loadBegun tag = true →
    s.asked k tag = false → (R o.l0, P o.l0) = o.input bk t.srf → (P o.l0).Nodup → σ o.l0 0 = s →
    (∀ l, o.l0 ≤ l → l ≤ o.l1 → LevelLeaves (m l) (P l) (R l) (P (l + 1)) (R (l + 1)) ∧ σ (l + 1) 0 = σ l (R l).length ∧
      ∀ j r, (R l)[j]? = some r → (σ l j).readTree t q (q.desc.nodeVa r.node) q.desc.rowBytes q.desc.esize = (τ l j, .ok (wb l j)) ∧
        (τ l j).readTree t q ((q.desc.nodeVa r.node + q.desc.biasOff) % 2 ^ 64) 4 4 = (σ l (j + 1), .ok (bb l j)) ∧
        ∀ e, m l j e = margin q.desc.fmt (xElems t.srf bk.x (q.desc.size 0) q.desc.esize e)
          ((List.range (q.desc.size 0)).map (fun i => elem (leNat (wb l j)) (8 * q.desc.esize) i)) (leNat (bb l j))) →
    ω 0 = σ (o.l1 + 1) 0 → z = (if o.lf then ω (R (o.l1 + 1)).length else ω 0) →
    (o.lf = true → ∀ j r, (R (o.l1 + 1))[j]? = some r →
      (ω j).readTree t q (q.desc.leafVa (r.node - (2 ^ q.desc.size 1 - 1))) q.desc.leafBytes q.desc.esize = (ω (j + 1), .ok (lb j))) →
    ∃ s' u, exec (.streamComplete k tag) s = .next s' ∧ OnlyTask z s' k u ∧ StreamCompleted t u tag 0 (R (o.l1 + 1)).length ∧
      u.rings = t.rings ∧ u.descs = t.descs ∧ u.stoeks = t.stoeks ∧
      (∀ r e, r ∈ R (o.l1 + 1) → e ∈ runEntries (P (o.l1 + 1)) r → srfNat u.srf (bk.id.1 + 4 * e) 4 = r.node % 2 ^ 32) ∧
      (∀ p e, (P (o.l1 + 1))[p]? = some e → srfNat u.srf (bk.pm.1 + 2 * p) 2 = e) ∧
      srfNat u.srf bk.rt.1 8 = (R (o.l1 + 1)).length + (o.l1 + 1) * 2 ^ 16 + o.b * 2 ^ 32 ∧
      (∀ j r, (R (o.l1 + 1))[j]? = some r →
        srfNat u.srf (bk.rt.1 + 8 + 8 * j) 8 = (r.node + r.start * 2 ^ 32 + r.count * 2 ^ 48) % 2 ^ 64 ∧
        (o.lf = true → ∀ i, i < 128 * bk.lf.s → srfByte u.srf (bk.lf.byteAt j i) = (lb j).getD i 0)) ∧
      (∀ l j r e, o.l0 ≤ l → l ≤ o.l1 → (R l)[j]? = some r → e ∈ runEntries (P l) r →
        (o.mg = true → srfNat u.srf (bk.mg.1 + 4 * ((l - o.l0) * o.b + e)) 4 = m l j e) ∧
        (o.pt = true → pathBit u.dregs o.dg e l = signBit (m l j e))) ∧
      (o.pt = true → ∀ e l, e < o.b → l < 32 → l < o.l0 ∨ o.l1 < l →
        pathBit u.dregs o.dg e l = (decide (o.l0 ≠ 0) && pathBit t.dregs o.dg e l)) ∧
      (∀ n c i, c < 16 → i < 32 → (o.pt = true → ∀ e, e < o.b → n ≠ o.dg + e / 512 ∨ c ≠ e % 16 ∨ i ≠ e / 16 % 32) →
        elem (elem (tget 0 u.dregs n).toNat 1024 c) 32 i = elem (elem (tget 0 t.dregs n).toNat 1024 c) 32 i) ∧
      (∀ i, (i < bk.id.1 ∨ bk.id.1 + 4 * o.b ≤ i) → (i < bk.pm.1 ∨ bk.pm.1 + 2 * o.b ≤ i) → (i < bk.rt.1 ∨ bk.rt.1 + 8 + 8 * o.b ≤ i) →
        (o.mg = false ∨ i < bk.mg.1 ∨ bk.mg.1 + 4 * o.b * (o.l1 + 1 - o.l0) ≤ i) →
        (o.lf = false ∨ ∀ j n, j < o.b → n < bk.lf.s → i < bk.lf.at j n ∨ bk.lf.at j n + 128 ≤ i) → srfByte u.srf i = srfByte t.srf i) ∧
      (t.nextTag ≤ tag + 64 → ((u.tag (tag % 64)).status.getLsbD 20 = true ↔
        ∃ l j r e, o.l0 ≤ l ∧ l ≤ o.l1 ∧ (R l)[j]? = some r ∧ e ∈ runEntries (P l) r ∧ (fp32.val (m l j e)).isNan = true))) ∧
  (∀ x row bias, margin 6 x row bias = fp32.rnd .rne (fvAdd .rne (intVal ((x.zip row).map (fun p => signed 8 p.1 * signed 8 p.2)).sum)
    (fp32.val bias))) ∧
  (∀ fmt f n d x row bias w (a b : Nat → FVal), (fmt, f, n, d) ∈ [(3, bf16, 32, 5), (4, e5m2, 64, 6), (5, e4m3, 64, 6)] → x.length = row.length →
    w = ceilDiv x.length n → a 0 = .zero false →
    (∀ i, i < w → b i = (treeSum d ((List.range n).map (fun j => if n * i + j < x.length then
        fvMul (f.val (x.getD (n * i + j) 0)) (f.val (row.getD (n * i + j) 0)) else .zero false))).1 ∧
      a (i + 1) = fp32.val (fp32.rnd .rne (fvAdd .rne (a i) (b i)))) →
    margin fmt x row bias = fp32.rnd .rne (fvAdd .rne (a w) (fp32.val bias))) ∧
  (∀ m, m < 2 ^ 32 → (signBit m = true ↔ m ≤ 0x7F800000 ∨ m = 2 ^ 31)) ∧
  (∀ (s : State) (k tag : Nat) (t : Task) (q : QInstr) (p : Stoek), StreamAt s k tag t q → isStkrun q.ins = true → t.stoek? tag = some p →
    (p.ending = .running ∨ p.hart.stores ≠ [] ∨ p.hart.loads ≠ [] ∨ (p.ending ≠ .cancel ∧ p.delivery ≠ []) →
      exec (.streamComplete k tag) s = .next s) ∧
    (p.ending ≠ .running → p.hart.stores = [] → p.hart.loads = [] → (p.ending = .cancel ∨ p.delivery = []) →
      ∃ u code, Becomes (.streamComplete k tag) s k u ∧ StreamCompleted t u tag code p.published ∧ u.srf = t.srf ∧ u.rings = t.rings ∧
        u.descs = t.descs ∧ u.dregs = t.dregs ∧ u.stoeks = t.stoeks.filter (fun x => x.tag ≠ tag) ∧ (p.ending = .skend → code = 0) ∧
        (p.ending = .cancel → code = 19) ∧ ∀ c dpc dva, p.ending = .fault c dpc dva → code = c.toNat ∧
          (t.nextTag ≤ tag + 64 → (u.tag (tag % 64)).dpc = dpc ∧ (u.tag (tag % 64)).dva = dva.getD 0 ∧
            (u.tag (tag % 64)).dvav = dva.isSome)))

/-! ## Number formats -/

/-- R46, R47: the value of every pattern of the six floating-point formats; the infinities and NaNs of those that have them. R51, R52:
a finite result is rounded once, in the mode, to a pattern of the format; beyond the largest finite number it becomes an infinity or that
number, by the mode. R53: a conversion to a narrow format rounds to nearest even and saturates; R54: one to an integer rounds, saturates and
says so; integers convert between each other by saturation or extension (R250). That an integer to a narrow format rounds as R53 has it, and
that i8 reaches to -128, are the model's readings (log 16). R48, R49: sums and products are exact, with the rules of NaN, infinities and
signed zeros. R50: minima and maxima. R249: reciprocals and reciprocal roots are the exact numbers rounded; the special values of all four
functions; the exponential of an integer and the logarithm of a power of two are exact, and any other lies between those of the integers or
powers of two about its operand. R57, R58: pairs of i4o nibbles. R61: t5 digits. R64: the summing tree adds the sums of its halves. -/
def Obligations.NumberFormatsRound : Prop :=
  (∀ f top, FormatOf f top →
    (∀ p, p ≤ top → (gridVal f p = 0 → f.val p = .zero false ∧ f.val (p + 2 ^ (f.w - 1)) = .zero true) ∧
      (gridVal f p ≠ 0 → ∃ m e, f.val p = .fin false m e ∧ f.val (p + 2 ^ (f.w - 1)) = .fin true m e ∧ 1 - (f.bias : Int) - f.fb ≤ e ∧
        m * 2 ^ (e - (1 - (f.bias : Int) - f.fb)).toNat = gridVal f p)) ∧
    (∀ p, top < p → p < 2 ^ (f.w - 1) → (f ≠ e4m3 → p = top + 1 → f.val p = .inf false ∧ f.val (p + 2 ^ (f.w - 1)) = .inf true) ∧
      (f = e4m3 ∨ p ≠ top + 1 → f.val p = .nan ∧ f.val (p + 2 ^ (f.w - 1)) = .nan)) ∧
    (f.val f.nan = .nan) ∧
    (∀ rm neg m e, m ≠ 0 → ∃ r, RoundsTo f rm neg m e r ∧ f.rnd rm (.fin neg m e) = Ranged f top rm neg r) ∧
    (∀ rm neg m (e c : Int), m ≠ 0 → c = 1 - f.bias - f.fb + e →
      ∃ r, RoundsReal f rm neg (fun z => z * m * 2 ^ c.toNat ≤ 2 * 2 ^ (-c).toNat) (fun z => 2 * 2 ^ (-c).toNat ≤ z * m * 2 ^ c.toNat) r ∧
        f.rnd rm (fvRcp (.fin neg m e)) = Ranged f top rm neg r) ∧
    (∀ rm m (e c : Int), m ≠ 0 → c = 2 * (1 - f.bias - f.fb) + e →
      ∃ r, RoundsReal f rm false (fun z => z ^ 2 * m * 2 ^ c.toNat ≤ 4 * 2 ^ (-c).toNat) (fun z => 4 * 2 ^ (-c).toNat ≤ z ^ 2 * m * 2 ^ c.toNat) r ∧
        f.rnd rm (fvRsq (.fin false m e)) = Ranged f top rm false r) ∧
    (f ≠ e4m3 → ∀ rm, f.exp2 rm .nan = f.nan ∧ f.exp2 rm (.inf false) = top + 1 ∧ f.exp2 rm (.inf true) = 0 ∧
      (∀ s, f.exp2 rm (.zero s) = f.rnd rm (.fin false 1 0)) ∧ f.log2 rm .nan = f.nan ∧ f.log2 rm (.inf false) = top + 1 ∧
      f.log2 rm (.inf true) = f.nan ∧ (∀ s, f.log2 rm (.zero s) = 2 ^ (f.w - 1) + (top + 1)) ∧
      (∀ m e, m ≠ 0 → f.log2 rm (.fin true m e) = f.nan) ∧
      (∀ s m (e : Int) (n : Nat), m ≠ 0 → n < 2 ^ 20 → m * 2 ^ e.toNat = n * 2 ^ (-e).toNat →
        f.exp2 rm (.fin s m e) = f.rnd rm (.fin false 1 (if s then -(n : Int) else n))) ∧
      (∀ s m (e : Int) (n : Nat), e < 0 → n < 2 ^ 20 → n * 2 ^ (-e).toNat < m → m < (n + 1) * 2 ^ (-e).toNat →
        f.rnd rm (.fin false 1 (if s then -((n : Int) + 1) else n)) ≤ f.exp2 rm (.fin s m e) ∧
        f.exp2 rm (.fin s m e) ≤ f.rnd rm (.fin false 1 (if s then -(n : Int) else n + 1))) ∧
      (∀ (j : Nat) (e n : Int), n = e + j →
        f.log2 rm (.fin false (2 ^ j) e) = (if n = 0 then 0 else f.rnd rm (.fin (decide (n < 0)) n.natAbs 0)) ∧
        ∀ m, 2 ^ j < m → m < 2 ^ (j + 1) →
          (0 ≤ n → (if n = 0 then 0 else f.rnd rm (.fin false n.natAbs 0)) ≤ f.log2 rm (.fin false m e) ∧
            f.log2 rm (.fin false m e) ≤ f.rnd rm (.fin false (n.natAbs + 1) 0)) ∧
          (n < 0 → 2 ^ (f.w - 1) ≤ f.log2 rm (.fin false m e) ∧ f.log2 rm (.fin false m e) ≤ f.rnd rm (.fin true n.natAbs 0)))) ∧
    (∀ rm neg, f.rnd rm .nan = f.nan ∧ f.rnd rm (.zero neg) = (if neg then 2 ^ (f.w - 1) else 0) ∧
      f.rnd rm (.inf neg) = (if neg then 2 ^ (f.w - 1) else 0) + (if f = e4m3 then top else top + 1)) ∧
    (∀ neg m e, m ≠ 0 → ∃ r, RoundsTo f .rne neg m e r ∧ f.narrow (.fin neg m e) =
      ((if neg then 2 ^ (f.w - 1) else 0) + min r top, decide (top < r))) ∧
    (∀ neg, f.narrow (.inf neg) = ((if neg then 2 ^ (f.w - 1) else 0) + top, true) ∧ f.narrow .nan = (f.nan, false)) ∧
    (∀ a b x y, x = f.val a → y = f.val b →
      (x = .nan → y = .nan → f.fmin a b = f.nan ∧ f.fmax a b = f.nan) ∧ (x = .nan → y ≠ .nan → f.fmin a b = b ∧ f.fmax a b = b) ∧
      (x ≠ .nan → y = .nan → f.fmin a b = a ∧ f.fmax a b = a) ∧ (fvLt x y = true → f.fmin a b = a ∧ f.fmax a b = b) ∧
      (fvLt y x = true → f.fmin a b = b ∧ f.fmax a b = a) ∧
      (x = .zero true → y = .zero false → f.fmin a b = a ∧ f.fmax a b = b) ∧ (x = .zero false → y = .zero true → f.fmin a b = b ∧ f.fmax a b = a))) ∧
  (∀ rm s u m n (e g v w c : Int), m ≠ 0 → n ≠ 0 → c = min e g → v = (if s then -1 else 1) * (m * 2 ^ (e - c).toNat : Nat) →
    w = (if u then -1 else 1) * (n * 2 ^ (g - c).toNat : Nat) →
    fvAdd rm (.fin s m e) (.fin u n g) = (if v + w = 0 then .zero (rm == .rdn) else .fin (decide (v + w < 0)) (v + w).natAbs c) ∧
    fvMul (.fin s m e) (.fin u n g) = .fin (s != u) (m * n) (e + g) ∧ (fvLt (.fin s m e) (.fin u n g) = true ↔ v < w)) ∧
  (∀ s m e, fvRcp .nan = .nan ∧ fvRcp (.inf s) = .zero s ∧ fvRcp (.zero s) = .inf s ∧ fvRsq .nan = .nan ∧ fvRsq (.inf false) = .zero false ∧
    fvRsq (.inf true) = .nan ∧ fvRsq (.zero s) = .inf s ∧ (m ≠ 0 → fvRsq (.fin true m e) = .nan)) ∧
  (∀ (rm : RMode) (src dst x : Nat) (v : FVal) (f : FFmt) (i : Int),
    ((src, f) ∈ [(0, fp64), (1, fp32), (2, fp16), (3, bf16), (4, e5m2), (5, e4m3)] ∧ v = f.val x) ∨
      (src ∈ [6, 7, 8, 9, 10, 11, 12, 13] ∧ i = (if src % 2 = 0 then signed (fmtWidth src) x else x) ∧
        v = if i = 0 then .zero false else .fin (decide (i < 0)) i.natAbs 0) →
    (dst = 0 → (cvtElem src dst rm x).1 = fp64.rnd rm v) ∧ (dst = 1 → (cvtElem src dst rm x).1 = fp32.rnd rm v) ∧
    (∀ g, (dst, g) ∈ [(2, fp16), (3, bf16), (4, e5m2), (5, e4m3)] → (cvtElem src dst rm x).1 = (g.narrow v).1) ∧
    (dst ∈ [6, 7, 8, 9, 10, 11, 12, 13] →
      (src < 6 → (cvtElem src dst rm x).1 = (fvToIntSat (if dst = 6 then .rne else rm) (dst % 2 == 0) (fmtWidth dst) v).1) ∧
      (6 ≤ src → fmtWidth src < fmtWidth dst → (cvtElem src dst rm x).1 = wrap (fmtWidth dst) i) ∧
      (6 ≤ src → fmtWidth dst ≤ fmtWidth src → (cvtElem src dst rm x).1 =
        wrap (fmtWidth dst) (max (intLo (dst % 2 == 0) (fmtWidth dst)) (min (intHi (dst % 2 == 0) (fmtWidth dst)) i))))) ∧
  (∀ rm x s u, fvAdd rm .nan x = .nan ∧ fvAdd rm x .nan = .nan ∧ fvMul .nan x = .nan ∧ fvMul x .nan = .nan ∧
    fvAdd rm (.inf s) (.inf u) = (if s = u then .inf s else .nan) ∧ fvMul (.inf s) (.zero u) = .nan ∧ fvMul (.zero s) (.inf u) = .nan ∧
    fvAdd rm (.zero s) (.zero u) = (if s = u then .zero s else .zero (rm == .rdn)) ∧ fvMul (.zero s) (.zero u) = .zero (s != u) ∧
    fvMul (.inf s) (.inf u) = .inf (s != u)) ∧
  (∀ rm sg w neg m (e : Int), m ≠ 0 → ∃ i : Nat, (0 ≤ e → i = m * 2 ^ (min e 2048).toNat) ∧
    (∀ d, e < 0 → d = 2 ^ (-e).toNat → (rm = .rtz ∨ (rm = .rup ∧ neg = true) ∨ (rm = .rdn ∧ neg = false) → i = m / d) ∧
      (rm = .rup ∧ neg = false ∨ rm = .rdn ∧ neg = true → i = (m + d - 1) / d) ∧
      (rm = .rne → 2 * m ≤ (2 * i + 1) * d ∧ (2 * i - 1) * d ≤ 2 * m ∧ (2 * m = (2 * i + 1) * d ∨ 2 * m + d = 2 * i * d → i % 2 = 0))) ∧
    ∀ x : Int, x = (if neg then -(i : Int) else i) → fvToIntSat rm sg w (.fin neg m e) =
      (wrap w (max (intLo sg w) (min (intHi sg w) x)), decide (x < intLo sg w ∨ intHi sg w < x))) ∧
  (∀ lo hi, lo < 16 → hi < 16 → decodePair lo hi =
    if lo = 8 then ((if 8 ≤ hi then -1 else 1) * [8, 12, 16, 24, 32, 48, 64, 96].getD (hi % 8) 0, 0, false)
    else ((if lo < 8 then (lo : Int) else lo - 16), (if hi < 8 then (hi : Int) else if hi = 8 then 0 else hi - 16), decide (hi = 8))) ∧
  (∀ b d, d < 5 → signed 8 (t5Elem b d) = if b < 243 then ((b / 3 ^ d % 3 : Nat) : Int) - 1 else 0) ∧
  (∀ n (l : List FVal), l.length = 2 ^ (n + 1) → (treeSum (n + 1) l).1 =
    fp32.val (fp32.rnd .rne (fvAdd .rne (treeSum n (l.take (2 ^ n))).1 (treeSum n (l.drop (2 ^ n))).1))) ∧
  (∀ x, (treeSum 0 [x]).1 = x)

/-! ## Stoek programs -/

/-- R274, R288 to R290: SQW writes the low bytes of x[b] to the assembly tile at x[a] + off, EMIT appends a tile, a mark, or both to
the delivery queue with room for them, UNPIN forgets pins and probed rows (what is pending through a pin stays known to the TLBIs that
select it, R366); each moves past its two words and changes no register, and nothing else outside its program changes. SKEND ends the program. EMIT without a ring, and SQW past the tile's 8,192 bytes, end it
with BOUNDS; its pins go once its stores have performed (R291). R289: the oldest delivery of a program goes to its ring once a slot
is free: a tile's bytes into the tail slot, a mark as an empty slot that ends the stream; the ring publishes one slot, the program's
published slots go up by one, and no byte of memory changes. -/
def Obligations.TilesAndDeliveries : Prop :=
  (∀ (s : State) (k tag : Nat) (t : Task) (p : Stoek), StoekExecutes s k tag t p →
    (∀ sz a b (off : BitVec 13) o, p.hart.ready [a, b] = true → o = (p.hart.x a + off.setWidth 64).toNat →
      (o + szBytes sz ≤ 8192 → ∃ p', ProgramBecomes (.sqw sz a b off) s k tag p' ∧ { p' with tile := p.tile } = { p with hart := p.hart.advance 8 } ∧
        ∀ i, tget 0 p'.tile i = if o ≤ i ∧ i < o + szBytes sz then BitVec.ofNat 8 ((p.hart.x b).toNat / 2 ^ (8 * (i - o)))
          else tget 0 p.tile i) ∧
      (8192 < o + szBytes sz → ∃ s' q, exec (.sqw sz a b off) s = .next s' ∧ s'.program k tag = some q ∧
        q.ending = .fault (BitVec.ofNat 8 cBOUNDS) p.hart.pc none ∧ (p.hart.stores = [] → q.pins = []) ∧
        (p.hart.stores ≠ [] → q.pins = p.pins) ∧ q.tile = p.tile)) ∧
    (∀ n new e eos, p.ring = some n →
      new = (if eos then [.mark] else if e then [.tile (p.tileBytes 0 (128 * (t.ring n).slotsz)), .mark]
        else [.tile (p.tileBytes 0 (128 * (t.ring n).slotsz))]) →
      (p.delivery.length + new.length ≤ 32 →
        ProgramBecomes (.emit e eos) s k tag { p with delivery := p.delivery ++ new, hart := p.hart.advance 8 }) ∧
      (32 < p.delivery.length + new.length → exec (.emit e eos) s = .next s)) ∧
    (p.ring = none → ∀ e eos, ∃ s' q, exec (.emit e eos) s = .next s' ∧ s'.program k tag = some q ∧
      q.ending = .fault (BitVec.ofNat 8 cBOUNDS) p.hart.pc none) ∧
    (∃ s', exec .unpin s = .next s' ∧
      OnlyProgram { s with tlbi := s'.tlbi } s' k tag { p with pins := [], triples := [], hart := p.hart.advance 8 } ∧
      ∀ lg, (s'.selectors lg).length = (s.selectors lg).length ∧ ∀ (i : Nat) (z z' : TlbSel), (s.selectors lg)[i]? = some z → (s'.selectors lg)[i]? = some z' →
        { z' with uses := z.uses } = z ∧ ∀ u : Agent × Nat, u ∈ z'.uses ↔ u ∈ z.uses ∨ ∃ x ∈ p.pins, z.covers t.asid (bit x.pte.toNat 5) x.va x.size = true ∧
          ∃ a ∈ pendingVas p.hart, overlap (a.2, 8) (x.va, x.size) = true ∧ u = (.stoek k tag, a.1)) ∧
    ∃ s', exec .skend s = .next s' ∧ s'.program k tag = some { p with ending := .skend } ∧ SameMemory s s' ∧
      { s' with tasks := s.tasks } = s) ∧
  (∀ (s : State) (k tag n : Nat) (t : Task) (p : Stoek) (x : Delivery) (rest : List Delivery), s.task? k = some t →
    t.stoek? tag = some p → p.ring = some n → p.delivery = x :: rest → t.onChip = true → t.rbad = [] →
    (p.ending = .running ∨ p.ending = .skend) →
    ((t.ring n).free = 0 → exec (.stoekPublish k tag) s = .next s) ∧
    ((t.ring n).free ≠ 0 →
      ∃ s' u, exec (.stoekPublish k tag) s = .next s' ∧ OnlyTask s s' k u ∧
        u.stoek? tag = some { p with delivery := rest, published := p.published + 1 } ∧
        RingPublishes (t.ring n) (u.ring n) (x == .mark) ∧ OtherRings [n] t u ∧ (x = .mark → u.srf = t.srf) ∧
        ∀ bs, x = .tile bs → SrfTakes t.srf u.srf ((t.ring n).slot (t.ring n).tail) bs.length (fun i => bs.getD i 0)))

/-- R279, R281: IXRD of n indices at a 4-byte aligned address, whose bytes can be read, puts them into IX from 0, or with APP after
those there, and gives x[d] and IXN the new number; an address that is not aligned, no index, or more than 1,024 in all ends the
program with BOUNDS. No byte of memory and no other register changes. R282: DDUP leaves in IX each value once, in the order of its
first occurrence, gives x[d] and IXN their number, and fills the map so that each old index finds its value; with MT the map's
16-bit entries go to the tile too, or, where the tile has no room for them, the program ends with BOUNDS and nothing else happens. -/
def Obligations.IndexListsAreReadAndReduced : Prop :=
  (∀ (s : State) (k tag : Nat) (t : Task) (p : Stoek) (app : Bool) (d a b : Reg) (va n o : Nat), StoekExecutes s k tag t p →
    p.hart.ready [d, a, b] = true → va = (p.hart.x a).toNat → n = (p.hart.x b).toNat → o = (if app then p.ixn else 0) →
    (∀ s1 bs, va % 4 = 0 → n ≠ 0 → o + n ≤ 1024 → s.stoekReads k p = true →
      State.readUnits (p.ctx t) (p.who t) .package [] 4 [] ((List.range n).map (fun i => some ((va + 4 * i) % 2 ^ 64))) s =
        (s1, .ok bs) →
      ∃ s' p', exec (.ixrd app d a b) s = .next s' ∧ s'.program k tag = some p' ∧ p'.ixn = o + n ∧ p'.hart.pc = p.hart.pc + 8 ∧
        (∀ r, p'.hart.x r = if r = d ∧ r ≠ 0 then BitVec.ofNat 64 (o + n) else p.hart.x r) ∧
        (∀ i, p'.ixAt i = if o ≤ i ∧ i < o + n then leNat ((bs.drop (4 * (i - o))).take 4) % 2 ^ 32 else p.ixAt i) ∧
        SameMemory s s' ∧ SameRegisters s s') ∧
    (va % 4 ≠ 0 ∨ n = 0 ∨ 1024 < o + n → ∃ s' q, exec (.ixrd app d a b) s = .next s' ∧ s'.program k tag = some q ∧
      q.ending = .fault (BitVec.ofNat 8 cBOUNDS) p.hart.pc none)) ∧
  (∀ (s : State) (k tag : Nat) (t : Task) (p : Stoek) (d : Reg) (mt : Bool) (line : BitVec 6), StoekExecutes s k tag t p →
    p.hart.ready [d] = true →
    (p.ixn ≤ 1024 → (mt = true → 128 * line.toNat + 2 * p.ixn ≤ 8192) →
      ∃ p', ProgramBecomes (.ddup d mt line) s k tag p' ∧ p'.hart.pc = p.hart.pc + 8 ∧ p'.ixn ≤ p.ixn ∧
        (∀ r, p'.hart.x r = if r = d ∧ r ≠ 0 then BitVec.ofNat 64 p'.ixn else p.hart.x r) ∧
        (∀ i j, i < p'.ixn → j < p'.ixn → p'.ixAt i = p'.ixAt j → i = j) ∧
        (∀ i, i < p'.ixn → ∃ m, m < p.ixn ∧ p.ixAt m = p'.ixAt i) ∧ (∀ i, p'.ixn ≤ i → p'.ixAt i = p.ixAt i) ∧
        (∀ i, i < p.ixn → (tget 0 p'.map i).toNat < p'.ixn ∧ p'.ixAt (tget 0 p'.map i).toNat = p.ixAt i) ∧
        (∀ i, p.ixn ≤ i → tget 0 p'.map i = tget 0 p.map i) ∧
        (∀ i j, i < j → j < p'.ixn → ∃ m, m < p.ixn ∧ p.ixAt m = p'.ixAt i ∧ ∀ l, l ≤ m → p.ixAt l ≠ p'.ixAt j) ∧
        (mt = false → p'.tile = p.tile) ∧
        (mt = true → (∀ i, i < p.ixn → leNat (p'.tileBytes (128 * line.toNat + 2 * i) 2) = (tget 0 p'.map i).toNat) ∧
          ∀ i, i < 128 * line.toNat ∨ 128 * line.toNat + 2 * p.ixn ≤ i → tget 0 p'.tile i = tget 0 p.tile i) ∧
        { p' with ix := p.ix, ixn := p.ixn, map := p.map, tile := p.tile, hart := p.hart } = p) ∧
    (mt = true → 8192 < 128 * line.toNat + 2 * p.ixn →
      ∃ s' q, exec (.ddup d mt line) s = .next s' ∧ s'.program k tag = some q ∧ q.ending = .fault (BitVec.ofNat 8 cBOUNDS) p.hart.pc none ∧
        q.ix = p.ix ∧ q.ixn = p.ixn ∧ q.map = p.map ∧ q.tile = p.tile ∧ q.hart = p.hart ∧ SameMemory s s'))

/-- R283 to R286: a row operation whose operands pass the checks of R283 completes: ROWLD with the rows it reads padded to whole
lines in the tile, POOL with one row of pooled elements there, padded with zeros to whole lines: the elements widened to fp32 or i32, summed
(rounded each time, or mod 2^32) or their maximum, from the first on or with ACC from what the tile holds, zero where there is no row (R285; a
NaN in the form of R48), POOL.wadd with one store entry of reductions, each at the
address that translation gives its element. Each moves past its two words, writes no x register, and changes no byte of memory as it
executes. R96, R97, R287: PROBE, its operands passing the checks of R283, pins the pages of its rows and remembers which rows it
probed; no x register, no tile byte and no byte of memory changes; where the pages of its own rows are more than 8,192 it ends the
program with BOUNDS, and where those of its gnoum would be, it waits. (No check code of a descriptor has an error.) -/
def Obligations.RowOperationsComplete : Prop :=
  (∀ (s : State) (k tag : Nat) (t : Task) (p : Stoek) (td line : BitVec 6) (w : BitVec 16) (a b : Reg) (o : RowOp),
     StoekExecutes s k tag t p → t.dbad = [] → p.hart.ready [a, b] = true → p.rowOp td.toNat w.toNat a b = .ok o →
     (∀ s1 rows, line.toNat + o.ixs.length * ceilDiv o.bytes 128 ≤ 64 → s.stoekReads k p = true →
       s.readRows t p o o.ixs = (s1, .ok rows) →
       ∃ s', exec (.rowld td line w a b) s = .next s' ∧ s'.program k tag =
         some { (p.tilePut (128 * line.toNat) (rows.flatMap (padTo (128 * ceilDiv o.bytes 128)))) with hart := p.hart.advance 8 } ∧
         SameMemory s s' ∧ SameRegisters s s') ∧
     (∀ isMax acc s1 rows, o.d.fmt = 1 ∨ o.d.fmt = 2 ∨ o.d.fmt = 3 ∨ o.d.fmt = 6 ∨ o.d.fmt = 10 →
       line.toNat + ceilDiv (4 * o.w) 128 ≤ 64 → s.stoekReads k p = true → s.readRows t p o o.ixs = (s1, .ok rows) →
       ∃ s' p', exec (.pool isMax acc td line w a b) s = .next s' ∧ s'.program k tag = some p' ∧
         { p' with tile := p.tile } = { p with hart := p.hart.advance 8 } ∧ SameMemory s s' ∧ SameRegisters s s' ∧
         (∀ i, i < 128 * line.toNat ∨ 128 * (line.toNat + ceilDiv (4 * o.w) 128) ≤ i → tget 0 p'.tile i = tget 0 p.tile i) ∧
         (∀ i, 128 * line.toNat + 4 * o.w ≤ i → i < 128 * (line.toNat + ceilDiv (4 * o.w) 128) → tget 0 p'.tile i = 0) ∧
         ∀ e (c A : Nat → Nat), e < o.w →
           (∀ i r x, rows[i]? = some r → x = leNat ((r.drop (e * fmtUnitBytes o.d.fmt)).take (fmtUnitBytes o.d.fmt)) →
             c i = (match o.d.fmt with
               | 2 => fp32.rnd .rne (fp16.val x)
               | 3 => fp32.rnd .rne (bf16.val x)
               | 6 => wrap 32 (signed 8 x)
               | _ => x)) →
           A 0 = (if acc then leNat (p.tileBytes (128 * line.toNat + 4 * e) 4) else if rows = [] then 0 else c 0) →
           (∀ i, i < rows.length → A (i + 1) = if acc = false ∧ i = 0 then A 0
             else if o.d.fmt = 6 ∨ o.d.fmt = 10 then (if isMax = false then (A i + c i) % 2 ^ 32
               else if signed 32 (c i) ≤ signed 32 (A i) then A i else c i)
             else if isMax = false then fp32.rnd .rne (fvAdd .rne (fp32.val (A i)) (fp32.val (c i))) else fp32.fmax (A i) (c i)) →
           leNat (p'.tileBytes (128 * line.toNat + 4 * e) 4) =
             if o.d.fmt = 6 ∨ o.d.fmt = 10 then A rows.length else fp32.rnd .rne (fp32.val (A rows.length))) ∧
     (∀ s1 ps, o.d.fmt = 1 ∨ o.d.fmt = 10 → line.toNat + ceilDiv (4 * o.w) 128 ≤ 64 → (∀ v ∈ o.ixs, (o.td, o.w, v) ∈ p.triples) →
       State.xlateReds (p.ctx t) (o.wadds p line.toNat) s = (s1, .ok ps) →
       ps.map (fun x => (x.1, x.2.2)) = o.wadds p line.toNat ∧
       ∃ s' e, exec (.poolWadd td line w a b) s = .next s' ∧
         s'.program k tag = some { p with hart := { p.hart.advance 8 with stores := p.hart.stores ++ [e], po := p.hart.po + 1 } } ∧
         e.kind = .reds (if o.d.fmt = 1 then .fadd32 else .add) ps p.hart.pc ∧ e.po = p.hart.po ∧ e.begun = false ∧
         SameMemory s s' ∧ SameRegisters s s')) ∧
  (∀ (s : State) (k tag : Nat) (t : Task) (p : Stoek) (td : BitVec 6) (w : BitVec 16) (a b : Reg) (o : RowOp) (s1 : State)
     (ps : List Pin) (units : List (Option Nat)) (own : Pin → Bool),
     StoekExecutes s k tag t p → t.dbad = [] → p.hart.ready [a, b] = true → p.rowOp td.toNat w.toNat a b = .ok o →
     s.stoekReads k p = true → units = o.ixs.flatMap (fun v => o.d.rowUnits v o.bytes) →
     State.probeRows (p.ctx t) (fmtUnitBytes o.d.fmt) units p.pins s = (s1, .ok ps) →
     (∀ x, own x = true ↔ ∃ va c, some va ∈ units ∧ va ≤ c ∧ c < va + fmtUnitBytes o.d.fmt ∧ x.va ≤ c ∧ c < x.va + x.size) →
     ((ps.filter own).length ≤ 8192 → s.pinnedAt t.lg + (ps.length - p.pins.length) ≤ 8192 →
       ∃ s' p', exec (.probe td w a b) s = .next s' ∧ s'.program k tag = some p' ∧ p'.pins = ps ∧
         (∀ x, x ∈ p'.triples ↔ x ∈ p.triples ∨ ∃ v ∈ o.ixs, x = (o.td, o.w, v)) ∧
         { p' with pins := p.pins, triples := p.triples } = { p with hart := p.hart.advance 8 } ∧ SameMemory s s' ∧ SameRegisters s s') ∧
     (8192 < (ps.filter own).length → ∃ s' q, exec (.probe td w a b) s = .next s' ∧ s'.program k tag = some q ∧
       q.ending = .fault (BitVec.ofNat 8 cBOUNDS) p.hart.pc none) ∧
     ((ps.filter own).length ≤ 8192 → 8192 < s.pinnedAt t.lg + (ps.length - p.pins.length) → exec (.probe td w a b) s = .next s))


/-! ## The dispatch unit -/

/-- R331, R332: LQCTL_WRITE of a legal value replaces the queue's LOG2N, EN, GBASE and ASID (mask of R331), unless the queue is enabled and
LOG2N, GBASE or ASID would change; LOG2N 0 or above 12 and GBASE above 191 are refused. LQTAIL_DOORBELL replaces TAIL. R344:
CTX_POOL_WRITE sets CTXBASE or CTXN while no task is saved, N up to 4,096; GRESET puts a gnoum that is not fused out back into service,
PGN up to 51. Which tasks count as saved is the model's reading (log 42). -/
def Obligations.DispatchRegistersAreWritten : Prop :=
  (∀ (s : State) (q : BitVec 4) (v : Word) (old : Word), old = BitVec.ofNat 64 (s.preg (0x301 + 4 * q.toNat)) →
    (1 ≤ wordBits v 3 0 ∧ wordBits v 3 0 ≤ 12 ∧ wordBits v 15 8 ≤ 191 →
      (wordBits old 7 7 = 0 ∨ (wordBits v 3 0 = wordBits old 3 0 ∧ wordBits v 15 8 = wordBits old 15 8 ∧
          wordBits v 47 32 = wordBits old 47 32) →
        ∃ t, exec (.lqctlWrite q v) s = .next t ∧ RegisterTakes s t (0x301 + 4 * q.toNat) 0x0000FFFF0000FF8F v) ∧
      (wordBits old 7 7 = 1 ∧ (wordBits v 3 0 ≠ wordBits old 3 0 ∨ wordBits v 15 8 ≠ wordBits old 15 8 ∨
          wordBits v 47 32 ≠ wordBits old 47 32) → exec (.lqctlWrite q v) s = .next s)) ∧
    (wordBits v 3 0 = 0 ∨ 12 < wordBits v 3 0 ∨ 191 < wordBits v 15 8 → exec (.lqctlWrite q v) s = .next s) ∧
    ∃ t, exec (.lqtailDoorbell q v) s = .next t ∧ RegisterTakes s t (0x302 + 4 * q.toNat) 0xFFFF v) ∧
  (∀ (s : State) (v : Word),
    (s.anySaved = false → (∃ t, exec (.ctxPoolWrite false v) s = .next t ∧ RegisterTakes s t 0x342 0xFFFFFFFFFFFFF v) ∧
      (wordBits v 15 0 ≤ 4096 → ∃ t, exec (.ctxPoolWrite true v) s = .next t ∧ RegisterTakes s t 0x343 0xFFFF v)) ∧
    (s.anySaved = true → ∀ isN, exec (.ctxPoolWrite isN v) s = .next s) ∧
    (4096 < wordBits v 15 0 → exec (.ctxPoolWrite true v) s = .next s)) ∧
  (∀ (s : State) (pgn : BitVec 6) (die : BitVec 2) (g : PhysG), g = tget PhysG.idle s.disp.physG (64 * die.toNat + pgn.toNat) →
    (pgn.toNat ≤ 51 → g.fused = false →
      ∃ t, exec (.greset pgn die) s = .next t ∧ { t with disp := s.disp } = s ∧ { t.disp with physG := s.disp.physG } = s.disp ∧
        ∀ j, tget PhysG.idle t.disp.physG j =
          if j = 64 * die.toNat + pgn.toNat then { g with outOfService := false } else tget PhysG.idle s.disp.physG j) ∧
    (51 < pgn.toNat ∨ g.fused = true → exec (.greset pgn die) s = .next s))

/-- R13, R14, R16, R18, R332, R333: LAUNCH_ADMIT reads the record at HEAD of the queue whose turn it is. One that breaks no rule of
R14 becomes TCOUNT ready tasks, each with the registers and the settings of R18, and a launch of as many tasks, and no byte of memory
changes. One that breaks some admits nothing: its completion word, REJECTED (bit 0) with the offset of the first field that breaks a
rule in bits [15:8], goes to DONEADDR; where it cannot be written, and where the record cannot be read, the queue's LQSTAT shows ERR and the
record's index, and LAUNCH_DONEFAIL is posted. HEAD moves on each time. Without a queue to serve, a free launch entry or an enabled
dispatch unit nothing happens. (Record capture of R417 disabled. That a DONEADDR with a bit above 55 breaks a rule is the model's
reading, log 53.) -/
def Obligations.LaunchesAreAdmitted : Prop :=
  (∀ (s s0 : State) (q l head : Nat) (asid : BitVec 16) (gbase pa : Nat), s.dispatching = true → s.nextQueue = some q → s.freeEntry = some l →
    asid = BitVec.ofNat 16 (bits (s.preg (0x301 + 4 * q)) 47 32) → gbase = bits (s.preg (0x301 + 4 * q)) 15 8 →
    head = bits (s.preg (0x303 + 4 * q)) 15 0 →
    pa = bits (s.preg (0x300 + 4 * q)) 51 0 + 128 * (head % 2 ^ bits (s.preg (0x301 + 4 * q)) 3 0) →
    s0 = { s.setPregBits (0x303 + 4 * q) 15 0 (head + 1) with disp := { s.disp with rr := (q + 1) % 16 } } →
    (∀ (la : Nat) (r : List Byte) (side done : Nat), pa = s.rank * 2 ^ 40 + la → la < 2 ^ 40 → la + 128 ≤ memLimit → (∀ u, tget 0 s.ms.ecc u = 0) →
      r = rdBytes s.mem (addrs la 128) → side = recField r 0x18 8 → done = recField r 0x60 8 →
      ((∀ off, ¬RecordBreaks s0 q asid gbase r off) → bit (s.preg 0x719) 5 = false →
        ∃ t, exec .launchAdmit s = .next t ∧ bits (t.preg (0x303 + 4 * q)) 15 0 = (head + 1) % 65536 ∧
          (∀ i, i < recField r 8 2 → ∃ u, t.task? (256 * l + i) = some u ∧ u.launch = l ∧ u.index = i ∧ u.lg = (gbase + i) % 192 ∧
            u.run = .ready none ∧ u.fresh = true ∧ u.asid = asid ∧ u.foot = recField r 0x0A 1 ∧
            u.prio = recField r 0x0B 1 % 8 ∧ u.stepm = bit (recField r 0x0B 1) 3 ∧ u.budget = recField r 0x0C 4 ∧
            u.gpermit = BitVec.ofNat 64 (recField r 0x10 8) ∧ u.hart.pc = BitVec.ofNat 64 (recField r 0 8) ∧
            (∀ j, j < 8 → u.hart.x (BitVec.ofNat 5 (2 + j)) = BitVec.ofNat 64 (recField r (0x20 + 8 * j) 8)) ∧
            u.hart.x 10 = BitVec.ofNat 64 i ∧ u.hart.x 11 = BitVec.ofNat 64 (recField r 8 2) ∧
            u.hart.x 12 = BitVec.ofNat 64 ((gbase + i) % 192) ∧ u.hart.x 1 = 0 ∧ u.hart.loads = [] ∧ u.hart.stores = [] ∧
            u.srf = [] ∧ u.rings = [] ∧ u.descs = [] ∧ u.sq = [] ∧ u.groups = [] ∧ u.kern = none ∧ u.stoeks = []) ∧
          (∀ k, (∀ i, i < recField r 8 2 → k ≠ 256 * l + i) → t.task? k = s.task? k) ∧
          (∃ e, tfind t.disp.launches l = some e ∧ e.left = recField r 8 2 ∧ e.ended = 0 ∧ e.unacked = 0 ∧ e.aborted = false ∧ e.record = r ∧
            e.queue = q) ∧
          (∀ m, m ≠ l → tfind t.disp.launches m = tfind s.disp.launches m) ∧ SameMemory s t) ∧
      (∀ (off : Nat) (s2 : State), RecordBreaks s0 q asid gbase r off → (∀ o, o < off → ¬RecordBreaks s0 q asid gbase r o) →
        s2 = (if side = 0 then s0 else (s0.readableAt asid side).1) →
        ∃ t, exec .launchAdmit s = .next t ∧ bits (t.preg (0x303 + 4 * q)) 15 0 = (head + 1) % 65536 ∧
          t.tasks = s.tasks ∧ t.disp.launches = s.disp.launches ∧
          CompletionWord s2 s t asid done (1 + off * 256) q head)) ∧
    (pa / 2 ^ 40 ≠ s.rank ∨ memLimit < pa % 2 ^ 40 + 128 →
      ∃ t, exec .launchAdmit s = .next t ∧ bits (t.preg (0x303 + 4 * q)) 15 0 = (head + 1) % 65536 ∧ t.tasks = s.tasks ∧
        t.disp.launches = s.disp.launches ∧ t.mem = s.mem ∧ bit (t.preg (0x303 + 4 * q)) 16 = true ∧ bits (t.preg (0x303 + 4 * q)) 47 32 = head ∧
        Posted s t 0x0042 0 0xFFFF [(0x18, q), (0x19, 1), (0x1A, head), (0x20, 0)]) ∧
    (pa / 2 ^ 40 = s.rank → pa % 2 ^ 40 + 128 ≤ memLimit → (∃ a, pa % 2 ^ 40 ≤ a ∧ a < pa % 2 ^ 40 + 128 ∧ s.badUnit (a / 64) = true) →
      ∃ t, exec .launchAdmit s = .next t ∧ bits (t.preg (0x303 + 4 * q)) 15 0 = (head + 1) % 65536 ∧ t.tasks = s.tasks ∧
        t.disp.launches = s.disp.launches ∧ t.mem = s.mem ∧ bit (t.preg (0x303 + 4 * q)) 16 = true ∧
        bits (t.preg (0x303 + 4 * q)) 47 32 = head)) ∧
  (∀ s : State, s.dispatching = false ∨ s.nextQueue = none ∨ s.freeEntry = none → exec .launchAdmit s = .next s)

/-- R18, R42, R314, R334, R336, R341: TASK_PLACE gives a free physical gnoum in service the ready task of the highest effective priority,
the longest ready on a tie: the first time with the registers of R18, x13 and SVEC set; later with what was saved, read from its save slot where
it has one, in mode U with EXL clear; a task whose context has an uncorrectable error ends (the model's choice, log 54). The effective priority
is PRIO and one more for each millisecond since the task became ready, up to 7, at a moment `ns` of the dispatch unit's clock, in nanoseconds,
that comes after its last (log 46), so that of equal PRIO the task ready longer comes first and every waiting task rises. R342:
SHADOW_PRELOAD marks the task expected next and changes nothing of any task. -/
def Obligations.TasksArePlaced : Prop :=
  ∀ (s : State) (pg k ns : Nat) (t0 : Task) (eff : Task → Nat), s.bestReady.1 = some (k, t0) → s.task? k = some t0 → s.dispatching = true →
    ns = s.bestReady.2.disp.clock → (∀ v, eff v = min 7 (v.prio + (ns - v.readyAt) / 1000000)) →
    s.disp.clock < ns ∧
    (s.inService pg = true → (tget PhysG.idle s.disp.physG pg).active = none →
      (t0.run.slot = none ∨ SlotHolds s t0 →
        ∃ t u, exec (.taskPlace pg) s = .next t ∧ t.task? k = some u ∧ PlacedAs s t0 u pg ns ∧ (∀ j, j ≠ k → t.task? j = s.task? j) ∧ SameMemory s t ∧
          t.pregs = s.pregs ∧ (tget PhysG.idle t.disp.physG pg).active = some k ∧ ∀ n, t0.run.slot = some n → n ∉ t.disp.slots) ∧
      ((s.fromSlot t0).2 = none → ∃ t, exec (.taskPlace pg) s = .next t ∧ t.task? k = none)) ∧
    (∀ j v, (j, v) ∈ s.tasks → v.placeable = true → eff v < eff t0 ∨ (eff v = eff t0 ∧ t0.readySeq ≤ v.readySeq)) ∧
    (∀ a ta, (tget PhysG.idle s.disp.physG pg).active = some a → s.task? a = some ta → ta.foot ≤ 8 → t0.foot ≤ 8 →
      (tget PhysG.idle s.disp.physG pg).shadow = none → t0.run.slot = none ∨ SlotHolds s t0 →
      ∃ t, exec (.shadowPreload pg) s = .next t ∧ (tget PhysG.idle t.disp.physG pg).shadow = some k ∧ t.tasks = s.tasks ∧
        SameMemory s t ∧ t.pregs = s.pregs)

/-- R335, R337, R338, R341, R343: BUDGET_EXPIRY and TASKCMD_SAVE switch a placed task out into a free save slot, BUDGET_EXPIRY only where a ready
task has no lower priority: by a fast switch to the preloaded task where R337 allows it, else by a drain; without a slot, or with none as high,
a budget begins anew (R42: the limits of tasks run side by side), and a save waits for a slot. R44, R338, R339: the first DRAIN_LIMIT_EXPIRY of a drain with a kernel lets the sequencer look for a safe point; the second
saves a kernel that stands at one that the side table lists, with the registers that its entry names, and ends any other with BUDGET.
R118, R323, R337, R341, R348: CONTEXT_SAVE_COMPLETE first lets the context of a task that stands at a boundary stream out; when nothing of
it moves any more, its context is in its save slot and its gnoum free, and it is ready; a STEP.WAIT that has been released meanwhile is
behind it; where an error in its registers or its SRF blocks the save, the task ends. That a draining task in mode S executes on, and the
two uses of the row, are the model's readings (log 26). -/
def Obligations.TasksAreSwitchedOut : Prop :=
  (∀ (s : State) (k pg : Nat) (t : Task), s.task? k = some t → t.run = .placed pg →
    (∀ n, (s.passLimit t n).disp.clock = max s.disp.clock (t.since + 1000 * n)) ∧
    (∀ b, b = (s.passLimit t t.budget).bestReady → s.dispatching = true → t.budget ≠ 0 →
      (∀ n x, s.freeSaveSlot = some n → b.1 = some x → t.prio ≤ min 7 (x.2.prio + (b.2.disp.clock - x.2.readyAt) / 1000000) →
        n ∉ s.disp.slots ∧ ∃ s', exec (.budgetExpiry k) s = .next s' ∧ s'.disp.clock = b.2.disp.clock ∧ SwitchedOut s s' k t pg n b.1) ∧
      (s.freeSaveSlot = none ∨ b.1 = none ∨
          (∃ x, b.1 = some x ∧ min 7 (x.2.prio + (b.2.disp.clock - x.2.readyAt) / 1000000) < t.prio) →
        ∃ s', exec (.budgetExpiry k) s = .next s' ∧ s'.task? k = some { t with since := b.2.disp.clock } ∧
          (∀ j, j ≠ k → s'.task? j = s.task? j) ∧ { s'.disp with clock := s.disp.clock } = s.disp ∧ s'.disp.clock = b.2.disp.clock ∧ SameMemory s s' ∧
          s'.pregs = s.pregs)) ∧
    (∀ lg lidx : BitVec 8, s.taskOf lg.toNat lidx.toNat = some k → bits (s.preg 0x343) 15 0 ≠ 0 →
      (∀ n, s.freeSaveSlot = some n → ∃ s', exec (.taskcmdSave lg lidx) s = .next s' ∧ k ∉ s'.disp.pendingSave ∧
        SwitchedOut s s' k t pg n (if s.dispatching then s.bestReady.1 else none)) ∧
      (s.freeSaveSlot = none → ∃ s', exec (.taskcmdSave lg lidx) s = .next s' ∧ k ∈ s'.disp.pendingSave ∧
        { s' with disp := s.disp } = s))) ∧
  (∀ (s : State) (k pg : Nat) (t : Task) (slot : Option Nat) (kn : Kernel), s.task? k = some t → t.kern = some kn →
    (t.run = .draining pg false slot → ∃ s', exec (.drainLimitExpiry k) s = .next s' ∧
      s'.task? k = some { t with run := .draining pg true slot, since := s'.disp.clock } ∧ (∀ j, j ≠ k → s'.task? j = s.task? j) ∧ SameMemory s s' ∧
      s'.pregs = s.pregs ∧ { s'.disp with clock := s.disp.clock } = s.disp ∧ s'.disp.clock = (s.passLimit t (s.preg 0x341)).disp.clock) ∧
    (∀ point, t.run = .draining pg true slot → t.ksaved = false → (∀ u, s.badUnit u = false) →
      point = (if kn.inflight = [] ∧ kn.occV0 = 0 ∧ kn.occV1 = 0 ∧ kn.occM = 0 ∧ kn.loopWait = none then
        ((s.passLimit t (s.preg 0x341)).taskSafePoints t).2.find? (fun p => p.bundle = kn.pc) else none) →
      (∀ e, point = some e → ∃ s' k', exec (.drainLimitExpiry k) s = .next s' ∧ s'.task? k = some { t with kern := some k', ksaved := true } ∧
        (∀ j, j ≠ k → s'.task? j = s.task? j) ∧ SameMemory s s' ∧
        { k' with v := kn.v, bench := kn.bench, m := kn.m, entry := kn.entry } = kn ∧ k'.entry = e.entry ∧
        (∀ r, tget 0 k'.v r = if (recField e.entry 0x08 32).testBit r then tget 0 kn.v r else 0) ∧
        (∀ r, tget 0 k'.bench r = if (recField e.entry 0x28 16).testBit r then tget 0 kn.bench r else 0) ∧
        (∀ r, tget 0 k'.m r = if (recField e.entry 0x38 4).testBit r then tget 0 kn.m r else 0)) ∧
      (point = none → ∃ s' u, exec (.drainLimitExpiry k) s = .next s' ∧ s'.task? k = some u ∧
        StreamCompleted { t with kern := none } u kn.tag 17 kn.count ∧ (∀ j, j ≠ k → s'.task? j = s.task? j) ∧
        (∀ a, rdByte s'.mem a = rdByte s.mem a) ∧
        Posted s s' 0x0041 0 t.lg [(0x18, t.lg), (0x1A, t.launch), (0x1B, kn.tag % 64), (0x1C, kn.pc)]))) ∧
  (∀ (s : State) (k : Nat) (t : Task) (slot : Option Nat), s.task? k = some t →
    (∀ pg late, t.run = .draining pg late slot → t.atBoundary = true → Becomes (.contextSaveComplete k) s k { t with run := .saving (some pg) slot }) ∧
    (∀ g u, t.run = .saving g slot → t.savable = true → t.clean → t.fresh = false → (∀ x, tget 0 s.ms.ecc x = 0) →
      u = { t.pause.settleWaits with run := .ready slot, readySeq := s.disp.readySeq, readyAt := s.disp.clock } →
      (u.hart.xs = t.hart.xs ∧ u.sup = t.sup ∧ u.srf = t.srf ∧ u.rings = t.rings ∧ u.descs = t.descs ∧ u.kern = t.kern ∧
        u.tags = t.tags ∧ u.dregs = t.dregs ∧ u.groups = t.groups ∧
        (t.gbarWait = none → u.hart.pc = if t.inStepWait && t.stepOwed && !t.arrived then t.hart.pc + 8 else t.hart.pc)) ∧
      (slot = none → ∃ s', exec (.contextSaveComplete k) s = .next s' ∧ s'.task? k = some u ∧
        (∀ j, (tget PhysG.idle s'.disp.physG j).active ≠ some k) ∧ (∀ j, j ≠ k → s'.task? j = s.task? j) ∧ SameMemory s s') ∧
      (∀ n la, slot = some n → s.rank * 2 ^ 40 + la = bits (s.preg 0x342) 51 0 + 2 ^ 23 * n → la < 2 ^ 40 →
        la + (u.contextBytes 0 (s.ownNats u)).length ≤ memLimit →
        ∃ s' left, exec (.contextSaveComplete k) s = .next s' ∧ s'.task? k = some u ∧
          (∀ j, (tget PhysG.idle s'.disp.physG j).active ≠ some k) ∧ (∀ j, j ≠ k → s'.task? j = s.task? j) ∧ left ≤ t.budget ∧
          rdBytes s'.mem (addrs la (u.contextBytes left (s.ownNats u)).length) = u.contextBytes left (s.ownNats u) ∧
          (∀ a, a < la ∨ la + (u.contextBytes left (s.ownNats u)).length ≤ a → rdByte s'.mem a = rdByte s.mem a) ∧ ∀ a, rdByte s'.hmem a = rdByte s.hmem a)) ∧
    (∀ g, t.run = .saving g slot → t.savable = true → (∃ e ∈ t.hart.xbad ++ t.sbad, e.2 = 2) →
      ∃ s', exec (.contextSaveComplete k) s = .next s' ∧ s'.task? k = none) ∧
    (∀ g, t.run = .saving g slot → t.savable = false → exec (.contextSaveComplete k) s = .next s))

/-- R15, R117, R319, R328, R332, R343: TASKCMD_TERMINATE ends the task as HALT in mode S does and its launch counts it as aborted (with the last
task its entry is free and the completion word goes to DONEADDR);
TASKCMD_RERUN discards its work and makes it ready again, fresh from its launch record in memory, and its launch goes on as before (both keep
count of the host stores that the host has yet to acknowledge); a command that names no task does nothing. SFCTL_RETIRE (and MTC to SFCTL)
completes the stream fault taken with its own code, so that its tag is done. -/
def Obligations.TaskCommandsAct : Prop :=
  (∀ (s : State) (lg lidx : BitVec 8) (k : Nat) (t : Task) (la : Launch), s.taskOf lg.toNat lidx.toNat = some k → s.task? k = some t →
    tfind s.disp.launches t.launch = some la →
    (la.left = 1 → la.unacked = 0 → t.hart.stores = [] → t.stoeks = [] → la.queue < 16 → la.recIdx < 2 ^ 16 → (∀ u, tget 0 s.ms.ecc u = 0) →
      ∃ s', exec (.taskcmdTerminate lg lidx) s = .next s' ∧ s'.task? k = none ∧ tfind s'.disp.launches t.launch = none ∧
        CompletionWord s s s' la.asid (recField la.record 0x60 8) (2 + la.ended * 2 ^ 16) la.queue la.recIdx) ∧
    (2 ≤ la.left → ∃ s' m, exec (.taskcmdTerminate lg lidx) s = .next s' ∧ s'.task? k = none ∧
      tfind s'.disp.launches t.launch = some { la with left := la.left - 1, unacked := la.unacked + m, aborted := true } ∧
      (∀ j, (tget PhysG.idle s'.disp.physG j).active ≠ some k) ∧ (t.hart.stores = [] → m = 0) ∧
      (t.hart.stores = [] → t.stoeks = [] → SameMemory s s')) ∧
    ∃ s' u m, exec (.taskcmdRerun lg lidx) s = .next s' ∧ s'.task? k = some u ∧ u.run = .ready none ∧ u.fresh = true ∧ u.index = t.index ∧
      u.launch = t.launch ∧ u.sq = [] ∧ u.kern = none ∧ u.stoeks = [] ∧ u.groups = [] ∧ u.srf = [] ∧
      tfind s'.disp.launches t.launch = some { la with unacked := la.unacked + m } ∧ (t.hart.stores = [] → m = 0) ∧
      (∀ j, (tget PhysG.idle s'.disp.physG j).active ≠ some k) ∧
      (∀ a r, t.hart.stores = [] → la.recpa = s.rank * 2 ^ 40 + a → a + 128 ≤ memLimit → (∀ x, s.badUnit x = false) →
        r = rdBytes s.mem (addrs a 128) → u.hart.pc = BitVec.ofNat 64 (recField r 0 8 / 4 * 4) ∧ u.prio = recField r 0x0B 1 % 8 ∧
          u.foot = recField r 0x0A 1 ∧ ∀ j, j < 8 → u.hart.x (BitVec.ofNat 5 (2 + j)) = BitVec.ofNat 64 (recField r (0x20 + 8 * j) 8))) ∧
  (∀ (s : State) (lg lidx : BitVec 8), s.taskOf lg.toNat lidx.toNat = none →
    exec (.taskcmdTerminate lg lidx) s = .next s ∧ exec (.taskcmdRerun lg lidx) s = .next s ∧ exec (.taskcmdSave lg lidx) s = .next s) ∧
  (∀ (s : State) (k : Nat) (t : Task) (q : QInstr) (f : FaultInfo), s.task? k = some t → t.sq.find? (fun q => q.taken) = some q → q.fault = some f →
    (∃ u, Becomes (.sfctlRetire k) s k u ∧ (∀ x ∈ u.sq, x.tag ≠ q.tag) ∧ u.sup = t.sup ∧ u.hart.xs = t.hart.xs ∧ u.hart.pc = t.hart.pc ∧ u.srf = t.srf ∧
      (t.nextTag ≤ q.tag + 64 → wordBits (u.tag (q.tag % 64)).status 7 0 = f.code.toNat ∧ (u.tag (q.tag % 64)).status.getLsbD 22 = true)) ∧
    (∀ r a imm, ScpExecutes s k t → t.hart.ready [r, a] = true → t.sup.mode = true →
      (t.hart.x a + BitVec.ofInt 64 imm.toInt).toNat = 0x10A → (t.hart.x r).getLsbD 0 = true →
      ∃ u, Becomes (.mtc r a imm) s k u ∧ (∀ x ∈ u.sq, x.tag ≠ q.tag) ∧ u.sup = t.sup ∧ u.hart.xs = t.hart.xs ∧ u.hart.pc = t.hart.pc + 4 ∧
        (t.nextTag ≤ q.tag + 64 → wordBits (u.tag (q.tag % 64)).status 7 0 = f.code.toNat ∧ (u.tag (q.tag % 64)).status.getLsbD 22 = true)))

/-- R344, R345, R347, R348: QUIESCE_STEP waits for the next boundary; QUIESCE_KERNEL starts to save every placed task at once, each into a free
save slot of its own while there is one (R341), or, with step-member tasks and a boundary past its arrived phase, waits for its release; in the
arrived phase only the root can tell which (log 2); both set STATE 1 and do nothing while a quiesce runs. QUIESCE_DONE, once everything has
drained, writes the image, sets STATE 2 with the image's length in blocks of 4 KiB and posts QUIESCE_DONE; a step cut keeps no record of
generation n; outside the image no byte changes. RESUME of a kernel cut sets STATE 0, and an ARR that the cut held back is sent. RESTORE into an
idle package either recreates the image's tasks with STATE 2 or admits nothing with STATE 3, leaving at most the bytes of the outbound apron
changed, and into one that is not idle does nothing (the model's reading, log 36). That a restored package holds the cut is the model's reading
(log 38). -/
def Obligations.QuiesceResumeAndRestore : Prop :=
  (∀ s : State,
    (s.quiesceFree = true →
      (∃ t, exec .quiesceStep s = .next t ∧ t.preg 0x347 = 1 ∧ t.disp.quiesce = .waitStep ∧ t.tasks = s.tasks ∧ SameMemory s t ∧
        RegistersBut [0x347] s t) ∧
      (∃ t, exec .quiesceKernel s = .next t ∧ t.preg 0x347 = 1 ∧ SameMemory s t ∧ RegistersBut [0x347] s t ∧
        (t.disp.quiesce = .waitKernel ∧ t.tasks = s.tasks ∨ t.disp.quiesce = .saving false) ∧
        (s.bnd.phase = .idle ∨ (∀ e ∈ s.tasks, e.2.stepm = false) ∨
          (s.bnd.phase = .arrived ∧ s.isRoot = true ∧ ∃ g ∈ s.podGroups, s.groupFull g (tget 0 s.bnd.root0 g) = false) →
            t.disp.quiesce = .saving false) ∧
        ((∃ e ∈ s.tasks, e.2.stepm = true) → (s.bnd.phase ≠ .idle ∧ s.bnd.phase ≠ .arrived) ∨
          (s.bnd.phase = .arrived ∧ s.isRoot = true ∧ ∀ g ∈ s.podGroups, s.groupFull g (tget 0 s.bnd.root0 g) = true) →
            t.disp.quiesce = .waitKernel) ∧
        ((s.tasks.map (·.1)).Nodup → t.disp.quiesce = .saving false →
          (∀ k u, s.task? k = some u →
            (∀ pg, u.run = .placed pg → ∃ sl, t.task? k = some { u with run := .draining pg false sl, since := s.disp.clock } ∧
              (∀ n, sl = some n → n < bits (s.preg 0x343) 15 0 ∧ n ∉ s.disp.slots ∧ n ∈ t.disp.slots) ∧
              (sl = none → ∀ n, n < bits (s.preg 0x343) 15 0 → n ∈ t.disp.slots)) ∧
            ((∀ pg, u.run ≠ .placed pg) → t.task? k = some u)) ∧
          ∀ j k a b p p' l l' n, s.task? j = some a → s.task? k = some b → a.run = .placed p → b.run = .placed p' →
            (t.task? j).map (·.run) = some (.draining p l (some n)) → (t.task? k).map (·.run) = some (.draining p' l' (some n)) → j = k))) ∧
    (s.quiesceFree = false → exec .quiesceStep s = .next s ∧ exec .quiesceKernel s = .next s)) ∧
  (∀ (s : State) (step : Bool) (la : Nat) (img : List Byte) (idle : Prop), s.disp.quiesce = .saving step → img = signImage (s.imageBytes step) →
    (idle ↔ (∀ e ∈ s.tasks, (∃ sl, e.2.run = .ready sl) ∧ ∀ x ∈ e.2.hart.stores, x.atK = false) ∧
      (∀ e ∈ s.disp.launches, e.2.unacked = 0) ∧ s.ms.wq = [] ∧ s.fab.txns = [] ∧ s.fab.unsent = []) →
    (idle → (∀ u, tget 0 s.ms.ecc u = 0) → s.rank * 2 ^ 40 + la = bits (s.preg 0x346) 51 0 → la + img.length ≤ memLimit →
      ∃ t, exec .quiesceDone s = .next t ∧ bits (t.preg 0x347) 1 0 = 2 ∧ bits (t.preg 0x347) 63 32 = img.length / 4096 ∧
        t.disp.quiesce = .held step ∧ t.tasks = s.tasks ∧
        Posted s t 0x0040 0 0xFFFF [(0x18, s.rank * 2 ^ 40 + la), (0x20, img.length), (0x28, step.toNat), (0x30, s.stepNum)] ∧
        (∀ r, r ∈ t.outbound ↔ r ∈ s.outbound ∧ (step = true → r.gen ≠ s.stepNum)) ∧
        (∀ a, a < la ∨ la + img.length ≤ a → rdByte t.mem a = rdByte s.mem a) ∧
        ∀ i, i < img.length → rdByte t.mem (la + i) = img.getD i 0) ∧
    (¬idle → exec .quiesceDone s = .next s)) ∧
  (∀ s : State, s.disp.quiesce = .held false →
    ∃ t, exec .resume s = .next t ∧ t.preg 0x347 = 0 ∧ t.disp.quiesce = .idle ∧ t.tasks = s.tasks ∧ SameMemory s t ∧
      RegistersBut [0x347] s t ∧
      (s.member s.rank = true → s.bnd.sentArr = false → s.packageArrived = true → s.beginsBoundary = true → t.bnd.sentArr = true)) ∧
  (∀ s s1 : State,
    (s.tasks = [] ∧ s.disp.launches = [] ∧ s.disp.quiesce = .idle ∧ s.qstate ≠ 1 →
      (s.readImage = (s1, none) → ∃ t, exec .restore s = .next t ∧ t.tasks = [] ∧ t.disp = s.disp ∧ bits (t.preg 0x347) 1 0 = 3 ∧ t.mem = s.mem) ∧
      (∀ img, s.readImage = (s1, some img) →
        (∀ u, s1.restoreFrom img = .ok u → ∃ t, exec .restore s = .next t ∧ t.tasks = u.tasks ∧ bits (t.preg 0x347) 1 0 = 2) ∧
        (∀ x o c, s1.restoreFrom img = .error (x, o, c) → c < 256 → (∀ u, s.badUnit u = false) →
          ∃ t, exec .restore s = .next t ∧ t.tasks = [] ∧ t.disp = s.disp ∧ t.outbound = s.outbound ∧ bits (t.preg 0x347) 1 0 = 3 ∧
            bits (t.preg 0x347) 15 8 = c ∧ (∀ a, (∀ r ∈ x.outbound, a ∉ s.apronBytes 0x210 r) → rdByte t.mem a = rdByte s.mem a) ∧
            Posted s t 0x0043 3 0xFFFF [(0x18, o), (0x20, c)]))) ∧
    (s.tasks ≠ [] ∨ s.disp.launches ≠ [] → exec .restore s = .next s)) ∧
  (∀ (s r s1 : State) (step : Bool), ImageFits s step → s.outbound = [] → r.tasks = [] → r.disp.launches = [] → r.disp.quiesce = .idle →
    r.qstate ≠ 1 → r.rank = s.rank → r.readImage = (s1, some (signImage (s.imageBytes step))) →
    ∃ t, exec .restore r = .next t ∧ bits (t.preg 0x347) 1 0 = 2 ∧
      ∀ k u, s.task? k = some u → ∃ u', t.task? k = some u' ∧ SavedTask u u')


/-! ## Control registers with a range or an effect of their own -/

/-- R9, R124, R138, R312, R316, R354: writes of STEPNUM, STEPQ, STEPCFG, EVQCTL and HWSIZE complete: each replaces its bits where the value
is allowed and changes nothing else; a value that is not allowed is refused and changes nothing. STEPNUM may be written only with no
step-member task and no boundary in progress; STEPQ keeps the bits of queues with step-member tasks; STEPCFG waits for a boundary in
progress where it would change more than enlarge the inbound apron, but for a larger outbound apron while a task waits after STEPFULL; a drain
may then go on into the larger apron. That a
new STEPCFG lets the home say again that its inbound apron is full is the model's reading (log 45). -/
def Obligations.StepQueueAndWindowRegistersAreWritten : Prop :=
  (∀ (s : State) (v : Word),
    ((∀ e ∈ s.tasks, e.2.stepm = false) → s.bnd.begun = false → s.bnd.phase = .idle → s.bnd.lead0 = 0 → s.bnd.root0 = [] →
      ∃ t, exec (.stepnumWrite v) s = .next t ∧ RegisterTakes s t 0x214 (2 ^ 64 - 1) v) ∧
    ((∃ e ∈ s.tasks, e.2.stepm = true) ∨ s.bnd.begun = true ∨ s.bnd.phase ≠ .idle ∨ s.bnd.lead0 ≠ 0 ∨ s.bnd.root0 ≠ [] → exec (.stepnumWrite v) s = .next s)) ∧
  (∀ (s : State) (v : Word),
    ((∀ q, q < 16 → bit (s.preg 0x215) q = true → v.getLsbD q = false → ∀ e ∈ s.tasks, e.2.stepm = true →
        (tfind s.disp.launches e.2.launch).map (·.queue) ≠ some q) →
      ∃ t, exec (.stepqWrite v) s = .next t ∧ RegisterTakes s t 0x215 0xFFFF v) ∧
    ((∃ q, q < 16 ∧ bit (s.preg 0x215) q = true ∧ v.getLsbD q = false ∧ ∃ e ∈ s.tasks, e.2.stepm = true ∧
        (tfind s.disp.launches e.2.launch).map (·.queue) = some q) → exec (.stepqWrite v) s = .next s)) ∧
  (∀ (s s1 : State) (v old : Word), old = BitVec.ofNat 64 (s.preg 0x212) →
    s1 = { s with bnd := { s.bnd with fullPosted := s.bnd.fullPosted && !decide (wordBits old 14 8 < wordBits v 14 8) } } →
    (1 ≤ wordBits v 6 0 → wordBits v 6 0 ≤ 64 → 1 ≤ wordBits v 14 8 → wordBits v 14 8 ≤ 64 → wordBits v 51 32 ≤ 1000000 →
      (s.bnd.begun = false → s.bnd.phase = .idle → s.bnd.lead0 = 0 → s.bnd.root0 = [] → (∀ e ∈ s.tasks, e.2.stepm = true → e.2.arrived = false) →
        ∃ t, exec (.stepcfgWrite v) s = .next t ∧ RegisterTakes s1 t 0x212 0x000FFFFF00007F7F v) ∧
      (wordBits v 51 32 = wordBits old 51 32 → wordBits old 14 8 ≤ wordBits v 14 8 →
        (wordBits v 6 0 = wordBits old 6 0 ∨ (wordBits old 6 0 < wordBits v 6 0 ∧ ∃ e ∈ s.tasks, WaitsAfterStepfull e.2)) →
        (s.bnd.phase ≠ .draining → s.bnd.phase ≠ .drained → ∃ t, exec (.stepcfgWrite v) s = .next t ∧ RegisterTakes s1 t 0x212 0x000FFFFF00007F7F v) ∧
        (∃ t, exec (.stepcfgWrite v) s = .next t ∧ t.tasks = s.tasks ∧ RegistersBut [0x201, 0x202, 0x212, 0x220] s t ∧
          (∀ a, (∀ r ∈ t.inbound, a ∉ s.apronBytes 0x211 r) → rdByte t.mem a = rdByte s.mem a) ∧
          ∀ b, b < 64 → (t.preg 0x212).testBit b = if Nat.testBit 0x000FFFFF00007F7F b then v.getLsbD b else (s.preg 0x212).testBit b)) ∧
      (s.bnd.begun = true ∨ s.bnd.phase ≠ .idle ∨ s.bnd.lead0 ≠ 0 ∨ s.bnd.root0 ≠ [] ∨ (∃ e ∈ s.tasks, e.2.stepm = true ∧ e.2.arrived = true) →
        wordBits v 51 32 ≠ wordBits old 51 32 ∨ wordBits v 14 8 < wordBits old 14 8 ∨ wordBits v 6 0 < wordBits old 6 0 ∨
          (wordBits v 6 0 ≠ wordBits old 6 0 ∧ ∀ e ∈ s.tasks, ¬WaitsAfterStepfull e.2) → exec (.stepcfgWrite v) s = .next s)) ∧
    (wordBits v 6 0 = 0 ∨ 64 < wordBits v 6 0 ∨ wordBits v 14 8 = 0 ∨ 64 < wordBits v 14 8 ∨ 1000000 < wordBits v 51 32 →
      exec (.stepcfgWrite v) s = .next s)) ∧
  (∀ (s : State) (v : Word),
    (4 ≤ wordBits v 4 0 → wordBits v 4 0 ≤ 20 → ∃ t, exec (.evqctlWrite v) s = .next t ∧ RegisterTakes s t 0x201 0xFFFFF01F v) ∧
    (wordBits v 4 0 < 4 ∨ 20 < wordBits v 4 0 → exec (.evqctlWrite v) s = .next s)) ∧
  (∀ (s : State) (v : Word),
    (wordBits v 11 0 = 0 → s.preg 0x420 + wordBits v 52 0 ≤ 2 ^ 52 →
      ∃ t, exec (.hwsizeWrite v) s = .next t ∧ RegisterTakes s t 0x421 0x1FFFFFFFFFFFFF v) ∧
    (wordBits v 11 0 ≠ 0 ∨ 2 ^ 52 < s.preg 0x420 + wordBits v 52 0 → exec (.hwsizeWrite v) s = .next s))

/-- R9, R344, R379, R393, R398, R402, R404: writes of the other registers with a range replace their bits where the value is within it and
change nothing else; a value outside it is refused and changes nothing: DRAINLIM, FABTO, HMWIN, ACTCFG (whose EVTS bits a one clears)
and RCAPCTL (whose SEQ starts anew when EN goes to 1). A write of PINC sets the incarnation of the rank in PIDX. -/
def Obligations.RangedRegistersTakeTheirBits : Prop :=
  ∀ (s : State) (v : Word),
    (1 ≤ wordBits v 19 0 ∧ wordBits v 19 0 ≤ 1000000 → ∃ t, exec (.registerWrite 0x341 v) s = .next t ∧ RegisterTakes s t 0x341 0xFFFFF v) ∧
    (wordBits v 19 0 = 0 ∨ 1000000 < wordBits v 19 0 → exec (.registerWrite 0x341 v) s = .next s) ∧
    (2 ≤ wordBits v 19 0 ∧ wordBits v 19 0 ≤ 1000000 ∧ 1 ≤ wordBits v 39 20 ∧ wordBits v 39 20 < wordBits v 19 0 →
      ∃ t, exec (.registerWrite 0x681 v) s = .next t ∧ RegisterTakes s t 0x681 0xFFFFFFFFFF v) ∧
    (wordBits v 19 0 < 2 ∨ 1000000 < wordBits v 19 0 ∨ wordBits v 39 20 = 0 ∨ wordBits v 19 0 ≤ wordBits v 39 20 →
      exec (.registerWrite 0x681 v) s = .next s) ∧
    (∃ t, exec (.registerWrite 0x684 v) s = .next t ∧ { t with fab := s.fab } = s ∧ { t.fab with pinc := s.fab.pinc } = s.fab ∧
      ∀ r, tget 0 t.fab.pinc r = if r = s.preg 0x683 then v.extractLsb' 0 4 else tget 0 s.fab.pinc r) ∧
    (wordBits v 3 0 ≤ 11 → ∃ t, exec (.registerWrite 0x702 v) s = .next t ∧ RegisterTakes s t 0x702 0xF v) ∧
    (11 < wordBits v 3 0 → exec (.registerWrite 0x702 v) s = .next s) ∧
    (256 ≤ wordBits v 11 0 → ∃ t, exec (.registerWrite 0x500 v) s = .next t ∧ RegistersBut [0x500] s t ∧ { t with pregs := s.pregs } = s ∧
      ∀ b, b < 64 → (t.preg 0x500).testBit b = if b < 12 then v.getLsbD b else if b < 32 then (s.preg 0x500).testBit b
        else (s.preg 0x500).testBit b && !v.getLsbD b) ∧
    (wordBits v 11 0 < 256 → exec (.registerWrite 0x500 v) s = .next s) ∧
    (4 ≤ wordBits v 4 0 ∧ wordBits v 4 0 ≤ 20 → ∃ t, exec (.registerWrite 0x719 v) s = .next t ∧ RegistersBut [0x719] s t ∧
      bits (t.preg 0x719) 5 0 = wordBits v 5 0 ∧ bits (t.preg 0x719) 31 6 = bits (s.preg 0x719) 31 6 ∧ { t with pregs := s.pregs } = s ∧
      bits (t.preg 0x719) 63 32 = if v.getLsbD 5 && !bit (s.preg 0x719) 5 then 0 else bits (s.preg 0x719) 63 32) ∧
    (wordBits v 4 0 < 4 ∨ 20 < wordBits v 4 0 → exec (.registerWrite 0x719 v) s = .next s)

/-- R124, R142, R374, R381, R391, R395, R396, R398, R410: the registers whose write acts: FCTL's NG and EN (NG 1 to 128, unchanged while
EN is 1); LASERCTL's ON bits and FAIL bits cleared by ones: units lit from now on widen the mask of each global link that is up, by a
restripe sequence that is to be answered, and a unit put out narrows it as a failed one does (the model's reading, log 31); MRATE's
targets, each channel that is not at its target starting to switch; PODMAP, which discards the records and the credits of a package that
leaves (of the package's memory only its inbound apron may change, where a drain goes on);
DEADSET, which ends every transaction to the rank; TCBASE, whose first write after a boot that advanced SVFUSE zeroes the region. -/
def Obligations.ActingRegistersAct : Prop :=
  (∀ (s : State) (v : Word),
    (1 ≤ wordBits v 7 0 ∧ wordBits v 7 0 ≤ 128 ∧ (bit (s.preg 0x680) 8 = false ∨ wordBits v 7 0 = s.preg 0x680 % 256) →
      ∃ t, exec (.fctlWrite v) s = .next t ∧ bits (t.preg 0x680) 8 0 = wordBits v 8 0 ∧ RegistersBut [0x680] s t ∧ t.tasks = s.tasks ∧ SameMemory s t) ∧
    (wordBits v 7 0 = 0 ∨ 128 < wordBits v 7 0 ∨ (bit (s.preg 0x680) 8 = true ∧ wordBits v 7 0 ≠ s.preg 0x680 % 256) → exec (.fctlWrite v) s = .next s)) ∧
  (∀ (s : State) (v : Word) (was is : Nat → Bool) (more : BitVec 16),
    (∀ u, was u = ((s.preg 0x688).testBit u && !(s.preg 0x688).testBit (4 + u))) →
    (∀ u, is u = (v.getLsbD u && (!(s.preg 0x688).testBit (4 + u) || v.getLsbD (4 + u)))) →
    (∀ w, w < 16 → more.getLsbD w = (is (w / 4) && !was (w / 4))) →
    ∃ t, exec (.laserctlWrite v) s = .next t ∧ bits (t.preg 0x688) 3 0 = wordBits v 3 0 ∧
      (∀ u, u < 4 → (t.preg 0x688).testBit (4 + u) = ((s.preg 0x688).testBit (4 + u) && !v.getLsbD (4 + u))) ∧
      RegistersBut [0x688, 0x201, 0x202] s t ∧ t.tasks = s.tasks ∧ t.mem = s.mem ∧
      ((∀ u, u < 4 → was u = true → is u = true) → t.hmem = s.hmem ∧ ∀ p, t.link p =
        if 32 ≤ p ∧ p < 48 ∧ (s.link p).up = true ∧ more &&& ~~~(s.link p).txMask ≠ 0 then
          { s.link p with txMask := (s.link p).txMask ||| more, restriping := true, before := (s.link p).buffer.length, striped := 0 } else s.link p) ∧
      (∀ u, u < 4 → was u = true → is u = false → (∀ x, x < 4 → x ≠ u → was x = is x) → ∀ p,
        (32 ≤ p ∧ p < 48 ∧ (s.link p).up = true ∧ (s.link p).txMask &&& unitWaves u ≠ 0 → LinkNarrows (s.link p) (t.link p) (unitWaves u)) ∧
        (¬(32 ≤ p ∧ p < 48 ∧ (s.link p).up = true ∧ (s.link p).txMask &&& unitWaves u ≠ 0) → t.link p = s.link p))) ∧
  (∀ (s : State) (k : BitVec 4) (v : Word),
    (k.toNat ≤ 11 → (∀ c, c < 32 → wordBits v (2 * c + 1) (2 * c) ≠ 3) →
      ∃ t, exec (.mrateWrite k v) s = .next t ∧ t.preg (0x510 + k.toNat) = v.toNat ∧ RegistersBut [0x510 + k.toNat, 0x520 + k.toNat] s t ∧
        t.tasks = s.tasks ∧ SameMemory s t ∧ t.ms.rate = s.ms.rate ∧
        ∀ c, c < 32 → (bit (t.preg (0x520 + k.toNat)) c = (bit (s.preg (0x520 + k.toNat)) c ||
            decide (wordBits v (2 * c + 1) (2 * c) ≠ tget 0 s.ms.rate (32 * k.toNat + c)))) ∧
          (bit (s.preg (0x520 + k.toNat)) c = false → wordBits v (2 * c + 1) (2 * c) ≠ tget 0 s.ms.rate (32 * k.toNat + c) →
            tget 0 t.ms.target (32 * k.toNat + c) = wordBits v (2 * c + 1) (2 * c))) ∧
    (11 < k.toNat ∨ (∃ c, c < 32 ∧ wordBits v (2 * c + 1) (2 * c) = 3) → exec (.mrateWrite k v) s = .next s)) ∧
  (∀ (s : State) (i : BitVec 6) (v : Word) (gone : Rec → Prop),
    (∀ r, gone r ↔ r.key.toNat / 2 ^ 58 = i.toNat ∧ (s.preg (0x600 + i.toNat)).testBit (r.key.toNat / 2 ^ 52 % 64) = true ∧
      v.getLsbD (r.key.toNat / 2 ^ 52 % 64) = false) →
    ∃ t, exec (.podmapWrite i v) s = .next t ∧ t.preg (0x600 + i.toNat) = v.toNat ∧ RegistersBut [0x600 + i.toNat, 0x201, 0x202, 0x220] s t ∧
      t.tasks = s.tasks ∧ (∀ r, r ∈ t.inbound ∨ r ∈ t.outbound → ¬gone r) ∧
      (∀ a, (∀ r ∈ t.inbound, a ∉ s.apronBytes 0x211 r) → rdByte t.mem a = rdByte s.mem a) ∧
      (s.bnd.phase = .idle → RegistersBut [0x600 + i.toNat] s t ∧ SameMemory s t ∧
        (∀ r out, out = (decide (r / 64 = i.toNat) && (s.preg (0x600 + i.toNat)).testBit (r % 64) && !v.getLsbD (r % 64)) →
          tget 0 t.bnd.granted r = (if out then 0 else tget 0 s.bnd.granted r) ∧ tget 0 t.bnd.credits r = if out then 0 else tget 0 s.bnd.credits r) ∧ (∀ r, r ∈ t.inbound ↔ r ∈ s.inbound ∧ ¬gone r) ∧
        ∀ r, r ∈ t.outbound ↔ r ∈ s.outbound ∧ ¬gone r)) ∧
  (∀ (s : State) (r : BitVec 12), ∃ t, exec (.deadset r) s = .next t ∧ (t.preg (0x640 + r.toNat / 64)).testBit (r.toNat % 64) = true ∧
    (∀ b, b ≠ r.toNat % 64 → (t.preg (0x640 + r.toNat / 64)).testBit b = (s.preg (0x640 + r.toNat / 64)).testBit b) ∧
    RegistersBut [0x640 + r.toNat / 64] s t ∧ SameMemory s t ∧ (∀ x ∈ t.fab.txns, x.pkt.drank ≠ r) ∧ (∀ x ∈ t.fab.unsent, x.pkt.drank ≠ r) ∧
    (s.fab.unsent = [] → ∀ x ∈ t.fab.txns, x ∈ s.fab.txns)) ∧
  (∀ (s : State) (v : Word) (la size : Nat), size = bits (s.preg 0x709) 39 0 →
    (s.host.fuseAdvanced = false ∨ s.host.tcZeroed = true → ∃ t, exec (.tcbaseWrite v) s = .next t ∧ RegisterTakes s t 0x708 0xFFFFFFFFFFFFF v) ∧
    (s.host.fuseAdvanced = true → s.host.tcZeroed = false → size ≠ 0 → s.rank * 2 ^ 40 + la = wordBits v 51 0 → la + size ≤ memLimit →
      ∃ t, exec (.tcbaseWrite v) s = .next t ∧ t.host.tcZeroed = true ∧ RegistersBut [0x708] s t ∧ t.tasks = s.tasks ∧
        ∀ a, rdByte t.mem a = if la ≤ a ∧ a < la + size then 0 else rdByte s.mem a))

/-! ## The management core and the host -/

/-- R404, R408, R409, R412: KSCMD_LOAD starts a load of COUNT bundles from FIRST, refused where the range leaves the kernel store and ignored
while one runs. KERNEL_STORE_COPY waits for every running kernel, then copies the bundles of a load with no cause of refusal and reports
STATE 2, or leaves the kernel store as it was, reports STATE 3 with one of the causes and posts CODE_REFUSED. The causes of a verified
load are those of R409. ATT_REPORT, with no load running, writes the 320 bytes of the report on the nonce at BUF to BUF and sets ATTSTAT
2; while a load runs it is kept with ATTSTAT 1. ATT_CERTIFICATE writes the certificate. A BUF that is not memory of the package gives
ATTSTAT 3. No byte outside them changes. That a BUF which is no memory, or a nonce that cannot be read, gives ATTSTAT 3, and that a report
waits for a load, are the model's readings (log 13); which of several causes is reported is open (log 12). -/
def Obligations.KernelLoadsAndAttestations : Prop :=
  (∀ (s : State) (v : Word),
    (1 ≤ wordBits v 26 13 → wordBits v 26 13 ≤ 8192 → wordBits v 12 0 + wordBits v 26 13 ≤ 8192 →
      (s.ksload = none → ∃ t, exec (.kscmdLoad v) s = .next t ∧ t.preg 0x706 = 1 ∧ RegistersBut [0x706] s t ∧
        t.ksload = some { first := wordBits v 12 0, count := wordBits v 26 13, verify := v.getLsbD 27 } ∧
        { t with pregs := s.pregs, ksload := s.ksload } = s) ∧
      (s.ksload ≠ none → exec (.kscmdLoad v) s = .next s)) ∧
    (wordBits v 26 13 = 0 ∨ 8192 < wordBits v 26 13 ∨ 8192 < wordBits v 12 0 + wordBits v 26 13 → exec (.kscmdLoad v) s = .next s)) ∧
  (∀ (s : State) (l : KsLoad), s.ksload = some l →
    (s.kernelOn = true → exec .kernelStoreCopy s = .next s) ∧
    (s.kernelOn = false → s.host.attBusy = [] →
      ∃ t, exec .kernelStoreCopy s = .next t ∧ t.ksload = none ∧ t.tasks = s.tasks ∧ (∀ a, rdByte t.mem a = rdByte s.mem a) ∧
        ((s.readLoad l).causes = [] → t.preg 0x706 = 2 ∧ ∀ j, tget 0 t.kstore j = if l.first ≤ j ∧ j < l.first + l.count then
          BitVec.ofNat 256 (leNat (slice (s.readLoad l).bytes (32 * (j - l.first)) 32)) else tget 0 s.kstore j) ∧
        ((s.readLoad l).causes ≠ [] → t.kstore = s.kstore ∧ ∃ c ∈ (s.readLoad l).causes, t.preg 0x706 = (3 + c * 256) % 2 ^ 64 ∧
          Posted (s.readLoad l).s t 0x0045 1 0xFFFF [(0x18, c), (0x19, (s.readLoad l).secver % 256), (0x1A, s.preg 0x701),
            (0x20, bits (s.preg 0x704) 51 0)])) ∧
    (∀ la, s.rank * 2 ^ 40 + la = bits (s.preg 0x704) 51 0 → (∀ u, tget 0 s.ms.ecc u ≠ 2) →
      (l.verify = false → la + 32 * l.count ≤ memLimit → (s.readLoad l).bytes = rdBytes s.mem (addrs la (32 * l.count)) ∧
        ∀ c, c ∈ (s.readLoad l).causes ↔ c = 3 ∧ ∃ e ∈ s.tasks, e.2.ksaved = true) ∧
      (∀ h body key k lk, l.verify = true → h = rdBytes s.mem (addrs la 128) → body = rdBytes s.mem (addrs la (recField h 0x18 8)) →
        key = bits (s.preg 0x70A) 51 0 → k = rdBytes s.mem (addrs lk 57) → (key ≠ 0 → s.rank * 2 ^ 40 + lk = key ∧ lk + 57 ≤ memLimit) →
        la + 128 ≤ memLimit → la + recField h 0x18 8 ≤ memLimit → la + recField h 0x20 8 + 32 * l.count ≤ memLimit →
        (s.readLoad l).secver = recField h 8 4 ∧ (s.readLoad l).bytes = rdBytes s.mem (addrs (la + recField h 0x20 8) (32 * l.count)) ∧
        ∀ c, c ∈ (s.readLoad l).causes ↔
          (c = 1 ∧ key ≠ 0 ∧ Config.ed448Verify k (digest 64 (body.take (recField h 0x18 8 - 128)))
            (slice body (recField h 0x18 8 - 128) 114) = false) ∨
          (c = 2 ∧ recField h 8 4 < s.preg 0x701) ∨ (c = 3 ∧ ∃ e ∈ s.tasks, e.2.ksaved = true) ∨ (c = 6 ∧ key = 0) ∨
          (c = 4 ∧ (recField h 0 4 ≠ 0x41464341 ∨ recField h 4 2 ≠ 1 ∨ recField h 7 1 ≠ 6 ∨ (∃ b ∈ slice h 0x2C 4, b ≠ 0) ∨
            (∃ b ∈ slice h 0x38 72, b ≠ 0) ∨ recField h 0x28 4 ≠ l.count))))) ∧
  (∀ s : State, s.ksload = none → exec .kernelStoreCopy s = .next s) ∧
  (∀ (s : State) (buf : BitVec 52) (la : Nat) (b : List Byte), s.rank * 2 ^ 40 + la = buf.toNat / 64 * 64 → la + 1024 ≤ memLimit →
    (∀ u, tget 0 s.ms.ecc u ≠ 2) →
    b = leBytes 8 devid ++ leBytes 1 (s.preg 0x701) ++ leBytes 1 (bits (s.preg 0x700) 15 8) ++ List.replicate 6 0 ++
      rdBytes s.mem (addrs la 32) ++ digest 64 s.host.fwBody ++
      digest 64 ((List.range 8192).flatMap (fun i => leBytes 32 (tget 0 s.kstore i).toNat)) ++ List.replicate 16 0 →
    (s.ksload = none → ∃ t, exec (.attReport buf) s = .next t ∧ t.preg 0x711 = 2 ∧ t.tasks = s.tasks ∧ RegistersBut [0x711, 0x220] s t ∧
      rdBytes t.mem (addrs la 320) = b ++ padTo 114 ((Config.identitySign (digest 64 b)).take 114) ++ List.replicate 14 0 ∧
      (∀ a, a < la ∨ la + 320 ≤ a → rdByte t.mem a = rdByte s.mem a) ∧ ∀ a, rdByte t.hmem a = rdByte s.hmem a) ∧
    (∃ t, exec (.attCertificate buf) s = .next t ∧ t.preg 0x711 = 2 ∧ t.tasks = s.tasks ∧
      rdBytes t.mem (addrs la (Config.certificate.take 1024).length) = Config.certificate.take 1024 ∧
      (∀ a, a < la ∨ la + 1024 ≤ a → rdByte t.mem a = rdByte s.mem a) ∧ ∀ a, rdByte t.hmem a = rdByte s.hmem a)) ∧
  (∀ (s : State) (buf : BitVec 52),
    (s.ksload ≠ none → ∃ t, exec (.attReport buf) s = .next t ∧ t.preg 0x711 = 1 ∧ RegistersBut [0x711] s t ∧
      t.host.attBusy = s.host.attBusy ++ [buf.toNat / 64 * 64] ∧ t.tasks = s.tasks ∧ SameMemory s t) ∧
    (buf.toNat / 2 ^ 40 ≠ s.rank → s.ksload = none → ∃ t, exec (.attReport buf) s = .next t ∧ t.preg 0x711 = 3 ∧ RegistersBut [0x711] s t ∧
      { t with pregs := s.pregs } = s))

/-- R405 to R407, R413 to R416: POWER_ON of a package that has not been started takes the firmware's values and boots its flash;
SIDEBAND_IMAGE_PUSH boots the pushed image of a package that awaits one. An image that passes its check raises SVFUSE to its security
version, starts refresh with MTEMP at the hottest layer of each stack, takes the fused gnoums out, binds logical gnoum 48 d + k to the
k-th good one of die d and brings the package to STAGE 7 with admission on, its links trained and its lasers lit; where a die has too few
good gnoums it stops at 14, which the sideband tells; an image that fails leaves STAGE 15. SIDEBAND_FLASH_REWRITE replaces the flash of a
running package. AGEING_CHECK of a ready package plans the die's margin and posts AGE_PLAN, and the supply follows its plan in steps of at
most 10 mV (one step for each step of the machine is the model's reading, log 46). None of them changes a task or a byte of the package's
memory. At which stages the rows act is the model's reading (log 40). -/
def Obligations.BringUpAndAgeing : Prop :=
  (∀ (s : State) (im : List Byte) (rank : BitVec 12) (inc : BitVec 4) (ptdir svecdef : Word) (i : Instr) (good : Prop),
    (i = .powerOn rank inc ptdir svecdef ∧ s.stage = 0 ∧ im = s.host.flash) ∨ (i = .sidebandImagePush im ∧ s.stage = 15) →
    (good ↔ ∀ d, d < 4 → 48 ≤ ((List.range 52).filter (fun k => !Config.fusedOut (64 * d + k) &&
      !(tget PhysG.idle s.disp.physG (64 * d + k)).fused)).length) →
    ∃ t, exec i s = .next t ∧ t.tasks = s.tasks ∧ t.mem = s.mem ∧
      (s.imageOk im = false → t.stage = 15 ∧ t.preg 0x701 = s.preg 0x701) ∧
      (s.imageOk im = true → (good → t.stage = 7) ∧ (¬good → t.stage = 14) ∧ t.preg 0x701 = max (s.preg 0x701) (recField im 4 4) ∧
        t.host.fwBody = imageBody im ∧ bits (t.preg 0x700) 15 8 = recField im 4 4 ∧
        t.host.fuseAdvanced = decide (s.preg 0x701 < recField im 4 4) ∧ t.host.tcZeroed = false ∧ t.ms.refreshing = true ∧
        (∀ k, k < 12 → (∀ j, j < 16 → tget 0 t.ms.temp (16 * k + j) ≤ bits (t.preg (0x540 + k)) 7 0) ∧
          tget 0 t.ms.temp (16 * k + bits (t.preg (0x540 + k)) 11 8) = bits (t.preg (0x540 + k)) 7 0) ∧
        (∀ pg, pg < 256 → pg % 64 < 52 → (tget PhysG.idle t.disp.physG pg).fused = (Config.fusedOut pg ||
          (tget PhysG.idle s.disp.physG pg).fused)) ∧
        ∀ lg pg, lg < 192 → (tfind t.disp.bound lg = some pg ↔ pg / 64 = lg / 48 ∧ pg % 64 < 52 ∧ Config.fusedOut pg = false ∧
          ((List.range (pg % 64)).filter (fun k => !Config.fusedOut (64 * (pg / 64) + k))).length = lg % 48)) ∧
      (s.imageOk im = true → good → bit (t.preg 0x340) 0 = true ∧ bits (t.preg 0x688) 3 0 = 15 ∧ t.host.planned = true ∧
        ∀ p, (s.link p).up = false → Config.trained p = true →
          (p < 31 → t.link p = { Link.down with up := true, txMask := 0xFFFF, rxMask := 0xFFFF, replayed := (s.link p).replayed }) ∧
          (32 ≤ p → p < 48 → t.portUsed (p - 32) = true → wavesOf t.lit ≠ 0 → Config.peerUnits p ≠ 0 →
            t.link p = { Link.down with up := true, txMask := wavesOf t.lit, rxMask := wavesOf (fun u => (Config.peerUnits p).getLsbD u),
                                        replayed := (s.link p).replayed })) ∧
      (t.stage = 14 → t.host.sideband = s.host.sideband ++ [14]) ∧
      (i = .powerOn rank inc ptdir svecdef → t.preg 0x002 = rank.toNat ∧ t.preg 0x682 = inc.toNat ∧
        (∀ b, 19 ≤ b → b < 52 → (t.preg 0x400).testBit b = ptdir.getLsbD b) ∧
        ∀ b, 6 ≤ b → b < 64 → (t.preg 0x216).testBit b = svecdef.getLsbD b)) ∧
  (∀ (s : State) (im : List Byte), s.imageOk im = true ↔
    recField im 0 4 = 0x41464657 ∧ 1 ≤ recField im 4 4 ∧ recField im 4 4 ≤ 64 ∧ s.preg 0x701 ≤ recField im 4 4 ∧
    256 + recField im 8 8 ≤ im.length ∧ (∀ b ∈ slice im 0x18 0x28, b = 0) ∧ (∀ b ∈ slice im 0xB2 6, b = 0) ∧
    (∀ b ∈ slice im 0xF1 15, b = 0) ∧ digest 32 (slice im 0xB8 57) = Config.romKeyDigest ∧
    Config.ed448Verify (slice im 0xB8 57) (digest 64 (slice im 256 (recField im 8 8))) (slice im 0x40 114) = true) ∧
  (∀ (s : State) (im : List Byte) (rank : BitVec 12) (inc : BitVec 4) (ptdir svecdef : Word),
    (s.stage ≠ 0 → exec (.powerOn rank inc ptdir svecdef) s = .next s) ∧ (s.stage ≠ 15 → exec (.sidebandImagePush im) s = .next s) ∧
    (s.stage ≠ 0 → s.stage ≠ 15 → exec (.sidebandFlashRewrite im) s = .next { s with host := { s.host with flash := im } }) ∧
    (s.stage = 0 ∨ s.stage = 15 → exec (.sidebandFlashRewrite im) s = .next s)) ∧
  (∀ (s : State) (die : BitVec 2) (mv slack : BitVec 16) (starved : Bool),
    (s.stage = 7 → ∃ t, exec (.ageingCheck die mv slack starved) s = .next t ∧
      (∀ d, tget 0 t.host.plans d = if d = die.toNat then mv.toNat else tget 0 s.host.plans d) ∧ t.host.planned = true ∧
      t.host.margins = s.host.margins ∧ t.tasks = s.tasks ∧ t.mem = s.mem ∧
      ((∀ e ∈ s.host.plans, e.2 < 2 ^ 16) → (∀ d, tget 0 t.host.plans d ≤ t.preg 0x720) ∧
        (t.preg 0x720 = 0 ∨ ∃ e ∈ t.host.plans, e.2 = t.preg 0x720)) ∧
      RegistersBut [0x201, 0x202, 0x720] s t ∧ Posted s t 0x0044 (if starved then 2 else 0) 0xFFFF
        [(0x18, die.toNat), (0x1A, tget 0 s.host.plans die.toNat), (0x1C, mv.toNat), (0x1E, slack.toNat)]) ∧
    (s.stage ≠ 7 → exec (.ageingCheck die mv slack starved) s = .next s)) ∧
  (∀ (s : State) (d plan old new : Nat), d < 4 → plan = tget 0 s.host.plans d → old = tget 0 s.host.margins d →
    new = tget 0 s.stepMargins.host.margins d → { s.stepMargins with host := s.host } = s ∧
    (old ≤ plan → old ≤ new ∧ new ≤ plan ∧ new ≤ old + 10 ∧ (plan ≤ old + 10 → new = plan) ∧ (old + 10 ≤ plan → new = old + 10)) ∧
    (plan ≤ old → plan ≤ new ∧ new ≤ old ∧ old ≤ new + 10 ∧ (old ≤ plan + 10 → new = plan) ∧ (plan + 10 ≤ old → new + 10 = old)))

/-- R401 to R403: a host access of 8 aligned bytes through BAR0 reads or writes the register of its number; a read below offset 0x1000 is
zero, of any size, and a write there is ignored; an access through BAR2 reads or writes bytes of the slice that HMWIN selects, and no
others, a write once the write queues have room for all its units; a window that does not respond changes nothing. UCIE_MODULE_FAIL takes
the module out and posts HOST_LINK. MSIX_HOLDOFF_EXPIRY raises the vector again only if a record came since. From which stage on a window
responds is the model's reading (log 41). -/
def Obligations.HostAccessesAndLink : Prop :=
  (∀ (s : State) (off : BitVec 16) (len : Nat) (bs : List Byte), s.windowsOn = true → 2 ≤ s.stage →
    (off.toNat + len ≤ 0x1000 → ∃ t, exec (.hostBar0Access off (.read len)) s = .next t ∧ t.host.rdata = List.replicate len 0 ∧
      { t with host := { t.host with rdata := s.host.rdata } } = s) ∧
    (off.toNat < 0x1000 → exec (.hostBar0Access off (.write bs)) s = .next s)) ∧
  (∀ (s : State) (off : BitVec 16) (n : Nat), s.windowsOn = true → 2 ≤ s.stage → off.toNat = 8 * n → 0x200 ≤ n →
    (packageReg n = true → (n ≠ 0x720 ∨ s.host.planned = false) → ∃ t v, exec (.hostBar0Access off (.read 8)) s = .next t ∧
      t.host.rdata = leBytes 8 v.toNat ∧ PackageReads s n v ∧ { t with host := { t.host with rdata := s.host.rdata } } = s) ∧
    (∀ bs, bs.length = 8 →
      (∀ t, packageReg n = true → s.writePackage n (BitVec.ofNat 64 (leNat bs)) = .done t → exec (.hostBar0Access off (.write bs)) s = .next t) ∧
      (packageReg n = true → s.writePackage n (BitVec.ofNat 64 (leNat bs)) = .bounds → exec (.hostBar0Access off (.write bs)) s = .next s) ∧
      (packageReg n = false → exec (.hostBar0Access off (.write bs)) s = .next s))) ∧
  (∀ (s : State) (off : BitVec 36) (la : Nat), s.windowsOn = true → 3 ≤ s.stage → la = bits (s.preg 0x702) 3 0 * 2 ^ 36 + off.toNat →
    (∀ len, off.toNat + len ≤ 2 ^ 36 → (∀ a, la ≤ a → a < la + len → s.badUnit (a / 64) = false) →
      ∃ t, exec (.hostBar2Access off (.read len)) s = .next t ∧ t.host.rdata = rdBytes s.mem (addrs la len) ∧ t.tasks = s.tasks ∧
        SameMemory s t ∧ SameRegisters s t) ∧
    (∀ bs : List Byte, off.toNat + bs.length ≤ 2 ^ 36 → (∀ a, la ≤ a → a < la + bs.length → s.badUnit (a / 64) = false) →
      s.roomFor (unitsOf (addrs la bs.length)) = true →
      ∃ t, exec (.hostBar2Access off (.write bs)) s = .next t ∧ rdBytes t.mem (addrs la bs.length) = bs ∧ t.tasks = s.tasks ∧
        (∀ a, a < la ∨ la + bs.length ≤ a → rdByte t.mem a = rdByte s.mem a) ∧ SameRegisters s t ∧
        ∀ a, rdByte t.hmem a = rdByte s.hmem a)) ∧
  (∀ (s : State) (o0 : BitVec 16) (o2 : BitVec 36) (op : HostOp),
    (s.windowsOn = false ∨ s.stage < 2 → exec (.hostBar0Access o0 op) s = .next s) ∧
    (s.windowsOn = false ∨ s.stage < 3 → exec (.hostBar2Access o2 op) s = .next s)) ∧
  (∀ (s : State) (m : BitVec 2),
    (s.host.modules.getLsbD m.toNat = true → ∃ t, exec (.ucieModuleFail m) s = .next t ∧
      (∀ j, t.host.modules.getLsbD j = (s.host.modules.getLsbD j && decide (j ≠ m.toNat))) ∧
      Posted s t 0x0046 1 0xFFFF [(0x18, t.host.modules.toNat)] ∧ t.tasks = s.tasks ∧ t.mem = s.mem ∧ RegistersBut [0x201, 0x202] s t) ∧
    (s.host.modules.getLsbD m.toNat = false → exec (.ucieModuleFail m) s = .next s)) ∧
  (∀ s : State,
    (s.host.holdoff = true → s.host.irqPending = true → exec .msixHoldoffExpiry s =
      .next { s with host := { s.host with holdoff := true, irqPending := false, raised := s.host.raised + 1 } }) ∧
    (s.host.holdoff = true → s.host.irqPending = false → exec .msixHoldoffExpiry s = .next { s with host := { s.host with holdoff := false } }) ∧
    (s.host.holdoff = false → exec .msixHoldoffExpiry s = .next s))

/-! ## The memory system -/

/-- R373 to R378: TEMP_SAMPLE takes a layer's temperature, asks for the refresh state of R373 with its 2 °C of hysteresis from the state
asked for last, and throttles the stack above 105 °C until every layer is at or below 103 °C, in between leaving it as it was; REFRESH_COMMAND,
once refresh has started, resets the counters of the rows it refreshes and takes the asked state; one that falls due while the channel switches
its rate is held, and RATE_SWITCH_COMPLETE, which takes the target, issues it at once (R374); ROW_PRECHARGE, during a switch too, counts, or
resets a saturated counter and posts MEM_ACTSAT (that the neighbours' counters stay is the model's reading, log 37); PATROL_SCRUB corrects or
reports a unit, but not while its channel switches. None changes a byte of memory. -/
def Obligations.MemorySystemActs : Prop :=
  (∀ (s : State) (k l : BitVec 4) (temp : BitVec 8) (old due : Nat), k.toNat ≤ 11 → (∀ j, tget 0 s.ms.temp j < 256) →
    old = (tfind s.ms.refreshDue (16 * k.toNat + l.toNat)).getD (tget 0 s.ms.refresh (16 * k.toNat + l.toNat)) → old ≤ 2 →
    ∃ t, exec (.tempSample k l temp) s = .next t ∧ t.mem = s.mem ∧ t.tasks = s.tasks ∧
      (∀ j, tget 0 t.ms.temp j = if j = 16 * k.toNat + l.toNat then temp.toNat else tget 0 s.ms.temp j) ∧
      tfind t.ms.refreshDue (16 * k.toNat + l.toNat) = some (tget 0 t.ms.refreshDue (16 * k.toNat + l.toNat)) ∧
      (due = tget 0 t.ms.refreshDue (16 * k.toNat + l.toNat) → (95 < temp.toNat → due = 2) ∧ (temp.toNat ≤ 83 → due = 0) ∧
        (85 < temp.toNat → temp.toNat ≤ 95 → old ≤ 1 → due = 1) ∧ (83 < temp.toNat → temp.toNat ≤ 93 → old = 2 → due = 1) ∧
        (93 < temp.toNat → old = 2 → due = 2) ∧ (83 < temp.toNat → temp.toNat ≤ 85 → old ≤ 1 → due = old)) ∧
      (∀ j, j < 16 → tget 0 t.ms.temp (16 * k.toNat + j) ≤ bits (t.preg (0x540 + k.toNat)) 7 0) ∧
      tget 0 t.ms.temp (16 * k.toNat + bits (t.preg (0x540 + k.toNat)) 11 8) = bits (t.preg (0x540 + k.toNat)) 7 0 ∧
      RegistersBut [0x540 + k.toNat, 0x201, 0x202] s t ∧
      ((∃ j, j < 16 ∧ 105 < tget 0 t.ms.temp (16 * k.toNat + j)) → tget false t.ms.thr k.toNat = true) ∧
      ((∀ j, j < 16 → tget 0 t.ms.temp (16 * k.toNat + j) ≤ 103) → tget false t.ms.thr k.toNat = false) ∧
      ((∀ j, j < 16 → tget 0 t.ms.temp (16 * k.toNat + j) ≤ 105) → (∃ j, j < 16 ∧ 103 < tget 0 t.ms.temp (16 * k.toNat + j)) →
        tget false t.ms.thr k.toNat = tget false s.ms.thr k.toNat) ∧
      (∀ j, j ≠ k.toNat → tget false t.ms.thr j = tget false s.ms.thr j) ∧
      (tget false t.ms.thr k.toNat ≠ tget false s.ms.thr k.toNat → bit (t.preg (0x540 + k.toNat)) 12 = tget false t.ms.thr k.toNat ∧
        Posted s t 0x0032 1 0xFFFF [(0x18, k.toNat), (0x19, l.toNat), (0x1A, temp.toNat), (0x1B, (tget false t.ms.thr k.toNat).toNat)]) ∧
      (tget false t.ms.thr k.toNat = tget false s.ms.thr k.toNat → bit (t.preg (0x540 + k.toNat)) 12 = bit (s.preg (0x540 + k.toNat)) 12 ∧
        t.hmem = s.hmem)) ∧
  (∀ (s : State) (ch : Nat) (bank : BitVec 5) (first count : BitVec 16), ch < 384 → s.ms.refreshing = true → s.rateBusy ch = false →
    ∃ t, exec (.refreshCommand ch bank first count) s = .next t ∧ t.tasks = s.tasks ∧ SameMemory s t ∧ RegistersBut [0x530 + ch / 32] s t ∧
      (∀ r, first.toNat ≤ r → r < first.toNat + count.toNat → r < 65536 → tget 0 t.ms.act (rowKey ch bank.toNat r) = 0) ∧
      (∀ j, (∀ r, first.toNat ≤ r → r < first.toNat + count.toNat → r < 65536 → j ≠ rowKey ch bank.toNat r) →
        tget 0 t.ms.act j = tget 0 s.ms.act j) ∧
      (∀ st, tfind s.ms.refreshDue (layerKey (ch / 32) (ch % 32 / 2)) = some st → tget 0 t.ms.refresh (layerKey (ch / 32) (ch % 32 / 2)) = st ∧
        bits (t.preg (0x530 + ch / 32)) (2 * (ch % 32 / 2) + 1) (2 * (ch % 32 / 2)) = st % 4)) ∧
  (∀ (s : State) (ch : Nat) (bank : BitVec 5) (row : BitVec 16) (key : Nat) (bad : Bool), ch < 384 → key = rowKey ch bank.toNat row.toNat →
    bad = tget false s.ms.actBad key →
    (tget 0 s.ms.act key + 1 < bits (s.preg 0x500) 11 0 → bad = false →
      ∃ t, exec (.rowPrecharge ch bank row) s = .next t ∧ (∀ j, tget 0 t.ms.act j = if j = key then tget 0 s.ms.act key + 1 else tget 0 s.ms.act j) ∧
        { t with ms := { t.ms with act := s.ms.act } } = s) ∧
    (bits (s.preg 0x500) 11 0 ≤ tget 0 s.ms.act key + 1 ∨ bad = true →
      ∃ t, exec (.rowPrecharge ch bank row) s = .next t ∧ (∀ j, tget 0 t.ms.act j = if j = key then 0 else tget 0 s.ms.act j) ∧
        tget false t.ms.actBad key = false ∧ t.mem = s.mem ∧ t.tasks = s.tasks ∧
        (tget false s.ms.posted (ch * 32 + bank.toNat) = false → Posted s t 0x0030 0 0xFFFF
          [(0x18, ch / 32), (0x1A, ch % 32), (0x1C, bank.toNat), (0x1E, row.toNat), (0x20, bad.toNat)]))) ∧
  (∀ (s : State) (u : Nat), 64 * u + 64 ≤ memLimit → bits (s.preg 0x501) 23 0 ≠ 0 → s.rateBusy (channelOf (64 * u)) = false →
    (s.badUnit u = true → ∃ t, exec (.patrolScrub u) s = .next t ∧ t.ms = s.ms ∧ t.mem = s.mem ∧ t.tasks = s.tasks ∧
      ∃ syn < 2 ^ 64, Posted s t 0x0001 2 0xFFFF
        [(0x18, 0), (0x20, s.rank * 2 ^ 40 + 64 * u), (0x28, 0xFF * 256), (0x30, 0), (0x38, syn)]) ∧
    (s.ms.wq.contains u = false → tget 0 s.ms.ecc u = 1 → ∃ t, exec (.patrolScrub u) s = .next t ∧ t.mem = s.mem ∧ t.tasks = s.tasks ∧
      (∀ j, tget 0 t.ms.ecc j = if j = u then 0 else tget 0 s.ms.ecc j) ∧ t.preg 0x220 = (s.preg 0x220 + 1) % 2 ^ 64 ∧ RegistersBut [0x220] s t) ∧
    (tget 0 s.ms.ecc u = 0 → exec (.patrolScrub u) s = .next s)) ∧
  (∀ (s : State) (ch u : Nat) (bank : BitVec 5) (first count : BitVec 16), ch = channelOf (64 * u) →
    (s.rateBusy ch = true ∨ bits (s.preg 0x501) 23 0 = 0 → exec (.patrolScrub u) s = .next s) ∧
    (s.ms.refreshing = false → exec (.refreshCommand ch bank first count) s = .next s)) ∧
  (∀ (s : State) (ch : Nat) (bank : BitVec 5) (first count : BitVec 16), ch < 384 → s.ms.refreshing = true → s.rateBusy ch = true →
    ∃ t, exec (.refreshCommand ch bank first count) s = .next t ∧ { t with ms := { t.ms with held := s.ms.held } } = s ∧
      t.ms.held = s.ms.held ++ [{ ch := ch, bank := bank.toNat, first := first.toNat, count := count.toNat }]) ∧
  (∀ (s : State) (ch : Nat) (stall : BitVec 32) (new : Nat), new = tget 0 s.ms.target ch →
    (ch < 384 → s.rateBusy ch = true → stall.toNat ≤ 1500 →
      ∃ t, exec (.rateSwitchComplete ch stall) s = .next t ∧ (∀ j, tget 0 t.ms.rate j = if j = ch then new else tget 0 s.ms.rate j) ∧
        t.rateBusy ch = decide (s.rateTarget ch ≠ new) ∧ t.mem = s.mem ∧ t.tasks = s.tasks ∧
        RegistersBut [0x520 + ch / 32, 0x530 + ch / 32, 0x201, 0x202] s t ∧ (∀ c, c ∈ t.ms.held ↔ c ∈ s.ms.held ∧ c.ch ≠ ch) ∧
        (∀ j, (∃ c ∈ s.ms.held, c.ch = ch ∧ ∃ r, c.first ≤ r ∧ r < c.first + c.count ∧ r < 65536 ∧ j = rowKey ch c.bank r) → tget 0 t.ms.act j = 0) ∧
        (∀ j, (∀ c ∈ s.ms.held, c.ch = ch → ∀ r, c.first ≤ r → r < c.first + c.count → r < 65536 → j ≠ rowKey ch c.bank r) →
          tget 0 t.ms.act j = tget 0 s.ms.act j) ∧
        ((∃ c ∈ s.ms.held, c.ch = ch) → ∀ st, tfind s.ms.refreshDue (layerKey (ch / 32) (ch % 32 / 2)) = some st →
          tget 0 t.ms.refresh (layerKey (ch / 32) (ch % 32 / 2)) = st) ∧
        ((∀ c ∈ s.ms.held, c.ch ≠ ch) → t.preg (0x530 + ch / 32) = s.preg (0x530 + ch / 32)) ∧
        Posted s t 0x0031 0 0xFFFF [(0x18, ch), (0x1A, tget 0 s.ms.rate ch), (0x1B, new), (0x1C, stall.toNat)]) ∧
    (384 ≤ ch ∨ s.rateBusy ch = false ∨ 1500 < stall.toNat → exec (.rateSwitchComplete ch stall) s = .next s))

/-! ## Boundaries -/

/-- R121 to R124, R136, R389: TREE_ARR, TREE_DRN and TREE_CMT of the current step are counted: a member's by the leader of its group, under
its rank; a leader's by the root, with its bitmap; QUIESCE counts in ARR alone, and the root's watchdog runs. With its group complete a
leader tells the root; with the pod's only group complete, a root that leads it alone goes on to the next phase, but not past the arrived phase
in its own kernel cut (R348), and after a QUIESCE it withholds REL until every member has resumed (R347; of other members it cannot tell, log
2). A package with no task to wait for arrives when TREE_ARR tells it of the boundary. A message of another step changes
nothing. No task, register or byte of memory changes. How a package that leads no group learns of it is the model's reading (log 43). -/
def Obligations.ReportsAreCounted : Prop :=
  (∀ (s : State) (p : Packet) (ph : Nat) (i : Instr) (own : BitVec 32), s.receive p = (some s, s) → s.current p = true →
    (i = .treeArr p ∧ ph = 0 ∧ s.bnd.sentArr = true) ∨ (i = .treeDrn p ∧ ph = 2) ∨ (i = .treeCmt p ∧ ph = 4) →
    own = s.bnd.lead ph ||| 1#32 <<< (p.srank.toNat % 32) →
    (∃ t, exec i s = .next t ∧ t.tasks = s.tasks ∧ SameMemory s t ∧ t.pregs = s.pregs ∧ t.bnd.phase = s.bnd.phase ∧
      (s.isRoot = true → t.bnd.watchdog = true) ∧ t.bnd.quiesceSeen = (s.bnd.quiesceSeen || (decide (ph = 0) && Packet.quiesce p)) ∧
      (p.srank.toNat / 32 = s.rank / 32 → t.bnd.lead ph = own) ∧
      (p.srank.toNat / 32 ≠ s.rank / 32 →
        tget 0 (t.bnd.roots ph) (p.srank.toNat / 32) = tget 0 (s.bnd.roots ph) (p.srank.toNat / 32) ||| Packet.bitmap p)) ∧
    (∀ r, s.isLeader = true → s.isRoot = false → s.root = some r → p.srank.toNat / 32 = s.rank / 32 → s.groupFull (s.rank / 32) own = true →
      ∃ t, exec i s = .next t ∧
        Sent s t (s.treePacket r ph (decide (ph = 0) && (s.bnd.quiesceSeen || Packet.quiesce p)) own)) ∧
    (s.podGroups = [s.rank / 32] → s.isLeader = true → s.isRoot = true → p.srank.toNat / 32 = s.rank / 32 →
      s.groupFull (s.rank / 32) own = true →
      ((ph = 0 → s.kernelCut = false) → (ph = 4 → s.bnd.quiesceSeen = false ∨ (s.bnd.resumed = true ∧ s.others = [])) →
        ∃ t, exec i s = .next t ∧ t.agenda = s.agenda ++ [
        if ph = 0 then .treeDrain (s.treePacket s.rank 1 false 0) else if ph = 2 then .treeCommit (s.treePacket s.rank 3 false 0)
        else .treeRel (s.treePacket s.rank 5 false 0)]) ∧
      (ph = 0 → s.kernelCut = true → ∃ t, exec i s = .next t ∧ t.agenda = s.agenda) ∧
      (ph = 4 → s.bnd.quiesceSeen = true → s.bnd.resumed = false ∨ s.others ≠ [] → ∃ t, exec i s = .next t ∧
        (t.agenda = s.agenda ∧ t.bnd.withheld = true ∨ (s.bnd.resumed = true ∧ t.bnd.withheld = false ∧
          t.agenda = s.agenda ++ [.treeRel (s.treePacket s.rank 5 false 0)]))))) ∧
  (∀ (s : State) (p : Packet), s.receive p = (some s, s) → s.current p = true → s.member s.rank = true → s.bnd.sentArr = false →
    s.packageArrived = true → s.arrHeld = false →
    ∃ t, exec (.treeArr p) s = .next t ∧ t.bnd.sentArr = true ∧ t.bnd.phase = .arrived ∧ t.tasks = s.tasks ∧ SameMemory s t ∧ t.pregs = s.pregs) ∧
  (∀ (s : State) (p : Packet), s.receive p = (some s, s) → s.current p = false → exec (.treeArr p) s = .next s ∧
    exec (.treeDrn p) s = .next s ∧ exec (.treeCmt p) s = .next s ∧ exec (.treeDrain p) s = .next s ∧ exec (.treeCommit p) s = .next s ∧
    exec (.treeRel p) s = .next s)

/-- R121, R128, R132 to R136, R140 to R143, R369, R389, R390: TREE_DRAIN moves a record of the own package to the inbound apron, whose bytes
alone it writes, sends one for which a credit is held, leaves one without a credit where it is, discards one whose home is dead or no member, and
drains a package with none left at once; not in a kernel cut (R348). TREE_COMMIT applies the records of the closing step in ascending key order: of LAST records the one of the highest key leaves each
byte; a merge class combines what was there with each in turn; of two EXCL records of different sources the one of the lower key stays, with
one STEP_CONFLICT for the page. A read that fails, of a record or of the bytes it is to be merged with, stops the commit with
STEP_COMMIT_ERROR. TREE_REL advances the step, ends every task's arrival and forgets the step's records and no others. The watchdog at the
root writes the bitmap of the members that have not reported and posts STEP_SKEW. The class of a page comes from the home's page
tables, and the apron's places are the model's reading (log 45). -/
def Obligations.BoundariesDrainCommitAndRelease : Prop :=
  (∀ (s : State) (p : Packet), s.receive p = (some s, s) → s.current p = true →
    (s.bnd.phase ≠ .arrived → exec (.treeDrain p) s = .next s) ∧ (s.bnd.phase ≠ .drained → exec (.treeCommit p) s = .next s) ∧
    (s.bnd.phase ≠ .committed → exec (.treeRel p) s = .next s) ∧
    (s.bnd.phase = .arrived → s.kernelCut = true → exec (.treeDrain p) s = .next s) ∧
    (s.bnd.phase = .arrived → s.kernelCut = false → ∃ t, exec (.treeDrain p) s = .next t ∧ t.tasks = s.tasks ∧
      RegistersBut [0x201, 0x202, 0x220] s t ∧ (∀ a, (∀ r ∈ t.inbound, a ∉ s.apronBytes 0x211 r) → rdByte t.mem a = rdByte s.mem a) ∧
      (s.outbound = [] → t.bnd.phase = .drained ∧ t.bnd.sentDrn = true ∧ t.inbound = s.inbound ∧ t.outbound = [] ∧ t.mem = s.mem) ∧
      ∀ r, s.outbound = [r] → r.gen = s.stepNum → r.acked = false → r.sent = false →
        (r.home = s.rank → s.deadPeer s.rank = false → recSize r.data.length ≤ s.inboundFree → (∀ u, s.badUnit u = false) →
          ∃ r', { r' with place := r.place } = r ∧ t.inbound = s.inbound ++ [r'] ∧ ApronTakes s t 0x211 s.inbound [r'] ∧ t.bnd.phase = .drained) ∧
        ((r.home ≠ s.rank ∧ s.member r.home = false) ∨ s.deadPeer r.home = true →
          t.outbound = [] ∧ t.inbound = s.inbound ∧ t.mem = s.mem ∧ t.bnd.phase = .drained) ∧
        (r.home ≠ s.rank → s.member r.home = true → s.deadPeer r.home = false → t.inbound = s.inbound ∧ t.bnd.phase = .draining ∧
          (tget 0 s.bnd.credits r.home = 0 → t.outbound = [r] ∧ t.fab.txns = s.fab.txns ∧ t.fab.unsent = s.fab.unsent) ∧
          (0 < tget 0 s.bnd.credits r.home → t.outbound = [{ r with sent := true }] ∧
            tget 0 t.bnd.credits r.home = tget 0 s.bnd.credits r.home - 1 ∧ ((∀ u, s.badUnit u = false) →
              ∃ x ∈ t.fab.txns ++ t.fab.unsent, x.owner = .record r.key ∧ x.pkt.drank = BitVec.ofNat 12 r.home ∧ x.pkt.type = 2 ∧ x.pkt.data = r.data ∧ x.pkt.body.extractLsb' 0 64 = r.key ∧
              (x.pkt.body.extractLsb' 64 40).toNat = r.addr % 2 ^ 40 ∧
              (1 ≤ r.data.length → r.data.length ≤ 256 → r.addr < 2 ^ 40 → (x.pkt.body.extractLsb' 104 8).toNat + 1 = r.data.length))))) ∧
    (s.bnd.phase = .drained → (∀ u, tget 0 s.ms.ecc u ≠ 2) → ∀ mine : List Rec, mine = s.inbound.filter (fun r => r.gen = s.stepNum) →
      (mine.map (·.key)).Nodup →
      (mine = [] → s.disp.quiesce ≠ .waitStep → ∃ t, exec (.treeCommit p) s = .next t ∧ t.bnd.phase = .committed ∧ t.bnd.sentCmt = true ∧
        t.tasks = s.tasks ∧ SameMemory s t ∧ t.pregs = s.pregs) ∧
      ((∀ r ∈ mine, (s.pageAt r.addr).kind.cls = 1) → ∃ t, exec (.treeCommit p) s = .next t ∧ t.bnd.phase = .committed ∧
        (∀ r, r ∈ t.inbound ↔ r ∈ s.inbound ∧ r.gen ≠ s.stepNum) ∧
        ∀ a, ((∀ r ∈ mine, a < r.addr ∨ r.addr + r.data.length ≤ a) → rdByte t.mem a = rdByte s.mem a) ∧
          ∀ r ∈ mine, r.addr ≤ a → a < r.addr + r.data.length →
            (∀ x ∈ mine, x.addr ≤ a → a < x.addr + x.data.length → x.key.toNat ≤ r.key.toNat) → rdByte t.mem a = r.data.getD (a - r.addr) 0) ∧
      (∀ (l : List Rec) (la cls mw n : Nat) (m : Nat → Nat → Nat), l.Perm mine → l.Pairwise (fun x y => x.key.toNat < y.key.toNat) → l ≠ [] →
        (s.pageAt la).kind = { cls := cls, mw := mw } → (cls, mw) ∈ legalClasses → 2 ≤ cls → n = 2 ^ mw →
        (∀ r ∈ l, r.addr = la ∧ r.data.length = n) →
        (∀ v w, m v w = if cls = 2 then v + w else if cls = 3 then (if mw = 1 then bf16 else if mw = 2 then fp32 else fp64).add .rne v w
          else if cls = 4 then (if signed (8 * n) v ≤ signed (8 * n) w then v else w)
          else if cls = 5 then (if signed (8 * n) w ≤ signed (8 * n) v then v else w)
          else if cls = 6 then (if mw = 2 then fp32 else fp64).fmax v w else v ||| w) →
        ∃ t, exec (.treeCommit p) s = .next t ∧ t.bnd.phase = .committed ∧
          rdNat t.mem la n = l.foldl (fun v r => m v (leNat r.data) % 2 ^ (8 * n)) (rdNat s.mem la n) ∧
          ∀ a, a < la ∨ la + n ≤ a → rdByte t.mem a = rdByte s.mem a) ∧
      (∀ r1 r2, (mine = [r1, r2] ∨ mine = [r2, r1]) → r1.addr = r2.addr → r1.data.length = r2.data.length → r1.data ≠ [] →
        (∀ i, i < r1.data.length → (s.pageAt (r1.addr + i)).kind.cls = 0 ∧ (s.pageAt (r1.addr + i)).base = (s.pageAt r1.addr).base) →
        r1.key.toNat < r2.key.toNat → r1.key.toNat / 2 ^ 44 ≠ r2.key.toNat / 2 ^ 44 →
        ∃ t, exec (.treeCommit p) s = .next t ∧ t.bnd.phase = .committed ∧ rdBytes t.mem (addrs r1.addr r1.data.length) = r1.data ∧
          (∀ a, a < r1.addr ∨ r1.addr + r1.data.length ≤ a → rdByte t.mem a = rdByte s.mem a) ∧
          Posted s t 0x0010 0 0xFFFF [(0x18, s.rank * 2 ^ 40 + r1.addr), (0x20, r1.key.toNat), (0x28, r2.key.toNat), (0x30, 0)])) ∧
    (∀ r u, s.bnd.phase = .drained → s.inbound = [r] → r.gen = s.stepNum → (s.pageAt r.addr).kind.cls = 1 →
      s.badUnit u = true → (∀ x, x ≠ u → s.badUnit x = false) →
      (r.addr / 64 = u ∧ r.addr % 64 + r.data.length ≤ 64 ∧ 1 ≤ r.data.length ∧ r.data.length < 64) ∨
        (∃ a ∈ s.apronBytes 0x211 r, a / 64 = u) →
      ∃ t, exec (.treeCommit p) s = .next t ∧ t.bnd.phase = .committing ∧ t.bnd.sentCmt = s.bnd.sentCmt ∧ t.mem = s.mem ∧ t.inbound = [r] ∧
        Posted s t 0x0013 3 0xFFFF [(0x18, s.rank * 2 ^ 40 + 64 * u)]) ∧
    (s.bnd.phase = .committed → s.disp.quiesce ≠ .waitKernel →
      ∃ t, exec (.treeRel p) s = .next t ∧ t.preg 0x214 = (s.stepNum + 1) % 2 ^ 64 ∧ RegistersBut [0x214] s t ∧ SameMemory s t ∧
        (∀ r, r ∈ t.inbound ↔ r ∈ s.inbound ∧ r.gen ≠ s.stepNum) ∧ (∀ r, r ∈ t.outbound ↔ r ∈ s.outbound ∧ r.gen ≠ s.stepNum) ∧
        ∀ k u, s.task? k = some u → ∃ u', t.task? k = some u' ∧ u'.arrived = false ∧ u'.counted = true ∧
          (u.run.saved = false ∨ u.inStepWait = false → { u' with arrived := u.arrived, counted := u.counted } = u) ∧
          (u.run.saved = true → u.inStepWait = true → u'.hart = u.hart.advance 8 ∧ u'.inStepWait = false))) ∧
  (∀ (s : State) (ph msg la : Nat), s.isRoot = true → (s.bnd.watchdog = true ∨ ∃ e ∈ s.tasks, e.2.stepm = true ∧ e.2.arrived = true) →
    bits (s.preg 0x212) 51 32 ≠ 0 → s.pendingPhase = some (ph, msg) →
    s.rank * 2 ^ 40 + la = s.preg 0x213 → la + 512 ≤ memLimit → (∀ u, tget 0 s.ms.ecc u ≠ 2) →
    ∃ t, exec .stepWatchdogExpiry s = .next t ∧ t.tasks = s.tasks ∧ t.bnd = s.bnd ∧
      (∀ r, r < 4096 → (rdByte t.mem (la + r / 8)).getLsbD (r % 8) = (s.member r && !s.reported msg r)) ∧
      (∀ a, a < la ∨ la + 512 ≤ a → rdByte t.mem a = rdByte s.mem a) ∧
      Posted s t 0x0011 0 0xFFFF [(0x18, ph), (0x20, s.preg 0x213)]) ∧
  (∀ s : State, s.isRoot = false ∨ (s.bnd.watchdog = false ∧ ∀ e ∈ s.tasks, e.2.stepm = false ∨ e.2.arrived = false) ∨
    bits (s.preg 0x212) 51 32 = 0 → exec .stepWatchdogExpiry s = .next s)


/-! ## The fabric -/

/-- R140, R385, R388, R390, R392, R393: the home answers RDREQ with its bytes, or with DATAERR and an MC_UNCORR record; RDRSP ends its
transaction, so that one that waits for a number goes out, and gives a load its bytes, or a late fault; a record that a credit allows joins
the inbound apron, whose bytes alone change, and is acknowledged, a second copy is only acknowledged; when its last credit is used up the sender
gets, behind the acknowledgement, a share of what is free, or the home says that its apron is full (the rule for that event is the model's, log 45); RECACK marks the record acknowledged;
CREDIT adds to what may be sent, and records that wait for credits go out. A packet of another incarnation, and one of no known type,
is dropped and counted. No other byte of the package's memory changes. -/
def Obligations.PacketsAreHandled : Prop :=
  (∀ (s : State) (p : Packet) (n a : Nat) (rsp : Packet), s.receive p = (some s, s) → n = (p.body.extractLsb' 40 8).toNat + 1 →
    a = (p.body.extractLsb' 0 40).toNat → a + n ≤ memLimit →
    rsp = { drank := p.srank, dinc := tget 0 s.fab.pinc p.srank.toNat, srank := BitVec.ofNat 12 s.rank, sinc := BitVec.ofNat 4 (s.preg 0x682),
            type := 1, len := BitVec.ofNat 4 ((n + 31) / 32), stage := false, txid := p.txid, body := 0, data := rdBytes s.mem (addrs a n) } →
    ((∀ x, a ≤ x → x < a + n → s.badUnit (x / 64) = false) →
      ∃ t, exec (.rdreq p) s = .next t ∧ Sent s t rsp ∧ t.tasks = s.tasks ∧ SameMemory s t ∧ SameRegisters s t) ∧
    (∀ x, (addrs a n).find? (fun x => s.badUnit (x / 64)) = some x →
      ∃ t, exec (.rdreq p) s = .next t ∧ Sent s t { rsp with len := 0, body := 13, data := [] } ∧ t.tasks = s.tasks ∧ t.mem = s.mem ∧
        ∃ syn < 2 ^ 64, Posted s t 0x0001 2 0xFFFF
          [(0x18, 0), (0x20, s.rank * 2 ^ 40 + x / 64 * 64), (0x28, 1 + 0xFF * 256), (0x30, 0), (0x38, syn)])) ∧
  (∀ (s : State) (p : Packet) (x : Txn), s.receive p = (some s, s) → s.txn? p = some x →
    (∃ t, exec (.rdrsp p) s = .next t ∧ SameMemory s t ∧ t.pregs = s.pregs ∧
      (s.fab.unsent = [] → ∀ y, y ∈ t.fab.txns ↔ y ∈ s.fab.txns ∧ y.txid ≠ x.txid) ∧
      ∀ y rest, s.fab.unsent = y :: rest → t.fab.unsent = rest ∧ ∃ y' ∈ t.fab.txns, y'.owner = y.owner ∧ y'.pkt = { y.pkt with txid := y'.txid } ∧
        ∀ z ∈ s.fab.txns, z.txid ≠ x.txid → z ∈ t.fab.txns ∧ z.txid ≠ y'.txid) ∧
    (∀ k po u, x.owner = .load (.scp k) po → s.task? k = some u →
      (p.body.extractLsb' 0 8 = 0 → ∃ t u', exec (.rdrsp p) s = .next t ∧ t.task? k = some u' ∧ (∀ j, j ≠ k → t.task? j = s.task? j) ∧
        u'.hart.xs = u.hart.xs ∧ u'.hart.pc = u.hart.pc ∧ u'.hart.stores = u.hart.stores ∧
        ∀ e ∈ u'.hart.loads, e.po = po → ∀ l, e.kind = .scalar l → ∀ i, i < reqCount x.pkt → i < p.data.length →
          tfind l.got (x.pkt.drank.toNat * 2 ^ 40 + reqAddr x.pkt + i) = p.data[i]?) ∧
      (p.body.extractLsb' 0 8 ≠ 0 → ∀ e l, u.hart.findLoad po = some (e, l) →
        ∃ t u', exec (.rdrsp p) s = .next t ∧ t.task? k = some u' ∧
          u'.deferred = u.deferred ++ [(addrFault cDATAERR l.va.toNat false, l.pc)] ∧
          u'.hart.xs = u.hart.xs ∧ u'.hart.findLoad po = none))) ∧
  (∀ (s : State) (p : Packet), s.receive p = (some s, s) → s.txn? p = none → exec (.rdrsp p) s = .next s ∧ exec (.recack p) s = .next s) ∧
  (∀ (s : State) (p : Packet) (key : Word) (ack : Packet), s.receive p = (some s, s) → key = p.body.extractLsb' 0 64 →
    ack = { drank := p.srank, dinc := tget 0 s.fab.pinc p.srank.toNat, srank := BitVec.ofNat 12 s.rank, sinc := BitVec.ofNat 4 (s.preg 0x682),
            type := 3, len := 0, stage := false, txid := p.txid, body := key.setWidth 192, data := [] } →
    (s.bnd.phase = .draining ∨ s.bnd.phase = .drained →
      ((∃ x ∈ s.inbound, x.key = key) → ∃ t, exec (.recv p) s = .next t ∧ Sent s t ack ∧ t.inbound = s.inbound ∧ t.tasks = s.tasks ∧
        SameMemory s t ∧ t.pregs = s.pregs) ∧
      ((∀ x ∈ s.inbound, x.key ≠ key) → s.member p.srank.toNat = true → 0 < tget 0 s.bnd.granted p.srank.toNat →
        (p.body.extractLsb' 64 40).toNat + (p.data.take ((p.body.extractLsb' 104 8).toNat + 1)).length ≤ memLimit →
        ∃ t r m, exec (.recv p) s = .next t ∧ t.inbound = s.inbound ++ [r] ∧ r.key = key ∧ r.home = s.rank ∧
          r.addr = (p.body.extractLsb' 64 40).toNat ∧ r.data = p.data.take ((p.body.extractLsb' 104 8).toNat + 1) ∧ r.gen = s.stepNum ∧
          t.tasks = s.tasks ∧ ApronTakes s t 0x211 s.inbound [r] ∧ RegistersBut [0x201, 0x202, 0x220] s t ∧ Sent s m ack ∧ t = m.grantAll ∧
          tget 0 m.bnd.granted p.srank.toNat = tget 0 s.bnd.granted p.srank.toNat - 1 ∧
          (1 < tget 0 s.bnd.granted p.srank.toNat → (∀ x, s.member x = true → x ≠ s.rank → tget 0 s.bnd.granted x ≠ 0) → t = m) ∧
          ((∀ u, tget 0 s.ms.ecc u = 0) → m.hmem = s.hmem ∧ m.pregs = s.pregs) ∧
          ∀ used free c, s.others = [p.srank.toNat] → s.bnd.granted = [(p.srank.toNat, 1)] → (∀ u, tget 0 s.ms.ecc u = 0) →
            used = (s.inbound.map (fun x => recSize x.data.length)).sum + recSize r.data.length →
            free = bits (s.preg 0x212) 14 8 * 2 ^ 30 - used → c = min 65535 (max 1 (free / 272)) →
            (272 ≤ free → t.bnd.granted = [(p.srank.toNat, c)] ∧ t.hmem = s.hmem ∧
              Sent m t { ack with type := 4, txid := 0, body := BitVec.ofNat 192 c }) ∧
            (free < 272 → t.bnd.granted = [] ∧ t.bnd.fullPosted = true ∧ t.fab = m.fab ∧ t.agenda = m.agenda ∧ (s.bnd.fullPosted = false →
              Posted s t 0x0012 0 0xFFFF [(0x18, used + 272), (0x20, bits (s.preg 0x212) 14 8)])))) ∧
    (s.bnd.phase ≠ .draining → s.bnd.phase ≠ .drained → exec (.recv p) s = .next s)) ∧
  (∀ (s : State) (p : Packet) (x : Txn), s.receive p = (some s, s) → s.txn? p = some x →
    ∃ t, exec (.recack p) s = .next t ∧ t.outbound = s.outbound.map (fun r =>
        if r.key = p.body.extractLsb' 0 64 ∧ r.gen = s.stepNum then { r with acked := true } else r) ∧
      (s.fab.unsent = [] → ∀ y, y ∈ t.fab.txns ↔ y ∈ s.fab.txns ∧ y.txid ≠ x.txid) ∧ t.tasks = s.tasks ∧ SameMemory s t ∧ t.pregs = s.pregs ∧
      (s.bnd.phase = .draining → (∀ r ∈ t.outbound, r.gen = s.stepNum → r.acked = true) → t.bnd.phase = .drained)) ∧
  (∀ (s : State) (p : Packet), s.receive p = (some s, s) → s.bnd.phase = .arrived →
    ∃ t, exec (.credit p) s = .next t ∧ { t with bnd := s.bnd } = s ∧ { t.bnd with credits := s.bnd.credits } = s.bnd ∧
      ∀ h, tget 0 t.bnd.credits h = tget 0 s.bnd.credits h + if h = p.srank.toNat then (p.body.extractLsb' 0 32).toNat else 0) ∧
  (∀ (s : State) (p : Packet) (h c : Nat), s.receive p = (some s, s) → s.bnd.phase = .draining → h = p.srank.toNat → h ≠ s.rank →
    c = tget 0 s.bnd.credits h + (p.body.extractLsb' 0 32).toNat → (s.outbound.map (·.key)).Nodup →
    (∀ r ∈ s.outbound, r.gen = s.stepNum ∧ r.home = h ∧ r.sent = false ∧ r.acked = false) → (∀ u, tget 0 s.ms.ecc u = 0) →
    ∃ t, exec (.credit p) s = .next t ∧ t.tasks = s.tasks ∧ SameMemory s t ∧ t.pregs = s.pregs ∧ t.inbound = s.inbound ∧
      (∀ j, tget 0 t.bnd.credits j = if j = h then c - s.outbound.length else tget 0 s.bnd.credits j) ∧
      t.outbound = (s.outbound.take c).map (fun r => { r with sent := true }) ++ s.outbound.drop c ∧
      ∀ r ∈ s.outbound.take c, ∃ x ∈ t.fab.txns ++ t.fab.unsent, x.owner = .record r.key ∧ x.pkt.drank = p.srank ∧ x.pkt.type = 2 ∧
        x.pkt.data = r.data ∧ x.pkt.body.extractLsb' 0 64 = r.key) ∧
  (∀ (s : State) (p : Packet) (i : Instr), p.srank.toNat ≠ s.rank → p.drank.toNat = s.rank → bit (s.preg 0x680) 8 = true →
    i = .rdreq p ∨ i = .rdrsp p ∨ i = .recv p ∨ i = .recack p ∨ i = .credit p ∨ i = .treeArr p ∨ i = .treeDrain p ∨ i = .treeDrn p ∨
      i = .treeCommit p ∨ i = .treeCmt p ∨ i = .treeRel p →
    (p.dinc.toNat ≠ s.preg 0x682 → ∃ t, exec i s = .next t ∧ bits (t.preg 0x685) 31 0 = (bits (s.preg 0x685) 31 0 + 1) % 2 ^ 32 ∧
      RegistersBut [0x685] s t ∧ { t with pregs := s.pregs } = s) ∧
    (p.dinc.toNat = s.preg 0x682 → 5 < p.type.toNat ∨ 8 < p.len.toNat →
      ∃ t, exec i s = .next t ∧ bits (t.preg 0x685) 63 32 = (bits (s.preg 0x685) 63 32 + 1) % 2 ^ 32 ∧
        RegistersBut [0x685] s t ∧ { t with pregs := s.pregs } = s))

/-- R388, R391, R392: FABRIC_RETRY sends the request again; FABRIC_TIMEOUT marks the destination dead, ends every transaction to it
and posts PEER_DEAD. A load that waits for a dead peer ends with a late PEERDEAD fault, by FABRIC_TIMEOUT and by DEADSET, a load of the
kerf too. R384, R387, R394, R397: FLIT_RECEIVE accepts the next flit in sequence with a good check code for which the virtual channel has a
slot, and no other, and a packet's last flit hands it on; one of LEN above 8 is dropped; the flits of a packet carry all of it; FLIT_ACK
drops what it acknowledges from the replay buffer, and answers a restripe sequence where it acknowledges a flit sent after it; LINK_REPLAY sends
all of it again, its units numbered on (R395); RESTRIPE_TIMEOUT takes the link down. A port sends
the flits of a packet in sequence once its virtual channel has a slot for each, a TREE packet first. -/
def Obligations.RetriesDeadPeersAndFlits : Prop :=
  (∀ (s : State) (txid : BitVec 16) (x : Txn), s.fab.txns.find? (fun x => x.txid = txid) = some x →
    (∃ t, exec (.fabricRetry txid) s = .next t ∧ OnFabric s t x.pkt ∧ t.fab.txns = s.fab.txns ∧ t.tasks = s.tasks ∧ SameMemory s t ∧ t.pregs = s.pregs) ∧
    (∃ t, exec (.fabricTimeout txid) s = .next t ∧ (∀ y ∈ t.fab.txns ++ t.fab.unsent, y.pkt.drank ≠ x.pkt.drank) ∧
      (s.fab.unsent = [] → ∀ y ∈ t.fab.txns, y ∈ s.fab.txns) ∧
      (t.preg (0x640 + x.pkt.drank.toNat / 64)).testBit (x.pkt.drank.toNat % 64) = true ∧
      RegistersBut [0x640 + x.pkt.drank.toNat / 64, 0x201, 0x202] s t ∧ t.mem = s.mem ∧
      Posted s t 0x0022 2 0xFFFF [(0x18, x.pkt.drank.toNat),
        (0x1C, ((s.fab.txns ++ s.fab.unsent).filter (fun y => y.pkt.drank = x.pkt.drank)).length)])) ∧
  (∀ (s : State) (txid : BitVec 16), s.fab.txns.find? (fun x => x.txid = txid) = none →
    exec (.fabricRetry txid) s = .next s ∧ exec (.fabricTimeout txid) s = .next s) ∧
  (∀ (s : State) (k po : Nat) (u : Task) (e : LoadEntry) (l : ScalarLoad) (i : Instr), s.fab.unsent = [] →
    s.task? k = some u → u.hart.loads = [e] → e.po = po → e.kind = .scalar l →
    (∃ x, s.fab.txns = [x] ∧ x.owner = .load (.scp k) po ∧ (i = .deadset x.pkt.drank ∨ i = .fabricTimeout x.txid)) ∨
      (∃ r, s.fab.txns = [] ∧ l.space = .pod ∧ l.got = [] ∧ (∃ a ∈ l.pas, a / 2 ^ 40 = r.toNat) ∧ r.toNat ≠ s.rank ∧ i = .deadset r) →
    ∃ t u', exec i s = .next t ∧ t.task? k = some u' ∧ u'.deferred = u.deferred ++ [(addrFault cPEERDEAD l.va.toNat false, l.pc)] ∧
      u'.hart.loads = [] ∧ u'.hart.xs = u.hart.xs ∧ t.fab.txns = []) ∧
  (∀ (s : State) (port : BitVec 6) (seq : BitVec 12) (flit : BitVec 256) (good : Bool) (l : Link) (fs : List (BitVec 256)) (len held : Nat)
      (pkt : Packet), l = s.link port.toNat → fs = l.partialPkt ++ [flit] → len = ((fs.headD 0).extractLsb' 36 4).toNat →
    pkt = packetOf (fs.headD 0) (fs.drop 1) → held = s.slotsHeld port.toNat (vcOf pkt port.toNat) →
    (l.up = true → good = true → seq = l.rxSeq → held + fs.length ≤ 32 →
      ∃ t, exec (.flitReceive port seq flit good) s = .next t ∧ (t.link port.toNat).rxSeq = l.rxSeq + 1 ∧ t.tasks = s.tasks ∧ SameMemory s t ∧
        (len ≤ 8 → fs.length ≤ len → (t.link port.toNat).partialPkt = fs ∧ t.agenda = s.agenda) ∧
        (8 < len ∨ len + 1 ≤ fs.length → (t.link port.toNat).partialPkt = [] ∧
          (pkt.drank.toNat = s.rank → ∀ i, packetRow pkt = some i → t.agenda = s.agenda ++ [i]) ∧
          (pkt.drank.toNat ≠ s.rank → t.agenda = s.agenda ∧
            (8 < len → bits (t.preg 0x685) 63 32 = (bits (s.preg 0x685) 63 32 + 1) % 2 ^ 32 ∧ t.fab.waiting = s.fab.waiting) ∧
            (len ≤ 8 → s.fabricOn = false → t.fab.waiting = s.fab.waiting ++ [{ pkt := pkt, port := some port.toNat }])))) ∧
    (l.up = false ∨ good = false ∨ seq ≠ l.rxSeq ∨ 32 < held + fs.length → exec (.flitReceive port seq flit good) s = .next s)) ∧
  (∀ p : Packet, p.data.length = 32 * p.len.toNat →
    ∃ h d, flitsOf p = h :: d ∧ d.length = p.len.toNat ∧ packetOf h d = p) ∧
  (∀ (port : Nat) (l : Link) (e : Egress) (n : Nat), l.up = true → l.sending = none → e.left ≠ [] → n = e.left.length →
    (l.queue = [e] → 32 < tget 0 l.slots e.vc + n → Link.drain port l = l) ∧
    (l.queue = [e] → tget 0 l.slots e.vc + n ≤ 32 → l.buffer.length + n ≤ (if port < 32 then 128 else 512) →
      (Link.drain port l).queue = [] ∧ (Link.drain port l).sending = none ∧ tget 0 (Link.drain port l).slots e.vc = tget 0 l.slots e.vc + n ∧
      (Link.drain port l).buffer = l.buffer ++
        (List.range n).map (fun i => { seq := l.txSeq + BitVec.ofNat 12 i, vc := e.vc, flit := e.left.getD i 0 })) ∧
    (∀ e2, l.queue = [e2, e] → e.held.pkt.type = 5 → e2.held.pkt.type ≠ 5 → tget 0 l.slots e.vc + n ≤ 32 →
      l.buffer.length < (if port < 32 then 128 else 512) → (if port < 32 then 128 else 512) ≤ l.buffer.length + n →
      (Link.drain port l).queue = [e2])) ∧
  (∀ (s : State) (port : BitVec 6) (seq : BitVec 12) (l : Link), l = s.link port.toNat → l.up = true → s.fab.waiting = [] → l.queue = [] →
    l.sending = none →
    ∃ t, exec (.flitAck port seq) s = .next t ∧ t.tasks = s.tasks ∧ SameMemory s t ∧ t.pregs = s.pregs ∧ (∀ j, j ≠ port.toNat → t.link j = s.link j) ∧
      { t.link port.toNat with buffer := l.buffer, restriping := l.restriping, before := l.before, slots := l.slots } = l ∧
      (∀ vc, tget 0 (t.link port.toNat).slots vc ≤ tget 0 l.slots vc) ∧ (l.restriping = false → (t.link port.toNat).restriping = false) ∧
      ((∀ x ∈ l.buffer, x.seq ≠ seq) → { t.link port.toNat with slots := l.slots } = l) ∧
      (∀ pre f rest, l.buffer = pre ++ f :: rest → f.seq = seq → (∀ x ∈ pre, x.seq ≠ seq) → (t.link port.toNat).buffer = rest ∧
        (t.link port.toNat).before = l.before - (pre.length + 1) ∧ (l.before ≤ pre.length → (t.link port.toNat).restriping = false))) ∧
  (∀ (s : State) (port : BitVec 6) (l : Link), l = s.link port.toNat →
    (l.up = true → ∃ t, exec (.linkReplay port) s = .next t ∧ (∀ j, t.link j = if j = port.toNat then
        { l with replayed := min 65535 (l.replayed + l.buffer.length), striped := l.striped + l.buffer.length } else s.link j) ∧ { t with fab := s.fab } = s) ∧
    (l.up = false → exec (.linkReplay port) s = .next s ∧ ∀ seq, exec (.flitAck port seq) s = .next s) ∧
    (l.up = true → l.restriping = true → ∃ t, exec (.restripeTimeout port) s = .next t ∧
      t.link port.toNat = { Link.down with replayed := l.replayed } ∧ t.fab.waiting = s.fab.waiting ++ l.queue.map (·.held) ∧
      (∀ j, j ≠ port.toNat → t.link j = s.link j) ∧ t.tasks = s.tasks ∧ t.mem = s.mem ∧
      Posted s t 0x0023 2 0xFFFF [(0x18, port.toNat % 32), (0x19, port.toNat / 32)]) ∧
    (l.up = false ∨ l.restriping = false → exec (.restripeTimeout port) s = .next s))

/-- R395 to R397: a laser unit that the monitor finds failed goes out of ON and into FAIL, which FAB_LASER records, and every global link that
is up and used its four wavelengths goes on with the rest of them, which FAB_RESTRIPE records, or goes down, which LINK_DOWN records,
where none is left; a link whose far end reports the loss of any wavelengths does so alone. A restripe sequence of the far end sets the
mask with which this end receives, and an empty one takes the link down. Other links, all tasks and the package's memory are as before.
That the record of a reported loss names unit 0xFF is the model's choice (log 39). -/
def Obligations.LaserFailuresNarrowLinks : Prop :=
  (∀ (s : State) (u : BitVec 2) (port : BitVec 6) (d r : BitVec 32) (waves : BitVec 16) (hit : Nat → Prop),
    (∀ w, w < 16 → waves.getLsbD w = decide (w / 4 = u.toNat)) →
    (∀ p, hit p ↔ 32 ≤ p ∧ p < 48 ∧ (s.link p).up = true ∧ (s.link p).txMask &&& waves ≠ 0) →
    (bit (s.preg 0x688) u.toNat = true → ∃ t s1, exec (.laserFailure u .monitor port d r) s = .next t ∧
      (∀ j, j < 4 → (t.preg 0x688).testBit j = ((s.preg 0x688).testBit j && decide (j ≠ u.toNat))) ∧
      (∀ j, j < 4 → (t.preg 0x688).testBit (4 + j) = ((s.preg 0x688).testBit (4 + j) || decide (j = u.toNat))) ∧
      RegistersBut [0x688, 0x201, 0x202] s t ∧ t.tasks = s.tasks ∧ t.mem = s.mem ∧
      (∀ p, (hit p → LinkNarrows (s.link p) (t.link p) waves) ∧ (¬hit p → t.link p = s.link p)) ∧
      Posted s s1 0x0020 1 0xFFFF [(0x18, u.toNat), (0x19, bits (s.preg 0x688) 3 0 - 2 ^ u.toNat)] ∧
      ((∀ p, ¬hit p) → t.hmem = s1.hmem ∧ t.preg 0x201 = s1.preg 0x201 ∧ t.preg 0x202 = s1.preg 0x202) ∧
      ∀ p l m, (∀ j, hit j ↔ j = p) → l = s.link p → m = l.txMask &&& ~~~waves →
        (m ≠ 0 → Posted s1 t 0x0021 1 0xFFFF [(0x18, p - 32), (0x1A, l.txMask.toNat), (0x1C, m.toNat), (0x1E, u.toNat), (0x20, l.buffer.length),
          (0x22, ((l.buffer.head?.map (·.seq)).getD l.txSeq).toNat), (0x24, d.toNat), (0x28, r.toNat)]) ∧
        (m = 0 → Posted s1 t 0x0023 2 0xFFFF [(0x18, p % 32), (0x19, p / 32)])) ∧
    (bit (s.preg 0x688) u.toNat = false → exec (.laserFailure u .monitor port d r) s = .next s)) ∧
  (∀ (s : State) (u : BitVec 2) (lost : BitVec 16) (port : BitVec 6) (d r : BitVec 32) (p : Nat) (l : Link) (m : BitVec 16), p = port.toNat →
    l = s.link p → m = l.txMask &&& ~~~lost →
    (32 ≤ p → l.up = true → l.txMask &&& lost ≠ 0 →
      ∃ t, exec (.laserFailure u (.report lost) port d r) s = .next t ∧ (∀ j, j ≠ p → t.link j = s.link j) ∧ t.tasks = s.tasks ∧ t.mem = s.mem ∧
        RegistersBut [0x201, 0x202] s t ∧ LinkNarrows l (t.link p) lost ∧
        (m ≠ 0 → Posted s t 0x0021 1 0xFFFF [(0x18, p - 32), (0x1A, l.txMask.toNat), (0x1C, m.toNat), (0x1E, 0xFF), (0x20, l.buffer.length),
            (0x22, ((l.buffer.head?.map (·.seq)).getD l.txSeq).toNat), (0x24, d.toNat), (0x28, r.toNat)]) ∧
        (m = 0 → Posted s t 0x0023 2 0xFFFF [(0x18, p % 32), (0x19, p / 32)])) ∧
    (p < 32 ∨ l.up = false ∨ l.txMask &&& lost = 0 → exec (.laserFailure u (.report lost) port d r) s = .next s)) ∧
  (∀ (s : State) (u : BitVec 2) (mask : BitVec 16) (port : BitVec 6) (d r : BitVec 32) (p : Nat) (l : Link), p = port.toNat → l = s.link p →
    (32 ≤ p → l.up = true → ∃ t, exec (.laserFailure u (.restriped mask) port d r) s = .next t ∧ (∀ j, j ≠ p → t.link j = s.link j) ∧
      t.tasks = s.tasks ∧ t.mem = s.mem ∧ RegistersBut [0x201, 0x202] s t ∧
      (mask ≠ 0 → t.link p = { l with rxMask := mask } ∧ { t with fab := s.fab } = s) ∧
      (mask = 0 → t.link p = { Link.down with replayed := l.replayed } ∧ Posted s t 0x0023 2 0xFFFF [(0x18, p % 32), (0x19, p / 32)])) ∧
    (p < 32 ∨ l.up = false → exec (.laserFailure u (.restriped mask) port d r) s = .next s))


end
end

