-- ==== Sys2Proof/Laws/State.lean ====
section
/-! SUPPORT. What each named update of State, Task and Hart leaves in each field: one lemma for a field and an update, true by rfl, so
that no proof unfolds a record update. -/

namespace Sys2Proof.Machine

/-! ### State.putTask -/

@[simp] theorem State.putTask_agenda (s : State) (k : Nat) (t : Task) : (s.putTask k t).agenda = s.agenda := rfl
@[simp] theorem State.putTask_focus (s : State) (k : Nat) (t : Task) : (s.putTask k t).focus = s.focus := rfl
@[simp] theorem State.putTask_engineTurn (s : State) (k : Nat) (t : Task) : (s.putTask k t).engineTurn = s.engineTurn := rfl
@[simp] theorem State.putTask_freeCtr (s : State) (k : Nat) (t : Task) : (s.putTask k t).freeCtr = s.freeCtr := rfl
@[simp] theorem State.putTask_tasks (s : State) (k : Nat) (t : Task) : (s.putTask k t).tasks = tput s.tasks k t := rfl
@[simp] theorem State.putTask_pregs (s : State) (k : Nat) (t : Task) : (s.putTask k t).pregs = s.pregs := rfl
@[simp] theorem State.putTask_mem (s : State) (k : Nat) (t : Task) : (s.putTask k t).mem = s.mem := rfl
@[simp] theorem State.putTask_hmem (s : State) (k : Nat) (t : Task) : (s.putTask k t).hmem = s.hmem := rfl
@[simp] theorem State.putTask_disp (s : State) (k : Nat) (t : Task) : (s.putTask k t).disp = s.disp := rfl
@[simp] theorem State.putTask_kstore (s : State) (k : Nat) (t : Task) : (s.putTask k t).kstore = s.kstore := rfl
@[simp] theorem State.putTask_ksload (s : State) (k : Nat) (t : Task) : (s.putTask k t).ksload = s.ksload := rfl
@[simp] theorem State.putTask_tlb (s : State) (k : Nat) (t : Task) : (s.putTask k t).tlb = s.tlb := rfl
@[simp] theorem State.putTask_tlbi (s : State) (k : Nat) (t : Task) : (s.putTask k t).tlbi = s.tlbi := rfl
@[simp] theorem State.putTask_ms (s : State) (k : Nat) (t : Task) : (s.putTask k t).ms = s.ms := rfl
@[simp] theorem State.putTask_otherPages (s : State) (k : Nat) (t : Task) : (s.putTask k t).otherPages = s.otherPages := rfl
@[simp] theorem State.putTask_inbound (s : State) (k : Nat) (t : Task) : (s.putTask k t).inbound = s.inbound := rfl
@[simp] theorem State.putTask_outbound (s : State) (k : Nat) (t : Task) : (s.putTask k t).outbound = s.outbound := rfl
@[simp] theorem State.putTask_bnd (s : State) (k : Nat) (t : Task) : (s.putTask k t).bnd = s.bnd := rfl
@[simp] theorem State.putTask_fab (s : State) (k : Nat) (t : Task) : (s.putTask k t).fab = s.fab := rfl
@[simp] theorem State.putTask_host (s : State) (k : Nat) (t : Task) : (s.putTask k t).host = s.host := rfl

/-! ### State.setPreg -/

@[simp] theorem State.setPreg_agenda (s : State) (n v : Nat) : (s.setPreg n v).agenda = s.agenda := rfl
@[simp] theorem State.setPreg_focus (s : State) (n v : Nat) : (s.setPreg n v).focus = s.focus := rfl
@[simp] theorem State.setPreg_engineTurn (s : State) (n v : Nat) : (s.setPreg n v).engineTurn = s.engineTurn := rfl
@[simp] theorem State.setPreg_freeCtr (s : State) (n v : Nat) : (s.setPreg n v).freeCtr = s.freeCtr := rfl
@[simp] theorem State.setPreg_tasks (s : State) (n v : Nat) : (s.setPreg n v).tasks = s.tasks := rfl
@[simp] theorem State.setPreg_pregs (s : State) (n v : Nat) : (s.setPreg n v).pregs = tset 0 s.pregs n (BitVec.ofNat 64 v) := rfl
@[simp] theorem State.setPreg_mem (s : State) (n v : Nat) : (s.setPreg n v).mem = s.mem := rfl
@[simp] theorem State.setPreg_hmem (s : State) (n v : Nat) : (s.setPreg n v).hmem = s.hmem := rfl
@[simp] theorem State.setPreg_disp (s : State) (n v : Nat) : (s.setPreg n v).disp = s.disp := rfl
@[simp] theorem State.setPreg_kstore (s : State) (n v : Nat) : (s.setPreg n v).kstore = s.kstore := rfl
@[simp] theorem State.setPreg_ksload (s : State) (n v : Nat) : (s.setPreg n v).ksload = s.ksload := rfl
@[simp] theorem State.setPreg_tlb (s : State) (n v : Nat) : (s.setPreg n v).tlb = s.tlb := rfl
@[simp] theorem State.setPreg_tlbi (s : State) (n v : Nat) : (s.setPreg n v).tlbi = s.tlbi := rfl
@[simp] theorem State.setPreg_ms (s : State) (n v : Nat) : (s.setPreg n v).ms = s.ms := rfl
@[simp] theorem State.setPreg_otherPages (s : State) (n v : Nat) : (s.setPreg n v).otherPages = s.otherPages := rfl
@[simp] theorem State.setPreg_inbound (s : State) (n v : Nat) : (s.setPreg n v).inbound = s.inbound := rfl
@[simp] theorem State.setPreg_outbound (s : State) (n v : Nat) : (s.setPreg n v).outbound = s.outbound := rfl
@[simp] theorem State.setPreg_bnd (s : State) (n v : Nat) : (s.setPreg n v).bnd = s.bnd := rfl
@[simp] theorem State.setPreg_fab (s : State) (n v : Nat) : (s.setPreg n v).fab = s.fab := rfl
@[simp] theorem State.setPreg_host (s : State) (n v : Nat) : (s.setPreg n v).host = s.host := rfl

/-! ### State.setPregBits -/

@[simp] theorem State.setPregBits_agenda (s : State) (n hi lo v : Nat) : (s.setPregBits n hi lo v).agenda = s.agenda := rfl
@[simp] theorem State.setPregBits_focus (s : State) (n hi lo v : Nat) : (s.setPregBits n hi lo v).focus = s.focus := rfl
@[simp] theorem State.setPregBits_engineTurn (s : State) (n hi lo v : Nat) : (s.setPregBits n hi lo v).engineTurn = s.engineTurn := rfl
@[simp] theorem State.setPregBits_freeCtr (s : State) (n hi lo v : Nat) : (s.setPregBits n hi lo v).freeCtr = s.freeCtr := rfl
@[simp] theorem State.setPregBits_tasks (s : State) (n hi lo v : Nat) : (s.setPregBits n hi lo v).tasks = s.tasks := rfl
@[simp] theorem State.setPregBits_pregs (s : State) (n hi lo v : Nat) : (s.setPregBits n hi lo v).pregs = tset 0 s.pregs n (BitVec.ofNat 64 (setBits (s.preg n) hi lo v)) := rfl
@[simp] theorem State.setPregBits_mem (s : State) (n hi lo v : Nat) : (s.setPregBits n hi lo v).mem = s.mem := rfl
@[simp] theorem State.setPregBits_hmem (s : State) (n hi lo v : Nat) : (s.setPregBits n hi lo v).hmem = s.hmem := rfl
@[simp] theorem State.setPregBits_disp (s : State) (n hi lo v : Nat) : (s.setPregBits n hi lo v).disp = s.disp := rfl
@[simp] theorem State.setPregBits_kstore (s : State) (n hi lo v : Nat) : (s.setPregBits n hi lo v).kstore = s.kstore := rfl
@[simp] theorem State.setPregBits_ksload (s : State) (n hi lo v : Nat) : (s.setPregBits n hi lo v).ksload = s.ksload := rfl
@[simp] theorem State.setPregBits_tlb (s : State) (n hi lo v : Nat) : (s.setPregBits n hi lo v).tlb = s.tlb := rfl
@[simp] theorem State.setPregBits_tlbi (s : State) (n hi lo v : Nat) : (s.setPregBits n hi lo v).tlbi = s.tlbi := rfl
@[simp] theorem State.setPregBits_ms (s : State) (n hi lo v : Nat) : (s.setPregBits n hi lo v).ms = s.ms := rfl
@[simp] theorem State.setPregBits_otherPages (s : State) (n hi lo v : Nat) : (s.setPregBits n hi lo v).otherPages = s.otherPages := rfl
@[simp] theorem State.setPregBits_inbound (s : State) (n hi lo v : Nat) : (s.setPregBits n hi lo v).inbound = s.inbound := rfl
@[simp] theorem State.setPregBits_outbound (s : State) (n hi lo v : Nat) : (s.setPregBits n hi lo v).outbound = s.outbound := rfl
@[simp] theorem State.setPregBits_bnd (s : State) (n hi lo v : Nat) : (s.setPregBits n hi lo v).bnd = s.bnd := rfl
@[simp] theorem State.setPregBits_fab (s : State) (n hi lo v : Nat) : (s.setPregBits n hi lo v).fab = s.fab := rfl
@[simp] theorem State.setPregBits_host (s : State) (n hi lo v : Nat) : (s.setPregBits n hi lo v).host = s.host := rfl

/-! ### State.setMasked -/

@[simp] theorem State.setMasked_agenda (s : State) (n m : Nat) (v : Word) : (s.setMasked n m v).agenda = s.agenda := rfl
@[simp] theorem State.setMasked_focus (s : State) (n m : Nat) (v : Word) : (s.setMasked n m v).focus = s.focus := rfl
@[simp] theorem State.setMasked_engineTurn (s : State) (n m : Nat) (v : Word) : (s.setMasked n m v).engineTurn = s.engineTurn := rfl
@[simp] theorem State.setMasked_freeCtr (s : State) (n m : Nat) (v : Word) : (s.setMasked n m v).freeCtr = s.freeCtr := rfl
@[simp] theorem State.setMasked_tasks (s : State) (n m : Nat) (v : Word) : (s.setMasked n m v).tasks = s.tasks := rfl
@[simp] theorem State.setMasked_pregs (s : State) (n m : Nat) (v : Word) : (s.setMasked n m v).pregs = tset 0 s.pregs n (BitVec.ofNat 64 (((BitVec.ofNat 64 (s.preg n) &&& ~~~BitVec.ofNat 64 m) ||| (v &&& BitVec.ofNat 64 m)).toNat)) := rfl
@[simp] theorem State.setMasked_mem (s : State) (n m : Nat) (v : Word) : (s.setMasked n m v).mem = s.mem := rfl
@[simp] theorem State.setMasked_hmem (s : State) (n m : Nat) (v : Word) : (s.setMasked n m v).hmem = s.hmem := rfl
@[simp] theorem State.setMasked_disp (s : State) (n m : Nat) (v : Word) : (s.setMasked n m v).disp = s.disp := rfl
@[simp] theorem State.setMasked_kstore (s : State) (n m : Nat) (v : Word) : (s.setMasked n m v).kstore = s.kstore := rfl
@[simp] theorem State.setMasked_ksload (s : State) (n m : Nat) (v : Word) : (s.setMasked n m v).ksload = s.ksload := rfl
@[simp] theorem State.setMasked_tlb (s : State) (n m : Nat) (v : Word) : (s.setMasked n m v).tlb = s.tlb := rfl
@[simp] theorem State.setMasked_tlbi (s : State) (n m : Nat) (v : Word) : (s.setMasked n m v).tlbi = s.tlbi := rfl
@[simp] theorem State.setMasked_ms (s : State) (n m : Nat) (v : Word) : (s.setMasked n m v).ms = s.ms := rfl
@[simp] theorem State.setMasked_otherPages (s : State) (n m : Nat) (v : Word) : (s.setMasked n m v).otherPages = s.otherPages := rfl
@[simp] theorem State.setMasked_inbound (s : State) (n m : Nat) (v : Word) : (s.setMasked n m v).inbound = s.inbound := rfl
@[simp] theorem State.setMasked_outbound (s : State) (n m : Nat) (v : Word) : (s.setMasked n m v).outbound = s.outbound := rfl
@[simp] theorem State.setMasked_bnd (s : State) (n m : Nat) (v : Word) : (s.setMasked n m v).bnd = s.bnd := rfl
@[simp] theorem State.setMasked_fab (s : State) (n m : Nat) (v : Word) : (s.setMasked n m v).fab = s.fab := rfl
@[simp] theorem State.setMasked_host (s : State) (n m : Nat) (v : Word) : (s.setMasked n m v).host = s.host := rfl

/-! ### State.draw -/

@[simp] theorem State.draw_agenda (s : State) : (s.draw.2).agenda = s.agenda := rfl
@[simp] theorem State.draw_focus (s : State) : (s.draw.2).focus = s.focus := rfl
@[simp] theorem State.draw_engineTurn (s : State) : (s.draw.2).engineTurn = s.engineTurn := rfl
@[simp] theorem State.draw_freeCtr (s : State) : (s.draw.2).freeCtr = s.freeCtr + 1 := rfl
@[simp] theorem State.draw_tasks (s : State) : (s.draw.2).tasks = s.tasks := rfl
@[simp] theorem State.draw_pregs (s : State) : (s.draw.2).pregs = s.pregs := rfl
@[simp] theorem State.draw_mem (s : State) : (s.draw.2).mem = s.mem := rfl
@[simp] theorem State.draw_hmem (s : State) : (s.draw.2).hmem = s.hmem := rfl
@[simp] theorem State.draw_disp (s : State) : (s.draw.2).disp = s.disp := rfl
@[simp] theorem State.draw_kstore (s : State) : (s.draw.2).kstore = s.kstore := rfl
@[simp] theorem State.draw_ksload (s : State) : (s.draw.2).ksload = s.ksload := rfl
@[simp] theorem State.draw_tlb (s : State) : (s.draw.2).tlb = s.tlb := rfl
@[simp] theorem State.draw_tlbi (s : State) : (s.draw.2).tlbi = s.tlbi := rfl
@[simp] theorem State.draw_ms (s : State) : (s.draw.2).ms = s.ms := rfl
@[simp] theorem State.draw_otherPages (s : State) : (s.draw.2).otherPages = s.otherPages := rfl
@[simp] theorem State.draw_inbound (s : State) : (s.draw.2).inbound = s.inbound := rfl
@[simp] theorem State.draw_outbound (s : State) : (s.draw.2).outbound = s.outbound := rfl
@[simp] theorem State.draw_bnd (s : State) : (s.draw.2).bnd = s.bnd := rfl
@[simp] theorem State.draw_fab (s : State) : (s.draw.2).fab = s.fab := rfl
@[simp] theorem State.draw_host (s : State) : (s.draw.2).host = s.host := rfl

/-! ### State.stamp -/

@[simp] theorem State.stamp_agenda (s : State) : (s.stamp.2).agenda = s.agenda := rfl
@[simp] theorem State.stamp_focus (s : State) : (s.stamp.2).focus = s.focus := rfl
@[simp] theorem State.stamp_engineTurn (s : State) : (s.stamp.2).engineTurn = s.engineTurn := rfl
@[simp] theorem State.stamp_freeCtr (s : State) : (s.stamp.2).freeCtr = s.freeCtr := rfl
@[simp] theorem State.stamp_tasks (s : State) : (s.stamp.2).tasks = s.tasks := rfl
@[simp] theorem State.stamp_pregs (s : State) : (s.stamp.2).pregs = s.pregs := rfl
@[simp] theorem State.stamp_mem (s : State) : (s.stamp.2).mem = s.mem := rfl
@[simp] theorem State.stamp_hmem (s : State) : (s.stamp.2).hmem = s.hmem := rfl
@[simp] theorem State.stamp_disp (s : State) : (s.stamp.2).disp = { s.disp with readySeq := s.disp.readySeq + 1 } := rfl
@[simp] theorem State.stamp_kstore (s : State) : (s.stamp.2).kstore = s.kstore := rfl
@[simp] theorem State.stamp_ksload (s : State) : (s.stamp.2).ksload = s.ksload := rfl
@[simp] theorem State.stamp_tlb (s : State) : (s.stamp.2).tlb = s.tlb := rfl
@[simp] theorem State.stamp_tlbi (s : State) : (s.stamp.2).tlbi = s.tlbi := rfl
@[simp] theorem State.stamp_ms (s : State) : (s.stamp.2).ms = s.ms := rfl
@[simp] theorem State.stamp_otherPages (s : State) : (s.stamp.2).otherPages = s.otherPages := rfl
@[simp] theorem State.stamp_inbound (s : State) : (s.stamp.2).inbound = s.inbound := rfl
@[simp] theorem State.stamp_outbound (s : State) : (s.stamp.2).outbound = s.outbound := rfl
@[simp] theorem State.stamp_bnd (s : State) : (s.stamp.2).bnd = s.bnd := rfl
@[simp] theorem State.stamp_fab (s : State) : (s.stamp.2).fab = s.fab := rfl
@[simp] theorem State.stamp_host (s : State) : (s.stamp.2).host = s.host := rfl

/-! ### State.setLink -/

@[simp] theorem State.setLink_agenda (s : State) (p : Nat) (l : Link) : (s.setLink p l).agenda = s.agenda := rfl
@[simp] theorem State.setLink_focus (s : State) (p : Nat) (l : Link) : (s.setLink p l).focus = s.focus := rfl
@[simp] theorem State.setLink_engineTurn (s : State) (p : Nat) (l : Link) : (s.setLink p l).engineTurn = s.engineTurn := rfl
@[simp] theorem State.setLink_freeCtr (s : State) (p : Nat) (l : Link) : (s.setLink p l).freeCtr = s.freeCtr := rfl
@[simp] theorem State.setLink_tasks (s : State) (p : Nat) (l : Link) : (s.setLink p l).tasks = s.tasks := rfl
@[simp] theorem State.setLink_pregs (s : State) (p : Nat) (l : Link) : (s.setLink p l).pregs = s.pregs := rfl
@[simp] theorem State.setLink_mem (s : State) (p : Nat) (l : Link) : (s.setLink p l).mem = s.mem := rfl
@[simp] theorem State.setLink_hmem (s : State) (p : Nat) (l : Link) : (s.setLink p l).hmem = s.hmem := rfl
@[simp] theorem State.setLink_disp (s : State) (p : Nat) (l : Link) : (s.setLink p l).disp = s.disp := rfl
@[simp] theorem State.setLink_kstore (s : State) (p : Nat) (l : Link) : (s.setLink p l).kstore = s.kstore := rfl
@[simp] theorem State.setLink_ksload (s : State) (p : Nat) (l : Link) : (s.setLink p l).ksload = s.ksload := rfl
@[simp] theorem State.setLink_tlb (s : State) (p : Nat) (l : Link) : (s.setLink p l).tlb = s.tlb := rfl
@[simp] theorem State.setLink_tlbi (s : State) (p : Nat) (l : Link) : (s.setLink p l).tlbi = s.tlbi := rfl
@[simp] theorem State.setLink_ms (s : State) (p : Nat) (l : Link) : (s.setLink p l).ms = s.ms := rfl
@[simp] theorem State.setLink_otherPages (s : State) (p : Nat) (l : Link) : (s.setLink p l).otherPages = s.otherPages := rfl
@[simp] theorem State.setLink_inbound (s : State) (p : Nat) (l : Link) : (s.setLink p l).inbound = s.inbound := rfl
@[simp] theorem State.setLink_outbound (s : State) (p : Nat) (l : Link) : (s.setLink p l).outbound = s.outbound := rfl
@[simp] theorem State.setLink_bnd (s : State) (p : Nat) (l : Link) : (s.setLink p l).bnd = s.bnd := rfl
@[simp] theorem State.setLink_fab (s : State) (p : Nat) (l : Link) : (s.setLink p l).fab = { s.fab with links := tset Link.down s.fab.links p l } := rfl
@[simp] theorem State.setLink_host (s : State) (p : Nat) (l : Link) : (s.setLink p l).host = s.host := rfl

/-! ### State.giveHost -/

@[simp] theorem State.giveHost_agenda (s : State) (bs : List Byte) : (s.giveHost bs).agenda = s.agenda := rfl
@[simp] theorem State.giveHost_focus (s : State) (bs : List Byte) : (s.giveHost bs).focus = s.focus := rfl
@[simp] theorem State.giveHost_engineTurn (s : State) (bs : List Byte) : (s.giveHost bs).engineTurn = s.engineTurn := rfl
@[simp] theorem State.giveHost_freeCtr (s : State) (bs : List Byte) : (s.giveHost bs).freeCtr = s.freeCtr := rfl
@[simp] theorem State.giveHost_tasks (s : State) (bs : List Byte) : (s.giveHost bs).tasks = s.tasks := rfl
@[simp] theorem State.giveHost_pregs (s : State) (bs : List Byte) : (s.giveHost bs).pregs = s.pregs := rfl
@[simp] theorem State.giveHost_mem (s : State) (bs : List Byte) : (s.giveHost bs).mem = s.mem := rfl
@[simp] theorem State.giveHost_hmem (s : State) (bs : List Byte) : (s.giveHost bs).hmem = s.hmem := rfl
@[simp] theorem State.giveHost_disp (s : State) (bs : List Byte) : (s.giveHost bs).disp = s.disp := rfl
@[simp] theorem State.giveHost_kstore (s : State) (bs : List Byte) : (s.giveHost bs).kstore = s.kstore := rfl
@[simp] theorem State.giveHost_ksload (s : State) (bs : List Byte) : (s.giveHost bs).ksload = s.ksload := rfl
@[simp] theorem State.giveHost_tlb (s : State) (bs : List Byte) : (s.giveHost bs).tlb = s.tlb := rfl
@[simp] theorem State.giveHost_tlbi (s : State) (bs : List Byte) : (s.giveHost bs).tlbi = s.tlbi := rfl
@[simp] theorem State.giveHost_ms (s : State) (bs : List Byte) : (s.giveHost bs).ms = s.ms := rfl
@[simp] theorem State.giveHost_otherPages (s : State) (bs : List Byte) : (s.giveHost bs).otherPages = s.otherPages := rfl
@[simp] theorem State.giveHost_inbound (s : State) (bs : List Byte) : (s.giveHost bs).inbound = s.inbound := rfl
@[simp] theorem State.giveHost_outbound (s : State) (bs : List Byte) : (s.giveHost bs).outbound = s.outbound := rfl
@[simp] theorem State.giveHost_bnd (s : State) (bs : List Byte) : (s.giveHost bs).bnd = s.bnd := rfl
@[simp] theorem State.giveHost_fab (s : State) (bs : List Byte) : (s.giveHost bs).fab = s.fab := rfl
@[simp] theorem State.giveHost_host (s : State) (bs : List Byte) : (s.giveHost bs).host = { s.host with rdata := bs } := rfl

/-! ### Task.setRing -/

@[simp] theorem Task.setRing_launch (t : Task) (n : Nat) (r : Ring) : (t.setRing n r).launch = t.launch := rfl
@[simp] theorem Task.setRing_index (t : Task) (n : Nat) (r : Ring) : (t.setRing n r).index = t.index := rfl
@[simp] theorem Task.setRing_lg (t : Task) (n : Nat) (r : Ring) : (t.setRing n r).lg = t.lg := rfl
@[simp] theorem Task.setRing_foot (t : Task) (n : Nat) (r : Ring) : (t.setRing n r).foot = t.foot := rfl
@[simp] theorem Task.setRing_stepm (t : Task) (n : Nat) (r : Ring) : (t.setRing n r).stepm = t.stepm := rfl
@[simp] theorem Task.setRing_asid (t : Task) (n : Nat) (r : Ring) : (t.setRing n r).asid = t.asid := rfl
@[simp] theorem Task.setRing_gpermit (t : Task) (n : Nat) (r : Ring) : (t.setRing n r).gpermit = t.gpermit := rfl
@[simp] theorem Task.setRing_prio (t : Task) (n : Nat) (r : Ring) : (t.setRing n r).prio = t.prio := rfl
@[simp] theorem Task.setRing_budget (t : Task) (n : Nat) (r : Ring) : (t.setRing n r).budget = t.budget := rfl
@[simp] theorem Task.setRing_run (t : Task) (n : Nat) (r : Ring) : (t.setRing n r).run = t.run := rfl
@[simp] theorem Task.setRing_readySeq (t : Task) (n : Nat) (r : Ring) : (t.setRing n r).readySeq = t.readySeq := rfl
@[simp] theorem Task.setRing_readyAt (t : Task) (n : Nat) (r : Ring) : (t.setRing n r).readyAt = t.readyAt := rfl
@[simp] theorem Task.setRing_since (t : Task) (n : Nat) (r : Ring) : (t.setRing n r).since = t.since := rfl
@[simp] theorem Task.setRing_sbad (t : Task) (n : Nat) (r : Ring) : (t.setRing n r).sbad = t.sbad := rfl
@[simp] theorem Task.setRing_dbad (t : Task) (n : Nat) (r : Ring) : (t.setRing n r).dbad = t.dbad := rfl
@[simp] theorem Task.setRing_rbad (t : Task) (n : Nat) (r : Ring) : (t.setRing n r).rbad = t.rbad := rfl
@[simp] theorem Task.setRing_fresh (t : Task) (n : Nat) (r : Ring) : (t.setRing n r).fresh = t.fresh := rfl
@[simp] theorem Task.setRing_hart (t : Task) (n : Nat) (r : Ring) : (t.setRing n r).hart = t.hart := rfl
@[simp] theorem Task.setRing_sup (t : Task) (n : Nat) (r : Ring) : (t.setRing n r).sup = t.sup := rfl
@[simp] theorem Task.setRing_groups (t : Task) (n : Nat) (r : Ring) : (t.setRing n r).groups = t.groups := rfl
@[simp] theorem Task.setRing_owed (t : Task) (n : Nat) (r : Ring) : (t.setRing n r).owed = t.owed := rfl
@[simp] theorem Task.setRing_doubled (t : Task) (n : Nat) (r : Ring) : (t.setRing n r).doubled = t.doubled := rfl
@[simp] theorem Task.setRing_gbarWait (t : Task) (n : Nat) (r : Ring) : (t.setRing n r).gbarWait = t.gbarWait := rfl
@[simp] theorem Task.setRing_inStepWait (t : Task) (n : Nat) (r : Ring) : (t.setRing n r).inStepWait = t.inStepWait := rfl
@[simp] theorem Task.setRing_stepOwed (t : Task) (n : Nat) (r : Ring) : (t.setRing n r).stepOwed = t.stepOwed := rfl
@[simp] theorem Task.setRing_full (t : Task) (n : Nat) (r : Ring) : (t.setRing n r).full = t.full := rfl
@[simp] theorem Task.setRing_arrived (t : Task) (n : Nat) (r : Ring) : (t.setRing n r).arrived = t.arrived := rfl
@[simp] theorem Task.setRing_counted (t : Task) (n : Nat) (r : Ring) : (t.setRing n r).counted = t.counted := rfl
@[simp] theorem Task.setRing_seq (t : Task) (n : Nat) (r : Ring) : (t.setRing n r).seq = t.seq := rfl
@[simp] theorem Task.setRing_halting (t : Task) (n : Nat) (r : Ring) : (t.setRing n r).halting = t.halting := rfl
@[simp] theorem Task.setRing_deferred (t : Task) (n : Nat) (r : Ring) : (t.setRing n r).deferred = t.deferred := rfl
@[simp] theorem Task.setRing_srf (t : Task) (n : Nat) (r : Ring) : (t.setRing n r).srf = t.srf := rfl
@[simp] theorem Task.setRing_descs (t : Task) (n : Nat) (r : Ring) : (t.setRing n r).descs = t.descs := rfl
@[simp] theorem Task.setRing_rings (t : Task) (n : Nat) (r : Ring) : (t.setRing n r).rings = tset Ring.none t.rings n r := rfl
@[simp] theorem Task.setRing_tags (t : Task) (n : Nat) (r : Ring) : (t.setRing n r).tags = t.tags := rfl
@[simp] theorem Task.setRing_nextTag (t : Task) (n : Nat) (r : Ring) : (t.setRing n r).nextTag = t.nextTag := rfl
@[simp] theorem Task.setRing_dregs (t : Task) (n : Nat) (r : Ring) : (t.setRing n r).dregs = t.dregs := rfl
@[simp] theorem Task.setRing_sq (t : Task) (n : Nat) (r : Ring) : (t.setRing n r).sq = t.sq := rfl
@[simp] theorem Task.setRing_kern (t : Task) (n : Nat) (r : Ring) : (t.setRing n r).kern = t.kern := rfl
@[simp] theorem Task.setRing_ksaved (t : Task) (n : Nat) (r : Ring) : (t.setRing n r).ksaved = t.ksaved := rfl
@[simp] theorem Task.setRing_stoeks (t : Task) (n : Nat) (r : Ring) : (t.setRing n r).stoeks = t.stoeks := rfl

/-! ### Task.putQ -/

@[simp] theorem Task.putQ_launch (t : Task) (q : QInstr) : (t.putQ q).launch = t.launch := rfl
@[simp] theorem Task.putQ_index (t : Task) (q : QInstr) : (t.putQ q).index = t.index := rfl
@[simp] theorem Task.putQ_lg (t : Task) (q : QInstr) : (t.putQ q).lg = t.lg := rfl
@[simp] theorem Task.putQ_foot (t : Task) (q : QInstr) : (t.putQ q).foot = t.foot := rfl
@[simp] theorem Task.putQ_stepm (t : Task) (q : QInstr) : (t.putQ q).stepm = t.stepm := rfl
@[simp] theorem Task.putQ_asid (t : Task) (q : QInstr) : (t.putQ q).asid = t.asid := rfl
@[simp] theorem Task.putQ_gpermit (t : Task) (q : QInstr) : (t.putQ q).gpermit = t.gpermit := rfl
@[simp] theorem Task.putQ_prio (t : Task) (q : QInstr) : (t.putQ q).prio = t.prio := rfl
@[simp] theorem Task.putQ_budget (t : Task) (q : QInstr) : (t.putQ q).budget = t.budget := rfl
@[simp] theorem Task.putQ_run (t : Task) (q : QInstr) : (t.putQ q).run = t.run := rfl
@[simp] theorem Task.putQ_readySeq (t : Task) (q : QInstr) : (t.putQ q).readySeq = t.readySeq := rfl
@[simp] theorem Task.putQ_readyAt (t : Task) (q : QInstr) : (t.putQ q).readyAt = t.readyAt := rfl
@[simp] theorem Task.putQ_since (t : Task) (q : QInstr) : (t.putQ q).since = t.since := rfl
@[simp] theorem Task.putQ_sbad (t : Task) (q : QInstr) : (t.putQ q).sbad = t.sbad := rfl
@[simp] theorem Task.putQ_dbad (t : Task) (q : QInstr) : (t.putQ q).dbad = t.dbad := rfl
@[simp] theorem Task.putQ_rbad (t : Task) (q : QInstr) : (t.putQ q).rbad = t.rbad := rfl
@[simp] theorem Task.putQ_fresh (t : Task) (q : QInstr) : (t.putQ q).fresh = t.fresh := rfl
@[simp] theorem Task.putQ_hart (t : Task) (q : QInstr) : (t.putQ q).hart = t.hart := rfl
@[simp] theorem Task.putQ_sup (t : Task) (q : QInstr) : (t.putQ q).sup = t.sup := rfl
@[simp] theorem Task.putQ_groups (t : Task) (q : QInstr) : (t.putQ q).groups = t.groups := rfl
@[simp] theorem Task.putQ_owed (t : Task) (q : QInstr) : (t.putQ q).owed = t.owed := rfl
@[simp] theorem Task.putQ_doubled (t : Task) (q : QInstr) : (t.putQ q).doubled = t.doubled := rfl
@[simp] theorem Task.putQ_gbarWait (t : Task) (q : QInstr) : (t.putQ q).gbarWait = t.gbarWait := rfl
@[simp] theorem Task.putQ_inStepWait (t : Task) (q : QInstr) : (t.putQ q).inStepWait = t.inStepWait := rfl
@[simp] theorem Task.putQ_stepOwed (t : Task) (q : QInstr) : (t.putQ q).stepOwed = t.stepOwed := rfl
@[simp] theorem Task.putQ_full (t : Task) (q : QInstr) : (t.putQ q).full = t.full := rfl
@[simp] theorem Task.putQ_arrived (t : Task) (q : QInstr) : (t.putQ q).arrived = t.arrived := rfl
@[simp] theorem Task.putQ_counted (t : Task) (q : QInstr) : (t.putQ q).counted = t.counted := rfl
@[simp] theorem Task.putQ_seq (t : Task) (q : QInstr) : (t.putQ q).seq = t.seq := rfl
@[simp] theorem Task.putQ_halting (t : Task) (q : QInstr) : (t.putQ q).halting = t.halting := rfl
@[simp] theorem Task.putQ_deferred (t : Task) (q : QInstr) : (t.putQ q).deferred = t.deferred := rfl
@[simp] theorem Task.putQ_srf (t : Task) (q : QInstr) : (t.putQ q).srf = t.srf := rfl
@[simp] theorem Task.putQ_descs (t : Task) (q : QInstr) : (t.putQ q).descs = t.descs := rfl
@[simp] theorem Task.putQ_rings (t : Task) (q : QInstr) : (t.putQ q).rings = t.rings := rfl
@[simp] theorem Task.putQ_tags (t : Task) (q : QInstr) : (t.putQ q).tags = t.tags := rfl
@[simp] theorem Task.putQ_nextTag (t : Task) (q : QInstr) : (t.putQ q).nextTag = t.nextTag := rfl
@[simp] theorem Task.putQ_dregs (t : Task) (q : QInstr) : (t.putQ q).dregs = t.dregs := rfl
@[simp] theorem Task.putQ_sq (t : Task) (q : QInstr) : (t.putQ q).sq = t.sq.map (fun x => if x.tag = q.tag then q else x) := rfl
@[simp] theorem Task.putQ_kern (t : Task) (q : QInstr) : (t.putQ q).kern = t.kern := rfl
@[simp] theorem Task.putQ_ksaved (t : Task) (q : QInstr) : (t.putQ q).ksaved = t.ksaved := rfl
@[simp] theorem Task.putQ_stoeks (t : Task) (q : QInstr) : (t.putQ q).stoeks = t.stoeks := rfl

/-! ### Hart.advance -/

@[simp] theorem Hart.advance_xs (h : Hart) (n : Nat) : (h.advance n).xs = h.xs := rfl
@[simp] theorem Hart.advance_pc (h : Hart) (n : Nat) : (h.advance n).pc = h.pc + BitVec.ofNat 64 n := rfl
@[simp] theorem Hart.advance_loads (h : Hart) (n : Nat) : (h.advance n).loads = h.loads := rfl
@[simp] theorem Hart.advance_stores (h : Hart) (n : Nat) : (h.advance n).stores = h.stores := rfl
@[simp] theorem Hart.advance_marks (h : Hart) (n : Nat) : (h.advance n).marks = h.marks := rfl
@[simp] theorem Hart.advance_po (h : Hart) (n : Nat) : (h.advance n).po = h.po := rfl

/-! ### Hart.nextPo -/

@[simp] theorem Hart.nextPo_xs (h : Hart) : (h.nextPo).xs = h.xs := rfl
@[simp] theorem Hart.nextPo_pc (h : Hart) : (h.nextPo).pc = h.pc := rfl
@[simp] theorem Hart.nextPo_loads (h : Hart) : (h.nextPo).loads = h.loads := rfl
@[simp] theorem Hart.nextPo_stores (h : Hart) : (h.nextPo).stores = h.stores := rfl
@[simp] theorem Hart.nextPo_marks (h : Hart) : (h.nextPo).marks = h.marks := rfl
@[simp] theorem Hart.nextPo_po (h : Hart) : (h.nextPo).po = h.po + 1 := rfl

/-! ### Hart.setX -/

@[simp] theorem Hart.setX_pc (h : Hart) (r : Reg) (v : Word) : (h.setX r v).pc = h.pc := by unfold Hart.setX; split <;> rfl
@[simp] theorem Hart.setX_loads (h : Hart) (r : Reg) (v : Word) : (h.setX r v).loads = h.loads := by unfold Hart.setX; split <;> rfl
@[simp] theorem Hart.setX_stores (h : Hart) (r : Reg) (v : Word) : (h.setX r v).stores = h.stores := by unfold Hart.setX; split <;> rfl
@[simp] theorem Hart.setX_marks (h : Hart) (r : Reg) (v : Word) : (h.setX r v).marks = h.marks := by unfold Hart.setX; split <;> rfl
@[simp] theorem Hart.setX_po (h : Hart) (r : Reg) (v : Word) : (h.setX r v).po = h.po := by unfold Hart.setX; split <;> rfl

/-! ### Task.trapEntry: the registers that trap entry writes (R317) -/

@[simp] theorem Task.trapEntry_launch (t : Task) (c : TrapCause) (fp rp : Word) : (t.trapEntry c fp rp).launch =
    t.launch := rfl
@[simp] theorem Task.trapEntry_index (t : Task) (c : TrapCause) (fp rp : Word) : (t.trapEntry c fp rp).index =
    t.index := rfl
@[simp] theorem Task.trapEntry_lg (t : Task) (c : TrapCause) (fp rp : Word) : (t.trapEntry c fp rp).lg =
    t.lg := rfl
@[simp] theorem Task.trapEntry_foot (t : Task) (c : TrapCause) (fp rp : Word) : (t.trapEntry c fp rp).foot =
    t.foot := rfl
@[simp] theorem Task.trapEntry_stepm (t : Task) (c : TrapCause) (fp rp : Word) : (t.trapEntry c fp rp).stepm =
    t.stepm := rfl
@[simp] theorem Task.trapEntry_asid (t : Task) (c : TrapCause) (fp rp : Word) : (t.trapEntry c fp rp).asid =
    t.asid := rfl
@[simp] theorem Task.trapEntry_gpermit (t : Task) (c : TrapCause) (fp rp : Word) : (t.trapEntry c fp rp).gpermit =
    t.gpermit := rfl
@[simp] theorem Task.trapEntry_prio (t : Task) (c : TrapCause) (fp rp : Word) : (t.trapEntry c fp rp).prio =
    t.prio := rfl
@[simp] theorem Task.trapEntry_budget (t : Task) (c : TrapCause) (fp rp : Word) : (t.trapEntry c fp rp).budget =
    t.budget := rfl
@[simp] theorem Task.trapEntry_run (t : Task) (c : TrapCause) (fp rp : Word) : (t.trapEntry c fp rp).run =
    t.run := rfl
@[simp] theorem Task.trapEntry_readySeq (t : Task) (c : TrapCause) (fp rp : Word) : (t.trapEntry c fp rp).readySeq =
    t.readySeq := rfl
@[simp] theorem Task.trapEntry_readyAt (t : Task) (c : TrapCause) (fp rp : Word) : (t.trapEntry c fp rp).readyAt =
    t.readyAt := rfl
@[simp] theorem Task.trapEntry_since (t : Task) (c : TrapCause) (fp rp : Word) : (t.trapEntry c fp rp).since =
    t.since := rfl
@[simp] theorem Task.trapEntry_sbad (t : Task) (c : TrapCause) (fp rp : Word) : (t.trapEntry c fp rp).sbad =
    t.sbad := rfl
@[simp] theorem Task.trapEntry_dbad (t : Task) (c : TrapCause) (fp rp : Word) : (t.trapEntry c fp rp).dbad =
    t.dbad := rfl
@[simp] theorem Task.trapEntry_rbad (t : Task) (c : TrapCause) (fp rp : Word) : (t.trapEntry c fp rp).rbad =
    t.rbad := rfl
@[simp] theorem Task.trapEntry_fresh (t : Task) (c : TrapCause) (fp rp : Word) : (t.trapEntry c fp rp).fresh =
    t.fresh := rfl
@[simp] theorem Task.trapEntry_hart (t : Task) (c : TrapCause) (fp rp : Word) : (t.trapEntry c fp rp).hart =
    { t.hart with pc := t.sup.svec } := rfl
@[simp] theorem Task.trapEntry_sup (t : Task) (c : TrapCause) (fp rp : Word) : (t.trapEntry c fp rp).sup =
    { t.sup with pmode := t.sup.mode, mode := true, exl := true, ecause := c.word, efpc := fp, epc := rp &&& ~~~3#64, eva := c.va.getD 0 } := rfl
@[simp] theorem Task.trapEntry_groups (t : Task) (c : TrapCause) (fp rp : Word) : (t.trapEntry c fp rp).groups =
    t.groups := rfl
@[simp] theorem Task.trapEntry_owed (t : Task) (c : TrapCause) (fp rp : Word) : (t.trapEntry c fp rp).owed =
    t.owed := rfl
@[simp] theorem Task.trapEntry_doubled (t : Task) (c : TrapCause) (fp rp : Word) : (t.trapEntry c fp rp).doubled =
    t.doubled := rfl
@[simp] theorem Task.trapEntry_gbarWait (t : Task) (c : TrapCause) (fp rp : Word) : (t.trapEntry c fp rp).gbarWait =
    none := rfl
@[simp] theorem Task.trapEntry_inStepWait (t : Task) (c : TrapCause) (fp rp : Word) : (t.trapEntry c fp rp).inStepWait =
    false := rfl
@[simp] theorem Task.trapEntry_stepOwed (t : Task) (c : TrapCause) (fp rp : Word) : (t.trapEntry c fp rp).stepOwed =
    t.stepOwed := rfl
@[simp] theorem Task.trapEntry_full (t : Task) (c : TrapCause) (fp rp : Word) : (t.trapEntry c fp rp).full =
    (t.full || (c.cls == 0 && c.code.toNat == cSTEPFULL)) := rfl
@[simp] theorem Task.trapEntry_arrived (t : Task) (c : TrapCause) (fp rp : Word) : (t.trapEntry c fp rp).arrived =
    t.arrived := rfl
@[simp] theorem Task.trapEntry_counted (t : Task) (c : TrapCause) (fp rp : Word) : (t.trapEntry c fp rp).counted =
    t.counted := rfl
@[simp] theorem Task.trapEntry_seq (t : Task) (c : TrapCause) (fp rp : Word) : (t.trapEntry c fp rp).seq =
    t.seq := rfl
@[simp] theorem Task.trapEntry_halting (t : Task) (c : TrapCause) (fp rp : Word) : (t.trapEntry c fp rp).halting =
    false := rfl
@[simp] theorem Task.trapEntry_deferred (t : Task) (c : TrapCause) (fp rp : Word) : (t.trapEntry c fp rp).deferred =
    t.deferred := rfl
@[simp] theorem Task.trapEntry_srf (t : Task) (c : TrapCause) (fp rp : Word) : (t.trapEntry c fp rp).srf =
    t.srf := rfl
@[simp] theorem Task.trapEntry_descs (t : Task) (c : TrapCause) (fp rp : Word) : (t.trapEntry c fp rp).descs =
    t.descs := rfl
@[simp] theorem Task.trapEntry_rings (t : Task) (c : TrapCause) (fp rp : Word) : (t.trapEntry c fp rp).rings =
    t.rings := rfl
@[simp] theorem Task.trapEntry_tags (t : Task) (c : TrapCause) (fp rp : Word) : (t.trapEntry c fp rp).tags =
    t.tags := rfl
@[simp] theorem Task.trapEntry_nextTag (t : Task) (c : TrapCause) (fp rp : Word) : (t.trapEntry c fp rp).nextTag =
    t.nextTag := rfl
@[simp] theorem Task.trapEntry_dregs (t : Task) (c : TrapCause) (fp rp : Word) : (t.trapEntry c fp rp).dregs =
    t.dregs := rfl
@[simp] theorem Task.trapEntry_sq (t : Task) (c : TrapCause) (fp rp : Word) : (t.trapEntry c fp rp).sq =
    t.sq := rfl
@[simp] theorem Task.trapEntry_kern (t : Task) (c : TrapCause) (fp rp : Word) : (t.trapEntry c fp rp).kern =
    t.kern := rfl
@[simp] theorem Task.trapEntry_ksaved (t : Task) (c : TrapCause) (fp rp : Word) : (t.trapEntry c fp rp).ksaved =
    t.ksaved := rfl
@[simp] theorem Task.trapEntry_stoeks (t : Task) (c : TrapCause) (fp rp : Word) : (t.trapEntry c fp rp).stoeks =
    t.stoeks := rfl

end Sys2Proof.Machine
end

