-- ==== Sys2Proof/Laws/Tables.lean ====
section
/-! SUPPORT. What the sparse tables and the memory lists do: reading after writing, and the canonical form kept. -/

namespace Sys2Proof.Machine

/-! ## Reading a table -/

theorem tdel_eq_filter {α : Type} (t : Tbl α) (i : Nat) : tdel t i = t.filter (fun e => e.1 ≠ i) := by
  induction t with
  | nil => rfl
  | cons e r ih =>
    obtain ⟨k, v⟩ := e
    by_cases h : k = i <;> simp [tdel, h, ih]

theorem tfind_tdel_same {α : Type} (t : Tbl α) (i : Nat) : tfind (tdel t i) i = none := by
  induction t with
  | nil => rfl
  | cons e r ih =>
    obtain ⟨k, v⟩ := e
    by_cases h : k = i <;> simp [tdel, tfind, h, ih]

theorem tfind_tdel_other {α : Type} (t : Tbl α) {i j : Nat} (h : j ≠ i) : tfind (tdel t i) j = tfind t j := by
  induction t with
  | nil => rfl
  | cons e r ih =>
    obtain ⟨k, v⟩ := e
    by_cases hk : k = i
    · subst hk; simp [tdel, tfind, ih, Ne.symm h]
    · by_cases hj : k = j
      · subst hj; simp [tdel, tfind, hk]
      · simp [tdel, tfind, hk, hj, ih]

theorem tfind_tins_same {α : Type} (t : Tbl α) (i : Nat) (x : α) (h : tfind t i = none) : tfind (tins t i x) i = some x := by
  induction t with
  | nil => simp [tins, tfind]
  | cons e r ih =>
    obtain ⟨k, v⟩ := e
    by_cases hk : k = i
    · simp [tfind, hk] at h
    · simp only [tfind, if_neg hk] at h
      by_cases hl : i < k <;> simp [tins, tfind, hl, hk, ih h]

theorem tfind_tins_other {α : Type} (t : Tbl α) {i j : Nat} (x : α) (h : j ≠ i) : tfind (tins t i x) j = tfind t j := by
  induction t with
  | nil => simp [tins, tfind, Ne.symm h]
  | cons e r ih =>
    obtain ⟨k, v⟩ := e
    by_cases hl : i < k
    · simp [tins, tfind, hl, Ne.symm h]
    · simp [tins, tfind, hl, ih]

/-- Reading the key that was put gives what was put. -/
@[simp] theorem tfind_tput_same {α : Type} (t : Tbl α) (i : Nat) (x : α) : tfind (tput t i x) i = some x :=
  tfind_tins_same _ _ _ (tfind_tdel_same t i)

/-- Putting a key changes no other. -/
theorem tfind_tput_other {α : Type} (t : Tbl α) {i j : Nat} (x : α) (h : j ≠ i) : tfind (tput t i x) j = tfind t j := by
  rw [tput, tfind_tins_other _ x h, tfind_tdel_other t h]

@[simp] theorem tget_tset_same {α : Type} [DecidableEq α] (d : α) (t : Tbl α) (i : Nat) (x : α) : tget d (tset d t i x) i = x := by
  by_cases h : x = d <;> simp [tset, tget, h, tfind_tdel_same]

theorem tget_tset_other {α : Type} [DecidableEq α] (d : α) (t : Tbl α) {i j : Nat} (x : α) (h : j ≠ i) :
    tget d (tset d t i x) j = tget d t j := by
  by_cases hx : x = d
  · simp [tset, tget, hx, tfind_tdel_other t h]
  · simp [tset, tget, hx, tfind_tput_other t x h]

theorem tget_tset {α : Type} [DecidableEq α] (d : α) (t : Tbl α) (i j : Nat) (x : α) :
    tget d (tset d t i x) j = if j = i then x else tget d t j := by
  by_cases h : j = i
  · subst h; simp
  · simp [h, tget_tset_other d t x h]

/-! ## The canonical form -/

theorem trising_iff {α : Type} (t : Tbl α) : trising t = true ↔ t.Pairwise (fun a b => a.1 < b.1) := by
  induction t with
  | nil => simp [trising]
  | cons e r ih =>
    cases r with
    | nil => simp [trising]
    | cons f q =>
      obtain ⟨a, x⟩ := e
      obtain ⟨b, y⟩ := f
      simp only [trising, Bool.and_eq_true, decide_eq_true_eq, ih, List.pairwise_cons]
      constructor
      · rintro ⟨h, h1, h2⟩
        refine ⟨?_, h1, h2⟩
        intro z hz
        rcases List.mem_cons.1 hz with rfl | hz
        · exact h
        · exact Nat.lt_trans h (h1 z hz)
      · rintro ⟨h, h1, h2⟩
        exact ⟨h _ (List.mem_cons_self ..), h1, h2⟩

theorem trising_tdel {α : Type} {t : Tbl α} (i : Nat) (h : trising t = true) : trising (tdel t i) = true := by
  rw [trising_iff] at h ⊢
  rw [tdel_eq_filter]
  exact h.filter _

theorem mem_tins {α : Type} (t : Tbl α) (i : Nat) (x : α) (e : Nat × α) : e ∈ tins t i x ↔ e = (i, x) ∨ e ∈ t := by
  induction t with
  | nil => simp [tins]
  | cons f r ih =>
    obtain ⟨k, v⟩ := f
    by_cases h : i < k
    · simp [tins, h]
    · simp only [tins, if_neg h, List.mem_cons, ih]; exact or_left_comm

theorem trising_tins {α : Type} {t : Tbl α} (i : Nat) (x : α) (h : trising t = true) (hn : ∀ e ∈ t, e.1 ≠ i) :
    trising (tins t i x) = true := by
  rw [trising_iff] at h ⊢
  induction t with
  | nil => simp [tins]
  | cons f r ih =>
    obtain ⟨k, v⟩ := f
    rw [List.pairwise_cons] at h
    have hr := ih h.2 (fun e he => hn e (List.mem_cons_of_mem _ he))
    by_cases hl : i < k
    · simp only [tins, if_pos hl, List.pairwise_cons]
      refine ⟨?_, h.1, h.2⟩
      intro z hz
      rcases List.mem_cons.1 hz with rfl | hz
      · exact hl
      · exact Nat.lt_trans hl (h.1 z hz)
    · simp only [tins, if_neg hl, List.pairwise_cons]
      refine ⟨?_, hr⟩
      intro z hz
      rcases (mem_tins r i x z).1 hz with rfl | hz
      · have := hn (k, v) (List.mem_cons_self ..)
        simp only at this ⊢
        omega
      · exact h.1 z hz

theorem trising_tput {α : Type} {t : Tbl α} (i : Nat) (x : α) (h : trising t = true) : trising (tput t i x) = true := by
  refine trising_tins i x (trising_tdel i h) ?_
  intro e he
  rw [tdel_eq_filter] at he
  simpa using (List.mem_filter.1 he).2

/-- Giving a key a value keeps the canonical form. -/
theorem twf_tset {α : Type} [DecidableEq α] {d : α} {t : Tbl α} (i : Nat) (x : α) (h : twf d t = true) :
    twf d (tset d t i x) = true := by
  simp only [twf, Bool.and_eq_true, List.all_eq_true, decide_eq_true_eq] at h ⊢
  have hd : ∀ e ∈ tdel t i, e.2 ≠ d := by
    intro e he
    rw [tdel_eq_filter] at he
    exact h.2 e (List.mem_filter.1 he).1
  by_cases hx : x = d
  · simp only [tset, if_pos hx]
    exact ⟨trising_tdel i h.1, hd⟩
  · simp only [tset, if_neg hx]
    refine ⟨trising_tput i x h.1, ?_⟩
    intro e he
    rcases (mem_tins _ i x e).1 he with rfl | he
    · exact hx
    · exact hd e he

theorem twf_filter {α : Type} [DecidableEq α] {d : α} {t : Tbl α} (p : Nat × α → Bool) (h : twf d t = true) :
    twf d (t.filter p) = true := by
  simp only [twf, Bool.and_eq_true, List.all_eq_true, decide_eq_true_eq, trising_iff] at h ⊢
  exact ⟨h.1.filter _, fun e he => h.2 e (List.mem_filter.1 he).1⟩

theorem tfind_none_of_lt {α : Type} {t : Tbl α} {i : Nat} (h : ∀ e ∈ t, i < e.1) : tfind t i = none := by
  induction t with
  | nil => rfl
  | cons e r ih =>
    obtain ⟨k, v⟩ := e
    have hk : i < k := h _ (List.mem_cons_self ..)
    simp [tfind, show ¬ k = i by omega, ih (fun e he => h e (List.mem_cons_of_mem _ he))]

/-- Two tables in canonical form that read alike are the same data. -/
theorem twf_ext {α : Type} [DecidableEq α] {d : α} {t u : Tbl α} (ht : twf d t = true) (hu : twf d u = true)
    (h : ∀ i, tget d t i = tget d u i) : t = u := by
  simp only [twf, Bool.and_eq_true, List.all_eq_true, decide_eq_true_eq, trising_iff] at ht hu
  induction t generalizing u with
  | nil =>
    cases u with
    | nil => rfl
    | cons f q =>
      obtain ⟨b, y⟩ := f
      have := h b
      simp [tget, tfind] at this
      exact absurd this.symm (hu.2 (b, y) (List.mem_cons_self ..))
  | cons e r ih =>
    obtain ⟨a, x⟩ := e
    obtain ⟨ht1, ht2⟩ := ht
    rw [List.pairwise_cons] at ht1
    cases u with
    | nil =>
      have := h a
      simp [tget, tfind] at this
      exact absurd this (ht2 (a, x) (List.mem_cons_self ..))
    | cons f q =>
      obtain ⟨b, y⟩ := f
      obtain ⟨hu1, hu2⟩ := hu
      rw [List.pairwise_cons] at hu1
      have hxd : x ≠ d := ht2 (a, x) (List.mem_cons_self ..)
      have hyd : y ≠ d := hu2 (b, y) (List.mem_cons_self ..)
      have hab : a = b := by
        rcases Nat.lt_trichotomy a b with hl | hl | hl
        · have h1 := h a
          have hn : tfind q a = none := tfind_none_of_lt (fun e he => Nat.lt_trans hl (hu1.1 e he))
          simp [tget, tfind, hn, show ¬ b = a by omega] at h1
          exact absurd h1 hxd
        · exact hl
        · have h1 := h b
          have hn : tfind r b = none := tfind_none_of_lt (fun e he => Nat.lt_trans hl (ht1.1 e he))
          simp [tget, tfind, hn, show ¬ a = b by omega] at h1
          exact absurd h1.symm hyd
      subst hab
      have hxy : x = y := by simpa [tget, tfind] using h a
      subst hxy
      have hr : r = q := by
        refine ih ?_ ⟨ht1.2, fun e he => ht2 e (List.mem_cons_of_mem _ he)⟩
          ⟨hu1.2, fun e he => hu2 e (List.mem_cons_of_mem _ he)⟩
        intro i
        by_cases hi : a = i
        · subst hi
          simp [tget, tfind_none_of_lt ht1.1, tfind_none_of_lt hu1.1]
        · simpa [tget, tfind, hi] using h i
      rw [hr]

/-! ## Memory -/

/-- A byte reads as the last write to it left it. -/
theorem rdByte_wrByte (m : List Host.Cell) (a b : Nat) (v : Byte) : rdByte (wrByte m a v) b = if b = a then v else rdByte m b :=
  tget_tset 0 m a b v

@[simp ↓] theorem wf_wrByte {m : List Host.Cell} (a : Nat) (v : Byte) (h : Memory.wf m = true) : Memory.wf (wrByte m a v) = true :=
  twf_tset a v h

/-- Writing bytes keeps the canonical form. -/
@[simp ↓] theorem wf_wrBytes {m : List Host.Cell} (as : List Nat) (bs : List Byte) (h : Memory.wf m = true) :
    Memory.wf (wrBytes m as bs) = true := by
  induction as generalizing m bs with
  | nil => simpa [wrBytes] using h
  | cons a as ih =>
    cases bs with
    | nil => simpa [wrBytes] using h
    | cons b bs => exact ih bs (wf_wrByte a b h)

@[simp ↓] theorem wf_wrNat {m : List Host.Cell} (a n v : Nat) (h : Memory.wf m = true) : Memory.wf (wrNat m a n v) = true :=
  wf_wrBytes _ _ h

@[simp ↓] theorem wf_wrList {m : List Host.Cell} (a : Nat) (l : List Byte) (h : Memory.wf m = true) : Memory.wf (wrList m a l) = true :=
  wf_wrBytes _ _ h

@[simp ↓] theorem wf_filter {m : List Host.Cell} (p : Host.Cell → Bool) (h : Memory.wf m = true) : Memory.wf (m.filter p) = true :=
  twf_filter p h

/-- Writing bytes changes no byte at another address. -/
theorem rdByte_wrBytes_other (m : List Host.Cell) (as : List Nat) (bs : List Byte) {x : Nat} (h : x ∉ as) :
    rdByte (wrBytes m as bs) x = rdByte m x := by
  induction as generalizing m bs with
  | nil => rfl
  | cons a as ih =>
    cases bs with
    | nil => rfl
    | cons b bs =>
      rw [List.mem_cons, not_or] at h
      rw [wrBytes, ih _ _ h.2, rdByte_wrByte, if_neg h.1]

/-- Two memories in canonical form that read alike are the same data. -/
theorem memory_ext {m n : List Host.Cell} (hm : Memory.wf m = true) (hn : Memory.wf n = true)
    (h : ∀ a, rdByte m a = rdByte n a) : m = n := twf_ext hm hn h

end Sys2Proof.Machine
end

