-- ==== Sys2Proof/Laws/Ops.lean ====
section
/-! SUPPORT. What each shared operation does, said once: registers of a hart, tasks and harts of a state, who executes, results,
and taking a trap. -/

namespace Sys2Proof.Machine

/-! ## Registers -/

@[simp] theorem Hart.x_zero (h : Hart) : h.x 0 = 0 := rfl

/-- Reading after a write: x0 never changes. -/
theorem Hart.x_setX (h : Hart) (d r : Reg) (v : Word) : (h.setX d v).x r = if r = d ∧ r ≠ 0 then v else h.x r := by
  by_cases hd : d = 0
  · have : ¬(r = d ∧ r ≠ 0) := fun e => e.2 (e.1.trans hd)
    rw [if_neg this, Hart.setX, if_pos hd]
  · rw [Hart.setX, if_neg hd]
    unfold Hart.x
    by_cases hr : r = 0
    · rw [if_pos hr, if_neg (fun e => e.2 hr), if_pos hr]
    · rw [if_neg hr, if_neg hr]
      by_cases h1 : r = d
      · rw [if_pos ⟨h1, hr⟩, h1]
        exact tget_tset_same 0 h.xs d.toNat v
      · rw [if_neg (fun e => h1 e.1)]
        exact tget_tset_other 0 h.xs v (fun e => h1 (BitVec.eq_of_toNat_eq e))

@[simp] theorem Hart.x_advance (h : Hart) (n : Nat) (r : Reg) : (h.advance n).x r = h.x r := rfl

@[simp] theorem Hart.x_nextPo (h : Hart) (r : Reg) : h.nextPo.x r = h.x r := rfl

/-- The check code of a register after a write. -/
theorem Hart.xbad_setX (h : Hart) (d : Reg) (v : Word) (n : Nat) :
    tget 0 (h.setX d v).xbad n = if n = d.toNat ∧ n ≠ 0 then 0 else tget 0 h.xbad n := by
  unfold Hart.setX
  by_cases hd : d = 0
  · have : ¬(n = d.toNat ∧ n ≠ 0) := fun e => e.2 (by simp [e.1, hd])
    rw [if_pos hd, if_neg this]
  · have hn : d.toNat ≠ 0 := fun e => hd (BitVec.eq_of_toNat_eq (by simpa using e))
    rw [if_neg hd]
    have := tget_tset (0 : Nat) h.xbad d.toNat n 0
    simp only [tset, if_true] at this
    by_cases h1 : n = d.toNat
    · subst h1; simp [this, hn]
    · simp [this, h1]

theorem Hart.registerSet (h : Hart) (d : Reg) (v : Word) : RegisterSet h (h.setX d v) d v :=
  ⟨fun r => Hart.x_setX h d r v, fun n => Hart.xbad_setX h d v n⟩

/-- What a register result leaves of the hart. -/
theorem Hart.written (h : Hart) (d : Reg) (v : Word) (n : Nat) : RegisterWritten h ((h.setX d v).advance n) d v n := by
  refine ⟨Hart.registerSet h d v, by simp, ?_⟩
  cases h; unfold Hart.setX Hart.advance; split <;> rfl

/-! ## Tasks of a state -/

@[simp] theorem task?_putTask_same (s : State) (k : Nat) (t : Task) : (s.putTask k t).task? k = some t :=
  tfind_tput_same s.tasks k t

theorem task?_putTask_other (s : State) {k j : Nat} (t : Task) (h : j ≠ k) : (s.putTask k t).task? j = s.task? j :=
  tfind_tput_other s.tasks t h

theorem task?_putTask (s : State) (k j : Nat) (t : Task) : (s.putTask k t).task? j = if j = k then some t else s.task? j := by
  by_cases h : j = k
  · subst h; simp
  · simp [h, task?_putTask_other s t h]

/-- Putting a task changes nothing else. -/
theorem onlyTask_putTask (s : State) (k : Nat) (u : Task) : OnlyTask s (s.putTask k u) k u :=
  ⟨task?_putTask_same s k u, fun _ h => task?_putTask_other s u h, ⟨fun _ => rfl, fun _ => rfl⟩, rfl⟩

/-! ## Stoek programs of a task -/

theorem find?_map_put (l : List Stoek) (p : Stoek) (n : Nat) :
    (l.map (fun q => if q.tag = p.tag then p else q)).find? (fun q => q.tag = n) =
      if n = p.tag ∧ (l.find? (fun q => q.tag = n)).isSome then some p else l.find? (fun q => q.tag = n) := by
  induction l with
  | nil => simp
  | cons a l ih =>
    by_cases h1 : a.tag = p.tag
    · by_cases h2 : p.tag = n
      · simp [h1, h2]
      · have h3 : ¬n = p.tag := fun e => h2 e.symm
        simp [h1, h2, h3] at ih ⊢
        exact ih
    · by_cases h2 : a.tag = n
      · have h3 : ¬n = p.tag := fun e => h1 (h2.trans e)
        simp [h2, h3]
      · simp [h1, h2] at ih ⊢
        exact ih

/-- A program that executes keeps its pins. -/
@[simp] theorem unpinned_live (p : Stoek) (h : p.live = true) : p.unpinned = p := by
  simp only [Stoek.live, beq_iff_eq] at h
  simp [Stoek.unpinned, h]

theorem putStoek_stoek? (t : Task) (p : Stoek) (n : Nat) (hu : p.unpinned = p) :
    (t.putStoek p).stoek? n = if n = p.tag ∧ (t.stoek? n).isSome then some p else t.stoek? n := by
  unfold Task.stoek? Task.putStoek
  rw [hu]
  exact find?_map_put t.stoeks p n

theorem stoek?_tag {t : Task} {n : Nat} {p : Stoek} (h : t.stoek? n = some p) : p.tag = n := by
  simpa using List.find?_some h

theorem putStoek_live (t : Task) (p : Stoek) (h : p.live = true) :
    t.putStoek p = { t with stoeks := t.stoeks.map (fun q => if q.tag = p.tag then p else q) } := by
  simp [Task.putStoek, h]

/-- Putting a program that goes on executing changes no other program and nothing else of its task. -/
theorem onlyProgram_putStoek {s : State} {k tag : Nat} {t : Task} {p p' : Stoek} (ht : s.task? k = some t)
    (hp : t.stoek? tag = some p) (htag : p'.tag = tag) (hl : p'.live = true) :
    OnlyProgram s (s.putTask k (t.putStoek p')) k tag p' := by
  subst htag
  refine ⟨?_, ?_, ?_, fun _ h => task?_putTask_other s _ h, ⟨fun _ => rfl, fun _ => rfl⟩, rfl⟩
  · simp [State.program, putStoek_stoek? _ _ _ (unpinned_live _ hl), hp]
  · intro n hn
    simp [State.program, putStoek_stoek? _ _ _ (unpinned_live _ hl), hn, ht]
  · simp [ht, putStoek_live t p' hl]

/-! ## Harts of a state -/

/-- Giving an agent that executes another hart changes nothing else. -/
theorem onlyHart_putHart {s : State} {ag : Agent} {h : Hart} (hr : s.runs ag = true) (hh : s.hart? ag = some h) (h' : Hart) :
    OnlyHart s (s.putHart ag h') ag h' := by
  unfold State.runs at hr
  unfold State.hart? at hh
  cases ht : s.task? (agentTask ag) with
  | none => simp [ht] at hr
  | some t =>
    simp only [ht] at hr hh
    cases ag with
    | scp k =>
      have hput : s.putHart (.scp k) h' = s.putTask k { t with hart := h' } := by
        simp only [State.putHart]
        rw [ht]
      rw [hput]
      simp only [agentTask] at ht
      refine ⟨⟨by simp [State.hart?, agentTask], ?_, ?_, ?_, fun _ => rfl, fun _ => rfl⟩, rfl⟩
      · intro b hb
        cases b with
        | scp j =>
          have : j ≠ k := fun e => hb (by rw [e])
          simp [State.hart?, agentTask, task?_putTask_other s _ this]
        | stoek j n =>
          by_cases e : j = k
          · subst e; simp [State.hart?, agentTask, ht, Task.stoek?]
          · simp [State.hart?, agentTask, task?_putTask_other s _ e]
      · intro j
        by_cases e : j = k
        · subst e; simp [ht, Task.bare]
        · rw [task?_putTask_other s _ e]
      · intro j n
        by_cases e : j = k
        · subst e; simp [State.program, ht, Task.stoek?]
        · simp [State.program, task?_putTask_other s _ e]
    | stoek k tag =>
      cases hp : t.stoek? tag with
      | none => simp [hp] at hh
      | some p =>
        simp only [agentTask] at ht
        have hlive : p.live = true := by
          simp only [hp, Bool.and_eq_true] at hr
          simp at hr
          exact hr.2.1.1
        have htag := stoek?_tag hp
        have hput : s.putHart (.stoek k tag) h' = s.putTask k (t.putStoek { p with hart := h' }) := by
          simp only [State.putHart, agentTask]
          rw [ht]
          simp [hp]
        have hq : ({ p with hart := h' } : Stoek).live = true := hlive
        have hst : ∀ n, (t.putStoek { p with hart := h' }).stoek? n =
            if n = tag then some { p with hart := h' } else t.stoek? n := by
          intro n
          rw [putStoek_stoek? (hu := unpinned_live _ hq)]
          by_cases e : n = tag
          · subst e; simp [hp, htag]
          · simp [htag, e]
        rw [hput]
        refine ⟨⟨by simp [State.hart?, agentTask, hst], ?_, ?_, ?_, fun _ => rfl, fun _ => rfl⟩, rfl⟩
        · intro b hb
          cases b with
          | scp j =>
            by_cases e : j = k
            · subst e; simp [State.hart?, agentTask, ht, putStoek_live t _ hq]
            · simp [State.hart?, agentTask, task?_putTask_other s _ e]
          | stoek j n =>
            by_cases e : j = k
            · subst e
              have : n ≠ tag := fun e => hb (by rw [e])
              simp [State.hart?, agentTask, ht, hst, this]
            · simp [State.hart?, agentTask, task?_putTask_other s _ e]
        · intro j
          by_cases e : j = k
          · subst e; simp [ht, Task.bare, putStoek_live t _ hq]
          · rw [task?_putTask_other s _ e]
        · intro j n
          by_cases e : j = k
          · subst e
            by_cases e2 : n = tag
            · subst e2; simp [State.program, ht, hst, hp, Stoek.bare]
            · simp [State.program, ht, hst, e2]
          · simp [State.program, task?_putTask_other s _ e]

/-! ## Who executes -/

theorem onHart_of {s : State} {ag : Agent} {h : Hart} (hx : Executes s ag h) (k : Agent → Hart → Out) : s.onHart k = k ag h := by
  obtain ⟨hf, hr, hh⟩ := hx
  subst hf
  simp [State.onHart, hr, hh]

theorem runs_scp {s : State} {k : Nat} {t : Task} (ht : s.task? k = some t) : s.runs (.scp k) = t.placed := by
  simp [State.runs, agentTask, ht]

theorem hart?_scp {s : State} {k : Nat} {t : Task} (ht : s.task? k = some t) : s.hart? (.scp k) = some t.hart := by
  simp [State.hart?, agentTask, ht]

theorem putHart_scp {s : State} {k : Nat} {t : Task} (ht : s.task? k = some t) (h' : Hart) :
    s.putHart (.scp k) h' = s.putTask k { t with hart := h' } := by
  simp [State.putHart, agentTask, ht]

theorem ScpExecutes.executes {s : State} {k : Nat} {t : Task} (h : ScpExecutes s k t) : Executes s (.scp k) t.hart :=
  ⟨h.1, by rw [runs_scp h.2.1]; exact h.2.2, hart?_scp h.2.1⟩

theorem onScp_of {s : State} {n : Nat} {t : Task} (hx : ScpExecutes s n t) (k : Nat → Task → Out) : s.onScp k = k n t := by
  obtain ⟨hf, ht, hp⟩ := hx
  simp [State.onScp, hf, runs_scp ht, hp, ht]

theorem onSup_of {s : State} {n : Nat} {t : Task} (hx : ScpExecutes s n t) (hm : t.sup.mode = true) (k : Nat → Task → Out) :
    s.onSup k = k n t := by
  rw [State.onSup, onScp_of hx]; simp [hm]

/-- A privileged word in mode U raises PERM (R168). -/
theorem onSup_user {s : State} {n : Nat} {t : Task} (hx : ScpExecutes s n t) (hm : t.sup.mode = false) (k : Nat → Task → Out) :
    s.onSup k = .next (s.scpFault n (plainFault cPERM)) := by
  rw [State.onSup, onScp_of hx]; simp [hm]

theorem onStepMember_of {s : State} {n : Nat} {t : Task} (hx : ScpExecutes s n t) (hm : t.stepm = true) (k : Nat → Task → Out) :
    s.onStepMember k = k n t := by
  rw [State.onStepMember, onScp_of hx]; simp [hm]

theorem onStoek_of {s : State} {n tag : Nat} {t : Task} {p : Stoek} (hx : StoekExecutes s n tag t p)
    (k : Nat → Task → Stoek → Out) : s.onStoek k = k n t p := by
  obtain ⟨hf, hr, ht, hp⟩ := hx
  simp [State.onStoek, hf, hr, ht, hp]

/-- A Stoek program that executes is live. -/
theorem StoekExecutes.live {s : State} {n tag : Nat} {t : Task} {p : Stoek} (hx : StoekExecutes s n tag t p) : p.live = true := by
  obtain ⟨-, hr, ht, hp⟩ := hx
  simp only [State.runs, agentTask, ht, hp, Bool.and_eq_true, Option.map_some, Option.getD_some] at hr
  exact hr.2.1.1

/-- An SCP's word on a Stoek core raises ILLOP (R151). -/
theorem onScp_stoek {s : State} {n tag : Nat} (hf : s.focus = .stoek n tag) (hr : s.runs (.stoek n tag) = true)
    (k : Nat → Task → Out) : s.onScp k = .next (s.stoekFault n tag (plainFault cILLOP)) := by
  simp [State.onScp, hf, hr]

/-- A Stoek word on an SCP raises ILLOP (R151). -/
theorem onStoek_scp {s : State} {n : Nat} {t : Task} (hx : ScpExecutes s n t) (k : Nat → Task → Stoek → Out) :
    s.onStoek k = .next (s.scpFault n (plainFault cILLOP)) := by
  simp [State.onStoek, hx.1, runs_scp hx.2.1, hx.2.2]

/-! ## Results -/

/-- A register result, once the interlock is satisfied, completes; nothing but the register and the pc changes. -/
theorem result_ready {s : State} {ag : Agent} {h : Hart} (hx : Executes s ag h) {rs : List Reg} {d : Reg}
    (hb : h.ready (d :: rs) = true) (f : Hart → Word) :
    s.result rs d f = .next (s.putHart ag ((h.setX d (f h)).advance 4)) := by
  rw [State.result, onHart_of hx]; simp [hb]

/-- While a register named is still to be written, the word waits (R182). -/
theorem result_waits {s : State} {ag : Agent} {h : Hart} (hx : Executes s ag h) {rs : List Reg} {d : Reg}
    (hb : h.ready (d :: rs) = false) (f : Hart → Word) : s.result rs d f = .next s := by
  rw [State.result, onHart_of hx]; simp [hb]

theorem results_of {i : Instr} {s : State} {ag : Agent} {h : Hart} {d : Reg} {v w : Word} {n : Nat} (hx : Executes s ag h)
    (he : exec i s = .next (s.putHart ag ((h.setX d v).advance n))) (hv : v = w) : Results i s ag h d w n := by
  subst hv
  exact ⟨_, _, he, onlyHart_putHart hx.2.1 hx.2.2 _, Hart.written h d v n⟩

/-- An instruction executed at issue writes its register and moves past a long form. -/
theorem atIssue_of {s : State} {k : Nat} {t : Task} (hx : ScpExecutes s k t) {rs : List Reg} {d : Reg} {ok : Task → Bool}
    (hb : t.hart.ready (d :: rs) = true) (ho : ok t = true) (f : Task → Word) :
    s.atIssue rs d ok f = .next (s.putHart (.scp k) ((t.hart.setX d (f t)).advance 8)) := by
  rw [State.atIssue, onScp_of hx]; simp [hb, ho]

/-- A stream instruction that finds room is queued. -/
theorem issue_of {s : State} {k : Nat} {t : Task} (hx : ScpExecutes s k t) {i : Instr} {d : Reg} {rs : List Reg}
    (hb : t.hart.ready (d :: rs) = true) (hq : t.sq.length < 64) :
    s.issue i d rs = .next (s.putTask k (t.enqueue i d (rs.map t.hart.x) [])) := by
  rw [State.issue, onScp_of hx]; simp [hb, Nat.not_le.2 hq]

/-! ## Traps -/

/-- Trap entry with EXL clear (R317). -/
theorem takeTrap_of {s : State} {k : Nat} {t : Task} (ht : s.task? k = some t) (he : t.sup.exl = false) (c : TrapCause)
    (fp rp : Word) : s.takeTrap k c fp rp = s.putTask k (t.trapEntry c fp rp) := by
  simp [State.takeTrap, ht, he]

/-- A fault with EXL set is a double fault (R318). -/
theorem takeTrap_double {s : State} {k : Nat} {t : Task} (ht : s.task? k = some t) (he : t.sup.exl = true) (c : TrapCause)
    (fp rp : Word) : s.takeTrap k c fp rp = s.doubleFault k t c := by
  simp [State.takeTrap, ht, he]

/-- A precise SCP fault with EXL clear. -/
theorem scpFault_of {s : State} {k : Nat} {t : Task} (ht : s.task? k = some t) (he : t.sup.exl = false) (f : FaultInfo) :
    s.scpFault k f = s.putTask k (t.trapEntry (scpCause f) t.hart.pc t.hart.pc) := by
  simp [State.scpFault, ht, takeTrap_of ht he]

/-! ## Registers of the package -/

theorem preg_setPreg (s : State) (n m v : Nat) :
    (s.setPreg n v).preg m = if m = n then v % 2 ^ 64 else s.preg m := by
  simp only [State.preg, State.setPreg, tget_tset]
  split <;> simp

end Sys2Proof.Machine
end

