-- ==== Sys2Proof/Laws/PerInstr.lean ====
section
/-! SUPPORT. One lemma for each row of the opcode table: the family WordSized. -/

namespace Sys2Proof.Laws.WordSized

/-- An event has no words; a word instruction has one, a long form two (R145, R149). -/
def Statement (i : Instr) : Prop := (encode i).length = if i.isWord then (if i.isLong then 2 else 1) else 0

theorem add (d : Reg) (a : Reg) (b : Reg) : Statement (.add d a b) := rfl
theorem sub (d : Reg) (a : Reg) (b : Reg) : Statement (.sub d a b) := rfl
theorem and (d : Reg) (a : Reg) (b : Reg) : Statement (.and d a b) := rfl
theorem or (d : Reg) (a : Reg) (b : Reg) : Statement (.or d a b) := rfl
theorem xor (d : Reg) (a : Reg) (b : Reg) : Statement (.xor d a b) := rfl
theorem andn (d : Reg) (a : Reg) (b : Reg) : Statement (.andn d a b) := rfl
theorem shl (d : Reg) (a : Reg) (b : Reg) : Statement (.shl d a b) := rfl
theorem shr (d : Reg) (a : Reg) (b : Reg) : Statement (.shr d a b) := rfl
theorem sha (d : Reg) (a : Reg) (b : Reg) : Statement (.sha d a b) := rfl
theorem rot (d : Reg) (a : Reg) (b : Reg) : Statement (.rot d a b) := rfl
theorem min (d : Reg) (a : Reg) (b : Reg) : Statement (.min d a b) := rfl
theorem max (d : Reg) (a : Reg) (b : Reg) : Statement (.max d a b) := rfl
theorem minu (d : Reg) (a : Reg) (b : Reg) : Statement (.minu d a b) := rfl
theorem maxu (d : Reg) (a : Reg) (b : Reg) : Statement (.maxu d a b) := rfl
theorem cmp (c : Cond) (d : Reg) (a : Reg) (b : Reg) : Statement (.cmp c d a b) := rfl
theorem sel (d : Reg) (a : Reg) (b : Reg) (c : Reg) : Statement (.sel d a b c) := rfl
theorem clz (d : Reg) (a : Reg) : Statement (.clz d a) := rfl
theorem ctz (d : Reg) (a : Reg) : Statement (.ctz d a) := rfl
theorem popc (d : Reg) (a : Reg) : Statement (.popc d a) := rfl
theorem addi (d : Reg) (a : Reg) (imm : BitVec 16) : Statement (.addi d a imm) := rfl
theorem andi (d : Reg) (a : Reg) (imm : BitVec 16) : Statement (.andi d a imm) := rfl
theorem ori (d : Reg) (a : Reg) (imm : BitVec 16) : Statement (.ori d a imm) := rfl
theorem xori (d : Reg) (a : Reg) (imm : BitVec 16) : Statement (.xori d a imm) := rfl
theorem shli (d : Reg) (a : Reg) (n : BitVec 6) : Statement (.shli d a n) := rfl
theorem shri (d : Reg) (a : Reg) (n : BitVec 6) : Statement (.shri d a n) := rfl
theorem shai (d : Reg) (a : Reg) (n : BitVec 6) : Statement (.shai d a n) := rfl
theorem cmpi (c : Cond) (d : Reg) (a : Reg) (imm : BitVec 12) : Statement (.cmpi c d a imm) := rfl
theorem lih (d : Reg) (imm : BitVec 16) : Statement (.lih d imm) := rfl
theorem lea (d : Reg) (a : Reg) (b : Reg) (sc : BitVec 3) (imm : BitVec 8) : Statement (.lea d a b sc imm) := rfl
theorem bc (c : Cond) (a : Reg) (b : Reg) (off : BitVec 12) : Statement (.bc c a b off) := rfl
theorem j (off : BitVec 26) : Statement (.j off) := rfl
theorem jal (off : BitVec 26) : Statement (.jal off) := rfl
theorem jr (a : Reg) : Statement (.jr a) := rfl
theorem jalr (d : Reg) (a : Reg) : Statement (.jalr d a) := rfl
theorem mul (d : Reg) (a : Reg) (b : Reg) : Statement (.mul d a b) := rfl
theorem mulh (d : Reg) (a : Reg) (b : Reg) : Statement (.mulh d a b) := rfl
theorem mulhu (d : Reg) (a : Reg) (b : Reg) : Statement (.mulhu d a b) := rfl
theorem div (d : Reg) (a : Reg) (b : Reg) : Statement (.div d a b) := rfl
theorem divu (d : Reg) (a : Reg) (b : Reg) : Statement (.divu d a b) := rfl
theorem rem (d : Reg) (a : Reg) (b : Reg) : Statement (.rem d a b) := rfl
theorem remu (d : Reg) (a : Reg) (b : Reg) : Statement (.remu d a b) := rfl
theorem ldf (sz : Sz) (sx : Bool) (d : Reg) (a : Reg) (imm : BitVec 11) : Statement (.ldf sz sx d a imm) := rfl
theorem stf (sz : Sz) (r : Reg) (a : Reg) (imm : BitVec 12) : Statement (.stf sz r a imm) := rfl
theorem ldp (sz : Sz) (sx : Bool) (ord : Ord) (d : Reg) (a : Reg) (imm : BitVec 11) : Statement (.ldp sz sx ord d a imm) := rfl
theorem stp (sz : Sz) (ord : Ord) (r : Reg) (a : Reg) (imm : BitVec 12) : Statement (.stp sz ord r a imm) := rfl
theorem ldg (sz : Sz) (sx : Bool) (ord : Ord) (d : Reg) (a : Reg) (imm : BitVec 11) : Statement (.ldg sz sx ord d a imm) := rfl
theorem stg (sz : Sz) (ord : Ord) (r : Reg) (a : Reg) (imm : BitVec 12) : Statement (.stg sz ord r a imm) := rfl
theorem ldh (sz : Sz) (sx : Bool) (ord : Ord) (d : Reg) (a : Reg) (imm : BitVec 11) : Statement (.ldh sz sx ord d a imm) := rfl
theorem sth (sz : Sz) (ord : Ord) (r : Reg) (a : Reg) (imm : BitVec 12) : Statement (.sth sz ord r a imm) := rfl
theorem mfc (d : Reg) (a : Reg) (imm : BitVec 11) : Statement (.mfc d a imm) := rfl
theorem mtc (r : Reg) (a : Reg) (imm : BitVec 12) : Statement (.mtc r a imm) := rfl
theorem cas (dw : Bool) (ord : Ord) (host : Bool) (d : Reg) (a : Reg) (b : Reg) : Statement (.cas dw ord host d a b) := rfl
theorem amo (op : AmoOp) (dw : Bool) (ord : Ord) (host : Bool) (d : Reg) (a : Reg) (b : Reg) : Statement (.amo op dw ord host d a b) := rfl
theorem red (op : RedOp) (dw : Bool) (ord : Ord) (a : Reg) (b : Reg) : Statement (.red op dw ord a b) := rfl
theorem mark (sc : Scope) : Statement (.mark sc) := by cases sc <;> rfl
theorem ipf (a : Reg) (n : BitVec 11) : Statement (.ipf a n) := rfl
theorem hint (bits : BitVec 29) : Statement (.hint bits) := rfl
theorem trap (c : BitVec 8) : Statement (.trap c) := rfl
theorem scall (c : BitVec 8) : Statement (.scall c) := rfl
theorem eret : Statement (.eret) := rfl
theorem waite : Statement (.waite) := rfl
theorem halt : Statement (.halt) := rfl
theorem tlbi (a : Reg) (b : Reg) : Statement (.tlbi a b) := rfl
theorem tlbsync : Statement (.tlbsync) := rfl
theorem streamFaultTrap (t : Nat) : Statement (.streamFaultTrap t) := rfl
theorem deferredLoadFault (t : Nat) : Statement (.deferredLoadFault t) := rfl
theorem loadBind (ag : Agent) (po : Nat) : Statement (.loadBind ag po) := rfl
theorem haltComplete (t : Nat) : Statement (.haltComplete t) := rfl
theorem tdset (d : Reg) (td : BitVec 6) (line : BitVec 15) : Statement (.tdset d td line) := rfl
theorem tdmov (d : Reg) (td : BitVec 6) (field : BitVec 5) (a : Reg) : Statement (.tdmov d td field a) := rfl
theorem tdget (d : Reg) (td : BitVec 6) (field : BitVec 5) : Statement (.tdget d td field) := rfl
theorem ringi (d : Reg) (n : BitVec 4) (a : Reg) (nslot : BitVec 9) (slot1 : BitVec 9) : Statement (.ringi d n a nslot slot1) := rfl
theorem ringq (d : Reg) (n : BitVec 4) : Statement (.ringq d n) := rfl
theorem sld (d : Reg) (td : BitVec 6) (line : BitVec 15) (rsz : BitVec 9) (rg : Bool) (e : Bool) (pad : Bool) (mmas : Bool) (a : Reg) (b : Reg) : Statement (.sld d td line rsz rg e pad mmas a b) := rfl
theorem sst (d : Reg) (td : BitVec 6) (line : BitVec 15) (rsz : BitVec 9) (rg : Bool) (e : Bool) (pad : Bool) (a : Reg) (b : Reg) : Statement (.sst d td line rsz rg e pad a b) := rfl
theorem sga (d : Reg) (td : BitVec 6) (line : BitVec 15) (rsz : BitVec 9) (rg : Bool) (e : Bool) (a : Reg) (b : Reg) : Statement (.sga d td line rsz rg e a b) := rfl
theorem ssc (op : SscOp) (d : Reg) (td : BitVec 6) (line : BitVec 15) (rsz : BitVec 9) (rg : Bool) (e : Bool) (a : Reg) (b : Reg) : Statement (.ssc op d td line rsz rg e a b) := rfl
theorem scpy (d : Reg) (e : Bool) (drop : Bool) (linea : BitVec 15) (lineb : BitVec 15) (rga : Bool) (rgb : Bool) (a : Reg) : Statement (.scpy d e drop linea lineb rga rgb a) := rfl
theorem krun (d : Reg) (kentry : BitVec 13) (a : Reg) (narg : BitVec 4) (t5 : Bool) (b : Reg) : Statement (.krun d kentry a narg t5 b) := rfl
theorem kstat (d : Reg) (a : Reg) : Statement (.kstat d a) := rfl
theorem sqstat (d : Reg) (a : Reg) : Statement (.sqstat d a) := rfl
theorem sqwait (a : Reg) : Statement (.sqwait a) := rfl
theorem sqwaitAll : Statement (.sqwaitAll) := rfl
theorem nbmv (d : Reg) (td : BitVec 6) (yline : BitVec 15) (acc : Bool) (a : Reg) (b : Reg) : Statement (.nbmv d td yline acc a b) := rfl
theorem descend (d : Reg) (td : BitVec 6) (l0 : BitVec 5) (l1 : BitVec 5) (dg : BitVec 3) (pt : Bool) (mg : Bool) (lf : Bool) (a : Reg) (b : Reg) : Statement (.descend d td l0 l1 dg pt mg lf a b) := rfl
theorem stkrun (d : Reg) (n : BitVec 4) (a : Reg) (b : Reg) : Statement (.stkrun d n a b) := rfl
theorem stkrunNoring (d : Reg) (a : Reg) (b : Reg) : Statement (.stkrunNoring d a b) := rfl
theorem stkcan (a : Reg) : Statement (.stkcan a) := rfl
theorem gjoin (g : BitVec 6) : Statement (.gjoin g) := rfl
theorem gleave (g : BitVec 6) : Statement (.gleave g) := rfl
theorem gbar (g : BitVec 6) : Statement (.gbar g) := rfl
theorem stepArr : Statement (.stepArr) := rfl
theorem stepWait : Statement (.stepWait) := rfl
theorem stepQry (d : Reg) (full : Bool) : Statement (.stepQry d full) := rfl
theorem streamStart (t : Nat) (tag : Nat) : Statement (.streamStart t tag) := rfl
theorem ringWaitSatisfied (t : Nat) (tag : Nat) : Statement (.ringWaitSatisfied t tag) := rfl
theorem streamComplete (t : Nat) (tag : Nat) : Statement (.streamComplete t tag) := rfl
theorem kernelBundle (t : Nat) : Statement (.kernelBundle t) := rfl
theorem ixrd (app : Bool) (d : Reg) (a : Reg) (b : Reg) : Statement (.ixrd app d a b) := rfl
theorem rowld (td : BitVec 6) (line : BitVec 6) (w : BitVec 16) (a : Reg) (b : Reg) : Statement (.rowld td line w a b) := rfl
theorem ddup (d : Reg) (mt : Bool) (line : BitVec 6) : Statement (.ddup d mt line) := rfl
theorem pool (isMax : Bool) (acc : Bool) (td : BitVec 6) (line : BitVec 6) (w : BitVec 16) (a : Reg) (b : Reg) : Statement (.pool isMax acc td line w a b) := rfl
theorem poolWadd (td : BitVec 6) (line : BitVec 6) (w : BitVec 16) (a : Reg) (b : Reg) : Statement (.poolWadd td line w a b) := rfl
theorem emit (e : Bool) (eos : Bool) : Statement (.emit e eos) := rfl
theorem sqw (sz : Sz) (a : Reg) (b : Reg) (off : BitVec 13) : Statement (.sqw sz a b off) := rfl
theorem probe (td : BitVec 6) (w : BitVec 16) (a : Reg) (b : Reg) : Statement (.probe td w a b) := rfl
theorem unpin : Statement (.unpin) := rfl
theorem skend : Statement (.skend) := rfl
theorem stoekPublish (t : Nat) (tag : Nat) : Statement (.stoekPublish t tag) := rfl
theorem mcWriteAccept (ag : Agent) : Statement (.mcWriteAccept ag) := rfl
theorem mcWriteback (unit : Nat) : Statement (.mcWriteback unit) := rfl
theorem msixHoldoffExpiry : Statement (.msixHoldoffExpiry) := rfl
theorem launchAdmit : Statement (.launchAdmit) := rfl
theorem taskPlace (pg : Nat) : Statement (.taskPlace pg) := rfl
theorem shadowPreload (pg : Nat) : Statement (.shadowPreload pg) := rfl
theorem budgetExpiry (t : Nat) : Statement (.budgetExpiry t) := rfl
theorem drainLimitExpiry (t : Nat) : Statement (.drainLimitExpiry t) := rfl
theorem contextSaveComplete (t : Nat) : Statement (.contextSaveComplete t) := rfl
theorem lqctlWrite (q : BitVec 4) (v : Word) : Statement (.lqctlWrite q v) := rfl
theorem lqtailDoorbell (q : BitVec 4) (v : Word) : Statement (.lqtailDoorbell q v) := rfl
theorem taskcmdTerminate (lg : BitVec 8) (lidx : BitVec 8) : Statement (.taskcmdTerminate lg lidx) := rfl
theorem taskcmdRerun (lg : BitVec 8) (lidx : BitVec 8) : Statement (.taskcmdRerun lg lidx) := rfl
theorem taskcmdSave (lg : BitVec 8) (lidx : BitVec 8) : Statement (.taskcmdSave lg lidx) := rfl
theorem quiesceStep : Statement (.quiesceStep) := rfl
theorem quiesceKernel : Statement (.quiesceKernel) := rfl
theorem quiesceDone : Statement (.quiesceDone) := rfl
theorem resume : Statement (.resume) := rfl
theorem restore : Statement (.restore) := rfl
theorem greset (pgn : BitVec 6) (die : BitVec 2) : Statement (.greset pgn die) := rfl
theorem ctxPoolWrite (isN : Bool) (v : Word) : Statement (.ctxPoolWrite isN v) := rfl
theorem sfctlRetire (t : Nat) : Statement (.sfctlRetire t) := rfl
theorem wakeset (lg : BitVec 8) : Statement (.wakeset lg) := rfl
theorem stepnumWrite (v : Word) : Statement (.stepnumWrite v) := rfl
theorem stepqWrite (v : Word) : Statement (.stepqWrite v) := rfl
theorem stepcfgWrite (v : Word) : Statement (.stepcfgWrite v) := rfl
theorem evqctlWrite (v : Word) : Statement (.evqctlWrite v) := rfl
theorem registerWrite (num : BitVec 12) (v : Word) : Statement (.registerWrite num v) := rfl
theorem hwsizeWrite (v : Word) : Statement (.hwsizeWrite v) := rfl
theorem fctlWrite (v : Word) : Statement (.fctlWrite v) := rfl
theorem deadset (rank : BitVec 12) : Statement (.deadset rank) := rfl
theorem laserctlWrite (v : Word) : Statement (.laserctlWrite v) := rfl
theorem mrateWrite (stack : BitVec 4) (v : Word) : Statement (.mrateWrite stack v) := rfl
theorem rateSwitchComplete (ch : Nat) (stallNs : BitVec 32) : Statement (.rateSwitchComplete ch stallNs) := rfl
theorem kscmdLoad (v : Word) : Statement (.kscmdLoad v) := rfl
theorem kernelStoreCopy : Statement (.kernelStoreCopy) := rfl
theorem tcbaseWrite (v : Word) : Statement (.tcbaseWrite v) := rfl
theorem attReport (buf : BitVec 52) : Statement (.attReport buf) := rfl
theorem attCertificate (buf : BitVec 52) : Statement (.attCertificate buf) := rfl
theorem hostBar0Access (off : BitVec 16) (op : HostOp) : Statement (.hostBar0Access off op) := rfl
theorem hostBar2Access (off : BitVec 36) (op : HostOp) : Statement (.hostBar2Access off op) := rfl
theorem ucieModuleFail (m : BitVec 2) : Statement (.ucieModuleFail m) := rfl
theorem powerOn (rank : BitVec 12) (incarnation : BitVec 4) (ptdir : Word) (svecdef : Word) : Statement (.powerOn rank incarnation ptdir svecdef) := rfl
theorem sidebandImagePush (image : List Byte) : Statement (.sidebandImagePush image) := rfl
theorem ageingCheck (die : BitVec 2) (newMv : BitVec 16) (slackPs : BitVec 16) (starved : Bool) : Statement (.ageingCheck die newMv slackPs starved) := rfl
theorem tempSample (stack : BitVec 4) (layer : BitVec 4) (temp : BitVec 8) : Statement (.tempSample stack layer temp) := rfl
theorem refreshCommand (ch : Nat) (bank : BitVec 5) (firstRow : BitVec 16) (count : BitVec 16) : Statement (.refreshCommand ch bank firstRow count) := rfl
theorem rowPrecharge (ch : Nat) (bank : BitVec 5) (row : BitVec 16) : Statement (.rowPrecharge ch bank row) := rfl
theorem patrolScrub (unit : Nat) : Statement (.patrolScrub unit) := rfl
theorem stepWatchdogExpiry : Statement (.stepWatchdogExpiry) := rfl
theorem treeArr (p : Packet) : Statement (.treeArr p) := rfl
theorem treeDrain (p : Packet) : Statement (.treeDrain p) := rfl
theorem treeDrn (p : Packet) : Statement (.treeDrn p) := rfl
theorem treeCommit (p : Packet) : Statement (.treeCommit p) := rfl
theorem treeCmt (p : Packet) : Statement (.treeCmt p) := rfl
theorem treeRel (p : Packet) : Statement (.treeRel p) := rfl
theorem rdreq (p : Packet) : Statement (.rdreq p) := rfl
theorem rdrsp (p : Packet) : Statement (.rdrsp p) := rfl
theorem recv (p : Packet) : Statement (.recv p) := rfl
theorem recack (p : Packet) : Statement (.recack p) := rfl
theorem credit (p : Packet) : Statement (.credit p) := rfl
theorem fabricRetry (txid : BitVec 16) : Statement (.fabricRetry txid) := rfl
theorem fabricTimeout (txid : BitVec 16) : Statement (.fabricTimeout txid) := rfl
theorem flitReceive (port : BitVec 6) (seq : BitVec 12) (flit : BitVec 256) (good : Bool) : Statement (.flitReceive port seq flit good) := rfl
theorem flitAck (port : BitVec 6) (seq : BitVec 12) : Statement (.flitAck port seq) := rfl
theorem laserFailure (unit : BitVec 2) (how : LightLoss) (port : BitVec 6) (detectNs : BitVec 32) (replayNs : BitVec 32) :
    Statement (.laserFailure unit how port detectNs replayNs) := rfl
theorem restripeTimeout (port : BitVec 6) : Statement (.restripeTimeout port) := rfl
theorem illopDecode : Statement (.illopDecode) := rfl
theorem instructionFetchFault : Statement (.instructionFetchFault) := rfl
theorem hostCompletion (ag : Agent) : Statement (.hostCompletion ag) := rfl
theorem podmapWrite (i : BitVec 6) (v : Word) : Statement (.podmapWrite i v) := rfl
theorem linkReplay (port : BitVec 6) : Statement (.linkReplay port) := rfl
theorem sidebandFlashRewrite (image : List Byte) : Statement (.sidebandFlashRewrite image) := rfl

end Sys2Proof.Laws.WordSized
end

