-- ==== Sys2Proof/Laws/Registers.lean ====
section
/-! SUPPORT. Fields of numbers, byte strings in memory, package registers, and what posting an event record does. -/

namespace Sys2Proof.Machine

/-! ## Fields -/

theorem bits_lt (v hi lo : Nat) : bits v hi lo < 2 ^ (hi + 1 - lo) := Nat.mod_lt _ (Nat.two_pow_pos _)

theorem testBit_bits (v hi lo i : Nat) : (bits v hi lo).testBit i = (decide (i < hi + 1 - lo) && v.testBit (lo + i)) := by
  rw [bits, Nat.testBit_mod_two_pow, Nat.testBit_div_two_pow, Nat.add_comm i lo]

/-- A number is the bits below lo, the field, and the bits above it. -/
theorem bits_split (v hi lo : Nat) (h : lo ≤ hi) :
    v = v % 2 ^ lo + bits v hi lo * 2 ^ lo + v / 2 ^ (hi + 1) * 2 ^ (hi + 1) := by
  have e : 2 ^ (hi + 1) = 2 ^ lo * 2 ^ (hi + 1 - lo) := by rw [← Nat.pow_add]; congr 1; omega
  have h1 := Nat.div_add_mod v (2 ^ lo)
  have h2 := Nat.div_add_mod (v / 2 ^ lo) (2 ^ (hi + 1 - lo))
  rw [Nat.div_div_eq_div_mul, ← e] at h2
  unfold bits
  generalize v / 2 ^ lo % 2 ^ (hi + 1 - lo) = b at *
  generalize v / 2 ^ (hi + 1) = c at *
  generalize v % 2 ^ lo = r at *
  rw [← h2] at h1
  rw [e, ← h1]
  ring

theorem setBits_eq (v hi lo x : Nat) (h : lo ≤ hi) :
    setBits v hi lo x = v % 2 ^ lo + (x % 2 ^ (hi + 1 - lo)) * 2 ^ lo + v / 2 ^ (hi + 1) * 2 ^ (hi + 1) := by
  have := bits_split v hi lo h
  unfold setBits
  omega

/-- The bits of a number with a field replaced. -/
theorem testBit_setBits (v hi lo x i : Nat) (h : lo ≤ hi) :
    (setBits v hi lo x).testBit i = if lo ≤ i ∧ i ≤ hi then x.testBit (i - lo) else v.testBit i := by
  rw [setBits_eq v hi lo x h]
  have e : 2 ^ (hi + 1) = 2 ^ (hi + 1 - lo) * 2 ^ lo := by rw [← Nat.pow_add]; congr 1; omega
  have l1 : v % 2 ^ lo < 2 ^ lo := Nat.mod_lt _ (Nat.two_pow_pos _)
  have l2 : x % 2 ^ (hi + 1 - lo) < 2 ^ (hi + 1 - lo) := Nat.mod_lt _ (Nat.two_pow_pos _)
  have l3 : 2 ^ lo * (x % 2 ^ (hi + 1 - lo)) + v % 2 ^ lo < 2 ^ (hi + 1) := by
    rw [e]
    generalize x % 2 ^ (hi + 1 - lo) = a at *
    have := Nat.mul_le_mul_right (2 ^ lo) l2
    rw [Nat.succ_mul, Nat.mul_comm a] at this
    omega
  have rearr : v % 2 ^ lo + (x % 2 ^ (hi + 1 - lo)) * 2 ^ lo + v / 2 ^ (hi + 1) * 2 ^ (hi + 1) =
      2 ^ (hi + 1) * (v / 2 ^ (hi + 1)) + (2 ^ lo * (x % 2 ^ (hi + 1 - lo)) + v % 2 ^ lo) := by ring
  rw [rearr, Nat.testBit_two_pow_mul_add _ l3]
  by_cases h1 : i < hi + 1
  · rw [if_pos h1, Nat.testBit_two_pow_mul_add _ l1]
    by_cases h2 : i < lo
    · rw [if_pos h2, if_neg (by omega), Nat.testBit_mod_two_pow]; simp [h2]
    · rw [if_neg h2, if_pos (by omega), Nat.testBit_mod_two_pow, decide_eq_true (by omega), Bool.true_and]
  · rw [if_neg h1, if_neg (by omega), Nat.testBit_div_two_pow]
    congr 1; omega

theorem setBits_lt (v hi lo x n : Nat) (h : lo ≤ hi) (hn : hi < n) (hv : v < 2 ^ n) : setBits v hi lo x < 2 ^ n := by
  apply Nat.lt_pow_two_of_testBit
  intro i hi'
  rw [testBit_setBits v hi lo x i h, if_neg (by omega)]
  exact Nat.testBit_lt_two_pow (Nat.lt_of_lt_of_le hv (Nat.pow_le_pow_right (by omega) hi'))

/-- Reading the field back. -/
theorem bits_setBits_same (v hi lo x : Nat) (h : lo ≤ hi) : bits (setBits v hi lo x) hi lo = x % 2 ^ (hi + 1 - lo) := by
  apply Nat.eq_of_testBit_eq
  intro i
  rw [testBit_bits, testBit_setBits _ _ _ _ _ h, Nat.testBit_mod_two_pow]
  by_cases h1 : i < hi + 1 - lo
  · rw [if_pos (by omega)]; simp
  · simp [h1]

/-- Reading another field. -/
theorem bits_setBits_other (v hi lo x hi' lo' : Nat) (h : lo ≤ hi) (ho : hi' < lo ∨ hi < lo') :
    bits (setBits v hi lo x) hi' lo' = bits v hi' lo' := by
  apply Nat.eq_of_testBit_eq
  intro i
  rw [testBit_bits, testBit_bits, testBit_setBits _ _ _ _ _ h]
  by_cases h1 : i < hi' + 1 - lo'
  · rw [if_neg (by omega)]
  · simp [h1]

/-! ## Byte strings in memory -/

@[simp] theorem length_leBytes (n v : Nat) : (leBytes n v).length = n := by
  induction n generalizing v with
  | zero => rfl
  | succ n ih => simp [leBytes, ih]

theorem leNat_leBytes (n v : Nat) : leNat (leBytes n v) = v % 2 ^ (8 * n) := by
  induction n generalizing v with
  | zero => simp [leBytes, leNat, Nat.mod_one]
  | succ n ih =>
    rw [leBytes, leNat, ih, BitVec.toNat_ofNat, show 8 * (n + 1) = 8 + 8 * n by ring, Nat.pow_add, Nat.mod_mul]

theorem length_addrs (a n : Nat) : (addrs a n).length = n := by simp [addrs]

theorem mem_addrs (a n x : Nat) : x ∈ addrs a n ↔ a ≤ x ∧ x < a + n := by
  simp only [addrs, List.mem_map, List.mem_range]
  constructor
  · rintro ⟨i, h, rfl⟩; omega
  · intro h; exact ⟨x - a, by omega, by omega⟩

theorem addrs_succ (a n : Nat) : addrs a (n + 1) = a :: addrs (a + 1) n := by
  simp only [addrs, List.range_succ_eq_map, List.map_cons, List.map_map]
  congr 1
  apply List.map_congr_left
  intro i _; simp; omega

/-- A byte string written at consecutive addresses reads back. -/
theorem rdBytes_wrBytes (m : List Host.Cell) (a : Nat) (bs : List Byte) :
    rdBytes (wrBytes m (addrs a bs.length) bs) (addrs a bs.length) = bs := by
  induction bs generalizing m a with
  | nil => rfl
  | cons b bs ih =>
    rw [List.length_cons, addrs_succ]
    simp only [wrBytes, rdBytes, List.map_cons]
    congr 1
    · rw [rdByte_wrBytes_other _ _ _ (by rw [mem_addrs]; omega), rdByte_wrByte, if_pos rfl]
    · exact ih _ _

theorem rdNat_wrNat (m : List Host.Cell) (a n v : Nat) : rdNat (wrNat m a n v) a n = v % 2 ^ (8 * n) := by
  have := rdBytes_wrBytes m a (leBytes n v)
  rw [length_leBytes] at this
  rw [rdNat, wrNat, this, leNat_leBytes]

theorem rdByte_wrNat_other (m : List Host.Cell) (a n v x : Nat) (h : x < a ∨ a + n ≤ x) :
    rdByte (wrNat m a n v) x = rdByte m x :=
  rdByte_wrBytes_other m _ _ (by rw [mem_addrs]; omega)

/-! ## Package registers -/

theorem preg_lt (s : State) (n : Nat) : s.preg n < 2 ^ 64 := (tget 0 s.pregs n).isLt

theorem preg_setPreg_same (s : State) (n v : Nat) : (s.setPreg n v).preg n = v % 2 ^ 64 := by
  simp [State.preg, State.setPreg]

theorem preg_setPreg_other (s : State) {n m : Nat} (v : Nat) (h : m ≠ n) : (s.setPreg n v).preg m = s.preg m := by
  simp only [State.preg, State.setPreg]
  rw [tget_tset_other _ _ _ h]

theorem preg_setPregBits_same (s : State) (n hi lo v : Nat) (h : lo ≤ hi) (h6 : hi < 64) :
    (s.setPregBits n hi lo v).preg n = setBits (s.preg n) hi lo v := by
  rw [State.setPregBits, preg_setPreg_same, Nat.mod_eq_of_lt (setBits_lt _ _ _ _ 64 h h6 (preg_lt s n))]

theorem preg_setPregBits_other (s : State) {n m : Nat} (hi lo v : Nat) (h : m ≠ n) :
    (s.setPregBits n hi lo v).preg m = s.preg m := preg_setPreg_other s _ h

/-- A masked write. -/
theorem registerTakes_setMasked (s : State) (num mask : Nat) (v : Word) : RegisterTakes s (s.setMasked num mask v) num mask v := by
  refine ⟨fun b hb => ?_, fun n hn => ?_, rfl⟩
  · rw [State.setMasked, preg_setPreg_same, Nat.mod_eq_of_lt (BitVec.isLt _), BitVec.testBit_toNat]
    simp only [BitVec.getLsbD_or, BitVec.getLsbD_and, BitVec.getLsbD_not, BitVec.getLsbD_ofNat, hb, decide_true, Bool.true_and]
    cases mask.testBit b <;> simp
  · exact preg_setPreg_other s _ (by simpa using hn)

/-! ## Event records -/

@[simp] theorem interrupt_preg (s : State) (n : Nat) : s.interrupt.preg n = s.preg n := by
  unfold State.interrupt; split <;> rfl

@[simp] theorem interrupt_hmem (s : State) : s.interrupt.hmem = s.hmem := by unfold State.interrupt; split <;> rfl

@[simp] theorem interrupt_evSeq (s : State) : s.interrupt.host.evSeq = s.host.evSeq := by unfold State.interrupt; split <;> rfl

theorem interrupt_frame (s : State) : { s.interrupt with host := s.host } = s := by unfold State.interrupt; split <;> rfl

/-- The next event sequence number is taken. -/
def State.tick (s : State) : State := { s with host := { s.host with evSeq := s.host.evSeq + 1 } }

/-- The number that holds a record. -/
def State.recNum (s : State) (ty sev u : Nat) (pay : List (Nat × Nat)) : Nat :=
  payloadNat ([(0, ty), (2, sev), (4, s.rank), (6, u), (8, s.host.evSeq % 2 ^ 64),
    (16, if s.member s.rank then s.stepNum else 0)] ++ pay)

/-- The queue is full. -/
def State.evFull (s : State) : Prop :=
  (bits (s.preg 0x201) 51 32 + 1) % 2 ^ bits (s.preg 0x201) 4 0 = bits (s.preg 0x201) 31 12 % 2 ^ bits (s.preg 0x201) 4 0

/-- A record that finds no room. -/
theorem post_full (s : State) (ty sev u : Nat) (pay : List (Nat × Nat)) (h : s.evFull) :
    s.post ty sev u pay = s.tick.setPreg 0x202 ((s.preg 0x202 + 1) % 2 ^ 64) := if_pos h

/-- A state with a record in the tail slot. -/
def State.tickWith (s : State) (num : Nat) : State :=
  { s with host := { s.host with evSeq := s.host.evSeq + 1 },
           hmem := wrNat s.hmem (s.preg 0x200 + 64 * (bits (s.preg 0x201) 51 32 % 2 ^ bits (s.preg 0x201) 4 0)) 64 num }

/-- A record that finds room. -/
theorem post_room (s : State) (ty sev u : Nat) (pay : List (Nat × Nat)) (h : ¬ s.evFull) :
    s.post ty sev u pay =
      ((s.tickWith (s.recNum ty sev u pay)).setPregBits 0x201 51 32 ((bits (s.preg 0x201) 51 32 + 1) % 2 ^ 20)).interrupt := if_neg h

@[simp] theorem tickWith_preg (s : State) (m n : Nat) : (s.tickWith m).preg n = s.preg n := rfl

@[simp] theorem tick_preg (s : State) (n : Nat) : s.tick.preg n = s.preg n := rfl

/-- What posting a record does. -/
theorem posted_post (s : State) (ty sev u : Nat) (pay : List (Nat × Nat)) : Posted s (s.post ty sev u pay) ty sev u pay := by
  by_cases h : s.evFull
  · rw [post_full s ty sev u pay h]
    refine ⟨rfl, fun _ => ⟨?_, ?_, fun a => rfl⟩, fun g => absurd h g⟩
    · rw [preg_setPreg_other _ _ (by decide), tick_preg]
    · rw [preg_setPreg_same, Nat.mod_mod]
  · have e := post_room s ty sev u pay h
    have c1 : (s.post ty sev u pay).host.evSeq = s.host.evSeq + 1 := by rw [e, interrupt_evSeq]; rfl
    have c2 : (s.post ty sev u pay).preg 0x201 = setBits (s.preg 0x201) 51 32 ((bits (s.preg 0x201) 51 32 + 1) % 2 ^ 20) := by
      rw [e, interrupt_preg, preg_setPregBits_same _ _ _ _ _ (by decide) (by decide), tickWith_preg]
    have c3 : (s.post ty sev u pay).preg 0x202 = s.preg 0x202 := by
      rw [e, interrupt_preg, preg_setPregBits_other _ _ _ _ (by decide), tickWith_preg]
    have c4 : (s.post ty sev u pay).hmem = wrNat s.hmem (s.preg 0x200 + 64 * (bits (s.preg 0x201) 51 32 %
        2 ^ bits (s.preg 0x201) 4 0)) 64 (s.recNum ty sev u pay) := by
      rw [e, interrupt_hmem]; rfl
    refine ⟨c1, fun g => absurd g h, fun _ => ⟨?_, ?_, c3, ?_, ?_⟩⟩
    · rw [c2, bits_setBits_same _ _ _ _ (by decide)]; omega
    · rw [c2, bits_setBits_other _ _ _ _ _ _ (by decide) (by decide)]
    · rw [c4]; exact rdNat_wrNat _ _ _ _
    · intro a ha; rw [c4]; exact rdByte_wrNat_other _ _ _ _ _ ha

/-- What posting a record leaves alone. -/
theorem post_registers (s : State) (ty sev u : Nat) (pay : List (Nat × Nat)) :
    RegistersBut [0x201, 0x202] s (s.post ty sev u pay) := by
  intro n hn
  simp only [List.mem_cons, List.not_mem_nil, or_false, not_or] at hn
  by_cases h : s.evFull
  · rw [post_full s ty sev u pay h, preg_setPreg_other _ _ hn.2, tick_preg]
  · rw [post_room s ty sev u pay h, interrupt_preg, preg_setPregBits_other _ _ _ _ hn.1, tickWith_preg]

/-- The record's memory, its two registers and the interrupt side are all that differs. -/
def State.forget (s t : State) : State := { s with pregs := t.pregs, hmem := t.hmem, host := t.host }

theorem forget_setPreg (s t : State) (n v : Nat) : (s.setPreg n v).forget t = s.forget t := rfl
theorem forget_interrupt (s t : State) : s.interrupt.forget t = s.forget t := by unfold State.interrupt; split <;> rfl
theorem forget_tickWith (s t : State) (n : Nat) : (s.tickWith n).forget t = s.forget t := rfl
theorem forget_tick (s t : State) : s.tick.forget t = s.forget t := rfl

theorem post_frame (s : State) (ty sev u : Nat) (pay : List (Nat × Nat)) :
    { s.post ty sev u pay with pregs := s.pregs, hmem := s.hmem, host := s.host } = s := by
  show (s.post ty sev u pay).forget s = s
  by_cases h : s.evFull
  · rw [post_full s ty sev u pay h, forget_setPreg, forget_tick]; rfl
  · rw [post_room s ty sev u pay h, forget_interrupt, State.setPregBits, forget_setPreg, forget_tickWith]; rfl

end Sys2Proof.Machine
end

