-- ==== Sys2Proof/Laws/Sound.lean ====
section
/-! SUPPORT. Soundness of a state (memories and control registers in canonical form) read off its fields, and what it is for an
outcome. The files Sound<Module> say of every operation and meaning that it keeps it. -/

namespace Sys2Proof.Machine

/-- What follows a meaning is sound, where a state follows. -/
def OutSound (o : Out) : Prop := ∀ t, o = .next t → sound t

/-- The state that goes on after a check is sound. -/
def ExSound (r : Except Fault State) : Prop := ∀ t, r = .ok t → sound t

/-- The state an option holds is sound. -/
def OptSound (r : Option State) : Prop := ∀ t, r = some t → sound t

/-- The canonical form of the control registers. -/
def Regs.wf (p : Tbl Word) : Bool := twf 0 p

@[simp ↓] theorem wf_regs_tset {p : Tbl Word} (n : Nat) (v : Word) (h : Regs.wf p = true) : Regs.wf (tset 0 p n v) = true :=
  twf_tset n v h

@[simp ↓] theorem wf_mem_of_sound {s : State} (h : sound s) : Memory.wf s.mem = true := h.1.1

@[simp ↓] theorem wf_hmem_of_sound {s : State} (h : sound s) : Memory.wf s.hmem = true := h.1.2

@[simp ↓] theorem wf_regs_of_sound {s : State} (h : sound s) : Regs.wf s.pregs = true := h.2

/-- Only the memories and the control registers count. -/
@[simp ↓] theorem sound_mk {a f e c t p m hm d k l b ti ms op i o bn fa ho} (h1 : Memory.wf m = true) (h2 : Memory.wf hm = true)
    (h3 : Regs.wf p = true) : sound ⟨a, f, e, c, t, p, m, hm, d, k, l, b, ti, ms, op, i, o, bn, fa, ho⟩ := ⟨⟨h1, h2⟩, h3⟩

@[simp ↓] theorem sound_ite {c : Prop} [Decidable c] {a b : State} (ha : sound a) (hb : sound b) : sound (if c then a else b) := by
  split <;> assumption

@[simp ↓] theorem sound_ite_fst {α : Type} {c : Prop} [Decidable c] {a b : State × α} (ha : sound a.1) (hb : sound b.1) :
    sound (if c then a else b).1 := by
  split <;> assumption

@[simp ↓] theorem sound_foldl {β : Type} (f : State → β → State) (l : List β) {s : State} (hf : ∀ a x, sound a → sound (f a x)) (h : sound s) :
    sound (l.foldl f s) := by
  induction l generalizing s with
  | nil => exact h
  | cons x l ih => exact ih (hf s x h)

@[simp ↓] theorem sound_foldl_fst {α β : Type} (f : State × α → β → State × α) (l : List β) {z : State × α}
    (hf : ∀ a x, sound a.1 → sound (f a x).1) (h : sound z.1) : sound (l.foldl f z).1 := by
  induction l generalizing z with
  | nil => exact h
  | cons x l ih => exact ih (hf z x h)

@[simp ↓] theorem outSound_next {t : State} (h : sound t) : OutSound (.next t) := by
  rintro u ⟨rfl⟩; exact h

@[simp ↓] theorem outSound_fault (f : Fault) : OutSound (.fault f) := by rintro u ⟨⟩

@[simp ↓] theorem exSound_ok {t : State} (h : sound t) : ExSound (.ok t) := by
  rintro u ⟨rfl⟩; exact h

@[simp ↓] theorem exSound_error (f : Fault) : ExSound (.error f) := by rintro u ⟨⟩

@[simp ↓] theorem optSound_some {t : State} (h : sound t) : OptSound (some t) := by
  rintro u ⟨rfl⟩; exact h

@[simp ↓] theorem optSound_none : OptSound none := by rintro u ⟨⟩

/-- What a register write leaves is sound. -/
def WrSound (w : Wr) : Prop := ∀ t, w = .done t → sound t

@[simp ↓] theorem wrSound_done {t : State} (h : sound t) : WrSound (.done t) := by
  rintro u ⟨rfl⟩; exact h

@[simp ↓] theorem wrSound_bounds : WrSound .bounds := by rintro u ⟨⟩

@[simp ↓] theorem wrSound_wait : WrSound .wait := by rintro u ⟨⟩

@[simp ↓] theorem wrSound_stop (f : Fault) : WrSound (.stop f) := by rintro u ⟨⟩

@[simp ↓] theorem wrSound_ite {c : Prop} [Decidable c] {a b : Wr} (ha : WrSound a) (hb : WrSound b) : WrSound (if c then a else b) := by
  split <;> assumption

@[simp ↓] theorem outSound_ite {c : Prop} [Decidable c] {a b : Out} (ha : OutSound a) (hb : OutSound b) : OutSound (if c then a else b) := by
  split <;> assumption

end Sys2Proof.Machine
end

