-- ==== Sys2Proof/Laws/SoundOps.lean ====
section
/-! SUPPORT. Soundness is kept: memory, translation, links, the tree and the named operations. -/

namespace Sys2Proof.Machine

@[simp ↓] theorem State.setPreg_sound {s : State} {n v : Nat} (hs : sound s) : sound (State.setPreg s n v) := by
  unfold State.setPreg
  repeat' split
  all_goals simp (maxDischargeDepth := 40) [*]

@[simp ↓] theorem State.setPregBits_sound {s : State} {n hi lo v : Nat} (hs : sound s) :
    sound (State.setPregBits s n hi lo v) := by
  simp (maxDischargeDepth := 40) [State.setPregBits, hs]

@[simp ↓] theorem State.draw_sound {s : State} (hs : sound s) : sound (State.draw s).2 := by
  simp (maxDischargeDepth := 40) [State.draw, hs]

@[simp ↓] theorem State.interrupt_sound {s : State} (hs : sound s) : sound (State.interrupt s) := by
  simp (maxDischargeDepth := 40) [State.interrupt, hs]

@[simp ↓] theorem State.post_sound {s : State} {type sev unit : Nat} {pay : List (Nat × Nat)} (hs : sound s) :
    sound (State.post s type sev unit pay) := by
  simp (maxDischargeDepth := 40) [State.post, hs]

@[simp ↓] theorem State.postUncorr_sound {s : State} {sev unit va pa space tag pc : Nat} (hs : sound s) :
    sound (State.postUncorr s sev unit va pa space tag pc) := by
  simp (maxDischargeDepth := 40) [State.postUncorr, hs]

@[simp ↓] theorem State.postOnChip_sound {s : State} {sev unit tag pc : Nat} (hs : sound s) : sound (State.postOnChip s sev unit tag pc) := by
  unfold State.postOnChip
  try dsimp only
  repeat' (first | (intro a x ha) | split | with_reducible apply sound_foldl | with_reducible apply sound_foldl_fst)
  all_goals simp +contextual (maxDischargeDepth := 40) [*]

@[simp ↓] theorem State.countCorrected_sound {s : State} {n : Nat} (hs : sound s) : sound (State.countCorrected s n) := by
  unfold State.countCorrected
  try dsimp only
  repeat' (first | (intro a x ha) | split | with_reducible apply sound_foldl | with_reducible apply sound_foldl_fst)
  all_goals simp +contextual (maxDischargeDepth := 40) [*]

@[simp ↓] theorem State.correct_sound {s : State} {u : Nat} (hs : sound s) : sound (State.correct s u) := by
  unfold State.correct
  try dsimp only
  repeat' (first | (intro a x ha) | split | with_reducible apply sound_foldl | with_reducible apply sound_foldl_fst)
  all_goals simp +contextual (maxDischargeDepth := 40) [*]

@[simp ↓] theorem State.readLocal_sound {s : State} {las : List Nat} (hs : sound s) : sound (State.readLocal s las).1 := by
  unfold State.readLocal
  try dsimp only
  repeat' (first | (intro a x ha) | split | with_reducible apply sound_foldl | with_reducible apply sound_foldl_fst)
  all_goals simp +contextual (maxDischargeDepth := 40) [*]

@[simp ↓] theorem State.mgcRead_sound {s : State} {pa n : Nat} (hs : sound s) : sound (State.mgcRead s pa n).1 := by
  unfold State.mgcRead
  try dsimp only
  repeat' (first | (intro a x ha) | split | with_reducible apply sound_foldl | with_reducible apply sound_foldl_fst)
  all_goals simp +contextual (maxDischargeDepth := 40) [*]

@[simp ↓] theorem State.enterQueue_sound {s : State} {u : Nat} (hs : sound s) : sound (State.enterQueue s u) := by
  unfold State.enterQueue
  try dsimp only
  repeat' (first | (intro a x ha) | split | with_reducible apply sound_foldl | with_reducible apply sound_foldl_fst)
  all_goals simp +contextual (maxDischargeDepth := 40) [*]

@[simp ↓] theorem State.writeUnit_sound {s : State} {sev unit tag pc : Nat} {ws : List (Nat × Byte)} {u : Nat} (hs : sound s) : sound (State.writeUnit s sev unit tag pc ws u) := by
  unfold State.writeUnit
  try dsimp only
  repeat' (first | (intro a x ha) | split | with_reducible apply sound_foldl | with_reducible apply sound_foldl_fst)
  all_goals simp +contextual (maxDischargeDepth := 40) [*]

@[simp ↓] theorem State.writeLocal_sound {s : State} {sev unit tag pc : Nat} {las : List Nat} {bs : List Byte} (hs : sound s) : sound (State.writeLocal s sev unit tag pc las bs) := by
  unfold State.writeLocal
  try dsimp only
  repeat' (first | (intro a x ha) | split | with_reducible apply sound_foldl | with_reducible apply sound_foldl_fst)
  all_goals simp +contextual (maxDischargeDepth := 40) [*]

@[simp ↓] theorem State.putLocal_sound {s : State} {la : Nat} {bs : List Byte} (hs : sound s) :
    sound (State.putLocal s la bs) := by
  simp (maxDischargeDepth := 40) [State.putLocal, hs]

@[simp ↓] theorem State.rmwLocal_sound {s : State} {op : Rmw} {n la b unit va tag pc : Nat} (hs : sound s) : sound (State.rmwLocal s op n la b unit va tag pc).1 := by
  unfold State.rmwLocal
  try dsimp only
  repeat' (first | (intro a x ha) | split | with_reducible apply sound_foldl | with_reducible apply sound_foldl_fst)
  all_goals simp +contextual (maxDischargeDepth := 40) [*]

@[simp ↓] theorem State.rmwHost_sound {s : State} {op : Rmw} {n ha b unit va pc : Nat} (hs : sound s) : sound (State.rmwHost s op n ha b unit va pc).1 := by
  unfold State.rmwHost
  try dsimp only
  repeat' (first | (intro a x ha) | split | with_reducible apply sound_foldl | with_reducible apply sound_foldl_fst)
  all_goals simp +contextual (maxDischargeDepth := 40) [*]

@[simp ↓] theorem State.cache_sound {s : State} {e : TlbEntry} (hs : sound s) : sound (State.cache s e) := by
  unfold State.cache
  try dsimp only
  repeat' (first | (intro a x ha) | split | with_reducible apply sound_foldl | with_reducible apply sound_foldl_fst)
  all_goals simp +contextual (maxDischargeDepth := 40) [*]

@[simp ↓] theorem State.cacheWay_sound {s : State} {asid : BitVec 16} {w : Way} (hs : sound s) : sound (State.cacheWay s asid w) := by
  unfold State.cacheWay
  try dsimp only
  repeat' (first | (intro a x ha) | split | with_reducible apply sound_foldl | with_reducible apply sound_foldl_fst)
  all_goals simp +contextual (maxDischargeDepth := 40) [*]

@[simp ↓] theorem State.takeWay_sound {s : State} {asid : BitVec 16} {w : Way} (hs : sound s) : sound (State.takeWay s asid w).1 := by
  unfold State.takeWay
  try dsimp only
  repeat' (first | (intro a x ha) | split | with_reducible apply sound_foldl | with_reducible apply sound_foldl_fst)
  all_goals simp +contextual (maxDischargeDepth := 40) [*]

@[simp ↓] theorem State.pickLeaf_sound {s : State} {asid : BitVec 16} {va : Nat} (hs : sound s) :
    sound (State.pickLeaf s asid va).1 := by
  unfold State.pickLeaf
  try dsimp only
  repeat' (first | (intro a x ha) | split | with_reducible apply sound_foldl | with_reducible apply sound_foldl_fst)
  all_goals simp +contextual (maxDischargeDepth := 40) [*]

@[simp ↓] theorem State.xlatePiece_sound {s : State} {c : XCtx} {a : Access} {va n : Nat} (hs : sound s) :
    sound (State.xlatePiece s c a va n).1 := by
  unfold State.xlatePiece
  try dsimp only
  repeat' (first | (intro a x ha) | split | with_reducible apply sound_foldl | with_reducible apply sound_foldl_fst)
  all_goals simp +contextual (maxDischargeDepth := 40) [*]

@[simp ↓] theorem State.xlate_sound {s : State} {c : XCtx} {a : Access} {va n : Nat} (hs : sound s) :
    sound (State.xlate s c a va n).1 := by
  unfold State.xlate
  try dsimp only
  repeat' (first | (intro a x ha) | split | with_reducible apply sound_foldl | with_reducible apply sound_foldl_fst)
  all_goals simp +contextual (maxDischargeDepth := 40) [*]

@[simp ↓] theorem State.pinPage_sound {s : State} {c : XCtx} {a : Access} {va : Nat} (hs : sound s) :
    sound (State.pinPage s c a va).1 := by
  unfold State.pinPage
  try dsimp only
  repeat' (first | (intro a x ha) | split | with_reducible apply sound_foldl | with_reducible apply sound_foldl_fst)
  all_goals simp +contextual (maxDischargeDepth := 40) [*]

@[simp ↓] theorem State.setLink_sound {s : State} {port : Nat} {l : Link} (hs : sound s) : sound (State.setLink s port l) := by
  simp (maxDischargeDepth := 40) [State.setLink, hs]

@[simp ↓] theorem State.dropLink_sound {s : State} {port : Nat} (hs : sound s) : sound (State.dropLink s port) := by
  unfold State.dropLink
  try dsimp only
  repeat' (first | (intro a x ha) | split | with_reducible apply sound_foldl | with_reducible apply sound_foldl_fst)
  all_goals simp +contextual (maxDischargeDepth := 40) [*]

@[simp ↓] theorem State.trainPort_sound {s : State} {p : Nat} (hs : sound s) : sound (State.trainPort s p) := by
  unfold State.trainPort
  try dsimp only
  repeat' (first | (intro a x ha) | split | with_reducible apply sound_foldl | with_reducible apply sound_foldl_fst)
  all_goals simp +contextual (maxDischargeDepth := 40) [*]

@[simp ↓] theorem State.trainLinks_sound {s : State} (hs : sound s) : sound (State.trainLinks s) := by
  unfold State.trainLinks
  try dsimp only
  repeat' (first | (intro a x ha) | split | with_reducible apply sound_foldl | with_reducible apply sound_foldl_fst)
  all_goals simp +contextual (maxDischargeDepth := 40) [*]

@[simp ↓] theorem State.route?_sound {s : State} {h : HeldPkt} (hs : sound s) : OptSound (State.route? s h) := by
  unfold State.route?
  try dsimp only
  repeat' (first | (intro a x ha) | split | with_reducible apply sound_foldl | with_reducible apply sound_foldl_fst)
  all_goals simp +contextual (maxDischargeDepth := 40) [*]

@[simp ↓] theorem State.holdPacket_sound {s : State} {h : HeldPkt} (hs : sound s) : sound (State.holdPacket s h) := by
  unfold State.holdPacket
  try dsimp only
  repeat' (first | (intro a x ha) | split | with_reducible apply sound_foldl | with_reducible apply sound_foldl_fst)
  all_goals simp +contextual (maxDischargeDepth := 40) [*]

@[simp ↓] theorem State.toFabric_sound {s : State} {h : HeldPkt} (hs : sound s) : sound (State.toFabric s h) := by
  unfold State.toFabric
  cases hb : (if s.fabricOn then s.route? h else none) with
  | none => simp [hs]
  | some b =>
    split at hb
    · exact State.route?_sound hs _ hb
    · cases hb

@[simp ↓] theorem State.pump_sound {s : State} (hs : sound s) : sound (State.pump s) := by
  unfold State.pump
  try dsimp only
  repeat' (first | (intro a x ha) | split | with_reducible apply sound_foldl | with_reducible apply sound_foldl_fst)
  all_goals simp +contextual (maxDischargeDepth := 40) [*]

@[simp ↓] theorem State.drainPorts_sound {s : State} (hs : sound s) : sound (State.drainPorts s) := by
  unfold State.drainPorts
  try dsimp only
  repeat' (first | (intro a x ha) | split | with_reducible apply sound_foldl | with_reducible apply sound_foldl_fst)
  all_goals simp +contextual (maxDischargeDepth := 40) [*]

@[simp ↓] theorem State.freeSlots_sound {s : State} (hs : sound s) : sound (State.freeSlots s) := by
  unfold State.freeSlots
  try dsimp only
  repeat' (first | (intro a x ha) | split | with_reducible apply sound_foldl | with_reducible apply sound_foldl_fst)
  all_goals simp +contextual (maxDischargeDepth := 40) [*]

@[simp ↓] theorem State.send_sound {s : State} {p : Packet} (hs : sound s) : sound (State.send s p) := by
  unfold State.send
  repeat' split
  all_goals simp (maxDischargeDepth := 40) [*]

@[simp ↓] theorem State.startTxn_sound {s : State} {x : Txn} (hs : sound s) : sound (State.startTxn s x) := by
  unfold State.startTxn
  try dsimp only
  repeat' (first | (intro a x ha) | split | with_reducible apply sound_foldl | with_reducible apply sound_foldl_fst)
  all_goals simp +contextual (maxDischargeDepth := 40) [*]

@[simp ↓] theorem State.openTxn_sound {s : State} {owner : TxFor} {va drank type len body : Nat} {data : List Byte} (hs : sound
    s) :
    sound (State.openTxn s owner va drank type len body data) := by
  simp (maxDischargeDepth := 40) [State.openTxn, hs]

@[simp ↓] theorem State.requestBytes_sound {s : State} {owner : TxFor} {pas : List (Nat × Nat)} (hs : sound s) :
    sound (State.requestBytes s owner pas) := by
  unfold State.requestBytes
  try dsimp only
  repeat' (first | (intro a x ha) | split | with_reducible apply sound_foldl | with_reducible apply sound_foldl_fst)
  all_goals simp +contextual (maxDischargeDepth := 40) [*]

@[simp ↓] theorem State.report_sound {s : State} {phase : Nat} (hs : sound s) : sound (State.report s phase) := by
  unfold State.report
  repeat' split
  all_goals simp (maxDischargeDepth := 40) [*]

@[simp ↓] theorem State.sendArr_sound {s : State} (hs : sound s) : sound (State.sendArr s) := by
  simp (maxDischargeDepth := 40) [State.sendArr, hs]

@[simp ↓] theorem State.tryArr_sound {s : State} (hs : sound s) : sound (State.tryArr s) := by
  simp (maxDischargeDepth := 40) [State.tryArr, hs]

@[simp ↓] theorem State.putTask_sound {s : State} {k : Nat} {t : Task} (hs : sound s) : sound (State.putTask s k t) := by
  simp (maxDischargeDepth := 40) [State.putTask, hs]

@[simp ↓] theorem State.putHart_sound {s : State} {ag : Agent} {h : Hart} (hs : sound s) : sound (State.putHart s ag h) := by
  unfold State.putHart
  repeat' split
  all_goals simp (maxDischargeDepth := 40) [*]

theorem State.onHart_sound {s : State} {k : Agent → Hart → Out} (hs : sound s) (hk : ∀ ag h, OutSound (k ag h)) :
    OutSound (s.onHart k) := by
  unfold State.onHart
  repeat' split
  all_goals simp (maxDischargeDepth := 40) [hs, hk]

@[simp ↓] theorem State.writeApron_sound {s : State} {reg : Nat} {r : Rec} (hs : sound s) : sound (State.writeApron s reg r) := by
  simp (maxDischargeDepth := 40) [State.writeApron, hs]

@[simp ↓] theorem State.addOutbound_sound {s : State} {r : Rec} (hs : sound s) : sound (State.addOutbound s r) := by
  simp (maxDischargeDepth := 40) [State.addOutbound, hs]

@[simp ↓] theorem State.addInbound_sound {s : State} {r : Rec} (hs : sound s) : sound (State.addInbound s r) := by
  simp (maxDischargeDepth := 40) [State.addInbound, hs]

@[simp ↓] theorem State.makeRecs_sound {s : State} {k : Nat} {pteAt : Nat → Nat} {runs : List (List (Nat × Nat × Byte))} (hs : sound s) :
    sound (State.makeRecs s k pteAt runs) := by
  unfold State.makeRecs
  split
  · exact hs
  · exact State.putTask_sound (sound_foldl _ _ (fun a x ha => State.addOutbound_sound ha) hs)

@[simp ↓] theorem State.writeX_sound {s : State} {ag : Agent} {d : Reg} {v : Word} (hs : sound s) :
    sound (State.writeX s ag d v) := by
  unfold State.writeX
  repeat' split
  all_goals simp (maxDischargeDepth := 40) [*]

@[simp ↓] theorem State.deferFault_sound {s : State} {ag : Agent} {f : FaultInfo} {pc : Word} (hs : sound s) :
    sound (State.deferFault s ag f pc) := by
  unfold State.deferFault
  split
  · exact hs
  · cases ag with
    | scp k => simp [hs]
    | stoek k tag =>
      dsimp only
      split
      · exact hs
      · rename_i p _
        cases p.ending <;> simp [hs]

@[simp ↓] theorem State.performStore_sound {s : State} {ag : Agent} {e : StoreEntry} (hs : sound s) :
    sound (State.performStore s ag e) := by
  unfold State.performStore
  try dsimp only
  repeat' (first | (intro a x ha) | split | with_reducible apply sound_foldl | with_reducible apply sound_foldl_fst)
  all_goals simp +contextual (maxDischargeDepth := 40) [*]

@[simp ↓] theorem State.tryRelease_sound {s : State} {g : Nat} (hs : sound s) : sound (State.tryRelease s g) := by
  simp (maxDischargeDepth := 40) [State.tryRelease, hs]

@[simp ↓] theorem State.leaveGroup_sound {s : State} {k g : Nat} (hs : sound s) : sound (State.leaveGroup s k g) := by
  unfold State.leaveGroup
  repeat' split
  all_goals simp (maxDischargeDepth := 40) [*]

@[simp ↓] theorem State.xlateDone_sound {s : State} {asid : BitVec 16} {va : Nat} (hs : sound s) :
    sound (State.xlateDone s asid va).1 := by
  unfold State.xlateDone
  try dsimp only
  repeat' (first | (intro a x ha) | split | with_reducible apply sound_foldl | with_reducible apply sound_foldl_fst)
  all_goals simp +contextual (maxDischargeDepth := 40) [*]

@[simp ↓] theorem State.doneFail_sound {s : State} {q idx cause doneaddr : Nat} (hs : sound s) :
    sound (State.doneFail s q idx cause doneaddr) := by
  simp (maxDischargeDepth := 40) [State.doneFail, hs]

@[simp ↓] theorem State.writeDone_sound {s : State} {asid : BitVec 16} {va word q idx : Nat} (hs : sound s) :
    sound (State.writeDone s asid va word q idx) := by
  unfold State.writeDone
  try dsimp only
  repeat' (first | (intro a x ha) | split | with_reducible apply sound_foldl | with_reducible apply sound_foldl_fst)
  all_goals simp +contextual (maxDischargeDepth := 40) [*]

@[simp ↓] theorem State.finishLaunch_sound {s : State} {l : Nat} (hs : sound s) : sound (State.finishLaunch s l) := by
  unfold State.finishLaunch
  repeat' split
  all_goals simp (maxDischargeDepth := 40) [*]

@[simp ↓] theorem State.unplace_sound {s : State} {k : Nat} (hs : sound s) : sound (State.unplace s k) := by
  simp (maxDischargeDepth := 40) [State.unplace, hs]

@[simp ↓] theorem State.freeSlot_sound {s : State} {sl : Option Nat} (hs : sound s) : sound (State.freeSlot s sl) := by
  unfold State.freeSlot
  repeat' split
  all_goals simp (maxDischargeDepth := 40) [*]

@[simp ↓] theorem State.endTask_sound {s : State} {k : Nat} {halted : Bool} (hs : sound s) :
    sound (State.endTask s k halted) := by
  unfold State.endTask
  try dsimp only
  repeat' (first | (intro a x ha) | split | with_reducible apply sound_foldl | with_reducible apply sound_foldl_fst)
  all_goals simp +contextual (maxDischargeDepth := 40) [*]

@[simp ↓] theorem State.performIssued_sound {s : State} {k : Nat} {t : Task} (hs : sound s) : sound (State.performIssued s k t) := by
  unfold State.performIssued
  refine sound_foldl _ _ (fun a e ha => ?_) hs
  split
  · exact ha
  · split
    · exact sound_foldl _ _ (fun b x hb => State.performStore_sound hb) ha
    · exact ha
  · split <;> simp [ha]

@[simp ↓] theorem State.discardWork_sound {s : State} {k : Nat} (hs : sound s) : sound (State.discardWork s k) := by
  unfold State.discardWork
  split
  · exact hs
  · dsimp only
    repeat' split
    all_goals simp (maxDischargeDepth := 40) [hs]

@[simp ↓] theorem State.terminate_sound {s : State} {k : Nat} (hs : sound s) : sound (State.terminate s k) := by
  simp (maxDischargeDepth := 40) [State.terminate, hs]

@[simp ↓] theorem State.doubleFault_sound {s : State} {k : Nat} {t : Task} {c : TrapCause} (hs : sound s) :
    sound (State.doubleFault s k t c) := by
  unfold State.doubleFault
  repeat' split
  all_goals simp (maxDischargeDepth := 40) [*]

@[simp ↓] theorem State.endDoubled_sound {s : State} {k : Nat} {t : Task} (hs : sound s) : sound (State.endDoubled s k t) := by
  unfold State.endDoubled
  try dsimp only
  repeat' (first | (intro a x ha) | split | with_reducible apply sound_foldl | with_reducible apply sound_foldl_fst)
  all_goals simp +contextual (maxDischargeDepth := 40) [*]

@[simp ↓] theorem State.takeTrap_sound {s : State} {k : Nat} {c : TrapCause} {fp rp : Word} (hs : sound s) :
    sound (State.takeTrap s k c fp rp) := by
  unfold State.takeTrap
  repeat' split
  all_goals simp (maxDischargeDepth := 40) [*]

@[simp ↓] theorem State.scpFault_sound {s : State} {k : Nat} {f : FaultInfo} (hs : sound s) : sound (State.scpFault s k f) := by
  unfold State.scpFault
  repeat' split
  all_goals simp (maxDischargeDepth := 40) [*]

@[simp ↓] theorem State.stoekFault_sound {s : State} {k tag : Nat} {f : FaultInfo} (hs : sound s) :
    sound (State.stoekFault s k tag f) := by
  unfold State.stoekFault
  repeat' split
  all_goals simp (maxDischargeDepth := 40) [*]

@[simp ↓] theorem State.agentFault_sound {s : State} {ag : Agent} {f : FaultInfo} (hs : sound s) :
    sound (State.agentFault s ag f) := by
  unfold State.agentFault
  repeat' split
  all_goals simp (maxDischargeDepth := 40) [*]

theorem State.translated_sound {α : Type} {s : State} {ag : Agent} {h : Hart} {r : State × Res α} {k : State → α → Out}
    (hs : sound s) (hr : sound r.1) (hk : ∀ t a, sound t → OutSound (k t a)) : OutSound (State.translated s ag h r k) := by
  unfold State.translated
  split
  · exact hk _ _ hr
  · split <;> simp [hs, hr]
  · simp

end Sys2Proof.Machine
end

