-- ==== Sys2Proof/Laws/SoundInstr.lean ====
section
/-! SUPPORT. Soundness is kept: the scalar, memory, system and stream-issue instructions. -/

namespace Sys2Proof.Machine

@[simp ↓] theorem State.result_sound {s : State} {rs : List Reg} {d : Reg} {f : Hart → Word} (hs : sound s) :
    OutSound (s.result rs d f) := by
  refine State.onHart_sound hs (fun ag h => ?_)
  split <;> simp (maxDischargeDepth := 40) [hs]

@[simp ↓] theorem execAdd_sound {d a b : Reg} {s : State} (hs : sound s) : OutSound (execAdd d a b s) := by
  simp (maxDischargeDepth := 40) [execAdd, hs]

@[simp ↓] theorem execSub_sound {d a b : Reg} {s : State} (hs : sound s) : OutSound (execSub d a b s) := by
  simp (maxDischargeDepth := 40) [execSub, hs]

@[simp ↓] theorem execAnd_sound {d a b : Reg} {s : State} (hs : sound s) : OutSound (execAnd d a b s) := by
  simp (maxDischargeDepth := 40) [execAnd, hs]

@[simp ↓] theorem execOr_sound {d a b : Reg} {s : State} (hs : sound s) : OutSound (execOr d a b s) := by
  simp (maxDischargeDepth := 40) [execOr, hs]

@[simp ↓] theorem execXor_sound {d a b : Reg} {s : State} (hs : sound s) : OutSound (execXor d a b s) := by
  simp (maxDischargeDepth := 40) [execXor, hs]

@[simp ↓] theorem execAndn_sound {d a b : Reg} {s : State} (hs : sound s) : OutSound (execAndn d a b s) := by
  simp (maxDischargeDepth := 40) [execAndn, hs]

@[simp ↓] theorem execShl_sound {d a b : Reg} {s : State} (hs : sound s) : OutSound (execShl d a b s) := by
  simp (maxDischargeDepth := 40) [execShl, hs]

@[simp ↓] theorem execShr_sound {d a b : Reg} {s : State} (hs : sound s) : OutSound (execShr d a b s) := by
  simp (maxDischargeDepth := 40) [execShr, hs]

@[simp ↓] theorem execSha_sound {d a b : Reg} {s : State} (hs : sound s) : OutSound (execSha d a b s) := by
  simp (maxDischargeDepth := 40) [execSha, hs]

@[simp ↓] theorem execRot_sound {d a b : Reg} {s : State} (hs : sound s) : OutSound (execRot d a b s) := by
  simp (maxDischargeDepth := 40) [execRot, hs]

@[simp ↓] theorem execMin_sound {d a b : Reg} {s : State} (hs : sound s) : OutSound (execMin d a b s) := by
  simp (maxDischargeDepth := 40) [execMin, hs]

@[simp ↓] theorem execMax_sound {d a b : Reg} {s : State} (hs : sound s) : OutSound (execMax d a b s) := by
  simp (maxDischargeDepth := 40) [execMax, hs]

@[simp ↓] theorem execMinu_sound {d a b : Reg} {s : State} (hs : sound s) : OutSound (execMinu d a b s) := by
  simp (maxDischargeDepth := 40) [execMinu, hs]

@[simp ↓] theorem execMaxu_sound {d a b : Reg} {s : State} (hs : sound s) : OutSound (execMaxu d a b s) := by
  simp (maxDischargeDepth := 40) [execMaxu, hs]

@[simp ↓] theorem execCmp_sound {c : Cond} {d a b : Reg} {s : State} (hs : sound s) : OutSound (execCmp c d a b s) := by
  simp (maxDischargeDepth := 40) [execCmp, hs]

@[simp ↓] theorem execSel_sound {d a b c : Reg} {s : State} (hs : sound s) : OutSound (execSel d a b c s) := by
  simp (maxDischargeDepth := 40) [execSel, hs]

@[simp ↓] theorem execClz_sound {d a : Reg} {s : State} (hs : sound s) : OutSound (execClz d a s) := by
  simp (maxDischargeDepth := 40) [execClz, hs]

@[simp ↓] theorem execCtz_sound {d a : Reg} {s : State} (hs : sound s) : OutSound (execCtz d a s) := by
  simp (maxDischargeDepth := 40) [execCtz, hs]

@[simp ↓] theorem execPopc_sound {d a : Reg} {s : State} (hs : sound s) : OutSound (execPopc d a s) := by
  simp (maxDischargeDepth := 40) [execPopc, hs]

@[simp ↓] theorem execAddi_sound {d a : Reg} {imm : BitVec 16} {s : State} (hs : sound s) : OutSound (execAddi d a imm s) := by
  simp (maxDischargeDepth := 40) [execAddi, hs]

@[simp ↓] theorem execAndi_sound {d a : Reg} {imm : BitVec 16} {s : State} (hs : sound s) : OutSound (execAndi d a imm s) := by
  simp (maxDischargeDepth := 40) [execAndi, hs]

@[simp ↓] theorem execOri_sound {d a : Reg} {imm : BitVec 16} {s : State} (hs : sound s) : OutSound (execOri d a imm s) := by
  simp (maxDischargeDepth := 40) [execOri, hs]

@[simp ↓] theorem execXori_sound {d a : Reg} {imm : BitVec 16} {s : State} (hs : sound s) : OutSound (execXori d a imm s) := by
  simp (maxDischargeDepth := 40) [execXori, hs]

@[simp ↓] theorem execShli_sound {d a : Reg} {n : BitVec 6} {s : State} (hs : sound s) : OutSound (execShli d a n s) := by
  simp (maxDischargeDepth := 40) [execShli, hs]

@[simp ↓] theorem execShri_sound {d a : Reg} {n : BitVec 6} {s : State} (hs : sound s) : OutSound (execShri d a n s) := by
  simp (maxDischargeDepth := 40) [execShri, hs]

@[simp ↓] theorem execShai_sound {d a : Reg} {n : BitVec 6} {s : State} (hs : sound s) : OutSound (execShai d a n s) := by
  simp (maxDischargeDepth := 40) [execShai, hs]

@[simp ↓] theorem execCmpi_sound {c : Cond} {d a : Reg} {imm : BitVec 12} {s : State} (hs : sound s) :
    OutSound (execCmpi c d a imm s) := by
  simp (maxDischargeDepth := 40) [execCmpi, hs]

@[simp ↓] theorem execLih_sound {d : Reg} {imm : BitVec 16} {s : State} (hs : sound s) : OutSound (execLih d imm s) := by
  simp (maxDischargeDepth := 40) [execLih, hs]

@[simp ↓] theorem execLea_sound {d a b : Reg} {sc : BitVec 3} {imm : BitVec 8} {s : State} (hs : sound s) :
    OutSound (execLea d a b sc imm s) := by
  simp (maxDischargeDepth := 40) [execLea, hs]

@[simp ↓] theorem execBc_sound {c : Cond} {a b : Reg} {off : BitVec 12} {s : State} (hs : sound s) :
    OutSound (execBc c a b off s) := by
  unfold execBc
  try dsimp only
  repeat' (first | with_reducible refine State.onHart_sound ?_ (fun ag h => ?_) | (intro a x ha) | split | with_reducible apply sound_foldl | with_reducible apply sound_foldl_fst)
  all_goals simp +contextual (maxDischargeDepth := 40) [*]

@[simp ↓] theorem execJ_sound {off : BitVec 26} {s : State} (hs : sound s) : OutSound (execJ off s) := by
  unfold execJ
  try dsimp only
  repeat' (first | with_reducible refine State.onHart_sound ?_ (fun ag h => ?_) | (intro a x ha) | split | with_reducible apply sound_foldl | with_reducible apply sound_foldl_fst)
  all_goals simp +contextual (maxDischargeDepth := 40) [*]

@[simp ↓] theorem execJal_sound {off : BitVec 26} {s : State} (hs : sound s) : OutSound (execJal off s) := by
  unfold execJal
  try dsimp only
  repeat' (first | with_reducible refine State.onHart_sound ?_ (fun ag h => ?_) | (intro a x ha) | split | with_reducible apply sound_foldl | with_reducible apply sound_foldl_fst)
  all_goals simp +contextual (maxDischargeDepth := 40) [*]

@[simp ↓] theorem execJr_sound {a : Reg} {s : State} (hs : sound s) : OutSound (execJr a s) := by
  unfold execJr
  try dsimp only
  repeat' (first | with_reducible refine State.onHart_sound ?_ (fun ag h => ?_) | (intro a x ha) | split | with_reducible apply sound_foldl | with_reducible apply sound_foldl_fst)
  all_goals simp +contextual (maxDischargeDepth := 40) [*]

@[simp ↓] theorem execJalr_sound {d a : Reg} {s : State} (hs : sound s) : OutSound (execJalr d a s) := by
  unfold execJalr
  try dsimp only
  repeat' (first | with_reducible refine State.onHart_sound ?_ (fun ag h => ?_) | (intro a x ha) | split | with_reducible apply sound_foldl | with_reducible apply sound_foldl_fst)
  all_goals simp +contextual (maxDischargeDepth := 40) [*]

@[simp ↓] theorem execMul_sound {d a b : Reg} {s : State} (hs : sound s) : OutSound (execMul d a b s) := by
  simp (maxDischargeDepth := 40) [execMul, hs]

@[simp ↓] theorem execMulh_sound {d a b : Reg} {s : State} (hs : sound s) : OutSound (execMulh d a b s) := by
  simp (maxDischargeDepth := 40) [execMulh, hs]

@[simp ↓] theorem execMulhu_sound {d a b : Reg} {s : State} (hs : sound s) : OutSound (execMulhu d a b s) := by
  simp (maxDischargeDepth := 40) [execMulhu, hs]

@[simp ↓] theorem execDiv_sound {d a b : Reg} {s : State} (hs : sound s) : OutSound (execDiv d a b s) := by
  simp (maxDischargeDepth := 40) [execDiv, hs]

@[simp ↓] theorem execDivu_sound {d a b : Reg} {s : State} (hs : sound s) : OutSound (execDivu d a b s) := by
  simp (maxDischargeDepth := 40) [execDivu, hs]

@[simp ↓] theorem execRem_sound {d a b : Reg} {s : State} (hs : sound s) : OutSound (execRem d a b s) := by
  simp (maxDischargeDepth := 40) [execRem, hs]

@[simp ↓] theorem execRemu_sound {d a b : Reg} {s : State} (hs : sound s) : OutSound (execRemu d a b s) := by
  simp (maxDischargeDepth := 40) [execRemu, hs]

theorem State.onScp_sound {s : State} {k : Nat → Task → Out} (hs : sound s) (hk : ∀ n t, OutSound (k n t)) : OutSound (s.onScp k) := by
  unfold State.onScp
  repeat' split
  all_goals simp (maxDischargeDepth := 40) [hs, hk]

theorem State.onStoek_sound {s : State} {k : Nat → Task → Stoek → Out} (hs : sound s) (hk : ∀ n t p, OutSound (k n t p)) :
    OutSound (s.onStoek k) := by
  unfold State.onStoek
  repeat' split
  all_goals simp (maxDischargeDepth := 40) [hs, hk]

@[simp ↓] theorem execLdf_sound {sz : Sz} {sx : Bool} {d a : Reg} {imm : BitVec 11} {s : State} (hs : sound s) :
    OutSound (execLdf sz sx d a imm s) := by
  unfold execLdf
  try dsimp only
  repeat' (first | with_reducible refine State.onScp_sound ?_ (fun k t => ?_) | (intro a x ha) | split | with_reducible apply sound_foldl | with_reducible apply sound_foldl_fst)
  all_goals simp +contextual (maxDischargeDepth := 40) [*]

@[simp ↓] theorem execStf_sound {sz : Sz} {r a : Reg} {imm : BitVec 12} {s : State} (hs : sound s) :
    OutSound (execStf sz r a imm s) := by
  unfold execStf
  try dsimp only
  repeat' (first | with_reducible refine State.onScp_sound ?_ (fun k t => ?_) | (intro a x ha) | split | with_reducible apply sound_foldl | with_reducible apply sound_foldl_fst)
  all_goals simp +contextual (maxDischargeDepth := 40) [*]

@[simp ↓] theorem issueLoad_sound {ag : Agent} {h : Hart} {sp : Space} {sz : Sz} {sx : Bool} {ord : Ord} {d a : Reg} {imm :
    BitVec 11} {s : State} (hs : sound s) :
    OutSound (issueLoad ag h sp sz sx ord d a imm s) := by
  unfold issueLoad
  try dsimp only
  repeat' (first | with_reducible refine State.translated_sound ?_ ?_ (fun t a ha => ?_) | (intro a x ha) | split | with_reducible apply sound_foldl | with_reducible apply sound_foldl_fst)
  all_goals simp +contextual (maxDischargeDepth := 40) [*]

@[simp ↓] theorem issueStore_sound {ag : Agent} {h : Hart} {sp : Space} {sz : Sz} {ord : Ord} {r a : Reg} {imm : BitVec 12} {s
    : State} (hs : sound s) :
    OutSound (issueStore ag h sp sz ord r a imm s) := by
  unfold issueStore
  try dsimp only
  repeat' (first | with_reducible refine State.translated_sound ?_ ?_ (fun t a ha => ?_) | (intro a x ha) | split | with_reducible apply sound_foldl | with_reducible apply sound_foldl_fst)
  all_goals simp +contextual (maxDischargeDepth := 40) [*]

@[simp ↓] theorem execLdp_sound {sz : Sz} {sx : Bool} {ord : Ord} {d a : Reg} {imm : BitVec 11} {s : State} (hs : sound s) :
    OutSound (execLdp sz sx ord d a imm s) := by
  unfold execLdp
  try dsimp only
  repeat' (first | with_reducible refine State.onHart_sound ?_ (fun ag h => ?_) | (intro a x ha) | split | with_reducible apply sound_foldl | with_reducible apply sound_foldl_fst)
  all_goals simp +contextual (maxDischargeDepth := 40) [*]

@[simp ↓] theorem execStp_sound {sz : Sz} {ord : Ord} {r a : Reg} {imm : BitVec 12} {s : State} (hs : sound s) :
    OutSound (execStp sz ord r a imm s) := by
  unfold execStp
  try dsimp only
  repeat' (first | with_reducible refine State.onHart_sound ?_ (fun ag h => ?_) | (intro a x ha) | split | with_reducible apply sound_foldl | with_reducible apply sound_foldl_fst)
  all_goals simp +contextual (maxDischargeDepth := 40) [*]

@[simp ↓] theorem execLdh_sound {sz : Sz} {sx : Bool} {ord : Ord} {d a : Reg} {imm : BitVec 11} {s : State} (hs : sound s) :
    OutSound (execLdh sz sx ord d a imm s) := by
  unfold execLdh
  try dsimp only
  repeat' (first | with_reducible refine State.onScp_sound ?_ (fun k t => ?_) | (intro a x ha) | split | with_reducible apply sound_foldl | with_reducible apply sound_foldl_fst)
  all_goals simp +contextual (maxDischargeDepth := 40) [*]

@[simp ↓] theorem execSth_sound {sz : Sz} {ord : Ord} {r a : Reg} {imm : BitVec 12} {s : State} (hs : sound s) :
    OutSound (execSth sz ord r a imm s) := by
  unfold execSth
  try dsimp only
  repeat' (first | with_reducible refine State.onScp_sound ?_ (fun k t => ?_) | (intro a x ha) | split | with_reducible apply sound_foldl | with_reducible apply sound_foldl_fst)
  all_goals simp +contextual (maxDischargeDepth := 40) [*]

@[simp ↓] theorem execLdg_sound {sz : Sz} {sx : Bool} {ord : Ord} {d a : Reg} {imm : BitVec 11} {s : State} (hs : sound s) :
    OutSound (execLdg sz sx ord d a imm s) := by
  unfold execLdg
  try dsimp only
  repeat' (first | with_reducible refine State.onScp_sound ?_ (fun k t => ?_) | with_reducible refine State.translated_sound ?_ ?_ (fun t a ha => ?_) | (intro a x ha) | split | with_reducible apply sound_foldl | with_reducible apply sound_foldl_fst)
  all_goals simp +contextual (maxDischargeDepth := 40) [*]

@[simp ↓] theorem execStg_sound {sz : Sz} {ord : Ord} {r a : Reg} {imm : BitVec 12} {s : State} (hs : sound s) :
    OutSound (execStg sz ord r a imm s) := by
  unfold execStg
  try dsimp only
  repeat' (first | with_reducible refine State.onScp_sound ?_ (fun k t => ?_) | with_reducible refine State.translated_sound ?_ ?_ (fun t a ha => ?_) | (intro a x ha) | split | with_reducible apply sound_foldl | with_reducible apply sound_foldl_fst)
  all_goals simp +contextual (maxDischargeDepth := 40) [*]

@[simp ↓] theorem issueRmw_sound {op : Rmw} {dw : Bool} {ord : Ord} {host : Bool} {d a b : Reg} {rs : List Reg} {s : State} (hs
    : sound s) :
    OutSound (issueRmw op dw ord host d a b rs s) := by
  unfold issueRmw
  try dsimp only
  repeat' (first | with_reducible refine State.onScp_sound ?_ (fun k t => ?_) | with_reducible refine State.translated_sound ?_ ?_ (fun t a ha => ?_) | (intro a x ha) | split | with_reducible apply sound_foldl | with_reducible apply sound_foldl_fst)
  all_goals simp +contextual (maxDischargeDepth := 40) [*]

@[simp ↓] theorem execCas_sound {dw : Bool} {ord : Ord} {host : Bool} {d a b : Reg} {s : State} (hs : sound s) :
    OutSound (execCas dw ord host d a b s) := by
  simp (maxDischargeDepth := 40) [execCas, hs]

@[simp ↓] theorem execAmo_sound {op : AmoOp} {dw : Bool} {ord : Ord} {host : Bool} {d a b : Reg} {s : State} (hs : sound s) :
    OutSound (execAmo op dw ord host d a b s) := by
  simp (maxDischargeDepth := 40) [execAmo, hs]

@[simp ↓] theorem execRed_sound {op : RedOp} {dw : Bool} {ord : Ord} {a b : Reg} {s : State} (hs : sound s) :
    OutSound (execRed op dw ord a b s) := by
  simp (maxDischargeDepth := 40) [execRed, hs]

@[simp ↓] theorem execMark_sound {sc : Scope} {s : State} (hs : sound s) : OutSound (execMark sc s) := by
  unfold execMark
  try dsimp only
  repeat' (first | with_reducible refine State.onHart_sound ?_ (fun ag h => ?_) | (intro a x ha) | split | with_reducible apply sound_foldl | with_reducible apply sound_foldl_fst)
  all_goals simp +contextual (maxDischargeDepth := 40) [*]

@[simp ↓] theorem execIpf_sound {a : Reg} {_n : BitVec 11} {s : State} (hs : sound s) : OutSound (execIpf a _n s) := by
  unfold execIpf
  try dsimp only
  repeat' (first | with_reducible refine State.onScp_sound ?_ (fun k t => ?_) | (intro a x ha) | split | with_reducible apply sound_foldl | with_reducible apply sound_foldl_fst)
  all_goals simp +contextual (maxDischargeDepth := 40) [*]

@[simp ↓] theorem execHint_sound {_b : BitVec 29} {s : State} (hs : sound s) : OutSound (execHint _b s) := by
  unfold execHint
  try dsimp only
  repeat' (first | with_reducible refine State.onHart_sound ?_ (fun ag h => ?_) | (intro a x ha) | split | with_reducible apply sound_foldl | with_reducible apply sound_foldl_fst)
  all_goals simp +contextual (maxDischargeDepth := 40) [*]

@[simp ↓] theorem State.bindLoad_sound {s : State} {ag : Agent} {h : Hart} {e : LoadEntry} {l : ScalarLoad} (hs : sound s) :
    sound (State.bindLoad s ag h e l) := by
  unfold State.bindLoad
  try dsimp only
  repeat' (first | (intro a x ha) | split | with_reducible apply sound_foldl | with_reducible apply sound_foldl_fst)
  all_goals simp +contextual (maxDischargeDepth := 40) [*]

@[simp ↓] theorem execLoadBind_sound {ag : Agent} {po : Nat} {s : State} (hs : sound s) : OutSound (execLoadBind ag po s) := by
  unfold execLoadBind
  repeat' split
  all_goals simp (maxDischargeDepth := 40) [*]

@[simp ↓] theorem State.beginOuter_sound {s : State} {ag : Agent} (hs : sound s) : sound (State.beginOuter s ag) := by
  unfold State.beginOuter
  try dsimp only
  repeat' (first | (intro a x ha) | split | with_reducible apply sound_foldl | with_reducible apply sound_foldl_fst)
  all_goals simp +contextual (maxDischargeDepth := 40) [*]

@[simp ↓] theorem State.acceptStore_sound {s : State} {ag : Agent} {before : List StoreEntry} {e : StoreEntry} {after : List
    StoreEntry} (hs : sound s) :
    sound (State.acceptStore s ag before e after) := by
  unfold State.acceptStore
  try dsimp only
  repeat' (first | (intro a x ha) | split | with_reducible apply sound_foldl | with_reducible apply sound_foldl_fst)
  all_goals simp +contextual (maxDischargeDepth := 40) [*]

@[simp ↓] theorem execMcWriteAccept_sound {ag : Agent} {s : State} (hs : sound s) : OutSound (execMcWriteAccept ag s) := by
  unfold execMcWriteAccept
  repeat' split
  all_goals simp (maxDischargeDepth := 40) [*]

@[simp ↓] theorem State.ackEnded_sound {s : State} {l : Nat} (hs : sound s) : sound (State.ackEnded s l) := by
  unfold State.ackEnded
  try dsimp only
  repeat' (first | (intro a x ha) | split | with_reducible apply sound_foldl | with_reducible apply sound_foldl_fst)
  all_goals simp +contextual (maxDischargeDepth := 40) [*]

@[simp ↓] theorem execHostCompletion_sound {ag : Agent} {s : State} (hs : sound s) : OutSound (execHostCompletion ag s) := by
  unfold execHostCompletion
  repeat' split
  all_goals simp (maxDischargeDepth := 40) [*]

@[simp ↓] theorem execMcWriteback_sound {unit : Nat} {s : State} (hs : sound s) : OutSound (execMcWriteback unit s) := by
  simp (maxDischargeDepth := 40) [execMcWriteback, hs]

@[simp ↓] theorem execDeferredLoadFault_sound {k : Nat} {s : State} (hs : sound s) : OutSound (execDeferredLoadFault k s) := by
  unfold execDeferredLoadFault
  repeat' split
  all_goals simp (maxDischargeDepth := 40) [*]

@[simp ↓] theorem State.fetchAddrs_sound {s : State} {c : XCtx} {va : Nat} (hs : sound s) : sound (State.fetchAddrs s c va).1 := by
  unfold State.fetchAddrs
  try dsimp only
  repeat' (first | (intro a x ha) | split | with_reducible apply sound_foldl | with_reducible apply sound_foldl_fst)
  all_goals simp +contextual (maxDischargeDepth := 40) [*]

@[simp ↓] theorem State.readWord_sound {s : State} {va : Nat} {las : List Nat} (hs : sound s) : sound (State.readWord s va las).1 := by
  unfold State.readWord
  try dsimp only
  repeat' (first | (intro a x ha) | split | with_reducible apply sound_foldl | with_reducible apply sound_foldl_fst)
  all_goals simp +contextual (maxDischargeDepth := 40) [*]

@[simp ↓] theorem State.fetchWord_sound {s : State} {c : XCtx} {va : Nat} (hs : sound s) : sound (State.fetchWord s c va).1 := by
  unfold State.fetchWord
  try dsimp only
  repeat' (first | (intro a x ha) | split | with_reducible apply sound_foldl | with_reducible apply sound_foldl_fst)
  all_goals simp +contextual (maxDischargeDepth := 40) [*]

@[simp ↓] theorem State.fetch_sound {s : State} {ag : Agent} {pc : Word} (hs : sound s) : sound (State.fetch s ag pc).1 := by
  unfold State.fetch
  try dsimp only
  repeat' (first | (intro a x ha) | split | with_reducible apply sound_foldl | with_reducible apply sound_foldl_fst)
  all_goals simp +contextual (maxDischargeDepth := 40) [*]

@[simp ↓] theorem State.correctOwn_sound {s : State} {k : Nat} {t : Task} {n : OwnReads} (hs : sound s) : sound (State.correctOwn s k t n) := by
  unfold State.correctOwn
  try dsimp only
  repeat' (first | (intro a x ha) | split | with_reducible apply sound_foldl | with_reducible apply sound_foldl_fst)
  all_goals simp +contextual (maxDischargeDepth := 40) [*]

@[simp ↓] theorem State.operands_sound {s : State} {ag : Agent} {i : Instr} (hs : sound s) : sound (State.operands s ag i).1 := by
  unfold State.operands
  try dsimp only
  repeat' (first | (intro a x ha) | split | with_reducible apply sound_foldl | with_reducible apply sound_foldl_fst)
  all_goals simp +contextual (maxDischargeDepth := 40) [*]

@[simp ↓] theorem execIllopDecode_sound {s : State} (hs : sound s) : OutSound (execIllopDecode s) := by
  unfold execIllopDecode
  try dsimp only
  repeat' (first | with_reducible refine State.onHart_sound ?_ (fun ag h => ?_) | (intro a x ha) | split | with_reducible apply sound_foldl | with_reducible apply sound_foldl_fst)
  all_goals simp +contextual (maxDischargeDepth := 40) [*]

@[simp ↓] theorem execInstructionFetchFault_sound {s : State} (hs : sound s) : OutSound (execInstructionFetchFault s) := by
  unfold execInstructionFetchFault
  try dsimp only
  repeat' (first | with_reducible refine State.onHart_sound ?_ (fun ag h => ?_) | (intro a x ha) | split | with_reducible apply sound_foldl | with_reducible apply sound_foldl_fst)
  all_goals simp +contextual (maxDischargeDepth := 40) [*]

@[simp ↓] theorem execTrap_sound {c : BitVec 8} {s : State} (hs : sound s) : OutSound (execTrap c s) := by
  unfold execTrap
  try dsimp only
  repeat' (first | with_reducible refine State.onScp_sound ?_ (fun k t => ?_) | (intro a x ha) | split | with_reducible apply sound_foldl | with_reducible apply sound_foldl_fst)
  all_goals simp +contextual (maxDischargeDepth := 40) [*]

@[simp ↓] theorem execScall_sound {c : BitVec 8} {s : State} (hs : sound s) : OutSound (execScall c s) := by
  unfold execScall
  try dsimp only
  repeat' (first | with_reducible refine State.onScp_sound ?_ (fun k t => ?_) | (intro a x ha) | split | with_reducible apply sound_foldl | with_reducible apply sound_foldl_fst)
  all_goals simp +contextual (maxDischargeDepth := 40) [*]

theorem State.onSup_sound {s : State} {k : Nat → Task → Out} (hs : sound s) (hk : ∀ n t, OutSound (k n t)) : OutSound (s.onSup k) := by
  refine State.onScp_sound hs (fun n t => ?_)
  split
  · exact hk n t
  · simp (maxDischargeDepth := 40) [hs]

@[simp ↓] theorem execEret_sound {s : State} (hs : sound s) : OutSound (execEret s) := by
  unfold execEret
  try dsimp only
  repeat' (first | with_reducible refine State.onSup_sound ?_ (fun k t => ?_) | (intro a x ha) | split | with_reducible apply sound_foldl | with_reducible apply sound_foldl_fst)
  all_goals simp +contextual (maxDischargeDepth := 40) [*]

@[simp ↓] theorem execWaite_sound {s : State} (hs : sound s) : OutSound (execWaite s) := by
  unfold execWaite
  try dsimp only
  repeat' (first | with_reducible refine State.onSup_sound ?_ (fun k t => ?_) | (intro a x ha) | split | with_reducible apply sound_foldl | with_reducible apply sound_foldl_fst)
  all_goals simp +contextual (maxDischargeDepth := 40) [*]

@[simp ↓] theorem execHalt_sound {s : State} (hs : sound s) : OutSound (execHalt s) := by
  unfold execHalt
  try dsimp only
  repeat' (first | with_reducible refine State.onScp_sound ?_ (fun k t => ?_) | (intro a x ha) | split | with_reducible apply sound_foldl | with_reducible apply sound_foldl_fst)
  all_goals simp +contextual (maxDischargeDepth := 40) [*]

@[simp ↓] theorem execHaltComplete_sound {k : Nat} {s : State} (hs : sound s) : OutSound (execHaltComplete k s) := by
  unfold execHaltComplete
  repeat' split
  all_goals simp (maxDischargeDepth := 40) [*]

@[simp ↓] theorem State.setSelectors_sound {s : State} {lg : Nat} {zs : List TlbSel} (hs : sound s) : sound (State.setSelectors s lg zs) := by
  simp (maxDischargeDepth := 40) [State.setSelectors, hs]

@[simp ↓] theorem State.noteUses_sound {s : State} {es : List TlbEntry} (hs : sound s) : sound (State.noteUses s es) := by
  simp (maxDischargeDepth := 40) [State.noteUses, hs]

@[simp ↓] theorem State.notePins_sound {s : State} {k : Nat} {t : Task} {p : Stoek} (hs : sound s) : sound (State.notePins s k t p) := by
  simp (maxDischargeDepth := 40) [State.notePins, hs]

@[simp ↓] theorem execTlbi_sound {a b : Reg} {s : State} (hs : sound s) : OutSound (execTlbi a b s) := by
  unfold execTlbi
  try dsimp only
  repeat' (first | with_reducible refine State.onSup_sound ?_ (fun k t => ?_) | (intro a x ha) | split | with_reducible apply sound_foldl | with_reducible apply sound_foldl_fst)
  all_goals simp +contextual (maxDischargeDepth := 40) [*]

@[simp ↓] theorem State.removeEntries_sound {s : State} {lg : Nat} (hs : sound s) : sound (State.removeEntries s lg) := by
  unfold State.removeEntries
  try dsimp only
  repeat' (first | (intro a x ha) | split | with_reducible apply sound_foldl | with_reducible apply sound_foldl_fst)
  all_goals simp +contextual (maxDischargeDepth := 40) [*]

@[simp ↓] theorem execTlbsync_sound {s : State} (hs : sound s) : OutSound (execTlbsync s) := by
  unfold execTlbsync
  try dsimp only
  repeat' (first | with_reducible refine State.onSup_sound ?_ (fun k t => ?_) | (intro a x ha) | split | with_reducible apply sound_foldl | with_reducible apply sound_foldl_fst)
  all_goals simp +contextual (maxDischargeDepth := 40) [*]

@[simp ↓] theorem execStreamFaultTrap_sound {k : Nat} {s : State} (hs : sound s) : OutSound (execStreamFaultTrap k s) := by
  unfold execStreamFaultTrap
  repeat' split
  all_goals simp (maxDischargeDepth := 40) [*]

@[simp ↓] theorem execSfctlRetire_sound {k : Nat} {s : State} (hs : sound s) : OutSound (execSfctlRetire k s) := by
  unfold execSfctlRetire
  repeat' split
  all_goals simp (maxDischargeDepth := 40) [*]

@[simp ↓] theorem State.wake_sound {s : State} {lg : Nat} (hs : sound s) : sound (State.wake s lg) := by
  simp (maxDischargeDepth := 40) [State.wake, hs]

@[simp ↓] theorem execWakeset_sound {lg : BitVec 8} {s : State} (hs : sound s) : OutSound (execWakeset lg s) := by
  simp (maxDischargeDepth := 40) [execWakeset, hs]

@[simp ↓] theorem State.issue_sound {s : State} {i : Instr} {d : Reg} {rs : List Reg} (hs : sound s) :
    OutSound (State.issue s i d rs) := by
  unfold State.issue
  try dsimp only
  repeat' (first | with_reducible refine State.onScp_sound ?_ (fun k t => ?_) | (intro a x ha) | split | with_reducible apply sound_foldl | with_reducible apply sound_foldl_fst)
  all_goals simp +contextual (maxDischargeDepth := 40) [*]

@[simp ↓] theorem execTdset_sound {d : Reg} {td : BitVec 6} {line : BitVec 15} {s : State} (hs : sound s) :
    OutSound (execTdset d td line s) := by
  simp (maxDischargeDepth := 40) [execTdset, hs]

@[simp ↓] theorem execTdmov_sound {d : Reg} {td : BitVec 6} {f : BitVec 5} {a : Reg} {s : State} (hs : sound s) :
    OutSound (execTdmov d td f a s) := by
  simp (maxDischargeDepth := 40) [execTdmov, hs]

@[simp ↓] theorem execRingi_sound {d : Reg} {n : BitVec 4} {a : Reg} {nslot slot1 : BitVec 9} {s : State} (hs : sound s) :
    OutSound (execRingi d n a nslot slot1 s) := by
  simp (maxDischargeDepth := 40) [execRingi, hs]

@[simp ↓] theorem execSld_sound {d : Reg} {td : BitVec 6} {line : BitVec 15} {rsz : BitVec 9} {rg e pad mmas : Bool} {a b :
    Reg} {s : State} (hs : sound s) :
    OutSound (execSld d td line rsz rg e pad mmas a b s) := by
  simp (maxDischargeDepth := 40) [execSld, hs]

@[simp ↓] theorem execSst_sound {d : Reg} {td : BitVec 6} {line : BitVec 15} {rsz : BitVec 9} {rg e pad : Bool} {a b : Reg} {s
    : State} (hs : sound s) :
    OutSound (execSst d td line rsz rg e pad a b s) := by
  simp (maxDischargeDepth := 40) [execSst, hs]

@[simp ↓] theorem execSga_sound {d : Reg} {td : BitVec 6} {line : BitVec 15} {rsz : BitVec 9} {rg e : Bool} {a b : Reg} {s :
    State} (hs : sound s) :
    OutSound (execSga d td line rsz rg e a b s) := by
  simp (maxDischargeDepth := 40) [execSga, hs]

@[simp ↓] theorem execSsc_sound {op : SscOp} {d : Reg} {td : BitVec 6} {line : BitVec 15} {rsz : BitVec 9} {rg e : Bool} {a b :
    Reg} {s : State} (hs : sound s) :
    OutSound (execSsc op d td line rsz rg e a b s) := by
  simp (maxDischargeDepth := 40) [execSsc, hs]

@[simp ↓] theorem execScpy_sound {d : Reg} {e drop : Bool} {la lb : BitVec 15} {rga rgb : Bool} {a : Reg} {s : State} (hs :
    sound s) :
    OutSound (execScpy d e drop la lb rga rgb a s) := by
  simp (maxDischargeDepth := 40) [execScpy, hs]

@[simp ↓] theorem execNbmv_sound {d : Reg} {td : BitVec 6} {y : BitVec 15} {acc : Bool} {a b : Reg} {s : State} (hs : sound s) :
    OutSound (execNbmv d td y acc a b s) := by
  simp (maxDischargeDepth := 40) [execNbmv, hs]

@[simp ↓] theorem execDescend_sound {d : Reg} {td : BitVec 6} {l0 l1 : BitVec 5} {dg : BitVec 3} {pt mg lf : Bool} {a b : Reg}
    {s : State} (hs : sound s) :
    OutSound (execDescend d td l0 l1 dg pt mg lf a b s) := by
  simp (maxDischargeDepth := 40) [execDescend, hs]

@[simp ↓] theorem execStkrun_sound {d : Reg} {n : BitVec 4} {a b : Reg} {s : State} (hs : sound s) :
    OutSound (execStkrun d n a b s) := by
  simp (maxDischargeDepth := 40) [execStkrun, hs]

@[simp ↓] theorem execStkrunNoring_sound {d a b : Reg} {s : State} (hs : sound s) : OutSound (execStkrunNoring d a b s) := by
  simp (maxDischargeDepth := 40) [execStkrunNoring, hs]

@[simp ↓] theorem execKrun_sound {d : Reg} {ke : BitVec 13} {a : Reg} {narg : BitVec 4} {t5 : Bool} {b : Reg} {s : State} (hs :
    sound s) :
    OutSound (execKrun d ke a narg t5 b s) := by
  unfold execKrun
  try dsimp only
  repeat' (first | with_reducible refine State.onScp_sound ?_ (fun k t => ?_) | (intro a x ha) | split | with_reducible apply sound_foldl | with_reducible apply sound_foldl_fst)
  all_goals simp +contextual (maxDischargeDepth := 40) [*]

@[simp ↓] theorem State.atIssue_sound {s : State} {rs : List Reg} {d : Reg} {ok : Task → Bool} {f : Task → Word} (hs : sound s) :
    OutSound (s.atIssue rs d ok f) := by
  refine State.onScp_sound hs (fun n t => ?_)
  repeat' split
  all_goals simp (maxDischargeDepth := 40) [hs]

@[simp ↓] theorem execTdget_sound {d : Reg} {td : BitVec 6} {f : BitVec 5} {s : State} (hs : sound s) :
    OutSound (execTdget d td f s) := by
  simp (maxDischargeDepth := 40) [execTdget, hs]

@[simp ↓] theorem execRingq_sound {d : Reg} {n : BitVec 4} {s : State} (hs : sound s) : OutSound (execRingq d n s) := by
  simp (maxDischargeDepth := 40) [execRingq, hs]

@[simp ↓] theorem execKstat_sound {d a : Reg} {s : State} (hs : sound s) : OutSound (execKstat d a s) := by
  simp (maxDischargeDepth := 40) [execKstat, hs]

@[simp ↓] theorem execSqstat_sound {d a : Reg} {s : State} (hs : sound s) : OutSound (execSqstat d a s) := by
  simp (maxDischargeDepth := 40) [execSqstat, hs]

@[simp ↓] theorem execSqwait_sound {a : Reg} {s : State} (hs : sound s) : OutSound (execSqwait a s) := by
  simp (maxDischargeDepth := 40) [execSqwait, hs]

@[simp ↓] theorem execSqwaitAll_sound {s : State} (hs : sound s) : OutSound (execSqwaitAll s) := by
  simp (maxDischargeDepth := 40) [execSqwaitAll, hs]

@[simp ↓] theorem execStkcan_sound {a : Reg} {s : State} (hs : sound s) : OutSound (execStkcan a s) := by
  unfold execStkcan
  try dsimp only
  repeat' (first | with_reducible refine State.onScp_sound ?_ (fun k t => ?_) | (intro a x ha) | split | with_reducible apply sound_foldl | with_reducible apply sound_foldl_fst)
  all_goals simp +contextual (maxDischargeDepth := 40) [*]

@[simp ↓] theorem execGjoin_sound {g : BitVec 6} {s : State} (hs : sound s) : OutSound (execGjoin g s) := by
  unfold execGjoin
  try dsimp only
  repeat' (first | with_reducible refine State.onScp_sound ?_ (fun k t => ?_) | (intro a x ha) | split | with_reducible apply sound_foldl | with_reducible apply sound_foldl_fst)
  all_goals simp +contextual (maxDischargeDepth := 40) [*]

@[simp ↓] theorem execGleave_sound {g : BitVec 6} {s : State} (hs : sound s) : OutSound (execGleave g s) := by
  unfold execGleave
  try dsimp only
  repeat' (first | with_reducible refine State.onScp_sound ?_ (fun k t => ?_) | (intro a x ha) | split | with_reducible apply sound_foldl | with_reducible apply sound_foldl_fst)
  all_goals simp +contextual (maxDischargeDepth := 40) [*]

@[simp ↓] theorem execGbar_sound {g : BitVec 6} {s : State} (hs : sound s) : OutSound (execGbar g s) := by
  unfold execGbar
  try dsimp only
  repeat' (first | with_reducible refine State.onScp_sound ?_ (fun k t => ?_) | (intro a x ha) | split | with_reducible apply sound_foldl | with_reducible apply sound_foldl_fst)
  all_goals simp +contextual (maxDischargeDepth := 40) [*]

theorem State.onStepMember_sound {s : State} {k : Nat → Task → Out} (hs : sound s) (hk : ∀ n t, OutSound (k n t)) :
    OutSound (s.onStepMember k) := by
  refine State.onScp_sound hs (fun n t => ?_)
  split
  · exact hk n t
  · simp (maxDischargeDepth := 40) [hs]

@[simp ↓] theorem execStepArr_sound {s : State} (hs : sound s) : OutSound (execStepArr s) := by
  unfold execStepArr
  try dsimp only
  repeat' (first | with_reducible refine State.onStepMember_sound ?_ (fun k t => ?_) | (intro a x ha) | split | with_reducible apply sound_foldl | with_reducible apply sound_foldl_fst)
  all_goals simp +contextual (maxDischargeDepth := 40) [*]

@[simp ↓] theorem execStepWait_sound {s : State} (hs : sound s) : OutSound (execStepWait s) := by
  unfold execStepWait
  try dsimp only
  repeat' (first | with_reducible refine State.onStepMember_sound ?_ (fun k t => ?_) | (intro a x ha) | split | with_reducible apply sound_foldl | with_reducible apply sound_foldl_fst)
  all_goals simp +contextual (maxDischargeDepth := 40) [*]

@[simp ↓] theorem execStepQry_sound {d : Reg} {full : Bool} {s : State} (hs : sound s) : OutSound (execStepQry d full s) := by
  unfold execStepQry
  try dsimp only
  repeat' (first | with_reducible refine State.onStepMember_sound ?_ (fun k t => ?_) | (intro a x ha) | split | with_reducible apply sound_foldl | with_reducible apply sound_foldl_fst)
  all_goals simp +contextual (maxDischargeDepth := 40) [*]

end Sys2Proof.Machine
end

