-- ==== Sys2Proof/Laws/SoundStream.lean ====
section
/-! SUPPORT. Soundness is kept: the stream engine, descents and the kernel sequencer. -/

namespace Sys2Proof.Machine

@[simp ↓] theorem State.readAt_sound {s : State} {c : XCtx} {w : Who} {sp : Space} {got : Tbl Byte} {va n : Nat} (hs : sound s)
    :
    sound (State.readAt s c w sp got va n).1 := by
  unfold State.readAt
  try dsimp only
  repeat' (first | (intro a x ha) | split | with_reducible apply sound_foldl | with_reducible apply sound_foldl_fst)
  all_goals simp +contextual (maxDischargeDepth := 40) [*]

@[simp ↓] theorem State.readUnits_sound {c : XCtx} {w : Who} {sp : Space} {got : Tbl Byte} {ub : Nat} {fill : List Byte} {a7 :
    List (Option Nat)} {a8 : State} (hs : sound a8) :
    sound (State.readUnits c w sp got ub fill a7 a8).1 := by
  fun_induction State.readUnits c w sp got ub fill a7 a8
  all_goals simp_all +zetaDelta (maxDischargeDepth := 40)

@[simp ↓] theorem State.missingUnits_sound {c : XCtx} {got : Tbl Byte} {ub : Nat} {a4 : List (Option Nat)} {a5 : State} (hs :
    sound a5) :
    sound (State.missingUnits c got ub a4 a5).1 := by
  fun_induction State.missingUnits c got ub a4 a5
  all_goals simp_all +zetaDelta (maxDischargeDepth := 40)

@[simp ↓] theorem State.gather_sound {c : XCtx} {sp : Space} {l : List Item} {a : State} (hs : sound a) : sound (State.gather c sp l a).1 := by
  fun_induction State.gather c sp l a
  all_goals simp_all +zetaDelta (maxDischargeDepth := 40)

@[simp ↓] theorem State.storeWrites_sound {s : State} {w : Who} {sp : Space} {ws : Writes} (hs : sound s) :
    sound (State.storeWrites s w sp ws) := by
  unfold State.storeWrites
  split
  · have h : ∀ (l : Writes) (m : List Host.Cell), Memory.wf m = true →
        Memory.wf (l.foldl (fun m x => wrByte m x.1 (mergeByte x.2.1 (rdByte m x.1) x.2.2)) m) = true := by
      intro l
      induction l with
      | nil => exact fun _ hm => hm
      | cons x l ih => exact fun m hm => ih _ (wf_wrByte _ _ hm)
    simp (maxDischargeDepth := 40) [hs, h]
  · simp (maxDischargeDepth := 40) [hs]

@[simp ↓] theorem State.loadRecord_sound {s : State} {t : Task} {q : QInstr} {g : Geo} {r : Nat} (hs : sound s) :
    sound (State.loadRecord s t q g r).1 := by
  unfold State.loadRecord
  try dsimp only
  repeat' (first | (intro a x ha) | split | with_reducible apply sound_foldl | with_reducible apply sound_foldl_fst)
  all_goals simp +contextual (maxDischargeDepth := 40) [*]

@[simp ↓] theorem State.missingRecords_sound {t : Task} {q : QInstr} {g : Geo} {a4 : List Nat} {a5 : State} (hs : sound a5) :
    sound (State.missingRecords t q g a4 a5).1 := by
  fun_induction State.missingRecords t q g a4 a5
  all_goals simp_all +zetaDelta (maxDischargeDepth := 40)

@[simp ↓] theorem State.pinAt_sound {s : State} {c : XCtx} {a : Access} {pins : List Pin} {va : Nat} (hs : sound s) :
    sound (State.pinAt s c a pins va).1 := by
  unfold State.pinAt
  repeat' split
  all_goals simp (maxDischargeDepth := 40) [*]

@[simp ↓] theorem State.probeItems_sound {c : XCtx} {a : Access} {ok : Nat → Nat → Nat → Bool} {l : List Item} {p : Probed} {s : State}
    (hs : sound s) : sound (State.probeItems c a ok l p s).1 := by
  fun_induction State.probeItems c a ok l p s
  all_goals simp_all +zetaDelta (maxDischargeDepth := 40)

@[simp ↓] theorem State.probe_sound {s : State} {t : Task} {q : QInstr} {g : Geo} (hs : sound s) :
    sound (State.probe s t q g).1 := by
  unfold State.probe
  try dsimp only
  repeat' (first | (intro a x ha) | split | with_reducible apply sound_foldl | with_reducible apply sound_foldl_fst)
  all_goals simp +contextual (maxDischargeDepth := 40) [*]

@[simp ↓] theorem State.reduceItems_sound {c : XCtx} {w : Who} {op : RedOp} {a4 : List Item} {a5 : State} (hs : sound a5) :
    sound (State.reduceItems c w op a4 a5) := by
  fun_induction State.reduceItems c w op a4 a5
  all_goals simp_all +zetaDelta (maxDischargeDepth := 40)

@[simp ↓] theorem State.podBytes_sound {c : XCtx} {got : Tbl Byte} {l : List Item} {a : State} (hs : sound a) : sound (State.podBytes c got l a).1 := by
  fun_induction State.podBytes c got l a
  all_goals simp_all +zetaDelta (maxDischargeDepth := 40)

@[simp ↓] theorem State.podMissing_sound {c : XCtx} {got : Tbl Byte} {l : List Item} {a : State} (hs : sound a) : sound (State.podMissing c got l a).1 := by
  fun_induction State.podMissing c got l a
  all_goals simp_all +zetaDelta (maxDischargeDepth := 40)

@[simp ↓] theorem State.storePod_sound {s : State} {k : Nat} {c : XCtx} {got : Tbl Byte} {its : List Item} (hs : sound s) : sound (State.storePod s k c got its) := by
  unfold State.storePod
  try dsimp only
  repeat' (first | (intro a x ha) | split | with_reducible apply sound_foldl | with_reducible apply sound_foldl_fst)
  all_goals simp +contextual (maxDischargeDepth := 40) [*]

@[simp ↓] theorem State.pinAll_sound {c : XCtx} {a : Access} {a3 : List Nat} {a4 : List Pin} {a5 : State} (hs : sound a5) :
    sound (State.pinAll c a a3 a4 a5).1 := by
  fun_induction State.pinAll c a a3 a4 a5
  all_goals simp_all +zetaDelta (maxDischargeDepth := 40)

@[simp ↓] theorem State.descendProbe_sound {s : State} {t : Task} {q : QInstr} {o : DescendOp} (hs : sound s) :
    sound (State.descendProbe s t q o).1 := by
  simp (maxDischargeDepth := 40) [State.descendProbe, hs]

@[simp ↓] theorem State.readTree_sound {s : State} {t : Task} {q : QInstr} {va n ub : Nat} (hs : sound s) :
    sound (State.readTree s t q va n ub).1 := by
  unfold State.readTree
  try dsimp only
  repeat' (first | (intro a x ha) | split | with_reducible apply sound_foldl | with_reducible apply sound_foldl_fst)
  all_goals simp +contextual (maxDischargeDepth := 40) [*]

@[simp ↓] theorem State.descendRuns_sound {t : Task} {q : QInstr} {a3 : Stream} {l : Nat} {perm : List Nat} {a6 : List TreeRun}
    {a7 : Route} {a8 : State} (hs : sound a8) :
    sound (State.descendRuns t q a3 l perm a6 a7 a8).1 := by
  fun_induction State.descendRuns t q a3 l perm a6 a7 a8
  all_goals simp_all +zetaDelta (maxDischargeDepth := 40)

@[simp ↓] theorem State.descendLevels_sound {t : Task} {q : QInstr} {a3 : Stream} {a4 : List Nat} {a5 : Route} {a6 : State} (hs
    : sound a6) :
    sound (State.descendLevels t q a3 a4 a5 a6).1 := by
  fun_induction State.descendLevels t q a3 a4 a5 a6
  all_goals simp_all +zetaDelta (maxDischargeDepth := 40)

@[simp ↓] theorem State.descendLeaves_sound {t : Task} {q : QInstr} {a3 : List TreeRun} {a4 : State} (hs : sound a4) :
    sound (State.descendLeaves t q a3 a4).1 := by
  fun_induction State.descendLeaves t q a3 a4
  all_goals simp_all +zetaDelta (maxDischargeDepth := 40)

@[simp ↓] theorem State.descend_sound {s : State} {t : Task} {q : QInstr} {o : DescendOp} (hs : sound s) :
    sound (State.descend s t q o).1 := by
  unfold State.descend
  try dsimp only
  repeat' (first | (intro a x ha) | split | with_reducible apply sound_foldl | with_reducible apply sound_foldl_fst)
  all_goals simp +contextual (maxDischargeDepth := 40) [*]

@[simp ↓] theorem State.qStop_sound {s : State} {k tag : Nat} {e : Stop} (hs : sound s) : OutSound (State.qStop s k tag e) := by
  unfold State.qStop
  repeat' split
  all_goals simp (maxDischargeDepth := 40) [*]

@[simp ↓] theorem State.startPlain_sound {s : State} {k : Nat} {t : Task} {q : QInstr} {d : Desc} {c : Res Unit} (hs : sound s)
    :
    OutSound (State.startPlain s k t q d c) := by
  unfold State.startPlain
  repeat' split
  all_goals simp (maxDischargeDepth := 40) [*]

@[simp ↓] theorem State.probeStop_sound {s s1 : State} {k : Nat} {t : Task} {q : QInstr} {e : Stop} (hs1 : sound s1) (hs : sound s) : OutSound (State.probeStop s s1 k t q e) := by
  unfold State.probeStop
  try dsimp only
  repeat' (first | (intro a x ha) | split | with_reducible apply sound_foldl | with_reducible apply sound_foldl_fst)
  all_goals simp +contextual (maxDischargeDepth := 40) [*]

@[simp ↓] theorem State.startPinned_sound {s s1 : State} {k : Nat} {t : Task} {q : QInstr} {d : Desc} {pins : List Pin} {resv :
    Nat} (hs : sound s) (hs1 : sound s1) :
    OutSound (State.startPinned s s1 k t q d pins resv) := by
  unfold State.startPinned
  repeat' split
  all_goals simp (maxDischargeDepth := 40) [*]

@[simp ↓] theorem State.startMove_sound {s : State} {k : Nat} {t : Task} {q : QInstr} {d : Desc} (hs : sound s) :
    OutSound (State.startMove s k t q d) := by
  unfold State.startMove
  try dsimp only
  repeat' (first | (intro a x ha) | split | with_reducible apply sound_foldl | with_reducible apply sound_foldl_fst)
  all_goals simp +contextual (maxDischargeDepth := 40) [*]

@[simp ↓] theorem State.startDescend_sound {s : State} {k : Nat} {t : Task} {q : QInstr} {d : Desc} (hs : sound s) :
    OutSound (State.startDescend s k t q d) := by
  unfold State.startDescend
  try dsimp only
  repeat' (first | (intro a x ha) | split | with_reducible apply sound_foldl | with_reducible apply sound_foldl_fst)
  all_goals simp +contextual (maxDischargeDepth := 40) [*]

@[simp ↓] theorem State.regrant_sound {s : State} {k : Nat} {t : Task} {q : QInstr} (hs : sound s) : sound (State.regrant s k t q) := by
  unfold State.regrant
  try dsimp only
  repeat' (first | (intro a x ha) | split | with_reducible apply sound_foldl | with_reducible apply sound_foldl_fst)
  all_goals simp +contextual (maxDischargeDepth := 40) [*]

@[simp ↓] theorem State.startStkrun_sound {s : State} {k : Nat} {t : Task} {q : QInstr} (hs : sound s) :
    OutSound (State.startStkrun s k t q) := by
  simp (maxDischargeDepth := 40) [State.startStkrun, hs]

@[simp ↓] theorem State.tryRun_sound {s : State} {k : Nat} {t : Task} {q : QInstr} (hs : sound s) :
    OutSound (State.tryRun s k t q) := by
  unfold State.tryRun
  repeat' split
  all_goals simp (maxDischargeDepth := 40) [*]

@[simp ↓] theorem State.stamp_sound {s : State} (hs : sound s) : sound (State.stamp s).2 := by
  simp (maxDischargeDepth := 40) [State.stamp, hs]

@[simp ↓] theorem State.askRemote_sound {s : State} {k : Nat} {t : Task} {q : QInstr} (hs : sound s) :
    sound (State.askRemote s k t q) := by
  unfold State.askRemote
  try dsimp only
  repeat' (first | (intro a x ha) | split | with_reducible apply sound_foldl | with_reducible apply sound_foldl_fst)
  all_goals simp +contextual (maxDischargeDepth := 40) [*]

@[simp ↓] theorem State.beginLoad_sound {s : State} {k : Nat} {t : Task} {q : QInstr} (hs : sound s) :
    OutSound (State.beginLoad s k t q) := by
  simp (maxDischargeDepth := 40) [State.beginLoad, hs]

@[simp ↓] theorem State.flushPod_sound {s : State} {k : Nat} {t : Task} {q : QInstr} {g : Geo} (hs : sound s) :
    sound (State.flushPod s k t q g) := by
  simp (maxDischargeDepth := 40) [State.flushPod, hs]

@[simp ↓] theorem State.flushTaken_sound {s : State} {k : Nat} {t : Task} {q : QInstr} (hs : sound s) : sound (State.flushTaken s k t q) := by
  unfold State.flushTaken
  try dsimp only
  repeat' (first | (intro a x ha) | split | with_reducible apply sound_foldl | with_reducible apply sound_foldl_fst)
  all_goals simp +contextual (maxDischargeDepth := 40) [*]

theorem State.reading_sound {s : State} {k : Nat} {t : Task} {q : QInstr} {n : OwnReads} {f : State → Task → Out} (hs : sound s)
    (hf : ∀ a u, sound a → OutSound (f a u)) : OutSound (State.reading s k t q n f) := by
  unfold State.reading
  split
  · simp (maxDischargeDepth := 40) [hs]
  · exact hf _ _ (State.correctOwn_sound hs)

@[simp ↓] theorem execStreamStart_sound {k tag : Nat} {s : State} (hs : sound s) : OutSound (execStreamStart k tag s) := by
  unfold execStreamStart
  try dsimp only
  repeat' (first | with_reducible refine State.reading_sound ?_ (fun a u ha => ?_) | split)
  all_goals simp (maxDischargeDepth := 40) [*]

@[simp ↓] theorem State.dataStop_sound {s : State} {k : Nat} {t : Task} {tag : Nat} {e : Stop} (hs : sound s) :
    OutSound (State.dataStop s k t tag e) := by
  simp (maxDischargeDepth := 40) [State.dataStop, hs]

@[simp ↓] theorem State.sldSlot_sound {s : State} {k : Nat} {t : Task} {q : QInstr} {g : Geo} {n : Nat} (hs : sound s) :
    OutSound (State.sldSlot s k t q g n) := by
  unfold State.sldSlot
  try dsimp only
  repeat' (first | (intro a x ha) | split | with_reducible apply sound_foldl | with_reducible apply sound_foldl_fst)
  all_goals simp +contextual (maxDischargeDepth := 40) [*]

@[simp ↓] theorem State.sstSlot_sound {s : State} {k : Nat} {t0 : Task} {q : QInstr} {g : Geo} {n : Nat} (hs : sound s) :
    OutSound (State.sstSlot s k t0 q g n) := by
  unfold State.sstSlot
  try dsimp only
  repeat' (first | (intro a x ha) | split | with_reducible apply sound_foldl | with_reducible apply sound_foldl_fst)
  all_goals simp +contextual (maxDischargeDepth := 40) [*]

@[simp ↓] theorem State.scpySlot_sound {s : State} {k : Nat} {t : Task} {q : QInstr} (hs : sound s) :
    OutSound (State.scpySlot s k t q) := by
  unfold State.scpySlot
  repeat' split
  all_goals simp (maxDischargeDepth := 40) [*]

@[simp ↓] theorem execRingWaitSatisfied_sound {k tag : Nat} {s : State} (hs : sound s) : OutSound (execRingWaitSatisfied k tag s) := by
  unfold execRingWaitSatisfied
  try dsimp only
  repeat' (first | with_reducible refine State.reading_sound ?_ (fun a u ha => ?_) | split)
  all_goals simp (maxDischargeDepth := 40) [*]

@[simp ↓] theorem State.loadRecords_sound {k : Nat} {t0 : Task} {q : QInstr} {g : Geo} {a5 : List Nat} {a6 : State} {a7 : Task}
    (hs : sound a6) :
    sound (State.loadRecords k t0 q g a5 a6 a7).1 := by
  fun_induction State.loadRecords k t0 q g a5 a6 a7
  all_goals simp_all +zetaDelta (maxDischargeDepth := 40)

@[simp ↓] theorem State.gatherRecords_sound {t : Task} {q : QInstr} {g : Geo} {l : List Nat} {a : State} (hs : sound a) : sound (State.gatherRecords t q g l a).1 := by
  fun_induction State.gatherRecords t q g l a
  all_goals simp_all +zetaDelta (maxDischargeDepth := 40)

@[simp ↓] theorem State.finishQ_sound {s : State} {k : Nat} {t : Task} {q : QInstr} {count : Nat} (hs : sound s) :
    OutSound (State.finishQ s k t q count) := by
  simp (maxDischargeDepth := 40) [State.finishQ, hs]

@[simp ↓] theorem State.endData_sound {s : State} {k : Nat} {t : Task} {q : QInstr} {r : Nat} {e : Option Stop} (hs : sound s) :
    OutSound (State.endData s k t q r e) := by
  unfold State.endData
  repeat' split
  all_goals simp (maxDischargeDepth := 40) [*]

@[simp ↓] theorem State.completeLoad_sound {s : State} {k : Nat} {t : Task} {q : QInstr} {g : Geo} (hs : sound s) :
    OutSound (State.completeLoad s k t q g) := by
  unfold State.completeLoad
  try dsimp only
  repeat' (first | (intro a x ha) | split | with_reducible apply sound_foldl | with_reducible apply sound_foldl_fst)
  all_goals simp +contextual (maxDischargeDepth := 40) [*]

@[simp ↓] theorem State.podLocal_sound {c : XCtx} {l : List Item} {s : State} (hs : sound s) : sound (State.podLocal c l s).1 := by
  fun_induction State.podLocal c l s
  all_goals simp_all +zetaDelta (maxDischargeDepth := 40)

@[simp ↓] theorem State.readHalves_sound {c : XCtx} {w : Who} {l : List Item} {s : State} (hs : sound s) :
    sound (State.readHalves s c w l).1 := by
  unfold State.readHalves
  try dsimp only
  repeat' (first | (intro a x ha) | split | with_reducible apply sound_foldl | with_reducible apply sound_foldl_fst)
  all_goals simp +contextual (maxDischargeDepth := 40) [*]

@[simp ↓] theorem State.completePod_sound {s : State} {k : Nat} {t : Task} {q : QInstr} {g : Geo} {all : List Item} (hs : sound s) : OutSound (State.completePod s k t q g all) := by
  unfold State.completePod
  try dsimp only
  repeat' (first | (intro a x ha) | split | with_reducible apply sound_foldl | with_reducible apply sound_foldl_fst)
  all_goals simp +contextual (maxDischargeDepth := 40) [*]

@[simp ↓] theorem State.completeStore_sound {s : State} {k : Nat} {t : Task} {q : QInstr} {g : Geo} (hs : sound s) :
    OutSound (State.completeStore s k t q g) := by
  unfold State.completeStore
  try dsimp only
  repeat' (first | (intro a x ha) | split | with_reducible apply sound_foldl | with_reducible apply sound_foldl_fst)
  all_goals simp +contextual (maxDischargeDepth := 40) [*]

@[simp ↓] theorem State.nbmvRows_sound {t : Task} {q : QInstr} {a3 : List Byte} {y : Nat} {acc : Bool} {a6 : List Nat} {a7 :
    State} (hs : sound a7) :
    sound (State.nbmvRows t q a3 y acc a6 a7).1 := by
  fun_induction State.nbmvRows t q a3 y acc a6 a7
  all_goals simp_all +zetaDelta (maxDischargeDepth := 40)

@[simp ↓] theorem State.completeNbmv_sound {s : State} {k : Nat} {t : Task} {q : QInstr} (hs : sound s) :
    OutSound (State.completeNbmv s k t q) := by
  unfold State.completeNbmv
  try dsimp only
  repeat' (first | (intro a x ha) | split | with_reducible apply sound_foldl | with_reducible apply sound_foldl_fst)
  all_goals simp +contextual (maxDischargeDepth := 40) [*]

@[simp ↓] theorem State.completeDescend_sound {s : State} {k : Nat} {t : Task} {q : QInstr} (hs : sound s) :
    OutSound (State.completeDescend s k t q) := by
  unfold State.completeDescend
  try dsimp only
  repeat' (first | (intro a x ha) | split | with_reducible apply sound_foldl | with_reducible apply sound_foldl_fst)
  all_goals simp +contextual (maxDischargeDepth := 40) [*]

@[simp ↓] theorem State.completeDesc_sound {s : State} {k : Nat} {t : Task} {q : QInstr} (hs : sound s) :
    OutSound (State.completeDesc s k t q) := by
  unfold State.completeDesc
  repeat' split
  all_goals simp (maxDischargeDepth := 40) [*]

@[simp ↓] theorem State.completeRingi_sound {s : State} {k : Nat} {t : Task} {q : QInstr} (hs : sound s) :
    OutSound (State.completeRingi s k t q) := by
  unfold State.completeRingi
  repeat' split
  all_goals simp (maxDischargeDepth := 40) [*]

@[simp ↓] theorem State.completeScpy_sound {s : State} {k : Nat} {t : Task} {q : QInstr} (hs : sound s) :
    OutSound (State.completeScpy s k t q) := by
  unfold State.completeScpy
  repeat' split
  all_goals simp (maxDischargeDepth := 40) [*]

@[simp ↓] theorem State.completeStkrun_sound {s : State} {k : Nat} {t : Task} {q : QInstr} (hs : sound s) :
    OutSound (State.completeStkrun s k t q) := by
  unfold State.completeStkrun
  split
  · exact outSound_next hs
  · rename_i p _
    dsimp only
    split
    · exact outSound_next hs
    · cases p.ending <;> simp [hs]

@[simp ↓] theorem State.completeRing_sound {s : State} {k : Nat} {t : Task} {q : QInstr} {g : Geo} (hs : sound s) : OutSound (State.completeRing s k t q g) := by
  unfold State.completeRing
  try dsimp only
  repeat' (first | (intro a x ha) | split | with_reducible apply sound_foldl | with_reducible apply sound_foldl_fst)
  all_goals simp +contextual (maxDischargeDepth := 40) [*]

@[simp ↓] theorem State.completeMove_sound {s : State} {k : Nat} {t : Task} {q : QInstr} (hs : sound s) : OutSound (State.completeMove s k t q) := by
  unfold State.completeMove
  try dsimp only
  repeat' (first | (intro a x ha) | split | with_reducible apply sound_foldl | with_reducible apply sound_foldl_fst)
  all_goals simp +contextual (maxDischargeDepth := 40) [*]

@[simp ↓] theorem execStreamComplete_sound {k tag : Nat} {s : State} (hs : sound s) : OutSound (execStreamComplete k tag s) := by
  unfold execStreamComplete
  try dsimp only
  repeat' (first | with_reducible refine State.reading_sound ?_ (fun a u ha => ?_) | split)
  all_goals simp (maxDischargeDepth := 40) [*]

@[simp ↓] theorem State.putKernel_sound {s : State} {n : Nat} {t : Task} {k : Kernel} (hs : sound s) :
    sound (State.putKernel s n t k) := by
  simp (maxDischargeDepth := 40) [State.putKernel, hs]

@[simp ↓] theorem State.stopKernel_sound {s : State} {n : Nat} {t : Task} {k : Kernel} {f : KFault} (hs : sound s) : sound (State.stopKernel s n t k f) := by
  unfold State.stopKernel
  try dsimp only
  repeat' (first | (intro a x ha) | split | with_reducible apply sound_foldl | with_reducible apply sound_foldl_fst)
  all_goals simp +contextual (maxDischargeDepth := 40) [*]

@[simp ↓] theorem State.finishBundle_sound {s : State} {n : Nat} {p : BPlan} {turn : LoopTurn} {a : Task × Kernel} (hs : sound s) : sound (State.finishBundle s n p turn a) := by
  unfold State.finishBundle
  try dsimp only
  repeat' (first | (intro a x ha) | split | with_reducible apply sound_foldl | with_reducible apply sound_foldl_fst)
  all_goals simp +contextual (maxDischargeDepth := 40) [*]

@[simp ↓] theorem State.runBundle_sound {s : State} {n : Nat} {t : Task} {k0 : Kernel} {b : Bundle} {p : BPlan} (hs : sound s) : sound (State.runBundle s n t k0 b p) := by
  unfold State.runBundle
  try dsimp only
  repeat' (first | (intro a x ha) | split | with_reducible apply sound_foldl | with_reducible apply sound_foldl_fst)
  all_goals simp +contextual (maxDischargeDepth := 40) [*]

@[simp ↓] theorem State.readableAt_sound {s : State} {asid : BitVec 16} {va : Nat} (hs : sound s) : sound (State.readableAt s asid va).1 := by
  unfold State.readableAt
  try dsimp only
  repeat' (first | (intro a x ha) | split | with_reducible apply sound_foldl | with_reducible apply sound_foldl_fst)
  all_goals simp +contextual (maxDischargeDepth := 40) [*]

@[simp ↓] theorem State.readVa_sound {asid : BitVec 16} {f va n : Nat} {a : State} (hs : sound a) : sound (State.readVa asid f va n a).1 := by
  fun_induction State.readVa asid f va n a
  all_goals simp_all +zetaDelta (maxDischargeDepth := 40)

@[simp ↓] theorem State.readV_sound {s : State} {asid : BitVec 16} {va n : Nat} (hs : sound s) : sound (State.readV s asid va n).1 := by
  unfold State.readV
  try dsimp only
  repeat' (first | (intro a x ha) | split | with_reducible apply sound_foldl | with_reducible apply sound_foldl_fst)
  all_goals simp +contextual (maxDischargeDepth := 40) [*]

@[simp ↓] theorem State.sideTable_sound {s : State} {asid : BitVec 16} {va : Nat} (hs : sound s) : sound (State.sideTable s asid va).1 := by
  unfold State.sideTable
  try dsimp only
  repeat' (first | (intro a x ha) | split | with_reducible apply sound_foldl | with_reducible apply sound_foldl_fst)
  all_goals simp +contextual (maxDischargeDepth := 40) [*]

@[simp ↓] theorem State.taskSafePoints_sound {s : State} {t : Task} (hs : sound s) : sound (State.taskSafePoints s t).1 := by
  unfold State.taskSafePoints
  try dsimp only
  repeat' (first | (intro a x ha) | split | with_reducible apply sound_foldl | with_reducible apply sound_foldl_fst)
  all_goals simp +contextual (maxDischargeDepth := 40) [*]

@[simp ↓] theorem State.forcedSave_sound {s : State} {t : Task} {k : Kernel} (hs : sound s) : sound (State.forcedSave s t k).1 := by
  unfold State.forcedSave
  try dsimp only
  repeat' (first | (intro a x ha) | split | with_reducible apply sound_foldl | with_reducible apply sound_foldl_fst)
  all_goals simp +contextual (maxDischargeDepth := 40) [*]

@[simp ↓] theorem State.issueBundle_sound {s : State} {n : Nat} {t : Task} {k : Kernel} (hs : sound s) : sound (State.issueBundle s n t k) := by
  unfold State.issueBundle
  try dsimp only
  repeat' (first | (intro a x ha) | split | with_reducible apply sound_foldl | with_reducible apply sound_foldl_fst)
  all_goals simp +contextual (maxDischargeDepth := 40) [*]

@[simp ↓] theorem State.kernelStep_sound {s : State} {n : Nat} {t : Task} {k : Kernel} (hs : sound s) :
    sound (State.kernelStep s n t k) := by
  unfold State.kernelStep
  dsimp only
  split
  · simp (maxDischargeDepth := 40) [hs]
  · cases (s.forcedSave t k).2 <;> simp (maxDischargeDepth := 40) [hs]

@[simp ↓] theorem execKernelBundle_sound {n : Nat} {s : State} (hs : sound s) : OutSound (execKernelBundle n s) := by
  unfold execKernelBundle
  repeat' split
  all_goals simp (maxDischargeDepth := 40) [*]

@[simp ↓] theorem State.budgetKill_sound {s : State} {n : Nat} {t : Task} {k : Kernel} (hs : sound s) :
    sound (State.budgetKill s n t k) := by
  simp (maxDischargeDepth := 40) [State.budgetKill, hs]

end Sys2Proof.Machine
end

