-- ==== Sys2Proof/Laws/SoundUnits.lean ====
section
/-! SUPPORT. Soundness is kept: the dispatch unit, Stoek cores, boundaries, fabric, memory system, firmware, registers and host windows, and dispatch itself. -/

namespace Sys2Proof.Machine

@[simp ↓] theorem Wr.out_sound {w : Wr} {s : State} (hw : WrSound w) (hs : sound s) : OutSound (Wr.out w s) := by
  unfold Wr.out
  split
  · exact outSound_next (hw _ rfl)
  all_goals simp [hs]

@[simp ↓] theorem State.setMasked_sound {s : State} {num mask : Nat} {v : Word} (hs : sound s) :
    sound (State.setMasked s num mask v) := by
  simp (maxDischargeDepth := 40) [State.setMasked, hs]

@[simp ↓] theorem State.wrLqctl_sound {s : State} {q : Nat} {v : Word} (hs : sound s) : WrSound (State.wrLqctl s q v) := by
  simp (maxDischargeDepth := 40) [State.wrLqctl, hs]

@[simp ↓] theorem execLqctlWrite_sound {q : BitVec 4} {v : Word} {s : State} (hs : sound s) :
    OutSound (execLqctlWrite q v s) := by
  simp (maxDischargeDepth := 40) [execLqctlWrite, hs]

@[simp ↓] theorem State.wrLqtail_sound {s : State} {q : Nat} {v : Word} (hs : sound s) : WrSound (State.wrLqtail s q v) := by
  simp (maxDischargeDepth := 40) [State.wrLqtail, hs]

@[simp ↓] theorem execLqtailDoorbell_sound {q : BitVec 4} {v : Word} {s : State} (hs : sound s) :
    OutSound (execLqtailDoorbell q v s) := by
  simp (maxDischargeDepth := 40) [execLqtailDoorbell, hs]

@[simp ↓] theorem State.putPhys_sound {s : State} {pa : Nat} {bs : List Byte} (hs : sound s) :
    ExSound (State.putPhys s pa bs) := by
  unfold State.putPhys
  repeat' split
  all_goals simp (maxDischargeDepth := 40) [*]

@[simp ↓] theorem State.capture_sound {s : State} {l : Nat} {la : Launch} (hs : sound s) : ExSound (State.capture s l la) := by
  unfold State.capture
  dsimp only
  split
  · simp [hs]
  · split
    · simp
    · rename_i s1 h1
      have := State.putPhys_sound hs s1 h1
      simp [this]

@[simp ↓] theorem State.createLaunch_sound {s : State} {q : Nat} {idx : Nat} {recpa : Nat} {l : Nat} {asid : BitVec 16} {gbase : Nat} {r : List Byte} (hs : sound s) :
    ExSound (State.createLaunch s q idx recpa l asid gbase r) := by
  unfold State.createLaunch
  dsimp only
  split
  · simp
  · rename_i s1 h1
    have := State.capture_sound hs s1 h1
    simp (maxDischargeDepth := 40) [this]

@[simp ↓] theorem State.admitFrom_sound {s : State} {q l : Nat} (hs : sound s) : ExSound (State.admitFrom s q l) := by
  unfold State.admitFrom
  try dsimp only
  repeat' (first | (intro a x ha) | split | with_reducible apply sound_foldl | with_reducible apply sound_foldl_fst)
  all_goals simp +contextual (maxDischargeDepth := 40) [*]

@[simp ↓] theorem execLaunchAdmit_sound {s : State} (hs : sound s) : OutSound (execLaunchAdmit s) := by
  unfold execLaunchAdmit
  split
  · simp [hs]
  · split
    · split
      · rename_i t ht
        exact outSound_next (State.admitFrom_sound hs t ht)
      · simp
    · simp [hs]

@[simp ↓] theorem State.passTo_sound {s : State} {n : Nat} (hs : sound s) : sound (State.passTo s n) := by
  unfold State.passTo
  try dsimp only
  repeat' (first | (intro a x ha) | split | with_reducible apply sound_foldl | with_reducible apply sound_foldl_fst)
  all_goals simp +contextual (maxDischargeDepth := 40) [*]

@[simp ↓] theorem State.passLimit_sound {s : State} {t : Task} {n : Nat} (hs : sound s) : sound (State.passLimit s t n) :=
  State.passTo_sound hs

@[simp ↓] theorem State.fromSlot_sound {s : State} {t : Task} (hs : sound s) : sound (State.fromSlot s t).1 := by
  unfold State.fromSlot
  try dsimp only
  repeat' (first | (intro a x ha) | split | with_reducible apply sound_foldl | with_reducible apply sound_foldl_fst)
  all_goals simp +contextual (maxDischargeDepth := 40) [*]

@[simp ↓] theorem State.bestReady_sound {s : State} (hs : sound s) : sound (State.bestReady s).2 := by
  unfold State.bestReady
  dsimp (zeta := true) only
  split
  · exact hs
  · exact State.passTo_sound (State.draw_sound hs)

@[simp ↓] theorem State.placeOn_sound {s : State} {pg k : Nat} (hs : sound s) : sound (State.placeOn s pg k) := by
  unfold State.placeOn
  try dsimp only
  repeat' (first | (intro a x ha) | split | with_reducible apply sound_foldl | with_reducible apply sound_foldl_fst)
  all_goals simp +contextual (maxDischargeDepth := 40) [*]

@[simp ↓] theorem execTaskPlace_sound {pg : Nat} {s : State} (hs : sound s) : OutSound (execTaskPlace pg s) := by
  unfold execTaskPlace
  try dsimp only
  repeat' (first | (intro a x ha) | split | with_reducible apply sound_foldl | with_reducible apply sound_foldl_fst)
  all_goals simp +contextual (maxDischargeDepth := 40) [*]

@[simp ↓] theorem execShadowPreload_sound {pg : Nat} {s : State} (hs : sound s) : OutSound (execShadowPreload pg s) := by
  unfold execShadowPreload
  try dsimp only
  repeat' (first | (intro a x ha) | split | with_reducible apply sound_foldl | with_reducible apply sound_foldl_fst)
  all_goals simp +contextual (maxDischargeDepth := 40) [*]

@[simp ↓] theorem State.switchOut_sound {s : State} {k : Nat} {t : Task} {pg : Nat} {slot best : Option Nat} (hs : sound s) :
    sound (State.switchOut s k t pg slot best) := by
  unfold State.switchOut
  try dsimp only
  repeat' (first | (intro a x ha) | split | with_reducible apply sound_foldl | with_reducible apply sound_foldl_fst)
  all_goals simp +contextual (maxDischargeDepth := 40) [*]

@[simp ↓] theorem execBudgetExpiry_sound {k : Nat} {s : State} (hs : sound s) : OutSound (execBudgetExpiry k s) := by
  unfold execBudgetExpiry
  try dsimp only
  repeat' (first | (intro a x ha) | split | with_reducible apply sound_foldl | with_reducible apply sound_foldl_fst)
  all_goals simp +contextual (maxDischargeDepth := 40) [*]

@[simp ↓] theorem execDrainLimitExpiry_sound {k : Nat} {s : State} (hs : sound s) : OutSound (execDrainLimitExpiry k s) := by
  unfold execDrainLimitExpiry
  repeat' split
  any_goals simp (maxDischargeDepth := 40) [hs]
  rename_i t _ _ _ _ _ kn _ _ _
  cases ((s.passLimit t (s.preg 833)).forcedSave t kn).2 <;> simp (maxDischargeDepth := 40) [hs]

theorem State.intoSlot_sound {s : State} {t : Task} {slot : Option Nat} (hs : sound s) : ExSound (State.intoSlot s t slot) := by
  unfold State.intoSlot
  split <;> simp (maxDischargeDepth := 40) [hs]

@[simp ↓] theorem State.postUnread_sound {s : State} {t : Task} (hs : sound s) : sound (State.postUnread s t) :=
  sound_foldl _ _ (fun _ _ ha => State.postOnChip_sound ha) hs

theorem State.finishSave_sound {s : State} {k : Nat} {t : Task} {slot : Option Nat} (hs : sound s) :
    ExSound (State.finishSave s k t slot) := by
  unfold State.finishSave
  split
  · simp (maxDischargeDepth := 40) [hs]
  · refine State.intoSlot_sound ?_
    dsimp only
    repeat' split
    all_goals simp (maxDischargeDepth := 40) [hs]

@[simp ↓] theorem execContextSaveComplete_sound {k : Nat} {s : State} (hs : sound s) :
    OutSound (execContextSaveComplete k s) := by
  unfold execContextSaveComplete
  repeat' split
  any_goals simp (maxDischargeDepth := 40) [hs]
  rename_i s1 h
  exact outSound_next (State.finishSave_sound hs s1 h)

@[simp ↓] theorem State.wrTerminate_sound {s : State} {lg lidx : Nat} (hs : sound s) :
    WrSound (State.wrTerminate s lg lidx) := by
  unfold State.wrTerminate
  repeat' split
  all_goals simp (maxDischargeDepth := 40) [*]

@[simp ↓] theorem execTaskcmdTerminate_sound {lg lidx : BitVec 8} {s : State} (hs : sound s) :
    OutSound (execTaskcmdTerminate lg lidx s) := by
  simp (maxDischargeDepth := 40) [execTaskcmdTerminate, hs]

@[simp ↓] theorem State.rereadRecord_sound {s : State} {la : Launch} (hs : sound s) : sound (State.rereadRecord s la).1 := by
  unfold State.rereadRecord
  try dsimp only
  repeat' (first | (intro a x ha) | split | with_reducible apply sound_foldl | with_reducible apply sound_foldl_fst)
  all_goals simp +contextual (maxDischargeDepth := 40) [*]

@[simp ↓] theorem State.rerun_sound {s : State} {k : Nat} (hs : sound s) : sound (State.rerun s k) := by
  unfold State.rerun
  try dsimp only
  repeat' (first | (intro a x ha) | split | with_reducible apply sound_foldl | with_reducible apply sound_foldl_fst)
  all_goals simp +contextual (maxDischargeDepth := 40) [*]

@[simp ↓] theorem State.wrRerun_sound {s : State} {lg lidx : Nat} (hs : sound s) : WrSound (State.wrRerun s lg lidx) := by
  unfold State.wrRerun
  repeat' split
  all_goals simp (maxDischargeDepth := 40) [*]

@[simp ↓] theorem execTaskcmdRerun_sound {lg lidx : BitVec 8} {s : State} (hs : sound s) :
    OutSound (execTaskcmdRerun lg lidx s) := by
  simp (maxDischargeDepth := 40) [execTaskcmdRerun, hs]

@[simp ↓] theorem State.wrSave_sound {s : State} {lg lidx : Nat} (hs : sound s) : WrSound (State.wrSave s lg lidx) := by
  unfold State.wrSave
  repeat' split
  all_goals simp (maxDischargeDepth := 40) [*]

@[simp ↓] theorem execTaskcmdSave_sound {lg lidx : BitVec 8} {s : State} (hs : sound s) :
    OutSound (execTaskcmdSave lg lidx s) := by
  simp (maxDischargeDepth := 40) [execTaskcmdSave, hs]

@[simp ↓] theorem State.wrGreset_sound {s : State} {pgn die : Nat} (hs : sound s) : WrSound (State.wrGreset s pgn die) := by
  simp (maxDischargeDepth := 40) [State.wrGreset, hs]

@[simp ↓] theorem execGreset_sound {pgn : BitVec 6} {die : BitVec 2} {s : State} (hs : sound s) :
    OutSound (execGreset pgn die s) := by
  simp (maxDischargeDepth := 40) [execGreset, hs]

@[simp ↓] theorem State.wrCtxPool_sound {s : State} {isN : Bool} {v : Word} (hs : sound s) :
    WrSound (State.wrCtxPool s isN v) := by
  simp (maxDischargeDepth := 40) [State.wrCtxPool, hs]

@[simp ↓] theorem execCtxPoolWrite_sound {isN : Bool} {v : Word} {s : State} (hs : sound s) :
    OutSound (execCtxPoolWrite isN v s) := by
  simp (maxDischargeDepth := 40) [execCtxPoolWrite, hs]

@[simp ↓] theorem State.stoekDone_sound {s : State} {k : Nat} {t : Task} {p : Stoek} (hs : sound s) :
    OutSound (State.stoekDone s k t p) := by
  simp (maxDischargeDepth := 40) [State.stoekDone, hs]

@[simp ↓] theorem State.stoekStop_sound {s : State} {k : Nat} {p : Stoek} {e : Stop} (hs : sound s) :
    OutSound (State.stoekStop s k p e) := by
  unfold State.stoekStop
  repeat' split
  all_goals simp (maxDischargeDepth := 40) [*]

@[simp ↓] theorem State.stoekBounds_sound {s : State} {k : Nat} {p : Stoek} (hs : sound s) :
    OutSound (State.stoekBounds s k p) := by
  simp (maxDischargeDepth := 40) [State.stoekBounds, hs]

@[simp ↓] theorem execIxrd_sound {app : Bool} {d a b : Reg} {s : State} (hs : sound s) : OutSound (execIxrd app d a b s) := by
  unfold execIxrd
  try dsimp only
  repeat' (first | with_reducible refine State.onStoek_sound ?_ (fun k t p => ?_) | (intro a x ha) | split | with_reducible apply sound_foldl | with_reducible apply sound_foldl_fst)
  all_goals simp +contextual (maxDischargeDepth := 40) [*]

@[simp ↓] theorem execDdup_sound {d : Reg} {mt : Bool} {line : BitVec 6} {s : State} (hs : sound s) :
    OutSound (execDdup d mt line s) := by
  unfold execDdup
  try dsimp only
  repeat' (first | with_reducible refine State.onStoek_sound ?_ (fun k t p => ?_) | (intro a x ha) | split | with_reducible apply sound_foldl | with_reducible apply sound_foldl_fst)
  all_goals simp +contextual (maxDischargeDepth := 40) [*]

@[simp ↓] theorem State.readRows_sound {s : State} {t : Task} {p : Stoek} {o : RowOp} {a5 : List Nat} (hs : sound s) :
    sound (State.readRows s t p o a5).1 := by
  fun_induction State.readRows s t p o a5
  all_goals simp_all +zetaDelta (maxDischargeDepth := 40)

theorem State.rowReading_sound {s : State} {k : Nat} {t : Task} {p : Stoek} {td : Nat} {f : State → Task → Out} (hs : sound s)
    (hf : ∀ a u, sound a → OutSound (f a u)) : OutSound (State.rowReading s k t p td f) := by
  unfold State.rowReading
  dsimp only
  split
  · simp (maxDischargeDepth := 40) [hs]
  · exact hf _ _ (State.correctOwn_sound hs)

@[simp ↓] theorem execRowld_sound {td line : BitVec 6} {w : BitVec 16} {a b : Reg} {s : State} (hs : sound s) :
    OutSound (execRowld td line w a b s) := by
  unfold execRowld
  try dsimp only
  repeat' (first | with_reducible refine State.onStoek_sound ?_ (fun k t p => ?_) | with_reducible refine State.rowReading_sound ?_ (fun u v hu => ?_) | split | with_reducible apply sound_foldl | with_reducible apply sound_foldl_fst)
  all_goals simp +contextual (maxDischargeDepth := 40) [*]

@[simp ↓] theorem execPool_sound {isMax acc : Bool} {td line : BitVec 6} {w : BitVec 16} {a b : Reg} {s : State} (hs : sound s)
    :
    OutSound (execPool isMax acc td line w a b s) := by
  unfold execPool
  try dsimp only
  repeat' (first | with_reducible refine State.onStoek_sound ?_ (fun k t p => ?_) | with_reducible refine State.rowReading_sound ?_ (fun u v hu => ?_) | split | with_reducible apply sound_foldl | with_reducible apply sound_foldl_fst)
  all_goals simp +contextual (maxDischargeDepth := 40) [*]

@[simp ↓] theorem State.xlateReds_sound {c : XCtx} {a2 : List (Nat × BitVec 32)} {a3 : State} (hs : sound a3) :
    sound (State.xlateReds c a2 a3).1 := by
  fun_induction State.xlateReds c a2 a3
  all_goals simp_all +zetaDelta (maxDischargeDepth := 40)

@[simp ↓] theorem execPoolWadd_sound {td line : BitVec 6} {w : BitVec 16} {a b : Reg} {s : State} (hs : sound s) :
    OutSound (execPoolWadd td line w a b s) := by
  unfold execPoolWadd
  try dsimp only
  repeat' (first | with_reducible refine State.onStoek_sound ?_ (fun k t p => ?_) | with_reducible refine State.rowReading_sound ?_ (fun u v hu => ?_) | split | with_reducible apply sound_foldl | with_reducible apply sound_foldl_fst)
  all_goals simp +contextual (maxDischargeDepth := 40) [*]

@[simp ↓] theorem State.probeRows_sound {c : XCtx} {ub : Nat} {a3 : List (Option Nat)} {a4 : List Pin} {a5 : State} (hs : sound
    a5) :
    sound (State.probeRows c ub a3 a4 a5).1 := by
  fun_induction State.probeRows c ub a3 a4 a5
  all_goals simp_all +zetaDelta (maxDischargeDepth := 40)

@[simp ↓] theorem execProbe_sound {td : BitVec 6} {w : BitVec 16} {a b : Reg} {s : State} (hs : sound s) :
    OutSound (execProbe td w a b s) := by
  unfold execProbe
  try dsimp only
  repeat' (first | with_reducible refine State.onStoek_sound ?_ (fun k t p => ?_) | with_reducible refine State.rowReading_sound ?_ (fun u v hu => ?_) | split | with_reducible apply sound_foldl | with_reducible apply sound_foldl_fst)
  all_goals simp +contextual (maxDischargeDepth := 40) [*]

@[simp ↓] theorem execUnpin_sound {s : State} (hs : sound s) : OutSound (execUnpin s) := by
  unfold execUnpin
  try dsimp only
  repeat' (first | with_reducible refine State.onStoek_sound ?_ (fun k t p => ?_) | (intro a x ha) | split | with_reducible apply sound_foldl | with_reducible apply sound_foldl_fst)
  all_goals simp +contextual (maxDischargeDepth := 40) [*]

@[simp ↓] theorem execSqw_sound {sz : Sz} {a b : Reg} {off : BitVec 13} {s : State} (hs : sound s) :
    OutSound (execSqw sz a b off s) := by
  unfold execSqw
  try dsimp only
  repeat' (first | with_reducible refine State.onStoek_sound ?_ (fun k t p => ?_) | (intro a x ha) | split | with_reducible apply sound_foldl | with_reducible apply sound_foldl_fst)
  all_goals simp +contextual (maxDischargeDepth := 40) [*]

@[simp ↓] theorem execEmit_sound {e eos : Bool} {s : State} (hs : sound s) : OutSound (execEmit e eos s) := by
  unfold execEmit
  try dsimp only
  repeat' (first | with_reducible refine State.onStoek_sound ?_ (fun k t p => ?_) | (intro a x ha) | split | with_reducible apply sound_foldl | with_reducible apply sound_foldl_fst)
  all_goals simp +contextual (maxDischargeDepth := 40) [*]

@[simp ↓] theorem execSkend_sound {s : State} (hs : sound s) : OutSound (execSkend s) := by
  unfold execSkend
  try dsimp only
  repeat' (first | with_reducible refine State.onStoek_sound ?_ (fun k t p => ?_) | (intro a x ha) | split | with_reducible apply sound_foldl | with_reducible apply sound_foldl_fst)
  all_goals simp +contextual (maxDischargeDepth := 40) [*]

@[simp ↓] theorem execStoekPublish_sound {k tag : Nat} {s : State} (hs : sound s) : OutSound (execStoekPublish k tag s) := by
  unfold execStoekPublish
  repeat' split
  all_goals simp (maxDischargeDepth := 40) [*]

@[simp ↓] theorem State.countDrop_sound {s : State} {lo : Nat} (hs : sound s) : sound (State.countDrop s lo) := by
  simp (maxDischargeDepth := 40) [State.countDrop, hs]

theorem State.receive_sound {s : State} {p : Packet} (hs : sound s) : OptSound (s.receive p).1 ∧ sound (s.receive p).2 := by
  unfold State.receive
  repeat' split
  all_goals simp (maxDischargeDepth := 40) [hs]

theorem State.onPacket_sound {s : State} {p : Packet} {k : State → Out} (hs : sound s) (hk : ∀ t, sound t → OutSound (k t)) :
    OutSound (s.onPacket p k) := by
  have hr := State.receive_sound (p := p) hs
  unfold State.onPacket
  split <;> rename_i h <;> rw [h] at hr
  · exact hk _ (hr.1 _ rfl)
  · exact outSound_next hr.2

@[simp ↓] theorem State.postFull_sound {s : State} {need : Nat} (hs : sound s) : sound (State.postFull s need) := by
  simp (maxDischargeDepth := 40) [State.postFull, hs]

@[simp ↓] theorem State.readApron_sound {s : State} {reg : Nat} {r : Rec} (hs : sound s) : sound (State.readApron s reg r).2 := by
  unfold State.readApron
  try dsimp only
  repeat' (first | (intro a x ha) | split | with_reducible apply sound_foldl | with_reducible apply sound_foldl_fst)
  all_goals simp +contextual (maxDischargeDepth := 40) [*]

@[simp ↓] theorem State.moveOwn_sound {s : State} (hs : sound s) : sound (State.moveOwn s) := by
  refine sound_foldl _ _ (fun a r ha => ?_) hs
  repeat' split
  all_goals simp (maxDischargeDepth := 40) [ha]

@[simp ↓] theorem State.grant_sound {a1 : List Nat} {a2 : State} (hs : sound a2) : sound (State.grant a1 a2) := by
  fun_induction State.grant a1 a2
  all_goals simp_all +zetaDelta (maxDischargeDepth := 40)

@[simp ↓] theorem State.grantAll_sound {s : State} (hs : sound s) : sound (State.grantAll s) := by
  unfold State.grantAll
  try dsimp only
  repeat' (first | (intro a x ha) | split | with_reducible apply sound_foldl | with_reducible apply sound_foldl_fst)
  all_goals simp +contextual (maxDischargeDepth := 40) [*]

@[simp ↓] theorem State.sendRecs_sound {s : State} (hs : sound s) : sound (State.sendRecs s) := by
  unfold State.sendRecs
  try dsimp only
  repeat' (first | (intro a x ha) | split | with_reducible apply sound_foldl | with_reducible apply sound_foldl_fst)
  all_goals simp +contextual (maxDischargeDepth := 40) [*]

@[simp ↓] theorem State.dropDead_sound {s : State} (hs : sound s) : sound (State.dropDead s) := by
  simp (maxDischargeDepth := 40) [State.dropDead, hs]

@[simp ↓] theorem State.tryDrn_sound {s : State} (hs : sound s) : sound (State.tryDrn s) := by
  simp (maxDischargeDepth := 40) [State.tryDrn, hs]

@[simp ↓] theorem State.drainLocal_sound {s : State} (hs : sound s) : sound (State.drainLocal s) := by
  simp (maxDischargeDepth := 40) [State.drainLocal, hs]

@[simp ↓] theorem State.drainOn_sound {s : State} (hs : sound s) : sound (State.drainOn s) := by
  unfold State.drainOn
  try dsimp only
  repeat' (first | (intro a x ha) | split | with_reducible apply sound_foldl | with_reducible apply sound_foldl_fst)
  all_goals simp +contextual (maxDischargeDepth := 40) [*]

@[simp ↓] theorem State.mergeRec_sound {s : State} {k : PageKind} {r : Rec} (hs : sound s) : sound (State.mergeRec s k r) := by
  unfold State.mergeRec
  try dsimp only
  repeat' (first | (intro a x ha) | split | with_reducible apply sound_foldl | with_reducible apply sound_foldl_fst)
  all_goals simp +contextual (maxDischargeDepth := 40) [*]

@[simp ↓] theorem commitRec_sound {kindOf : Nat → PageKind} {a : State × CommitAcc} {x : Rec} (ha : sound a.1) :
    sound (commitRec kindOf a x).1 := by
  unfold commitRec
  dsimp only
  split
  · exact ha
  · split
    · exact ha
    · have h1 : ∀ l : List Nat, sound (l.foldl State.correct a.1) := fun l => sound_foldl _ _ (fun z u hz => State.correct_sound hz) ha
      split <;> simp (maxDischargeDepth := 40) [h1]

@[simp ↓] theorem State.postConflicts_sound {s : State} {base : Nat → Nat} {acc : CommitAcc} (hs : sound s) : sound (State.postConflicts s base acc) := by
  unfold State.postConflicts
  try dsimp only
  repeat' (first | (intro a x ha) | split | with_reducible apply sound_foldl | with_reducible apply sound_foldl_fst)
  all_goals simp +contextual (maxDischargeDepth := 40) [*]

@[simp ↓] theorem State.beginSaving_sound {s : State} {step : Bool} (hs : sound s) : sound (State.beginSaving s step) := by
  unfold State.beginSaving
  refine sound_foldl _ _ (fun a e ha => ?_) (by simp (maxDischargeDepth := 40) [hs])
  split <;> simp (maxDischargeDepth := 40) [ha]

@[simp ↓] theorem State.commitLocal_sound {s : State} (hs : sound s) : sound (State.commitLocal s) := by
  unfold State.commitLocal
  have hz : sound (s.toCommit.foldl (commitRec (fun la => (s.pageAt la).kind)) (s, { stays := [], conflicts := [], bad := none })).1 :=
    sound_foldl_fst _ _ (fun a r ha => commitRec_sound ha) hs
  generalize s.toCommit.foldl (commitRec (fun la => (s.pageAt la).kind)) (s, { stays := [], conflicts := [], bad := none }) = z at hz ⊢
  dsimp only
  split
  · simp (maxDischargeDepth := 40) [hz]
  · split <;> simp (maxDischargeDepth := 40) [hz]

@[simp ↓] theorem State.askKerfLoads_sound {s : State} (hs : sound s) : sound (State.askKerfLoads s) := by
  unfold State.askKerfLoads
  try dsimp only
  repeat' (first | (intro a x ha) | split | with_reducible apply sound_foldl | with_reducible apply sound_foldl_fst)
  all_goals simp +contextual (maxDischargeDepth := 40) [*]

@[simp ↓] theorem State.releaseLocal_sound {s : State} (hs : sound s) : sound (State.releaseLocal s) := by
  simp (maxDischargeDepth := 40) [State.releaseLocal, hs]

@[simp ↓] theorem State.toLeaders_sound {s : State} {ph : Nat} (hs : sound s) : sound (State.toLeaders s ph) := by
  unfold State.toLeaders
  try dsimp only
  repeat' (first | (intro a x ha) | split | with_reducible apply sound_foldl | with_reducible apply sound_foldl_fst)
  all_goals simp +contextual (maxDischargeDepth := 40) [*]

@[simp ↓] theorem State.resumeRelease_sound {s : State} (hs : sound s) : sound (State.resumeRelease s) := by
  unfold State.resumeRelease
  try dsimp only
  repeat' (first | (intro a x ha) | split | with_reducible apply sound_foldl | with_reducible apply sound_foldl_fst)
  all_goals simp +contextual (maxDischargeDepth := 40) [*]

@[simp ↓] theorem State.rootCheck_sound {s : State} {ph : Nat} (hs : sound s) : sound (State.rootCheck s ph) := by
  simp (maxDischargeDepth := 40) [State.rootCheck, hs]

@[simp ↓] theorem State.leadCheck_sound {s : State} {ph : Nat} (hs : sound s) : sound (State.leadCheck s ph) := by
  unfold State.leadCheck
  repeat' split
  all_goals simp (maxDischargeDepth := 40) [*]

@[simp ↓] theorem State.countReport_sound {s : State} {p : Packet} {ph : Nat} (hs : sound s) :
    sound (State.countReport s p ph) := by
  simp (maxDischargeDepth := 40) [State.countReport, hs]

@[simp ↓] theorem execTreeArr_sound {p : Packet} {s : State} (hs : sound s) : OutSound (execTreeArr p s) := by
  unfold execTreeArr
  try dsimp only
  repeat' (first | with_reducible refine State.onPacket_sound ?_ (fun t ht => ?_) | (intro a x ha) | split | with_reducible apply sound_foldl | with_reducible apply sound_foldl_fst)
  all_goals simp +contextual (maxDischargeDepth := 40) [*]

@[simp ↓] theorem State.passDown_sound {s : State} {ph : Nat} (hs : sound s) : sound (State.passDown s ph) := by
  unfold State.passDown
  try dsimp only
  repeat' (first | (intro a x ha) | split | with_reducible apply sound_foldl | with_reducible apply sound_foldl_fst)
  all_goals simp +contextual (maxDischargeDepth := 40) [*]

@[simp ↓] theorem execTreeDrain_sound {p : Packet} {s : State} (hs : sound s) : OutSound (execTreeDrain p s) := by
  unfold execTreeDrain
  try dsimp only
  repeat' (first | with_reducible refine State.onPacket_sound ?_ (fun t ht => ?_) | (intro a x ha) | split | with_reducible apply sound_foldl | with_reducible apply sound_foldl_fst)
  all_goals simp +contextual (maxDischargeDepth := 40) [*]

@[simp ↓] theorem execTreeDrn_sound {p : Packet} {s : State} (hs : sound s) : OutSound (execTreeDrn p s) := by
  unfold execTreeDrn
  try dsimp only
  repeat' (first | with_reducible refine State.onPacket_sound ?_ (fun t ht => ?_) | (intro a x ha) | split | with_reducible apply sound_foldl | with_reducible apply sound_foldl_fst)
  all_goals simp +contextual (maxDischargeDepth := 40) [*]

@[simp ↓] theorem execTreeCommit_sound {p : Packet} {s : State} (hs : sound s) : OutSound (execTreeCommit p s) := by
  unfold execTreeCommit
  try dsimp only
  repeat' (first | with_reducible refine State.onPacket_sound ?_ (fun t ht => ?_) | (intro a x ha) | split | with_reducible apply sound_foldl | with_reducible apply sound_foldl_fst)
  all_goals simp +contextual (maxDischargeDepth := 40) [*]

@[simp ↓] theorem execTreeCmt_sound {p : Packet} {s : State} (hs : sound s) : OutSound (execTreeCmt p s) := by
  unfold execTreeCmt
  try dsimp only
  repeat' (first | with_reducible refine State.onPacket_sound ?_ (fun t ht => ?_) | (intro a x ha) | split | with_reducible apply sound_foldl | with_reducible apply sound_foldl_fst)
  all_goals simp +contextual (maxDischargeDepth := 40) [*]

@[simp ↓] theorem execTreeRel_sound {p : Packet} {s : State} (hs : sound s) : OutSound (execTreeRel p s) := by
  unfold execTreeRel
  try dsimp only
  repeat' (first | with_reducible refine State.onPacket_sound ?_ (fun t ht => ?_) | (intro a x ha) | split | with_reducible apply sound_foldl | with_reducible apply sound_foldl_fst)
  all_goals simp +contextual (maxDischargeDepth := 40) [*]

@[simp ↓] theorem execCredit_sound {p : Packet} {s : State} (hs : sound s) : OutSound (execCredit p s) := by
  unfold execCredit
  try dsimp only
  repeat' (first | with_reducible refine State.onPacket_sound ?_ (fun t ht => ?_) | (intro a x ha) | split | with_reducible apply sound_foldl | with_reducible apply sound_foldl_fst)
  all_goals simp +contextual (maxDischargeDepth := 40) [*]

@[simp ↓] theorem State.reevaluate_sound {s : State} (hs : sound s) : sound (State.reevaluate s) := by
  simp (maxDischargeDepth := 40) [State.reevaluate, hs]

@[simp ↓] theorem execStepWatchdogExpiry_sound {s : State} (hs : sound s) : OutSound (execStepWatchdogExpiry s) := by
  unfold execStepWatchdogExpiry
  dsimp only
  split
  · simp [hs]
  · split
    · simp [hs]
    · split
      · simp
      · rename_i s1 h1
        have := State.putPhys_sound hs s1 h1
        simp [this]

@[simp ↓] theorem State.wrStepnum_sound {s : State} {v : Word} (hs : sound s) : WrSound (State.wrStepnum s v) := by
  simp (maxDischargeDepth := 40) [State.wrStepnum, hs]

@[simp ↓] theorem execStepnumWrite_sound {v : Word} {s : State} (hs : sound s) : OutSound (execStepnumWrite v s) := by
  simp (maxDischargeDepth := 40) [execStepnumWrite, hs]

@[simp ↓] theorem State.wrStepq_sound {s : State} {v : Word} (hs : sound s) : WrSound (State.wrStepq s v) := by
  simp (maxDischargeDepth := 40) [State.wrStepq, hs]

@[simp ↓] theorem execStepqWrite_sound {v : Word} {s : State} (hs : sound s) : OutSound (execStepqWrite v s) := by
  simp (maxDischargeDepth := 40) [execStepqWrite, hs]

@[simp ↓] theorem State.wrStepcfg_sound {s : State} {v : Word} (hs : sound s) : WrSound (State.wrStepcfg s v) := by
  unfold State.wrStepcfg
  dsimp only
  repeat' split
  all_goals simp (maxDischargeDepth := 40) [hs]

@[simp ↓] theorem execStepcfgWrite_sound {v : Word} {s : State} (hs : sound s) : OutSound (execStepcfgWrite v s) := by
  simp (maxDischargeDepth := 40) [execStepcfgWrite, hs]

@[simp ↓] theorem State.wrPodmap_sound {s : State} {i : Nat} {v : Word} (hs : sound s) : WrSound (State.wrPodmap s i v) := by
  unfold State.wrPodmap
  dsimp only
  repeat' split
  all_goals simp (maxDischargeDepth := 40) [hs]

@[simp ↓] theorem execPodmapWrite_sound {i : BitVec 6} {v : Word} {s : State} (hs : sound s) :
    OutSound (execPodmapWrite i v s) := by
  simp (maxDischargeDepth := 40) [execPodmapWrite, hs]

@[simp ↓] theorem State.respond_sound {s : State} {p : Packet} {type len body : Nat} {data : List Byte} (hs : sound s) :
    sound (State.respond s p type len body data) := by
  simp (maxDischargeDepth := 40) [State.respond, hs]

@[simp ↓] theorem execRdreq_sound {p : Packet} {s : State} (hs : sound s) : OutSound (execRdreq p s) := by
  unfold execRdreq
  try dsimp only
  repeat' (first | with_reducible refine State.onPacket_sound ?_ (fun t ht => ?_) | (intro a x ha) | split | with_reducible apply sound_foldl | with_reducible apply sound_foldl_fst)
  all_goals simp +contextual (maxDischargeDepth := 40) [*]

@[simp ↓] theorem State.closeTxn_sound {s : State} {a2 : Txn} (hs : sound s) : sound (State.closeTxn s a2) := by
  unfold State.closeTxn
  dsimp only
  split <;> simp (maxDischargeDepth := 40) [hs]

@[simp ↓] theorem State.failLoad_sound {s : State} {ag : Agent} {po code : Nat} (hs : sound s) :
    sound (State.failLoad s ag po code) := by
  unfold State.failLoad
  repeat' split
  all_goals simp (maxDischargeDepth := 40) [*]

@[simp ↓] theorem State.failOwner_sound {s : State} {x : Txn} {code : Nat} (hs : sound s) : sound (State.failOwner s x code) := by
  unfold State.failOwner
  try dsimp only
  repeat' (first | (intro a x ha) | split | with_reducible apply sound_foldl | with_reducible apply sound_foldl_fst)
  all_goals simp +contextual (maxDischargeDepth := 40) [*]

@[simp ↓] theorem State.failTxn_sound {s : State} {x : Txn} {code : Nat} (hs : sound s) : sound (State.failTxn s x code) := by
  unfold State.failTxn
  try dsimp only
  repeat' (first | (intro a x ha) | split | with_reducible apply sound_foldl | with_reducible apply sound_foldl_fst)
  all_goals simp +contextual (maxDischargeDepth := 40) [*]

@[simp ↓] theorem State.deposit_sound {s : State} {a2 : Txn} {bs : List Byte} (hs : sound s) :
    sound (State.deposit s a2 bs) := by
  unfold State.deposit
  repeat' split
  all_goals simp (maxDischargeDepth := 40) [*]

@[simp ↓] theorem execRdrsp_sound {p : Packet} {s : State} (hs : sound s) : OutSound (execRdrsp p s) := by
  unfold execRdrsp
  try dsimp only
  repeat' (first | with_reducible refine State.onPacket_sound ?_ (fun t ht => ?_) | (intro a x ha) | split | with_reducible apply sound_foldl | with_reducible apply sound_foldl_fst)
  all_goals simp +contextual (maxDischargeDepth := 40) [*]

@[simp ↓] theorem execRecv_sound {p : Packet} {s : State} (hs : sound s) : OutSound (execRecv p s) := by
  unfold execRecv
  try dsimp only
  repeat' (first | with_reducible refine State.onPacket_sound ?_ (fun t ht => ?_) | (intro a x ha) | split | with_reducible apply sound_foldl | with_reducible apply sound_foldl_fst)
  all_goals simp +contextual (maxDischargeDepth := 40) [*]

@[simp ↓] theorem execRecack_sound {p : Packet} {s : State} (hs : sound s) : OutSound (execRecack p s) := by
  unfold execRecack
  try dsimp only
  repeat' (first | with_reducible refine State.onPacket_sound ?_ (fun t ht => ?_) | (intro a x ha) | split | with_reducible apply sound_foldl | with_reducible apply sound_foldl_fst)
  all_goals simp +contextual (maxDischargeDepth := 40) [*]

@[simp ↓] theorem execFabricRetry_sound {txid : BitVec 16} {s : State} (hs : sound s) : OutSound (execFabricRetry txid s) := by
  unfold execFabricRetry
  repeat' split
  all_goals simp (maxDischargeDepth := 40) [*]

@[simp ↓] theorem State.setDead_sound {s : State} {r : Nat} (hs : sound s) : sound (State.setDead s r) := by
  simp (maxDischargeDepth := 40) [State.setDead, hs]

@[simp ↓] theorem State.endPeer_sound {s : State} {r : Nat} (hs : sound s) : sound (State.endPeer s r) := by
  unfold State.endPeer
  try dsimp only
  repeat' (first | (intro a x ha) | split | with_reducible apply sound_foldl | with_reducible apply sound_foldl_fst)
  all_goals simp +contextual (maxDischargeDepth := 40) [*]

@[simp ↓] theorem execFabricTimeout_sound {txid : BitVec 16} {s : State} (hs : sound s) :
    OutSound (execFabricTimeout txid s) := by
  unfold execFabricTimeout
  repeat' split
  all_goals simp (maxDischargeDepth := 40) [*]

@[simp ↓] theorem State.wrDeadset_sound {s : State} {r : Nat} (hs : sound s) : WrSound (State.wrDeadset s r) := by
  simp (maxDischargeDepth := 40) [State.wrDeadset, hs]

@[simp ↓] theorem execDeadset_sound {rank : BitVec 12} {s : State} (hs : sound s) : OutSound (execDeadset rank s) := by
  simp (maxDischargeDepth := 40) [execDeadset, hs]

@[simp ↓] theorem State.arrive_sound {s : State} {port : Nat} {p : Packet} (hs : sound s) : sound (State.arrive s port p) := by
  unfold State.arrive
  try dsimp only
  repeat' (first | (intro a x ha) | split | with_reducible apply sound_foldl | with_reducible apply sound_foldl_fst)
  all_goals simp +contextual (maxDischargeDepth := 40) [*]

@[simp ↓] theorem execFlitReceive_sound {port : BitVec 6} {seq : BitVec 12} {flit : BitVec 256} {good : Bool} {s : State} (hs : sound s) : OutSound (execFlitReceive port seq flit good s) := by
  unfold execFlitReceive
  try dsimp only
  repeat' (first | (intro a x ha) | split | with_reducible apply sound_foldl | with_reducible apply sound_foldl_fst)
  all_goals simp +contextual (maxDischargeDepth := 40) [*]

@[simp ↓] theorem execFlitAck_sound {port : BitVec 6} {seq : BitVec 12} {s : State} (hs : sound s) :
    OutSound (execFlitAck port seq s) := by
  simp (maxDischargeDepth := 40) [execFlitAck, hs]

@[simp ↓] theorem execLinkReplay_sound {port : BitVec 6} {s : State} (hs : sound s) : OutSound (execLinkReplay port s) := by
  simp (maxDischargeDepth := 40) [execLinkReplay, hs]

@[simp ↓] theorem State.linkDown_sound {s : State} {port : Nat} (hs : sound s) : sound (State.linkDown s port) := by
  simp (maxDischargeDepth := 40) [State.linkDown, hs]

@[simp ↓] theorem State.restripe_sound {s : State} {port : Nat} {lost : BitVec 16} {unit detectNs replayNs : Nat} (hs : sound
    s) :
    sound (State.restripe s port lost unit detectNs replayNs) := by
  simp (maxDischargeDepth := 40) [State.restripe, hs]

@[simp ↓] theorem State.restripeAll_sound {s : State} {lost : BitVec 16} {unit detectNs replayNs : Nat} (hs : sound s) : sound (State.restripeAll s lost unit detectNs replayNs) := by
  unfold State.restripeAll
  try dsimp only
  repeat' (first | (intro a x ha) | split | with_reducible apply sound_foldl | with_reducible apply sound_foldl_fst)
  all_goals simp +contextual (maxDischargeDepth := 40) [*]

@[simp ↓] theorem execLaserFailure_sound {unit : BitVec 2} {how : LightLoss} {port : BitVec 6} {detectNs replayNs : BitVec 32} {s : State} (hs : sound s) : OutSound (execLaserFailure unit how port detectNs replayNs s) := by
  unfold execLaserFailure
  try dsimp only
  repeat' (first | (intro a x ha) | split | with_reducible apply sound_foldl | with_reducible apply sound_foldl_fst)
  all_goals simp +contextual (maxDischargeDepth := 40) [*]

@[simp ↓] theorem execRestripeTimeout_sound {port : BitVec 6} {s : State} (hs : sound s) :
    OutSound (execRestripeTimeout port s) := by
  simp (maxDischargeDepth := 40) [execRestripeTimeout, hs]

@[simp ↓] theorem State.wrFctl_sound {s : State} {v : Word} (hs : sound s) : WrSound (State.wrFctl s v) := by
  simp (maxDischargeDepth := 40) [State.wrFctl, hs]

@[simp ↓] theorem execFctlWrite_sound {v : Word} {s : State} (hs : sound s) : OutSound (execFctlWrite v s) := by
  simp (maxDischargeDepth := 40) [execFctlWrite, hs]

@[simp ↓] theorem State.wrLaserctl_sound {s : State} {v : Word} (hs : sound s) : WrSound (State.wrLaserctl s v) := by
  unfold State.wrLaserctl
  refine wrSound_done ?_
  refine sound_foldl _ _ (fun a u ha => ?_) (sound_foldl _ _ (fun a p ha => ?_) (State.setPreg_sound hs))
  · split <;> simp (maxDischargeDepth := 40) [ha]
  · dsimp only
    split <;> simp (maxDischargeDepth := 40) [ha]

@[simp ↓] theorem execLaserctlWrite_sound {v : Word} {s : State} (hs : sound s) : OutSound (execLaserctlWrite v s) := by
  simp (maxDischargeDepth := 40) [execLaserctlWrite, hs]

@[simp ↓] theorem State.setField_sound {s : State} {num hi lo v : Nat} (hs : sound s) :
    sound (State.setField s num hi lo v) := by
  simp (maxDischargeDepth := 40) [State.setField, hs]

@[simp ↓] theorem State.startSwitch_sound {s : State} {ch : Nat} (hs : sound s) : sound (State.startSwitch s ch) := by
  simp (maxDischargeDepth := 40) [State.startSwitch, hs]

@[simp ↓] theorem State.wrMrate_sound {s : State} {stack : Nat} {v : Word} (hs : sound s) :
    WrSound (State.wrMrate s stack v) := by
  unfold State.wrMrate
  try dsimp only
  repeat' (first | (intro a x ha) | split | with_reducible apply sound_foldl | with_reducible apply sound_foldl_fst)
  all_goals simp +contextual (maxDischargeDepth := 40) [*]

@[simp ↓] theorem execMrateWrite_sound {stack : BitVec 4} {v : Word} {s : State} (hs : sound s) :
    OutSound (execMrateWrite stack v s) := by
  simp (maxDischargeDepth := 40) [execMrateWrite, hs]

@[simp ↓] theorem State.resetRows_sound {s : State} {ch bank : Nat} {rows : List Nat} (hs : sound s) :
    sound (State.resetRows s ch bank rows) := by
  simp (maxDischargeDepth := 40) [State.resetRows, hs]

@[simp ↓] theorem State.refreshRows_sound {s : State} {c : Refresh} (hs : sound s) : sound (State.refreshRows s c) := by
  unfold State.refreshRows
  try dsimp only
  repeat' (first | (intro a x ha) | split | with_reducible apply sound_foldl | with_reducible apply sound_foldl_fst)
  all_goals simp +contextual (maxDischargeDepth := 40) [*]

@[simp ↓] theorem State.issueHeld_sound {s : State} {ch : Nat} (hs : sound s) : sound (State.issueHeld s ch) := by
  have h := sound_foldl State.refreshRows (s.ms.held.filter (fun c => c.ch = ch)) (fun a c ha => State.refreshRows_sound (c := c) ha) hs
  simp (maxDischargeDepth := 40) [State.issueHeld, h]

@[simp ↓] theorem execRateSwitchComplete_sound {ch : Nat} {stallNs : BitVec 32} {s : State} (hs : sound s) :
    OutSound (execRateSwitchComplete ch stallNs s) := by
  simp (maxDischargeDepth := 40) [execRateSwitchComplete, hs]

@[simp ↓] theorem State.sample_sound {s : State} {k layer temp : Nat} (hs : sound s) : sound (State.sample s k layer temp) := by
  unfold State.sample
  try dsimp only
  repeat' (first | (intro a x ha) | split | with_reducible apply sound_foldl | with_reducible apply sound_foldl_fst)
  all_goals simp +contextual (maxDischargeDepth := 40) [*]

@[simp ↓] theorem State.startRefresh_sound {s : State} (hs : sound s) : sound (State.startRefresh s) := by
  unfold State.startRefresh
  try dsimp only
  repeat' (first | (intro a x ha) | split | with_reducible apply sound_foldl | with_reducible apply sound_foldl_fst)
  all_goals simp +contextual (maxDischargeDepth := 40) [*]

@[simp ↓] theorem execTempSample_sound {stack layer : BitVec 4} {temp : BitVec 8} {s : State} (hs : sound s) :
    OutSound (execTempSample stack layer temp s) := by
  simp (maxDischargeDepth := 40) [execTempSample, hs]

@[simp ↓] theorem execRefreshCommand_sound {ch : Nat} {bank : BitVec 5} {firstRow count : BitVec 16} {s : State} (hs : sound s)
    :
    OutSound (execRefreshCommand ch bank firstRow count s) := by
  unfold execRefreshCommand
  try dsimp only
  repeat' (first | (intro a x ha) | split | with_reducible apply sound_foldl | with_reducible apply sound_foldl_fst)
  all_goals simp +contextual (maxDischargeDepth := 40) [*]

@[simp ↓] theorem State.postActsat_sound {s : State} {ch bank row cause : Nat} (hs : sound s) :
    sound (State.postActsat s ch bank row cause) := by
  simp (maxDischargeDepth := 40) [State.postActsat, hs]

@[simp ↓] theorem execRowPrecharge_sound {ch : Nat} {bank : BitVec 5} {row : BitVec 16} {s : State} (hs : sound s) :
    OutSound (execRowPrecharge ch bank row s) := by
  simp (maxDischargeDepth := 40) [execRowPrecharge, hs]

@[simp ↓] theorem execPatrolScrub_sound {unit : Nat} {s : State} (hs : sound s) : OutSound (execPatrolScrub unit s) := by
  simp (maxDischargeDepth := 40) [execPatrolScrub, hs]

@[simp ↓] theorem State.setQstate_sound {s : State} {st err len : Nat} (hs : sound s) :
    sound (State.setQstate s st err len) := by
  simp (maxDischargeDepth := 40) [State.setQstate, hs]

@[simp ↓] theorem State.wrQuiesceStep_sound {s : State} (hs : sound s) : WrSound (State.wrQuiesceStep s) := by
  simp (maxDischargeDepth := 40) [State.wrQuiesceStep, hs]

@[simp ↓] theorem execQuiesceStep_sound {s : State} (hs : sound s) : OutSound (execQuiesceStep s) := by
  simp (maxDischargeDepth := 40) [execQuiesceStep, hs]

@[simp ↓] theorem State.pastArrived_sound {s : State} (hs : sound s) : sound (State.pastArrived s).2 := by
  unfold State.pastArrived
  repeat' split
  all_goals simp (maxDischargeDepth := 40) [hs]

@[simp ↓] theorem State.wrQuiesceKernel_sound {s : State} (hs : sound s) : WrSound (State.wrQuiesceKernel s) := by
  simp (maxDischargeDepth := 40) [State.wrQuiesceKernel, hs]

@[simp ↓] theorem execQuiesceKernel_sound {s : State} (hs : sound s) : OutSound (execQuiesceKernel s) := by
  simp (maxDischargeDepth := 40) [execQuiesceKernel, hs]

@[simp ↓] theorem execQuiesceDone_sound {s : State} (hs : sound s) : OutSound (execQuiesceDone s) := by
  unfold execQuiesceDone
  split
  · split
    · simp [hs]
    · dsimp only
      split
      · simp
      · rename_i s1 h1
        have := State.putPhys_sound (sound_mk hs.1.1 hs.1.2 hs.2) s1 h1
        simp (maxDischargeDepth := 40) [this]
  · simp [hs]

@[simp ↓] theorem State.wrResume_sound {s : State} (hs : sound s) : WrSound (State.wrResume s) := by
  unfold State.wrResume
  repeat' split
  all_goals simp (maxDischargeDepth := 40) [*]

@[simp ↓] theorem execResume_sound {s : State} (hs : sound s) : OutSound (execResume s) := by
  simp (maxDischargeDepth := 40) [execResume, hs]

@[simp ↓] theorem State.reprobe_sound {s : State} {k : Nat} {p : Stoek} (hs : sound s) : sound (State.reprobe s k p) := by
  unfold State.reprobe
  split
  · exact hs
  · rename_i t _
    extract_lets one z
    have h1 : ∀ a x, sound a.1 → sound (one a x).1 := by
      intro a x ha
      show sound (match a.2 with | .ok _ => _ | .error _ => _ : State × Res (List Pin)).1
      split <;> simp (maxDischargeDepth := 40) [ha]
    have hz : sound z.1 := sound_foldl_fst one _ h1 hs
    split <;> simp (maxDischargeDepth := 40) [hz]

/-- What a restore ends with, well or badly, is sound. -/
def RestSound (r : Restored) : Prop := (∀ t, r = .ok t → sound t) ∧ ∀ e, r = .error e → sound e.1

@[simp ↓] theorem restSound_ok {t : State} (h : sound t) : RestSound (.ok t) := ⟨by rintro u ⟨rfl⟩; exact h, by rintro e ⟨⟩⟩

@[simp ↓] theorem restSound_error {t : State} {o c : Nat} (h : sound t) : RestSound (.error (t, o, c)) :=
  ⟨by rintro u ⟨⟩, by rintro e ⟨rfl⟩; exact h⟩

theorem restSound_bind {r : Restored} {f : State → Restored} (hr : RestSound r) (hf : ∀ t, sound t → RestSound (f t)) :
    RestSound (r.bind f) := by
  cases r with
  | ok t => exact hf t (hr.1 t rfl)
  | error e => exact ⟨by rintro u ⟨⟩, by rintro x ⟨rfl⟩; exact hr.2 e rfl⟩

theorem restSound_foldl {β : Type} (f : Restored → β → Restored) (l : List β) {r : Restored} (hf : ∀ a x, RestSound a → RestSound (f a x))
    (h : RestSound r) : RestSound (l.foldl f r) := by
  induction l generalizing r with
  | nil => exact h
  | cons x l ih => exact ih (hf r x h)

@[simp ↓] theorem State.xlateRec_sound {va len : Nat} {l : List (BitVec 16)} {s : State} (hs : sound s) :
    sound (State.xlateRec s va len l).1 := by
  fun_induction State.xlateRec s va len l
  all_goals simp_all +zetaDelta (maxDischargeDepth := 40)

theorem State.restoreRecs_sound {img : List Byte} {f o n : Nat} {s : State} (hs : sound s) : RestSound (State.restoreRecs img f o n s) := by
  fun_induction State.restoreRecs img f o n s
  all_goals first
    | (simp +zetaDelta (maxDischargeDepth := 40) [hs]; done)
    | (rename_i ih; exact ih (by simp +zetaDelta (maxDischargeDepth := 40) [hs]))

theorem State.restoreQueue_sound {s t : State} {img : List Byte} {q : Nat} (hs : sound s) (h : s.restoreQueue img q = some t) : sound t := by
  unfold State.restoreQueue at h
  dsimp only at h
  generalize recField img (0x40 + 64 * q) 8 &&& 0x0000FFFF0000FF8F = v at h
  split at h
  · exact absurd h (by simp)
  · rw [← Option.some.inj h]
    simp (maxDischargeDepth := 40) [hs]

theorem State.restoreQueues_sound {s : State} {img : List Byte} (hs : sound s) : RestSound (s.restoreQueues img) := by
  unfold State.restoreQueues
  refine restSound_foldl _ _ (fun a q ha => restSound_bind ha (fun x hx => ?_)) (restSound_ok hs)
  split
  · rename_i y hy
    exact restSound_ok (State.restoreQueue_sound hx hy)
  · exact restSound_error hx

@[simp ↓] theorem State.holdSlot_sound {s : State} {n : Nat} (hs : sound s) : sound (State.holdSlot s n) := by
  simp (maxDischargeDepth := 40) [State.holdSlot, hs]

@[simp ↓] theorem State.reslot_sound {s : State} {k : Nat} (hs : sound s) : sound (State.reslot s k) := by
  unfold State.reslot
  split
  · exact hs
  · split
    · exact hs
    · dsimp only
      split
      · rename_i h
        simp (maxDischargeDepth := 40) [State.intoSlot_sound hs _ h]
      · exact hs

theorem State.restoreFrom_sound {s : State} {img : List Byte} (hs : sound s) : RestSound (State.restoreFrom s img) := by
  unfold State.restoreFrom
  dsimp only
  split
  · exact restSound_error hs
  · split
    · exact restSound_error hs
    · split
      · exact restSound_error hs
      · refine restSound_bind (State.restoreQueues_sound hs) (fun q0 h0 => ?_)
        split
        · rename_i e he
          have hs2 : sound e.1 := by
            refine (State.restoreRecs_sound ?_).2 e he
            split <;> simp (maxDischargeDepth := 40) [h0]
          exact restSound_error hs2
        · rename_i s2 h2
          have hs2 : sound s2 := by
            refine (State.restoreRecs_sound ?_).1 s2 h2
            split <;> simp (maxDischargeDepth := 40) [h0]
          refine restSound_ok ?_
          have h3 : sound (s2.tasks.foldl (fun a e => e.2.stoeks.foldl (fun b p => b.reprobe e.1 p) a) s2) :=
            sound_foldl _ _ (fun a e ha => sound_foldl _ _ (fun b p hb => by simp [hb]) ha) hs2
          generalize s2.tasks.foldl (fun a e => e.2.stoeks.foldl (fun b p => b.reprobe e.1 p) a) s2 = s3 at h3 ⊢
          have h4 : sound (s3.tasks.foldl (fun a e => if e.2.fresh then a else a.reslot e.1) s3) :=
            sound_foldl _ _ (fun a e ha => by split <;> simp [ha]) h3
          exact State.setQstate_sound (sound_mk h4.1.1 h4.1.2 h4.2)

@[simp ↓] theorem State.unrestored_sound {s bad : State} (hs : sound s) (hb : sound bad) : sound (State.unrestored s bad) := by
  unfold State.unrestored
  exact sound_foldl _ _ (fun a n ha => State.setPreg_sound ha) (sound_mk hb.1.1 hb.1.2 hs.2)

@[simp ↓] theorem State.readImage_sound {s : State} (hs : sound s) : sound (State.readImage s).1 := by
  unfold State.readImage
  try dsimp only
  repeat' (first | (intro a x ha) | split | with_reducible apply sound_foldl | with_reducible apply sound_foldl_fst)
  all_goals simp +contextual (maxDischargeDepth := 40) [*]

@[simp ↓] theorem State.wrRestore_sound {s : State} (hs : sound s) : WrSound (State.wrRestore s) := by
  unfold State.wrRestore
  split
  · simp [hs]
  · have hr : sound s.readImage.1 := State.readImage_sound hs
    dsimp only
    split
    · simp (maxDischargeDepth := 40) [hr]
    · rename_i img _
      have hf := State.restoreFrom_sound (img := img) hr
      split
      · rename_i t ht
        simp (maxDischargeDepth := 40) [hf.1 t ht]
      · rename_i x o c hx
        simp (maxDischargeDepth := 40) [hr, hf.2 _ hx]

@[simp ↓] theorem execRestore_sound {s : State} (hs : sound s) : OutSound (execRestore s) := by
  simp (maxDischargeDepth := 40) [execRestore, hs]

@[simp ↓] theorem execUcieModuleFail_sound {m : BitVec 2} {s : State} (hs : sound s) : OutSound (execUcieModuleFail m s) := by
  simp (maxDischargeDepth := 40) [execUcieModuleFail, hs]

@[simp ↓] theorem execMsixHoldoffExpiry_sound {s : State} (hs : sound s) : OutSound (execMsixHoldoffExpiry s) := by
  simp (maxDischargeDepth := 40) [execMsixHoldoffExpiry, hs]

@[simp ↓] theorem State.setKsstat_sound {s : State} {st cause : Nat} (hs : sound s) : sound (State.setKsstat s st cause) := by
  simp (maxDischargeDepth := 40) [State.setKsstat, hs]

@[simp ↓] theorem State.wrKscmd_sound {s : State} {v : Word} (hs : sound s) : WrSound (State.wrKscmd s v) := by
  simp (maxDischargeDepth := 40) [State.wrKscmd, hs]

@[simp ↓] theorem execKscmdLoad_sound {v : Word} {s : State} (hs : sound s) : OutSound (execKscmdLoad v s) := by
  simp (maxDischargeDepth := 40) [execKscmdLoad, hs]

@[simp ↓] theorem State.attWrite_sound {s : State} {buf : Nat} {bs : List Byte} (hs : sound s) :
    sound (State.attWrite s buf bs) := by
  unfold State.attWrite
  repeat' split
  all_goals simp (maxDischargeDepth := 40) [*]

@[simp ↓] theorem State.report412_sound {s : State} {buf : Nat} (hs : sound s) : sound (State.report412 s buf) := by
  unfold State.report412
  try dsimp only
  repeat' (first | (intro a x ha) | split | with_reducible apply sound_foldl | with_reducible apply sound_foldl_fst)
  all_goals simp +contextual (maxDischargeDepth := 40) [*]

@[simp ↓] theorem State.wrAttReport_sound {s : State} {buf : Nat} (hs : sound s) : WrSound (State.wrAttReport s buf) := by
  unfold State.wrAttReport
  dsimp only
  repeat' split
  all_goals simp (maxDischargeDepth := 40) [hs]

@[simp ↓] theorem execAttReport_sound {buf : BitVec 52} {s : State} (hs : sound s) : OutSound (execAttReport buf s) := by
  simp (maxDischargeDepth := 40) [execAttReport, hs]

@[simp ↓] theorem State.wrAttCertificate_sound {s : State} {buf : Nat} (hs : sound s) :
    WrSound (State.wrAttCertificate s buf) := by
  simp (maxDischargeDepth := 40) [State.wrAttCertificate, hs]

@[simp ↓] theorem execAttCertificate_sound {buf : BitVec 52} {s : State} (hs : sound s) :
    OutSound (execAttCertificate buf s) := by
  simp (maxDischargeDepth := 40) [execAttCertificate, hs]

@[simp ↓] theorem State.wrAttcmd_sound {s : State} {v : Word} (hs : sound s) : WrSound (State.wrAttcmd s v) := by
  unfold State.wrAttcmd
  repeat' split
  all_goals simp (maxDischargeDepth := 40) [*]

@[simp ↓] theorem State.readContainer_sound {s : State} {l : KsLoad} (hs : sound s) : sound (State.readContainer s l).s := by
  unfold State.readContainer
  dsimp only
  repeat' split
  all_goals simp (maxDischargeDepth := 40) [hs]

@[simp ↓] theorem State.readLoad_sound {s : State} {l : KsLoad} (hs : sound s) : sound (State.readLoad s l).s := by
  unfold State.readLoad
  dsimp only
  repeat' split
  all_goals simp (maxDischargeDepth := 40) [hs]

@[simp ↓] theorem State.finishLoad_sound {s : State} {l : KsLoad} (hs : sound s) : sound (State.finishLoad s l) := by
  unfold State.finishLoad
  have hr : sound (s.readLoad l).s := State.readLoad_sound hs
  generalize s.readLoad l = r at hr
  dsimp only
  repeat' split
  all_goals
    first
      | (refine sound_foldl _ _ (fun a b ha => ?_) ?_
         · simp (maxDischargeDepth := 40) [ha]
         · simp (maxDischargeDepth := 40) [hr])
      | simp (maxDischargeDepth := 40) [hr]

@[simp ↓] theorem execKernelStoreCopy_sound {s : State} (hs : sound s) : OutSound (execKernelStoreCopy s) := by
  unfold execKernelStoreCopy
  repeat' split
  all_goals simp (maxDischargeDepth := 40) [*]

@[simp ↓] theorem State.zeroLocal_sound {s : State} {la n : Nat} (hs : sound s) : sound (State.zeroLocal s la n) := by
  simp (maxDischargeDepth := 40) [State.zeroLocal, hs]

@[simp ↓] theorem State.wrTcbase_sound {s : State} {v : Word} (hs : sound s) : WrSound (State.wrTcbase s v) := by
  unfold State.wrTcbase
  try dsimp only
  repeat' (first | (intro a x ha) | split | with_reducible apply sound_foldl | with_reducible apply sound_foldl_fst)
  all_goals simp +contextual (maxDischargeDepth := 40) [*]

@[simp ↓] theorem execTcbaseWrite_sound {v : Word} {s : State} (hs : sound s) : OutSound (execTcbaseWrite v s) := by
  simp (maxDischargeDepth := 40) [execTcbaseWrite, hs]

@[simp ↓] theorem State.agePlan_sound {s : State} {die newMv slack : Nat} {starved : Bool} (hs : sound s) :
    sound (State.agePlan s die newMv slack starved) := by
  simp (maxDischargeDepth := 40) [State.agePlan, hs]

@[simp ↓] theorem State.setStage_sound {s : State} {n : Nat} (hs : sound s) : sound (State.setStage s n) := by
  simp (maxDischargeDepth := 40) [State.setStage, hs]

@[simp ↓] theorem execAgeingCheck_sound {die : BitVec 2} {newMv slackPs : BitVec 16} {starved : Bool} {s : State} (hs : sound
    s) :
    OutSound (execAgeingCheck die newMv slackPs starved s) := by
  simp (maxDischargeDepth := 40) [execAgeingCheck, hs]

@[simp ↓] theorem State.harvest_sound {s : State} (hs : sound s) : sound (State.harvest s) := by
  simp (maxDischargeDepth := 40) [State.harvest, hs]

@[simp ↓] theorem State.firstPlans_sound {s : State} (hs : sound s) : sound (State.firstPlans s) := by
  unfold State.firstPlans
  try dsimp only
  repeat' (first | (intro a x ha) | split | with_reducible apply sound_foldl | with_reducible apply sound_foldl_fst)
  all_goals simp +contextual (maxDischargeDepth := 40) [*]

@[simp ↓] theorem State.startImage_sound {s : State} {im : List Byte} (hs : sound s) : sound (State.startImage s im) := by
  unfold State.startImage
  dsimp only
  repeat' split
  all_goals simp (maxDischargeDepth := 40) [hs]

@[simp ↓] theorem State.boot_sound {s : State} {im : List Byte} (hs : sound s) : sound (State.boot s im) := by
  simp (maxDischargeDepth := 40) [State.boot, hs]

@[simp ↓] theorem execPowerOn_sound {rank : BitVec 12} {incarnation : BitVec 4} {ptdir svecdef : Word} {s : State} (hs : sound
    s) :
    OutSound (execPowerOn rank incarnation ptdir svecdef s) := by
  simp (maxDischargeDepth := 40) [execPowerOn, hs]

@[simp ↓] theorem execSidebandImagePush_sound {im : List Byte} {s : State} (hs : sound s) :
    OutSound (execSidebandImagePush im s) := by
  simp (maxDischargeDepth := 40) [execSidebandImagePush, hs]

@[simp ↓] theorem execSidebandFlashRewrite_sound {im : List Byte} {s : State} (hs : sound s) :
    OutSound (execSidebandFlashRewrite im s) := by
  simp (maxDischargeDepth := 40) [execSidebandFlashRewrite, hs]

@[simp ↓] theorem State.readPackage_sound {s : State} {n : Nat} (hs : sound s) : sound (State.readPackage s n).2 := by
  unfold State.readPackage
  repeat' split
  all_goals simp (maxDischargeDepth := 40) [*]

@[simp ↓] theorem State.wrEvqctl_sound {s : State} {v : Word} (hs : sound s) : WrSound (State.wrEvqctl s v) := by
  simp (maxDischargeDepth := 40) [State.wrEvqctl, hs]

@[simp ↓] theorem execEvqctlWrite_sound {v : Word} {s : State} (hs : sound s) : OutSound (execEvqctlWrite v s) := by
  simp (maxDischargeDepth := 40) [execEvqctlWrite, hs]

@[simp ↓] theorem State.wrHwsize_sound {s : State} {v : Word} (hs : sound s) : WrSound (State.wrHwsize s v) := by
  simp (maxDischargeDepth := 40) [State.wrHwsize, hs]

@[simp ↓] theorem execHwsizeWrite_sound {v : Word} {s : State} (hs : sound s) : OutSound (execHwsizeWrite v s) := by
  simp (maxDischargeDepth := 40) [execHwsizeWrite, hs]

@[simp ↓] theorem State.wrTaskcmd_sound {s : State} {v : Word} (hs : sound s) : WrSound (State.wrTaskcmd s v) := by
  unfold State.wrTaskcmd
  repeat' split
  all_goals simp (maxDischargeDepth := 40) [*]

@[simp ↓] theorem State.wrQcmd_sound {s : State} {v : Word} (hs : sound s) : WrSound (State.wrQcmd s v) := by
  simp (maxDischargeDepth := 40) [State.wrQcmd, hs]

@[simp ↓] theorem State.clearBits_sound {s : State} {n mask : Nat} {v : Word} (hs : sound s) :
    sound (State.clearBits s n mask v) := by
  simp (maxDischargeDepth := 40) [State.clearBits, hs]

theorem State.wrRanged_sound {s : State} {n : Nat} {v : Word} (hs : sound s) : ∀ w, s.wrRanged n v = some w → WrSound w := by
  intro w hw
  unfold State.wrRanged at hw
  dsimp only at hw
  repeat' split at hw
  all_goals cases hw
  all_goals repeat' split
  all_goals simp (maxDischargeDepth := 40) [hs]

theorem State.wrPlain_sound {s : State} {n : Nat} {v : Word} (hs : sound s) : ∀ w, s.wrPlain n v = some w → WrSound w := by
  intro w hw
  unfold State.wrPlain at hw
  split at hw
  · cases hw; simp (maxDischargeDepth := 40) [hs]
  · split at hw
    · cases hw; simp (maxDischargeDepth := 40) [hs]
    · exact State.wrRanged_sound hs w hw

@[simp ↓] theorem execRegisterWrite_sound {num : BitVec 12} {v : Word} {s : State} (hs : sound s) : OutSound (execRegisterWrite num v s) := by
  unfold execRegisterWrite
  split
  · exact Wr.out_sound (State.wrPlain_sound hs _ (by assumption)) hs
  · simp [hs]

@[simp ↓] theorem State.writePackage_sound {s : State} {n : Nat} {v : Word} (hs : sound s) : WrSound (State.writePackage s n v) := by
  unfold State.writePackage
  split
  · exact State.wrPlain_sound hs _ (by assumption)
  · repeat' split
    all_goals simp (maxDischargeDepth := 40) [hs]

@[simp ↓] theorem execMfc_sound {d a : Reg} {imm : BitVec 11} {s : State} (hs : sound s) : OutSound (execMfc d a imm s) := by
  unfold execMfc
  try dsimp only
  repeat' (first | with_reducible refine State.onScp_sound ?_ (fun k t => ?_) | (intro a x ha) | split | with_reducible apply sound_foldl | with_reducible apply sound_foldl_fst)
  all_goals simp +contextual (maxDischargeDepth := 40) [*]

@[simp ↓] theorem execMtc_sound {r : Reg} {a : Reg} {imm : BitVec 12} {s : State} (hs : sound s) : OutSound (execMtc r a imm s) := by
  unfold execMtc
  refine State.onScp_sound hs (fun k t => ?_)
  split
  · simp [hs]
  · split
    · simp (maxDischargeDepth := 40) [hs]
    · simp
    · dsimp only
      split
      · simp (maxDischargeDepth := 40) [hs]
      · split
        · rename_i h
          exact outSound_next (State.writePackage_sound (State.putTask_sound hs) _ h)
        all_goals simp (maxDischargeDepth := 40) [hs]

@[simp ↓] theorem State.giveHost_sound {s : State} {bs : List Byte} (hs : sound s) : sound (State.giveHost s bs) := by
  simp (maxDischargeDepth := 40) [State.giveHost, hs]

@[simp ↓] theorem execHostBar0Access_sound {off : BitVec 16} {op : HostOp} {s : State} (hs : sound s) :
    OutSound (execHostBar0Access off op s) := by
  unfold execHostBar0Access
  repeat' split
  all_goals simp (maxDischargeDepth := 40) [*]

@[simp ↓] theorem execHostBar2Access_sound {off : BitVec 36} {op : HostOp} {s : State} (hs : sound s) :
    OutSound (execHostBar2Access off op s) := by
  unfold execHostBar2Access
  try dsimp only
  repeat' (first | (intro a x ha) | split | with_reducible apply sound_foldl | with_reducible apply sound_foldl_fst)
  all_goals simp +contextual (maxDischargeDepth := 40) [*]

@[simp ↓] theorem exec_sound {i : Instr} {s : State} (hs : sound s) : OutSound (exec i s) := by
  unfold exec
  repeat' split
  all_goals simp (maxDischargeDepth := 40) [*]

end Sys2Proof.Machine
end

