-- ==== Sys2Proof/Tests/Slice0.lean ====
section
/-! SUPPORT. Tests. Words are laid out field by field as 06 R145 to R149, 07 R166 to R172, 09, 12 R280 and 13 R294 number them, or are
the worked encodings of the spec. Effects are worked examples and tables of the spec, or a hand calculation from them. The witnesses
at the end meet the hypotheses of the statements. -/

namespace Sys2Proof.Tests

open Sys2Proof Sys2Proof.Machine

set_option Elab.async false

/-! ## Words -/

/-- What one word decodes to. -/
def one (w : BitVec 32) : Option Instr := decodeTableWord 32 w.toNat

/-- What two words decode to, the first at the lower address. -/
def two (w0 w1 : BitVec 32) : Option Instr := decodeTableWord 64 (w0.toNat + w1.toNat * 2 ^ 32)

/-- 07 R167, format R of 06 R145: major, rd, ra, rb, OP, AUX. -/
theorem test_decode_alu :
    one (0x01#6 ++ 3#5 ++ 4#5 ++ 5#5 ++ 0#6 ++ 0#5) = some (.add 3 4 5) ∧
    one (0x01#6 ++ 31#5 ++ 0#5 ++ 5#5 ++ 1#6 ++ 0#5) = some (.sub 31 0 5) ∧
    one (0x01#6 ++ 3#5 ++ 4#5 ++ 5#5 ++ 2#6 ++ 0#5) = some (.and 3 4 5) ∧
    one (0x01#6 ++ 3#5 ++ 4#5 ++ 5#5 ++ 3#6 ++ 0#5) = some (.or 3 4 5) ∧
    one (0x01#6 ++ 3#5 ++ 4#5 ++ 5#5 ++ 4#6 ++ 0#5) = some (.xor 3 4 5) ∧
    one (0x01#6 ++ 3#5 ++ 4#5 ++ 5#5 ++ 5#6 ++ 0#5) = some (.andn 3 4 5) ∧
    one (0x01#6 ++ 3#5 ++ 4#5 ++ 5#5 ++ 6#6 ++ 0#5) = some (.shl 3 4 5) ∧
    one (0x01#6 ++ 3#5 ++ 4#5 ++ 5#5 ++ 7#6 ++ 0#5) = some (.shr 3 4 5) ∧
    one (0x01#6 ++ 3#5 ++ 4#5 ++ 5#5 ++ 8#6 ++ 0#5) = some (.sha 3 4 5) ∧
    one (0x01#6 ++ 3#5 ++ 4#5 ++ 5#5 ++ 9#6 ++ 0#5) = some (.rot 3 4 5) ∧
    one (0x01#6 ++ 3#5 ++ 4#5 ++ 5#5 ++ 10#6 ++ 0#5) = some (.min 3 4 5) ∧
    one (0x01#6 ++ 3#5 ++ 4#5 ++ 5#5 ++ 11#6 ++ 0#5) = some (.max 3 4 5) ∧
    one (0x01#6 ++ 3#5 ++ 4#5 ++ 5#5 ++ 12#6 ++ 0#5) = some (.minu 3 4 5) ∧
    one (0x01#6 ++ 3#5 ++ 4#5 ++ 5#5 ++ 13#6 ++ 0#5) = some (.maxu 3 4 5) ∧
    one 0x04C741C2 = some (.cmp .lt 6 7 8) ∧
    one (0x01#6 ++ 3#5 ++ 4#5 ++ 5#5 ++ 14#6 ++ 9#5) = some (.cmp .leu 3 4 5) ∧
    one (0x01#6 ++ 3#5 ++ 5#5 ++ 6#5 ++ 15#6 ++ 4#5) = some (.sel 3 5 6 4) ∧
    one (0x01#6 ++ 3#5 ++ 4#5 ++ 0#5 ++ 16#6 ++ 0#5) = some (.clz 3 4) ∧
    one (0x01#6 ++ 3#5 ++ 4#5 ++ 0#5 ++ 17#6 ++ 0#5) = some (.ctz 3 4) ∧
    one (0x01#6 ++ 3#5 ++ 4#5 ++ 0#5 ++ 18#6 ++ 0#5) = some (.popc 3 4) := by decide

/-- 07 R166, R168; 08 R185 to R190: immediates, LIH, LEA, multiply and divide. -/
theorem test_decode_immediates :
    one 0x08A00004 = some (.addi 5 0 4) ∧
    one (0x03#6 ++ 3#5 ++ 4#5 ++ 0x8001#16) = some (.andi 3 4 0x8001) ∧
    one 0x10E00123 = some (.ori 7 0 0x0123) ∧
    one (0x05#6 ++ 3#5 ++ 4#5 ++ 0x8001#16) = some (.xori 3 4 0x8001) ∧
    one (0x06#6 ++ 3#5 ++ 4#5 ++ 0#4 ++ 0#6 ++ 63#6) = some (.shli 3 4 63) ∧
    one (0x06#6 ++ 3#5 ++ 4#5 ++ 1#4 ++ 0#6 ++ 33#6) = some (.shri 3 4 33) ∧
    one (0x06#6 ++ 3#5 ++ 4#5 ++ 2#4 ++ 0#6 ++ 1#6) = some (.shai 3 4 1) ∧
    one (0x07#6 ++ 3#5 ++ 4#5 ++ 7#4 ++ 0xFFD#12) = some (.cmpi .le 3 4 0xFFD) ∧
    one 0x20E089AB = some (.lih 7 0x89AB) ∧
    one 0x24A63B08 = some (.lea 5 6 7 3 8) ∧
    one 0x26238400 = some (.lea 17 3 16 4 0) ∧
    one (0x0E#6 ++ 3#5 ++ 4#5 ++ 5#5 ++ 0#11) = some (.mul 3 4 5) ∧
    one (0x0E#6 ++ 3#5 ++ 4#5 ++ 5#5 ++ 1#11) = some (.mulh 3 4 5) ∧
    one (0x0E#6 ++ 3#5 ++ 4#5 ++ 5#5 ++ 2#11) = some (.mulhu 3 4 5) ∧
    one (0x0E#6 ++ 3#5 ++ 4#5 ++ 5#5 ++ 3#11) = some (.div 3 4 5) ∧
    one 0x38642804 = some (.divu 3 4 5) ∧
    one (0x0E#6 ++ 3#5 ++ 4#5 ++ 5#5 ++ 5#11) = some (.rem 3 4 5) ∧
    one (0x0E#6 ++ 3#5 ++ 4#5 ++ 5#5 ++ 6#11) = some (.remu 3 4 5) := by decide

/-- 06 R148, 07 R168, R171; 04 R108; 08 R204: branches, calls, MARK, IPF and hints. -/
theorem test_decode_branches :
    one 0x28A01FFD = some (.bc .ne 5 0 0xFFD) ∧
    one (0x0A#6 ++ 4#5 ++ 5#5 ++ 8#4 ++ 0x7FF#12) = some (.bc .gtu 4 5 0x7FF) ∧
    one (0x0B#6 ++ 0x3FFFFFF#26) = some (.j 0x3FFFFFF) ∧
    one (0x0C#6 ++ 0x2000001#26) = some (.jal 0x2000001) ∧
    one (0x0D#6 ++ 0#5 ++ 4#5 ++ 0#5 ++ 0#11) = some (.jr 4) ∧
    one (0x0D#6 ++ 3#5 ++ 4#5 ++ 0#5 ++ 1#11) = some (.jalr 3 4) ∧
    one 0x74000000 = some (.mark .g) ∧ one 0x74000001 = some (.mark .k) ∧ one 0x74000002 = some (.mark .h) ∧
    one 0x7809003F = some (.ipf 9 63) ∧
    one 0xA3E01234 = some (.hint 0x03E01234) ∧
    one (0x2F#6 ++ 1#26) = some (.hint (7#3 ++ 1#26)) := by decide

/-- 06 R147, format M: major, rd or rs, ra, sz, ord, then S and imm11 for a load or imm12 for a store; 08 R195. -/
theorem test_decode_memory :
    one (0x10#6 ++ 3#5 ++ 4#5 ++ 1#2 ++ 0#2 ++ 1#1 ++ 0x400#11) = some (.ldf .h true 3 4 0x400) ∧
    one (0x11#6 ++ 3#5 ++ 4#5 ++ 0#2 ++ 0#2 ++ 0x801#12) = some (.stf .b 3 4 0x801) ∧
    one 0x4864C010 = some (.ldp .d false .none 3 4 16) ∧
    one 0x48E29FF8 = some (.ldp .w true .acq 7 2 0x7F8) ∧
    one 0x4A46D000 = some (.ldp .d false .acq 18 6 0) ∧
    one 0x4C64E008 = some (.stp .d .rel 3 4 8) ∧
    one (0x14#6 ++ 3#5 ++ 4#5 ++ 2#2 ++ 3#2 ++ 0#1 ++ 5#11) = some (.ldg .w false .ar 3 4 5) ∧
    one 0x54A98000 = some (.stg .w .none 5 9 0) ∧
    one (0x16#6 ++ 3#5 ++ 4#5 ++ 0#2 ++ 1#2 ++ 1#1 ++ 5#11) = some (.ldh .b true .acq 3 4 5) ∧
    one (0x17#6 ++ 3#5 ++ 4#5 ++ 3#2 ++ 2#2 ++ 5#12) = some (.sth .d .rel 3 4 5) ∧
    one (0x18#6 ++ 3#5 ++ 0#5 ++ 3#2 ++ 0#2 ++ 0#1 ++ 0x212#11) = some (.mfc 3 0 0x212) ∧
    one (0x19#6 ++ 3#5 ++ 4#5 ++ 3#2 ++ 0#2 ++ 0x7FF#12) = some (.mtc 3 4 0x7FF) := by decide

/-- 07 R169, R170 and the examples of 08 R201 to R203. -/
theorem test_decode_atomics :
    one 0x68A6D380 = some (.cas true .acq false 5 6 7) ∧
    one 0x6C64828C = some (.amo .add false .none true 3 4 5) ∧
    one (0x1B#6 ++ 3#5 ++ 4#5 ++ 3#2 ++ 2#2 ++ 5#5 ++ 8#4 ++ 0#1 ++ 0#2) = some (.amo .maxu true .rel false 3 4 5) ∧
    one 0x70048288 = some (.red .fadd32 false .none 4 5) ∧
    one 0x7006EA00 = some (.red .add true .rel 6 20) ∧
    one (0x1C#6 ++ 0#5 ++ 4#5 ++ 3#2 ++ 0#2 ++ 5#5 ++ 5#4 ++ 0#1 ++ 0#2) = some (.red .or true .none 4 5) := by decide

/-- 07 R168: the supervisory words. -/
theorem test_decode_supervisor :
    one (0x20#6 ++ 0#15 ++ 0#3 ++ 0x2A#8) = some (.trap 0x2A) ∧ one (0x20#6 ++ 0#15 ++ 1#3 ++ 0xFF#8) = some (.scall 0xFF) ∧
    one (0x20#6 ++ 0#15 ++ 2#3 ++ 0#8) = some .eret ∧ one (0x20#6 ++ 0#15 ++ 3#3 ++ 0#8) = some .waite ∧
    one (0x20#6 ++ 0#15 ++ 4#3 ++ 0#8) = some .halt ∧
    one (0x21#6 ++ 0#5 ++ 4#5 ++ 5#5 ++ 0#11) = some (.tlbi 4 5) ∧ one (0x21#6 ++ 0#15 ++ 1#11) = some .tlbsync := by decide

/-- 06 R149, 07 R172; 09 R211 to R223 and the encodings of 14 to 16: descriptors, rings and moves. -/
theorem test_decode_descriptors_and_moves :
    two 0xC0000000 0x00003000 = some (.tdset 0 0 6) ∧
    two 0xC0190037 0x04000000 = some (.tdmov 0 1 23 25) ∧
    two (0x30#6 ++ 9#5 ++ 0#5 ++ 0#5 ++ 2#6 ++ 29#5) (5#6 ++ 0#26) = some (.tdget 9 5 29) ∧
    two 0xC0060062 0x00001003 = some (.ringi 0 2 6 8 3) ∧
    two 0xC1C00080 0 = some (.ringq 14 0) ∧
    two 0xC6850000 0x0C020000 = some (.sld 20 3 64 0 false false false false 5 0) ∧
    two 0xC4140001 0x00008000 = some (.sld 0 0 16 0 false false true false 20 0) ∧
    two (0x31#6 ++ 5#5 ++ 6#5 ++ 7#5 ++ 0#6 ++ 2#5) (9#6 ++ 12#15 ++ 3#9 ++ 1#1 ++ 1#1) =
      some (.sld 5 9 12 3 true true false true 6 7) ∧
    two 0xC4180020 0x0C040000 = some (.sst 0 3 128 0 false false false 24 0) ∧
    two 0xC6CC0021 0x00000803 = some (.sst 22 0 1 0 true true true 12 0) ∧
    two (0x31#6 ++ 5#5 ++ 6#5 ++ 7#5 ++ 2#6 ++ 0#5) (9#6 ++ 12#15 ++ 3#9 ++ 0#1 ++ 0#1) = some (.sga 5 9 12 3 false false 6 7) ∧
    two (0x31#6 ++ 5#5 ++ 6#5 ++ 7#5 ++ 3#6 ++ 4#5) (9#6 ++ 12#15 ++ 3#9 ++ 0#1 ++ 0#1) = some (.ssc .max 5 9 12 3 false false 6 7) ∧
    two 0xC40E0082 0x00000002 = some (.scpy 0 false true 0 0 true false 14) := by decide

/-- 07 R172; 09 R224 to R231, 13 R294 and the encodings of 16: kernels, engines, groups and steps. -/
theorem test_decode_kernels_and_steps :
    two 0xCAA84800 0x02010000 = some (.krun 21 64 8 2 false 9) ∧
    two 0xCB966000 0x00810000 = some (.krun 28 16 22 2 false 12) ∧
    two (0x32#6 ++ 22#5 ++ 0#5 ++ 3#5 ++ 0#6 ++ 0#5) 0x00004000 = some (.krun 22 0 0 0 true 3) ∧
    two 0xCAD50020 0 = some (.kstat 22 21) ∧
    two (0x34#6 ++ 4#5 ++ 5#5 ++ 0#5 ++ 1#6 ++ 0#5) 0 = some (.sqstat 4 5) ∧
    two 0xD0140000 0 = some (.sqwait 20) ∧
    two (0x34#6 ++ 0#15 ++ 0#6 ++ 1#5) 0 = some .sqwaitAll ∧
    two (0x33#6 ++ 5#5 ++ 6#5 ++ 7#5 ++ 0#6 ++ 1#5) (9#6 ++ 12#15 ++ 0#11) = some (.nbmv 5 9 12 true 6 7) ∧
    two 0xCE863821 0x14020000 = some (.descend 20 5 0 2 0 true false false 6 7) ∧
    two (0x33#6 ++ 20#5 ++ 6#5 ++ 7#5 ++ 1#6 ++ 6#5) (5#6 ++ 1#5 ++ 2#5 ++ 3#3 ++ 0#13) =
      some (.descend 20 5 1 2 3 false true true 6 7) ∧
    two 0xCE832040 0x00000010 = some (.stkrun 20 0 3 4) ∧
    two (0x33#6 ++ 20#5 ++ 3#5 ++ 4#5 ++ 2#6 ++ 0#5) 0 = some (.stkrunNoring 20 3 4) ∧
    two 0xCC140060 0 = some (.stkcan 20) ∧
    two (0x34#6 ++ 0#15 ++ 2#6 ++ 0#5) 63 = some (.gjoin 63) ∧
    two (0x34#6 ++ 0#15 ++ 3#6 ++ 0#5) 7 = some (.gleave 7) ∧
    two 0xD0000080 5 = some (.gbar 5) ∧
    two (0x34#6 ++ 0#15 ++ 5#6 ++ 0#5) 0 = some .stepArr ∧
    two (0x34#6 ++ 0#15 ++ 6#6 ++ 0#5) 0 = some .stepWait ∧
    two 0xD08000E0 0 = some (.stepQry 4 false) ∧
    two (0x34#6 ++ 4#5 ++ 0#10 ++ 7#6 ++ 1#5) 0 = some (.stepQry 4 true) := by decide

/-- 12 R280 and the worked program of 12; 16. -/
theorem test_decode_stoek :
    two 0xD48A2800 0 = some (.ixrd false 4 10 5) ∧
    two (0x35#6 ++ 4#5 ++ 10#5 ++ 5#5 ++ 0#6 ++ 1#5) 0 = some (.ixrd true 4 10 5) ∧
    two (0x35#6 ++ 0#5 ++ 6#5 ++ 5#5 ++ 1#6 ++ 0#5) (2#6 ++ 63#6 ++ 8#16 ++ 0#4) = some (.rowld 2 63 8 6 5) ∧
    two (0x35#6 ++ 4#5 ++ 0#10 ++ 2#6 ++ 1#5) (0#6 ++ 3#6 ++ 0#20) = some (.ddup 4 true 3) ∧
    two (0x35#6 ++ 4#5 ++ 0#10 ++ 2#6 ++ 0#5) 0 = some (.ddup 4 false 0) ∧
    two 0xD4062860 0x08000080 = some (.pool false false 2 0 8 6 5) ∧
    two (0x35#6 ++ 0#5 ++ 6#5 ++ 5#5 ++ 3#6 ++ 5#5) (2#6 ++ 1#6 ++ 0xFFFF#16 ++ 0#4) = some (.pool true true 2 1 0xFFFF 6 5) ∧
    two (0x35#6 ++ 0#5 ++ 6#5 ++ 5#5 ++ 3#6 ++ 2#5) (2#6 ++ 1#6 ++ 8#16 ++ 0#4) = some (.poolWadd 2 1 8 6 5) ∧
    two 0xD4000081 0 = some (.emit true false) ∧ two 0xD4000080 0 = some (.emit false false) ∧
    two 0xD4000082 0 = some (.emit false true) ∧
    two 0xD40E60A2 0 = some (.sqw .w 14 12 0) ∧
    two (0x35#6 ++ 0#5 ++ 14#5 ++ 12#5 ++ 5#6 ++ 3#5) 8191 = some (.sqw .d 14 12 8191) ∧
    two (0x35#6 ++ 0#5 ++ 6#5 ++ 5#5 ++ 6#6 ++ 0#5) (2#6 ++ 0#6 ++ 8#16 ++ 0#4) = some (.probe 2 8 6 5) ∧
    two (0x35#6 ++ 0#15 ++ 7#6 ++ 0#5) 0 = some .unpin ∧ two 0xD4000100 0 = some .skend := by decide

/-- 07 R165 to R170, R172 and its worked decodes; 06 R147 to R149; 00 R7: what is no instruction. -/
theorem test_decode_refused :
    one 0 = none ∧ one 0x74000003 = none ∧ one 0xE0000000 = none ∧ one 0x04000260 = none ∧
    one (0x01#6 ++ 3#5 ++ 4#5 ++ 5#5 ++ 0#6 ++ 1#5) = none ∧ one (0x01#6 ++ 3#5 ++ 4#5 ++ 5#5 ++ 16#6 ++ 0#5) = none ∧
    one (0x01#6 ++ 3#5 ++ 4#5 ++ 5#5 ++ 14#6 ++ 10#5) = none ∧ one (0x06#6 ++ 3#5 ++ 4#5 ++ 3#4 ++ 0#6 ++ 1#6) = none ∧
    one (0x08#6 ++ 3#5 ++ 1#5 ++ 0#16) = none ∧ one (0x0A#6 ++ 3#5 ++ 4#5 ++ 15#4 ++ 0#12) = none ∧
    one (0x0D#6 ++ 1#5 ++ 4#5 ++ 0#16) = none ∧ one (0x0E#6 ++ 3#5 ++ 4#5 ++ 5#5 ++ 7#11) = none ∧
    one (0x12#6 ++ 3#5 ++ 4#5 ++ 3#2 ++ 0#2 ++ 1#1 ++ 0#11) = none ∧
    one (0x18#6 ++ 3#5 ++ 4#5 ++ 2#2 ++ 0#2 ++ 0#12) = none ∧ one (0x19#6 ++ 3#5 ++ 4#5 ++ 3#2 ++ 1#2 ++ 0#12) = none ∧
    one (0x1A#6 ++ 3#5 ++ 4#5 ++ 1#2 ++ 0#2 ++ 5#5 ++ 0#7) = none ∧
    one (0x1A#6 ++ 3#5 ++ 4#5 ++ 3#2 ++ 0#2 ++ 5#5 ++ 1#4 ++ 0#3) = none ∧
    one (0x1B#6 ++ 3#5 ++ 4#5 ++ 3#2 ++ 0#2 ++ 5#5 ++ 9#4 ++ 0#3) = none ∧
    one (0x1C#6 ++ 0#5 ++ 4#5 ++ 3#2 ++ 0#2 ++ 5#5 ++ 0#4 ++ 4#3) = none ∧
    one (0x1C#6 ++ 0#5 ++ 4#5 ++ 3#2 ++ 0#2 ++ 5#5 ++ 1#4 ++ 0#3) = none ∧
    one (0x1C#6 ++ 0#5 ++ 4#5 ++ 2#2 ++ 0#2 ++ 5#5 ++ 2#4 ++ 0#3) = none ∧
    one (0x1E#6 ++ 0#5 ++ 9#5 ++ 1#5 ++ 0#11) = none ∧ one (0x20#6 ++ 0#15 ++ 2#3 ++ 1#8) = none ∧
    one (0x20#6 ++ 0#15 ++ 5#3 ++ 0#8) = none ∧ one (0x21#6 ++ 0#15 ++ 2#11) = none ∧
    one (0x1F#6 ++ 0#26) = none ∧ one (0x22#6 ++ 0#26) = none ∧ two (0x36#6 ++ 0#26) 0 = none ∧ one (0x3F#6 ++ 0#26) = none ∧
    two (0x30#6 ++ 0#15 ++ 5#6 ++ 0#5) 0 = none ∧ two (0x30#6 ++ 0#15 ++ 0#6 ++ 0#5) 1 = none ∧
    two (0x30#6 ++ 0#15 ++ 1#6 ++ 29#5) 0 = none ∧ two (0x30#6 ++ 0#15 ++ 2#6 ++ 30#5) 0 = none ∧
    two (0x32#6 ++ 0#26) (0#13 ++ 9#4 ++ 0#15) = none ∧ two (0x31#6 ++ 0#26) (0#6 ++ 16#15 ++ 0#9 ++ 1#1 ++ 0#1) = none ∧
    two (0x34#6 ++ 0#15 ++ 2#6 ++ 0#5) 64 = none ∧ two (0x34#6 ++ 0#15 ++ 8#6 ++ 0#5) 0 = none ∧
    two (0x35#6 ++ 0#15 ++ 4#6 ++ 3#5) 0 = none ∧ two (0x35#6 ++ 0#15 ++ 3#6 ++ 3#5) 0 = none ∧
    two (0x35#6 ++ 0#15 ++ 3#6 ++ 6#5) 0 = none ∧ two (0x35#6 ++ 0#15 ++ 2#6 ++ 0#5) (0#6 ++ 1#6 ++ 0#20) = none := by decide

/-- One term for each check of WellFormed, and the nearest one that passes. -/
theorem test_wellFormed :
    (Instr.ldf .d true 3 4 0).wellFormed = false ∧ (Instr.ldf .w true 3 4 0).wellFormed = true ∧
    (Instr.ldp .d true .none 3 4 0).wellFormed = false ∧ (Instr.ldg .d true .acq 3 4 0).wellFormed = false ∧
    (Instr.ldh .d true .rel 3 4 0).wellFormed = false ∧ (Instr.ldh .d false .rel 3 4 0).wellFormed = true ∧
    (Instr.red .fadd32 true .none 4 5).wellFormed = false ∧ (Instr.red .fadd64 false .none 4 5).wellFormed = false ∧
    (Instr.red .fadd64 true .none 4 5).wellFormed = true ∧
    (Instr.tdmov 0 1 29 3).wellFormed = false ∧ (Instr.tdmov 0 1 28 3).wellFormed = true ∧
    (Instr.tdget 0 1 30).wellFormed = false ∧ (Instr.tdget 0 1 29).wellFormed = true ∧
    (Instr.sld 0 1 16 0 true false false false 2 3).wellFormed = false ∧
    (Instr.sld 0 1 15 0 true false false false 2 3).wellFormed = true ∧
    (Instr.sst 0 1 16 0 true false false 2 3).wellFormed = false ∧ (Instr.sst 0 1 16 0 false false false 2 3).wellFormed = true ∧
    (Instr.sga 0 1 16 0 true false 2 3).wellFormed = false ∧ (Instr.ssc .add 0 1 16 0 true false 2 3).wellFormed = false ∧
    (Instr.scpy 0 false false 16 0 true false 2).wellFormed = false ∧
    (Instr.scpy 0 false false 0 16 false true 2).wellFormed = false ∧
    (Instr.scpy 0 false false 16 15 false true 2).wellFormed = true ∧
    (Instr.krun 0 0 0 9 false 0).wellFormed = false ∧ (Instr.krun 0 0 0 8 false 0).wellFormed = true ∧
    (Instr.ddup 0 false 1).wellFormed = false ∧ (Instr.ddup 0 true 1).wellFormed = true ∧
    (Instr.emit true true).wellFormed = false ∧ (Instr.mrateWrite 12 0).wellFormed = false ∧
    (Instr.rateSwitchComplete 384 0).wellFormed = false ∧ (Instr.tempSample 12 0 0).wellFormed = false ∧
    (Instr.refreshCommand 384 0 0 0).wellFormed = false ∧ (Instr.rowPrecharge 384 0 0).wellFormed = false ∧
    (Instr.flitReceive 48 0 0 true).wellFormed = false ∧ (Instr.flitAck 31 0).wellFormed = false ∧
    (Instr.linkReplay 48).wellFormed = false ∧ (Instr.restripeTimeout 31).wellFormed = false ∧
    (Instr.restripeTimeout 47).wellFormed = true ∧ (Instr.greset 52 0).wellFormed = false ∧
    (Instr.greset 51 0).wellFormed = true := by decide

/-! ## Kernel slots: the worked encodings of 07, 10, 11, 13 and 14 -/

theorem test_decode_u_slots :
    (decodeU 0x00630800).toOption = some (.kadd 3 3 1) ∧ (decodeU 0x30071000).toOption = some (.vote .any 2 1 3 none) ∧
    (decodeU 0x34760028).toOption = some (.bru (.p 2 3) 40) ∧ (decodeU 0x3805000E).toOption = some (.loop none 5 14) ∧
    (decodeU 0x38E6800D).toOption = some (.loop (some 7) 6 13) ∧ (decodeU 0x44000000).toOption = some .kend ∧ (decodeU 0x4000000C).toOption = some (.loopes none 0 12) ∧
    (decodeU (0x20#6 ++ 0#26)).toOption = none := by decide

theorem test_decode_v_slots :
    (decodeV 0x5E0701020300).toOption = some ⟨.flt .vfma 2, 7, 1, 2, 3, false, 0, 0, false⟩ ∧
    (decodeV 0x510301040096).toOption = some ⟨.flt .vfadd 1, 3, 1, 4, 0, true, 2, 3, false⟩ ∧
    (decodeV 0x420604010000).toOption = some ⟨.int .vmov 2, 6, 4, 1, 0, false, 0, 0, false⟩ ∧
    (decodeV 0x3A0102030200).toOption = some ⟨.int .vcmp 2, 1, 2, 3, 2, false, 0, 0, false⟩ ∧
    (decodeV 0x15090A0B0001).toOption = some ⟨.int .vmin 1, 9, 10, 11, 0, false, 0, 0, true⟩ ∧
    (decodeV 0x840804011300).toOption = some ⟨.vcvt, 8, 4, 1, 0x13, false, 0, 0, false⟩ ∧
    (decodeV 0x8C0404020000).toOption = some ⟨.nchild, 4, 4, 2, 0, false, 0, 0, false⟩ ∧
    (decodeV 0x8D0105020000).toOption = some ⟨.ppush, 1, 5, 2, 0, false, 0, 0, false⟩ ∧
    (decodeV 0x8E0600030200).toOption = some ⟨.ptrd, 6, 0, 3, 2, false, 0, 0, false⟩ ∧
    (decodeV (0xE5#8 ++ 0#40)).toOption = none := by decide

theorem test_decode_m_and_c_slots :
    (decodeM 0x088203000000).toOption = some (.mma .bf16 4 16 24) ∧ (decodeM 0x1C0000C2180C).toOption = some (.mmas 0 0 6 2 3 12) ∧
    (decodeC 0x00000000).toOption = some (.rdr 0 (.ring 0 0) none 0) ∧ (decodeC 0x00084100).toOption = some (.rdr 2 (.stream 1 0) none 0) ∧
    (decodeC 0x04004000).toOption = some (.rwr 0 (.ring 1 0) none 0) ∧ (decodeC 0x04448100).toOption = some (.rwr 17 (.stream 2 0) none 0) ∧
    (decodeC 0x08000001).toOption = some (.radv (.ring 0) none 1) ∧ (decodeC 0x0C004000).toOption = some (.reos 1) ∧
    (decodeC 0x14080000).toOption = some (.xbc 2 (.inl 0)) := by decide

/-- 07: byte 31 = 0x80, byte 29 = 0x44, the rest zero. -/
theorem test_decode_kend_bundle :
    (decodeBundle (0x80004400#32 ++ 0#224)).toOption = some ⟨some .kend, none, none, none, none, none⟩ := by decide

/-! ## Effects -/

/-- A task as a loaded program has it (log 7), whose x3, x4 and x5 hold the values given. -/
def task (a b c : Word) : Task :=
  { loadTask false with hart := { Hart.empty with pc := loadPc, xs := (tset 0 (tset 0 (tset 0 [] 3 a) 4 b) 5 c) } }

/-- The state after reset with this task 0 in focus. -/
def st (t : Task) : State := { State.reset with tasks := [(0, t)] }

/-- What follows an instruction, if a state follows. -/
def after (i : Instr) (s : State) : Option State :=
  match exec i s with
  | .next t => some t
  | _ => none

/-- Task 0 after an instruction of its SCP. -/
def scp (i : Instr) (t : Task) : Option Task := (after i (st t)).bind (·.task? 0)

/-- x3 after an instruction that finds a and b in x4 and x5. -/
def x3 (i : Instr) (a b : Word) : Option Word := (scp i (task 7 a b)).map (·.hart.x 3)

/-- 08 R184, R186: wrapping, counts modulo 64, bit counts of zero; R187: unsigned against signed. -/
theorem test_alu :
    x3 (.add 3 4 5) 0xFFFFFFFFFFFFFFFF 2 = some 1 ∧ x3 (.sub 3 4 5) 1 2 = some 0xFFFFFFFFFFFFFFFF ∧
    x3 (.and 3 4 5) 0xC 0xA = some 8 ∧ x3 (.or 3 4 5) 0xC 0xA = some 0xE ∧ x3 (.xor 3 4 5) 0xC 0xA = some 6 ∧
    x3 (.andn 3 4 5) 0xC 0xA = some 4 ∧ x3 (.shl 3 4 5) 3 65 = some 6 ∧ x3 (.shr 3 4 5) 0x8000000000000000 63 = some 1 ∧
    x3 (.sha 3 4 5) 0x8000000000000000 63 = some 0xFFFFFFFFFFFFFFFF ∧ x3 (.rot 3 4 5) 0x8000000000000001 1 = some 3 ∧
    x3 (.min 3 4 5) 0xFFFFFFFFFFFFFFFF 1 = some 0xFFFFFFFFFFFFFFFF ∧ x3 (.max 3 4 5) 0xFFFFFFFFFFFFFFFF 1 = some 1 ∧
    x3 (.minu 3 4 5) 0xFFFFFFFFFFFFFFFF 1 = some 1 ∧ x3 (.maxu 3 4 5) 0xFFFFFFFFFFFFFFFF 1 = some 0xFFFFFFFFFFFFFFFF ∧
    x3 (.cmp .lt 3 4 5) 0xFFFFFFFFFFFFFFFF 1 = some 1 ∧ x3 (.cmp .ltu 3 4 5) 0xFFFFFFFFFFFFFFFF 1 = some 0 ∧
    x3 (.sel 3 4 5 3) 8 9 = some 8 ∧ x3 (.sel 3 4 5 0) 8 9 = some 9 ∧ x3 (.clz 3 4) 0 0 = some 64 ∧ x3 (.clz 3 4) 1 0 = some 63 ∧
    x3 (.ctz 3 4) 0 0 = some 64 ∧ x3 (.ctz 3 4) 8 0 = some 3 ∧ x3 (.popc 3 4) 0xFF00000000000001 0 = some 9 := by decide

/-- 08 R185, R188 (the worked constant), R189; the table of R190. -/
theorem test_immediates :
    x3 (.addi 3 4 0xFFFF) 0 0 = some 0xFFFFFFFFFFFFFFFF ∧ x3 (.andi 3 4 0xFFFF) 0xFFFFFFFFFFFFFFFF 0 = some 0xFFFF ∧
    x3 (.ori 3 4 0x8000) 1 0 = some 0x8001 ∧ x3 (.xori 3 4 0xFFFF) 0xF 0 = some 0xFFF0 ∧ x3 (.shli 3 4 63) 3 0 = some 0x8000000000000000 ∧
    x3 (.shri 3 4 4) 0xF0 0 = some 0xF ∧ x3 (.shai 3 4 4) 0x8000000000000000 0 = some 0xF800000000000000 ∧
    x3 (.cmpi .lt 3 4 0xFFF) 0xFFFFFFFFFFFFFFFE 0 = some 1 ∧ x3 (.cmpi .ltu 3 4 0xFFF) 0xFFFFFFFFFFFFFFFE 0 = some 1 ∧
    (scp (.lih 3 0xCDEF) (task 0x0123456789AB 0 0)).map (·.hart.x 3) = some 0x0123456789ABCDEF ∧
    x3 (.lea 3 4 5 3 8) 0x1000 2 = some 0x1018 ∧ x3 (.lea 3 4 5 0 0xFF) 0 0 = some 0xFFFFFFFFFFFFFFFF ∧
    x3 (.mul 3 4 5) 0xFFFFFFFFFFFFFFFF 3 = some 0xFFFFFFFFFFFFFFFD ∧
    x3 (.mulh 3 4 5) 0xFFFFFFFFFFFFFFFF 3 = some 0xFFFFFFFFFFFFFFFF ∧
    x3 (.mulhu 3 4 5) 0xFFFFFFFFFFFFFFFF 0xFFFFFFFFFFFFFFFF = some 0xFFFFFFFFFFFFFFFE ∧
    x3 (.div 3 4 5) 7 0 = some 0xFFFFFFFFFFFFFFFF ∧ x3 (.div 3 4 5) 0x8000000000000000 0xFFFFFFFFFFFFFFFF = some 0x8000000000000000 ∧
    x3 (.divu 3 4 5) 7 0 = some 0xFFFFFFFFFFFFFFFF ∧ x3 (.rem 3 4 5) 0xFFFFFFFFFFFFFFF9 2 = some 0xFFFFFFFFFFFFFFFF ∧
    x3 (.remu 3 4 5) 0x8000000000000005 0 = some 0x8000000000000005 := by decide

/-- 06 R148, 08 R191 to R193: the pc, and the link; 17 R326, R317, R321: traps and the return. -/
theorem test_control_flow :
    (scp (.bc .ne 4 5 0xFFD) (task 0 1 2)).map (·.hart.pc) = some 0xFF4 ∧
    (scp (.bc .eq 4 5 0xFFD) (task 0 1 2)).map (·.hart.pc) = some 0x1004 ∧
    (scp (.j 0x3FFFFFF) (task 0 1 2)).map (·.hart.pc) = some 0xFFC ∧
    (scp (.jal 4) (task 0 1 2)).map (fun t => (t.hart.pc, t.hart.x 1)) = some (0x1010, 0x1004) ∧
    (scp (.jr 4) (task 0 0x2003 2)).map (·.hart.pc) = some 0x2000 ∧
    (scp (.jalr 4 4) (task 0 0x2003 2)).map (fun t => (t.hart.pc, t.hart.x 4)) = some (0x2000, 0x1004) ∧
    (scp (.hint 0x12345) (task 0 1 2)).map (·.hart.pc) = some 0x1004 ∧
    (scp (.mark .h) (task 0 1 2)).map (·.hart.marks) = some [(0, .h)] ∧
    (scp (.trap 0x2A) (task 0 1 2)).map (fun t => (t.sup.ecause, t.sup.efpc, t.sup.epc, t.hart.pc)) =
      some (0xAA00, 0x1000, 0x1004, 0) ∧
    (scp (.scall 1) (task 0 1 2)).map (fun t => (t.sup.ecause, t.sup.mode, t.sup.pmode, t.sup.exl)) = some (0x700, true, true, true) ∧
    (scp .eret { task 0 1 2 with sup := { Sup.first 0x4000 with mode := true, exl := true, epc := 0x2000 } }).map
      (fun t => (t.hart.pc, t.sup.mode, t.sup.exl)) = some (0x2000, false, false) := by decide

/-- 03 R77, 08 R195, R197: the SRF, lowest byte first. -/
theorem test_srf :
    (scp (.stf .w 4 5 2) (task 0 0x11223344 6)).map (fun t => (List.range 6).map fun i => srfByte t.srf (7 + i)) =
      some [0, 0x44, 0x33, 0x22, 0x11, 0] ∧
    ((scp (.stf .w 4 5 2) (task 0 0x11228344 6)).bind (scp (.ldf .h true 3 5 2))).map (·.hart.x 3) = some 0xFFFFFFFFFFFF8344 := by
  decide +kernel

/-- 17 R314: STATUS; R312: SVEC without its last six bits. 18 R331: LQCTL's reset value. -/
theorem test_control_registers :
    (scp (.mtc 3 0 0x109) (task 0x4FFF 0 0)).map (·.sup.svec) = some 0x4FC0 ∧
    (scp (.mfc 3 0 0x100) (task 0 0 0)).map (·.hart.x 3) = some 1 ∧ (scp (.mfc 3 0 0x301) (task 9 0 0)).map (·.hart.x 3) = some 4 ∧
    (scp (.mfc 3 0 0x0FF) (task 9 0 0)).map (fun t => wordBits t.sup.ecause 7 0) = some cILLOP := by decide

/-- 02 R40 to R46, R53: conversions of exact values to the formats; a tie rounds to the even neighbour; the largest sums round to
infinity. -/
theorem test_formats :
    amoNew .add 32 0xFFFFFFFF 2 = 1 ∧ amoNew .min 32 0x80000000 1 = 0x80000000 ∧ amoNew .minu 32 0x80000000 1 = 1 ∧
    redNew .fadd32 32 0x3F800000 0x33800000 = 0x3F800000 ∧ redNew .fadd32 32 0x3F800001 0x33800000 = 0x3F800002 ∧
    redNew .fadd32 32 0x7F7FFFFF 0x73800000 = 0x7F800000 ∧ redNew .fadd64 64 0x3FF0000000000000 0x4000000000000000 =
      0x4008000000000000 ∧ redNew .fadd32 32 0x7F800000 0xFF800000 = 0x7FC00000 := by decide

/-! ## Witnesses: states and operands that meet the hypotheses of the statements -/

/-- Does a computation succeed? -/
def ok {ε α : Type} : Except ε α → Bool
  | .ok _ => true
  | .error _ => false

/-- Virtual addresses of address space 0: package memory from 0, the host window from 2^30, pod memory from 2^31; package rank 0 is a
pod member, and the host window begins at 0. -/
def world (t : Task) : State :=
  { (State.reset.setPreg 0x421 (2 ^ 40)).setPreg 0x600 1 with
    tasks := [(0, t)], mem := wrNat (wrNat (loadTables 0 []) 0x200008 8 (0x40000000 + 0x287)) 0x200010 8 (0x80000000 + 0x187) }

/-- A load that has not bound, of four bytes at virtual address 16 into register d. -/
def aLoad (d : Reg) : LoadEntry :=
  { po := 0, kind := .scalar { space := .package, sz := .w, sx := true, d := d, va := 16, pas := [16, 17, 18, 19], pc := 0x1000, got := [] },
    acq := false, rel := false, begun := false }

/-- A store to package memory that has not performed. -/
def aStore : StoreEntry :=
  { po := 0, kind := .store .package 16 [16, 17] [1, 2] 0x1000, acq := false, rel := false, begun := false, atK := false }

def withHart (f : Hart → Hart) : Task := { task 7 8 9 with hart := f (task 7 8 9).hart }

/-- A Stoek program of task 0 whose x3, x4 and x5 hold 7, 8 and 9. -/
def stoek : Stoek := { loadStoek with hart := (task 7 8 9).hart }

def stStoek (p : Stoek) : State := { st { task 7 8 9 with stoeks := [p] } with focus := .stoek 0 0 }

theorem witness_EncodingAndDecodingAgree :
    (Instr.sst 5 63 15 511 true true false 31 0).isWord = true ∧ (Instr.sst 5 63 15 511 true true false 31 0).wellFormed = true ∧
    ok (decode [0x04, 0x28, 0x64, 0x38, 9]) = true := by decide

/-- A bundle with a slot of every kind keeps the rules of its opcodes. -/
theorem witness_BundleCodesAgree :
    BundleLegal ⟨some (.kget true 3 4 5 6), some ⟨.int .vadd 2, 1, 2, 3, 0, true, 2, 0, false⟩, some ⟨.flt .vfma 1, 7, 1, 2, 3, false, 0, 0, false⟩,
      some (.mma .bf16 4 16 24), some (.radv (.ring 0) (some 3) 0), some (.radv (.stream 1) none 16)⟩ ∧
    ok (decodeBundle (0x80004400#32 ++ 0#224)) = true := by
  refine ⟨⟨fun i h => ?_, fun pt kx a h => ?_⟩, by decide +kernel⟩
  · rcases h with h | h <;> cases h <;> decide
  · rcases h with h | h <;> cases h <;> simp

theorem witness_StepRunsTheDecodedInstruction :
    (let s := State.reset.withFetchWord 32 0x04642800
     s.agenda = [] ∧ s.engineTurn = false ∧ s.focus = .scp 0 ∧ s.runs (.scp 0) = true ∧ s.hart? (.scp 0) = some { Hart.empty with pc := 0x1000 } ∧
     (s.task? 0).all (fun t => (t.beforeIssue 0).isNone) = true ∧
     (s.fetchAddrs (s.xctx (.scp 0)) 0x1000).2.toOption = some [0x40001000, 0x40001001, 0x40001002, 0x40001003] ∧ s.ms.ecc = [] ∧
     (decode (rdBytes s.mem [0x40001000, 0x40001001, 0x40001002, 0x40001003])).toOption = some (.add 3 4 5, []) ∧ legalFor (.scp 0) (.add 3 4 5) = true) ∧
    (let s := State.reset.withFetchWord 64 (0xD0000080 + 5 * 2 ^ 32)
     ok (s.fetchAddrs (s.xctx (.scp 0)) 0x1004).2 = true ∧
     (decode (rdBytes s.mem ((addrs 0x40001000 4) ++ (addrs 0x40001004 4)))).toOption = some (.gbar 5, []) ∧ (Instr.gbar 5).isLong = true ∧
     legalFor (.scp 0) (.gbar 5) = true) ∧
    (let s := State.reset.withFetchWord 64 0xD4000100
     s.focus = .stoek 0 0 ∧ s.runs (.stoek 0 0) = true ∧ ok (s.fetchAddrs (s.xctx (.stoek 0 0)) 0x1004).2 = true ∧
     legalFor (.stoek 0 0) .skend = true) ∧
    (let t := withHart fun h => { h with xbad := [(4, 2)] }
     (st t).task? 0 = some t ∧ (4 : Reg) ∈ sources (.add 3 4 5) ∧ tget 0 t.hart.xbad (4 : Reg).toNat = 2) ∧
    (task 7 8 9).hart.xbad = [] ∧ (task 7 8 9).sbad = [] ∧ (task 7 8 9).dbad = [] ∧ (task 7 8 9).rbad = [] := by decide +kernel

theorem witness_UnfetchableAndIllegalWordsTrap :
    (let s := State.reset.withFetchWord 32 0
     s.focus = .scp 0 ∧ (s.task? 0).all (fun t => t.placed && !t.sup.exl && t.hart.pc == 0x1000) = true ∧ (s.fetch (.scp 0) 0x1000).2 = .illop) ∧
    (let s := world { loadTask false with hart := { Hart.empty with pc := 0x4000000000 } }
     (s.task? 0).all (fun t => t.placed && !t.sup.exl && t.hart.pc == 0x4000000000) = true ∧
     (s.fetch (.scp 0) 0x4000000000).2 = .fault (addrFault cPAGE 0x4000000000 false) none) ∧
    (let s := State.reset.withFetchWord 32 0x04642800
     (match (State.fetch { s with ms := { s.ms with ecc := [(0x40001000 / 64, 2)] } } (.scp 0) 0x1000).2 with
      | .fault f (some la) => decide (f.code.toNat = cDATAERR) && decide (la = 0x40001000)
      | _ => false) = true) := by decide +kernel

theorem witness_StepKeepsSoundness :
    let s := State.reset.withFetchWord 32 0x04642800
    sound s ∧ (match step s with
      | .next t => decide ((t.task? 0).map (·.hart.pc) = some 0x1004)
      | _ => false) = true := by
  refine ⟨⟨⟨by decide +kernel, by decide +kernel⟩, (by unfold registersSound; decide +kernel)⟩, by decide +kernel⟩

/-- Executes, of an SCP and of a Stoek program. -/
theorem witness_executes (t : Task) (h : t.placed = true) : Executes (st t) (.scp 0) t.hart ∧ ScpExecutes (st t) 0 t :=
  ⟨⟨rfl, h, rfl⟩, rfl, rfl, h⟩

theorem witness_InterlockedWordsWait :
    Executes (st (withHart fun h => { h with loads := [aLoad 4] })) (.scp 0) { (task 7 8 9).hart with loads := [aLoad 4] } ∧
    ({ (task 7 8 9).hart with loads := [aLoad 4] }).ready [3, 4, 5] = false ∧ ({ (task 7 8 9).hart with loads := [aLoad 4] }).ready [4, 0] = false ∧
    ({ (task 7 8 9).hart with loads := [aLoad 0] }).ready [0, 0] = true ∧ (Instr.stp .d .none 3 4 0).isStoekOp = false ∧
    ({ (task 7 8 9).hart with loads := [aLoad 4] }).ready (sources (.stp .d .none 4 3 0)) = false ∧
    ({ (task 7 8 9).hart with loads := [aLoad 25] }).ready (sources (.krun 3 0 24 8 false 5)) = false ∧
    (24 : Reg).toNat + (8 : BitVec 4).toNat ≤ 32 :=
  ⟨(witness_executes _ (by decide)).1, by decide⟩

/-- The scalar results of a Stoek program (InterlockedWordsWait to BranchesCallsHintsAndMarks), both divisors, both conditions. -/
theorem witness_scalar_words :
    Executes (stStoek stoek) (.stoek 0 0) (task 7 8 9).hart ∧ (task 7 8 9).hart.ready [1, 3, 4, 5] = true ∧ (task 7 8 9).hart.x 5 ≠ 0 ∧
    (task 7 8 9).hart.x 6 = 0 ∧ (∀ n, (8 : Word).getLsbD n = (((task 7 8 9).hart.x 4).getLsbD n && ((task 7 8 9).hart.x 5).getLsbD n)) ∧
    condMeaning .lt ((task 7 8 9).hart.x 4) ((task 7 8 9).hart.x 5) ∧ ¬ condMeaning .geu ((task 7 8 9).hart.x 4) ((task 7 8 9).hart.x 5) := by
  refine ⟨⟨rfl, by decide, rfl⟩, by decide, by decide, by decide, fun n => ?_, by unfold condMeaning; decide, by unfold condMeaning; decide⟩
  rw [← BitVec.getLsbD_and]; rfl

theorem witness_ScalarSrfAccesses :
    (task 7 0x3FFF8 9).hart.ready [3, 4] = true ∧ (task 7 0x3FFF8 9).sup.exl = false ∧
    (((task 7 0x3FFF8 9).hart.x 4 + BitVec.ofInt 64 (0 : BitVec 11).toInt).toNat + szBytes .d ≤ (task 7 8 9).foot * 2 ^ 18) ∧
    (task 7 0x3FFF8 9).inRing (0x3FFF8, 8) = false ∧ (task 7 0x3FFF8 9).srfBusy (0x3FFF8, 8) false = false ∧
    (task 7 0x3FFF8 9).srfBusy (0x3FFF8, 8) true = false ∧
    (task 7 8 9).foot * 2 ^ 18 < ((task 7 0x3FFF8 9).hart.x 4 + BitVec.ofInt 64 (1 : BitVec 12).toInt).toNat + szBytes .d ∧
    ({ task 7 0 9 with rings := [(0, { Ring.none with cfg := true, base := 0, slotsz := 1, nslot := 1, free := 1 })] }).inRing (127, 1) = true := by
  decide +kernel

theorem witness_LoadsAndStoresEnterTheirQueues :
    let s := world { task 7 8 9 with stepm := true }
    (∀ p ∈ [(Space.package, 8), (.host, 2 ^ 30 + 8), (.pod, 2 ^ 31 + 8)],
      ok (s.xlate (s.xctx (.scp 0)) { space := p.1, r := true, w := false, x := false } p.2 8).2 = true ∧
      ok (s.xlate (s.xctx (.scp 0)) { space := p.1, r := false, w := true, x := false } p.2 8).2 = true) ∧
    s.focus = .scp 0 ∧ s.runs (.scp 0) = true ∧ s.apronRoom 32 = true ∧ mergeOk (0x80000000 + 0x187) 8 8 = true ∧
    ok ((stStoek stoek).xlate ((stStoek stoek).xctx (.stoek 0 0)) { space := .package, r := true, w := false, x := false } 8 8).2 = false := by
  decide +kernel

/-- AtomicsQueueAndPerform, at issue: a RED translates too; an address above 2^56; one that is not aligned. -/
theorem witness_atomics_issue :
    let s := world (task 7 8 9)
    ok (s.xlate (s.xctx (.scp 0)) { space := .package, r := false, w := true, x := false } 8 4).2 = true ∧
    ok (s.xlate (s.xctx (.scp 0)) { space := .host, r := true, w := true, x := false } (2 ^ 30 + 4) 4).2 = true ∧
    s.focus = .scp 0 ∧ (s.task? 0).all (·.placed) = true ∧
    (task 7 8 9).hart.x 4 = 8 ∧ (task 7 8 9).sup.exl = false ∧ 2 ^ 56 ≤ ((task 7 0x100000000000000 9).hart.x 4).toNat ∧
    ((task 7 10 9).hart.x 4).toNat % 4 ≠ 0 ∧ ((task 7 12 9).hart.x 4).toNat % 8 ≠ 0 := by decide +kernel

/-- A load of the first two bytes that `aStore` stores and two more of memory. -/
def bindHart : Hart := { (task 7 8 9).hart with loads := [{ aLoad 3 with po := 1 }], stores := [aStore], po := 2 }

/-- LoadsBindTheirBytes: a turn, and an oldest load; a byte of memory, one forwarded from a store, one of the pod. -/
theorem witness_LoadsBindTheirBytes :
    let s := world (withHart fun _ => bindHart)
    let l : ScalarLoad := { space := .package, sz := .w, sx := true, d := 3, va := 16, pas := [16, 17, 18, 19], pc := 0x1000, got := [] }
    s.hart? (.scp 0) = some bindHart ∧ bindHart.findLoad 1 = some ({ aLoad 3 with po := 1 }, l) ∧
    s.loadReady (.scp 0) bindHart { aLoad 3 with po := 1 } l = true ∧ bindHart.loads.head? = some { aLoad 3 with po := 1 } ∧ bindHart.marks = [] ∧
    s.host.poison = [] ∧ s.runs (.scp 0) = true ∧
    BindsByte s bindHart 1 l 16 1 ∧ BindsByte s bindHart 1 l 18 0 ∧ BindsByte s bindHart 1 { l with space := .pod } 18 0 := by
  intro s l
  refine ⟨by decide +kernel, by decide +kernel, by decide +kernel, by decide +kernel, rfl, rfl, by decide +kernel, ?_, ?_, .inl ⟨rfl, by decide +kernel⟩⟩
  · refine .inr (.inl ⟨nofun, [], aStore, [], rfl, ⟨by decide, rfl, 16, [16, 17], [1, 2], 0x1000, [], [(17, 2)], rfl, rfl, by decide⟩, nofun⟩)
  · refine .inr (.inr ⟨nofun, fun x hx c hg => ?_, by decide +kernel⟩)
    obtain ⟨-, -, va, pas, data, pc, a, b, hk, hz, -⟩ := hg
    simp only [bindHart, List.mem_singleton] at hx
    subst hx
    injection hk with _ _ hp hd _
    subst hp hd
    have h := congrArg (fun z => z.map (fun x => x.1)) hz
    simp at h
    have h18 : (18 : Nat) ∈ [16, 17] := h ▸ (by simp)
    exact absurd h18 (by decide)

theorem witness_StoresPerformAndComplete :
    let h : Hart := { (task 7 8 9).hart with stores := [aStore], po := 1 }
    let s := world (withHart fun _ => h)
    s.hart? (.scp 0) = some h ∧ splitStores h.stores = some ([], aStore, []) ∧ s.acceptReady (.scp 0) h [] aStore = true ∧
    (∀ u, s.badUnit u = false) ∧
    (let e : StoreEntry := { aStore with kind := .store .host 16 [16] [1] 0x1000 }
     splitStores [e] = some ([], e, []) ∧ s.acceptReady (.scp 0) { h with stores := [e] } [] e = true) ∧
    ({ aStore with kind := .store .host 16 [16] [1] 0x1000, atK := true }).atK = true ∧ 3 ∈ ({ s.ms with wq := [3] }).wq ∧
    s.rateBusy (channelOf (64 * 3)) = false ∧ ((State.reset.setPreg 0x510 1).startSwitch 0).rateBusy (channelOf (64 * 0)) = true := by
  refine ⟨by decide +kernel, by decide +kernel, by decide +kernel, fun u => ?_, by decide +kernel, rfl, by decide, by decide +kernel, by decide +kernel⟩
  simp [State.badUnit, world, tget, tfind, State.setPreg, State.reset]

/-- AtomicsQueueAndPerform, when they perform: in package and in host memory. -/
theorem witness_AtomicsPerform :
    let e (op : Rmw) (host : Bool) : StoreEntry := { aStore with kind := .rmw op true host 3 1 16 16 0x1000 }
    (∀ op ∈ [Rmw.cas 0, .amo .add, .red .min], ∀ host ∈ [false, true],
      let h : Hart := { (task 7 8 9).hart with stores := [e op host], po := 1 }
      let s := world (withHart fun _ => h)
      s.hart? (.scp 0) = some h ∧ splitStores h.stores = some ([], e op host, []) ∧ s.acceptReady (.scp 0) h [] (e op host) = true ∧
      s.host.poison = [] ∧ s.ms.ecc = []) := by
  decide +kernel

/-- MFC and MTC: gnoum and package registers, the largest number, one that is not assigned, both modes. -/
theorem witness_control_registers :
    gnoumReg 0x000 = true ∧ gnoumReg 0x109 = true ∧ userReg 0x010 = true ∧ userReg 0x101 = false ∧ packageReg 0x301 = true ∧
    packageReg 0x720 = true ∧ assignedReg 0x0FF = false ∧ assignedReg 0x101 = true ∧
    ((task 7 0x1000 9).hart.x 4 + BitVec.ofInt 64 (0 : BitVec 11).toInt).toNat = 4096 ∧ (task 7 8 9).sup.mode = true ∧
    ({ task 7 8 9 with sup := Sup.first 0 }).sup.mode = false ∧ ({ task 7 8 9 with sup := Sup.first 0 }).placed = true ∧
    (plainMask 0x201).isNone = true ∧ PlainBits 0x420 0xFFFFFFFFFF000 ∧ PlainBits 0x33C 0xFFFFFFFFFF000 ∧ OneClearsBits 0x202 0xFFFFFFFFFFFFFFFF ∧
    OneClearsBits 0x33F 0x10000 ∧ OneClearsBits 0x67F 0xFFFFFFFFFFFFFFFF ∧ bits (State.reset.preg 0x720) 31 16 < 24 ∧ State.reset.host.planned = false ∧
    ({ State.reset.host with planned := true }).planned = true := by
  refine ⟨by decide, by decide, by decide, by decide, by decide, by decide, by decide, by decide, by decide, by decide, by decide, by decide, by decide +kernel,
    .inl (by decide), .inr ⟨15, by decide⟩, .inl (by decide), .inr (.inl ⟨15, by decide⟩), .inr (.inr (by decide)), by decide +kernel, rfl, rfl⟩

/-- TrapsEnterAndReturn, ForbiddenWordsAndWritesFault, WaitingWakingAndHalting: both modes, both values of EXL and of PEND; a return to mode U
and to mode S; a task that met a double fault, its stream instructions done and not; a halting task of a launch of two. -/
theorem witness_supervisor :
    (task 7 8 9).sup.exl = false ∧ (task 7 8 9).run.pg = some 0 ∧ ({ task 7 8 9 with sup := { Sup.first 0 with exl := true } }).placed = true ∧
    ({ task 7 8 9 with sup := { (task 7 8 9).sup with pmode := true } }).placed = true ∧ (task 7 8 9).sup.pmode = false ∧
    ({ task 7 8 9 with sup := { (task 7 8 9).sup with pend := true } }).placed = true ∧ (task 7 8 9).sup.pend = false ∧
    (stStoek stoek).runs (.stoek 0 0) = true ∧ ((stStoek stoek).task? 0).bind (·.stoek? 0) = some stoek ∧
    (let t := { task 7 8 9 with halting := true }
     t.seated = true ∧ t.sq = [] ∧ t.hart.loads = [] ∧ t.hart.stores = [] ∧ t.deferred = []) ∧
    (let t := { task 7 8 9 with doubled := true }
     t.halting = false ∧ t.run.pg = some 0 ∧ t.sq = []) ∧
    (st (task 7 8 9)).writePackage 0x341 0 = .bounds ∧ ({ task 7 8 9 with hart := { (task 7 8 9).hart with xs := [] } }).hart.x 3 = 0 := by
  decide +kernel

/-- A launch of two tasks. -/
def aLaunch : Launch :=
  { record := [], queue := 0, asid := 0, gbase := 0, seq := 0, left := 2, ended := 0, unacked := 0, aborted := false, stepm := false, recpa := 0, recIdx := 0 }

def withLaunch (s : State) : State := { s with disp := { s.disp with launches := [(0, aLaunch)] } }

theorem witness_launch_of_a_task :
    let s := withLaunch (st (task 7 8 9))
    tfind s.disp.launches (task 7 8 9).launch = some aLaunch ∧ 2 ≤ aLaunch.left ∧ s.taskOf 0 0 = some 0 ∧ s.taskOf 1 0 = none ∧
    s.task? 0 = some (task 7 8 9) := by decide +kernel

theorem witness_TranslationsAreInvalidated :
    tlbSelOk ((task 7 0x3000 0).hart.x 4) ((task 7 0x3000 0).hart.x 5) = true ∧ tlbSelOk 0 3 = false ∧
    (task 7 8 9).hart.ready [4, 5] = true ∧ (task 7 8 9).hart.stores = [] ∧ aStore.atK = false ∧
    (let s := { st (task 7 8 9) with tlbi := [(0, [tlbSel 0x3000 0, tlbSel 0 2])], tlb := [{ asid := 0, va := 0x3000, size := 4096, pte := 0x40000007, level := none },
                                { asid := 0, va := 0, size := 2 ^ 30, pte := 0x41001001, level := some 1 }] }
     ((s.removeEntries 0).selectors 0).any (s.removeEntries 0).syncWaits = false ∧ (s.removeEntries 0).tlb = [] ∧
     (let x := withHart fun h => { h with stores := [aStore] }
      let p := { s with tasks := [(0, x)], tlb := [{ asid := 0, va := 0, size := 4096, pte := 0x40000007, level := none }],
                        tlbi := [(0, [tlbSel 0 0])] }
      ((p.removeEntries 0).selectors 0).any (p.removeEntries 0).syncWaits = true)) := by decide +kernel

/-- A queued instruction of task 0 with tag 0. -/
def queued (i : Instr) (ops : List Word) : QInstr :=
  { tag := 0, ins := i, pc := 0x1000, po := 0, modeS := true, ops := ops, blk := [], started := false, running := false, entered := false, begun := false,
    ended := false, asked := 0, resume := 0, count := 0, desc := Desc.invalid, descs := [], pins := [], resv := 0, fault := none,
    taken := false, got := [] }

def withQueue (q : QInstr) : Task := { task 7 8 9 with sq := [q], nextTag := 1 }

theorem witness_LateFaultsAreTaken :
    (let t := { withQueue { queued (.tdset 0 1 6) [] with fault := some (plainFault cBOUNDS) } with sup := Sup.first 0 }
     t.pendingFault.isSome = true ∧ t.seated = true ∧ t.sup.mode = false ∧ t.sup.exl = false) ∧
    (let t := { task 7 8 9 with deferred := [(addrFault cDATAERR 16 false, 0x1000), (addrFault cPEERDEAD 32 false, 0x1004)] }
     t.scpOn = true ∧ t.sup.exl = false) := by decide +kernel

/-- StreamInstructionsAreQueued, KRUN among them: room, no room; a block that is legal, not aligned, past the footprint, and
in a ring; arguments up to x31 and past it. -/
theorem witness_stream_issue :
    HoldsRegisters (.sga 3 9 12 3 false false 4 5) 3 4 5 [4, 5] ∧ HoldsRegisters (.tdset 3 1 6) 3 0 0 [] ∧
    (task 7 8 9).hart.ready [3, 4, 5] = true ∧ (task 7 8 9).sq.length < 64 ∧ 64 ≤ ({ task 7 8 9 with sq := List.replicate 64 (queued .skend []) }).sq.length ∧
    (task 7 8 9).hart.ready ((3 : Reg) :: 5 :: (List.range 8).map (fun i => (24 : Reg) + BitVec.ofNat 5 i)) = true ∧ (24 : Reg).toNat + (8 : BitVec 4).toNat ≤ 32 ∧
    32 < (25 : Reg).toNat + (8 : BitVec 4).toNat ∧ 0x3FF80 % 128 = 0 ∧ 0x3FF80 + 128 ≤ (task 7 8 9).foot * 2 ^ 18 ∧
    (task 7 8 9).inRing (0x3FF80, 128) = false ∧ (task 7 8 9).srfBusy (0x3FF80, 128) false = false ∧ 64 % 128 ≠ 0 ∧
    (task 7 8 9).foot * 2 ^ 18 < 0x40000 + 128 := by
  refine ⟨by simp [HoldsRegisters], by simp [HoldsRegisters], ?_⟩
  decide +kernel

theorem witness_ResultsAtIssue :
    (∀ q ∈ (withQueue (queued (.tdset 0 1 6) [])).sq, setsDesc 2 q.ins = false) ∧ (∀ q ∈ (withQueue (queued (.ringi 0 1 6 2 0) [])).sq, ringiOf q.ins ≠ some 0) ∧
    ((task 7 8 9).tag 9).status.getLsbD 22 = true ∧
    (({ task 7 8 9 with tags := [(9, { TagInfo.fresh with status := 0 })] }).tag 9).status.getLsbD 22 = false ∧ (task 7 8 9).sq = [] ∧
    (withQueue (queued .skend [])).sq ≠ [] ∧ Desc.invalid.valid = false ∧ ({ Desc.invalid with valid := true }).valid = true ∧
    (let r : Ring := { Ring.none with cfg := true, nslot := 256, free := 256, slotsz := 1 }
     r.filled < 2 ^ 9 ∧ r.free < 2 ^ 9 ∧ r.head < 2 ^ 8 ∧ r.tail < 2 ^ 8 ∧ r.nslot < 2 ^ 9) := by decide +kernel

/-- ResultsAtIssue: STKCAN of no STKRUN, of one that waits, and of a running program. -/
theorem witness_stkcan :
    (task 7 8 9).stkrunOf 8 = none ∧ ((withQueue (queued (.stkrun 3 1 4 5) [])).stkrunOf 0).isSome = true ∧ (withQueue (queued (.stkrun 3 1 4 5) [])).stoek? 0 = none ∧
    (let t := { withQueue (queued (.stkrun 3 1 4 5) []) with stoeks := [stoek] }
     (t.stkrunOf 0).isSome = true ∧ t.stoek? 0 = some stoek) ∧ stoek.ending = .running := by decide +kernel

/-- GroupsAndBarriers: admitted or not, a member or not, four groups; an arrival owed and released or not; alone, with another member, and
with a member that is saved while it waits; older accesses. -/
theorem witness_GroupsAndBarriers :
    (task 7 8 9).gpermit.getLsbD 5 = true ∧ (task 7 8 9).inGroup 5 = false ∧ (task 7 8 9).groups.length < 4 ∧
    ({ task 7 8 9 with gpermit := 1 }).gpermit.getLsbD 5 = false ∧
    (let t := { task 7 8 9 with groups := [(1, false), (2, false), (3, false), (4, false)] }
     t.inGroup 5 = false ∧ 4 ≤ t.groups.length ∧ t.inGroup 4 = true ∧ (4, t.hart.pc) ∉ t.owed ∧ t.drainedK = true) ∧
    (let t := { task 7 8 9 with groups := [(5, false), (6, true)], owed := [(5, 0x1000), (6, 0x1000), (7, 0x2000)] }
     t.inGroup 5 = true ∧ (5, t.hart.pc) ∈ t.owed ∧ (5, true) ∉ t.groups ∧ (6, t.hart.pc) ∈ t.owed ∧ (6, true) ∈ t.groups ∧ (7, t.hart.pc) ∉ t.owed) ∧
    ({ task 7 8 9 with hart := { (task 7 8 9).hart with stores := [aStore], po := 1 } }).drainedK = false ∧
    (let t1 := { task 7 8 9 with groups := [(5, true)], owed := [(5, 0x1000)], gbarWait := some 5 }
     (((st (task 7 8 9)).putTask 0 t1).members 5).all id = true ∧
     ((({ st (task 7 8 9) with tasks := [(0, task 7 8 9), (1, { t1 with run := .ready (some 0) })] }).putTask 0 t1).members 5).all id = true ∧
     ((({ st (task 7 8 9) with tasks := [(0, task 7 8 9), (1, { task 7 8 9 with groups := [(5, false)] })] }).putTask 0 t1).members 5).all id = false) := by
  decide +kernel

theorem witness_StepInstructionsArrive :
    (task 7 8 9).stepm = false ∧ ({ task 7 8 9 with stepm := true }).arrived = false ∧ ({ task 7 8 9 with stepm := true }).drainedK = true ∧
    ({ task 7 8 9 with stepm := true }).stepOwed = false ∧ ({ task 7 8 9 with stepm := true, stepOwed := true }).placed = true ∧
    ({ task 7 8 9 with stepm := true, arrived := true }).placed = true ∧
    ({ task 7 8 9 with stepm := true, hart := { (task 7 8 9).hart with stores := [aStore], po := 1 } }).drainedK = false := by decide +kernel

/-- A task whose SRF holds at byte 768 the image of a one-dimensional descriptor of 16 bytes in package memory (R86), as its
descriptor 1 does. -/
def withImage (q : QInstr) : Task :=
  { withQueue q with srf := [(6, BitVec.ofNat 1024 (0x0600000000000000 + 1 * 2 ^ 64 + 16 * 2 ^ 120))],
                     descs := [(1, { image := BitVec.ofNat 512 (0x0600000000000000 + 1 * 2 ^ 64 + 16 * 2 ^ 120), orgs := [], valid := true })] }

/-- QueuedInstructionsStart and DescriptorsRingsAndCopies: each of the five instructions, and a TDSET whose image is illegal. -/
theorem witness_queued_instructions :
    (∀ i ∈ [Instr.tdset 3 1 6, .tdmov 3 1 22 4, .ringi 3 2 4 4 1, .ringi 3 2 4 0 0, .scpy 3 false false 0 2 false false 4, .krun 3 64 4 0 false 5],
      let q := queued i [128]
      let t := withImage q
      t.queued? 0 = some q ∧ t.onChip = true ∧ q.fault = none ∧ (st t).mayLeave t q = true) ∧
    ok ((queued (.tdset 3 1 6) []).newDesc (withImage (queued (.tdset 3 1 6) []))) = true ∧
    ok ((queued (.tdmov 3 1 22 4) [5]).newDesc (withImage (queued (.tdmov 3 1 22 4) [5]))) = true ∧
    ok ((queued (.ringi 3 2 4 4 1) [128]).newRing (withImage (queued (.ringi 3 2 4 4 1) [128]))) = true ∧
    ok ((queued (.scpy 3 false false 0 2 false false 4) [128]).scpyCheck (withImage (queued .skend []))) = true ∧
    ok ((queued (.krun 3 64 4 0 false 5) []).krunCheck (withImage (queued .skend []))) = true ∧
    ok ((queued (.tdset 3 1 0x7FFF) []).newDesc (withImage (queued .skend []))) = false := by decide +kernel

def aRing (b f e : Nat) : Ring := { Ring.none with cfg := true, base := b, slotsz := 1, nslot := 2, filled := f, free := e, tail := f % 2 }

/-- DescriptorsRingsAndCopies: SCPY between rings and on plain SRF; TDMOV of an origin and of a size. -/
theorem witness_SrfCopiesMoveTheirBytes :
    (let q := { queued (.scpy 3 false false 1 2 true true 4) [256] with started := true, running := true }
     let t := { withQueue q with rings := [(1, aRing 0 1 1), (2, aRing 256 0 2)] }
     t.queued? 0 = some q ∧ t.onChip = true ∧ q.running = true ∧ q.ended = false ∧ (t.ring 1).filled ≠ 0 ∧ (t.ring 2).free ≠ 0 ∧
     (t.ring 1).eosAt 0 = false) ∧
    (let q := { queued (.scpy 3 false false 0 2 false false 4) [256] with started := true, running := true }
     (withQueue q).queued? 0 = some q ∧ q.running = true ∧ q.fault = none) ∧
    (∀ f ∈ [8, 22], let q := { queued (.tdmov 3 1 f 4) [5] with started := true, running := true }
     (withImage q).queued? 0 = some q ∧ f.toNat ≤ 28 ∧ ok (q.newDesc (withImage q)) = true) := by decide +kernel

/-- A running stream instruction with its descriptor. -/
def moving (i : Instr) (ops : List Word) (d : Desc) : QInstr :=
  { queued i ops with started := true, running := true, entered := true, desc := d }

/-- Its task, with the load and the store entry of the instruction. -/
def movingTask (q : QInstr) : Task :=
  { withQueue q with hart := { (task 7 8 9).hart with
      loads := [{ po := 0, kind := .stream 0, acq := false, rel := false, begun := true }],
      stores := [{ po := 0, kind := .stream 0, acq := false, rel := false, begun := false, atK := false }], po := 1 } }

/-- The descriptor of `withImage` in another address space and at another base. -/
def lineDesc (space base : Nat) : Desc :=
  { image := BitVec.ofNat 512 (0x0600000000000000 + space * 2 ^ 60 + base + 1 * 2 ^ 64 + 16 * 2 ^ 120), orgs := [], valid := true }

/-- Rows of two elements. -/
def smallRows (fmt : Nat) : Desc :=
  { image := BitVec.ofNat 512 (fmt * 2 ^ 56 + 2 * 2 ^ 64 + 2 * 2 ^ 120 + 16 * 2 ^ 176 + 32 * 2 ^ 200), orgs := [], valid := true }

/-- A matrix of i8 for NBMV, its rows 256 bytes apart. -/
def nbmvDesc : Desc :=
  { image := BitVec.ofNat 512 (6 * 2 ^ 56 + 2 * 2 ^ 64 + 2 * 2 ^ 120 + 16 * 2 ^ 176 + 256 * 2 ^ 200), orgs := [], valid := true }

/-- StreamAt for the tasks of these tests. -/
def streamAt (q : QInstr) : Bool :=
  let t := movingTask q
  t.onChip && (t.queued? 0 == some q) && q.fault.isNone && q.running && t.loadBegun 0 && t.storeTurn 0 (q.desc.space == .host) && decide ((world t).task? 0 = some t)

/-- Loads and stores that can all be made. -/
def canLoad (q : QInstr) : Bool :=
  let t := movingTask q
  match q.geo with
  | some g => g.load && ok (State.missingRecords t q g (q.restRecs g) (world t)).2 && ok ((world t).loadRecord t q g 0).2
  | none => false

def canStore (q : QInstr) : Bool :=
  let t := movingTask q
  match q.geo with
  | some g =>
    let z := State.gatherRecords t q g (q.restRecs g) (world t)
    !g.load && z.2.2.2.isNone && !z.2.1.isEmpty && z.1.canAccept (writeUnits z.2.1)
  | none => false

/-- StreamsMoveTheirBytes, ElementsAndTheirPlaces: loads and stores of a window and of rows, package, pod and host. -/
theorem witness_streams :
    (∀ q ∈ [moving (.sld 3 1 64 0 false false false false 4 5) [2, 0] (lineDesc 0 0), moving (.sga 3 1 64 0 false false 4 5) [768, 1] (smallRows 1)],
      streamAt q = true ∧ canLoad q = true ∧ q.ended = false) ∧
    (∀ q ∈ [moving (.sst 3 1 64 0 false false false 4 5) [2, 0] (lineDesc 0 0), moving (.ssc .store 3 1 64 0 false false 4 5) [768, 1] (smallRows 1),
        moving (.sst 3 1 64 0 false false true 4 5) [2, 0] (lineDesc 2 0x40000000)],
      streamAt q = true ∧ canStore q = true) ∧
    (let q := moving (.sst 3 1 64 0 false false false 4 5) [2, 0] (lineDesc 1 0x80000000)
     let t := { movingTask q with stepm := true }
     q.desc.space = .pod ∧ (match q.geo with
       | some g =>
         let all := (List.range g.st.n).flatMap (fun r => q.items g t.srf r (getRec t.srf g.st r))
         (State.podMissing (t.qctx q) q.got all (world t)).2.isEmpty && decide ((State.podBytes (t.qctx q) q.got all (world t)).1.task? 0 = some t) &&
           decide ((recRuns (State.podBytes (t.qctx q) q.got all (world t)).2).length = 1) && all.all (fun x => x.mask == 0xFF)
       | none => false) = true) := by decide +kernel

/-- StreamsMoveTheirBytes: a reducing SSC of i32 elements; the rings of an SLD and of an SST, with and without a slot, at the end of the
stream and past the last record; an instruction that has done its last. -/
theorem witness_streams_more :
    (let q := moving (.ssc .add 3 1 64 0 false false 4 5) [768, 1] (smallRows 10)
     let t := movingTask q
     streamAt q = true ∧ (match q.geo with
       | some g =>
         let all := (List.range g.st.n).flatMap (fun r => q.items g t.srf r (getRec t.srf g.st r))
         (g.red.bind (fun op => sscRed op q.desc.fmt)).isSome && (world t).canAccept ((world t).reduceUnits (t.qctx q) all) &&
           all.all (fun x => decide (x.data.length = 4) &&
             (match ((world t).xlate (t.qctx q) { space := .package, r := false, w := true, x := false } x.va 4).2 with
              | .ok m => decide (m.2.length = 4)
              | .error _ => false))
       | none => false) = true) ∧
    (∀ q ∈ [moving (.sld 3 1 1 0 true true false false 4 5) [2, 0] (lineDesc 0 0), moving (.sst 3 1 1 0 true true false 4 5) [2, 0] (lineDesc 0 0)],
      ∀ r ∈ [aRing 0 1 1, aRing 0 0 2, aRing 0 2 0, { aRing 0 1 1 with eos := 1 }],
        let t := { movingTask q with rings := [(1, r)] }
        t.queued? 0 = some q ∧ (q.geo.map (·.ring)) = some (some 1) ∧ q.ended = false ∧ (match q.geo with
          | some g => (!g.load || (ok (State.missingRecords t q g [0] (world t)).2 && ok ((world t).loadRecord t q g 0).2)) && decide (0 < g.st.n) &&
              (g.load || (State.gather (t.qctx q) .package (q.items g t.srf 0 (srfBytes t.srf (r.slot r.head) g.recBytes)) (world t)).2.2.isNone)
          | none => false) = true) ∧
    (aRing 0 0 2).filled = 0 ∧ (aRing 0 2 0).free = 0 ∧ ({ aRing 0 1 1 with eos := 1 }).eosAt 0 = true ∧
    (aRing 0 1 1).eosAt 0 = false ∧
    (let q := { moving (.sst 3 1 64 0 false false false 4 5) [2, 0] (lineDesc 2 0x40000000) with ended := true }
     ((movingTask q).storePending 0 = true ∧ ({ movingTask q with hart := (task 7 8 9).hart }).storePending 0 = false)) := by decide +kernel

/-- DescentsAndProgramsComplete: the rows and the vector of an NBMV, and an STKRUN whose program has ended in each way. -/
theorem witness_nbmv_and_programs :
    (let q := moving (.nbmv 3 1 64 true 4 5) [0, 2] nbmvDesc
     let t := movingTask q
     streamAt q = true ∧ ok (State.readUnits (t.qctx q) (t.who q) .package [] 1 [0] ((List.range (q.desc.size 0)).map (fun j => some j)) (world t)).2 = true) ∧
    (∀ e ∈ [StoekEnd.skend, .cancel, .fault 4 0x1000 (some 8)],
      let q := moving (.stkrun 3 1 4 5) [0, 0] Desc.invalid
      let p := { stoek with ending := e }
      let t := { movingTask q with stoeks := [p] }
      t.queued? 0 = some q ∧ isStkrun q.ins = true ∧ t.stoek? 0 = some p ∧ p.ending ≠ .running ∧ p.hart.stores = [] ∧ p.hart.loads = [] ∧
      p.delivery = []) := by decide +kernel

/-- A descent of the worked example of 13: the tree (bf16, two levels, rows of two elements) at address 0, X at SRF line 1, the block at
line 0, ID, PERM, RUN and MARGIN at lines 20 to 23. -/
def treeDesc : Desc :=
  { image := BitVec.ofNat 512 (3 * 2 ^ 56 + 2 ^ 62 + 3 * 2 ^ 64 + 2 * 2 ^ 120 + 2 * 2 ^ 176 + 8 * 2 ^ 200 + 1 * 2 ^ 232), orgs := [], valid := true }

def descentSrf : Tbl Line :=
  ([[0x4040, 0x3F80], [0, 0x4000], [0x40A0, 0x40A0], [0x3F80, 0x4080], [0x4000, 0], [0xBF80, 0xBF80]].zip (List.range 6)).foldl
    (fun m x => srfWrite m (128 + 128 * x.2) (x.1.flatMap (leBytes 2))) (srfWrite [] 0 ([1, 20, 21, 22, 23, 0].flatMap (leBytes 8)))

def descent : QInstr := queued (.descend 20 5 0 0 0 true true false 6 7) [0, 6]

def withDescent (q : QInstr) : Task := { movingTask q with descs := [(5, treeDesc)], srf := descentSrf }

def descentState (t : Task) : State :=
  let s := world t
  { s with mem := wrBytes s.mem (addrs 0x40000000 24) ([0x3F80, 0xBF80, 0, 0, 0x3F80, 0x3F80, 0, 0xC080, 0, 0x3F80, 0, 0xC000].flatMap (leBytes 2)) }

/-- The worked descent of 13, level 0: PERM, RUN, MARGIN and the path words. -/
theorem test_descent :
    (match exec (.streamComplete 0 0) (descentState (withDescent { descent with started := true, running := true, entered := true, desc := treeDesc })) with
     | .next s => (s.task? 0).map (fun (u : Task) => ((List.range 6).map (fun i => srfNat u.srf (21 * 128 + 2 * i) 2),
         (List.range 3).map (fun i => srfNat u.srf (22 * 128 + 8 * i) 8), (List.range 6).map (fun i => srfNat u.srf (23 * 128 + 4 * i) 4),
         (List.range 6).map (fun c => elem (elem (tget 0 u.dregs 0).toNat 1024 c) 32 0)))
     | _ => none) =
    some ([1, 3, 0, 2, 4, 5], [2 + 2 ^ 16 + 6 * 2 ^ 32, 1 + 2 * 2 ^ 48, 2 + 2 * 2 ^ 32 + 4 * 2 ^ 48],
      [0x40000000, 0xC0000000, 0, 0xC0400000, 0x40000000, 0], [1, 0, 1, 0, 1, 1]) := by decide +kernel

/-- DescentsAndProgramsComplete: its check, its node and bias. -/
theorem witness_descent :
    let q := { descent with started := true, running := true, entered := true, desc := treeDesc }
    let t := withDescent q
    let s := descentState t
    t.queued? 0 = some q ∧ t.loadBegun 0 = true ∧ s.asked 0 0 = false ∧ q.desc.space = .package ∧ (match q.descendOp with
      | some o => decide (o.l0 = 0) && decide (o.l1 = 0) && !o.lf && o.pt && ok (q.descendCheck t o) &&
          ok (s.descendProbe t q o).2 && ok (s.readTree t q (q.desc.nodeVa 0) q.desc.rowBytes q.desc.esize).2 &&
          ok ((s.readTree t q (q.desc.nodeVa 0) q.desc.rowBytes q.desc.esize).1.readTree t q ((q.desc.nodeVa 0 + q.desc.biasOff) % 2 ^ 64) 4 4).2
      | none => false) = true := by decide +kernel

/-- A pod store whose probe succeeds, and one of an address that no entry maps. -/
def podStore (base : Nat) : Task :=
  { withQueue (queued (.sst 3 1 64 0 false false false 4 5) [2, 0]) with stepm := true, descs := [(1, lineDesc 1 base)] }

/-- QueuedInstructionsStart: an instruction that leaves the queue, and one that had left it; checks that pass and fail; a probe that
succeeds and one that fails; a program that is granted a core, and one for which none is free. -/
theorem witness_starts :
    (let q := queued (.sst 3 1 64 0 false false false 4 5) [2, 0]
     let q0 := { q with started := true }
     ∀ base ∈ [0x80000000, 0x9000000000],
       let t := podStore base
       let t0 := t.leave q0
       let s0 := State.putTask { world t with disp := { (world t).disp with readySeq := 1 } } 0 t0
       t.clean ∧ t.queued? 0 = some q ∧ t.onChip = true ∧ StartsFrom (world t) 0 t q s0 t0 q0 ∧
       (match QInstr.geo { q0 with desc := lineDesc 1 base } with
        | some g => QInstr.probes { q0 with desc := lineDesc 1 base } g && ok (QInstr.moveCheck { q0 with desc := lineDesc 1 base } t0 g) &&
            (ok (s0.probe t0 { q0 with desc := lineDesc 1 base } g).2 == decide (base = 0x80000000)) &&
            decide (((s0.probe t0 { q0 with desc := lineDesc 1 base } g).1.task? 0) = some t0)
        | none => false) = true ∧ t0.hart.marks = []) ∧
    (let q := { queued (.stkrun 3 1 4 5) [0x1000, 7] with started := true }
     let t := { withQueue q with rings := [(1, aRing 256 0 2)] }
     StartsFrom (world t) 0 t q (world t) t q ∧ (world t).granted t q = true ∧ ((world t).granted { t with stoeks := [stoek, stoek, stoek, stoek] } q) = false ∧
     (0x1000 : Word).toNat % 4 = 0 ∧ (2 : Word).toNat % 4 ≠ 0 ∧ (t.ring 1).cfg = true ∧ (t.ring 1).slotsz ≤ 64 ∧ (t.ring 2).cfg = false) ∧
    (let q := moving (.sld 3 1 64 0 false false false false 4 5) [2, 0] (lineDesc 0 0)
     let t := movingTask q
     hasLoadEntry q.ins = true ∧ (t.hart.streamLoadTurn 0 && t.hart.mayGo t.streamPos q.po false .h) = true) ∧
    ok ((queued (.nbmv 3 1 64 true 4 5) [0, 2]).nbmvCheck (task 7 8 9) nbmvDesc) = true := by
  refine ⟨?_, ?_, by decide +kernel, by decide +kernel⟩
  · intro q q0 base hb
    refine ⟨?_, ?_, ?_, .inl ⟨rfl, ?_, rfl, rfl, rfl⟩, ?_, ?_⟩ <;> (simp only [List.mem_cons, List.not_mem_nil, or_false] at hb; rcases hb with rfl | rfl) <;>
      first
        | exact ⟨rfl, rfl, rfl, rfl⟩
        | decide +kernel
  · refine ⟨.inr ⟨rfl, rfl, by decide +kernel, rfl, rfl, rfl⟩, by decide +kernel, by decide +kernel, by decide +kernel, by decide +kernel, by decide +kernel, by decide +kernel, by decide +kernel⟩

/-- A kernel that stands at bundle 0. -/
def aKernel : Kernel :=
  { tag := 0, pc := 0, t5trap := false, count := 0, binds := [], cons := 0, prod := 0, k := [], q := [], v := [], p := [], m := [], bench := [],
    loops := [], flags := ⟨false, false, false, false⟩, g := [], seen := [], inflight := [], occV0 := 0, occV1 := 0, occM := 0, loopWait := none, entry := [], vbad := [], mbad := [], bbad := [] }

/-- Task 0 whose KRUN runs a kernel. -/
def kernTask (k : Kernel) : Task := { withQueue { queued (.krun 3 0 4 0 false 5) [] with started := true, running := true } with kern := some k }

/-- The plan of a bundle. -/
def planOf (k : Kernel) (t : Task) (b : Bundle) : Option BPlan := (k.planBundle t b).toOption

/-- KernelBundlesIssue: a code that is no bundle, a bundle that fails a check (a vector unit that is occupied), KEND, a bundle with no slot,
at bundle 0 and at the last, and one that waits for a ring slot. -/
theorem witness_KernelBundlesIssue :
    (let t := kernTask aKernel
     (st t).task? 0 = some t ∧ t.kern = some aKernel ∧ t.ksaved = false ∧ t.run = .placed 0 ∧ aKernel.loopWait = none ∧
     decodeBundle 1 = .error .reservedField ∧ ok (decodeBundle 0) = true ∧ t.hart.xbad = [] ∧ t.sbad = [] ∧ t.dbad = [] ∧ t.rbad = [] ∧
     collides [] aKernel.inflight [] = false) ∧
    (let k := { aKernel with occV0 := 2 }
     k.planBundle (kernTask k) ⟨none, some ⟨.int .vadd 2, 1, 2, 3, 0, false, 0, 0, false⟩, none, none, none, none⟩ =
       .error { code := cILLBND, kcode := 0 }) ∧
    (∀ k ∈ [aKernel, { aKernel with pc := 8191 }],
      (planOf k (kernTask k) ⟨none, none, none, none, none, none⟩).any (fun p => p.c0.moves.isEmpty && p.c1.moves.isEmpty && p.u.loop.isNone &&
        p.c0.waits.isEmpty && p.c1.waits.isEmpty && p.u.wait.isEmpty && !p.u.ends && p.u.branch.isNone) = true) ∧
    (planOf aKernel (kernTask aKernel) ⟨some .kend, none, none, none, none, none⟩).any (fun p => p.u.ends) = true ∧
    (let k := { aKernel with cons := 2 }
     let t := { kernTask k with rings := [(1, aRing 0 0 2)] }
     (planOf k t ⟨none, none, none, none, some (.rdr 0 (.ring 1 0) none 0), none⟩).any (fun p => p.c0.waits.any (fun w => !w.ok t)) = true) := by
  decide +kernel

/-- A kernel with bindings, registers and predicates: k5 is 3, k6 is 0, p1 full and p2 mixed; streams 0 to load and 1 to store; rings 1 to
consume and 2 to produce. -/
def fullKernel : Kernel :=
  { aKernel with k := [(5, 3)], p := [(1, BitVec.allOnes 2048), (2, 1)], cons := 2, prod := 4,
                 binds := [{ line := 8, size := 1, count := 64, kind := 1 }, { line := 80, size := 1, count := 64, kind := 2 }] }

/-- Its task: ring 1 with one slot filled, ring 2 with both free, of 16 lines each. -/
def fullTask : Task :=
  { kernTask fullKernel with rings := [(1, { aRing 0x20000 1 1 with slotsz := 16 }), (2, { aRing 0x21000 0 2 with slotsz := 16 })] }

def uSlot (u : UOp) : Bundle := ⟨some u, none, none, none, none, none⟩

/-- Is a bundle planned, and are its waits satisfied? -/
def plans (b : Bundle) : Bool :=
  (planOf fullKernel fullTask b).any (fun p => (p.u.wait ++ p.c0.waits ++ p.c1.waits).all (fun w => w.ok fullTask))

/-- UniformSlotsSteer: a plan for each kind of slot; KFLT and a branch on which the elements disagree. -/
theorem witness_uniform_slots :
    (∀ u ∈ [UOp.kadd 1 2 3, .ksub 1 2 3, .kand 1 2 3, .kor 1 2 3, .kxor 1 2 3, .kmul 1 2 3, .kshl 1 2 3, .kshr true 1 2 3, .kcmp .lt 1 2 3 (some 0),
        .ksel 1 0 2 3, .kmovi 1 0xFFFF, .kmoviSh 1 0xFFFF, .kget true 1 2 15 30, .vote .uni 2 0 2 (some 1), .bru .always 40, .bru (.nz 5) 40,
        .bru (.np 2 1) 40, .loop (some 1) 5 14, .loopes none 1 14, .kend], plans (uSlot u) = true) ∧
    fullKernel.planBundle fullTask (uSlot (.kflt 7)) = .error { code := cKFLT, kcode := 7 } ∧
    fullKernel.planBundle fullTask (uSlot (.bru (.p 0 2) 40)) = .error { code := cNUBR, kcode := 0 } := by decide +kernel

/-- The loops of a step: entered, passed, gone round, ended, and waiting for a slot. -/
theorem witness_loops :
    (∀ u ∈ [UOp.loop (some 1) 5 14, .looprp 1 6 0 14, .loopes none 1 14],
      (planOf { fullKernel with binds := [{ line := 8, size := 1, count := 64, kind := 1 }] } { fullTask with srf := [(8, 5 * 2 ^ 32)] } (uSlot u)).any (fun p =>
        p.u.loop.isSome && !collides p.flying [] (fullKernel.phantoms p.u (p.u.turn fullTask)) && (match p.u.turn fullTask with | .enter _ => true | _ => false)) = true) ∧
    (∀ u ∈ [UOp.loop (some 1) 6 14, .looprp 1 6 0 14], (planOf fullKernel fullTask (uSlot u)).any (fun p =>
      match p.u.loop with | some l => l.kind = .counted 0 || l.kind = .ptr 0 0 | none => false) = true) ∧
    (let e : LoopEntry := { start := 0, last := 0, kind := .counted 3, iter := 0, kd := some 1 }
     ∀ x ∈ [e, { e with iter := 2 }, { e with kind := .eos 1 }, { e with kind := .eos 2 }], plans (uSlot .nop) = true ∧ x.last = fullKernel.pc) ∧
    (fullTask.ring 1).filled ≠ 0 ∧ (fullTask.ring 1).eosAt 0 = false ∧ (fullTask.ring 2).filled = 0 ∧
    ({ aRing 0x20000 1 1 with eos := 1 }).eosAt 0 = true ∧
    decodeBundle (encodeBundle (uSlot .nop)) = .ok (uSlot .nop) ∧ decodeBundle (encodeBundle (uSlot (.bru .always 40))) = .ok (uSlot (.bru .always 40)) ∧
    decodeBundle (encodeBundle (uSlot (.loop (some 1) 5 14))) = .ok (uSlot (.loop (some 1) 5 14)) := by decide +kernel

def vSlot (i : VInstr) : Bundle := ⟨none, some i, none, none, none, none⟩

/-- VectorSlotsCompute: a plan for each kind of operation, at an end of the format numbers. -/
theorem witness_vector_slots :
    (∀ o ∈ [IntOp.vadd, .vsub, .vmul, .vmulh, .vmad, .vmin, .vmax, .vabs, .vand, .vor, .vxor, .vshl, .vshr, .vsha, .vcmp, .vsel, .vmov, .vperm, .vshf],
      plans (vSlot ⟨.int o 2, 6, 1, 2, 3, false, 0, 0, false⟩) = true) ∧
    plans (vSlot ⟨.int .vred 3, 6, 1, 2, 2, true, 1, 0, true⟩) = true ∧
    (∀ o ∈ [FltOp.vfadd, .vfsub, .vfmul, .vfma, .vfmin, .vfmax, .vfcmp, .vfrcp, .vfrsq, .vfexp2, .vflog2, .vfclp],
      plans (vSlot ⟨.flt o 1, 6, 1, 2, 3, false, 0, 0, false⟩) = true) ∧
    plans (vSlot ⟨.flt .vfsgn 3, 6, 1, 2, 2, false, 0, 0, false⟩) = true ∧
    (∀ i ∈ [(⟨.vcvt, 8, 4, 1, 0x13, false, 0, 0, false⟩ : VInstr), ⟨.vcvt, 8, 4, 1, 0x31, false, 0, 3, false⟩, ⟨.vdqbs, 8, 4, 5, 0, false, 0, 0, false⟩,
        ⟨.vunt, 8, 4, 4, 0, false, 0, 0, false⟩, ⟨.vpack, 8, 4, 5, 1, false, 0, 0, false⟩, ⟨.vunpk, 8, 4, 1, 5, false, 0, 0, false⟩,
        ⟨.vunpk, 8, 4, 1, 0, false, 0, 0, false⟩, ⟨.plog, 3, 1, 2, 3, false, 0, 0, false⟩, ⟨.pmov, 3, 5, 5, 21, false, 0, 0, false⟩,
        ⟨.nchild, 4, 4, 2, 0, false, 0, 0, true⟩, ⟨.ppush, 1, 5, 2, 0, false, 0, 0, false⟩, ⟨.ptrd, 6, 0, 3, 2, false, 0, 0, false⟩],
      plans (vSlot i) = true) ∧
    FormatOf fp32 0x7F7FFFFF ∧ FormatOf e4m3 0x7E := by
  refine ⟨by decide +kernel, by decide +kernel, by decide +kernel, by decide +kernel, by decide +kernel, by simp [FormatOf], by simp [FormatOf]⟩

/-- MatrixSlotsCompute and PortSlotsMoveData: a plan for each kind of slot; ring operations that overflow and that do not. -/
theorem witness_matrix_and_port_slots :
    (∀ o ∈ [MOp.mma .i8 1 8 16, .mma .fp32 1 8 16, .mma .bf16 1 8 16, .mma .e4m3 1 8 16, .mma .fp64 2 8 16, .mmas 1 8 16 5 6 24, .mzero 1,
        .mldv true 1 8 0, .mldv false 1 8 7, .mstv true 8 1 0, .mstv false 8 1 7],
      plans ⟨none, none, none, some o, none, none⟩ = true) ∧
    (∀ c ∈ [COp.rdr 1 (.ring 1 0) none 0, .rdr 1 (.stream 0 0) none 0, .rwr 1 (.ring 2 1) none 0, .rwr 1 (.stream 1 0) none 0, .radv (.ring 1) none 1,
        .radv (.stream 0) (some 5) 0, .reos 2, .xsw 1 (.rot 15), .xsw 1 (.xor 15), .xsw 1 (.map 5), .xbc 1 (.inl 15), .xbc 1 (.inr 5), .bld 1 127,
        .bst 1 127, .srfl 1 6 56, .srfs 1 6 128],
      plans ⟨none, none, none, none, some c, none⟩ = true ∧ plans ⟨none, none, none, none, none, some c⟩ = true) ∧
    (ringsAfter [{ ring := 1, publish := false, count := 1, eos := false, checked := true }] fullTask.ring (fun _ => 1)).isSome = true ∧
    (ringsAfter [{ ring := 1, publish := false, count := 1, eos := false, checked := true }] fullTask.ring (fun _ => 0)).isSome = false := by
  decide +kernel

/-- TilesAndDeliveries, and DDUP of IndexListsAreReadAndReduced: the last bytes of the tile and past them, a ring and none, a full
queue; a map in the last line and past it. -/
theorem witness_tiles :
    stoek.hart.ready [3, 4, 5] = true ∧ (stoek.hart.x 4 + (8176#13).setWidth 64).toNat + szBytes .d ≤ 8192 ∧
    8192 < (stoek.hart.x 4 + (8177#13).setWidth 64).toNat + szBytes .d ∧ ({ stoek with ring := some 1 }).ring = some 1 ∧ stoek.ring = none ∧
    ({ stoek with delivery := [.mark] }).delivery.length + 2 ≤ 32 ∧ 32 < ({ stoek with delivery := List.replicate 32 .mark }).delivery.length + 1 ∧
    ({ stoek with ixn := 1024 }).ixn ≤ 1024 ∧ 128 * (48 : BitVec 6).toNat + 2 * 1024 ≤ 8192 ∧ 8192 < 128 * (63 : BitVec 6).toNat + 2 * 65 ∧
    (let p := { stoek with ring := some 1, delivery := [.tile [1, 2], .mark] }
     let t := { task 7 8 9 with rings := [(1, aRing 256 1 1)], stoeks := [p] }
     t.stoek? 0 = some p ∧ (t.ring 1).free ≠ 0 ∧ t.onChip = true) := by decide +kernel

/-- Descriptor 2 of the worked program of 12: fp32, two dimensions of 8 and 16, stride 32 bytes, in package memory. -/
def rows (fmt : Nat) : Desc :=
  { image := BitVec.ofNat 512 (fmt * 2 ^ 56 + 2 * 2 ^ 64 + 8 * 2 ^ 120 + 16 * 2 ^ 176 + 32 * 2 ^ 200), orgs := [], valid := true }

/-- A program with two indices whose rows are in package memory at address 0 of `world`. -/
def rowStoek (fmt : Nat) : Stoek :=
  { stoek with hart := (task 7 0 2).hart, ix := [(0, 7), (1, 2)], ixn := 2, descs := [(2, rows fmt)] }

/-- Its task, whose load queue holds the entry of the STKRUN. -/
def rowTask (p : Stoek) : Task :=
  { task 7 8 9 with stoeks := [p], hart := { (task 7 8 9).hart with
      loads := [{ po := 0, kind := .stream 0, acq := false, rel := false, begun := true }], po := 1 } }

def rowState (p : Stoek) : State := { world (rowTask p) with focus := .stoek 0 0 }

/-- IXRD at an aligned address, RowOperationsComplete with fp32 and i32 rows, POOL.wadd of probed rows; the spec's other IXRD cases. -/
theorem witness_row_operations :
    (∀ fmt ∈ [1, 10],
      let p := { rowStoek fmt with triples := [(2, 8, 7), (2, 8, 2)] }
      let s := rowState p
      let t := rowTask p
      s.focus = .stoek 0 0 ∧ s.runs (.stoek 0 0) = true ∧ t.stoek? 0 = some p ∧ p.hart.ready [3, 4, 5] = true ∧ s.stoekReads 0 p = true ∧
      (match p.rowOp 2 8 4 5 with
       | .ok o => decide (62 + o.ixs.length * ceilDiv o.bytes 128 ≤ 64) && decide (63 + ceilDiv (4 * o.w) 128 ≤ 64) && ok (s.readRows t p o o.ixs).2 &&
           decide (o.d.fmt = fmt) && o.ixs.all (fun v => p.triples.contains (o.td, o.w, v)) &&
           ok (State.xlateReds (p.ctx t) (o.wadds p 0) s).2 &&
           (match (State.probeRows (p.ctx t) (fmtUnitBytes o.d.fmt) (o.ixs.flatMap (fun v => o.d.rowUnits v o.bytes)) p.pins s).2 with
            | .ok ps => decide (t.pinned + (ps.length - p.pins.length) ≤ 8192)
            | .error _ => false)
       | .error _ => false) = true ∧
      ok (State.readUnits (p.ctx t) (p.who t) .package [] 4 [] ((List.range 2).map (fun i => some ((8 + 4 * i) % 2 ^ 64))) s).2 = true) ∧
    8 % 4 = 0 ∧ 0 + 1024 ≤ 1024 ∧ 1 + 1024 > 1024 ∧ 6 % 4 ≠ 0 := by decide +kernel

theorem witness_DispatchRegistersAreWritten :
    (let v : Word := 0xFFFF0000BF8C
     1 ≤ wordBits v 3 0 ∧ wordBits v 3 0 ≤ 12 ∧ wordBits v 15 8 ≤ 191) ∧ wordBits (BitVec.ofNat 64 (State.reset.preg 0x301)) 7 7 = 0 ∧
    wordBits (BitVec.ofNat 64 ((State.reset.setPreg 0x301 0x84).preg 0x301)) 7 7 = 1 ∧ wordBits 0xC000 15 8 > 191 ∧ wordBits 13 3 0 > 12 ∧
    State.reset.anySaved = false ∧ (st { task 7 8 9 with run := .ready (some 0) }).anySaved = true ∧ wordBits 4096 15 0 ≤ 4096 ∧
    4096 < wordBits 4097 15 0 ∧ (tget PhysG.idle State.reset.disp.physG 51).fused = false ∧
    (tget PhysG.idle [(51, { PhysG.idle with fused := true })] 51).fused = true := by decide +kernel

/-- A queue with one record, all zero but its TCOUNT of 2 and its footprint of 1 (R13); the record of zeros is rejected. -/
def launching (m : List Host.Cell) : State :=
  { (((State.reset.setPreg 0x340 1).setPreg 0x301 0x84).setPreg 0x302 1).setPreg 0x300 0x10000 with mem := m }

theorem witness_LaunchesAreAdmitted :
    (∀ m ∈ [wrNat (wrNat [] 0x10008 2 2) 0x1000A 1 1, []],
      let s := launching m
      s.dispatching = true ∧ s.nextQueue = some 0 ∧ s.freeEntry = some 0 ∧
      s.rank * 2 ^ 40 + 0x10000 = bits (s.preg 0x300) 51 0 + 128 * (bits (s.preg 0x303) 15 0 % 2 ^ bits (s.preg 0x301) 3 0) ∧
      0x10000 + 128 ≤ memLimit ∧ bit (s.preg 0x719) 5 = false ∧ s.ms.ecc = [] ∧
      ((s.badField 0 0 0 (rdBytes s.mem (addrs 0x10000 128))).isNone = !m.isEmpty)) ∧
    State.reset.dispatching = false ∧ (State.reset.setPreg 0x340 1).nextQueue = none := by decide +kernel

/-- A ready task 0, its packages' dispatch on. -/
def readyState (t : Task) : State := (st { t with run := .ready none, fresh := true }).setPreg 0x340 1

theorem witness_TasksArePlaced :
    let s := readyState (task 7 8 9)
    s.bestReady.1 = s.tasks.head? ∧ s.bestReady.1.isSome = true ∧ s.dispatching = true ∧ s.inService 51 = true ∧ s.inService 52 = false ∧
    (tget PhysG.idle s.disp.physG 51).active = none ∧ (task 7 8 9).foot ≤ 8 ∧ ({ task 7 8 9 with run := .ready (some 0) }).placeable = true := by
  decide +kernel

/-- TasksAreSwitchedOut: save slots and none, a ready task and none, early and late drains, both parts of a save. -/
theorem witness_TasksAreSwitchedOut :
    (let s := { (st (task 7 8 9)).setPreg 0x343 1 with
                tasks := [(0, { task 7 8 9 with budget := 5 }), (1, { task 7 8 9 with index := 1, lg := 1, run := .ready none })] }
     s.freeSaveSlot = some 0 ∧ (s.setPreg 0x340 1).dispatching = true ∧ s.bestReady.1.isSome = true ∧
     (tget PhysG.idle s.disp.physG 0).shadow = none ∧ s.taskOf 0 0 = some 0 ∧ bits (s.preg 0x343) 15 0 ≠ 0) ∧
    (st (task 7 8 9)).freeSaveSlot = none ∧ (st (task 7 8 9)).bestReady.1 = none ∧
    (let t := { task 7 8 9 with run := .draining 0 false (some 0), kern := some aKernel, sup := Sup.first 0 }
     t.kern = some aKernel ∧ t.ksaved = false ∧ { t with kern := none }.atBoundary = true) ∧
    ({ task 7 8 9 with run := .saving (some 0) (some 0), sup := Sup.first 0 }).savable = true ∧
    ({ task 7 8 9 with run := .saving (some 0) (some 0), sup := Sup.first 0, hart := { (task 7 8 9).hart with stores := [aStore] } }).savable = false := by
  decide +kernel

theorem witness_TaskCommandsAct :
    let q := { queued (.tdset 0 1 6) [] with fault := some (plainFault cBOUNDS), taken := true, started := true }
    (withQueue q).sq.find? (fun q => q.taken) = some q ∧ ((task 7 0x10A 9).hart.x 4 + BitVec.ofInt 64 (0 : BitVec 12).toInt).toNat = 0x10A ∧
    ((task 7 8 9).hart.x 3).getLsbD 0 = true := by decide +kernel

/-- QuiesceResumeAndRestore: the cuts, a saved package, an image that lies outside memory, one whose VERSION is wrong. -/
theorem witness_QuiesceResumeAndRestore :
    State.reset.quiesceFree = true ∧ State.reset.bnd.phase = .idle ∧ (State.reset.setPreg 0x347 1).quiesceFree = false ∧ State.reset.drained = true ∧
    (st (task 7 8 9)).drained = false ∧ State.reset.rank * 2 ^ 40 + 0x10000 = bits ((State.reset.setPreg 0x346 0x10000).preg 0x346) 51 0 ∧
    State.reset.tasks = [] ∧ State.reset.disp.launches = [] ∧ State.reset.qstate ≠ 1 := by
  decide +kernel

/-- The bytes of the image of a package with no launch and no task, DIGEST zero (R349). -/
def bareImage : List Byte := State.reset.imageBytes false

theorem length_digest (n : Nat) (b : List Byte) : (digest n b).length = n := by
  simp [digest, padTo]

theorem length_signImage {b : List Byte} (h : 0x460 ≤ b.length) : (signImage b).length = b.length := by
  simp [signImage, overlay, length_digest]
  omega

/-- Bytes of a string that memory holds. -/
theorem slice_of_memory {m : List Host.Cell} {la : Nat} {img : List Byte} (h : rdBytes m (addrs la img.length) = img) (o n : Nat)
    (hn : o + n ≤ img.length) : rdBytes m (addrs (la + o) n) = slice img o n := by
  have h2 : slice img o n = slice (rdBytes m (addrs la img.length)) o n := by rw [h]
  rw [h2]
  apply List.ext_getElem
  · simp [slice, rdBytes, addrs]; omega
  · intro i h1 h2; simp [slice, rdBytes, addrs, Nat.add_assoc]

/-- DIGEST of a signed image, and the image without it. -/
theorem slice_signImage {b : List Byte} (h : 0x460 ≤ b.length) : slice (signImage b) 0x440 32 = digest 32 b := by
  have h1 : (b.take 0x440).length = 0x440 := by simp; omega
  unfold slice signImage overlay
  rw [List.append_assoc, List.drop_append_of_le_length (by omega), List.drop_eq_nil_of_le (by omega), List.nil_append,
    List.take_append_of_le_length (by rw [length_digest]), List.take_of_length_le (by rw [length_digest])]

theorem overlay_signImage {b : List Byte} (h : 0x460 ≤ b.length) (hz : slice b 0x440 32 = zeros 32) :
    overlay (signImage b) 0x440 (zeros 32) = b := by
  have h1 : (b.take 0x440).length = 0x440 := by simp; omega
  have h2 : (signImage b).take 0x440 = b.take 0x440 := by
    unfold signImage overlay
    rw [List.append_assoc, List.take_append_of_le_length (by omega), List.take_take, Nat.min_self]
  have h3 : (signImage b).drop (0x440 + 32) = b.drop (0x440 + 32) := by
    unfold signImage overlay
    rw [List.drop_append, List.drop_eq_nil_of_le (by simp [length_digest]), List.nil_append]
    simp [length_digest, h1]
  unfold overlay
  rw [h2, show (zeros 32).length = 32 from rfl, h3, ← hz, slice, List.append_assoc, ← List.drop_drop, List.take_append_drop,
    List.take_append_drop]

/-- A package whose memory holds that image at 0, where QIMG is after reset. -/
def imageState : State := { State.reset with mem := wrBytes [] (addrs 0 4096) (signImage bareImage) }

theorem length_bareImage : bareImage.length = 4096 := by decide +kernel

/-- A read of the management core where no unit has an error. -/
theorem mgcRead_clean {s : State} (h : s.ms.ecc = []) {pa n la : Nat} (hl : s.localOf pa n = .ok la) :
    s.mgcRead pa n = (s, some (rdBytes s.mem (addrs la n))) := by
  have hb : ∀ u, s.badUnit u = false := fun u => by simp [State.badUnit, h, tget, tfind]
  have hc : ∀ us : List Nat, us.foldl State.correct s = s := fun us => by
    induction us with
    | nil => rfl
    | cons u us ih => simp [State.correct, h, tget, tfind, ih]
  have hf : (addrs la n).find? (fun a => s.badUnit (a / 64)) = none := by simp [hb]
  simp only [State.mgcRead, hl, State.readLocal, hc, hf]

theorem witness_readImage : imageState.readImage = (imageState, some (signImage bareImage)) := by
  have hl : (signImage bareImage).length = 4096 := by rw [length_signImage (by rw [length_bareImage]; decide), length_bareImage]
  have hm : rdBytes imageState.mem (addrs 0 (signImage bareImage).length) = signImage bareImage := by
    have h := rdBytes_wrBytes [] 0 (signImage bareImage)
    rw [hl] at h ⊢
    simpa only [imageState] using h
  have hn : recField (rdBytes imageState.mem (addrs 0 16)) 8 8 = 4096 := by
    rw [slice_of_memory hm 0 16 (by rw [hl]; decide)]
    decide +kernel
  rw [hl] at hm
  unfold State.readImage
  simp only [show bits (imageState.preg 0x346) 51 0 = 0 from by decide +kernel]
  rw [mgcRead_clean (n := 16) rfl (show imageState.localOf 0 16 = .ok 0 from by decide +kernel)]
  simp only [hn]
  rw [if_neg (by decide), mgcRead_clean (n := 4096) rfl (show imageState.localOf 0 4096 = .ok 0 from by decide +kernel), hm]

theorem witness_restoreFrom : ok (imageState.restoreFrom (signImage bareImage)) = true := by
  have hd : slice (signImage bareImage) 0x440 32 = digest 32 (overlay (signImage bareImage) 0x440 (zeros 32)) := by
    rw [slice_signImage (by rw [length_bareImage]; decide), overlay_signImage (by rw [length_bareImage]; decide) (by decide +kernel)]
  unfold State.restoreFrom
  simp only [if_neg (show ¬recField (signImage bareImage) 0 4 ≠ 0x00060001 from by decide +kernel),
    if_neg (show ¬recField (signImage bareImage) 4 2 ≠ imageState.rank from by decide +kernel), if_neg (not_not_intro hd)]
  decide +kernel

/-- QuiesceResumeAndRestore: what is saved comes back; the image of `imageState` is that of the package after reset. -/
theorem witness_ImageFits : ImageFits State.reset false ∧ State.reset.outbound = [] ∧ imageState.tasks = [] ∧ imageState.disp.launches = [] ∧
    imageState.disp.quiesce = .idle ∧ imageState.qstate ≠ 1 ∧ imageState.rank = State.reset.rank := by
  refine ⟨⟨by decide +kernel, by decide, by decide, by decide, by decide +kernel, (fun e h => absurd h (by show e ∉ []; simp)), (fun e h => absurd h (by show e ∉ []; simp))⟩, ?_⟩
  decide +kernel

/-- An image whose VERSION is zero. -/
def blankState : State := { State.reset with mem := wrNat [] 8 8 4096 }

theorem witness_restore_refused :
    blankState.readImage = (blankState, some (rdBytes blankState.mem (addrs 0 4096))) ∧
    blankState.restoreFrom (rdBytes blankState.mem (addrs 0 4096)) = .error (blankState, 0, 1 + Config.freeNat 0 % 19) ∧
    1 + Config.freeNat 0 % 19 < 256 ∧
    ((State.reset.setPreg 0x346 (2 ^ 52 - 4096)).readImage).2 = none := by
  refine ⟨?_, ?_, by omega, by decide +kernel⟩
  · unfold State.readImage
    simp only [show bits (blankState.preg 0x346) 51 0 = 0 from by decide +kernel]
    rw [mgcRead_clean (n := 16) rfl (show blankState.localOf 0 16 = .ok 0 from by decide +kernel)]
    simp only [show recField (rdBytes blankState.mem (addrs 0 16)) 8 8 = 4096 from by decide +kernel]
    rw [if_neg (by decide), mgcRead_clean (n := 4096) rfl (show blankState.localOf 0 4096 = .ok 0 from by decide +kernel)]
  · unfold State.restoreFrom
    simp only [if_pos (show recField (rdBytes blankState.mem (addrs 0 4096)) 0 4 ≠ 0x00060001 from by decide +kernel)]
    rfl

theorem witness_QuiesceDone :
    let s := { State.reset with disp := { State.reset.disp with quiesce := .saving false } }
    s.drained = true ∧ (∀ u, tget 0 s.ms.ecc u = 0) ∧ s.rank * 2 ^ 40 + 0 = bits (s.preg 0x346) 51 0 ∧
    0 + (signImage (s.imageBytes false)).length ≤ memLimit := by
  refine ⟨by decide +kernel, fun u => rfl, by decide +kernel, ?_⟩
  rw [length_signImage (by decide +kernel)]
  decide +kernel

/-- RangedRegistersTakeTheirBits: the values at the ends of each range and past them. -/
theorem witness_RangedRegistersTakeTheirBits :
    State.reset.boundaryOn = false ∧ State.reset.tasks = [] ∧ (st { task 7 8 9 with stepm := true, arrived := true }).boundaryOn = true ∧
    (let s := withLaunch ((st { task 7 8 9 with stepm := true }).setPreg 0x215 1)
     bit (s.preg 0x215) 0 = true ∧ (0 : Word).getLsbD 0 = false ∧ (tfind s.disp.launches 0).map (·.queue) = some 0) ∧
    (let v : Word := 0xF424000004040
     wordBits v 6 0 = 64 ∧ wordBits v 14 8 = 64 ∧ wordBits v 51 32 = 1000000) ∧ wordBits 0x4000 14 8 = 64 ∧ wordBits 0x41 6 0 > 64 ∧
    wordBits 20 4 0 = 20 ∧ wordBits 4 4 0 = 4 ∧ wordBits 21 4 0 = 21 ∧ wordBits 3 4 0 < 4 ∧
    wordBits 0x10000000000000 52 0 + 0 = 2 ^ 52 ∧ wordBits 0x1001 11 0 ≠ 0 ∧ wordBits 1000000 19 0 = 1000000 ∧ wordBits 1000001 19 0 > 1000000 ∧
    (let v : Word := 1000000 + 999999 * 2 ^ 20
     wordBits v 19 0 = 1000000 ∧ wordBits v 39 20 = 999999) ∧ wordBits 11 3 0 = 11 ∧ wordBits 12 3 0 = 12 ∧ wordBits 256 11 0 = 256 ∧
    wordBits 255 11 0 = 255 := by decide +kernel

/-- A package whose port 32 has a link that sends on all 16 wavelengths and holds one flit that is not acknowledged. -/
def aLink : Link := { Link.down with up := true, txMask := 0xFFFF, rxMask := 0xFFFF, txSeq := 6, buffer := [{ seq := 5, vc := 1, flit := 7 }], restriping := true }

def linked (l : Link) : State := { State.reset.setPreg 0x688 15 with fab := { State.reset.fab with links := [(32, l)] } }

/-- ActingRegistersAct, RetriesDeadPeersAndFlits and LaserFailuresNarrowLinks. -/
theorem witness_links :
    wordBits 0x180 7 0 = 128 ∧ wordBits 0x81 7 0 > 128 ∧ bit (State.reset.preg 0x680) 8 = false ∧ bit ((State.reset.setPreg 0x680 0x101).preg 0x680) 8 = true ∧
    wordBits 2 7 0 ≠ (State.reset.setPreg 0x680 0x101).preg 0x680 % 256 ∧
    ((linked aLink).link 32).up = true ∧ ((linked aLink).link 33).up = false ∧
    (∀ c, c < 32 → wordBits (0xAAAAAAAAAAAAAAAA : Word) (2 * c + 1) (2 * c) ≠ 3) ∧ wordBits (3 : Word) (2 * 0 + 1) (2 * 0) = 3 ∧
    ({ State.reset with host := { State.reset.host with fuseAdvanced := true } }).host.tcZeroed = false ∧
    bits ((State.reset.setPreg 0x709 4096).preg 0x709) 39 0 = 4096 ∧ State.reset.rank * 2 ^ 40 + 0x20000 = wordBits 0x20000 51 0 ∧
    bit ((linked aLink).preg 0x688) 3 = true ∧ bit (State.reset.preg 0x688) 3 = false ∧ aLink.txMask &&& unitWaves 3 ≠ 0 ∧
    ({ aLink with txMask := unitWaves 3 }).txMask &&& ~~~unitWaves 3 = 0 ∧ aLink.txMask &&& ~~~unitWaves 3 ≠ 0 ∧
    ({ aLink with txMask := unitWaves 0 }).txMask &&& unitWaves 3 = 0 ∧ aLink.buffer = [] ++ { seq := 5, vc := 1, flit := 7 } :: [] ∧ (linked aLink).fab.waiting = [] ∧
    (0 : BitVec 12) = aLink.rxSeq ∧ (((aLink.partialPkt ++ [(0 : BitVec 256)]).headD 0).extractLsb' 36 4).toNat ≤ 8 ∧
    ((([(1 : BitVec 256) <<< 36] ++ [(0 : BitVec 256)]).headD 0).extractLsb' 36 4).toNat + 1 ≤ 2 := by decide +kernel

theorem witness_KernelLoadsAndAttestations :
    (let v : Word := 8192 * 2 ^ 13
     1 ≤ wordBits v 26 13 ∧ wordBits v 26 13 ≤ 8192 ∧ wordBits v 12 0 + wordBits v 26 13 ≤ 8192) ∧
    8192 < wordBits (8192 * 2 ^ 13 + 1 : Word) 12 0 + wordBits (8192 * 2 ^ 13 + 1 : Word) 26 13 ∧ State.reset.ksload = none ∧
    State.reset.kernelOn = false ∧ (st { task 7 8 9 with kern := some aKernel }).kernelOn = true ∧
    ((State.reset.readLoad { first := 8191, count := 1, verify := false }).causes = []) ∧
    (State.reset.readLoad { first := 0, count := 1, verify := true }).causes ≠ [] ∧ State.reset.host.attBusy = [] ∧
    State.reset.rank * 2 ^ 40 + 0 = bits (State.reset.preg 0x704) 51 0 ∧ State.reset.rank * 2 ^ 40 + 64 = (127 : BitVec 52).toNat / 64 * 64 := by
  decide +kernel

/-- BringUpAndAgeing and HostAccessesAndLink: the stages, both windows at their last byte, a register and none. -/
theorem witness_stages :
    State.reset.stage = 0 ∧ (State.reset.setStage 15).stage = 15 ∧ (State.reset.setStage 7).stage = 7 ∧ (State.reset.setStage 7).windowsOn = true ∧
    (State.reset.setStage 15).windowsOn = false ∧ (0xFF8 : BitVec 16).toNat = 8 * 0x1FF ∧ (0x1008 : BitVec 16).toNat = 8 * 0x201 ∧
    packageReg 0x201 = true ∧ packageReg 0x205 = false ∧ ([0, 0, 0, 0, 0, 0, 0, 0] : List Byte).length = 8 ∧
    (State.reset.setStage 7).writePackage 0x201 3 = .bounds ∧
    (match (State.reset.setStage 7).writePackage 0x201 4 with
     | .done _ => true
     | _ => false) = true ∧ (0xFFFFFFFFF : BitVec 36).toNat + 1 ≤ 2 ^ 36 ∧ State.reset.wqRoom 0 = true ∧ State.reset.host.modules.getLsbD 3 = true ∧
    ({ State.reset.host with modules := 7 }).modules.getLsbD 3 = false ∧ State.reset.host.holdoff = false ∧
    ({ State.reset.host with holdoff := true, irqPending := true }).irqPending = true := by decide +kernel

/-- MemorySystemActs: temperatures at the thresholds of R373; a counter below, at and past ACTMAX; a unit of each kind; a channel that
switches. -/
theorem witness_MemorySystemActs :
    (11 : BitVec 4).toNat ≤ 11 ∧ (∀ j, tget 0 State.reset.ms.temp j < 256) ∧ tget 0 State.reset.ms.refresh (16 * 11 + 15) ≤ 2 ∧
    bits (State.reset.preg 0x500) 11 0 = 2048 ∧ tget 0 ({ State.reset.ms with act := [(rowKey 383 31 65535, 2047)] }).act (rowKey 383 31 65535) + 1 = 2048 ∧
    tget 0 State.reset.ms.act (rowKey 383 31 65535) + 1 < 2048 ∧ tget false ({ State.reset.ms with actBad := [(5, true)] }).actBad 5 = true ∧
    tfind ({ State.reset.ms with refreshDue := [(layerKey 0 0, 2)] }).refreshDue (layerKey (1 / 32) (1 % 32 / 2)) = some 2 ∧
    64 * 5 + 64 ≤ memLimit ∧ bits (State.reset.preg 0x501) 23 0 ≠ 0 ∧ ({ State.reset with ms := { State.reset.ms with ecc := [(5, 2)] } }).badUnit 5 = true ∧
    tget 0 ({ State.reset.ms with ecc := [(5, 1)] }).ecc 5 = 1 ∧ State.reset.ms.wq.contains 5 = false ∧ tget 0 State.reset.ms.ecc 5 = 0 ∧
    ((State.reset.setPreg 0x510 1).startSwitch 0).rateBusy 0 = true ∧ State.reset.rateBusy 0 = false ∧ (1500 : BitVec 32).toNat ≤ 1500 := by
  refine ⟨by decide, fun j => ?_, ?_⟩
  · show 0 < 256
    decide
  · decide +kernel

/-- A pod of this package alone, in the middle of its boundary. -/
def podState (ph : BPhase) : State := { State.reset.setPreg 0x600 1 with bnd := { Boundary.idle with phase := ph, sentArr := true, watchdog := true } }

/-- A record of this package for itself, on a page of a class and merge width. -/
def aRec (key addr cls mw : Nat) (data : List Byte) : Rec :=
  { key := BitVec.ofNat 64 key, home := 0, addr := addr, va := 0, page := some { cls := cls, mw := mw }, data := data, gen := 0, sent := false, acked := false, place := [0, 1] }

/-- ReportsAreCounted and BoundariesDrainCommitAndRelease: a kernel cut, and a root that withholds the release. -/
theorem witness_cuts :
    (podState .arrived).kernelCut = false ∧ (podState .arrived).others = [] ∧
    (let s := { podState .arrived with disp := { State.reset.disp with quiesce := .saving false } }
     s.kernelCut = true ∧ s.treePacket 0 0 false 1 = (podState .arrived).treePacket 0 0 false 1) ∧
    (∀ r ∈ [false, true],
     let s := { podState .committed with bnd := { (podState .committed).bnd with quiesceSeen := true, resumed := r } }
     s.isRoot = true ∧ s.bnd.quiesceSeen = true ∧ s.bnd.resumed = r ∧ s.others = [] ∧ (s.setPreg 0x600 3).podGroups = [0] ∧
     (s.setPreg 0x600 3).others ≠ []) := by decide +kernel

/-- ReportsAreCounted and BoundariesDrainCommitAndRelease. -/
theorem witness_boundaries :
    (let s := podState .arrived
     let p := s.treePacket 0 0 false 1
     s.receive p = (some s, s) ∧ s.current p = true ∧ s.bnd.sentArr = true ∧ s.podGroups = [s.rank / 32] ∧ s.isLeader = true ∧ s.isRoot = true ∧
     p.srank.toNat / 32 = s.rank / 32 ∧ s.groupFull (s.rank / 32) (s.bnd.lead 0 ||| 1#32 <<< (p.srank.toNat % 32)) = true ∧ s.member s.rank = true ∧
     s.packageArrived = true ∧ s.arrHeld = false ∧ s.outbound = [] ∧ (s.setPreg 0x214 1).current p = false) ∧
    (let s := podState .drained
     let r := aRec 0x5000000000000000 0x30000 1 0 [1, 2]
     let a1 := aRec (2 ^ 44) 0x40000 3 2 [0, 0, 0x80, 0x3F]
     let a2 := { a1 with key := BitVec.ofNat 64 (2 ^ 45) }
     let e1 := aRec (2 ^ 44) 0x50000 0 0 [1]
     let e2 := { e1 with key := BitVec.ofNat 64 (2 ^ 45) }
     let on (l : List Rec) : State := { s with inbound := l,
                                                          otherPages := [⟨⟨1, 0⟩, 0x30000, 4096⟩, ⟨⟨3, 2⟩, 0x40000, 4096⟩, ⟨⟨0, 0⟩, 0x50000, 4096⟩] }
     s.stepNum = 0 ∧ s.bnd.phase = .drained ∧ s.disp.quiesce ≠ .waitStep ∧ ((on [r]).pageAt 0x30000).kind.cls = 1 ∧
     ((on [a2, a1]).pageAt 0x40000).kind = { cls := 3, mw := 2 } ∧ (3, 2) ∈ legalClasses ∧ a1.data.length = 2 ^ 2 ∧ a1.key.toNat < a2.key.toNat ∧
     ((on [e2, e1]).pageAt 0x50000).kind.cls = 0 ∧ e1.key.toNat / 2 ^ 44 ≠ e2.key.toNat / 2 ^ 44 ∧
     ([a2, a1].filter (fun x => x.gen = s.stepNum)) = [a2, a1] ∧
     (State.badUnit { on [r] with ms := { s.ms with ecc := [(0x30000 / 64, 2)] } } (0x30000 / 64) = true ∧ 0x30000 % 64 + r.data.length ≤ 64) ∧
     (s.preg 0x211 ∈ (on [r]).apronBytes 0x211 r ∧ State.badUnit { on [r] with ms := { s.ms with ecc := [(s.preg 0x211 / 64, 2)] } } (s.preg 0x211 / 64) = true)) ∧
    (let s := (podState .arrived).setPreg 0x600 3
     s.member 0 = true ∧ s.member 1 = true ∧ s.member 2 = false ∧ s.deadPeer 1 = false ∧ (s.setPreg 0x640 2).deadPeer 1 = true ∧
     recSize 2 ≤ s.inboundFree ∧ s.deadPeer s.rank = false ∧ (s.setPreg 0x640 1).deadPeer s.rank = true ∧ tget 0 s.bnd.credits 1 = 0 ∧ tget 0 ({ s.bnd with credits := [(1, 2)] }).credits 1 = 2) ∧
    (let s := podState .committed
     s.bnd.phase = .committed ∧ s.disp.quiesce ≠ .waitKernel ∧ s.bnd.watchdog = true ∧ bits (s.preg 0x212) 51 32 ≠ 0 ∧ s.pendingPhase = some (0, 0) ∧
     s.rank * 2 ^ 40 + 0 = s.preg 0x213 ∧ 0 + 512 ≤ memLimit ∧ State.reset.isRoot = false) := by decide +kernel

/-- A request of the package to rank 1, and the transaction of a load. -/
def aPacket : Packet :=
  { drank := 1, dinc := 0, srank := 0, sinc := 0, type := 0, len := 0, stage := false, txid := 9, body := 0x3 * 2 ^ 40 + 16, data := [] }

def aTxn : Txn := { va := 16, txid := 9, pkt := aPacket, owner := .load (.scp 0) 0 }

/-- PacketsAreHandled and RetriesDeadPeersAndFlits: the packets of rank 1 that answer or ask; a record that a credit allows and its copy;
a unit in error; a packet of another incarnation and one of no known type. -/
theorem witness_packets :
    let t := withHart fun h => { h with loads := [aLoad 3], po := 1 }
    let s := { ((st t).setPreg 0x600 3).setPreg 0x680 0x101 with
               fab := { State.reset.fab with txns := [aTxn] }, bnd := { Boundary.idle with phase := .draining, granted := [(1, 2)] } }
    let p : Packet := { aPacket with drank := 0, srank := 1 }
    s.receive p = (some s, s) ∧ s.txn? p = some aTxn ∧ (p.body.extractLsb' 0 40).toNat + (p.body.extractLsb' 40 8).toNat + 1 ≤ memLimit ∧
    p.body.extractLsb' 0 8 ≠ 0 ∧ ({ p with body := 0 }).body.extractLsb' 0 8 = 0 ∧ s.txn? { p with txid := 8 } = none ∧ s.member p.srank.toNat = true ∧
    1 < tget 0 s.bnd.granted p.srank.toNat ∧ s.inbound = [] ∧ s.bnd.phase = .draining ∧
    (({ s with ms := { s.ms with ecc := [(0, 2)] } }).badUnit (17 / 64) = true ∧
     (addrs 16 4).find? (fun x => ({ s with ms := { s.ms with ecc := [(0, 2)] } }).badUnit (x / 64)) = some 16) ∧
    p.srank.toNat ≠ s.rank ∧ p.drank.toNat = s.rank ∧ bit (s.preg 0x680) 8 = true ∧ ({ p with dinc := 1 }).dinc.toNat ≠ s.preg 0x682 ∧
    5 < ({ p with type := 6 }).type.toNat ∧ s.task? 0 = some t ∧ (t.hart.findLoad 0).isSome = true ∧ t.deferred = [] ∧
    s.fab.txns.find? (fun x => x.txid = 9) = some aTxn ∧ s.fab.txns.find? (fun x => x.txid = 8) = none ∧ p.data.length = 32 * p.len.toNat := by
  decide +kernel

/-- A record that breaks no rule, and one of zeros, whose TCOUNT is the first field that does. -/
theorem witness_RecordBreaks :
    (let r := rdBytes (wrNat (wrNat [] 0x10008 2 2) 0x1000A 1 1) (addrs 0x10000 128)
     ∀ off, ¬RecordBreaks State.reset 0 0 0 r off) ∧
    (let r := rdBytes [] (addrs 0x10000 128)
     RecordBreaks State.reset 0 0 0 r 8 ∧ ∀ o, o < 8 → ¬RecordBreaks State.reset 0 0 0 r o) := by
  refine ⟨fun off => ?_, ?_, fun o ho => ?_⟩
  · unfold RecordBreaks
    split <;> decide +kernel
  · exact .inl (by decide +kernel)
  · unfold RecordBreaks
    split <;> first | omega | decide +kernel

/-- LaunchesAreAdmitted: a record that is not memory of the package, and one in a unit with an error. -/
theorem witness_unreadable_records :
    (((launching []).setPreg 0x300 (2 ^ 40)).preg 0x300) / 2 ^ 40 ≠ (launching []).rank ∧
    State.badUnit { launching [] with ms := { (launching []).ms with ecc := [(0x10000 / 64, 2)] } } (0x10000 / 64) = true := by decide +kernel

/-- TasksAreSwitchedOut: what a task saves goes to slot 0 at CTXBASE; an error in a register that blocks the save. -/
theorem witness_saves :
    State.reset.rank * 2 ^ 40 + 0 = bits (State.reset.preg 0x342) 51 0 + 2 ^ 23 * 0 ∧ (task 7 8 9).fresh = false ∧ (task 7 8 9).gbarWait = none ∧
    (let t := { withHart (fun h => { h with xbad := [(4, 2)] }) with run := .saving (some 0) none, sup := Sup.first 0 }
     t.savable = true ∧ (4, 2) ∈ t.hart.xbad) := by decide +kernel

/-- StepQueueAndWindowRegistersAreWritten: a task that waits after STEPFULL in its handler, and one with the fault pending. -/
theorem witness_WaitsAfterStepfull :
    WaitsAfterStepfull { task 7 8 9 with stepm := true, full := true } ∧
    WaitsAfterStepfull { withQueue { queued (.sst 3 1 64 0 false false false 4 5) [2, 0] with fault := some (plainFault cSTEPFULL) } with stepm := true } :=
  ⟨⟨rfl, rfl, .inl rfl⟩, ⟨rfl, rfl, .inr ⟨_, List.mem_singleton.2 rfl, _, rfl, by decide⟩⟩⟩

/-- HostAccessesAndLink: room for the units of a write, and none. -/
theorem witness_roomFor :
    State.reset.roomFor (unitsOf (addrs 0 8)) = true ∧
    State.roomFor { State.reset with ms := { State.reset.ms with wq := (List.range 64).map (fun i => 384 * 4 * i) } } [384 * 4 * 64] = false := by decide +kernel

/-- RetriesDeadPeersAndFlits: a packet's one flit last in the queue of a port, with slots and without; a TREE packet before another; a load of
the pod that waits for a peer. -/
theorem witness_ports :
    let e : Egress := { held := { pkt := aPacket, port := none }, vc := 0, left := [5] }
    let tree : Egress := { held := { pkt := { aPacket with type := 5 }, port := none }, vc := 4, left := [6] }
    let l := { Link.down with up := true, queue := [e] }
    l.up = true ∧ l.restriping = false ∧ l.sending = none ∧ e.left.length = 1 ∧ tget 0 l.slots e.vc + 1 ≤ 32 ∧ l.buffer.length + 1 ≤ 128 ∧
    32 < tget 0 ({ l with slots := [(0, 32)] }).slots e.vc + 1 ∧ tree.held.pkt.type = 5 ∧ e.held.pkt.type ≠ 5 ∧
    ({ l with buffer := List.replicate 127 { seq := 0, vc := 1, flit := 7 } }).buffer.length < 128 ∧
    128 ≤ ({ l with buffer := List.replicate 127 { seq := 0, vc := 1, flit := 7 } }).buffer.length + 1 ∧
    (let pl : ScalarLoad := { space := .pod, sz := .w, sx := true, d := 3, va := 16, pas := addrs (2 ^ 40 + 16) 4, pc := 0x1000, got := [] }
     (∃ a ∈ pl.pas, a / 2 ^ 40 = (1 : BitVec 12).toNat) ∧ (1 : BitVec 12).toNat ≠ State.reset.rank) := by decide +kernel

/-- PacketsAreHandled: the last credit of the only sender, with an apron that has room; records that wait for the credits of a home. -/
theorem witness_credits :
    let s := { (State.reset.setPreg 0x600 3).setPreg 0x680 0x101 with bnd := { Boundary.idle with phase := .draining, granted := [(1, 1)] } }
    let r : Rec := { aRec 0x1000000000000000 0x30000 1 0 [1, 2] with home := 1 }
    let p : Packet := { aPacket with drank := 0, srank := 1, body := 1 }
    s.others = [p.srank.toNat] ∧ s.bnd.granted = [(p.srank.toNat, 1)] ∧ 272 ≤ bits (s.preg 0x212) 14 8 * 2 ^ 30 - recSize 8 ∧
    s.receive p = (some s, s) ∧ p.srank.toNat ≠ s.rank ∧ ([r].map (·.key)).Nodup ∧ r.gen = s.stepNum ∧ r.home = p.srank.toNat ∧ r.sent = false ∧ r.acked = false := by
  decide +kernel

theorem length_padTo (n : Nat) (b : List Byte) : (padTo n b).length = max n b.length := by
  simp [padTo]; omega

theorem length_rows {n k : Nat} {f : Nat → List Byte} (h : ∀ i, (f i).length = k) : ((List.range n).flatMap f).length = n * k := by
  simp [List.length_flatMap, h]

/-- A saved task without a kernel, a program and a queued instruction has a context of some 300 KiB. -/
theorem length_context (t : Task) (c : Nat) (m : List (List Nat)) (hk : t.kern = none) (hf : t.foot = 1) (hp : t.stoeks = [])
    (hq : t.sq = []) (hg' : t.groups = []) (hm : (t.ownBytes m).length ≤ 4096) : (t.contextBytes c m).length ≤ 2 ^ 19 := by
  have hx := length_rows (n := 32) (fun r => length_leBytes 8 (t.hart.x (BitVec.ofNat 5 r)).toNat)
  have hd := length_rows (n := 64) (f := fun i => descBytes (tget Desc.invalid t.descs i)) (k := 96) (fun i => by
    rw [descBytes, length_padTo]; simp only [List.length_append, length_rows (fun k => length_leBytes 4 _), length_leBytes]; rfl)
  have hr := length_rows (n := 16) (f := fun i => ringBytes (t.ring i)) (k := 64) (fun i => by
    rw [ringBytes, length_padTo]; simp only [List.length_append, length_leBytes]; rfl)
  have ht := length_rows (n := 64) (f := fun i => tagBytes (t.tag i)) (k := 32) (fun i => by
    simp only [tagBytes, List.length_append, length_leBytes]; rfl)
  have he := length_rows (n := 16) (fun c => length_rows (n := 8) (fun r => length_leBytes 128 (elem (tget 0 t.dregs r).toNat 1024 c)))
  have hs := length_rows (n := 2048) (fun l => length_leBytes 128 (tget 0 t.srf l).toNat)
  have hg := length_rows (n := 4) (fun _ => length_leBytes 2 0xFFFF)
  simp only [Task.contextBytes, hk, hf, hp, hq, hg', List.getElem?_nil, List.flatMap_nil, List.nil_append, List.append_nil, List.length_append, length_padTo,
    length_leBytes, Task.srfSize, hx, hd, hr, ht, he, hg, show 1 * 2 ^ 18 / 128 = 2048 from rfl, hs, zeros, List.length_replicate, List.flatMap_cons]
  omega

/-- Task 0, saved to slot 0, and what its slot holds. -/
def savedTask : Task := { task 7 8 9 with run := .ready (some 0), sup := Sup.first 0 }

def savedBytes : List Byte := State.contextBytes (st savedTask) savedTask 0

theorem length_savedBytes : savedBytes.length ≤ 2 ^ 19 := by
  unfold savedBytes State.contextBytes
  exact length_context _ _ _ rfl rfl rfl rfl rfl (by decide +kernel)

/-- Its package, whose slot 0 holds these bytes. -/
def holding (bs : List Byte) : State :=
  { withLaunch (readyState (task 7 8 9)) with tasks := [(0, savedTask)], mem := wrBytes [] (addrs 0 bs.length) bs }

theorem witness_SlotHolds : SlotHolds (holding savedBytes) savedTask := by
  have h : ∀ bs, bs.length ≤ 2 ^ 19 → 0 + bs.length ≤ memLimit ∧ bs.length ≤ 2 ^ 23 ∧ rdBytes (holding bs).mem (addrs 0 bs.length) = bs :=
    fun bs hl => ⟨by show _ ≤ 0xC000000000; omega, by omega, rdBytes_wrBytes [] 0 bs⟩
  have hs := h _ length_savedBytes
  exact ⟨0, aLaunch, 0, 0, st savedTask, savedBytes, rfl, rfl, by decide +kernel, rfl, hs.1, hs.2.1, hs.2.2, fun u => rfl,
    by unfold TaskFits; decide +kernel⟩

/-- A vector of 48 i4o elements in pod memory with its one delta, a nibble of the byte 256 past its base. -/
def deltaDesc : Desc :=
  { image := BitVec.ofNat 512 (0x0E00000000000000 + 2 ^ 60 + 0x80000000 + 1 * 2 ^ 64 + 256 * 2 ^ 80 + 48 * 2 ^ 120), orgs := [], valid := true }

/-- StreamsMoveTheirBytes: a pod store of a nibble, whose byte's other half the package can read, and cannot. -/
theorem witness_pod_halves :
    let q := moving (.sst 3 1 64 0 false false true 4 5) [48, 0] deltaDesc
    let t := { movingTask q with stepm := true }
    q.desc.space = .pod ∧ (match q.geo with
      | some g =>
        let all := (List.range g.st.n).flatMap (fun r => q.items g t.srf r (getRec t.srf g.st r))
        all.any (fun x => x.mask != 0xFF) && (State.podMissing (t.qctx q) q.got all (world t)).2.isEmpty &&
          ok ((world t).readHalves (t.qctx q) (t.who q) all).2 &&
          (let s := { world t with ms := { (world t).ms with ecc := [(0x80000100 / 64, 2)] } }
           !ok (s.readHalves (t.qctx q) (t.who q) all).2 && (s.readHalves (t.qctx q) (t.who q) all).1.task? 0 == some t)
      | none => false) = true := by decide +kernel

/-- DescentsAndProgramsComplete: a descent that goes on from the run table and the permutation of level 0, with and without the leaf blocks. -/
def goingOn (lf : Bool) : QInstr :=
  { moving (.descend 20 5 1 1 0 true true lf 6 7) [0, 6]
      { treeDesc with image := treeDesc.image ||| BitVec.ofNat 512 (64 * 2 ^ 80 + 8 * 2 ^ 256) } with entered := true }

def goingTask (lf : Bool) : Task :=
  let t := withDescent (goingOn lf)
  let m := srfWrite t.srf 0 ([1, 20, 21, 22, 23, if lf then 24 else 0].flatMap (leBytes 8))
  let m1 := srfWrite m (21 * 128) ([1, 3, 0, 2, 4, 5].flatMap (leBytes 2))
  { t with srf := srfWrite m1 (22 * 128) ([2 + 2 ^ 16 + 6 * 2 ^ 32, 1 + 2 * 2 ^ 48, 2 + 2 * 2 ^ 32 + 4 * 2 ^ 48].flatMap (leBytes 8)) }

theorem witness_continuation :
    ∀ lf ∈ [false, true],
    let q := goingOn lf
    let t := goingTask lf
    let s := descentState t
    t.queued? 0 = some q ∧ t.loadBegun 0 = true ∧ s.asked 0 0 = false ∧ (match q.descendOp with
      | some o => ok (q.descendCheck t o) && decide (o.l0 = 1) && decide ((o.input (o.block t.srf) t.srf).1.map (·.node) = [1, 2]) &&
          decide ((o.input (o.block t.srf) t.srf).2 = [1, 3, 0, 2, 4, 5]) && o.lf == lf
      | none => false) = true := by decide +kernel

/-- TasksArePlaced: a task whose context has an error; CONTEXT_SAVE_COMPLETE: a context that memory can hold. -/
theorem witness_contexts :
    (State.fromSlot { holding [] with ms := { State.reset.ms with ecc := [(0, 2)] } } savedTask).2 = none ∧
    0 + (savedTask.contextBytes 0 ((holding []).ownNats savedTask)).length ≤ memLimit := by
  refine ⟨by decide +kernel, ?_⟩
  have h := length_context savedTask 0 ((holding []).ownNats savedTask) rfl rfl rfl rfl rfl (by decide +kernel)
  show _ ≤ 0xC000000000
  omega

/-- TasksAreSwitchedOut: a gnoum whose preloaded successor is the task to be placed next. -/
theorem witness_FastTo :
    let t := { task 7 8 9 with budget := 5, sup := Sup.first 0 }
    let s := { ((st t).setPreg 0x343 2).setPreg 0x340 1 with
               tasks := [(0, t), (1, { savedTask with index := 1, lg := 1 })],
               disp := { State.reset.disp with physG := [(0, { PhysG.idle with active := some 0, shadow := some 1 })], slots := [0] } }
    FastTo s t 0 1 s.bestReady.1 ∧ s.freeSaveSlot = some 1 ∧ FastTo s t 0 1 (s.passLimit t t.budget).bestReady.1 := by
  refine ⟨⟨by decide +kernel, by decide +kernel, by decide +kernel, by decide +kernel, by decide +kernel, { savedTask with index := 1, lg := 1 }, by decide +kernel⟩,
    by decide +kernel, ⟨by decide +kernel, by decide +kernel, by decide +kernel, by decide +kernel, by decide +kernel, { savedTask with index := 1, lg := 1 }, by decide +kernel⟩⟩

/-- WaitingWakingAndHalting and TaskCommandsAct: the last task of a launch; completion words to package and host memory, to a bad address, and
to a page that nothing maps. -/
theorem witness_last_task :
    (let la := { aLaunch with left := 1 }
     la.left = 1 ∧ la.unacked = 0 ∧ (task 7 8 9).hart.stores = [] ∧ (task 7 8 9).stoeks = [] ∧ la.queue < 16 ∧ la.recIdx < 2 ^ 16) ∧
    (let s := world (task 7 8 9)
     (∀ x ∈ [(8, Space.package), (2 ^ 30 + 8, .host)], (match (s.xlateDone 0 x.1).2 with
       | .ok r => decide (r.1 = x.2)
       | .error _ => false) = true) ∧ ok (s.xlateDone 0 (2 ^ 38)).2 = false) ∧ (12 : Nat) % 8 ≠ 0 := by decide +kernel

/-- MemorySystemActs: between 103 and 105 °C; a refresh command that is held while its channel switches, and its issue. -/
theorem witness_held_refresh :
    (let ms := { State.reset.ms with temp := [(3, 104)] }
     (∀ j, j < 16 → tget 0 ms.temp j ≤ 105) ∧ 103 < tget 0 ms.temp 3) ∧
    (let s := (State.reset.setPreg 0x510 1).startSwitch 0
     let h := { s with ms := { s.ms with refreshing := true, held := [{ ch := 0, bank := 1, first := 2, count := 3 }], refreshDue := [(layerKey 0 0, 2)] } }
     h.rateBusy 0 = true ∧ h.ms.refreshing = true ∧ (∃ c ∈ h.ms.held, c.ch = 0) ∧ (∀ c ∈ s.ms.held, c.ch ≠ 0) ∧
     tfind h.ms.refreshDue (layerKey (0 / 32) (0 % 32 / 2)) = some 2) := by
  refine ⟨⟨fun j _ => ?_, by decide +kernel⟩, by decide +kernel, by decide +kernel, ⟨_, List.mem_singleton.2 rfl, rfl⟩, by decide +kernel, by decide +kernel⟩
  by_cases h : j = 3
  · subst h; decide +kernel
  · have : tget 0 [(3, 104)] j = 0 := by simp [tget, tfind, Ne.symm h]
    simp [this]

/-- UnfetchableAndIllegalWordsTrap: a word behind a MARK that an older store holds back, and one behind none; a long form that no unit has. -/
theorem witness_fetches :
    (let h : Hart := { (task 7 8 9).hart with stores := [aStore], marks := [(1, .k)], po := 2, pc := 0x4000000000 }
     let s := world (withHart fun _ => h)
     s.behindMark (.scp 0) h = true ∧ (match (s.fetch (.scp 0) h.pc).2 with | .fault _ none => true | _ => false) = true ∧
     s.behindMark (.scp 0) { h with marks := [] } = false) ∧
    (let s := State.reset.withFetchWord 64 0xD8000000
     ok (s.fetchAddrs (s.xctx (.scp 0)) 0x1000).2 = true ∧ ok (s.fetchAddrs (s.xctx (.scp 0)) 0x1004).2 = true ∧
     (s.fetch (.scp 0) 0x1000).2 = .illop) ∧
    (∀ w' w2 : BitVec 32, w'.toNat / 2 ^ 26 = 0x36 → ok (decodeWords w' w2) = false) := by
  refine ⟨by decide +kernel, by decide +kernel, fun w' w2 h => ?_⟩
  have h6 : (fld w' 26 3).toNat = 6 := by simp [fld, Nat.shiftRight_eq_div_pow]; omega
  have hl : isLongWord w' = true := by
    have := w'.isLt
    simp only [isLongWord, fld, beq_iff_eq]
    apply BitVec.eq_of_toNat_eq
    simp [Nat.shiftRight_eq_div_pow]
    omega
  simp only [decodeWords, hl, if_true, decodeLong, h6]
  rfl

/-- StepRunsTheDecodedInstruction: a state that no controller can be in. -/
theorem witness_overfull :
    accepting (.next { State.reset with ms := { State.reset.ms with wq := (List.range 65).map (fun i => 384 * 4 * i) } }) = false ∧
    accepting (.next State.reset) = true := by decide +kernel

/-- TilesAndDeliveries: a selector of a page that UNPIN's program has pinned, with a store pending through it. -/
theorem witness_unpin :
    let pin : Pin := { va := 0, size := 4096, pa := 0, pte := 7 }
    let p := { stoek with pins := [pin], hart := { (task 7 8 9).hart with stores := [{ aStore with kind := .reds .add [(16, 7, 1)] 0x1000 }], po := 1 } }
    let s := { stStoek p with tlbi := [(3, [tlbSel 0 0])] }
    StoekExecutes s 0 0 { task 7 8 9 with stoeks := [p] } p ∧ (s.selectors 3).length = 1 ∧ (tlbSel 0 0).covers 0 (bit pin.pte.toNat 5) pin.va pin.size = true ∧
    pendingVas p.hart = [(0, 16)] := by
  refine ⟨⟨rfl, by decide, rfl, rfl⟩, by decide +kernel⟩

/-- TrapsEnterAndReturn: behind a faulted instruction one that waits for a core will never run; one that runs will. -/
theorem witness_doubled :
    let q0 := { queued (.tdset 0 1 6) [] with fault := some (plainFault cBOUNDS), started := true }
    let q1 (r : Bool) := { queued (.stkrun 3 1 4 5) [] with tag := 1, po := 2, started := true, running := r }
    (∀ q ∈ [q0, q1 false], q.started = false ∨ q.fault ≠ none ∨ (q.running = false ∧ ∃ x ∈ [q0, q1 false], x.po < q.po ∧ x.fault ≠ none)) ∧
    (q1 true).started = true ∧ (q1 true).fault = none ∧ (q1 true).running = true := by decide +kernel

/-- QueuedInstructionsStart: a probe that faults while a MARK holds back. -/
theorem witness_probe_behind_mark :
    let t := { podStore 0x9000000000 with hart := { (task 7 8 9).hart with stores := [aStore], marks := [(1, .k)], po := 3 } }
    let q := { queued (.sst 3 1 64 0 false false false 4 5) [2, 0] with po := 2 }
    ∃ m ∈ t.hart.marks, m.1 < q.po ∧ t.hart.olderPending t.streamPos m.1 m.2 = true := by
  refine ⟨(1, .k), List.mem_singleton.2 rfl, by decide, by decide +kernel⟩

/-- VectorSlotsCompute: VQBS, and the numbers that it takes. -/
theorem witness_vqbs :
    plans (vSlot ⟨.vqbs, 8, 4, 5, 0, false, 0, 0, false⟩) = true ∧ QuantTakes 0 0 ∧ QuantTakes 0x3F800000 (2 ^ 149) ∧ QuantTakes 0x7FC00000 0 ∧
    QuantTakes 0xFF800000 (-((2 ^ 24 - 1) * 2 ^ 253)) := by
  have h : fp32.val 0 = .zero false ∧ fp32.val 0x3F800000 = .fin false (2 ^ 23) (-23) ∧ fp32.val 0x7FC00000 = .nan ∧ fp32.val 0xFF800000 = .inf true := by
    decide +kernel
  refine ⟨by decide +kernel, ?_, ?_, ?_, ?_⟩ <;> simp [QuantTakes, h]

/-- QuiesceResumeAndRestore: an ARR that a kernel cut holds back. -/
theorem witness_held_arr :
    let s := { ((st { task 7 8 9 with stepm := true, arrived := true, run := .ready none }).setPreg 0x600 1).setPreg 0x347 2 with
               disp := { State.reset.disp with quiesce := .held false } }
    s.disp.quiesce = .held false ∧ s.member s.rank = true ∧ s.bnd.sentArr = false ∧ s.packageArrived = true ∧ s.beginsBoundary = true := by
  decide +kernel

end Sys2Proof.Tests
end

section
/-! SUPPORT. What the two turns of a step do to soundness: the word in focus, the engines, and the step that chooses between them. -/

namespace Sys2Proof.Machine

/-- A word keeps soundness through its fetch, its operands and its execution. -/
theorem State.fetchIssue_sound {s : State} (hs : sound s) : OutSound s.fetchIssue := by
  unfold State.fetchIssue
  split
  · exact outSound_next hs
  · next h _ =>
    have hf : sound (s.fetch s.focus h.pc).1 := State.fetch_sound hs
    dsimp only
    split
    · exact outSound_ite (exec_sound (State.operands_sound hf)) (outSound_next (State.operands_sound hf))
    · exact exec_sound hs
    · exact exec_sound hs
    · exact outSound_fault _

/-- What the memory controllers do not accept is not done, which keeps soundness too (log 55). -/
theorem outSound_accepted {o : Out} {s : State} (ho : OutSound o) (hs : sound s) : OutSound (if accepting o then o else .next s) :=
  outSound_ite ho (outSound_next hs)

theorem State.agentTurn_sound {s : State} (hs : sound s) : OutSound s.agentTurn := by
  have hs1 : sound { s with engineTurn := true } := hs
  refine outSound_accepted ?_ hs1
  split
  · exact exec_sound hs1
  · exact outSound_ite (State.fetchIssue_sound hs1) (outSound_next hs1)

/-- The first event that does something comes from the state that all of them are tried in. -/
theorem State.firstOf_sound {s : State} (hs : sound s) (es : List Instr) : OutSound (s.firstOf es) := by
  induction es with
  | nil => exact outSound_next hs
  | cons e es ih =>
    have he : OutSound (exec e s) := exec_sound hs
    unfold State.firstOf
    split
    · next u hu => exact outSound_ite ih (hu ▸ he)
    · exact he

theorem State.stepMargins_sound {s : State} (hs : sound s) : sound s.stepMargins :=
  sound_mk (wf_mem_of_sound hs) (wf_hmem_of_sound hs) (wf_regs_of_sound hs)

/-- Host stores, links and margins keep soundness as they go on. -/
theorem State.passive_sound {s : State} (hs : sound s) : sound s.passive := by
  have hports : ∀ x, sound x → sound (if x.freeSlots.fabricOn then x.freeSlots.drainPorts else x.freeSlots) := fun x hx =>
    sound_ite (State.drainPorts_sound (State.freeSlots_sound hx)) (State.freeSlots_sound hx)
  refine State.stepMargins_sound (State.pump_sound ?_)
  split
  · exact hports _ (sound_mk (wf_mem_of_sound hs) (wf_wrBytes _ _ (wf_hmem_of_sound hs)) (wf_regs_of_sound hs))
  · exact hports _ hs

theorem State.engineRun_sound {s : State} (hs : sound s) : OutSound s.engineRun :=
  State.firstOf_sound (State.passive_sound (s := { s with engineTurn := false, focus := _ }) hs) _

theorem step_sound {s : State} (hs : sound s) : OutSound (step s) := by
  unfold step
  split
  · exact outSound_accepted (exec_sound hs) hs
  · exact outSound_ite (State.engineRun_sound hs) (State.agentTurn_sound hs)

/-- Settles O8: the engines' turn and the agent's turn each end in the meaning of one row, and every meaning keeps soundness. -/
theorem stepKeepsSoundness : Obligations.StepKeepsSoundness := by
  unfold Obligations.StepKeepsSoundness
  exact fun s t hs => step_sound hs t

/-- Settles O7: at reset both memories are empty, and the register table ascends and holds no zero. -/
theorem resetIsSound : Obligations.ResetIsSound := by
  unfold Obligations.ResetIsSound
  exact ⟨⟨rfl, rfl⟩, rfl⟩

end Sys2Proof.Machine
end

section
/-! SUPPORT. Writes of control registers: what a masked write, a clearing write and a guarded write leave, and how REGISTER_WRITE and MTC
come to them. -/

namespace Sys2Proof.Machine

/-! ## Outcomes of a register write -/

@[simp] theorem Wr.out_done (s t : State) : (Wr.done t).out s = .next t := rfl

@[simp] theorem Wr.out_bounds (s : State) : Wr.bounds.out s = .next s := rfl

@[simp] theorem Wr.out_wait (s : State) : Wr.wait.out s = .next s := rfl

/-- A value within the range is written. -/
theorem Wr.out_guard_done {s t : State} {c : Prop} [Decidable c] (h : ¬c) : (if c then .bounds else .done t : Wr).out s = .next t := by
  rw [if_neg h, Wr.out_done]

/-- A value outside the range is refused. -/
theorem Wr.out_guard_bounds {s : State} {w : Wr} {c : Prop} [Decidable c] (h : c) : (if c then .bounds else w : Wr).out s = .next s := by
  rw [if_pos h, Wr.out_bounds]

/-! ## Bits of a register -/

theorem wordBits_eq (v : Word) (hi lo : Nat) : wordBits v hi lo = bits v.toNat hi lo := rfl

theorem testBit_preg_setMasked (s : State) (n mask : Nat) (v : Word) {b : Nat} (hb : b < 64) :
    ((s.setMasked n mask v).preg n).testBit b = if mask.testBit b then v.getLsbD b else (s.preg n).testBit b :=
  (registerTakes_setMasked s n mask v).1 b hb

theorem preg_setMasked_other (s : State) {n m : Nat} (mask : Nat) (v : Word) (h : m ≠ n) : (s.setMasked n mask v).preg m = s.preg m :=
  preg_setPreg_other s _ h

theorem testBit_preg_clearBits (s : State) (n mask : Nat) (v : Word) {b : Nat} (hb : b < 64) :
    ((s.clearBits n mask v).preg n).testBit b = ((s.preg n).testBit b && !(mask.testBit b && v.getLsbD b)) := by
  rw [State.clearBits, preg_setPreg_same, Nat.mod_eq_of_lt (BitVec.isLt _), BitVec.testBit_toNat]
  simp only [BitVec.getLsbD_and, BitVec.getLsbD_not, BitVec.getLsbD_ofNat, hb, decide_true, Bool.true_and]
  rw [Bool.and_comm (v.getLsbD b)]

theorem preg_clearBits_other (s : State) {n m : Nat} (mask : Nat) (v : Word) (h : m ≠ n) : (s.clearBits n mask v).preg m = s.preg m :=
  preg_setPreg_other s _ h

/-! What a write leaves but for the registers. The registers are a variable here, so that no check of these equalities computes with
masks. -/

theorem setPreg_with_pregs (s : State) (n v : Nat) (p : Tbl Word) : { s.setPreg n v with pregs := p } = { s with pregs := p } := rfl

theorem setPregBits_with_pregs (s : State) (n hi lo v : Nat) (p : Tbl Word) :
    { s.setPregBits n hi lo v with pregs := p } = { s with pregs := p } := rfl

theorem setMasked_with_pregs (s : State) (n mask : Nat) (v : Word) (p : Tbl Word) :
    { s.setMasked n mask v with pregs := p } = { s with pregs := p } := rfl

theorem clearBits_with_pregs (s : State) (n mask : Nat) (v : Word) (p : Tbl Word) :
    { s.clearBits n mask v with pregs := p } = { s with pregs := p } := rfl

/-- A register is its 64 bits. -/
theorem preg_eq_of_testBit {s : State} {n : Nat} {w : Word} (h : ∀ b, b < 64 → (s.preg n).testBit b = w.getLsbD b) : s.preg n = w.toNat :=
  Nat.eq_of_testBit_eq fun b => by
    by_cases hb : b < 64
    · rw [h b hb, BitVec.testBit_toNat]
    · rw [Nat.testBit_lt_two_pow (Nat.lt_of_lt_of_le (preg_lt s n) (Nat.pow_le_pow_right (by decide) (Nat.not_lt.1 hb))),
        BitVec.testBit_toNat, BitVec.getLsbD_of_ge w b (Nat.not_lt.1 hb)]

/-- A field of a register after a masked write is the value's where the mask covers it. -/
theorem bits_preg_setMasked_covered (s : State) (n mask : Nat) (v : Word) {hi lo : Nat} (h : hi < 64)
    (hm : ∀ i, i < hi + 1 - lo → mask.testBit (lo + i) = true) : bits ((s.setMasked n mask v).preg n) hi lo = wordBits v hi lo := by
  refine Nat.eq_of_testBit_eq fun i => ?_
  rw [wordBits_eq, testBit_bits, testBit_bits]
  by_cases hi' : i < hi + 1 - lo
  · rw [testBit_preg_setMasked s n mask v (by omega), if_pos (hm i hi'), BitVec.testBit_toNat]
  · simp [hi']

/-- A field of a register that the mask of a write leaves out is as before. -/
theorem bits_preg_setMasked_kept (s : State) (n mask : Nat) (v : Word) {hi lo : Nat} (h : hi < 64)
    (hm : ∀ i, i < hi + 1 - lo → mask.testBit (lo + i) = false) : bits ((s.setMasked n mask v).preg n) hi lo = bits (s.preg n) hi lo := by
  refine Nat.eq_of_testBit_eq fun i => ?_
  rw [testBit_bits, testBit_bits]
  by_cases hi' : i < hi + 1 - lo
  · rw [testBit_preg_setMasked s n mask v (by omega), if_neg (by simp [hm i hi'])]
  · simp [hi']

/-! ## REGISTER_WRITE -/

theorem exec_registerWrite {s : State} {num : BitVec 12} {v : Word} {w : Wr} (h : s.wrPlain num.toNat v = some w) :
    exec (.registerWrite num v) s = w.out s := by
  show execRegisterWrite num v s = w.out s
  rw [execRegisterWrite, h]

theorem wrPlain_of_plainMask {s : State} {n m : Nat} {v : Word} (h : plainMask n = some m) : s.wrPlain n v = some (.done (s.setMasked n m v)) := by
  rw [State.wrPlain, h]

theorem wrPlain_of_w1cMask {s : State} {n m : Nat} {v : Word} (hp : plainMask n = none) (h : w1cMask n = some m) :
    s.wrPlain n v = some (.done (s.clearBits n m v)) := by
  rw [State.wrPlain, hp, h]

/-- A register with a range is written under it. -/
theorem exec_registerWrite_ranged {s : State} {num : BitVec 12} {v : Word} {w : Wr} (hp : plainMask num.toNat = none)
    (hc : w1cMask num.toNat = none) (hr : s.wrRanged num.toNat v = some w) : exec (.registerWrite num v) s = w.out s :=
  exec_registerWrite (by rw [State.wrPlain, hp, hc, hr])

end Sys2Proof.Machine
end

section
/-! The registers with a range (O50). -/

namespace Sys2Proof.Machine

/-- DRAINLIM. -/
theorem exec_write_drainlim (s : State) (v : Word) : exec (.registerWrite 0x341 v) s =
    (if bits v.toNat 19 0 = 0 || 1000000 < bits v.toNat 19 0 then .bounds else .done (s.setMasked 0x341 0xFFFFF v) : Wr).out s :=
  exec_registerWrite_ranged rfl rfl rfl

/-- FABTO. -/
theorem exec_write_fabto (s : State) (v : Word) : exec (.registerWrite 0x681 v) s =
    (if bits v.toNat 19 0 < 2 || 1000000 < bits v.toNat 19 0 || bits v.toNat 39 20 = 0 || bits v.toNat 19 0 ≤ bits v.toNat 39 20 then .bounds
      else .done (s.setMasked 0x681 0xFFFFFFFFFF v) : Wr).out s :=
  exec_registerWrite_ranged rfl rfl rfl

/-- PINC. -/
theorem exec_write_pinc (s : State) (v : Word) : exec (.registerWrite 0x684 v) s =
    (Wr.done { s with fab := { s.fab with pinc := tset 0 s.fab.pinc (s.preg 0x683) (v.extractLsb' 0 4) } }).out s :=
  exec_registerWrite_ranged rfl rfl rfl

/-- HMWIN. -/
theorem exec_write_hmwin (s : State) (v : Word) : exec (.registerWrite 0x702 v) s =
    (if 11 < bits v.toNat 3 0 then .bounds else .done (s.setMasked 0x702 0xF v) : Wr).out s :=
  exec_registerWrite_ranged rfl rfl rfl

/-- ACTCFG. -/
theorem exec_write_actcfg (s : State) (v : Word) : exec (.registerWrite 0x500 v) s =
    (if bits v.toNat 11 0 < 256 then .bounds else .done ((s.setMasked 0x500 0xFFF v).clearBits 0x500 0xFFFFFFFF00000000 v) : Wr).out s :=
  exec_registerWrite_ranged rfl rfl rfl

/-- What RCAPCTL takes: EN and LOG2N; SEQ starts anew when EN goes to 1. -/
def State.writeRcapctl (s : State) (v : Word) : State :=
  if bit v.toNat 5 && !bit (s.preg 0x719) 5 then (s.setMasked 0x719 0x3F v).setPregBits 0x719 63 32 0 else s.setMasked 0x719 0x3F v

/-- RCAPCTL. -/
theorem exec_write_rcapctl (s : State) (v : Word) : exec (.registerWrite 0x719 v) s =
    (if bits v.toNat 4 0 < 4 || 20 < bits v.toNat 4 0 then .bounds else .done (s.writeRcapctl v) : Wr).out s :=
  exec_registerWrite_ranged rfl rfl rfl

/-- A value in the range of a register that is all one field or more is taken under the register's mask. -/
theorem takes_of_guard {s : State} {i : Instr} {n mask : Nat} {v : Word} {c : Prop} [Decidable c]
    (he : exec i s = (if c then .bounds else .done (s.setMasked n mask v) : Wr).out s) (hc : ¬c) :
    ∃ t, exec i s = .next t ∧ RegisterTakes s t n mask v :=
  ⟨_, he.trans (Wr.out_guard_done hc), registerTakes_setMasked s n mask v⟩

theorem actcfg_takes (s : State) (v : Word) : let t := (s.setMasked 0x500 0xFFF v).clearBits 0x500 0xFFFFFFFF00000000 v
    RegistersBut [0x500] s t ∧ { t with pregs := s.pregs } = s ∧
      ∀ b, b < 64 → (t.preg 0x500).testBit b = if b < 12 then v.getLsbD b else if b < 32 then (s.preg 0x500).testBit b
        else (s.preg 0x500).testBit b && !v.getLsbD b := by
  refine ⟨fun n hn => ?_, by rw [clearBits_with_pregs, setMasked_with_pregs], fun b hb => ?_⟩
  · rw [List.mem_singleton] at hn
    rw [preg_clearBits_other _ _ _ hn, preg_setMasked_other _ _ _ hn]
  · rw [testBit_preg_clearBits _ _ _ _ hb, testBit_preg_setMasked _ _ _ _ hb]
    have hlow : Nat.testBit 0xFFF b = decide (b < 12) := Nat.testBit_two_pow_sub_one 12 b
    have hhigh : Nat.testBit 0xFFFFFFFF00000000 b = decide (32 ≤ b) := by revert b; decide
    rw [hlow, hhigh]
    by_cases h1 : b < 12
    · have h2 : ¬32 ≤ b := by omega
      simp [h1, h2]
    · by_cases h2 : b < 32
      · simp [h1, h2]
      · simp [h1, h2, Nat.not_lt.1 h2]

/-- SEQ set to zero, and nothing else of the register. -/
theorem clearSeq_takes {s : State} {r w : Nat} (hr : s.preg 0x719 = r) (hlow : bits r 5 0 = w) :
    RegistersBut [0x719] s (s.setPregBits 0x719 63 32 0) ∧ bits ((s.setPregBits 0x719 63 32 0).preg 0x719) 5 0 = w ∧
      bits ((s.setPregBits 0x719 63 32 0).preg 0x719) 31 6 = bits r 31 6 ∧
      bits ((s.setPregBits 0x719 63 32 0).preg 0x719) 63 32 = 0 := by
  rw [preg_setPregBits_same _ _ _ _ _ (by decide) (by decide), hr]
  refine ⟨fun n hn => preg_setPregBits_other _ _ _ _ (by simpa using hn), ?_, ?_, ?_⟩
  · rw [bits_setBits_other _ _ _ _ _ _ (by decide) (by decide), hlow]
  · rw [bits_setBits_other _ _ _ _ _ _ (by decide) (by decide)]
  · rw [bits_setBits_same _ _ _ _ (by decide), Nat.zero_mod]

theorem rcapctl_takes (s : State) (v : Word) :
    RegistersBut [0x719] s (s.writeRcapctl v) ∧ bits ((s.writeRcapctl v).preg 0x719) 5 0 = wordBits v 5 0 ∧
      bits ((s.writeRcapctl v).preg 0x719) 31 6 = bits (s.preg 0x719) 31 6 ∧ { s.writeRcapctl v with pregs := s.pregs } = s ∧
      bits ((s.writeRcapctl v).preg 0x719) 63 32 = if v.getLsbD 5 && !bit (s.preg 0x719) 5 then 0 else bits (s.preg 0x719) 63 32 := by
  have hother : RegistersBut [0x719] s (s.setMasked 0x719 0x3F v) := (registerTakes_setMasked s 0x719 0x3F v).2.1
  have hlow : bits ((s.setMasked 0x719 0x3F v).preg 0x719) 5 0 = wordBits v 5 0 :=
    bits_preg_setMasked_covered s _ _ v (by decide) (by decide)
  have hmid : bits ((s.setMasked 0x719 0x3F v).preg 0x719) 31 6 = bits (s.preg 0x719) 31 6 :=
    bits_preg_setMasked_kept s _ _ v (by decide) (by decide)
  have hseq : bits ((s.setMasked 0x719 0x3F v).preg 0x719) 63 32 = bits (s.preg 0x719) 63 32 :=
    bits_preg_setMasked_kept s _ _ v (by decide) (by decide)
  have hbit : bit v.toNat 5 = v.getLsbD 5 := BitVec.testBit_toNat v
  rw [State.writeRcapctl, hbit]
  split
  · obtain ⟨kother, klow, kmid, kseq⟩ := clearSeq_takes (s := s.setMasked 0x719 0x3F v) rfl hlow
    refine ⟨fun n hn => (kother n hn).trans (hother n hn), klow, kmid.trans hmid, ?_, kseq⟩
    rw [setPregBits_with_pregs, setMasked_with_pregs]
  · exact ⟨hother, hlow, hmid, setMasked_with_pregs _ _ _ _ _, hseq⟩

/-- Settles O50: each register's write is its range check and its masked write; ACTCFG and RCAPCTL have a second field of another type. -/
theorem rangedRegistersTakeTheirBits : Obligations.RangedRegistersTakeTheirBits := by
  unfold Obligations.RangedRegistersTakeTheirBits
  intro s v
  simp only [wordBits_eq]
  refine ⟨fun h => ?_, fun h => ?_, fun h => ?_, fun h => ?_, ?_, fun h => ?_, fun h => ?_, fun h => ?_, fun h => ?_, fun h => ?_, fun h => ?_⟩
  · exact takes_of_guard (exec_write_drainlim s v) (by simp; omega)
  · rw [exec_write_drainlim, Wr.out_guard_bounds (by simpa using h)]
  · exact takes_of_guard (exec_write_fabto s v) (by simp; omega)
  · rw [exec_write_fabto, Wr.out_guard_bounds (by simpa [or_assoc] using h)]
  · refine ⟨_, (exec_write_pinc s v).trans (Wr.out_done _ _), rfl, rfl, fun r => ?_⟩
    exact tget_tset 0 s.fab.pinc _ r _
  · exact takes_of_guard (exec_write_hmwin s v) (by omega)
  · rw [exec_write_hmwin, Wr.out_guard_bounds h]
  · exact ⟨_, (exec_write_actcfg s v).trans (Wr.out_guard_done (by omega)), actcfg_takes s v⟩
  · rw [exec_write_actcfg, Wr.out_guard_bounds h]
  · exact ⟨_, (exec_write_rcapctl s v).trans (Wr.out_guard_done (by simp; omega)), rcapctl_takes s v⟩
  · rw [exec_write_rcapctl, Wr.out_guard_bounds (by simpa using h)]

end Sys2Proof.Machine
end

section
/-! SUPPORT. MFC and MTC: the number they name, and which registers a plain write reaches; then plain writes and gnoum writes (O19). -/

namespace Sys2Proof.Machine

/-! ## Register numbers -/

theorem gnoumReg_lt {n : Nat} (h : gnoumReg n = true) : n < 0x200 := by
  simp only [gnoumReg, List.contains_iff_mem, List.mem_cons, List.not_mem_nil, or_false] at h
  omega

theorem packageReg_range {n : Nat} (h : packageReg n = true) : 0x200 ≤ n ∧ n < 0x1000 := by
  simp only [packageReg, Bool.or_eq_true, Bool.and_eq_true, decide_eq_true_eq, List.contains_iff_mem, List.mem_cons, List.not_mem_nil,
    or_false] at h
  omega

theorem gnoumReg_of_packageReg {n : Nat} (h : packageReg n = true) : gnoumReg n = false :=
  Bool.eq_false_iff.2 fun hg => absurd (gnoumReg_lt hg) (Nat.not_lt.2 (packageReg_range h).1)

theorem packageReg_of_lq {n : Nat} (h1 : 0x300 ≤ n) (h2 : n < 0x340) : packageReg n = true := by simp [packageReg, h1, h2]

theorem packageReg_of_dead {n : Nat} (h1 : 0x640 ≤ n) (h2 : n < 0x680) : packageReg n = true := by
  have h3 : 0x600 ≤ n := by omega
  simp [packageReg, h2, h3]

/-! ## The number that MFC or MTC names -/

/-- An assigned number that the mode may access is what is meant (R72, R199). -/
theorem ctlNumber_ok {t : Task} {off : Word} {a : Reg} {n : Nat} (hn : n = (t.hart.x a + off).toNat) (h4 : n < 4096)
    (ha : assignedReg n = true) (hm : t.sup.mode = true ∨ userReg n = true) : ctlNumber t off a = .ok n := by
  unfold ctlNumber
  dsimp only
  rw [← hn, if_neg (by simp [ha, h4]), if_neg (by rcases hm with h | h <;> simp [h])]

/-- A number with no register raises ILLOP. -/
theorem ctlNumber_illop {t : Task} {off : Word} {a : Reg} {n : Nat} (hn : n = (t.hart.x a + off).toNat)
    (h : 4096 ≤ n ∨ assignedReg n = false) : ctlNumber t off a = raise (plainFault cILLOP) := by
  unfold ctlNumber
  dsimp only
  rw [← hn, if_pos (by simpa using h)]

/-- A number that is not open to mode U raises PERM there. -/
theorem ctlNumber_perm {t : Task} {off : Word} {a : Reg} {n : Nat} (hn : n = (t.hart.x a + off).toNat) (h4 : n < 4096)
    (ha : assignedReg n = true) (hm : t.sup.mode = false) (hu : userReg n = false) : ctlNumber t off a = raise (plainFault cPERM) := by
  unfold ctlNumber
  dsimp only
  rw [← hn, if_neg (by simp [ha, h4]), if_pos (by simp [hm, hu])]

/-! ## MTC -/

/-- MTC to a register of the gnoum. -/
theorem exec_mtc_gnoum {s : State} {k n : Nat} {t : Task} {r a : Reg} {imm : BitVec 12} (hx : ScpExecutes s k t)
    (hr : t.hart.ready [r, a] = true) (hn : n = (t.hart.x a + BitVec.ofInt 64 imm.toInt).toNat) (hg : gnoumReg n = true)
    (hm : t.sup.mode = true ∨ userReg n = true) :
    exec (.mtc r a imm) s = .next (s.putTask k (({ t with hart := t.hart.advance 4 } : Task).writeGnoum n (t.hart.x r))) := by
  have hc : ctlNumber t (imm.signExtend 64) a = .ok n :=
    ctlNumber_ok hn (Nat.lt_trans (gnoumReg_lt hg) (by decide)) (by simp [assignedReg, hg]) hm
  show execMtc r a imm s = _
  rw [execMtc, onScp_of hx]
  simp [hr, hc, hg]

/-- MTC to a package register that takes the value. -/
theorem exec_mtc_package {s u : State} {k n : Nat} {t : Task} {r a : Reg} {imm : BitVec 12} (hx : ScpExecutes s k t)
    (hr : t.hart.ready [r, a] = true) (hn : n = (t.hart.x a + BitVec.ofInt 64 imm.toInt).toNat) (hp : packageReg n = true)
    (hm : t.sup.mode = true) (hw : (s.putTask k { t with hart := t.hart.advance 4 }).writePackage n (t.hart.x r) = .done u) :
    exec (.mtc r a imm) s = .next u := by
  have hc : ctlNumber t (imm.signExtend 64) a = .ok n :=
    ctlNumber_ok hn (packageReg_range hp).2 (by simp [assignedReg, hp]) (.inl hm)
  show execMtc r a imm s = _
  rw [execMtc, onScp_of hx]
  simp [hr, hc, gnoumReg_of_packageReg hp, hw]

/-! ## Gnoum registers -/

/-- A word with its last k bits clear. -/
theorem and_not_low (v : Word) (k : Nat) : v &&& ~~~BitVec.ofNat 64 (2 ^ k - 1) = BitVec.ofNat 64 (v.toNat / 2 ^ k * 2 ^ k) := by
  refine BitVec.eq_of_getLsbD_eq fun i hi => ?_
  rw [BitVec.getLsbD_and, BitVec.getLsbD_not, BitVec.getLsbD_ofNat, BitVec.getLsbD_ofNat, Nat.testBit_two_pow_sub_one,
    Nat.testBit_mul_two_pow, Nat.testBit_div_two_pow, BitVec.testBit_toNat]
  by_cases h : i < k
  · simp [h, Nat.not_le.2 h]
  · simp [h, hi, Nat.sub_add_cancel (Nat.not_lt.1 h), Nat.not_lt.1 h]

/-- A write of a gnoum register other than SFCTL changes supervisory registers alone. -/
theorem writeGnoum_with_sup (t : Task) {n : Nat} (v : Word) (h : n ≠ 0x10A) (x : Sup) :
    { t.writeGnoum n v with sup := x } = { t with sup := x } := by
  unfold Task.writeGnoum
  split
  case h_9 => exact absurd rfl h
  all_goals rfl

/-- The bits that a write of a gnoum register takes. -/
theorem writeGnoum_sup (t : Task) {n : Nat} (v : Word) (h : n ≠ 0x10A) : (t.writeGnoum n v).sup =
    { t.sup with
      dtag := if n = 0x010 then v.setWidth 6 else t.sup.dtag
      pmode := if n = 0x100 then v.getLsbD 1 else t.sup.pmode
      exl := if n = 0x100 then v.getLsbD 2 else t.sup.exl
      epc := if n = 0x102 then BitVec.ofNat 64 (v.toNat / 4 * 4) else t.sup.epc
      ssave0 := if n = 0x105 then v else t.sup.ssave0
      ssave1 := if n = 0x106 then v else t.sup.ssave1
      ssave2 := if n = 0x107 then v else t.sup.ssave2
      ssave3 := if n = 0x108 then v else t.sup.ssave3
      svec := if n = 0x109 then BitVec.ofNat 64 (v.toNat / 64 * 64) else t.sup.svec
      pend := if n = 0x10B then t.sup.pend && !v.getLsbD 0 else t.sup.pend } := by
  have hdtag : v.extractLsb' 0 6 = v.setWidth 6 := BitVec.eq_of_toNat_eq (by simp)
  have hepc : v &&& ~~~3#64 = BitVec.ofNat 64 (v.toNat / 4 * 4) := and_not_low v 2
  have hsvec : v &&& ~~~63#64 = BitVec.ofNat 64 (v.toNat / 64 * 64) := and_not_low v 6
  unfold Task.writeGnoum
  split
  case h_1 => rw [hdtag]; rfl
  case h_3 => rw [hepc]; rfl
  case h_8 => rw [hsvec]; rfl
  case h_9 => exact absurd rfl h
  case h_11 h1 h2 h3 h4 h5 h6 h7 h8 _ h10 =>
    rw [if_neg h1, if_neg h2, if_neg h2, if_neg h3, if_neg h4, if_neg h5, if_neg h6, if_neg h7, if_neg h8, if_neg h10]
  all_goals rfl

/-! ## Plain package registers -/

theorem plainMask_of_plainBits {n m : Nat} (h : PlainBits n m) : plainMask n = some m ∧ packageReg n = true := by
  rcases h with h | ⟨q, hq, rfl, rfl⟩
  · simp only [List.mem_cons, Prod.mk.injEq, List.not_mem_nil, or_false] at h
    rcases h with ⟨rfl, rfl⟩ | ⟨rfl, rfl⟩ | ⟨rfl, rfl⟩ | ⟨rfl, rfl⟩ | ⟨rfl, rfl⟩ | ⟨rfl, rfl⟩ | ⟨rfl, rfl⟩ | ⟨rfl, rfl⟩ | ⟨rfl, rfl⟩ |
      ⟨rfl, rfl⟩ | ⟨rfl, rfl⟩ | ⟨rfl, rfl⟩ | ⟨rfl, rfl⟩ | ⟨rfl, rfl⟩ | ⟨rfl, rfl⟩ | ⟨rfl, rfl⟩ <;> exact ⟨rfl, rfl⟩
  · exact ⟨if_pos (by simp; omega), packageReg_of_lq (by omega) (by omega)⟩

/-- LQCTL, LQTAIL and LQSTAT, and the bitmap of dead peers, have no plain bits. -/
theorem plainMask_eq_none {n : Nat} (h : (0x300 ≤ n ∧ n < 0x340 ∧ n % 4 ≠ 0) ∨ (0x640 ≤ n ∧ n < 0x680)) : plainMask n = none := by
  unfold plainMask
  simp only [List.contains_iff_mem, List.mem_cons, List.not_mem_nil, or_false, Bool.and_eq_true, Bool.or_eq_true, decide_eq_true_eq]
  repeat rw [if_neg (by omega)]

theorem w1cMask_of_oneClearsBits {n m : Nat} (h : OneClearsBits n m) :
    plainMask n = none ∧ w1cMask n = some m ∧ packageReg n = true := by
  rcases h with h | ⟨q, hq, rfl, rfl⟩ | ⟨h1, h2, rfl⟩
  · simp only [List.mem_cons, Prod.mk.injEq, List.not_mem_nil, or_false] at h
    rcases h with ⟨rfl, rfl⟩ | ⟨rfl, rfl⟩ | ⟨rfl, rfl⟩ <;> exact ⟨rfl, rfl, rfl⟩
  · exact ⟨plainMask_eq_none (.inl (by omega)), if_pos (by simp; omega), packageReg_of_lq (by omega) (by omega)⟩
  · refine ⟨plainMask_eq_none (.inr ⟨h1, h2⟩), ?_, packageReg_of_dead h1 h2⟩
    rw [w1cMask, if_neg (by simp; omega), if_pos (by simp [h1, h2])]

/-- What a state holds after a plain write of register n: the register reads as the new word, and nothing else differs. -/
def PlainlyWritten (s u : State) (n : Nat) (new : Word) : Prop :=
  u.preg n = new.toNat ∧ (∀ j, j ≠ n → u.preg j = s.preg j) ∧ { u with pregs := s.pregs } = s

theorem setMasked_plainlyWritten {s : State} {n m : Nat} {v new : Word}
    (h : ∀ b, new.getLsbD b = if m.testBit b then v.getLsbD b else (BitVec.ofNat 64 (s.preg n)).getLsbD b) :
    PlainlyWritten s (s.setMasked n m v) n new := by
  refine ⟨preg_eq_of_testBit fun b hb => ?_, fun j hj => preg_setMasked_other s m v hj, setMasked_with_pregs s n m v _⟩
  rw [testBit_preg_setMasked s n m v hb, h b, BitVec.getLsbD_ofNat, decide_eq_true hb, Bool.true_and]

theorem clearBits_plainlyWritten {s : State} {n m : Nat} {v new : Word}
    (h : ∀ b, new.getLsbD b = ((BitVec.ofNat 64 (s.preg n)).getLsbD b && !(m.testBit b && v.getLsbD b))) :
    PlainlyWritten s (s.clearBits n m v) n new := by
  refine ⟨preg_eq_of_testBit fun b hb => ?_, fun j hj => preg_clearBits_other s m v hj, clearBits_with_pregs s n m v _⟩
  rw [testBit_preg_clearBits s n m v hb, h b, BitVec.getLsbD_ofNat, decide_eq_true hb, Bool.true_and]

/-- A write of a plain register, or of one of event flags, is done and replaces or clears its bits. -/
theorem wrPlain_plainlyWritten {s : State} {n m : Nat} {v new : Word}
    (h : (PlainBits n m ∧ ∀ b, new.getLsbD b = if m.testBit b then v.getLsbD b else (BitVec.ofNat 64 (s.preg n)).getLsbD b) ∨
      (OneClearsBits n m ∧ ∀ b, new.getLsbD b = ((BitVec.ofNat 64 (s.preg n)).getLsbD b && !(m.testBit b && v.getLsbD b)))) :
    packageReg n = true ∧ ∃ u, s.wrPlain n v = some (.done u) ∧ PlainlyWritten s u n new := by
  rcases h with ⟨hn, h⟩ | ⟨hn, h⟩
  · obtain ⟨hm, hp⟩ := plainMask_of_plainBits hn
    exact ⟨hp, _, wrPlain_of_plainMask hm, setMasked_plainlyWritten h⟩
  · obtain ⟨hm, hc, hp⟩ := w1cMask_of_oneClearsBits hn
    exact ⟨hp, _, wrPlain_of_w1cMask hm hc, clearBits_plainlyWritten h⟩

theorem writePackage_of_wrPlain {s : State} {n : Nat} {v : Word} {w : Wr} (h : s.wrPlain n v = some w) : s.writePackage n v = w := by
  unfold State.writePackage
  simp only [h]

/-- Settles O19: a gnoum register by the branches of `writeGnoum`; a package register by its mask, for MTC in the state where the pc has moved on. -/
theorem registerWritesTakeTheirBits : Obligations.RegisterWritesTakeTheirBits := by
  unfold Obligations.RegisterWritesTakeTheirBits
  refine ⟨?_, ?_⟩
  · rintro s k t r a imm n v hx hr hn rfl hg hm h10
    exact ⟨_, ⟨_, exec_mtc_gnoum hx hr hn hg hm, onlyTask_putTask s k _⟩, writeGnoum_with_sup _ _ h10 _, writeGnoum_sup _ _ h10⟩
  · intro s num v m new h
    refine ⟨?_, ?_⟩
    · obtain ⟨-, u, hu, hw⟩ := wrPlain_plainlyWritten h
      exact ⟨u, exec_registerWrite hu, hw⟩
    · rintro k t r a imm hx hr hm hn rfl
      obtain ⟨hp, u, hu, hnew, hother, hrest⟩ :=
        wrPlain_plainlyWritten (s := s.putTask k { t with hart := t.hart.advance 4 }) h
      have htasks : u.tasks = (s.putTask k { t with hart := t.hart.advance 4 }).tasks := (congrArg State.tasks hrest :)
      refine ⟨u, exec_mtc_package hx hr hn.symm hp hm (writePackage_of_wrPlain hu), hnew, hother, ?_, ?_⟩
      · rw [State.task?, htasks]
        exact task?_putTask_same s k _
      · exact (congrArg (fun x : State => { x with tasks := s.tasks }) hrest :)

end Sys2Proof.Machine
end

section
/-! SUPPORT. What an SCP fault leaves of its task, in the words of the statements. -/

namespace Sys2Proof.Machine

theorem toNat_append_eq_add {m n : Nat} (x : BitVec m) (y : BitVec n) : (x ++ y).toNat = y.toNat + x.toNat * 2 ^ n := by
  rw [BitVec.toNat_append, ← Nat.shiftLeft_add_eq_or_of_lt y.isLt, Nat.shiftLeft_eq, Nat.add_comm]

/-- The fields of ECAUSE (R315). -/
theorem TrapCause.word_toNat (c : TrapCause) : c.word.toNat = c.code.toNat + c.cls.toNat * 2 ^ 8 + c.code8.toNat * 2 ^ 10 +
    c.tag.toNat * 2 ^ 18 + c.va.isSome.toNat * 2 ^ 24 + c.wr.toNat * 2 ^ 25 + c.defer.toNat * 2 ^ 26 := by
  simp only [TrapCause.word, toNat_append_eq_add, BitVec.toNat_ofBool, BitVec.toNat_ofNat, Nat.zero_mod, Nat.zero_mul, Nat.add_zero]
  ring

/-- A precise fault of class 0 at the pc is a trap taken (R183, R317). -/
theorem trapTaken_scpCause (t : Task) (f : FaultInfo) (pc : Word) :
    TrapTaken t (t.trapEntry (scpCause f) pc pc) f.code.toNat 0 0 0 f.va f.wr false pc pc := by
  have hepc : pc &&& ~~~3#64 = BitVec.ofNat 64 (pc.toNat / 4 * 4) := and_not_low pc 2
  refine ⟨?_, rfl, ?_, rfl, rfl, rfl, rfl, rfl, rfl, rfl, ?_, rfl⟩
  · rw [Task.trapEntry_sup, TrapCause.word_toNat]
    rfl
  · rw [Task.trapEntry_sup, hepc]
    exact Nat.mod_eq_of_lt (by have := pc.isLt; omega)
  · rw [Task.trapEntry_full]
    simp [scpCause, beq_eq_decide]

theorem faults_of {i : Instr} {s : State} {k : Nat} {t : Task} {code : Nat} (ht : s.task? k = some t) (he : t.sup.exl = false)
    (hcode : code < 256) (hi : exec i s = .next (s.scpFault k (plainFault code))) : Faults i s k t code none false := by
  rw [scpFault_of ht he] at hi
  have htrap := trapTaken_scpCause t (plainFault code) t.hart.pc
  rw [show (plainFault code).code.toNat = code from Nat.mod_eq_of_lt hcode] at htrap
  exact ⟨_, ⟨_, hi, onlyTask_putTask s k _⟩, htrap⟩

end Sys2Proof.Machine
end

section
/-! MFC: what each register of control space reads as, and what the word does with it (O18). -/

namespace Sys2Proof.Machine

/-! ## Executing MFC -/

/-- MFC of a register whose read has no effect of its own. -/
theorem exec_mfc_read {s x : State} {k n : Nat} {t : Task} {d a : Reg} {imm : BitVec 11} {v : Word} (hx : ScpExecutes s k t)
    (hr : t.hart.ready [d, a] = true) (hc : ctlNumber t (BitVec.ofInt 64 imm.toInt) a = .ok n)
    (hv : (if gnoumReg n then (s.readGnoum t n, s) else s.readPackage n) = (v, x)) :
    exec (.mfc d a imm) s = .next (x.putTask k { t with hart := (t.hart.setX d v).advance 4 }) := by
  have hc' : ctlNumber t (imm.signExtend 64) a = .ok n := hc
  show execMfc d a imm s = _
  rw [execMfc, onScp_of hx]
  simp [hr, hc', hv]

/-- Where the read leaves the state as it is, MFC is a register result. -/
theorem mfc_results {s : State} {k n : Nat} {t : Task} {d a : Reg} {imm : BitVec 11} {v : Word} (hx : ScpExecutes s k t)
    (hr : t.hart.ready [d, a] = true) (hc : ctlNumber t (BitVec.ofInt 64 imm.toInt) a = .ok n)
    (hv : (if gnoumReg n then (s.readGnoum t n, s) else s.readPackage n) = (v, s)) : Results (.mfc d a imm) s (.scp k) t.hart d v 4 :=
  results_of hx.executes ((exec_mfc_read hx hr hc hv).trans (by rw [putHart_scp hx.2.1])) rfl

/-- MFC of a number that it may not name. -/
theorem mfc_faults {s : State} {k code : Nat} {t : Task} {d a : Reg} {imm : BitVec 11} (hx : ScpExecutes s k t)
    (hr : t.hart.ready [d, a] = true) (he : t.sup.exl = false) (hcode : code < 256)
    (hc : ctlNumber t (BitVec.ofInt 64 imm.toInt) a = raise (plainFault code)) : Faults (.mfc d a imm) s k t code none false := by
  refine faults_of hx.2.1 he hcode ?_
  have hc' : ctlNumber t (imm.signExtend 64) a = .error (.trap (plainFault code)) := hc
  show execMfc d a imm s = _
  rw [execMfc, onScp_of hx]
  simp [hr, hc']

/-! ## Package registers -/

theorem b2n_eq_toNat (b : Bool) : b2n b = b.toNat := by cases b <;> rfl

/-- A number made of one bit for each index below n holds these bits. -/
theorem bitSum_spec (f : Nat → Bool) (n : Nat) :
    (List.range n).foldl (fun a p => a + b2n (f p) * 2 ^ p) 0 < 2 ^ n ∧
      ∀ b, ((List.range n).foldl (fun a p => a + b2n (f p) * 2 ^ p) 0).testBit b = (decide (b < n) && f b) := by
  induction n with
  | zero => simp
  | succ n ih =>
    obtain ⟨hlt, hbits⟩ := ih
    rw [List.range_succ, List.foldl_append, List.foldl_cons, List.foldl_nil, b2n_eq_toNat]
    generalize (List.range n).foldl (fun a p => a + b2n (f p) * 2 ^ p) 0 = x at hlt hbits
    refine ⟨?_, fun b => ?_⟩
    · have := Nat.mul_le_mul_right (2 ^ n) (Nat.le_of_lt_succ (Bool.toNat_lt (f n)))
      rw [Nat.pow_succ]
      omega
    · rw [Nat.add_comm, Nat.mul_comm, Nat.testBit_two_pow_mul_add _ hlt, Nat.testBit_bool_toNat]
      rcases Nat.lt_trichotomy b n with h | rfl | h
      · rw [if_pos h, hbits b]
        simp [h, Nat.lt_succ_of_lt h]
      · simp
      · have h1 : ¬b < n := by omega
        have h2 : ¬b - n = 0 := by omega
        have h3 : ¬b < n + 1 := by omega
        simp [h1, h2, h3]

/-- GLSTAT: its fields hold the state of the link (R398). -/
theorem glstat_fields (s : State) (l : Nat) : let v := BitVec.ofNat 64 (s.glstat l)
    wordBits v 15 0 = (s.link (32 + l)).txMask.toNat ∧ wordBits v 31 16 = (s.link (32 + l)).rxMask.toNat ∧
      v.getLsbD 32 = (s.link (32 + l)).up ∧ wordBits v 47 33 = 0 ∧ wordBits v 63 48 = (s.link (32 + l)).replayed % 65536 := by
  have htx := (s.link (32 + l)).txMask.isLt
  have hrx := (s.link (32 + l)).rxMask.isLt
  have hup : (s.link (32 + l)).up.toNat < 2 := Bool.toNat_lt _
  have hre : (s.link (32 + l)).replayed % 65536 < 65536 := Nat.mod_lt _ (by decide)
  have hbit : (s.link (32 + l)).up = decide ((s.link (32 + l)).up.toNat = 1) := by cases (s.link (32 + l)).up <;> rfl
  have hgl : s.glstat l = (s.link (32 + l)).txMask.toNat + (s.link (32 + l)).rxMask.toNat * 2 ^ 16 + (s.link (32 + l)).up.toNat * 2 ^ 32 +
      (s.link (32 + l)).replayed % 65536 * 2 ^ 48 := by rw [← b2n_eq_toNat]; rfl
  have hlt : s.glstat l < 2 ^ 64 := by omega
  have hv : (BitVec.ofNat 64 (s.glstat l)).toNat = s.glstat l := by rw [BitVec.toNat_ofNat, Nat.mod_eq_of_lt hlt]
  dsimp only
  rw [hbit, ← BitVec.testBit_toNat, Nat.testBit_eq_decide_div_mod_eq]
  simp only [wordBits, hv]
  rw [hgl]
  refine ⟨by omega, by omega, ?_, by omega, by omega⟩
  congr 1
  apply propext
  omega

/-- What the model reads is what the register reads as, where the read has no effect of its own: all of them but AGESTAT once hours count. -/
theorem readPackage_reads (s : State) {n : Nat} (h : n ≠ 0x720 ∨ s.host.planned = false) :
    ∃ v, s.readPackage n = (v, s) ∧ PackageReads s n v := by
  unfold State.readPackage PackageReads
  by_cases hwo : n = 0x230 ∨ n = 0x344 ∨ n = 0x345 ∨ n = 0x348 ∨ n = 0x686 ∨ n = 0x705 ∨ n = 0x710
  · exact ⟨0, if_pos (by simpa using hwo), by rw [if_pos hwo]⟩
  rw [if_neg (by simpa using hwo)]
  simp only [if_neg hwo]
  by_cases hpinc : n = 0x684
  · refine ⟨_, if_pos hpinc, ?_⟩
    rw [if_pos hpinc, BitVec.toNat_ofNat]
    exact Nat.mod_eq_of_lt (Nat.lt_trans (BitVec.isLt _) (by decide))
  simp only [if_neg hpinc]
  by_cases hgl : 0x690 ≤ n ∧ n < 0x6A0
  · refine ⟨_, if_pos (by simpa using hgl), ?_⟩
    rw [if_pos hgl]
    rintro l rfl
    rw [Nat.add_comm]
    exact glstat_fields s _
  rw [if_neg (by simpa using hgl)]
  simp only [if_neg hgl]
  by_cases hll : n = 0x6A0
  · refine ⟨_, if_pos hll, ?_⟩
    rw [if_pos hll]
    intro b
    rw [BitVec.getLsbD_ofNat, State.llstat, (bitSum_spec (fun p => (s.link p).up) 31).2 b]
    by_cases hb : b < 31
    · simp [hb, Nat.lt_trans hb (show 31 < 64 by decide)]
    · simp [hb]
  simp only [if_neg hll]
  refine ⟨BitVec.ofNat 64 (s.preg n), ?_, rfl⟩
  by_cases hage : n = 0x720
  · subst hage
    simp [h.resolve_left (fun g => g rfl)]
  · rw [if_neg hage]

/-! ## AGESTAT once hours count -/

/-- The state after a read of AGESTAT that draws new hours (log 2). -/
def State.ageRead (s : State) : State :=
  let h := bits (s.preg 0x720) 31 16
  s.draw.2.setPregBits 0x720 31 16 (h + Config.freeNat s.draw.1 % max 1 (24 - h))

theorem readPackage_agestat {s : State} (h : s.host.planned = true) :
    s.readPackage 0x720 = (BitVec.ofNat 64 (s.ageRead.preg 0x720), s.ageRead) := by
  unfold State.readPackage
  rw [if_neg (by decide), if_neg (by decide), if_neg (by decide), if_neg (by decide), if_pos rfl, if_neg (by simp [h])]
  rfl

theorem ageRead_fields {s : State} (h : bits (s.preg 0x720) 31 16 < 24) : let v := BitVec.ofNat 64 (s.ageRead.preg 0x720)
    wordBits v 15 0 = s.preg 0x720 % 2 ^ 16 ∧ bits (s.preg 0x720) 31 16 ≤ wordBits v 31 16 ∧ wordBits v 31 16 < 24 := by
  have hage : s.ageRead.preg 0x720 = setBits (s.preg 0x720) 31 16
      (bits (s.preg 0x720) 31 16 + Config.freeNat s.draw.1 % max 1 (24 - bits (s.preg 0x720) 31 16)) :=
    preg_setPregBits_same s.draw.2 _ _ _ _ (by decide) (by decide)
  have hv : ∀ hi lo, wordBits (BitVec.ofNat 64 (s.ageRead.preg 0x720)) hi lo = bits (s.ageRead.preg 0x720) hi lo := fun hi lo => by
    rw [wordBits, BitVec.toNat_ofNat, Nat.mod_eq_of_lt (preg_lt _ _), bits]
  have hmax : max 1 (24 - bits (s.preg 0x720) 31 16) = 24 - bits (s.preg 0x720) 31 16 := by omega
  have hdraw : Config.freeNat s.draw.1 % (24 - bits (s.preg 0x720) 31 16) < 24 - bits (s.preg 0x720) 31 16 := Nat.mod_lt _ (by omega)
  have hsum : bits (s.preg 0x720) 31 16 + Config.freeNat s.draw.1 % (24 - bits (s.preg 0x720) 31 16) < 2 ^ (31 + 1 - 16) := by omega
  dsimp only
  rw [hv, hv, hage, hmax, bits_setBits_other _ _ _ _ _ _ (by decide) (by decide), bits_setBits_same _ _ _ _ (by decide),
    Nat.mod_eq_of_lt hsum]
  exact ⟨by rw [bits, Nat.pow_zero, Nat.div_one], Nat.le_add_right _ _, by omega⟩

/-! ## Gnoum registers -/

/-- DTAG beside the VA-valid bit of the tag it names (R320). -/
theorem dtagWord_toNat (d : BitVec 6) (b : Bool) :
    (d.setWidth 64 ||| (BitVec.ofBool b).setWidth 64 <<< 8).toNat = d.toNat + 256 * b.toNat := by
  have hd : d.toNat < 2 ^ 8 := Nat.lt_trans d.isLt (by decide)
  have hw : (d.setWidth 64).toNat = d.toNat := BitVec.toNat_setWidth_of_le (by decide)
  rw [BitVec.toNat_or, hw, Nat.or_comm]
  cases b
  · exact (Nat.zero_or _).trans (Nat.add_zero _).symm
  · exact (Nat.two_pow_add_eq_or_of_lt hd 1).symm.trans (Nat.add_comm _ _)

/-- DEVID as the sum of its fields (R313). The stepping is given as a function of a variable that it ignores: a comparison of closed sums would
count the opaque stepping's multiple down. -/
theorem devid_sum : ∃ (p q r : Nat) (x : Unit → Nat),
    (∀ u, devid = 0x4146 + 6 * p + x u * q + r) ∧ p = 2 ^ 16 ∧ q = 2 ^ 24 ∧ r = 2 ^ 32 :=
  ⟨_, _, _, fun _ => Config.stepping.toNat, fun _ => rfl, rfl, rfl, rfl⟩

theorem devid_fields : wordBits (BitVec.ofNat 64 devid) 15 0 = 0x4146 ∧ wordBits (BitVec.ofNat 64 devid) 23 16 = 6 := by
  obtain ⟨p, q, r, x, hsum, rfl, rfl, rfl⟩ := devid_sum
  rw [hsum (), wordBits, wordBits, BitVec.toNat_ofNat]
  omega

theorem statusWord_toNat (u : Sup) : u.statusWord.toNat = u.mode.toNat + 2 * u.pmode.toNat + 4 * u.exl.toNat := by
  rw [Sup.statusWord, Sup.status]
  cases u.mode <;> cases u.pmode <;> cases u.exl <;> rfl

/-- Settles O18: a gnoum register and a quiet package register are register results; AGESTAT is one in the state with its hours drawn. -/
theorem mfcReadsItsRegister : Obligations.MfcReadsItsRegister := by
  unfold Obligations.MfcReadsItsRegister
  refine ⟨?_, ?_⟩
  · intro s k t d a imm n hx hr hn
    refine ⟨fun h4 hg hm => ?_, fun h4 hp hq hm => ?_, fun h720 hplan hh hm => ?_, fun he h => ?_, fun he h4 ha hm hu => ?_⟩
    · exact mfc_results hx hr (ctlNumber_ok hn h4 (by simp [assignedReg, hg]) hm) (if_pos hg)
    · obtain ⟨v, hv, hreads⟩ := readPackage_reads s hq
      refine ⟨v, hreads, mfc_results hx hr (ctlNumber_ok hn h4 (by simp [assignedReg, hp]) (.inl hm)) ?_⟩
      rw [if_neg (by simp [gnoumReg_of_packageReg hp]), hv]
    · have hc := ctlNumber_ok hn (by omega) (by rw [h720]; rfl) (.inl hm)
      have hread : (if gnoumReg n then (s.readGnoum t n, s) else s.readPackage n) =
          (BitVec.ofNat 64 (s.ageRead.preg 0x720), s.ageRead) := by
        rw [h720, if_neg (by decide), readPackage_agestat hplan]
      have hx' : ScpExecutes s.ageRead k t := hx
      have hhart := (onlyHart_putHart hx'.executes.2.1 hx'.executes.2.2
        ((t.hart.setX d (BitVec.ofNat 64 (s.ageRead.preg 0x720))).advance 4)).1
      rw [putHart_scp hx'.2.1] at hhart
      exact ⟨_, _, _, exec_mfc_read hx hr hc hread, hhart, Hart.written _ _ _ _, ageRead_fields hh⟩
    · exact mfc_faults hx hr he (by decide) (ctlNumber_illop hn h)
    · exact mfc_faults hx hr he (by decide) (ctlNumber_perm hn h4 ha hm hu)
  · intro s t
    have hpend : ((BitVec.ofBool t.sup.pend).setWidth 64).toNat = t.sup.pend.toNat := by cases t.sup.pend <;> rfl
    refine ⟨devid_fields.1, devid_fields.2, rfl, rfl, ?_, rfl, rfl, statusWord_toNat _, rfl, rfl, rfl, rfl, rfl, rfl, rfl, rfl, rfl, rfl, hpend⟩
    exact dtagWord_toNat _ _

end Sys2Proof.Machine
end

section
/-! SUPPORT. What a fetch leaves of the tasks, what a long form's first word says, and the traps of words that cannot be executed (O5). -/

namespace Sys2Proof.Machine

/-! ## A fetch changes no task -/

theorem foldl_tasks {β : Type} (f : State → β → State) (l : List β) (s : State) (hf : ∀ a x, (f a x).tasks = a.tasks) :
    (l.foldl f s).tasks = s.tasks := by
  induction l generalizing s with
  | nil => rfl
  | cons x l ih => exact (ih (f s x)).trans (hf s x)

@[simp] theorem State.correct_tasks (s : State) (u : Nat) : (s.correct u).tasks = s.tasks := by
  unfold State.correct
  split <;> rfl

@[simp] theorem State.readLocal_tasks (s : State) (las : List Nat) : (s.readLocal las).1.tasks = s.tasks :=
  foldl_tasks _ _ s State.correct_tasks

@[simp] theorem State.cache_tasks (s : State) (e : TlbEntry) : (s.cache e).tasks = s.tasks := by
  unfold State.cache
  split <;> rfl

@[simp] theorem State.cacheWay_tasks (s : State) (asid : BitVec 16) (w : Way) : (s.cacheWay asid w).tasks = s.tasks := by
  unfold State.cacheWay
  rw [foldl_tasks _ _ _ State.cache_tasks]
  split
  · exact State.cache_tasks s _
  · rfl

@[simp] theorem State.takeWay_tasks (s : State) (asid : BitVec 16) (w : Way) : (s.takeWay asid w).1.tasks = s.tasks :=
  (State.cacheWay_tasks _ asid w).trans (foldl_tasks _ _ s State.correct_tasks)

@[simp] theorem State.pickLeaf_tasks (s : State) (asid : BitVec 16) (va : Nat) : (s.pickLeaf asid va).1.tasks = s.tasks := by
  unfold State.pickLeaf
  dsimp only
  split
  · exact State.takeWay_tasks s asid _
  · exact State.takeWay_tasks s.draw.2 asid _

@[simp] theorem State.fetchAddrs_tasks (s : State) (c : XCtx) (va : Nat) : (s.fetchAddrs c va).1.tasks = s.tasks := by
  unfold State.fetchAddrs
  split
  · rfl
  · dsimp only
    split
    · exact State.pickLeaf_tasks s c.asid va
    · exact State.pickLeaf_tasks s c.asid va
    · exact State.pickLeaf_tasks s c.asid va
    · split <;> exact State.pickLeaf_tasks s c.asid va

@[simp] theorem State.readWord_tasks (s : State) (va : Nat) (las : List Nat) : (s.readWord va las).1.tasks = s.tasks := by
  unfold State.readWord
  dsimp only
  split <;> exact State.readLocal_tasks s las

@[simp] theorem State.fetchWord_tasks (s : State) (c : XCtx) (va : Nat) : (s.fetchWord c va).1.tasks = s.tasks := by
  unfold State.fetchWord
  dsimp only
  split
  · exact State.fetchAddrs_tasks s c va
  · exact (State.readWord_tasks _ va _).trans (State.fetchAddrs_tasks s c va)

@[simp] theorem State.fetch_tasks (s : State) (ag : Agent) (pc : Word) : (s.fetch ag pc).1.tasks = s.tasks := by
  have h0 := State.fetchWord_tasks s (s.xctx ag) pc.toNat
  have h1 : ∀ va, ((s.fetchWord (s.xctx ag) pc.toNat).1.fetchAddrs (s.xctx ag) va).1.tasks = s.tasks :=
    fun va => (State.fetchAddrs_tasks _ _ va).trans h0
  unfold State.fetch
  dsimp only
  split
  · exact h0
  · split
    · split
      · exact h1 _
      · split
        · exact (State.readWord_tasks _ _ _).trans (h1 _)
        · exact h1 _
    · exact h0

theorem State.fetch_task? {s : State} {k : Nat} {t : Task} (h : s.task? k = some t) (ag : Agent) (pc : Word) :
    (s.fetch ag pc).1.task? k = some t := by
  rw [State.task?, State.fetch_tasks]
  exact h

/-! ## The first word of a long form -/

/-- A long form's first word with a major and a fn, and zeros beside. -/
def plainLong (maj fn : Nat) : BitVec 32 := BitVec.ofNat 32 ((0x30 + maj) * 2 ^ 26 + fn * 32)

/-- Does a decoding give an instruction of the Stoek cores or of the SCPs, as the major says? -/
def decodesUnder (maj : Nat) (r : Dec Instr) : Bool :=
  match r with
  | .ok i => i.isStoekOp == (maj == 5)
  | .error _ => false

/-- Every fn that a long major assigns has a word that decodes. -/
theorem plainLong_decodes : ∀ maj, maj < 8 → ∀ fn, fn < longFns maj → decodesUnder maj (decodeWords (plainLong maj fn) 0) = true := by
  decide

theorem plainLong_fields {maj fn : Nat} (hm : maj < 8) (hf : fn < 64) :
    (plainLong maj fn).toNat / 2 ^ 26 = 0x30 + maj ∧ (plainLong maj fn).toNat / 32 % 64 = fn := by
  rw [plainLong, BitVec.toNat_ofNat]
  omega

theorem exists_ok_of_decodesUnder {maj : Nat} {r : Dec Instr} (h : decodesUnder maj r = true) :
    ∃ i, r = .ok i ∧ i.isStoekOp = (maj == 5) := by
  cases r with
  | ok i => exact ⟨i, rfl, by simpa [decodesUnder] using h⟩
  | error e => cases h

theorem isLongWord_of_major {w : BitVec 32} (h1 : 0x30 ≤ w.toNat / 2 ^ 26) (h2 : w.toNat / 2 ^ 26 ≤ 0x37) : isLongWord w = true := by
  have : fld w 29 3 = (6 : BitVec 3) := BitVec.eq_of_toNat_eq (by
    rw [fld, BitVec.extractLsb'_toNat, Nat.shiftRight_eq_div_pow]
    show _ = 6
    omega)
  rw [isLongWord, this]
  rfl

/-- Where no word with this major and fn means an instruction of the agent, the second word is not examined (R172). -/
theorem examinesSecond_false {ag : Agent} {w : BitVec 32} (h1 : 0x30 ≤ w.toNat / 2 ^ 26) (h2 : w.toNat / 2 ^ 26 ≤ 0x37)
    (h : ∀ w' w2 i, w'.toNat / 2 ^ 26 = w.toNat / 2 ^ 26 → w'.toNat / 32 % 64 = w.toNat / 32 % 64 → decodeWords w' w2 = .ok i →
      legalFor ag i = false) : examinesSecond ag w = false := by
  have hmaj : (fld w 26 3).toNat = w.toNat / 2 ^ 26 - 0x30 := by
    rw [fld, BitVec.extractLsb'_toNat, Nat.shiftRight_eq_div_pow]
    omega
  have hfn : (fld w 5 6).toNat = w.toNat / 32 % 64 := by
    rw [fld, BitVec.extractLsb'_toNat, Nat.shiftRight_eq_div_pow]
  rw [Bool.eq_false_iff]
  intro hex
  obtain ⟨hknown, hunit⟩ := Bool.and_eq_true_iff.1 hex
  obtain ⟨i, hi, hstoek⟩ := exists_ok_of_decodesUnder
    (plainLong_decodes (fld w 26 3).toNat (fld w 26 3).isLt (fld w 5 6).toNat (of_decide_eq_true hknown))
  obtain ⟨hm, hf⟩ := plainLong_fields (fld w 26 3).isLt (fld w 5 6).isLt
  have hill : legalFor ag i = false := h _ 0 i (by omega) (by omega) hi
  have hmajor : longStoek w = i.isStoekOp := by
    rw [hstoek, longStoek, Bool.eq_iff_iff, beq_iff_eq, beq_iff_eq]
    exact ⟨fun e => by rw [e]; rfl, fun e => BitVec.eq_of_toNat_eq e⟩
  cases ag with
  | scp k =>
    have hscp : longStoek w = false := by simpa using hunit
    simp [legalFor, ← hmajor, hscp] at hill
  | stoek k tag =>
    have hstk : longStoek w = true := by simpa using hunit
    simp [legalFor, ← hmajor, hstk] at hill

/-! ## The step of a word that cannot be executed -/

/-- The turn of an agent that executes, with nothing to be taken before its next instruction, is that of its fetch. -/
theorem step_of_executes {s : State} {ag : Agent} {h : Hart} (ha : s.agenda = []) (he : s.engineTurn = false) (hx : Executes s ag h)
    (hb : ∀ k t, ag = .scp k → s.task? k = some t → t.beforeIssue k = none) :
    step s = if accepting (State.fetchIssue { s with engineTurn := true }) then State.fetchIssue { s with engineTurn := true }
      else .next { s with engineTurn := true } := by
  obtain ⟨hf, hr, -⟩ := hx
  unfold step State.agentTurn
  rw [ha]
  cases ag with
  | scp k =>
    cases ht : s.task? k with
    | none => simp [he, hf, ht, hr]
    | some t => simp [he, hf, ht, hb k t rfl ht, hr]
  | stoek k tag => simp [he, hf, hr]

theorem fetchIssue_illop {s : State} {h : Hart} (hh : s.hart? s.focus = some h) (hf : (s.fetch s.focus h.pc).2 = .illop) :
    s.fetchIssue = exec .illopDecode s := by
  unfold State.fetchIssue
  rw [hh]
  dsimp only
  rw [hf]

theorem fetchIssue_fault {s : State} {h : Hart} {f : FaultInfo} {bad : Option Nat} (hh : s.hart? s.focus = some h)
    (hf : (s.fetch s.focus h.pc).2 = .fault f bad) : s.fetchIssue = exec .instructionFetchFault s := by
  unfold State.fetchIssue
  rw [hh]
  dsimp only
  rw [hf]

/-- A long form of a fn that its agent has not is illegal, whatever its second word holds. -/
theorem fetch_unexamined {s s1 s2 : State} {ag : Agent} {pc : Word} {las las2 : List Nat} {w : BitVec 32}
    (h1 : s.fetchAddrs (s.xctx ag) pc.toNat = (s1, .ok las)) (h2 : s1.readWord pc.toNat las = (s2, .ok w))
    (h3 : (s2.fetchAddrs (s.xctx ag) (pc + 4).toNat).2 = .ok las2) (hl : isLongWord w = true) (hex : examinesSecond ag w = false) :
    (s.fetch ag pc).2 = .illop := by
  have hw : s.fetchWord (s.xctx ag) pc.toNat = (s2, .ok w) := by
    unfold State.fetchWord
    rw [h1]
    exact h2
  unfold State.fetch
  dsimp only
  rw [hw]
  dsimp only
  rw [if_pos hl, h3]
  dsimp only
  rw [hex]
  rfl

/-! ## The rows of a word that cannot be executed, on an SCP -/

theorem exec_illopDecode {s : State} {k : Nat} {t : Task} (hx : ScpExecutes s k t) (hf : (s.fetch (.scp k) t.hart.pc).2 = .illop) :
    exec .illopDecode s = .next ((s.fetch (.scp k) t.hart.pc).1.scpFault k (plainFault cILLOP)) := by
  show execIllopDecode s = _
  rw [execIllopDecode, onHart_of hx.executes]
  dsimp only
  rw [hf]
  rfl

/-- A fault of translation at a fetch, taken or tried again (R363). -/
theorem exec_fetchFault_translation {s : State} {k : Nat} {t : Task} {x : FaultInfo} (hx : ScpExecutes s k t)
    (hf : (s.fetch (.scp k) t.hart.pc).2 = .fault x none) : exec .instructionFetchFault s =
      if s.behindMark (.scp k) t.hart then .next s else .next ((s.fetch (.scp k) t.hart.pc).1.scpFault k x) := by
  show execInstructionFetchFault s = _
  rw [execInstructionFetchFault, onHart_of hx.executes]
  dsimp only
  rw [hf]
  rfl

/-- A fetch that meets an uncorrectable unit (R323). -/
theorem exec_fetchFault_uncorrectable {s : State} {k la : Nat} {t : Task} {x : FaultInfo} (hx : ScpExecutes s k t)
    (hf : (s.fetch (.scp k) t.hart.pc).2 = .fault x (some la)) : exec .instructionFetchFault s =
      .next (((s.fetch (.scp k) t.hart.pc).1.postUncorr 2 t.lg (x.va.getD t.hart.pc).toNat (s.paOf la) 0 0xFF t.hart.pc.toNat).scpFault k x) := by
  have hu : s.unitOf (agentTask (.scp k)) = t.lg := by simp [State.unitOf, agentTask, hx.2.1]
  show execInstructionFetchFault s = _
  rw [execInstructionFetchFault, onHart_of hx.executes]
  dsimp only
  rw [hf]
  dsimp only
  rw [hu]
  rfl

@[simp] theorem State.post_tasks (s : State) (ty sev u : Nat) (pay : List (Nat × Nat)) : (s.post ty sev u pay).tasks = s.tasks :=
  (congrArg State.tasks (post_frame s ty sev u pay) :)

@[simp] theorem State.postUncorr_tasks (s : State) (sev u va pa space tag pc : Nat) :
    (s.postUncorr sev u va pa space tag pc).tasks = s.tasks := State.post_tasks _ _ _ _ _

/-- The record that MC_UNCORR posts has a free syndrome (log 2). -/
theorem posted_postUncorr (s : State) (sev u va pa tag pc : Nat) : ∃ syn,
    Posted s (s.postUncorr sev u va pa 0 tag pc) 0x0001 sev u [(0x18, va), (0x20, pa), (0x28, tag * 256), (0x30, pc), (0x38, syn)] := by
  refine ⟨Config.freeNat s.draw.1 % 2 ^ 64, ?_⟩
  rw [State.postUncorr, Nat.zero_add]
  exact posted_post s.draw.2 _ _ _ _

/-- Settles O5: the step is that of the row by the turn's equation; R172 by a word for every fn that a major assigns; the rows by what a
fetch leaves of the tasks. -/
theorem unfetchableAndIllegalWordsTrap : Obligations.UnfetchableAndIllegalWordsTrap := by
  unfold Obligations.UnfetchableAndIllegalWordsTrap
  refine ⟨?_, ?_, ?_⟩
  · rintro s _ ag h ha he hx hb rfl
    have hstep := step_of_executes ha he hx hb
    obtain ⟨rfl, -, hh⟩ := hx
    refine ⟨?_, ?_⟩
    · rintro hf _ rfl
      rw [hstep, fetchIssue_illop (s := { s with engineTurn := true }) hh hf]
    · rintro f bad hf _ rfl
      rw [hstep, fetchIssue_fault (s := { s with engineTurn := true }) hh hf]
  · intro s s1 s2 ag pc las las2 w h1 h2 h3 hlo hhi hill
    exact fetch_unexamined h1 h2 h3 (isLongWord_of_major hlo hhi) (examinesSecond_false hlo hhi hill)
  · rintro s k t _ hx he rfl
    have ht := State.fetch_task? hx.2.1 (.scp k) t.hart.pc
    refine ⟨fun hf => ?_, fun x hf hm => ?_, fun x hf hm => ?_, fun x la hf => ?_⟩
    · rw [exec_illopDecode hx hf, scpFault_of ht he]
      exact ⟨_, _, rfl, onlyTask_putTask _ k _, trapTaken_scpCause t (plainFault cILLOP) t.hart.pc⟩
    · rw [exec_fetchFault_translation hx hf, if_pos hm]
    · rw [exec_fetchFault_translation hx hf, if_neg (by simp [hm]), scpFault_of ht he]
      exact ⟨_, _, rfl, onlyTask_putTask _ k _, trapTaken_scpCause t x t.hart.pc⟩
    · have ht' : ((s.fetch (.scp k) t.hart.pc).1.postUncorr 2 t.lg (x.va.getD t.hart.pc).toNat (s.paOf la) 0 0xFF
          t.hart.pc.toNat).task? k = some t := by
        rw [State.task?, State.postUncorr_tasks]
        exact ht
      rw [exec_fetchFault_uncorrectable hx hf, scpFault_of ht' he]
      exact ⟨_, _, rfl, task?_putTask_same _ k _, trapTaken_scpCause t x t.hart.pc, posted_postUncorr _ _ _ _ _ _ _⟩

end Sys2Proof.Machine
end

section
/-! SUPPORT. What a write through the controllers may change, and what a drain at a home may change: no task, of the registers CECOUNT and those of
the event queue, and of memory the bytes written, which for a drain are those of records in the inbound apron (R129, R138). -/

namespace Sys2Proof.Machine

/-! ## Writes of listed bytes -/

/-- Of tasks, registers, inbound records and memory only CECOUNT, the event queue's registers and listed bytes may differ. -/
structure WriteFrame (las : List Nat) (s t : State) : Prop where
  tasks : t.tasks = s.tasks
  registers : RegistersBut [0x201, 0x202, 0x220] s t
  inbound : t.inbound = s.inbound
  memory : ∀ a, a ∉ las → rdByte t.mem a = rdByte s.mem a

namespace WriteFrame

variable {las : List Nat}

/-- An operation that leaves all of these alone. -/
theorem of_eq {s t : State} (ht : t.tasks = s.tasks) (hp : t.pregs = s.pregs) (hi : t.inbound = s.inbound) (hm : t.mem = s.mem) :
    WriteFrame las s t where
  tasks := ht
  registers n _ := by rw [State.preg, hp]; rfl
  inbound := hi
  memory a _ := by rw [hm]

theorem refl (s : State) : WriteFrame las s s := of_eq rfl rfl rfl rfl

theorem trans {s t u : State} (h1 : WriteFrame las s t) (h2 : WriteFrame las t u) : WriteFrame las s u where
  tasks := h2.tasks.trans h1.tasks
  registers n hn := (h2.registers n hn).trans (h1.registers n hn)
  inbound := h2.inbound.trans h1.inbound
  memory a ha := (h2.memory a ha).trans (h1.memory a ha)

theorem ite {s t u : State} {c : Prop} [Decidable c] (h1 : WriteFrame las s t) (h2 : WriteFrame las s u) :
    WriteFrame las s (if c then t else u) := by
  split <;> assumption

theorem foldl {β : Type} {f : State → β → State} (hf : ∀ a x, WriteFrame las a (f a x)) (l : List β) (s : State) :
    WriteFrame las s (l.foldl f s) := by
  induction l generalizing s with
  | nil => exact refl s
  | cons x l ih => exact (hf s x).trans (ih (f s x))

theorem setPreg {s : State} {n v : Nat} (h : n ∈ [0x201, 0x202, 0x220]) : WriteFrame las s (s.setPreg n v) where
  tasks := rfl
  registers _ hm := preg_setPreg_other s v fun e => hm (e ▸ h)
  inbound := rfl
  memory _ _ := rfl

theorem correct (s : State) (u : Nat) : WriteFrame las s (s.correct u) := by
  unfold State.correct
  refine ite ?_ (refl s)
  exact (of_eq rfl rfl rfl rfl : WriteFrame las s { s with ms := { s.ms with ecc := tdel s.ms.ecc u } }).trans (setPreg (by decide))

theorem readLocal (s : State) (bs : List Nat) : WriteFrame las s (s.readLocal bs).1 := foldl correct _ s

theorem post (s : State) (ty sev u : Nat) (pay : List (Nat × Nat)) : WriteFrame las s (s.post ty sev u pay) where
  tasks := State.post_tasks s ty sev u pay
  registers n hn := post_registers s ty sev u pay n fun h => hn (by
    simp only [List.mem_cons, List.not_mem_nil, or_false] at h ⊢
    tauto)
  inbound := (congrArg State.inbound (post_frame s ty sev u pay) :)
  memory _ _ := by rw [(congrArg State.mem (post_frame s ty sev u pay) :)]

theorem draw (s : State) : WriteFrame las s s.draw.2 := of_eq rfl rfl rfl rfl

theorem postUncorr (s : State) (sev u va pa space tag pc : Nat) : WriteFrame las s (s.postUncorr sev u va pa space tag pc) :=
  (draw s).trans (post _ _ _ _ _)

theorem enterQueue (s : State) (u : Nat) : WriteFrame las s (s.enterQueue u) := by
  unfold State.enterQueue
  refine ite (refl s) ?_
  split <;> exact of_eq rfl rfl rfl rfl

/-- Writing listed bytes in memory itself. -/
theorem writeMem {s : State} {as : List Nat} {bs : List Byte} (h : ∀ a ∈ as, a ∈ las) :
    WriteFrame las s { s with mem := wrBytes s.mem as bs } where
  tasks := rfl
  registers _ _ := rfl
  inbound := rfl
  memory _ ha := rdByte_wrBytes_other _ _ _ fun hx => ha (h _ hx)

theorem writeUnit {s : State} {sev unit tag pc : Nat} {ws : List (Nat × Byte)} {u : Nat} (h : ∀ w ∈ ws, w.1 ∈ las) :
    WriteFrame las s (s.writeUnit sev unit tag pc ws u) := by
  have hmine : ∀ a ∈ (ws.filter (fun w => w.1 / 64 = u)).map (·.1), a ∈ las := by
    intro a ha
    obtain ⟨w, hw, rfl⟩ := List.mem_map.1 ha
    exact h w (List.mem_filter.1 hw).1
  unfold State.writeUnit
  refine ite (postUncorr s _ _ _ _ _ _ _) (trans (trans ?_ (writeMem hmine)) (enterQueue _ u))
  exact ite (of_eq rfl rfl rfl rfl) (correct s u)

theorem writeLocal (s : State) (sev unit tag pc : Nat) (bs : List Byte) : WriteFrame las s (s.writeLocal sev unit tag pc las bs) :=
  foldl (fun _ _ => writeUnit fun _ hw => (List.of_mem_zip hw).1) _ s

end WriteFrame

/-! ## A drain -/

/-- Where a record lies in an apron depends on the apron's base and on the rank alone. -/
theorem apronBytes_congr {s t : State} {reg : Nat} (hreg : t.preg reg = s.preg reg) (hrank : t.preg 0x002 = s.preg 0x002) (r : Rec) :
    t.apronBytes reg r = s.apronBytes reg r := by
  unfold State.apronBytes State.localOf State.rank
  rw [hreg, hrank]

/-- What a drain may change: records enter the inbound apron, and memory changes where they lie. -/
structure DrainFrame (s t : State) : Prop where
  tasks : t.tasks = s.tasks
  registers : RegistersBut [0x201, 0x202, 0x220] s t
  inbound : ∀ r ∈ s.inbound, r ∈ t.inbound
  memory : ∀ a, (∀ r ∈ t.inbound, a ∉ s.apronBytes 0x211 r) → rdByte t.mem a = rdByte s.mem a

namespace DrainFrame

theorem of_writeFrame {s t : State} (h : WriteFrame [] s t) : DrainFrame s t where
  tasks := h.tasks
  registers := h.registers
  inbound r hr := h.inbound ▸ hr
  memory a _ := h.memory a (by simp)

theorem of_eq {s t : State} (ht : t.tasks = s.tasks) (hp : t.pregs = s.pregs) (hi : t.inbound = s.inbound) (hm : t.mem = s.mem) :
    DrainFrame s t := of_writeFrame (WriteFrame.of_eq ht hp hi hm)

theorem refl (s : State) : DrainFrame s s := of_eq rfl rfl rfl rfl

theorem with_bnd (s : State) (b : Boundary) : DrainFrame s { s with bnd := b } := of_eq rfl rfl rfl rfl

theorem with_outbound (s : State) (l : List Rec) : DrainFrame s { s with outbound := l } := of_eq rfl rfl rfl rfl

theorem with_sent (s : State) (b : Boundary) (l : List Rec) : DrainFrame s { s with bnd := b, outbound := l } := of_eq rfl rfl rfl rfl

theorem apronBytes {s t : State} (h : DrainFrame s t) (r : Rec) : t.apronBytes 0x211 r = s.apronBytes 0x211 r :=
  apronBytes_congr (h.registers _ (by decide)) (h.registers _ (by decide)) r

theorem trans {s t u : State} (h1 : DrainFrame s t) (h2 : DrainFrame t u) : DrainFrame s u where
  tasks := h2.tasks.trans h1.tasks
  registers n hn := (h2.registers n hn).trans (h1.registers n hn)
  inbound r hr := h2.inbound r (h1.inbound r hr)
  memory a ha :=
    (h2.memory a fun r hr => by rw [h1.apronBytes]; exact ha r hr).trans (h1.memory a fun r hr => ha r (h2.inbound r hr))

theorem ite {s t u : State} {c : Prop} [Decidable c] (h1 : DrainFrame s t) (h2 : DrainFrame s u) : DrainFrame s (if c then t else u) := by
  split <;> assumption

theorem foldl {β : Type} {f : State → β → State} (hf : ∀ a x, DrainFrame a (f a x)) (l : List β) (s : State) :
    DrainFrame s (l.foldl f s) := by
  induction l generalizing s with
  | nil => exact refl s
  | cons x l ih => exact (hf s x).trans (ih (f s x))

/-! ### Packets -/

theorem setLink (s : State) (port : Nat) (l : Link) : DrainFrame s (s.setLink port l) := of_eq rfl rfl rfl rfl

theorem toFabric (s : State) (h : HeldPkt) : DrainFrame s (s.toFabric h) := by
  have hheld : DrainFrame s (s.holdPacket h) := of_eq rfl rfl rfl rfl
  unfold State.toFabric State.route?
  split
  · dsimp only
    split
    · exact hheld
    · exact (of_writeFrame (WriteFrame.draw s)).trans (setLink _ _ _)
  · exact hheld

theorem send (s : State) (p : Packet) : DrainFrame s (s.send p) := by
  unfold State.send
  split
  · split
    · exact of_eq rfl rfl rfl rfl
    · exact refl s
  · exact toFabric s _

theorem report (s : State) (phase : Nat) : DrainFrame s (s.report phase) := by
  unfold State.report
  split
  · exact send s _
  · exact refl s

theorem startTxn (s : State) (x : Txn) : DrainFrame s (s.startTxn x) := by
  unfold State.startTxn
  split
  · exact of_eq rfl rfl rfl rfl
  · next id _ =>
    exact trans (of_eq rfl rfl rfl rfl : DrainFrame s { s with fab := { s.fab with nextTx := id + 1, txns := _ } }) (toFabric _ _)

theorem openTxn (s : State) (owner : TxFor) (va drank type len body : Nat) (data : List Byte) :
    DrainFrame s (s.openTxn owner va drank type len body data) := startTxn s _

/-! ### Records -/

theorem postFull (s : State) (need : Nat) : DrainFrame s (s.postFull need) := by
  unfold State.postFull
  refine ite (refl s) ?_
  exact (with_bnd s _).trans (of_writeFrame (WriteFrame.post _ _ _ _ _))

theorem readApron (s : State) (reg : Nat) (r : Rec) : DrainFrame s (s.readApron reg r).2 := by
  have hread : DrainFrame s (s.readLocal (s.apronBytes reg r)).1 := of_writeFrame (WriteFrame.readLocal s _)
  unfold State.readApron
  dsimp only
  split
  · exact hread
  · exact hread.trans (of_writeFrame ((WriteFrame.draw _).trans (WriteFrame.postUncorr _ _ _ _ _ _ _ _)))

/-- A record that enters the inbound apron is written where it lies there. -/
theorem addInbound (s : State) (r : Rec) : DrainFrame s (s.addInbound r) := by
  have h := WriteFrame.writeLocal (las := s.apronBytes 0x211 (r.placed s.inbound)) { s with inbound := s.inbound ++ [r.placed s.inbound] }
    3 0xFFFF 0xFF 0 ((List.range (s.apronBytes 0x211 (r.placed s.inbound)).length).map (Config.apronByte (r.placed s.inbound).key.toNat
      (r.placed s.inbound).gen))
  have hin : (s.addInbound r).inbound = s.inbound ++ [r.placed s.inbound] := h.inbound
  exact {
    tasks := h.tasks
    registers := h.registers
    inbound := fun x hx => by rw [hin]; exact List.mem_append_left _ hx
    memory := fun a ha => h.memory a (ha _ (by rw [hin]; exact List.mem_append_right _ (List.mem_singleton_self _))) }

theorem moveOwn (s : State) : DrainFrame s s.moveOwn := by
  refine foldl (fun a r => ite (ite ?_ (postFull a _)) (refl a)) _ s
  exact (readApron a 0x210 r).trans ((with_outbound _ _).trans (addInbound _ _))

theorem grant (rs : List Nat) (s : State) : DrainFrame s (State.grant rs s) := by
  induction rs generalizing s with
  | nil => exact refl s
  | cons r rs ih =>
    exact ite (refl s) (((with_bnd s _).trans (send _ _)).trans (ih _))

theorem grantAll (s : State) : DrainFrame s s.grantAll :=
  ite (grant _ s) ((grant _ s).trans (postFull _ _))

theorem sendRecs (s : State) : DrainFrame s s.sendRecs := by
  refine foldl (fun a r => ite ?_ (refl a)) _ s
  exact (with_sent a _ _).trans ((readApron _ 0x210 r).trans (openTxn _ _ _ _ _ _ _ _))

theorem dropDead (s : State) : DrainFrame s s.dropDead := of_eq rfl rfl rfl rfl

theorem tryDrn (s : State) : DrainFrame s s.tryDrn := by
  exact ite ((with_bnd s _).trans (report _ 2)) (refl s)

theorem drainOn (s : State) : DrainFrame s s.drainOn :=
  ite (((((dropDead s).trans (moveOwn _)).trans (grantAll _)).trans (sendRecs _)).trans (tryDrn _)) (ite (grantAll s) (refl s))

end DrainFrame

end Sys2Proof.Machine
end

section
/-! STEPNUM, STEPQ, STEPCFG, EVQCTL and HWSIZE (O49). -/

namespace Sys2Proof.Machine

/-! ## A boundary in progress -/

/-- A boundary is in progress at this package (R124). -/
theorem boundaryOn_iff (s : State) : s.boundaryOn = true ↔
    s.bnd.begun = true ∨ s.bnd.phase ≠ .idle ∨ s.bnd.lead0 ≠ 0 ∨ s.bnd.root0 ≠ [] ∨ ∃ e ∈ s.tasks, e.2.stepm = true ∧ e.2.arrived = true := by
  simp only [State.boundaryOn, Bool.or_eq_true, bne_iff_ne, Bool.not_eq_true', List.isEmpty_eq_false_iff, List.any_eq_true,
    Bool.and_eq_true, or_assoc]

theorem boundaryOn_eq_false {s : State} (h1 : s.bnd.begun = false) (h2 : s.bnd.phase = .idle) (h3 : s.bnd.lead0 = 0) (h4 : s.bnd.root0 = [])
    (h5 : ∀ e ∈ s.tasks, e.2.stepm = true → e.2.arrived = false) : s.boundaryOn = false := by
  rw [Bool.eq_false_iff, Ne, boundaryOn_iff]
  rintro (h | h | h | h | ⟨e, he, hm, ha⟩)
  · simp [h1] at h
  · exact h h2
  · exact h h3
  · exact h h4
  · simp [h5 e he hm] at ha

/-- Outside the phases in which records move, a drain has nothing to go on with. -/
theorem drainOn_of_not_draining {s : State} (h1 : s.bnd.phase ≠ .draining) (h2 : s.bnd.phase ≠ .drained) : s.drainOn = s := by
  rw [State.drainOn, if_neg h1, if_neg h2]

/-! ## STEPNUM and STEPQ -/

theorem exec_stepnumWrite (s : State) (v : Word) : exec (.stepnumWrite v) s =
    (if s.tasks.any (fun e => e.2.stepm) || s.boundaryOn then .bounds else .done (s.setPreg 0x214 v.toNat) : Wr).out s := rfl

/-- A whole register is replaced. -/
theorem registerTakes_setPreg (s : State) (n : Nat) (v : Word) : RegisterTakes s (s.setPreg n v.toNat) n (2 ^ 64 - 1) v := by
  refine ⟨fun b hb => ?_, fun m hm => preg_setPreg_other s _ (by simpa using hm), setPreg_with_pregs s n _ _⟩
  rw [preg_setPreg_same, Nat.mod_eq_of_lt v.isLt, BitVec.testBit_toNat, Nat.testBit_two_pow_sub_one, if_pos (by simpa using hb)]

/-- Does the launch queue q hold an admitted step-member task? -/
def State.stepQueue (s : State) (q : Nat) : Bool :=
  s.tasks.any (fun e => e.2.stepm && ((tfind s.disp.launches e.2.launch).map (·.queue)) == some q)

theorem stepQueue_iff (s : State) (q : Nat) : s.stepQueue q = true ↔
    ∃ e ∈ s.tasks, e.2.stepm = true ∧ (tfind s.disp.launches e.2.launch).map (·.queue) = some q := by
  simp only [State.stepQueue, List.any_eq_true, Bool.and_eq_true, beq_iff_eq]

theorem exec_stepqWrite (s : State) (v : Word) : exec (.stepqWrite v) s =
    (if (List.range 16).any (fun q => bit (s.preg 0x215) q && !v.getLsbD q && s.stepQueue q) then .bounds
      else .done (s.setMasked 0x215 0xFFFF v) : Wr).out s := rfl

/-- A write of STEPQ clears the bit of a queue with a step-member task (R138). -/
theorem stepq_refused_iff (s : State) (v : Word) :
    (List.range 16).any (fun q => bit (s.preg 0x215) q && !v.getLsbD q && s.stepQueue q) = true ↔
      ∃ q, q < 16 ∧ bit (s.preg 0x215) q = true ∧ v.getLsbD q = false ∧ ∃ e ∈ s.tasks, e.2.stepm = true ∧
        (tfind s.disp.launches e.2.launch).map (·.queue) = some q := by
  simp only [List.any_eq_true, List.mem_range, Bool.and_eq_true, Bool.not_eq_true', stepQueue_iff, and_assoc]

/-! ## STEPCFG -/

theorem stepFull_iff (t : Task) : t.stepFull = true ↔ WaitsAfterStepfull t := by
  have hcode : ∀ f : FaultInfo, f.code = BitVec.ofNat 8 cSTEPFULL ↔ f.code.toNat = cSTEPFULL := fun f =>
    ⟨fun h => by rw [h]; rfl, fun h => BitVec.eq_of_toNat_eq h⟩
  simp only [Task.stepFull, WaitsAfterStepfull, Bool.and_eq_true, Bool.not_eq_true', Bool.or_eq_true, List.any_eq_true, beq_iff_eq,
    Option.map_eq_some_iff, hcode, and_assoc]

theorem any_stepFull_iff (s : State) : s.tasks.any (fun e => e.2.stepFull) = true ↔ ∃ e ∈ s.tasks, WaitsAfterStepfull e.2 := by
  simp only [List.any_eq_true, stepFull_iff]

/-- The values that STEPCFG admits (R316). -/
def StepcfgOk (v : Word) : Prop :=
  1 ≤ wordBits v 6 0 ∧ wordBits v 6 0 ≤ 64 ∧ 1 ≤ wordBits v 14 8 ∧ wordBits v 14 8 ≤ 64 ∧ wordBits v 51 32 ≤ 1000000

/-- What of a new STEPCFG cannot be taken while a boundary is in progress (R316; what waits is log 10's reading). -/
def StepcfgWaits (s : State) (v : Word) : Prop :=
  s.boundaryOn = true ∧ ((bits (s.preg 0x212) 6 0 ≠ wordBits v 6 0 ∧
      ¬(bits (s.preg 0x212) 6 0 < wordBits v 6 0 ∧ ∃ e ∈ s.tasks, WaitsAfterStepfull e.2)) ∨
    bits (s.preg 0x212) 51 32 ≠ wordBits v 51 32 ∨ wordBits v 14 8 < bits (s.preg 0x212) 14 8)

/-- The state in which a drain may go on after STEPCFG has been written. -/
def State.writeStepcfg (s : State) (v : Word) : State :=
  { s.setMasked 0x212 0x000FFFFF00007F7F v with
    bnd := { s.bnd with fullPosted := s.bnd.fullPosted && !decide (bits (s.preg 0x212) 14 8 < wordBits v 14 8) } }

/-- A larger inbound apron is taken at once, and a larger outbound apron while a task waits after STEPFULL. -/
theorem not_stepcfgWaits {s : State} {v : Word} (hwd : wordBits v 51 32 = bits (s.preg 0x212) 51 32)
    (hai : bits (s.preg 0x212) 14 8 ≤ wordBits v 14 8)
    (hao : wordBits v 6 0 = bits (s.preg 0x212) 6 0 ∨
      (bits (s.preg 0x212) 6 0 < wordBits v 6 0 ∧ ∃ e ∈ s.tasks, WaitsAfterStepfull e.2)) : ¬StepcfgWaits s v := by
  rintro ⟨-, ⟨hne, hno⟩ | h | h⟩
  · rcases hao with h | h
    · exact hne h.symm
    · exact hno h
  · exact h hwd.symm
  · exact absurd h (Nat.not_lt.2 hai)

/-- Any other change waits for the boundary in progress. -/
theorem stepcfgWaits_of {s : State} {v : Word} (hon : s.boundaryOn = true)
    (h : wordBits v 51 32 ≠ bits (s.preg 0x212) 51 32 ∨ wordBits v 14 8 < bits (s.preg 0x212) 14 8 ∨
      wordBits v 6 0 < bits (s.preg 0x212) 6 0 ∨
      (wordBits v 6 0 ≠ bits (s.preg 0x212) 6 0 ∧ ∀ e ∈ s.tasks, ¬WaitsAfterStepfull e.2)) : StepcfgWaits s v := by
  refine ⟨hon, ?_⟩
  rcases h with h | h | h | ⟨hne, hno⟩
  · exact .inr (.inl h.symm)
  · exact .inr (.inr h)
  · exact .inl ⟨Nat.ne_of_gt h, fun g => absurd g.1 (Nat.lt_asymm h)⟩
  · exact .inl ⟨hne.symm, fun ⟨_, e, he, hw⟩ => hno e he hw⟩

theorem stepcfg_range_iff (v : Word) : (bits v.toNat 6 0 = 0 || 64 < bits v.toNat 6 0 || bits v.toNat 14 8 = 0 || 64 < bits v.toNat 14 8 ||
    1000000 < bits v.toNat 51 32 : Bool) = true ↔ ¬StepcfgOk v := by
  simp only [Bool.or_eq_true, decide_eq_true_eq, StepcfgOk, wordBits_eq]
  omega

theorem stepcfg_waits_iff (s : State) (v : Word) : (s.boundaryOn &&
    ((bits (s.preg 0x212) 6 0 != bits v.toNat 6 0 &&
        !(decide (bits (s.preg 0x212) 6 0 < bits v.toNat 6 0) && s.tasks.any (fun e => e.2.stepFull))) ||
      bits (s.preg 0x212) 51 32 != bits v.toNat 51 32 || decide (bits v.toNat 14 8 < bits (s.preg 0x212) 14 8))) = true ↔
    StepcfgWaits s v := by
  rw [StepcfgWaits, ← any_stepFull_iff]
  simp only [wordBits_eq, Bool.and_eq_true, Bool.or_eq_true, bne_iff_ne,
    Bool.not_eq_true', Bool.and_eq_false_iff, decide_eq_true_eq, decide_eq_false_iff_not, or_assoc, not_and_or, Bool.not_eq_true]

theorem wrStepcfg_bounds {s : State} {v : Word} (h : ¬StepcfgOk v) : s.wrStepcfg v = .bounds :=
  if_pos ((stepcfg_range_iff v).2 h)

theorem wrStepcfg_wait {s : State} {v : Word} (h : StepcfgOk v) (hw : StepcfgWaits s v) : s.wrStepcfg v = .wait :=
  (if_neg fun hr => (stepcfg_range_iff v).1 hr h).trans (if_pos ((stepcfg_waits_iff s v).2 hw))

theorem wrStepcfg_done {s : State} {v : Word} (h : StepcfgOk v) (hw : ¬StepcfgWaits s v) :
    s.wrStepcfg v = .done (s.writeStepcfg v).drainOn :=
  (if_neg fun hr => (stepcfg_range_iff v).1 hr h).trans (if_neg fun hr => hw ((stepcfg_waits_iff s v).1 hr))

theorem exec_stepcfgWrite (s : State) (v : Word) : exec (.stepcfgWrite v) s = (s.wrStepcfg v).out s := rfl

/-- A new STEPCFG that is taken outside the phases in which records move changes that register, and lets the home say again that its inbound
apron is full (log 45). -/
theorem exec_stepcfgWrite_quiet {s : State} {v : Word} (h : StepcfgOk v) (hw : ¬StepcfgWaits s v) (h1 : s.bnd.phase ≠ .draining)
    (h2 : s.bnd.phase ≠ .drained) : exec (.stepcfgWrite v) s = .next (s.writeStepcfg v) := by
  rw [exec_stepcfgWrite, wrStepcfg_done h hw, Wr.out_done, drainOn_of_not_draining (s := s.writeStepcfg v) h1 h2]

theorem setMasked_with_bnd (s : State) (n mask : Nat) (v : Word) (b : Boundary) :
    { s.setMasked n mask v with bnd := b } = { s with bnd := b }.setMasked n mask v := rfl

theorem writeStepcfg_takes (s : State) (v : Word) :
    RegisterTakes { s with bnd := { s.bnd with fullPosted := s.bnd.fullPosted && !decide (bits (s.preg 0x212) 14 8 < wordBits v 14 8) } }
      (s.writeStepcfg v) 0x212 0x000FFFFF00007F7F v := by
  rw [State.writeStepcfg, setMasked_with_bnd]
  exact registerTakes_setMasked _ _ _ _

/-- What a new STEPCFG may change where a drain goes on into the larger apron. -/
theorem writeStepcfg_drainOn_frame (s : State) (v : Word) : let t := (s.writeStepcfg v).drainOn
    t.tasks = s.tasks ∧ RegistersBut [0x201, 0x202, 0x212, 0x220] s t ∧
      (∀ a, (∀ r ∈ t.inbound, a ∉ s.apronBytes 0x211 r) → rdByte t.mem a = rdByte s.mem a) ∧
      ∀ b, b < 64 → (t.preg 0x212).testBit b = if Nat.testBit 0x000FFFFF00007F7F b then v.getLsbD b else (s.preg 0x212).testBit b := by
  obtain ⟨hbits, hother, -⟩ := writeStepcfg_takes s v
  have hdrain := DrainFrame.drainOn (s.writeStepcfg v)
  refine ⟨hdrain.tasks, fun n hn => ?_, fun a ha => hdrain.memory a fun r hr => ?_, fun b hb => ?_⟩
  · simp only [List.mem_cons, List.not_mem_nil, or_false, not_or] at hn
    exact (hdrain.registers n (by simp; omega)).trans (hother n (by simp; omega))
  · rw [apronBytes_congr (hother 0x211 (by decide)) (hother 0x002 (by decide))]
    exact ha r hr
  · rw [hdrain.registers 0x212 (by decide)]
    exact hbits b hb

/-! ## EVQCTL and HWSIZE -/

theorem exec_evqctlWrite (s : State) (v : Word) : exec (.evqctlWrite v) s =
    (if bits v.toNat 4 0 < 4 || 20 < bits v.toNat 4 0 then .bounds else .done (s.setMasked 0x201 0xFFFFF01F v) : Wr).out s := rfl

theorem exec_hwsizeWrite (s : State) (v : Word) : exec (.hwsizeWrite v) s =
    (if bits v.toNat 11 0 ≠ 0 || 2 ^ 52 < s.preg 0x420 + bits v.toNat 52 0 then .bounds
      else .done (s.setMasked 0x421 0x1FFFFFFFFFFFFF v) : Wr).out s := rfl

/-- STEPNUM may be written only with no step-member task and no boundary in progress (R138). -/
theorem stepnum_refused_iff (s : State) : (s.tasks.any (fun e => e.2.stepm) || s.boundaryOn) = true ↔
    (∃ e ∈ s.tasks, e.2.stepm = true) ∨ s.bnd.begun = true ∨ s.bnd.phase ≠ .idle ∨ s.bnd.lead0 ≠ 0 ∨ s.bnd.root0 ≠ [] := by
  rw [Bool.or_eq_true, List.any_eq_true, boundaryOn_iff]
  constructor
  · rintro (h | h | h | h | h | ⟨e, he, hm, -⟩)
    · exact .inl h
    · exact .inr (.inl h)
    · exact .inr (.inr (.inl h))
    · exact .inr (.inr (.inr (.inl h)))
    · exact .inr (.inr (.inr (.inr h)))
    · exact .inl ⟨e, he, hm⟩
  · rintro (h | h | h | h | h)
    · exact .inl h
    · exact .inr (.inl h)
    · exact .inr (.inr (.inl h))
    · exact .inr (.inr (.inr (.inl h)))
    · exact .inr (.inr (.inr (.inr (.inl h))))

/-- Settles O49: each write is its guard and its masked write; STEPCFG's guards are `StepcfgOk` and `StepcfgWaits`, and what a drain may then
change is `DrainFrame`. -/
theorem stepQueueAndWindowRegistersAreWritten : Obligations.StepQueueAndWindowRegistersAreWritten := by
  unfold Obligations.StepQueueAndWindowRegistersAreWritten
  refine ⟨fun s v => ⟨fun hm h1 h2 h3 h4 => ?_, fun h => ?_⟩, fun s v => ⟨fun h => ?_, fun h => ?_⟩, ?_,
    fun s v => ⟨fun h1 h2 => ?_, fun h => ?_⟩, fun s v => ⟨fun h1 h2 => ?_, fun h => ?_⟩⟩
  · refine ⟨_, (exec_stepnumWrite s v).trans (Wr.out_guard_done ?_), registerTakes_setPreg s 0x214 v⟩
    rw [stepnum_refused_iff]
    rintro (⟨e, he, hs⟩ | h | h | h | h)
    · simp [hm e he] at hs
    · simp [h1] at h
    · exact h h2
    · exact h h3
    · exact h h4
  · rw [exec_stepnumWrite, Wr.out_guard_bounds ((stepnum_refused_iff s).2 h)]
  · refine takes_of_guard (exec_stepqWrite s v) ?_
    rw [stepq_refused_iff]
    rintro ⟨q, hq, hbit, hv, e, he, hm, hqueue⟩
    exact h q hq hbit hv e he hm hqueue
  · rw [exec_stepqWrite, Wr.out_guard_bounds ((stepq_refused_iff s v).2 h)]
  · rintro s _ v _ rfl rfl
    have hold : ∀ hi lo, wordBits (BitVec.ofNat 64 (s.preg 0x212)) hi lo = bits (s.preg 0x212) hi lo := fun hi lo => by
      rw [wordBits, BitVec.toNat_ofNat, Nat.mod_eq_of_lt (preg_lt s _), bits]
    simp only [hold]
    refine ⟨fun o1 o2 o3 o4 o5 => ⟨fun h1 h2 h3 h4 h5 => ?_, fun hwd hai hao => ⟨fun hd hr => ?_, ?_⟩, fun hon hw => ?_⟩, fun hbad => ?_⟩
    · have hoff : ¬StepcfgWaits s v := fun hw =>
        absurd hw.1 (by simp [boundaryOn_eq_false h1 h2 h3 h4 h5])
      exact ⟨_, exec_stepcfgWrite_quiet ⟨o1, o2, o3, o4, o5⟩ hoff (by simp [h2]) (by simp [h2]), writeStepcfg_takes s v⟩
    · exact ⟨_, exec_stepcfgWrite_quiet ⟨o1, o2, o3, o4, o5⟩ (not_stepcfgWaits hwd hai hao) hd hr, writeStepcfg_takes s v⟩
    · refine ⟨_, ?_, writeStepcfg_drainOn_frame s v⟩
      rw [exec_stepcfgWrite, wrStepcfg_done ⟨o1, o2, o3, o4, o5⟩ (not_stepcfgWaits hwd hai hao), Wr.out_done]
    · rw [exec_stepcfgWrite, wrStepcfg_wait ⟨o1, o2, o3, o4, o5⟩ (stepcfgWaits_of ((boundaryOn_iff s).2 hon) hw), Wr.out_wait]
    · have hno : ¬StepcfgOk v := by
        simp only [StepcfgOk]
        omega
      rw [exec_stepcfgWrite, wrStepcfg_bounds hno, Wr.out_bounds]
  · simp only [wordBits_eq] at h1 h2
    exact takes_of_guard (exec_evqctlWrite s v) (by simp; omega)
  · rw [exec_evqctlWrite, Wr.out_guard_bounds (by simpa [wordBits, bits] using h)]
  · simp only [wordBits_eq] at h1 h2
    exact takes_of_guard (exec_hwsizeWrite s v) (by simp; omega)
  · rw [exec_hwsizeWrite, Wr.out_guard_bounds (by simpa [wordBits, bits] using h)]

end Sys2Proof.Machine
end

section
/-! SUPPORT. The patterns of the floating-point formats in order: the grid of their magnitudes, what it is to round a real number to it, and that
`roundMag` does so (02 R46, R51). -/

namespace Sys2Proof.Machine

/-! ## The grid -/

section Grid
variable {f : FFmt}

/-- The exponent field 0 holds the subnormals. -/
theorem gridVal_subnormal {b : Nat} (hb : b < 2 ^ f.fb) : gridVal f b = b := by
  simp [gridVal, Nat.div_eq_of_lt hb, Nat.mod_eq_of_lt hb]

theorem gridVal_normal {a b : Nat} (hb : b < 2 ^ f.fb) : gridVal f ((a + 1) * 2 ^ f.fb + b) = (2 ^ f.fb + b) * 2 ^ a := by
  have hdiv : ((a + 1) * 2 ^ f.fb + b) / 2 ^ f.fb = a + 1 := by
    rw [Nat.add_comm, Nat.add_mul_div_right _ _ (Nat.two_pow_pos _), Nat.div_eq_of_lt hb, Nat.zero_add]
  simp [gridVal, hdiv, Nat.mod_eq_of_lt hb]

/-- A significand k with the format's precision (any k below it, at the least exponent), scaled by 2^t. -/
theorem gridVal_scaled {t k : Nat} (hlo : t = 0 ∨ 2 ^ f.fb ≤ k) (hhi : k ≤ 2 * 2 ^ f.fb) : gridVal f (t * 2 ^ f.fb + k) = k * 2 ^ t := by
  rcases Nat.lt_or_ge k (2 ^ f.fb) with h | h
  · obtain rfl : t = 0 := hlo.resolve_right (by omega)
    simp [gridVal_subnormal h]
  · obtain ⟨b, rfl⟩ := Nat.exists_eq_add_of_le h
    rcases Nat.lt_or_ge b (2 ^ f.fb) with hb | hb
    · rw [← Nat.add_assoc, ← Nat.succ_mul, gridVal_normal hb]
    · obtain rfl : b = 2 ^ f.fb := by omega
      have := gridVal_normal (f := f) (a := t + 1) (Nat.two_pow_pos _)
      rw [show t * 2 ^ f.fb + (2 ^ f.fb + 2 ^ f.fb) = (t + 1 + 1) * 2 ^ f.fb + 0 by ring, this]
      ring

/-- The next pattern lies a unit higher, or more at the end of a binade. -/
theorem le_gridVal_succ {t k : Nat} (hlo : t = 0 ∨ 2 ^ f.fb ≤ k) (hhi : k ≤ 2 * 2 ^ f.fb) :
    (k + 1) * 2 ^ t ≤ gridVal f (t * 2 ^ f.fb + k + 1) := by
  have hpos := Nat.two_pow_pos f.fb
  rcases Nat.lt_or_ge k (2 * 2 ^ f.fb) with h | h
  · exact (gridVal_scaled (k := k + 1) (by omega) h).ge
  · obtain rfl : k = 2 * 2 ^ f.fb := by omega
    rw [show t * 2 ^ f.fb + 2 * 2 ^ f.fb + 1 = (t + 1) * 2 ^ f.fb + (2 ^ f.fb + 1) by ring,
      gridVal_scaled (by omega) (by omega), show (2 ^ f.fb + 1) * 2 ^ (t + 1) = (2 * 2 ^ f.fb + 2) * 2 ^ t by ring]
    exact Nat.mul_le_mul_right _ (by omega)

/-- Every pattern is a significand scaled. -/
theorem exists_scaled (f : FFmt) (p : Nat) : ∃ t k, (t = 0 ∨ 2 ^ f.fb ≤ k) ∧ k < 2 * 2 ^ f.fb ∧ p = t * 2 ^ f.fb + k := by
  have hmod : p % 2 ^ f.fb < 2 ^ f.fb := Nat.mod_lt _ (Nat.two_pow_pos _)
  have hp : p = p / 2 ^ f.fb * 2 ^ f.fb + p % 2 ^ f.fb := (Nat.div_add_mod' ..).symm
  rcases Nat.eq_zero_or_eq_succ_pred (p / 2 ^ f.fb) with h | h
  · exact ⟨0, p % 2 ^ f.fb, .inl rfl, by omega, by rw [h] at hp; exact hp⟩
  · refine ⟨(p / 2 ^ f.fb).pred, 2 ^ f.fb + p % 2 ^ f.fb, .inr (by omega), by omega, ?_⟩
    rw [← Nat.add_assoc, ← Nat.succ_mul, ← h]
    exact hp

theorem gridVal_strictMono (f : FFmt) : StrictMono (gridVal f) := by
  refine strictMono_nat_of_lt_succ fun p => ?_
  obtain ⟨t, k, hlo, hhi, rfl⟩ := exists_scaled f p
  calc gridVal f (t * 2 ^ f.fb + k) = k * 2 ^ t := gridVal_scaled hlo hhi.le
    _ < (k + 1) * 2 ^ t := Nat.mul_lt_mul_of_pos_right (Nat.lt_succ_self k) (Nat.two_pow_pos t)
    _ ≤ _ := le_gridVal_succ hlo hhi.le

theorem gridVal_eq_zero {p : Nat} : gridVal f p = 0 ↔ p = 0 := by
  have h0 : gridVal f 0 = 0 := gridVal_subnormal (Nat.two_pow_pos _)
  exact ⟨fun h => (gridVal_strictMono f).injective (h.trans h0.symm), fun h => h ▸ h0⟩

/-- The pattern before lies a unit lower, but at the start of a binade. -/
theorem gridVal_pred_le {t k : Nat} (hlo : t = 0 ∨ 2 ^ f.fb ≤ k) (hhi : k ≤ 2 * 2 ^ f.fb) (hk : k ≠ 0) :
    gridVal f (t * 2 ^ f.fb + k - 1) + 2 ^ t ≤ k * 2 ^ t ∨ t ≠ 0 ∧ k = 2 ^ f.fb := by
  obtain ⟨j, rfl⟩ := Nat.exists_eq_succ_of_ne_zero hk
  rcases Nat.lt_or_ge j (2 ^ f.fb) with h | h
  · by_cases ht : t = 0
    · left
      rw [Nat.succ_eq_add_one, ← Nat.add_assoc, Nat.add_sub_cancel, gridVal_scaled (.inl ht) (by omega), Nat.succ_mul]
    · exact .inr ⟨ht, by omega⟩
  · left
    rw [Nat.succ_eq_add_one, ← Nat.add_assoc, Nat.add_sub_cancel, gridVal_scaled (.inr h) (by omega), Nat.succ_mul]

end Grid

/-! ## Modes on magnitudes -/

/-- What a mode does to the magnitude of a number of a sign: `rtz` rounds it down, `rup` up, `rne` to the nearest (R51). -/
def RMode.onMagnitude (rm : RMode) (neg : Bool) : RMode :=
  match rm with
  | .rne => .rne
  | .rtz => .rtz
  | .rup => if neg then .rtz else .rup
  | .rdn => if neg then .rup else .rtz

theorem RMode.onMagnitude_cases (rm : RMode) (neg : Bool) :
    rm.onMagnitude neg = .rtz ∨ rm.onMagnitude neg = .rup ∨ rm.onMagnitude neg = .rne := by
  cases rm <;> cases neg <;> simp [onMagnitude]

theorem roundsReal_iff_onMagnitude {f : FFmt} {rm : RMode} {neg : Bool} {above below : Nat → Prop} {r : Nat} :
    RoundsReal f rm neg above below r ↔ RoundsReal f (rm.onMagnitude neg) false above below r := by
  cases rm <;> cases neg <;> rfl

theorem roundsTo_iff_onMagnitude {f : FFmt} {rm : RMode} {neg : Bool} {m : Nat} {e : Int} {r : Nat} :
    RoundsTo f rm neg m e r ↔ RoundsTo f (rm.onMagnitude neg) false m e r := by
  cases rm <;> cases neg <;> rfl

theorem roundShift_eq_onMagnitude (rm : RMode) (neg : Bool) (m d : Nat) :
    roundShift rm neg m d = roundShift (rm.onMagnitude neg) false m d := by
  cases rm <;> cases neg <;> simp [roundShift, RMode.onMagnitude]

/-! ## Rounding a real number to an integer -/

/-- Integer k is the magnitude y rounded: up for `rup`, to the nearest for `rne`, else down. -/
def IntRounds (rm : RMode) (y : ℝ) (k : Nat) : Prop :=
  match rm with
  | .rne => (2 * k - 1 : ℝ) ≤ 2 * y ∧ 2 * y ≤ 2 * k + 1 ∧ (k % 2 = 1 → (2 * k - 1 : ℝ) < 2 * y ∧ 2 * y < 2 * k + 1)
  | .rup => y ≤ k ∧ (k : ℝ) - 1 < y
  | _ => (k : ℝ) ≤ y ∧ y < k + 1

/-- Two numbers that compare alike with every half of an integer. -/
def HalvesAlike (x y : ℝ) : Prop := ∀ j : Int, ((j : ℝ) ≤ 2 * x ↔ (j : ℝ) ≤ 2 * y) ∧ (2 * x ≤ j ↔ 2 * y ≤ j)

theorem HalvesAlike.refl (x : ℝ) : HalvesAlike x x := fun _ => ⟨.rfl, .rfl⟩

theorem IntRounds.congr {rm : RMode} {x y : ℝ} {k : Nat} (hxy : HalvesAlike x y) (h : IntRounds rm x k) : IntRounds rm y k := by
  have hle (j : Int) : (j : ℝ) ≤ 2 * x → (j : ℝ) ≤ 2 * y := (hxy j).1.1
  have hge (j : Int) : 2 * x ≤ j → 2 * y ≤ j := (hxy j).2.1
  have hlt (j : Int) : (j : ℝ) < 2 * x → (j : ℝ) < 2 * y := by simpa using (hxy j).2.2.mt
  have hgt (j : Int) : 2 * x < j → 2 * y < j := by simpa using (hxy j).1.2.mt
  have down : (k : ℝ) ≤ x ∧ x < k + 1 → (k : ℝ) ≤ y ∧ y < k + 1 := fun ⟨h1, h2⟩ => by
    have := hle (2 * k) (by push_cast; linarith)
    have := hgt (2 * k + 2) (by push_cast; linarith)
    push_cast at *
    constructor <;> linarith
  cases rm with
  | rtz => exact down h
  | rdn => exact down h
  | rup =>
    obtain ⟨h1, h2⟩ := h
    have := hge (2 * k) (by push_cast; linarith)
    have := hlt (2 * k - 2) (by push_cast; linarith)
    push_cast at *
    constructor <;> linarith
  | rne =>
    obtain ⟨h1, h2, h3⟩ := h
    refine ⟨by simpa using hle (2 * k - 1) (by simpa using h1), by simpa using hge (2 * k + 1) (by simpa using h2), fun hk => ?_⟩
    exact ⟨by simpa using hlt (2 * k - 1) (by simpa using (h3 hk).1), by simpa using hgt (2 * k + 1) (by simpa using (h3 hk).2)⟩

/-- Rounding keeps within integer bounds. -/
theorem IntRounds.le {rm : RMode} {y : ℝ} {k a : Nat} (h : IntRounds rm y k) (hy : y ≤ a) : k ≤ a := by
  have : (k : ℝ) < a + 1 := by
    cases rm with
    | rtz => linarith [h.1]
    | rdn => linarith [h.1]
    | rup => linarith [h.2]
    | rne => linarith [h.1]
  exact_mod_cast Nat.lt_succ_iff.1 (by exact_mod_cast this)

theorem IntRounds.ge {rm : RMode} {y : ℝ} {k a : Nat} (h : IntRounds rm y k) (hy : a ≤ y) : a ≤ k := by
  have : (a : ℝ) < k + 1 := by
    cases rm with
    | rtz => linarith [h.2]
    | rdn => linarith [h.2]
    | rup => linarith [h.1]
    | rne => linarith [h.2.1]
  exact_mod_cast Nat.lt_succ_iff.1 (by exact_mod_cast this)

/-- An integer rounds to itself. -/
theorem intRounds_self (rm : RMode) (k : Nat) : IntRounds rm k k := by
  cases rm <;> simp [IntRounds]

theorem roundShift_rup (m d : Nat) : roundShift .rup false m d = (m + 2 ^ d - 1) / 2 ^ d := by
  have hpos := Nat.two_pow_pos d
  have hmod := Nat.mod_lt m hpos
  have hm := Nat.div_add_mod' m (2 ^ d)
  rcases Nat.eq_zero_or_pos (m % 2 ^ d) with h | h
  · rw [Nat.div_eq_of_lt_le (k := m / 2 ^ d) (by omega) (by rw [Nat.succ_mul]; omega)]
    simp [roundShift, h]
  · rw [Nat.div_eq_of_lt_le (k := m / 2 ^ d + 1) (by rw [Nat.succ_mul]; omega) (by rw [Nat.succ_mul, Nat.succ_mul]; omega)]
    simp [roundShift, h.ne']

/-- Rounding to nearest errs by half at most, and at a tie the result is even. -/
theorem roundShift_rne (neg : Bool) (m d : Nat) : let i := roundShift .rne neg m d
    2 * m ≤ (2 * i + 1) * 2 ^ d ∧ 2 * i * 2 ^ d ≤ 2 * m + 2 ^ d ∧ (2 * m = (2 * i + 1) * 2 ^ d ∨ 2 * m + 2 ^ d = 2 * i * 2 ^ d → i % 2 = 0) := by
  cases d with
  | zero => simp [roundShift]
  | succ d =>
    have hmod := Nat.mod_lt m (Nat.two_pow_pos (d + 1))
    have hm := Nat.div_add_mod' m (2 ^ (d + 1))
    simp only [roundShift, Nat.add_one_ne_zero, if_false, Nat.add_sub_cancel]
    generalize m / 2 ^ (d + 1) = q at *
    generalize m % 2 ^ (d + 1) = r at *
    subst hm
    rw [Nat.pow_succ'] at *
    generalize 2 ^ d = h at *
    split
    · exact ⟨by linarith, by linarith, by rintro (h | h) <;> exfalso <;> linarith⟩
    split
    · next _ hr =>
      subst hr
      rcases Nat.mod_two_eq_zero_or_one q with hq | hq <;> rw [hq]
      · exact ⟨by linarith, by linarith, fun _ => by omega⟩
      · exact ⟨by linarith, by linarith, fun _ => by omega⟩
    · have : r < h := by omega
      exact ⟨by linarith, by linarith, by rintro (h | h) <;> exfalso <;> linarith⟩

/-- `roundShift` rounds m / 2^d. -/
theorem roundShift_rounds {rm : RMode} (hrm : rm = .rtz ∨ rm = .rup ∨ rm = .rne) (m d : Nat) :
    IntRounds rm (m / 2 ^ d) (roundShift rm false m d) := by
  have hd : (0 : ℝ) < 2 ^ d := by positivity
  have hle {a : ℝ} : a ≤ m / 2 ^ d ↔ a * 2 ^ d ≤ m := le_div_iff₀ hd
  have hge {a : ℝ} : m / 2 ^ d ≤ a ↔ m ≤ a * 2 ^ d := div_le_iff₀ hd
  have hlt {a : ℝ} : a < m / 2 ^ d ↔ a * 2 ^ d < m := lt_div_iff₀ hd
  have hgt {a : ℝ} : m / 2 ^ d < a ↔ m < a * 2 ^ d := div_lt_iff₀ hd
  rcases hrm with rfl | rfl | rfl
  · refine ⟨hle.2 ?_, hgt.2 ?_⟩
    · exact_mod_cast Nat.div_mul_le_self m (2 ^ d)
    · exact_mod_cast Nat.lt_mul_of_div_lt (Nat.lt_succ_self _) (Nat.two_pow_pos d)
  · rw [roundShift_rup]
    have hpos := Nat.two_pow_pos d
    have h1 : (m + 2 ^ d - 1) / 2 ^ d * 2 ^ d < m + 2 ^ d := (Nat.div_mul_le_self _ _).trans_lt (by omega)
    have h2 : m + 2 ^ d - 1 < ((m + 2 ^ d - 1) / 2 ^ d + 1) * 2 ^ d := Nat.lt_mul_of_div_lt (Nat.lt_succ_self _) hpos
    refine ⟨hge.2 ?_, hlt.2 ?_⟩
    · rw [Nat.succ_mul] at h2
      exact_mod_cast (by omega : m ≤ (m + 2 ^ d - 1) / 2 ^ d * 2 ^ d)
    · rw [sub_mul, one_mul, sub_lt_iff_lt_add]
      exact_mod_cast h1
  · obtain ⟨h1, h2, h3⟩ := roundShift_rne false m d
    generalize roundShift .rne false m d = i at *
    have hm : m / 2 ^ d * 2 ^ d = (m : ℝ) := div_mul_cancel₀ _ hd.ne'
    have h1' : (2 * m : ℝ) ≤ (2 * i + 1) * 2 ^ d := by exact_mod_cast h1
    have h2' : (2 * i * 2 ^ d : ℝ) ≤ 2 * m + 2 ^ d := by exact_mod_cast h2
    refine ⟨le_of_mul_le_mul_right (by linarith) hd, le_of_mul_le_mul_right (by linarith) hd, fun hi => ?_⟩
    have hne : ¬(2 * m = (2 * i + 1) * 2 ^ d ∨ 2 * m + 2 ^ d = 2 * i * 2 ^ d) := fun h => by omega
    have h3' : (2 * m : ℝ) ≠ (2 * i + 1) * 2 ^ d := fun h => hne (.inl (by exact_mod_cast h))
    have h4' : (2 * m + 2 ^ d : ℝ) ≠ 2 * i * 2 ^ d := fun h => hne (.inr (by exact_mod_cast h))
    have := lt_of_le_of_ne h1' h3'
    have := lt_of_le_of_ne h2' h4'.symm
    exact ⟨lt_of_mul_lt_mul_right (by linarith) hd.le, lt_of_mul_lt_mul_right (by linarith) hd.le⟩

/-! ## Rounding a real number to the grid -/

/-- Pattern r is the real number x, counted in least subnormals, rounded in a mode: `RoundsReal`, told by comparing with x. -/
def RoundsAt (f : FFmt) (rm : RMode) (neg : Bool) (x : ℝ) (r : Nat) : Prop :=
  RoundsReal f rm neg (fun z => (z : ℝ) ≤ 2 * x) (fun z => 2 * x ≤ z) r

theorem roundsAt_iff_onMagnitude {f : FFmt} {rm : RMode} {neg : Bool} {x : ℝ} {r : Nat} :
    RoundsAt f rm neg x r ↔ RoundsAt f (rm.onMagnitude neg) false x r :=
  roundsReal_iff_onMagnitude

theorem two_pow_fb_even {f : FFmt} (hfb : 1 ≤ f.fb) : 2 ^ f.fb % 2 = 0 := by
  rw [Nat.pow_mod]
  simp [Nat.ne_of_gt hfb]

/-- The pattern before a number's significand k lies a unit lower; at the start of a binade k is even, and no more than the number. -/
theorem gridVal_pred_below {f : FFmt} (hfb : 1 ≤ f.fb) {y : ℝ} {t k : Nat} (hlo : t = 0 ∨ 2 ^ f.fb ≤ k) (hhi : k ≤ 2 * 2 ^ f.fb)
    (hy : t = 0 ∨ (2 : ℝ) ^ f.fb ≤ y) (hk : k ≠ 0) : (gridVal f (t * 2 ^ f.fb + k - 1) : ℝ) ≤ (k - 1) * 2 ^ t ∨
      ((gridVal f (t * 2 ^ f.fb + k - 1) : ℝ) < k * 2 ^ t ∧ (k : ℝ) * 2 ^ t ≤ y * 2 ^ t ∧ k % 2 = 0) := by
  rcases gridVal_pred_le hlo hhi hk with h | ⟨ht, rfl⟩
  · left
    have : (gridVal f (t * 2 ^ f.fb + k - 1) + 2 ^ t : ℝ) ≤ k * 2 ^ t := by exact_mod_cast h
    linarith
  · have hlt : gridVal f (t * 2 ^ f.fb + 2 ^ f.fb - 1) < gridVal f (t * 2 ^ f.fb + 2 ^ f.fb) := gridVal_strictMono f (by omega)
    rw [gridVal_scaled hlo hhi] at hlt
    have hky : ((2 ^ f.fb : Nat) : ℝ) ≤ y := by exact_mod_cast hy.resolve_left ht
    exact .inr ⟨by exact_mod_cast hlt, mul_le_mul_of_nonneg_right hky (by positivity), two_pow_fb_even hfb⟩

/-- Within the precision of a binade, or among the subnormals, rounding to the grid is rounding the significand to an integer. -/
theorem IntRounds.roundsAt {f : FFmt} (hfb : 1 ≤ f.fb) {rm : RMode} (hrm : rm = .rtz ∨ rm = .rup ∨ rm = .rne) {y : ℝ} {t k : Nat}
    (hlo : t = 0 ∨ (2 : ℝ) ^ f.fb ≤ y) (hhi : y ≤ 2 * 2 ^ f.fb) (hpos : 0 < y) (h : IntRounds rm y k) :
    RoundsAt f rm false (y * 2 ^ t) (t * 2 ^ f.fb + k) := by
  have hlo' : t = 0 ∨ 2 ^ f.fb ≤ k := hlo.imp_right fun hy => h.ge (by exact_mod_cast hy)
  have hhi' : k ≤ 2 * 2 ^ f.fb := h.le (by exact_mod_cast hhi)
  have ht : (0 : ℝ) < 2 ^ t := by positivity
  have hself : (gridVal f (t * 2 ^ f.fb + k) : ℝ) = k * 2 ^ t := by exact_mod_cast gridVal_scaled hlo' hhi'
  have hsucc : ((k : ℝ) + 1) * 2 ^ t ≤ gridVal f (t * 2 ^ f.fb + k + 1) := by exact_mod_cast le_gridVal_succ hlo' hhi'
  have heven := two_pow_fb_even hfb
  have hpred := gridVal_pred_below hfb hlo' hhi' hlo
  have hparity : (t * 2 ^ f.fb + k) % 2 = k % 2 := by simp [Nat.add_mod, Nat.mul_mod, heven]
  have hzero : k = 0 → t * 2 ^ f.fb + k = 0 := fun hk => by
    simp [hk, hlo'.resolve_right (by have := Nat.two_pow_pos f.fb; omega)]
  generalize t * 2 ^ f.fb + k = r at *
  rcases hrm with rfl | rfl | rfl
  · obtain ⟨h1, h2⟩ := h
    have := mul_le_mul_of_nonneg_right h1 ht.le
    have := mul_lt_mul_of_pos_right h2 ht
    constructor <;> push_cast <;> linarith
  · obtain ⟨h1, h2⟩ := h
    have := mul_le_mul_of_nonneg_right h1 ht.le
    have := mul_lt_mul_of_pos_right h2 ht
    refine ⟨by push_cast; linarith, fun p hp => ?_⟩
    have hmono : (gridVal f p : ℝ) ≤ gridVal f (r - 1) := by exact_mod_cast (gridVal_strictMono f).monotone (by omega)
    have hk : k ≠ 0 := by
      rintro rfl
      simp at h1
      linarith
    push_cast
    rcases hpred hk with h | ⟨h, h', -⟩ <;> linarith
  · obtain ⟨h1, h2, h3⟩ := h
    have := mul_le_mul_of_nonneg_right h1 ht.le
    have := mul_le_mul_of_nonneg_right h2 ht.le
    refine ⟨or_iff_not_imp_left.2 fun hr => ?_, by push_cast; linarith, fun hodd => ?_⟩
    · push_cast
      rcases hpred fun hk => hr (hzero hk) with h | ⟨h, h', -⟩ <;> linarith
    · rw [hparity] at hodd
      obtain ⟨h4, h5⟩ := h3 hodd
      have := mul_lt_mul_of_pos_right h4 ht
      have := mul_lt_mul_of_pos_right h5 ht
      push_cast
      rcases hpred (by omega) with h | ⟨h, h', h''⟩
      · constructor <;> linarith
      · omega

/-- A larger number rounds to no smaller a pattern. -/
theorem RoundsAt.mono {f : FFmt} {rm : RMode} {neg : Bool} {x x' : ℝ} {r r' : Nat} (hx : x ≤ x') (h : RoundsAt f rm neg x r)
    (h' : RoundsAt f rm neg x' r') : r ≤ r' := by
  rw [roundsAt_iff_onMagnitude] at h h'
  by_contra hlt
  have hmono {a b : Nat} (hab : a ≤ b) : (gridVal f a : ℝ) ≤ gridVal f b := by exact_mod_cast (gridVal_strictMono f).monotone hab
  rcases rm.onMagnitude_cases neg with hm | hm | hm <;> rw [hm] at h h'
  · have h1 := h.1
    have h2 := h'.2
    have := hmono (show r' + 1 ≤ r by omega)
    push_cast at h1 h2
    linarith
  · have h1 := h.2 r' (by omega)
    have h2 := h'.1
    push_cast at h1 h2
    linarith
  · obtain ⟨h1, -, h3⟩ := h
    obtain ⟨-, h2, h3'⟩ := h'
    have h1 := h1.resolve_left (by omega)
    have ha := hmono (show r' ≤ r - 1 by omega)
    have hb := hmono (show r' + 1 ≤ r by omega)
    push_cast at h1 h2 h3 h3'
    have heq : (gridVal f r' : ℝ) = gridVal f (r - 1) := by linarith
    have : r' = r - 1 := (gridVal_strictMono f).injective (by exact_mod_cast heq)
    rcases Nat.mod_two_eq_zero_or_one r with hr | hr
    · have := (h3' (by omega)).2
      linarith
    · have := (h3 hr).1
      linarith

/-- The integers nearest to X in an increasing sequence: what lies between its neighbours' midpoints is nearest of all. -/
theorem nearest_of_neighbours {A : Nat → Nat} (hA : StrictMono A) {X r : Nat} (hlo : r = 0 ∨ A (r - 1) + A r ≤ 2 * X) (hhi : 2 * X ≤ A r + A (r + 1))
    (hodd : r % 2 = 1 → A (r - 1) + A r < 2 * X ∧ 2 * X < A r + A (r + 1)) (p : Nat) :
    ((X : Int) - A r).natAbs ≤ ((X : Int) - A p).natAbs ∧ (p ≠ r → ((X : Int) - A r).natAbs = ((X : Int) - A p).natAbs → r % 2 = 0) := by
  rcases Nat.lt_trichotomy p r with h | rfl | h
  · have h1 : A p ≤ A (r - 1) := hA.monotone (by omega)
    have h2 : A p < A r := hA h
    omega
  · simp
  · have h1 : A (r + 1) ≤ A p := hA.monotone h
    have h2 : A r < A p := hA h
    omega

/-- The rounding that `RoundsTo` tells with integers is that of the real number m * 2^e, counted in least subnormals. -/
theorem RoundsAt.roundsTo {f : FFmt} {rm : RMode} {neg : Bool} {m : Nat} {e : Int} {r : Nat}
    (h : RoundsAt f rm neg (m * 2 ^ (e - (1 - f.bias - f.fb))) r) : RoundsTo f rm neg m e r := by
  rw [roundsTo_iff_onMagnitude]
  rw [roundsAt_iff_onMagnitude] at h
  obtain ⟨g, hg⟩ : ∃ g : Int, g = 1 - f.bias - f.fb := ⟨_, rfl⟩
  rw [← hg] at h
  simp only [RoundsTo, ← hg]
  have hc : (0 : ℝ) < 2 ^ (g - e).toNat := by positivity
  have hx : m * (2 : ℝ) ^ (e - g) * 2 ^ (g - e).toNat = (m * 2 ^ (e - g).toNat : Nat) := by
    push_cast
    rw [mul_assoc, ← zpow_natCast, ← zpow_natCast, ← zpow_add₀ two_ne_zero]
    congr 2
    omega
  generalize m * 2 ^ (e - g).toNat = X at *
  generalize (m : ℝ) * 2 ^ (e - g) = x at *
  have hle (a : Nat) : (a : ℝ) ≤ 2 * x ↔ a * 2 ^ (g - e).toNat ≤ 2 * X := by
    rw [← mul_le_mul_iff_left₀ hc, mul_assoc, hx]
    exact_mod_cast Iff.rfl
  have hge (a : Nat) : 2 * x ≤ a ↔ 2 * X ≤ a * 2 ^ (g - e).toNat := by
    rw [← mul_le_mul_iff_left₀ hc, mul_assoc, hx]
    exact_mod_cast Iff.rfl
  rcases rm.onMagnitude_cases neg with hm | hm | hm <;>
    simp only [hm, RoundsAt, RoundsReal, hle, hge, Nat.add_mul, Nat.mul_assoc] at h ⊢
  · simpa using h
  · simpa using h
  · have hA : StrictMono fun p => gridVal f p * 2 ^ (g - e).toNat := (gridVal_strictMono f).mul_const (Nat.two_pow_pos _)
    simpa using nearest_of_neighbours hA h.1 h.2.1 (by simpa using h.2.2)

/-! ## Sticky magnitudes -/

/-- The integer M stands for the real number X where a rounding does not look at its last bit alone: it is X, or the odd number between the even
ones about X. -/
def StickyOf (M : Nat) (X : ℝ) : Prop := X = M ∨ ∃ n : Nat, M = 2 * n + 1 ∧ (2 * n : ℝ) < X ∧ X < 2 * n + 2

theorem StickyOf.le_iff {M : Nat} {X : ℝ} (h : StickyOf M X) (i : Int) : (2 * i : ℝ) ≤ M ↔ (2 * i : ℝ) ≤ X := by
  rcases h with rfl | ⟨n, rfl, h1, h2⟩
  · rfl
  · have hn : (2 * i : ℝ) ≤ (2 * n + 1 : Nat) ↔ i ≤ n := by
      rw [show i ≤ n ↔ 2 * i ≤ (2 * n + 1 : Nat) by omega]
      exact_mod_cast Iff.rfl
    refine hn.trans ⟨fun h => ?_, fun h => ?_⟩
    · have : (i : ℝ) ≤ n := by exact_mod_cast h
      linarith
    · have : (i : ℝ) < n + 1 := by linarith
      exact Int.lt_add_one_iff.1 (by exact_mod_cast this)

theorem StickyOf.ge_iff {M : Nat} {X : ℝ} (h : StickyOf M X) (i : Int) : (M : ℝ) ≤ 2 * i ↔ X ≤ 2 * i := by
  rcases h with rfl | ⟨n, rfl, h1, h2⟩
  · rfl
  · have hn : ((2 * n + 1 : Nat) : ℝ) ≤ 2 * i ↔ (n : Int) < i := by
      rw [show (n : Int) < i ↔ ((2 * n + 1 : Nat) : Int) ≤ 2 * i by omega]
      exact_mod_cast Iff.rfl
    refine hn.trans ⟨fun h => ?_, fun h => ?_⟩
    · have : (n : ℝ) + 1 ≤ i := by exact_mod_cast h
      linarith
    · have : (n : ℝ) < i := by linarith
      exact_mod_cast this

/-- Two bits further up, a number and its sticky magnitude compare alike with halves of integers. -/
theorem StickyOf.halvesAlike {M : Nat} {X : ℝ} (h : StickyOf M X) {d : Nat} (hd : 2 ≤ d) : HalvesAlike (M / 2 ^ d) (X / 2 ^ d) := by
  intro j
  obtain ⟨d, rfl⟩ := Nat.exists_eq_add_of_le' hd
  have hpos : (0 : ℝ) < 2 ^ (d + 2) / 2 := by positivity
  have hval (a : ℝ) : 2 * (a / 2 ^ (d + 2)) = a / (2 ^ (d + 2) / 2) := by field_simp
  have hj : (j : ℝ) * (2 ^ (d + 2) / 2) = 2 * (j * 2 ^ d : Int) := by push_cast; ring
  simp only [hval, le_div_iff₀ hpos, div_le_iff₀ hpos, hj]
  exact ⟨h.le_iff _, h.ge_iff _⟩

/-- A magnitude that `roundMag` can round in the place of X: X itself, or a sticky one with more bits than the format's. -/
def StandsFor (f : FFmt) (M : Nat) (X : ℝ) : Prop := X = M ∨ (StickyOf M X ∧ 2 ^ (f.fb + 2) ≤ M)

theorem StandsFor.log2_bounds {f : FFmt} {M : Nat} {X : ℝ} (h : StandsFor f M X) (hM : M ≠ 0) : (2 : ℝ) ^ M.log2 ≤ X ∧ X ≤ 2 ^ (M.log2 + 1) := by
  have h1 : (2 : ℝ) ^ M.log2 ≤ M := by exact_mod_cast Nat.log2_self_le hM
  have h2 : (M : ℝ) ≤ 2 ^ (M.log2 + 1) := by exact_mod_cast Nat.lt_log2_self.le
  rcases h with rfl | ⟨h, hlarge⟩
  · exact ⟨h1, h2⟩
  · have hlog : M.log2 ≠ 0 := fun h0 => by
      have := Nat.lt_log2_self (n := M)
      have : 2 ^ 1 ≤ 2 ^ (f.fb + 2) := Nat.pow_le_pow_right (by omega) (by omega)
      rw [h0] at *
      omega
    obtain ⟨l, hl⟩ := Nat.exists_eq_succ_of_ne_zero hlog
    rw [hl, Nat.succ_eq_add_one] at h1 h2 ⊢
    have hL : (2 : ℝ) ^ (l + 1) = 2 * (2 ^ l : Int) := by push_cast; ring
    have hH : (2 : ℝ) ^ (l + 1 + 1) = 2 * (2 ^ (l + 1) : Int) := by push_cast; ring
    rw [hL] at h1 ⊢
    rw [hH] at h2 ⊢
    exact ⟨(h.le_iff _).1 h1, (h.ge_iff _).1 h2⟩

/-- The exponent of the last place to which `roundMag` rounds. -/
def lastPlace (f : FFmt) (M : Nat) (e : Int) : Int := max (1 - (f.bias : Int)) (e + M.log2) - f.fb

theorem roundMag_eq (f : FFmt) (rm : RMode) (neg : Bool) (M : Nat) (e : Int) : f.roundMag rm neg M e =
    (lastPlace f M e - (1 - f.bias - f.fb)).toNat * 2 ^ f.fb +
      (if lastPlace f M e ≤ e then M * 2 ^ (e - lastPlace f M e).toNat else roundShift rm neg M (lastPlace f M e - e).toNat) := by
  have hq : (if e + M.log2 < 1 - (f.bias : Int) then 1 - (f.bias : Int) else e + M.log2) - f.fb = lastPlace f M e := by
    unfold lastPlace
    omega
  simp only [FFmt.roundMag, hq]
  congr 3
  omega

/-- In units of that place `roundMag` has the integer to which X is rounded. -/
theorem intRounds_lastPlace {f : FFmt} (rm : RMode) (neg : Bool) {M : Nat} (hM : M ≠ 0) {X : ℝ} (h : StandsFor f M X) (e : Int) :
    IntRounds (rm.onMagnitude neg) (X * 2 ^ (e - lastPlace f M e))
      (if lastPlace f M e ≤ e then M * 2 ^ (e - lastPlace f M e).toNat else roundShift rm neg M (lastPlace f M e - e).toNat) := by
  have hsticky : X = M ∨ (StickyOf M X ∧ e + 2 ≤ lastPlace f M e) := h.imp_right fun ⟨hs, hlarge⟩ =>
    ⟨hs, by have := (Nat.le_log2 hM).2 hlarge; unfold lastPlace; omega⟩
  generalize lastPlace f M e = q at *
  split
  · next hqe =>
    obtain rfl := hsticky.resolve_right fun h => by omega
    convert intRounds_self _ (M * 2 ^ (e - q).toNat) using 1
    push_cast
    rw [← zpow_natCast, Int.toNat_of_nonneg (by omega)]
  · next hqe =>
    have hd (Y : ℝ) : Y * 2 ^ (e - q) = Y / 2 ^ (q - e).toNat := by
      rw [div_eq_mul_inv, ← zpow_natCast, ← zpow_neg]
      congr 2
      omega
    rw [roundShift_eq_onMagnitude, hd]
    refine (roundShift_rounds (rm.onMagnitude_cases neg) M _).congr ?_
    rcases hsticky with rfl | ⟨hs, h2⟩
    · exact .refl _
    · exact hs.halvesAlike (by omega)

/-- `roundMag` rounds M * 2^e, and what M stands for. -/
theorem roundMag_roundsAt {f : FFmt} (hfb : 1 ≤ f.fb) (rm : RMode) (neg : Bool) {M : Nat} (hM : M ≠ 0) {X : ℝ} (h : StandsFor f M X) (e : Int) :
    RoundsAt f rm neg (X * 2 ^ (e - (1 - f.bias - f.fb))) (f.roundMag rm neg M e) := by
  have hint := intRounds_lastPlace rm neg hM h e
  have hq : lastPlace f M e = max (1 - (f.bias : Int)) (e + M.log2) - f.fb := rfl
  obtain ⟨g, hg⟩ : ∃ g : Int, g = 1 - f.bias - f.fb := ⟨_, rfl⟩
  rw [roundsAt_iff_onMagnitude, roundMag_eq, ← hg]
  generalize lastPlace f M e = q at *
  obtain ⟨hlow, hhigh⟩ := h.log2_bounds hM
  have hpos : 0 < X := (by positivity : (0 : ℝ) < 2 ^ M.log2).trans_le hlow
  have hX : X * (2 : ℝ) ^ (e - g) = X * 2 ^ (e - q) * 2 ^ (q - g).toNat := by
    rw [mul_assoc, ← zpow_natCast, ← zpow_add₀ two_ne_zero]
    congr 2
    omega
  have hpow {a b : Int} (h : a ≤ b) : (2 : ℝ) ^ a ≤ 2 ^ b := zpow_le_zpow_right₀ one_le_two h
  rw [hX]
  refine hint.roundsAt hfb (rm.onMagnitude_cases neg) ?_ ?_ (by positivity)
  · rcases Int.lt_or_le (e + M.log2) (1 - f.bias) with hs | hn
    · left
      omega
    · right
      calc (2 : ℝ) ^ f.fb = 2 ^ M.log2 * 2 ^ (e - q) := by
            rw [← zpow_natCast, ← zpow_natCast, ← zpow_add₀ two_ne_zero]
            congr 1
            omega
        _ ≤ X * 2 ^ (e - q) := by gcongr
  · calc X * 2 ^ (e - q) ≤ 2 ^ (M.log2 + 1) * 2 ^ (e - q) := by gcongr
      _ = 2 ^ ((M.log2 + 1 : Nat) + (e - q)) := by rw [zpow_add₀ two_ne_zero, zpow_natCast]
      _ ≤ 2 ^ ((f.fb + 1 : Nat) : Int) := hpow (by omega)
      _ = 2 * 2 ^ f.fb := by rw [zpow_natCast, pow_succ']

end Sys2Proof.Machine
end

section
/-! SUPPORT. The six formats: their fields, the values of their patterns, and what rounding into them gives (02 R46, R47, R51 to R53). -/

namespace Sys2Proof.Machine

/-! ## Fields -/

theorem FormatOf.fields {f : FFmt} {top : Nat} (hf : FormatOf f top) :
    (1 ≤ f.fb ∧ f.fb ≤ 52 ∧ f.fb + 2 ≤ f.w) ∧ (f.maxFin = top ∧ top < 2 ^ (f.w - 1)) ∧ f.hasInf = decide (f ≠ e4m3) ∧ f.val f.nan = .nan := by
  simp only [FormatOf, List.mem_cons, Prod.mk.injEq, List.not_mem_nil, or_false] at hf
  rcases hf with ⟨rfl, rfl⟩ | ⟨rfl, rfl⟩ | ⟨rfl, rfl⟩ | ⟨rfl, rfl⟩ | ⟨rfl, rfl⟩ | ⟨rfl, rfl⟩ <;> decide

theorem FFmt.inf_pos {f : FFmt} (hw : f.fb + 2 ≤ f.w) : 0 < f.inf := by
  have : 2 ^ 1 ≤ 2 ^ (f.w - 1 - f.fb) := Nat.pow_le_pow_right (by omega) (by omega)
  exact Nat.mul_pos (by unfold FFmt.emax; omega) (Nat.two_pow_pos _)

/-- Past the exponent field of all ones lies the sign. -/
theorem FFmt.inf_add {f : FFmt} (hw : f.fb + 2 ≤ f.w) : f.inf + 2 ^ f.fb = 2 ^ (f.w - 1) := by
  have hpos := Nat.two_pow_pos (f.w - 1 - f.fb)
  rw [FFmt.inf, ← Nat.succ_mul, FFmt.emax, Nat.succ_eq_add_one, Nat.sub_add_cancel hpos, ← pow_add]
  congr 1
  omega

theorem withSign_eq (f : FFmt) (s : Bool) (p : Nat) : f.withSign s p = (if s then 2 ^ (f.w - 1) else 0) + p := by
  cases s <;> simp [FFmt.withSign, Nat.add_comm]

theorem hasInf_false {f : FFmt} (h : f = e4m3) : f.hasInf = false := h ▸ rfl

section Format
variable {f : FFmt} {top : Nat} (hf : FormatOf f top)
include hf

theorem FormatOf.fb_pos : 1 ≤ f.fb := hf.fields.1.1

theorem FormatOf.fb_le : f.fb ≤ 52 := hf.fields.1.2.1

theorem FormatOf.fb_lt : f.fb + 2 ≤ f.w := hf.fields.1.2.2

theorem FormatOf.maxFin_eq : f.maxFin = top := hf.fields.2.1.1

theorem FormatOf.top_lt : top < 2 ^ (f.w - 1) := hf.fields.2.1.2

theorem FormatOf.hasInf_true (hne : f ≠ e4m3) : f.hasInf = true := by simpa [hne] using hf.fields.2.2.1

theorem FormatOf.val_nan : f.val f.nan = .nan := hf.fields.2.2.2

theorem FormatOf.inf_eq (hne : f ≠ e4m3) : f.inf = top + 1 := by
  have h := hf.maxFin_eq
  have := FFmt.inf_pos hf.fb_lt
  simp only [FFmt.maxFin, hf.hasInf_true hne, if_true] at h
  omega

end Format

/-! ## The value of a pattern -/

section Value
variable {f : FFmt} {top : Nat}

/-- The sign bit, the exponent field and the fraction of a pattern (R47). -/
theorem val_withSign (hw : f.fb + 2 ≤ f.w) (s : Bool) {p : Nat} (hp : p < 2 ^ (f.w - 1)) : f.val (f.withSign s p) =
    if p / 2 ^ f.fb = f.emax && f.hasInf then (if p % 2 ^ f.fb = 0 then .inf s else .nan)
    else if p / 2 ^ f.fb = f.emax && p % 2 ^ f.fb = 2 ^ f.fb - 1 then .nan
    else if p / 2 ^ f.fb = 0 then (if p % 2 ^ f.fb = 0 then .zero s else .fin s (p % 2 ^ f.fb) (1 - (f.bias : Int) - f.fb))
    else .fin s (2 ^ f.fb + p % 2 ^ f.fb) (((p / 2 ^ f.fb : Nat) : Int) - f.bias - f.fb) := by
  have hsplit : 2 ^ (f.w - 1) = 2 ^ (f.w - 1 - f.fb) * 2 ^ f.fb := by
    rw [← pow_add]
    congr 1
    omega
  have hbit : bit (f.withSign s p) (f.w - 1) = s := by
    cases s <;> simp [FFmt.withSign, bit, Nat.testBit_lt_two_pow hp, Nat.testBit_two_pow_add_eq, Nat.add_comm p]
  have hexp : bits (f.withSign s p) (f.w - 2) f.fb = p / 2 ^ f.fb := by
    have hlt : p / 2 ^ f.fb < 2 ^ (f.w - 1 - f.fb) := Nat.div_lt_of_lt_mul (by rw [Nat.mul_comm]; omega)
    rw [bits, show f.w - 2 + 1 - f.fb = f.w - 1 - f.fb by omega]
    cases s
    · exact Nat.mod_eq_of_lt hlt
    · rw [FFmt.withSign, if_pos rfl, hsplit, Nat.add_mul_div_right _ _ (Nat.two_pow_pos _), Nat.add_mod_right, Nat.mod_eq_of_lt hlt]
  have hfrac : f.withSign s p % 2 ^ f.fb = p % 2 ^ f.fb := by
    cases s
    · rfl
    · rw [FFmt.withSign, if_pos rfl, hsplit, Nat.add_mul_mod_self_right]
  simp only [FFmt.val, hbit, hexp, hfrac]

/-- Up to the largest finite number a pattern is a zero or the finite number of its place on the grid (R46, R47). -/
theorem FormatOf.val_finite (hf : FormatOf f top) (s : Bool) {p : Nat} (hp : p ≤ top) : f.val (f.withSign s p) =
    if p = 0 then .zero s else .fin s (if p / 2 ^ f.fb = 0 then p % 2 ^ f.fb else 2 ^ f.fb + p % 2 ^ f.fb)
      (1 - f.bias - f.fb + (p / 2 ^ f.fb - 1 : Nat)) := by
  have hp' : p ≤ f.maxFin := by rw [hf.maxFin_eq]; exact hp
  have hdm := Nat.div_add_mod' p (2 ^ f.fb)
  have hmod := Nat.mod_lt p (Nat.two_pow_pos f.fb)
  have hinf := FFmt.inf_pos hf.fb_lt
  have hfinite : p / 2 ^ f.fb = f.emax → f.hasInf = false ∧ p % 2 ^ f.fb ≠ 2 ^ f.fb - 1 := fun he => by
    rw [he, ← FFmt.inf] at hdm
    unfold FFmt.maxFin at hp'
    split at hp' <;> simp_all <;> omega
  rw [val_withSign hf.fb_lt s (by have := hf.top_lt; omega), if_neg (by simpa using fun h => (hfinite h).1),
    if_neg (by simpa using fun h => (hfinite h).2)]
  rcases Nat.eq_zero_or_pos p with rfl | hp0
  · simp
  · obtain he | ⟨a, he⟩ : p / 2 ^ f.fb = 0 ∨ ∃ a, p / 2 ^ f.fb = a + 1 := by cases p / 2 ^ f.fb <;> simp
    · have : p % 2 ^ f.fb ≠ 0 := by rw [he] at hdm; omega
      simp [he, this, hp0.ne']
    · simp only [he, hp0.ne', if_false, Nat.succ_ne_zero]
      congr 1
      omega

/-- The value of a pattern is its magnitude on the grid, in least subnormals. -/
theorem FormatOf.val_grid (hf : FormatOf f top) {p : Nat} (hp : p ≤ top) :
    (gridVal f p = 0 → f.val p = .zero false ∧ f.val (p + 2 ^ (f.w - 1)) = .zero true) ∧
    (gridVal f p ≠ 0 → ∃ m e, f.val p = .fin false m e ∧ f.val (p + 2 ^ (f.w - 1)) = .fin true m e ∧ 1 - (f.bias : Int) - f.fb ≤ e ∧
      m * 2 ^ (e - (1 - (f.bias : Int) - f.fb)).toNat = gridVal f p) := by
  have hpos := hf.val_finite false hp
  have hneg := hf.val_finite true hp
  simp only [FFmt.withSign, if_true, Bool.false_eq_true, if_false] at hpos hneg
  rw [hpos, hneg, ne_eq, gridVal_eq_zero]
  refine ⟨fun h => by simp [h], fun h => ?_⟩
  simp only [h, if_false]
  refine ⟨_, _, rfl, rfl, by omega, ?_⟩
  rw [add_sub_cancel_left, Int.toNat_natCast, gridVal]
  split
  · next he => simp [he]
  · rfl

/-- Past the largest finite number lie the infinity of a format that has one, and NaNs. -/
theorem FormatOf.val_past (hf : FormatOf f top) (s : Bool) {p : Nat} (hp : top < p) (hp' : p < 2 ^ (f.w - 1)) :
    f.val (f.withSign s p) = if f ≠ e4m3 ∧ p = top + 1 then .inf s else .nan := by
  by_cases hne : f = e4m3
  · subst hne
    obtain rfl : top = 0x7E := hf.maxFin_eq.symm
    obtain rfl : p = 0x7F := by simp [e4m3] at hp'; omega
    cases s <;> decide
  · have hinf := hf.inf_eq hne
    obtain ⟨b, rfl⟩ := Nat.exists_eq_add_of_le (show f.inf ≤ p by omega)
    have hb : b < 2 ^ f.fb := by
      have := FFmt.inf_add hf.fb_lt
      omega
    have hdiv : (f.inf + b) / 2 ^ f.fb = f.emax := by
      rw [FFmt.inf, Nat.add_comm, Nat.add_mul_div_right _ _ (Nat.two_pow_pos _), Nat.div_eq_of_lt hb, Nat.zero_add]
    have hmod : (f.inf + b) % 2 ^ f.fb = b := by
      rw [FFmt.inf, Nat.add_comm, Nat.add_mul_mod_self_right, Nat.mod_eq_of_lt hb]
    have hb0 : f.inf + b = top + 1 ↔ b = 0 := by omega
    simp [val_withSign hf.fb_lt s hp', hdiv, hmod, hf.hasInf_true hne, hne, hb0]

end Value

/-! ## Results in a format -/

theorem ranged_mono (f : FFmt) (top : Nat) (rm : RMode) (neg : Bool) {r r' : Nat} (h : r ≤ r') : Ranged f top rm neg r ≤ Ranged f top rm neg r' := by
  unfold Ranged
  split_ifs <;> omega

section Result
variable {f : FFmt} {top : Nat} (hf : FormatOf f top)
include hf

/-- R52: what becomes of a rounded magnitude. -/
theorem FormatOf.rnd_fin (rm : RMode) (neg : Bool) (m : Nat) (e : Int) :
    f.rnd rm (.fin neg m e) = Ranged f top rm neg (f.roundMag rm neg m e) := by
  simp only [FFmt.rnd, hf.maxFin_eq, withSign_eq, Ranged, ← apply_ite (fun x => (if neg then 2 ^ (f.w - 1) else 0) + x)]
  by_cases hne : f = e4m3
  · simp [hasInf_false hne, eq_true hne]
  · cases rm <;> cases neg <;> simp [hf.hasInf_true hne, hne, hf.inf_eq hne]

theorem FormatOf.rnd_special (rm : RMode) (neg : Bool) : f.rnd rm .nan = f.nan ∧ f.rnd rm (.zero neg) = (if neg then 2 ^ (f.w - 1) else 0) ∧
    f.rnd rm (.inf neg) = (if neg then 2 ^ (f.w - 1) else 0) + (if f = e4m3 then top else top + 1) := by
  refine ⟨rfl, withSign_eq .., (withSign_eq ..).trans ?_⟩
  by_cases hne : f = e4m3
  · rw [hasInf_false hne, if_neg Bool.false_ne_true, if_pos hne, hf.maxFin_eq]
  · rw [hf.hasInf_true hne, if_pos rfl, if_neg hne, hf.inf_eq hne]

/-- A finite value is rounded once, in the mode (R51). -/
theorem FormatOf.rnd_rounds (rm : RMode) (neg : Bool) {m : Nat} (hm : m ≠ 0) (e : Int) :
    ∃ r, RoundsTo f rm neg m e r ∧ f.rnd rm (.fin neg m e) = Ranged f top rm neg r :=
  ⟨_, (roundMag_roundsAt hf.fb_pos rm neg hm (.inl rfl) e).roundsTo, hf.rnd_fin rm neg m e⟩

/-- R53: to the nearest, and no further than the largest finite number. -/
theorem FormatOf.narrow_rounds (neg : Bool) {m : Nat} (hm : m ≠ 0) (e : Int) : ∃ r, RoundsTo f .rne neg m e r ∧
    f.narrow (.fin neg m e) = ((if neg then 2 ^ (f.w - 1) else 0) + min r top, decide (top < r)) := by
  refine ⟨_, (roundMag_roundsAt hf.fb_pos .rne neg hm (.inl rfl) e).roundsTo, ?_⟩
  simp only [FFmt.narrow, hf.maxFin_eq, withSign_eq]
  split
  · next h => rw [min_eq_left h, decide_eq_false (by omega)]
  · next h => rw [min_eq_right (by omega), decide_eq_true (by omega)]

theorem FormatOf.narrow_special (neg : Bool) :
    f.narrow (.inf neg) = ((if neg then 2 ^ (f.w - 1) else 0) + top, true) ∧ f.narrow .nan = (f.nan, false) :=
  ⟨by rw [FFmt.narrow, withSign_eq, hf.maxFin_eq], rfl⟩

/-- A larger magnitude gives no smaller a result. -/
theorem FormatOf.rnd_mono (rm : RMode) (neg : Bool) {m m' : Nat} {e e' : Int} (hm : m ≠ 0) (hm' : m' ≠ 0) (h : (m : ℝ) * 2 ^ e ≤ m' * 2 ^ e') :
    f.rnd rm (.fin neg m e) ≤ f.rnd rm (.fin neg m' e') := by
  rw [hf.rnd_fin, hf.rnd_fin]
  refine ranged_mono f top rm neg ((roundMag_roundsAt hf.fb_pos rm neg hm (.inl rfl) e).mono ?_
    (roundMag_roundsAt hf.fb_pos rm neg hm' (.inl rfl) e'))
  have hscale (a : ℝ) (b : Int) : a * 2 ^ (b - (1 - f.bias - f.fb)) = a * 2 ^ b / 2 ^ (1 - f.bias - f.fb : Int) := by
    rw [zpow_sub₀ two_ne_zero, mul_div_assoc]
  rw [hscale, hscale]
  gcongr

end Result

/-! ## Order of values, minima and maxima -/

theorem fvLt_asymm {x y : FVal} (h : fvLt x y = true) : fvLt y x = false := by
  cases x with
  | nan => simp [fvLt] at h
  | inf a => cases y <;> simp_all [fvLt]
  | zero a => cases y <;> simp_all [fvLt]
  | fin s m e =>
    cases y with
    | nan => simp [fvLt] at h
    | inf b => simp_all [fvLt]
    | zero b => simp_all [fvLt]
    | fin u n g =>
      simp only [fvLt, decide_eq_true_eq, decide_eq_false_iff_not, min_comm g e] at *
      omega

theorem not_isNan_of_fvLt {x y : FVal} (h : fvLt x y = true) : x.isNan = false ∧ y.isNan = false := by
  cases x <;> cases y <;> simp_all [fvLt, FVal.isNan]

theorem isNan_iff {x : FVal} : x.isNan = true ↔ x = .nan := by
  cases x <;> simp [FVal.isNan]

section MinMax
variable {f : FFmt} {a b : Nat}

theorem fmin_fmax_of_lt (h : fvLt (f.val a) (f.val b) = true) : f.fmin a b = a ∧ f.fmax a b = b := by
  simp [FFmt.fmin, FFmt.fmax, not_isNan_of_fvLt h, h]

theorem fmin_fmax_of_gt (h : fvLt (f.val b) (f.val a) = true) : f.fmin a b = b ∧ f.fmax a b = a := by
  simp [FFmt.fmin, FFmt.fmax, not_isNan_of_fvLt h, h, fvLt_asymm h]

/-- Of operands neither of which is below the other, the minimum is the one with a sign, and the maximum the other (R50). -/
theorem fmin_fmax_of_zeros {s : Bool} (ha : f.val a = .zero s) (hb : f.val b = .zero (!s)) :
    f.fmin a b = (if s then a else b) ∧ f.fmax a b = (if s then b else a) := by
  simp [FFmt.fmin, FFmt.fmax, ha, hb, FVal.isNan, FVal.isNeg, fvLt]

/-- A NaN yields the other operand, and two the canonical NaN (R50). -/
theorem fmin_fmax_of_nan : (f.val a = .nan → f.val b = .nan → f.fmin a b = f.nan ∧ f.fmax a b = f.nan) ∧
    (f.val a = .nan → f.val b ≠ .nan → f.fmin a b = b ∧ f.fmax a b = b) ∧
    (f.val a ≠ .nan → f.val b = .nan → f.fmin a b = a ∧ f.fmax a b = a) := by
  simp only [ne_eq, ← isNan_iff, Bool.not_eq_true]
  refine ⟨fun ha hb => ?_, fun ha hb => ?_, fun ha hb => ?_⟩ <;> simp [FFmt.fmin, FFmt.fmax, ha, hb]

end MinMax

end Sys2Proof.Machine
end

section
/-! SUPPORT. Reciprocals and reciprocal roots: sticky quotients and roots, and the real numbers they stand for (10 R249). -/

namespace Sys2Proof.Machine

/-! ## Sticky quotients and roots -/

/-- A quotient with a sticky last bit stands for twice the exact one. -/
theorem stickyOf_stickyDiv (n : Nat) {d : Nat} (hd : d ≠ 0) : StickyOf (stickyDiv n d) (2 * (n / d)) := by
  have hpos : (0 : ℝ) < d := by positivity
  have hdm : (d : ℝ) * (n / d : Nat) + (n % d : Nat) = n := by exact_mod_cast Nat.div_add_mod n d
  have hmod : ((n % d : Nat) : ℝ) < d := by exact_mod_cast Nat.mod_lt n (Nat.pos_of_ne_zero hd)
  unfold stickyDiv
  split
  · next h =>
    left
    rw [h] at hdm
    field_simp
    push_cast at *
    linarith
  · next h =>
    have h0 : (0 : ℝ) < (n % d : Nat) := by positivity
    refine .inr ⟨_, rfl, ?_, ?_⟩
    · have : ((n / d : Nat) : ℝ) < n / d := (lt_div_iff₀ hpos).2 (by linarith)
      linarith
    · have : (n / d : ℝ) < (n / d : Nat) + 1 := (div_lt_iff₀ hpos).2 (by linarith)
      linarith

/-- The bits of a root are found from the highest down: r is right above bit n, and ends right. -/
theorem isqrtGo_spec (n x r : Nat) (hlo : r * r ≤ x) (hhi : x < (r + 2 ^ n) * (r + 2 ^ n)) :
    isqrtGo n x r * isqrtGo n x r ≤ x ∧ x < (isqrtGo n x r + 1) * (isqrtGo n x r + 1) := by
  induction n generalizing r with
  | zero => exact ⟨hlo, hhi⟩
  | succ n ih =>
    simp only [isqrtGo]
    split
    · next h =>
      refine ih _ h ?_
      rwa [Nat.add_assoc, ← Nat.two_mul, ← Nat.pow_succ']
    · next h => exact ih _ hlo (by omega)

theorem isqrt_eq_sqrt (x : Nat) : isqrt x = Nat.sqrt x := by
  have hbound : x < (0 + 2 ^ (x.log2 / 2 + 1)) * (0 + 2 ^ (x.log2 / 2 + 1)) := by
    rw [Nat.zero_add, ← pow_add]
    exact Nat.lt_log2_self.trans_le (Nat.pow_le_pow_right (by omega) (by omega))
  obtain ⟨h1, h2⟩ := isqrtGo_spec (x.log2 / 2 + 1) x 0 (by omega) hbound
  exact Nat.eq_sqrt.2 ⟨h1, h2⟩

/-- An integer root of a quotient with a sticky last bit. -/
def stickyRoot (n d : Nat) : Nat := 2 * isqrt (n / d) + (if isqrt (n / d) * isqrt (n / d) * d = n then 0 else 1)

/-- It stands for twice the exact root. -/
theorem stickyOf_stickyRoot (n : Nat) {d : Nat} (hd : d ≠ 0) : StickyOf (stickyRoot n d) (2 * √(n / d)) := by
  rw [stickyRoot, isqrt_eq_sqrt]
  have hpos : (0 : ℝ) < d := by positivity
  have hlo : Nat.sqrt (n / d) * Nat.sqrt (n / d) * d ≤ n := (Nat.le_div_iff_mul_le (Nat.pos_of_ne_zero hd)).1 (Nat.sqrt_le _)
  have hhi : n < (Nat.sqrt (n / d) + 1) * (Nat.sqrt (n / d) + 1) * d :=
    (Nat.div_lt_iff_lt_mul (Nat.pos_of_ne_zero hd)).1 (Nat.lt_succ_sqrt _)
  generalize Nat.sqrt (n / d) = t at *
  split
  · next h =>
    left
    have hroot : (n / d : ℝ) = t * t := by rw [← h]; field_simp; push_cast; ring
    rw [hroot, Real.sqrt_mul_self (by positivity)]
    simp
  · next h =>
    refine .inr ⟨t, rfl, ?_, ?_⟩
    · have : (t : ℝ) < √(n / d) := Real.lt_sqrt_of_sq_lt ((lt_div_iff₀ hpos).2 (by rw [sq]; exact_mod_cast lt_of_le_of_ne hlo h))
      linarith
    · have : √(n / d : ℝ) < t + 1 := (Real.sqrt_lt' (by positivity)).2 ((div_lt_iff₀ hpos).2 (by rw [sq]; exact_mod_cast hhi))
      linarith

/-! ## The numbers they stand for -/

theorem two_zpow_eq (c : Int) : (2 : ℝ) ^ c = 2 ^ c.toNat / 2 ^ (-c).toNat := by
  rw [← zpow_natCast, ← zpow_natCast, ← zpow_sub₀ two_ne_zero]
  congr 1
  omega

/-- A comparison of integers scaled by a power of two, on either side of it. -/
theorem mul_zpow_le_iff (a b : Nat) (c : Int) : (a : ℝ) * 2 ^ c ≤ b ↔ a * 2 ^ c.toNat ≤ b * 2 ^ (-c).toNat := by
  rw [two_zpow_eq, ← mul_div_assoc, div_le_iff₀ (by positivity)]
  exact_mod_cast Iff.rfl

theorem le_mul_zpow_iff (a b : Nat) (c : Int) : (b : ℝ) ≤ a * 2 ^ c ↔ b * 2 ^ (-c).toNat ≤ a * 2 ^ c.toNat := by
  rw [two_zpow_eq, ← mul_div_assoc, le_div_iff₀ (by positivity)]
  exact_mod_cast Iff.rfl

/-- The model makes the exponent even without changing the number. -/
theorem even_exponent {m m' : Nat} {e e' : Int} (hm : m ≠ 0) (h : (m', e') = if e % 2 = 0 then (m, e) else (2 * m, e - 1)) :
    m' ≠ 0 ∧ e' = 2 * (e' / 2) ∧ (m' : ℝ) * 2 ^ e' = m * 2 ^ e := by
  split at h <;> obtain ⟨rfl, rfl⟩ := h
  · exact ⟨hm, by omega, rfl⟩
  · refine ⟨by omega, by omega, ?_⟩
    rw [zpow_sub_one₀ two_ne_zero]
    push_cast
    ring

/-- The root of 2^(2 k) / m, scaled back, squares to the reciprocal. -/
theorem sq_root_scaled {m : Nat} (hm : m ≠ 0) (k : Nat) (h g : Int) :
    (2 * (2 * √(((2 ^ (2 * k) : Nat) : ℝ) / m) * 2 ^ (-(k : Int) - h - 1 - g))) ^ 2 = 4 / (m * 2 ^ (2 * h) * 2 ^ (2 * g)) := by
  have hm : (0 : ℝ) < m := by positivity
  rw [mul_pow, mul_pow, mul_pow, Real.sq_sqrt (by positivity), zpow_sub₀ two_ne_zero, zpow_sub₀ two_ne_zero, zpow_sub₀ two_ne_zero, zpow_neg,
    zpow_natCast, mul_comm 2 h, mul_comm 2 g, zpow_mul, zpow_mul]
  push_cast
  field_simp
  ring

theorem stickyRoot_large {m : Nat} (hm : m ≠ 0) : 2 ^ 54 ≤ stickyRoot (2 ^ (2 * (m.log2 + 64))) m := by
  have hroot : 2 ^ 54 ≤ Nat.sqrt (2 ^ (2 * (m.log2 + 64)) / m) := by
    rw [Nat.le_sqrt, Nat.le_div_iff_mul_le (Nat.pos_of_ne_zero hm), ← pow_add]
    calc 2 ^ (54 + 54) * m ≤ 2 ^ (54 + 54) * 2 ^ (m.log2 + 1) := Nat.mul_le_mul_left _ Nat.lt_log2_self.le
      _ ≤ 2 ^ (2 * (m.log2 + 64)) := by
        rw [← pow_add]
        exact Nat.pow_le_pow_right (by omega) (by omega)
  rw [stickyRoot, isqrt_eq_sqrt]
  omega

theorem fvRsq_fin {m m' : Nat} {e e' : Int} (h : (m', e') = if e % 2 = 0 then (m, e) else (2 * m, e - 1)) :
    fvRsq (.fin false m e) = .fin false (stickyRoot (2 ^ (2 * (m'.log2 + 64))) m') (-((m'.log2 + 64 : Nat) : Int) - e' / 2 - 1) := by
  simp only [fvRsq, ← h, Bool.false_eq_true, if_false, stickyRoot]

section Result
variable {f : FFmt} {top : Nat} (hf : FormatOf f top)
include hf

/-- What a sticky magnitude stands for is rounded once, in the mode. -/
theorem FormatOf.rnd_sticky (rm : RMode) (neg : Bool) {M : Nat} {X : ℝ} (hX : StickyOf M X) (hM : 2 ^ 54 ≤ M) (e : Int) :
    ∃ r, RoundsAt f rm neg (X * 2 ^ (e - (1 - f.bias - f.fb))) r ∧ f.rnd rm (.fin neg M e) = Ranged f top rm neg r := by
  have hlarge : 2 ^ (f.fb + 2) ≤ M := (Nat.pow_le_pow_right (by omega) (by have := hf.fb_le; omega)).trans hM
  exact ⟨_, roundMag_roundsAt hf.fb_pos rm neg (by omega) (.inr ⟨hX, hlarge⟩) e, hf.rnd_fin rm neg M e⟩

theorem FormatOf.rcp_rounds (rm : RMode) (neg : Bool) {m : Nat} {e c : Int} (hm : m ≠ 0) (hc : c = 1 - f.bias - f.fb + e) :
    ∃ r, RoundsReal f rm neg (fun z => z * m * 2 ^ c.toNat ≤ 2 * 2 ^ (-c).toNat) (fun z => 2 * 2 ^ (-c).toNat ≤ z * m * 2 ^ c.toNat) r ∧
      f.rnd rm (fvRcp (.fin neg m e)) = Ranged f top rm neg r := by
  have hlarge : 2 ^ 54 ≤ stickyDiv (2 ^ (m.log2 + 64)) m := by
    have hdiv : 2 ^ 63 ≤ 2 ^ (m.log2 + 64) / m := by
      rw [Nat.le_div_iff_mul_le (Nat.pos_of_ne_zero hm), show m.log2 + 64 = 63 + (m.log2 + 1) by omega, pow_add]
      exact Nat.mul_le_mul_left _ Nat.lt_log2_self.le
    unfold stickyDiv
    omega
  have hx : 2 * (((2 ^ (m.log2 + 64) : Nat) : ℝ) / m) * 2 ^ (-((m.log2 + 64 : Nat) : Int) - e - 1 - (1 - f.bias - f.fb)) = 1 / (m * 2 ^ c) := by
    rw [show -((m.log2 + 64 : Nat) : Int) - e - 1 - (1 - f.bias - f.fb) = -c - (m.log2 + 64 : Nat) - 1 by omega, zpow_sub₀ two_ne_zero,
      zpow_sub₀ two_ne_zero, zpow_neg, zpow_natCast]
    push_cast
    field_simp
  obtain ⟨r, hr, heq⟩ := hf.rnd_sticky rm neg (stickyOf_stickyDiv (2 ^ (m.log2 + 64)) hm) hlarge (-((m.log2 + 64 : Nat) : Int) - e - 1)
  refine ⟨r, ?_, heq⟩
  have hpos : (0 : ℝ) < m * 2 ^ c := by positivity
  rw [hx, RoundsAt] at hr
  have habove (z : Nat) : (z : ℝ) ≤ 2 * (1 / (m * 2 ^ c)) ↔ z * m * 2 ^ c.toNat ≤ 2 * 2 ^ (-c).toNat := by
    rw [mul_one_div, le_div_iff₀ hpos, ← mul_assoc]
    exact_mod_cast mul_zpow_le_iff (z * m) 2 c
  have hbelow (z : Nat) : 2 * (1 / (m * 2 ^ c)) ≤ (z : ℝ) ↔ 2 * 2 ^ (-c).toNat ≤ z * m * 2 ^ c.toNat := by
    rw [mul_one_div, div_le_iff₀ hpos, ← mul_assoc]
    exact_mod_cast le_mul_zpow_iff (z * m) 2 c
  simpa only [habove, hbelow] using hr

theorem FormatOf.rsq_rounds (rm : RMode) {m : Nat} {e c : Int} (hm : m ≠ 0) (hc : c = 2 * (1 - f.bias - f.fb) + e) :
    ∃ r, RoundsReal f rm false (fun z => z ^ 2 * m * 2 ^ c.toNat ≤ 4 * 2 ^ (-c).toNat) (fun z => 4 * 2 ^ (-c).toNat ≤ z ^ 2 * m * 2 ^ c.toNat) r ∧
      f.rnd rm (fvRsq (.fin false m e)) = Ranged f top rm false r := by
  obtain ⟨⟨m', e'⟩, hme⟩ : ∃ me : Nat × Int, me = if e % 2 = 0 then (m, e) else (2 * m, e - 1) := ⟨_, rfl⟩
  obtain ⟨hm', heven, hval⟩ := even_exponent hm hme
  rw [fvRsq_fin hme]
  have hsq := sq_root_scaled hm' (m'.log2 + 64) (e' / 2) (1 - f.bias - f.fb)
  rw [← heven, hval, mul_assoc (m : ℝ), ← zpow_add₀ two_ne_zero, add_comm e, ← hc] at hsq
  obtain ⟨r, hr, heq⟩ := hf.rnd_sticky rm false (stickyOf_stickyRoot _ hm') (stickyRoot_large hm') (-((m'.log2 + 64 : Nat) : Int) - e' / 2 - 1)
  refine ⟨r, ?_, heq⟩
  generalize hx : 2 * √(((2 ^ (2 * (m'.log2 + 64)) : Nat) : ℝ) / m') * 2 ^ (-((m'.log2 + 64 : Nat) : Int) - e' / 2 - 1 - (1 - f.bias - f.fb)) = x
    at hsq hr
  have hx0 : 0 ≤ x := by rw [← hx]; positivity
  have hpos : (0 : ℝ) < m * 2 ^ c := by positivity
  have habove (z : Nat) : (z : ℝ) ≤ 2 * x ↔ z ^ 2 * m * 2 ^ c.toNat ≤ 4 * 2 ^ (-c).toNat := by
    rw [← sq_le_sq₀ (by positivity) (by positivity), hsq, le_div_iff₀ hpos, ← mul_assoc]
    exact_mod_cast mul_zpow_le_iff (z ^ 2 * m) 4 c
  have hbelow (z : Nat) : 2 * x ≤ (z : ℝ) ↔ 4 * 2 ^ (-c).toNat ≤ z ^ 2 * m * 2 ^ c.toNat := by
    rw [← sq_le_sq₀ (by positivity) (by positivity), hsq, div_le_iff₀ hpos, ← mul_assoc]
    exact_mod_cast le_mul_zpow_iff (z ^ 2 * m) 4 c
  simpa only [RoundsAt, habove, hbelow] using hr

end Result

end Sys2Proof.Machine
end

section
/-! SUPPORT. The base-2 exponential and logarithm: the series that bound them, and the integers or powers of two between which their results lie
(10 R249). -/

namespace Sys2Proof.Machine

/-! ## The series of the logarithm of two -/

/-- Each of the terms loses less than a unit. -/
theorem ln2Go_bounds (p n : Nat) : (ln2Go p n : ℝ) ≤ 2 ^ p * ∑ i ∈ Finset.range n, (1 / 2 : ℝ) ^ (i + 1) / (i + 1) ∧
    2 ^ p * ∑ i ∈ Finset.range n, (1 / 2 : ℝ) ^ (i + 1) / (i + 1) ≤ ln2Go p n + n := by
  induction n with
  | zero => simp [ln2Go]
  | succ n ih =>
    obtain ⟨ih1, ih2⟩ := ih
    have hterm : (2 : ℝ) ^ p * ((1 / 2) ^ (n + 1) / (n + 1)) = ((2 ^ p : Nat) : ℝ) / ((n + 1) * 2 ^ (n + 1) : Nat) := by
      push_cast
      field_simp
      simp
    have h1 := Nat.cast_div_le (α := ℝ) (m := 2 ^ p) (n := (n + 1) * 2 ^ (n + 1))
    have h2 := (Nat.lt_floor_add_one (((2 ^ p : Nat) : ℝ) / ((n + 1) * 2 ^ (n + 1) : Nat))).le
    rw [Nat.floor_div_eq_div] at h2
    rw [Finset.sum_range_succ, mul_add, hterm]
    simp only [ln2Go, Nat.cast_add (2 ^ p / _), Nat.cast_add n]
    push_cast at *
    constructor <;> linarith

theorem ln2Go_le (p n : Nat) : (ln2Go p n : ℝ) ≤ 2 ^ p * Real.log 2 := by
  have hsum := Real.hasSum_pow_div_log_of_abs_lt_one (x := 1 / 2) (by norm_num [abs_of_pos])
  have hle := sum_le_hasSum (Finset.range n) (fun i _ => by positivity) hsum
  rw [show -Real.log (1 - 1 / 2) = Real.log 2 by rw [← Real.log_inv]; norm_num] at hle
  exact (ln2Go_bounds p n).1.trans (mul_le_mul_of_nonneg_left hle (by positivity))

theorem log_two_le (p : Nat) : 2 ^ p * Real.log 2 < ln2Go p (p + 2) + p + 4 := by
  have h := Real.abs_log_sub_add_sum_range_le (x := 1 / 2) (by norm_num [abs_of_pos]) (p + 2)
  have hlog : Real.log (1 - 1 / 2) = -Real.log 2 := by rw [← Real.log_inv]; norm_num
  rw [hlog, abs_of_pos (by norm_num : (0 : ℝ) < 1 / 2)] at h
  have htail : (2 : ℝ) ^ p * ((1 / 2) ^ (p + 2 + 1) / (1 - 1 / 2)) = 1 / 4 := by
    rw [pow_add, pow_add, one_div_pow]
    field_simp
    norm_num
  have hle := mul_le_mul_of_nonneg_left (neg_le_of_abs_le h) (by positivity : (0 : ℝ) ≤ 2 ^ p)
  rw [mul_neg, htail] at hle
  have hb := (ln2Go_bounds p (p + 2)).2
  push_cast at *
  linarith

/-! ## The series of the exponential -/

/-- The terms from the k-th on, each no more than the exact one. -/
theorem expGo_le (p x n k t : Nat) (ht : (t : ℝ) ≤ 2 ^ p * ((x / 2 ^ p : ℝ) ^ k / k.factorial)) :
    (expGo p x n (k + 1) t : ℝ) ≤ 2 ^ p * ∑ i ∈ Finset.range n, (x / 2 ^ p : ℝ) ^ (k + i) / (k + i).factorial := by
  induction n generalizing k t with
  | zero => simp [expGo]
  | succ n ih =>
    have hnext : ((t * x / (2 ^ p * (k + 1)) : Nat) : ℝ) ≤ 2 ^ p * ((x / 2 ^ p : ℝ) ^ (k + 1) / (k + 1).factorial) := by
      calc ((t * x / (2 ^ p * (k + 1)) : Nat) : ℝ) ≤ ((t * x : Nat) : ℝ) / ((2 ^ p * (k + 1) : Nat) : ℝ) := Nat.cast_div_le
        _ = t * (x / (2 ^ p * (k + 1))) := by push_cast; ring
        _ ≤ 2 ^ p * ((x / 2 ^ p : ℝ) ^ k / k.factorial) * (x / (2 ^ p * (k + 1))) := by gcongr
        _ = 2 ^ p * ((x / 2 ^ p : ℝ) ^ (k + 1) / (k + 1).factorial) := by
          rw [Nat.factorial_succ, pow_succ]
          push_cast
          field_simp
    have hrest := ih (k + 1) _ hnext
    rw [Finset.sum_range_succ', mul_add, expGo, Nat.cast_add]
    simp only [Nat.add_assoc k, Nat.add_comm 1, Nat.add_zero] at hrest ⊢
    linarith

/-- The lower bound of 2^f for 0 ≤ f < 1 lies from 1 to 2. -/
theorem exp2Bounds_fst {p fl : Nat} (fh : Nat) (hfl : fl < 2 ^ p) : 2 ^ p ≤ (exp2Bounds p fl fh).1 ∧ (exp2Bounds p fl fh).1 < 2 * 2 ^ p := by
  have hP : (0 : ℝ) < 2 ^ p := by positivity
  have hx : ((fl * ln2Go p (p + 2) / 2 ^ p : Nat) : ℝ) / 2 ^ p < Real.log 2 := by
    have hfl' : (fl : ℝ) < 2 ^ p := by exact_mod_cast hfl
    rw [div_lt_iff₀ hP]
    calc ((fl * ln2Go p (p + 2) / 2 ^ p : Nat) : ℝ) ≤ ((fl * ln2Go p (p + 2) : Nat) : ℝ) / ((2 ^ p : Nat) : ℝ) := Nat.cast_div_le
      _ ≤ fl * (2 ^ p * Real.log 2) / 2 ^ p := by
        push_cast
        gcongr
        exact ln2Go_le p (p + 2)
      _ = fl * Real.log 2 := by field_simp
      _ < Real.log 2 * 2 ^ p := by
        rw [mul_comm]
        exact mul_lt_mul_of_pos_left hfl' (Real.log_pos one_lt_two)
  simp only [exp2Bounds]
  generalize fl * ln2Go p (p + 2) / 2 ^ p = x at *
  constructor
  · simp [expGo]
  · have hexp : (expGo p x (p / 2 + 8) (0 + 1) (2 ^ p) : ℝ) < ((2 * 2 ^ p : Nat) : ℝ) := by
      calc (expGo p x (p / 2 + 8) (0 + 1) (2 ^ p) : ℝ)
          ≤ 2 ^ p * ∑ i ∈ Finset.range (p / 2 + 8), (x / 2 ^ p : ℝ) ^ (0 + i) / (0 + i).factorial := expGo_le p x _ 0 _ (by simp)
        _ ≤ 2 ^ p * Real.exp (x / 2 ^ p) := by
          simp only [Nat.zero_add]
          gcongr
          exact Real.sum_le_exp_of_nonneg (by positivity) _
        _ < 2 ^ p * Real.exp (Real.log 2) := by gcongr
        _ = ((2 * 2 ^ p : Nat) : ℝ) := by
          rw [Real.exp_log two_pos]
          push_cast
          ring
    exact_mod_cast hexp

/-! ## The series of the logarithm -/

/-- The terms from the k-th on, each no more than the exact one. -/
theorem atanhGo_le (p z2 n k t : Nat) {w : ℝ} (hw : 0 ≤ w) (hz : (z2 : ℝ) ≤ 2 ^ p * w ^ 2) (ht : (t : ℝ) ≤ 2 ^ p * w ^ (2 * k + 1)) :
    (atanhGo p z2 n k t : ℝ) ≤ 2 ^ p * ∑ i ∈ Finset.range n, 2 * (1 / (2 * (k + i : Nat) + 1)) * w ^ (2 * (k + i) + 1) := by
  induction n generalizing k t with
  | zero => simp [atanhGo]
  | succ n ih =>
    have hterm : ((2 * t / (2 * k + 1) : Nat) : ℝ) ≤ 2 ^ p * (2 * (1 / (2 * k + 1)) * w ^ (2 * k + 1)) := by
      calc ((2 * t / (2 * k + 1) : Nat) : ℝ) ≤ ((2 * t : Nat) : ℝ) / ((2 * k + 1 : Nat) : ℝ) := Nat.cast_div_le
        _ = 2 * (1 / (2 * k + 1)) * t := by push_cast; ring
        _ ≤ 2 * (1 / (2 * k + 1)) * (2 ^ p * w ^ (2 * k + 1)) := by gcongr
        _ = 2 ^ p * (2 * (1 / (2 * k + 1)) * w ^ (2 * k + 1)) := by ring
    have hnext : ((t * z2 / 2 ^ p : Nat) : ℝ) ≤ 2 ^ p * w ^ (2 * (k + 1) + 1) := by
      calc ((t * z2 / 2 ^ p : Nat) : ℝ) ≤ ((t * z2 : Nat) : ℝ) / ((2 ^ p : Nat) : ℝ) := Nat.cast_div_le
        _ ≤ (2 ^ p * w ^ (2 * k + 1)) * (2 ^ p * w ^ 2) / 2 ^ p := by push_cast; gcongr
        _ = 2 ^ p * w ^ (2 * (k + 1) + 1) := by field_simp; ring
    have hrest := ih (k + 1) _ hnext
    rw [Finset.sum_range_succ', mul_add, atanhGo, Nat.cast_add]
    simp only [Nat.add_assoc k, Nat.add_comm 1, Nat.add_zero] at hrest ⊢
    linarith

/-- The lower bound of the logarithm of a number from 1 to 2 lies from 0 to 1. -/
theorem log2Bounds_fst (p : Nat) {m j : Nat} (hlo : 2 ^ j < m) (hhi : m < 2 ^ (j + 1)) : (log2Bounds p m j).1 < 2 ^ p := by
  simp only [log2Bounds]
  generalize hz : (m - 2 ^ j) * 2 ^ p / (m + 2 ^ j) = z
  have hj : (0 : ℝ) < 2 ^ j := by positivity
  have hm : (2 : ℝ) ^ j < m := by exact_mod_cast hlo
  have hm2 : (m : ℝ) < 2 * 2 ^ j := by rw [← pow_succ']; exact_mod_cast hhi
  obtain ⟨w, hw⟩ : ∃ w : ℝ, w = (m - 2 ^ j) / (m + 2 ^ j) := ⟨_, rfl⟩
  have hw0 : 0 ≤ w := hw ▸ div_nonneg (by linarith) (by linarith)
  have hw1 : w < 1 := hw ▸ (div_lt_one (by linarith)).2 (by linarith)
  have hzw : (z : ℝ) ≤ 2 ^ p * w := by
    rw [← hz, hw]
    refine Nat.cast_div_le.trans (le_of_eq ?_)
    push_cast [Nat.cast_sub hlo.le]
    ring
  have hz2 : ((z * z / 2 ^ p : Nat) : ℝ) ≤ 2 ^ p * w ^ 2 := by
    calc ((z * z / 2 ^ p : Nat) : ℝ) ≤ ((z * z : Nat) : ℝ) / ((2 ^ p : Nat) : ℝ) := Nat.cast_div_le
      _ ≤ (2 ^ p * w) * (2 ^ p * w) / 2 ^ p := by push_cast; gcongr
      _ = 2 ^ p * w ^ 2 := by field_simp
  have hsum := sum_le_hasSum (Finset.range (p / 3 + 4)) (fun i _ => by positivity)
    (Real.hasSum_log_sub_log_of_abs_lt_one (x := w) (by rwa [abs_of_nonneg hw0]))
  have hlog : Real.log (1 + w) - Real.log (1 - w) < Real.log 2 := by
    rw [← Real.log_div (by linarith) (by linarith)]
    refine Real.log_lt_log (div_pos (by linarith) (by linarith)) ((div_lt_iff₀ (by linarith)).2 ?_)
    have : w * (m + 2 ^ j) = m - 2 ^ j := by rw [hw]; exact div_mul_cancel₀ _ (by linarith)
    by_contra hge
    nlinarith
  have hle := atanhGo_le p (z * z / 2 ^ p) (p / 3 + 4) 0 z hw0 hz2 (by simpa using hzw)
  simp only [Nat.zero_add] at hle
  have hlt : (atanhGo p (z * z / 2 ^ p) (p / 3 + 4) 0 z : ℝ) < ln2Go p (p + 2) + p + 4 := by
    calc _ ≤ 2 ^ p * _ := hle
      _ ≤ 2 ^ p * Real.log 2 := by gcongr; exact hsum.trans hlog.le
      _ < _ := log_two_le p
  refine Nat.div_lt_of_lt_mul ?_
  exact Nat.mul_lt_mul_of_pos_right (by exact_mod_cast hlt) (Nat.two_pow_pos p)

/-! ## From bounds to results -/

theorem ceilDiv_eq {a b k : Nat} (hlo : k * b < a) (hhi : a ≤ (k + 1) * b) : ceilDiv a b = k + 1 :=
  Nat.div_eq_of_lt_le (by rw [Nat.succ_mul]; omega) (by rw [Nat.succ_mul]; omega)

/-- 2^a for a from n to n + 1, or from -(n + 1) to -n: the lower magnitude lies from 1 to 2 in the units of the power of two below. -/
theorem exp2At_bounds (p : Nat) (s : Bool) {m n d : Nat} {e : Int} (he : e < 0) (hd : d = 2 ^ (-e).toNat) (hlo : n * d < m) (hhi : m < (n + 1) * d) :
    2 ^ p ≤ (exp2At p s m e).1 ∧ (exp2At p s m e).1 < 2 * 2 ^ p ∧
      (exp2At p s m e).2.2 = (if s then -((n : Int) + 1) else n) - p := by
  have hd0 : 0 < d := hd ▸ Nat.two_pow_pos _
  have hP := Nat.two_pow_pos p
  have hdm := Nat.div_add_mod' (m * 2 ^ p) d
  have hmod := Nat.mod_lt (m * 2 ^ p) hd0
  have hfloor : n * 2 ^ p ≤ m * 2 ^ p / d ∧ m * 2 ^ p / d < (n + 1) * 2 ^ p := by
    rw [Nat.le_div_iff_mul_le hd0, Nat.div_lt_iff_lt_mul hd0, Nat.mul_right_comm, Nat.mul_right_comm _ _ d]
    exact ⟨Nat.mul_le_mul_right _ hlo.le, Nat.mul_lt_mul_of_pos_right hhi hP⟩
  have hge : ¬e ≥ 0 := by omega
  obtain ⟨i, hi⟩ : ∃ i, i = if m * 2 ^ p % d = 0 then 0 else 1 := ⟨_, rfl⟩
  have hceil : n * 2 ^ p < m * 2 ^ p / d + i := by
    by_contra hle
    have hmn : m * 2 ^ p / d = n * 2 ^ p ∧ i = 0 := by omega
    have hzero : m * 2 ^ p % d = 0 := by simpa [hmn.2] using hi
    rw [hmn.1, hzero, Nat.mul_right_comm] at hdm
    exact absurd (Nat.mul_lt_mul_of_pos_right hlo hP) (by omega)
  have hi1 : i ≤ 1 := by rw [hi]; split <;> omega
  simp only [exp2At, hge, ← hd, ← hi, if_false, decide_false, Bool.false_or, decide_eq_true_eq]
  generalize m * 2 ^ p / d = l at *
  cases s with
  | true =>
    simp only [if_true]
    rw [ceilDiv_eq hceil (by omega)]
    have := exp2Bounds_fst (p := p) (fl := (n + 1) * 2 ^ p - (l + i)) ((n + 1) * 2 ^ p - l) (by rw [Nat.succ_mul]; omega)
    exact ⟨this.1, this.2, by push_cast; ring⟩
  | false =>
    have hn : l / 2 ^ p = n := Nat.div_eq_of_lt_le hfloor.1 hfloor.2
    have := exp2Bounds_fst (p := p) (l % 2 ^ p + i) (Nat.mod_lt l hP)
    simp only [Bool.false_eq_true, if_false, hn]
    exact ⟨this.1, this.2, trivial⟩

/-- The result is one of those tried. -/
theorem tryPrecisions_eq (g : Nat → Nat × Bool) {ps : List Nat} (hps : ps ≠ []) : ∃ p, tryPrecisions g ps = (g p).1 := by
  induction ps with
  | nil => exact absurd rfl hps
  | cons p ps ih =>
    cases ps with
    | nil => exact ⟨p, rfl⟩
    | cons q qs =>
      simp only [tryPrecisions]
      split
      · exact ⟨p, rfl⟩
      · exact ih (List.cons_ne_nil q qs)

/-- A bound in units of 2^-p, set half a unit up as `roundBounds` has it, against the numbers about it. -/
theorem le_half_unit_up {k l p : Nat} (b : Int) (h : k * 2 ^ p ≤ l) : (k : ℝ) * 2 ^ b ≤ (2 * l + 1 : Nat) * 2 ^ (b - p - 1) := by
  have h' : (k : ℝ) * 2 ^ p ≤ l := by exact_mod_cast h
  rw [zpow_sub₀ two_ne_zero, zpow_sub₀ two_ne_zero, zpow_natCast, zpow_one, div_div, mul_div_left_comm, mul_comm]
  refine mul_le_mul_of_nonneg_left ((le_div_iff₀ (by positivity)).2 ?_) (by positivity)
  push_cast
  linarith

theorem half_unit_up_le {k l p : Nat} (b : Int) (h : l < k * 2 ^ p) : ((2 * l + 1 : Nat) : ℝ) * 2 ^ (b - p - 1) ≤ k * 2 ^ b := by
  have h' : (l : ℝ) + 1 ≤ k * 2 ^ p := by exact_mod_cast h
  rw [zpow_sub₀ two_ne_zero, zpow_sub₀ two_ne_zero, zpow_natCast, zpow_one, div_div, mul_div_left_comm, mul_comm (k : ℝ)]
  refine mul_le_mul_of_nonneg_left ((div_le_iff₀ (by positivity)).2 ?_) (by positivity)
  push_cast
  linarith

section Result
variable {f : FFmt} {top : Nat} (hf : FormatOf f top)

include hf in
/-- R249: the special values of both functions. -/
theorem FormatOf.exp2_log2_special (hne : f ≠ e4m3) (rm : RMode) :
    f.exp2 rm .nan = f.nan ∧ f.exp2 rm (.inf false) = top + 1 ∧ f.exp2 rm (.inf true) = 0 ∧
      (∀ s, f.exp2 rm (.zero s) = f.rnd rm (.fin false 1 0)) ∧ f.log2 rm .nan = f.nan ∧ f.log2 rm (.inf false) = top + 1 ∧
      f.log2 rm (.inf true) = f.nan ∧ (∀ s, f.log2 rm (.zero s) = 2 ^ (f.w - 1) + (top + 1)) ∧
      (∀ m e, m ≠ 0 → f.log2 rm (.fin true m e) = f.nan) := by
  have hinf := hf.inf_eq hne
  exact ⟨rfl, hinf, rfl, fun _ => rfl, rfl, hinf, rfl, fun _ => (withSign_eq ..).trans (by rw [hinf]; rfl), fun _ _ _ => rfl⟩

/-- The exponential of an integer is exact. -/
theorem exp2_integer (rm : RMode) (s : Bool) {m n : Nat} {e : Int} (hm : m ≠ 0) (hn : n < 2 ^ 20) (h : m * 2 ^ e.toNat = n * 2 ^ (-e).toNat) :
    f.exp2 rm (.fin s m e) = f.rnd rm (.fin false 1 (if s then -(n : Int) else n)) := by
  have hmin : min (n : Int) 1048576 = n := by omega
  rcases Int.lt_or_le e 0 with he | he
  · rw [Int.toNat_of_nonpos he.le, pow_zero, Nat.mul_one] at h
    have hge : ¬e ≥ 0 := by omega
    have h20 : ¬e ≥ 20 := by omega
    simp [FFmt.exp2, h, hge, h20, hmin]
  · rw [Int.toNat_of_nonpos (by omega : -e ≤ 0), pow_zero, Nat.mul_one] at h
    have h20 : ¬e ≥ 20 := fun h20 => by
      have : 2 ^ 20 ≤ 2 ^ e.toNat := Nat.pow_le_pow_right (by omega) (by omega)
      have : 2 ^ e.toNat ≤ m * 2 ^ e.toNat := Nat.le_mul_of_pos_left _ (by omega)
      omega
    simp [FFmt.exp2, h, he, h20, hmin]

/-- Any other exponential is a lower bound rounded, and lies between those of the integers about its operand. -/
theorem exp2_fraction (rm : RMode) (s : Bool) {m n d : Nat} {e : Int} (he : e < 0) (hn : n < 2 ^ 20) (hd : d = 2 ^ (-e).toNat) (hlo : n * d < m)
    (hhi : m < (n + 1) * d) : ∃ p, f.exp2 rm (.fin s m e) =
      (roundBounds f rm false (exp2At p s m e).1 (exp2At p s m e).2.1 (exp2At p s m e).2.2).1 := by
  have hfraction : m % d ≠ 0 := fun h0 => by
    obtain ⟨k, rfl⟩ := Nat.dvd_of_mod_eq_zero h0
    rw [Nat.mul_comm d] at hlo hhi
    have := Nat.lt_of_mul_lt_mul_right hlo
    have := Nat.lt_of_mul_lt_mul_right hhi
    omega
  have hsmall : ¬((m.log2 : Int) + e ≥ 20) := fun h20 => by
    have hlt : m < 2 ^ (20 + (-e).toNat) := by
      rw [pow_add, ← hd]
      exact hhi.trans_le (Nat.mul_le_mul_right d hn)
    have := (Nat.log2_lt (by omega)).2 hlt
    omega
  have hge : ¬e ≥ 0 := by omega
  simp only [FFmt.exp2, ← hd, hge, hfraction, hsmall, decide_false, Bool.or_false, Bool.false_eq_true, if_false]
  exact tryPrecisions_eq _ (List.cons_ne_nil _ _)

/-- Any other logarithm is a bound rounded: its lower one, or, of a magnitude below zero, the one that gives the less magnitude. -/
theorem log2_fraction (rm : RMode) {j m : Nat} {e n : Int} (hn : n = e + j) (hlo : 2 ^ j < m) (hhi : m < 2 ^ (j + 1)) :
    ∃ p : Nat, f.log2 rm (.fin false m e) =
      if n ≥ 0 then f.rnd rm (.fin false (2 * (n.toNat * 2 ^ p + (log2Bounds p m j).1) + 1) (0 - p - 1))
      else f.rnd rm (.fin true (2 * ((-n).toNat * 2 ^ p - (log2Bounds p m j).2) + 1) (0 - p - 1)) := by
  have hlog : m.log2 = j := (Nat.log2_eq_iff (by omega)).2 ⟨hlo.le, hhi⟩
  simp only [FFmt.log2, hlog, hlo.ne', Bool.false_eq_true, if_false, ← hn]
  obtain ⟨p, hp⟩ := tryPrecisions_eq (fun p =>
    if n ≥ 0 then roundBounds f rm false (n.toNat * 2 ^ p + (log2Bounds p m j).1) (n.toNat * 2 ^ p + (log2Bounds p m j).2) (-(p : Int))
    else roundBounds f rm true ((-n).toNat * 2 ^ p - (log2Bounds p m j).2) ((-n).toNat * 2 ^ p - (log2Bounds p m j).1) (-(p : Int)))
    (ps := precisions) (List.cons_ne_nil _ _)
  refine ⟨p, hp.trans ?_⟩
  rw [Int.zero_sub]
  split <;> rfl

include hf

theorem FormatOf.exp2_between (rm : RMode) (s : Bool) {m n : Nat} {e : Int} (he : e < 0) (hn : n < 2 ^ 20) (hlo : n * 2 ^ (-e).toNat < m)
    (hhi : m < (n + 1) * 2 ^ (-e).toNat) :
    f.rnd rm (.fin false 1 (if s then -((n : Int) + 1) else n)) ≤ f.exp2 rm (.fin s m e) ∧
      f.exp2 rm (.fin s m e) ≤ f.rnd rm (.fin false 1 (if s then -(n : Int) else n + 1)) := by
  obtain ⟨p, hp⟩ := exp2_fraction (f := f) rm s he hn rfl hlo hhi
  obtain ⟨h1, h2, h3⟩ := exp2At_bounds p s he rfl hlo hhi
  have hupper : (if s then -(n : Int) else n + 1) = (if s then -((n : Int) + 1) else n) + 1 := by split <;> omega
  rw [hp, roundBounds, h3, hupper]
  generalize (if s then -((n : Int) + 1) else n) = b
  refine ⟨hf.rnd_mono rm false (by omega) (by omega) (le_half_unit_up b (by simpa using h1)), hf.rnd_mono rm false (by omega) (by omega) ?_⟩
  refine (half_unit_up_le b h2).trans (le_of_eq ?_)
  rw [zpow_add_one₀ two_ne_zero]
  push_cast
  ring

/-- The logarithm of a power of two is exact. -/
theorem FormatOf.log2_power (rm : RMode) (j : Nat) {e n : Int} (hn : n = e + j) :
    f.log2 rm (.fin false (2 ^ j) e) = if n = 0 then 0 else f.rnd rm (.fin (decide (n < 0)) n.natAbs 0) := by
  subst hn
  simp only [FFmt.log2, Nat.log2_two_pow, Bool.false_eq_true, if_false, if_true, intVal]
  by_cases h : e + (j : Int) = 0
  · simp [h, (hf.rnd_special rm false).2.1]
  · simp [h]

/-- Any other logarithm lies between those of the powers of two about its operand. -/
theorem FormatOf.log2_between (rm : RMode) {j m : Nat} {e n : Int} (hn : n = e + j) (hlo : 2 ^ j < m) (hhi : m < 2 ^ (j + 1)) :
    (0 ≤ n → (if n = 0 then 0 else f.rnd rm (.fin false n.natAbs 0)) ≤ f.log2 rm (.fin false m e) ∧
      f.log2 rm (.fin false m e) ≤ f.rnd rm (.fin false (n.natAbs + 1) 0)) ∧
    (n < 0 → 2 ^ (f.w - 1) ≤ f.log2 rm (.fin false m e) ∧ f.log2 rm (.fin false m e) ≤ f.rnd rm (.fin true n.natAbs 0)) := by
  obtain ⟨p, hp⟩ := log2_fraction (f := f) rm hn hlo hhi
  refine ⟨fun h0 => ?_, fun h0 => ?_⟩
  · rw [hp, if_pos h0, show n.toNat = n.natAbs by omega]
    constructor
    · split
      · exact Nat.zero_le _
      · exact hf.rnd_mono rm false (by omega) (by omega) (le_half_unit_up 0 (Nat.le_add_right _ _))
    · refine hf.rnd_mono rm false (by omega) (by omega) (half_unit_up_le 0 ?_)
      rw [Nat.succ_mul]
      exact Nat.add_lt_add_left (log2Bounds_fst p hlo hhi) _
  · rw [hp, if_neg (by omega), show (-n).toNat = n.natAbs by omega]
    constructor
    · rw [hf.rnd_fin, Ranged, if_pos rfl]
      exact Nat.le_add_right _ _
    · have hpos : 0 < n.natAbs * 2 ^ p := Nat.mul_pos (by omega) (Nat.two_pow_pos p)
      exact hf.rnd_mono rm true (by omega) (by omega) (half_unit_up_le 0 (Nat.sub_lt hpos (Nat.succ_pos _)))

end Result

end Sys2Proof.Machine
end

section
/-! Sums, products and conversions, the packed formats and the summing tree (02 R48, R49, R53, R54, R57, R58, R61, R64; 10 R250), and the number
formats as a whole (O39). -/

namespace Sys2Proof.Machine

/-! ## Sums and products -/

theorem scaled_eq (s : Bool) (m : Nat) (e c : Int) : scaled s m e c = (if s then -1 else 1) * (m * 2 ^ (e - c).toNat : Nat) := by
  cases s <;> simp [scaled]

/-- R49, R51: sums and products of finite values are exact. -/
theorem fvAdd_fvMul_fvLt_fin (rm : RMode) (s u : Bool) (m n : Nat) {e g v w c : Int} (hc : c = min e g)
    (hv : v = (if s then -1 else 1) * (m * 2 ^ (e - c).toNat : Nat)) (hw : w = (if u then -1 else 1) * (n * 2 ^ (g - c).toNat : Nat)) :
    fvAdd rm (.fin s m e) (.fin u n g) = (if v + w = 0 then .zero (rm == .rdn) else .fin (decide (v + w < 0)) (v + w).natAbs c) ∧
    fvMul (.fin s m e) (.fin u n g) = .fin (s != u) (m * n) (e + g) ∧ (fvLt (.fin s m e) (.fin u n g) = true ↔ v < w) := by
  rw [← scaled_eq] at hv hw
  simp only [fvAdd, fvMul, fvLt, ← hc, ← hv, ← hw, ofScaled, decide_eq_true_eq, and_self]

/-- R48, R49: NaNs, infinities and zeros. -/
theorem fvAdd_fvMul_special (rm : RMode) (x : FVal) (s u : Bool) :
    fvAdd rm .nan x = .nan ∧ fvAdd rm x .nan = .nan ∧ fvMul .nan x = .nan ∧ fvMul x .nan = .nan ∧
    fvAdd rm (.inf s) (.inf u) = (if s = u then .inf s else .nan) ∧ fvMul (.inf s) (.zero u) = .nan ∧ fvMul (.zero s) (.inf u) = .nan ∧
    fvAdd rm (.zero s) (.zero u) = (if s = u then .zero s else .zero (rm == .rdn)) ∧ fvMul (.zero s) (.zero u) = .zero (s != u) ∧
    fvMul (.inf s) (.inf u) = .inf (s != u) := by
  cases x <;> exact ⟨rfl, rfl, rfl, rfl, rfl, rfl, rfl, rfl, rfl, rfl⟩

/-! ## To integers -/

theorem intLo_le_intHi (sg : Bool) (w : Nat) : intLo sg w ≤ intHi sg w := by
  have h1 : (0 : Int) < 2 ^ (w - 1) := by positivity
  have h2 : (0 : Int) < 2 ^ w := by positivity
  cases sg <;> simp only [intLo, intHi, if_true, Bool.false_eq_true, if_false] <;> omega

theorem clampInt_eq {lo hi : Int} (h : lo ≤ hi) (x : Int) : clampInt lo hi x = (max lo (min hi x), decide (x < lo ∨ hi < x)) := by
  unfold clampInt
  split
  · next hx => rw [decide_eq_true (.inl hx), max_eq_left ((min_le_right hi x).trans hx.le)]
  · next hx =>
    split
    · next hx' => rw [decide_eq_true (.inr hx'), min_eq_left (le_of_lt hx'), max_eq_right h]
    · next hx' => rw [decide_eq_false (by omega), min_eq_right (by omega), max_eq_right (by omega)]

/-- R54: a finite value is rounded to an integer in the mode, and saturates. -/
theorem fvToIntSat_fin (rm : RMode) (sg : Bool) (w : Nat) (neg : Bool) (m : Nat) (e : Int) : ∃ i : Nat,
    (0 ≤ e → i = m * 2 ^ (min e 2048).toNat) ∧
    (∀ d, e < 0 → d = 2 ^ (-e).toNat → (rm = .rtz ∨ (rm = .rup ∧ neg = true) ∨ (rm = .rdn ∧ neg = false) → i = m / d) ∧
      (rm = .rup ∧ neg = false ∨ rm = .rdn ∧ neg = true → i = (m + d - 1) / d) ∧
      (rm = .rne → 2 * m ≤ (2 * i + 1) * d ∧ (2 * i - 1) * d ≤ 2 * m ∧ (2 * m = (2 * i + 1) * d ∨ 2 * m + d = 2 * i * d → i % 2 = 0))) ∧
    ∀ x : Int, x = (if neg then -(i : Int) else i) → fvToIntSat rm sg w (.fin neg m e) =
      (wrap w (max (intLo sg w) (min (intHi sg w) x)), decide (x < intLo sg w ∨ intHi sg w < x)) := by
  refine ⟨if e ≥ 0 then m * 2 ^ (min e 2048).toNat else roundShift rm neg m (-e).toNat, fun he => if_pos he, fun d he hd => ?_, fun x hx => ?_⟩
  · subst hd
    rw [if_neg (by omega)]
    refine ⟨fun h => ?_, fun h => ?_, fun h => ?_⟩
    · have hm : rm.onMagnitude neg = .rtz := by
        rcases h with rfl | ⟨rfl, rfl⟩ | ⟨rfl, rfl⟩ <;> rfl
      rw [roundShift_eq_onMagnitude, hm]
      rfl
    · have hm : rm.onMagnitude neg = .rup := by
        rcases h with ⟨rfl, rfl⟩ | ⟨rfl, rfl⟩ <;> rfl
      rw [roundShift_eq_onMagnitude, hm, roundShift_rup]
    · subst h
      obtain ⟨h1, h2, h3⟩ := roundShift_rne neg m (-e).toNat
      exact ⟨h1, by rw [Nat.sub_mul]; omega, h3⟩
  · simp only [fvToIntSat, fvToInt, ← hx, clampInt_eq (intLo_le_intHi sg w)]

/-! ## VCVT -/

/-- The floating formats by code (R87). -/
theorem fmtFloat_eq {c : Nat} {f : FFmt} (h : (c, f) ∈ [(0, fp64), (1, fp32), (2, fp16), (3, bf16), (4, e5m2), (5, e4m3)]) :
    fmtFloat c = some f ∧ c < 6 := by
  simp only [List.mem_cons, Prod.mk.injEq, List.not_mem_nil, or_false] at h
  rcases h with ⟨rfl, rfl⟩ | ⟨rfl, rfl⟩ | ⟨rfl, rfl⟩ | ⟨rfl, rfl⟩ | ⟨rfl, rfl⟩ | ⟨rfl, rfl⟩ <;> simp [fmtFloat]

/-- The integer types by code (R87). -/
theorem fmtFloat_integer : ∀ c ∈ [6, 7, 8, 9, 10, 11, 12, 13], fmtFloat c = none ∧ fmtSigned c = (c % 2 == 0) ∧ 6 ≤ c := by
  decide

/-- R53: the narrow destinations. -/
theorem toFmt_narrow {dst : Nat} {g : FFmt} (h : (dst, g) ∈ [(2, fp16), (3, bf16), (4, e5m2), (5, e4m3)]) (rm : RMode) (v : FVal) :
    (toFmt dst rm v).1 = (g.narrow v).1 := by
  simp only [List.mem_cons, Prod.mk.injEq, List.not_mem_nil, or_false] at h
  rcases h with ⟨rfl, rfl⟩ | ⟨rfl, rfl⟩ | ⟨rfl, rfl⟩ | ⟨rfl, rfl⟩ <;> rfl

theorem cvtElem_float {src : Nat} {f : FFmt} (hsrc : fmtFloat src = some f) (dst : Nat) (rm : RMode) (x : Nat) :
    cvtElem src dst rm x = toFmt dst rm (f.val x) := by
  simp only [cvtElem, hsrc]

theorem cvtElem_fromInteger {src dst : Nat} {g : FFmt} (hsrc : fmtFloat src = none) (hdst : fmtFloat dst = some g) (rm : RMode) (x : Nat) :
    cvtElem src dst rm x = toFmt dst rm (intVal (fmtInt src x)) := by
  simp only [cvtElem, hsrc, hdst]

/-- From a floating format to an integer type. -/
theorem cvtElem_toInteger {src dst : Nat} {f : FFmt} (hsrc : fmtFloat src = some f) (hdst : fmtFloat dst = none) (rm : RMode) (x : Nat) :
    (cvtElem src dst rm x).1 = (fvToIntSat (if dst = 6 then .rne else rm) (fmtSigned dst) (fmtWidth dst) (f.val x)).1 := by
  simp only [cvtElem_float hsrc, toFmt, hdst]

/-- Between integer types (R250). -/
theorem cvtElem_integers {src dst : Nat} (hsrc : fmtFloat src = none) (hdst : fmtFloat dst = none) (rm : RMode) (x : Nat) :
    (fmtWidth src < fmtWidth dst → (cvtElem src dst rm x).1 = wrap (fmtWidth dst) (fmtInt src x)) ∧
    (fmtWidth dst ≤ fmtWidth src → (cvtElem src dst rm x).1 = wrap (fmtWidth dst)
      (max (intLo (fmtSigned dst) (fmtWidth dst)) (min (intHi (fmtSigned dst) (fmtWidth dst)) (fmtInt src x)))) := by
  simp only [cvtElem, hsrc, hdst, clampInt_eq (intLo_le_intHi _ _)]
  exact ⟨fun h => by rw [if_pos h]; rfl, fun h => by rw [if_neg (by omega)]⟩

/-- R53, R54, R250: one conversion, of a floating number or an integer. -/
theorem cvtElem_converts (rm : RMode) (src dst x : Nat) (v : FVal) (f : FFmt) (i : Int)
    (h : ((src, f) ∈ [(0, fp64), (1, fp32), (2, fp16), (3, bf16), (4, e5m2), (5, e4m3)] ∧ v = f.val x) ∨
      (src ∈ [6, 7, 8, 9, 10, 11, 12, 13] ∧ i = (if src % 2 = 0 then signed (fmtWidth src) x else x) ∧
        v = if i = 0 then .zero false else .fin (decide (i < 0)) i.natAbs 0)) :
    (dst = 0 → (cvtElem src dst rm x).1 = fp64.rnd rm v) ∧ (dst = 1 → (cvtElem src dst rm x).1 = fp32.rnd rm v) ∧
    (∀ g, (dst, g) ∈ [(2, fp16), (3, bf16), (4, e5m2), (5, e4m3)] → (cvtElem src dst rm x).1 = (g.narrow v).1) ∧
    (dst ∈ [6, 7, 8, 9, 10, 11, 12, 13] →
      (src < 6 → (cvtElem src dst rm x).1 = (fvToIntSat (if dst = 6 then .rne else rm) (dst % 2 == 0) (fmtWidth dst) v).1) ∧
      (6 ≤ src → fmtWidth src < fmtWidth dst → (cvtElem src dst rm x).1 = wrap (fmtWidth dst) i) ∧
      (6 ≤ src → fmtWidth dst ≤ fmtWidth src → (cvtElem src dst rm x).1 =
        wrap (fmtWidth dst) (max (intLo (dst % 2 == 0) (fmtWidth dst)) (min (intHi (dst % 2 == 0) (fmtWidth dst)) i)))) := by
  have hint (hs : src ∈ [6, 7, 8, 9, 10, 11, 12, 13]) (hi : i = if src % 2 = 0 then signed (fmtWidth src) x else (x : Int)) : fmtInt src x = i := by
    simp [hi, fmtInt, (fmtFloat_integer src hs).2.1]
  have hfloat {g : FFmt} (hdst : fmtFloat dst = some g) : cvtElem src dst rm x = toFmt dst rm v := by
    rcases h with ⟨hs, rfl⟩ | ⟨hs, hi, rfl⟩
    · exact cvtElem_float (fmtFloat_eq hs).1 dst rm x
    · rw [cvtElem_fromInteger (fmtFloat_integer src hs).1 hdst, hint hs hi]
      rfl
  refine ⟨fun hd => ?_, fun hd => ?_, fun g hg => ?_, fun hd => ?_⟩
  · subst hd
    rw [hfloat rfl]
    rfl
  · subst hd
    rw [hfloat rfl]
    rfl
  · rw [hfloat (fmtFloat_eq (List.mem_cons_of_mem _ (List.mem_cons_of_mem _ hg))).1, toFmt_narrow hg]
  · obtain ⟨hd1, hd2, -⟩ := fmtFloat_integer dst hd
    rw [← hd2]
    rcases h with ⟨hs, rfl⟩ | ⟨hs, hi, -⟩
    · obtain ⟨hs1, hs2⟩ := fmtFloat_eq hs
      exact ⟨fun _ => cvtElem_toInteger hs1 hd1 rm x, fun h6 => by omega, fun h6 => by omega⟩
    · obtain ⟨hs1, hs2, hs3⟩ := fmtFloat_integer src hs
      obtain ⟨h1, h2⟩ := cvtElem_integers hs1 hd1 rm x
      rw [hint hs hi] at h1 h2
      exact ⟨fun h6 => by omega, fun _ => h1, fun _ => h2⟩

/-! ## Packed formats -/

/-- R57, R58: a pair of nibbles. -/
theorem decodePair_eq : ∀ lo < 16, ∀ hi < 16, decodePair lo hi =
    if lo = 8 then ((if 8 ≤ hi then -1 else 1) * [8, 12, 16, 24, 32, 48, 64, 96].getD (hi % 8) 0, 0, false)
    else ((if lo < 8 then (lo : Int) else lo - 16), (if hi < 8 then (hi : Int) else if hi = 8 then 0 else hi - 16), decide (hi = 8)) := by
  decide

/-- R61: a digit of a byte. -/
theorem signed_t5Elem (b d : Nat) : signed 8 (t5Elem b d) = if b < 243 then ((b / 3 ^ d % 3 : Nat) : Int) - 1 else 0 := by
  have hdigit : ∀ t : Nat, t < 3 → signed 8 (wrap 8 ((t : Int) - 1)) = t - 1 := by decide
  unfold t5Elem
  split
  · next h => rw [if_neg (by omega)]; rfl
  · next h => rw [if_pos (by omega), hdigit _ (Nat.mod_lt _ (by omega))]

/-! ## The summing tree -/

theorem pairUp_append (l r : List FVal) {n : Nat} (hl : l.length = 2 * n) : (pairUp (l ++ r)).1 = (pairUp l).1 ++ (pairUp r).1 := by
  induction n generalizing l with
  | zero => simp [List.length_eq_zero_iff.1 hl, pairUp]
  | succ n ih =>
    match l with
    | a :: b :: l => simp [pairUp, ih l (by simp at hl; omega)]

theorem length_pairUp (l : List FVal) {n : Nat} (hl : l.length = 2 * n) : (pairUp l).1.length = n := by
  induction n generalizing l with
  | zero => simp [List.length_eq_zero_iff.1 hl, pairUp]
  | succ n ih =>
    match l with
    | a :: b :: l => simp [pairUp, ih l (by simp at hl; omega)]

/-- R64: the sum of two halves is the sum of their sums. -/
theorem treeSum_append (n : Nat) (l r : List FVal) (hl : l.length = 2 ^ n) (hr : r.length = 2 ^ n) :
    (treeSum (n + 1) (l ++ r)).1 = add32 (treeSum n l).1 (treeSum n r).1 := by
  induction n generalizing l r with
  | zero =>
    obtain ⟨a, rfl⟩ := List.length_eq_one_iff.1 hl
    obtain ⟨b, rfl⟩ := List.length_eq_one_iff.1 hr
    rfl
  | succ n ih =>
    rw [Nat.pow_succ'] at hl hr
    have h := ih (pairUp l).1 (pairUp r).1 (length_pairUp l hl) (length_pairUp r hr)
    rw [← pairUp_append l r hl] at h
    exact h

theorem treeSum_halves (n : Nat) (l : List FVal) (hl : l.length = 2 ^ (n + 1)) : (treeSum (n + 1) l).1 =
    fp32.val (fp32.rnd .rne (fvAdd .rne (treeSum n (l.take (2 ^ n))).1 (treeSum n (l.drop (2 ^ n))).1)) := by
  have h := treeSum_append n (l.take (2 ^ n)) (l.drop (2 ^ n)) (by simp [hl, Nat.pow_succ]) (by simp [hl, Nat.pow_succ]; omega)
  rwa [List.take_append_drop] at h

/-! ## The number formats -/

/-- Settles O39: a format by its grid of patterns, on which `roundMag` rounds what a magnitude stands for. -/
theorem numberFormatsRound : Obligations.NumberFormatsRound := by
  unfold Obligations.NumberFormatsRound
  refine ⟨fun f top hf => ⟨fun p hp => hf.val_grid hp, fun p hp hp' => ?_, hf.val_nan, fun rm neg m e hm => hf.rnd_rounds rm neg hm e,
      fun rm neg m e c hm hc => hf.rcp_rounds rm neg hm hc, fun rm m e c hm hc => hf.rsq_rounds rm hm hc, fun hne rm => ?_,
      fun rm neg => hf.rnd_special rm neg, fun neg m e hm => hf.narrow_rounds neg hm e, fun neg => hf.narrow_special neg, ?_⟩,
    fun rm s u m n e g v w c _ _ hc hv hw => fvAdd_fvMul_fvLt_fin rm s u m n hc hv hw,
    fun s m e => ⟨rfl, rfl, rfl, rfl, rfl, rfl, rfl, fun _ => rfl⟩, cvtElem_converts, fvAdd_fvMul_special,
    fun rm sg w neg m e _ => fvToIntSat_fin rm sg w neg m e, fun lo hi hlo hhi => decodePair_eq lo hlo hi hhi, fun b d _ => signed_t5Elem b d,
    treeSum_halves, fun x => rfl⟩
  · have hpos := hf.val_past false hp hp'
    have hneg := hf.val_past true hp hp'
    simp only [FFmt.withSign, if_true, Bool.false_eq_true, if_false] at hpos hneg
    rw [hpos, hneg]
    exact ⟨fun h1 h2 => by simp [h1, h2], fun h => by rw [if_neg (by tauto), if_neg (by tauto)]; exact ⟨rfl, rfl⟩⟩
  · obtain ⟨h1, h2, h3, h4, h5, h6, h7, h8, h9⟩ := hf.exp2_log2_special hne rm
    exact ⟨h1, h2, h3, h4, h5, h6, h7, h8, h9, fun s m e n hm hn h => exp2_integer rm s hm hn h,
      fun s m e n he hn hlo hhi => hf.exp2_between rm s he hn hlo hhi,
      fun j e n hn => ⟨hf.log2_power rm j hn, fun m hlo hhi => hf.log2_between rm hn hlo hhi⟩⟩
  · rintro a b x y rfl rfl
    obtain ⟨h1, h2, h3⟩ := fmin_fmax_of_nan (f := f) (a := a) (b := b)
    exact ⟨h1, h2, h3, fmin_fmax_of_lt, fmin_fmax_of_gt, fmin_fmax_of_zeros, fmin_fmax_of_zeros⟩

end Sys2Proof.Machine
end

section
/-! SUPPORT. Bytes of the SRF: what a byte reads as after writes of bytes (R73, R77), and byte strings by their places. -/

namespace Sys2Proof.Machine

/-! ## Byte strings -/

/-- Byte i of the n low bytes of a number. -/
theorem getD_leBytes (n v i : Nat) (h : i < n) : (leBytes n v).getD i 0 = BitVec.ofNat 8 (v / 2 ^ (8 * i)) := by
  induction n generalizing v i with
  | zero => omega
  | succ n ih =>
    cases i with
    | zero => simp [leBytes]
    | succ i =>
      rw [leBytes, List.getD_cons_succ, ih _ _ (by omega), Nat.div_div_eq_div_mul, show 8 * (i + 1) = 8 + 8 * i by ring, Nat.pow_add]

theorem srfBytes_eq (m : Tbl Line) (o n : Nat) : srfBytes m o n = (List.range n).map (fun i => srfByte m (o + i)) := by
  simp [srfBytes, addrs, Function.comp_def]

@[simp] theorem length_srfBytes (m : Tbl Line) (o n : Nat) : (srfBytes m o n).length = n := by simp [srfBytes_eq]

theorem getD_srfBytes (m : Tbl Line) (o n i : Nat) (h : i < n) : (srfBytes m o n).getD i 0 = srfByte m (o + i) := by
  simp [srfBytes_eq, List.getD_eq_getElem?_getD, h]

/-! ## Reading after writing -/

theorem getLsbD_byteMask {n : Nat} (h : n < 1024) : (0xFF#1024).getLsbD n = decide (n < 8) := by
  rw [BitVec.getLsbD_ofNat, decide_eq_true h, Bool.true_and]
  exact Nat.testBit_two_pow_sub_one 8 n

/-- A byte of a line after one of its bytes was replaced. -/
theorem extractLsb'_putByte (l : Line) (b : Byte) {i j : Nat} (hi : i < 128) :
    ((l &&& ~~~((0xFF#1024) <<< (8 * j))) ||| (b.setWidth 1024 <<< (8 * j))).extractLsb' (8 * i) 8 =
      if i = j then b else l.extractLsb' (8 * i) 8 := by
  refine BitVec.eq_of_getLsbD_eq fun n hn => ?_
  have hlt : 8 * i + n < 1024 := by omega
  have hmask := getLsbD_byteMask (n := 8 * i + n - 8 * j) (by omega)
  simp only [BitVec.getLsbD_extractLsb', BitVec.getLsbD_or, BitVec.getLsbD_and, BitVec.getLsbD_not, BitVec.getLsbD_shiftLeft,
    BitVec.getLsbD_setWidth, hmask, hn, hlt, decide_true, Bool.true_and]
  rcases Nat.lt_trichotomy i j with h | rfl | h
  · simp [h.ne, hn, show 8 * i + n < 8 * j by omega]
  · simp [hn]; omega
  · have hb : b.getLsbD (8 * i + n - 8 * j) = false := BitVec.getLsbD_of_ge _ _ (by omega)
    simp [h.ne', hn, hb, show ¬8 * i + n < 8 * j by omega, show ¬8 * i + n - 8 * j < 8 by omega]

theorem srfByte_srfPut (m : Tbl Line) (o a : Nat) (b : Byte) : srfByte (srfPut m o b) a = if a = o then b else srfByte m a := by
  simp only [srfByte, srfPut, tget_tset]
  by_cases hl : a / 128 = o / 128
  · rw [if_pos hl, extractLsb'_putByte _ _ (Nat.mod_lt a (by decide)), ← hl]
    exact if_congr (by omega) rfl rfl
  · rw [if_neg hl, if_neg (fun h => hl (by rw [h]))]

/-- A written byte string reads back at its place; every other byte is as before. -/
theorem srfByte_srfWrite (m : Tbl Line) (o a : Nat) (bs : List Byte) :
    srfByte (srfWrite m o bs) a = if o ≤ a ∧ a < o + bs.length then bs.getD (a - o) 0 else srfByte m a := by
  induction bs generalizing m o with
  | nil => rw [if_neg (by simp)]; rfl
  | cons b bs ih =>
    rw [srfWrite, ih, srfByte_srfPut, List.length_cons]
    by_cases h1 : a = o
    · subst h1; simp
    · by_cases h2 : o + 1 ≤ a ∧ a < o + 1 + bs.length
      · rw [if_pos h2, if_pos (by omega), show a - o = (a - (o + 1)) + 1 by omega, List.getD_cons_succ]
      · rw [if_neg h2, if_neg h1, if_neg (by omega)]

theorem srfTakes_srfWrite (m : Tbl Line) (o n : Nat) (bs : List Byte) (f : Nat → Byte) (hn : bs.length = n)
    (hf : ∀ i, i < n → bs.getD i 0 = f i) : SrfTakes m (srfWrite m o bs) o n f := by
  intro a
  rw [srfByte_srfWrite, hn]
  split
  · exact hf _ (by omega)
  · rfl

/-- The copy of a byte string. -/
theorem srfTakes_copy (m : Tbl Line) (src dst n : Nat) :
    SrfTakes m (srfWrite m dst (srfBytes m src n)) dst n (fun i => srfByte m (src + i)) :=
  srfTakes_srfWrite _ _ _ _ _ (length_srfBytes ..) (fun i hi => getD_srfBytes m src n i hi)

end Sys2Proof.Machine
end

section
/-! LDF and STF (O13). -/

namespace Sys2Proof.Machine

/-! ## Executing LDF and STF -/

section

variable {s : State} {k : Nat} {t : Task}

/-- R77: an access is within the footprint and outside every ring. -/
theorem srfOk_of {o : Word} {n : Nat} (h1 : o.toNat + n ≤ t.foot * 2 ^ 18) (h2 : t.inRing (o.toNat, n) = false) : t.srfOk o n = true := by
  rw [Task.srfOk, h2, Bool.not_false, Bool.and_true]
  exact decide_eq_true h1

theorem srfOk_eq_false {o : Word} {n : Nat} (h : t.foot * 2 ^ 18 < o.toNat + n ∨ t.inRing (o.toNat, n) = true) : t.srfOk o n = false := by
  rw [Task.srfOk, Bool.and_eq_false_iff, Bool.not_eq_false', decide_eq_false_iff_not, Nat.not_le]
  exact h

/-- The loaded value of R195, from the bytes of the SRF. -/
theorem extendLoad_srfNat (sz : Sz) (sx : Bool) (m : Tbl Line) (o : Nat) :
    extendLoad sz sx (srfNat m o (szBytes sz)) =
      if sx then (BitVec.ofNat (8 * szBytes sz) (leNat ((List.range (szBytes sz)).map (fun i => srfByte m (o + i))))).signExtend 64
      else BitVec.ofNat 64 (leNat ((List.range (szBytes sz)).map (fun i => srfByte m (o + i)))) := by
  rw [srfNat, srfBytes_eq]
  cases sx <;> rfl

theorem exec_ldf (hx : ScpExecutes s k t) {sz : Sz} {sx : Bool} {d a : Reg} {imm : BitVec 11} (hr : t.hart.ready [d, a] = true)
    (hb : t.srfBusy ((t.hart.ea a imm).toNat, szBytes sz) false = false) (hok : t.srfOk (t.hart.ea a imm) (szBytes sz) = true) :
    exec (.ldf sz sx d a imm) s = .next (s.putHart (.scp k)
      ((t.hart.setX d (extendLoad sz sx (srfNat t.srf (t.hart.ea a imm).toNat (szBytes sz)))).advance 4)) := by
  show execLdf sz sx d a imm s = _
  rw [execLdf, onScp_of hx]
  simp [hr, hok, hb]

theorem exec_ldf_bounds (hx : ScpExecutes s k t) {sz : Sz} {sx : Bool} {d a : Reg} {imm : BitVec 11} (hr : t.hart.ready [d, a] = true)
    (hok : t.srfOk (t.hart.ea a imm) (szBytes sz) = false) :
    exec (.ldf sz sx d a imm) s = .next (s.scpFault k (plainFault cBOUNDS)) := by
  show execLdf sz sx d a imm s = _
  rw [execLdf, onScp_of hx]
  simp [hr, hok]

theorem exec_stf (hx : ScpExecutes s k t) {sz : Sz} {r a : Reg} {imm : BitVec 12} (hr : t.hart.ready [r, a] = true)
    (hb : t.srfBusy ((t.hart.ea a imm).toNat, szBytes sz) true = false) (hok : t.srfOk (t.hart.ea a imm) (szBytes sz) = true) :
    exec (.stf sz r a imm) s = .next (s.putTask k
      { t with srf := srfWrite t.srf (t.hart.ea a imm).toNat (leBytes (szBytes sz) (t.hart.x r).toNat), hart := t.hart.advance 4 }) := by
  show execStf sz r a imm s = _
  rw [execStf, onScp_of hx]
  simp [hr, hok, hb]

theorem exec_stf_bounds (hx : ScpExecutes s k t) {sz : Sz} {r a : Reg} {imm : BitVec 12} (hr : t.hart.ready [r, a] = true)
    (hok : t.srfOk (t.hart.ea a imm) (szBytes sz) = false) :
    exec (.stf sz r a imm) s = .next (s.scpFault k (plainFault cBOUNDS)) := by
  show execStf sz r a imm s = _
  rw [execStf, onScp_of hx]
  simp [hr, hok]

end

/-- Settles O13: an access in range is a register result or a write of bytes; one out of range is a precise fault. -/
theorem scalarSrfAccesses : Obligations.ScalarSrfAccesses := by
  unfold Obligations.ScalarSrfAccesses
  constructor
  · rintro s k t sz sx d a imm ea hx hr rfl
    refine ⟨fun h1 h2 hb => ?_, fun h he => ?_⟩
    · exact results_of hx.executes (exec_ldf hx hr hb (srfOk_of h1 h2)) (extendLoad_srfNat sz sx t.srf _)
    · exact faults_of hx.2.1 he (by decide) (exec_ldf_bounds hx hr (srfOk_eq_false h))
  · rintro s k t sz r a imm ea hx hr rfl
    refine ⟨fun h1 h2 hb => ?_, fun h he => ?_⟩
    · refine ⟨_, ⟨_, exec_stf hx hr hb (srfOk_of h1 h2), onlyTask_putTask ..⟩, rfl, ?_⟩
      exact srfTakes_srfWrite _ _ _ _ _ (length_leBytes ..) (fun i hi => getD_leBytes _ _ i hi)
    · exact faults_of hx.2.1 he (by decide) (exec_stf_bounds hx hr (srfOk_eq_false h))

end Sys2Proof.Machine
end

section
/-! SUPPORT. What a queued instruction of a task without errors reads, how it completes, and what one slot does to a ring: the rows of the
stream engine in the words of the statements (R22, R81, R210, R323). -/

namespace Sys2Proof.Machine

variable {s : State} {k tag : Nat} {t : Task} {q : QInstr}

/-! ## Reading the task's own state (R323) -/

theorem meets_of_clean (h : t.clean) (n : OwnReads) (lvl : Nat) : n.meets t lvl = ([], [], [], []) := by
  obtain ⟨hx, hs, hd, hr⟩ := h
  simp [OwnReads.meets, hx, hs, hd, hr]

theorem bad_of_clean (h : t.clean) (n : OwnReads) : n.bad t = false := by simp [OwnReads.bad, meets_of_clean h]

theorem correct_of_clean (h : t.clean) (n : OwnReads) : n.correct t = (0, t) := by
  rw [OwnReads.correct, meets_of_clean h]
  rfl

/-- Where no check code has an error, reading changes nothing. -/
theorem reading_of_clean (h : t.clean) (n : OwnReads) (f : State → Task → Out) : s.reading k t q n f = f s t := by
  simp [State.reading, State.correctOwn, bad_of_clean h, correct_of_clean h]

theorem heal_of_clean (h : t.clean) (m : Tbl Line) (o n : Nat) : ({ t with srf := m }).heal o n = { t with srf := m } := by
  obtain ⟨-, hs, -, -⟩ := h
  simp [Task.heal, hs]

/-! ## The rows of a running instruction -/

theorem queued?_tag (h : t.queued? tag = some q) : q.tag = tag := by simpa using List.find?_some h

theorem queued?_putQ (h : t.queued? tag = some q) (q' : QInstr) (hq : q'.tag = tag) : (t.putQ q').queued? tag = some q' := by
  unfold Task.queued? at h ⊢
  rw [Task.putQ_sq]
  generalize t.sq = l at h
  induction l with
  | nil => simp at h
  | cons x l ih =>
    rw [List.find?_cons] at h
    rw [List.map_cons, List.find?_cons]
    by_cases hx : x.tag = tag
    · simp [hx, hq]
    · rw [decide_eq_false hx] at h
      simpa [hx, hq] using ih h

theorem exec_streamComplete_tdset (h : StreamAt s k tag t q) {d : Reg} {td : BitVec 6} {line : BitVec 15} (hi : q.ins = .tdset d td line) :
    exec (.streamComplete k tag) s = s.completeDesc k t q := by
  obtain ⟨ht, hon, hc, hq, hf, hr⟩ := h
  show execStreamComplete k tag s = _
  simp [execStreamComplete, ht, hq, hf, hr, hon, reading_of_clean hc, hi]

theorem exec_streamComplete_tdmov (h : StreamAt s k tag t q) {d a : Reg} {td : BitVec 6} {f : BitVec 5} (hi : q.ins = .tdmov d td f a) :
    exec (.streamComplete k tag) s = s.completeDesc k t q := by
  obtain ⟨ht, hon, hc, hq, hf, hr⟩ := h
  show execStreamComplete k tag s = _
  simp [execStreamComplete, ht, hq, hf, hr, hon, reading_of_clean hc, hi]

theorem exec_streamComplete_ringi (h : StreamAt s k tag t q) {d a : Reg} {n : BitVec 4} {ns s1 : BitVec 9} (hi : q.ins = .ringi d n a ns s1) :
    exec (.streamComplete k tag) s = s.completeRingi k t q := by
  obtain ⟨ht, hon, hc, hq, hf, hr⟩ := h
  show execStreamComplete k tag s = _
  simp [execStreamComplete, ht, hq, hf, hr, hon, reading_of_clean hc, hi]

theorem exec_streamComplete_scpy (h : StreamAt s k tag t q) {d a : Reg} {e dr rga rgb : Bool} {la lb : BitVec 15}
    (hi : q.ins = .scpy d e dr la lb rga rgb a) : exec (.streamComplete k tag) s = s.completeScpy k t q := by
  obtain ⟨ht, hon, hc, hq, hf, hr⟩ := h
  show execStreamComplete k tag s = _
  simp [execStreamComplete, ht, hq, hf, hr, hon, reading_of_clean hc, hi]

theorem exec_ringWaitSatisfied_scpy (ht : s.task? k = some t) (hon : t.onChip = true) (hc : t.clean) (hq : t.queued? tag = some q)
    (hr : q.running = true) {d a : Reg} {e dr rga rgb : Bool} {la lb : BitVec 15} (hi : q.ins = .scpy d e dr la lb rga rgb a) :
    exec (.ringWaitSatisfied k tag) s = s.scpySlot k t q := by
  show execRingWaitSatisfied k tag s = _
  simp [execRingWaitSatisfied, ht, hq, hr, hon, reading_of_clean hc, hi]

/-! ## Completion (R22, R210) -/

theorem wordBits_ended (tag code count : Nat) : wordBits (StatusFields.ended tag code count).word 7 0 = code % 256 ∧
    wordBits (StatusFields.ended tag code count).word 22 21 = 3 ∧
    wordBits (StatusFields.ended tag code count).word 63 45 = min count 524287 := by
  simp only [StatusFields.ended, StatusFields.word, wordBits, b2n, Flags.clear, BitVec.toNat_ofNat]
  simp
  omega

theorem mem_dropStreamLoad (tag : Nat) (l : List LoadEntry) (e : LoadEntry) : e ∈ dropStreamLoad tag l ↔ e ∈ l ∧ e.kind ≠ .stream tag := by
  rw [dropStreamLoad, List.mem_filter]
  cases h : e.kind <;> simp

theorem mem_dropStreamStore (tag : Nat) (l : List StoreEntry) (e : StoreEntry) : e ∈ dropStreamStore tag l ↔ e ∈ l ∧ e.kind ≠ .stream tag := by
  rw [dropStreamStore, List.mem_filter]
  cases h : e.kind <;> simp

/-- A queued instruction without the descriptors that it is still to see (R278). -/
def QInstr.bare (q : QInstr) : QInstr := { q with descs := [] }

/-- Task t1 is task t with the effect of a stream instruction in it: of what an effect may name. -/
def EffectOn (t t1 : Task) : Prop :=
  t1.sq.map QInstr.bare = t.sq.map QInstr.bare ∧
  { t1 with sq := t.sq, srf := t.srf, rings := t.rings, descs := t.descs, dregs := t.dregs, stoeks := t.stoeks } = t

theorem effectOn_refl (t : Task) : EffectOn t t := ⟨rfl, rfl⟩

theorem streamCompleted_completeQ {t1 : Task} (h : EffectOn t t1) (tag code count : Nat) (dpc dva : Word) (dvav : Bool) :
    StreamCompleted t (t1.completeQ tag (StatusFields.ended tag code count) dpc dva dvav) tag code count := by
  obtain ⟨hsq, hrest⟩ := h
  have hh : t1.hart = t.hart := (congrArg Task.hart hrest :)
  have htags : t1.tags = t.tags := (congrArg Task.tags hrest :)
  have hnext : t1.nextTag = t.nextTag := (congrArg Task.nextTag hrest :)
  have hfilter : ∀ l : List QInstr, (l.filter (fun x => x.tag ≠ tag)).map QInstr.bare = (l.map QInstr.bare).filter (fun x => x.tag ≠ tag) :=
    fun l => by rw [List.filter_map]; rfl
  refine ⟨?_, fun e => ?_, fun e => ?_, ?_, ?_, ?_, fun hn => ?_, fun n hn => ?_, ?_⟩
  · exact (hfilter t1.sq).trans ((congrArg _ hsq).trans (hfilter t.sq).symm)
  · rw [← hh]; exact mem_dropStreamLoad ..
  · rw [← hh]; exact mem_dropStreamStore ..
  · exact (congrArg Hart.xs hh :)
  · exact (congrArg Hart.pc hh :)
  · exact (congrArg Hart.po hh :)
  · have htag : (t1.completeQ tag (StatusFields.ended tag code count) dpc dva dvav).tag (tag % 64) =
        { status := (StatusFields.ended tag code count).word, dpc := dpc, dva := dva, dvav := dvav } := by
      simp [Task.tag, Task.completeQ, hnext, hn]
    rw [htag]
    exact wordBits_ended tag code count
  · simp only [Task.tag, Task.completeQ, htags]
    split
    · exact tget_tset_other _ _ _ hn
    · rfl
  · exact congrArg (fun x : Task => { x with tags := t.tags, hart := t.hart }) hrest

/-- The instruction completes with code 0, its effect in task t1. -/
theorem completes_of_finishQ {i : Instr} {t1 : Task} {count : Nat} (hq : t.queued? tag = some q) (hi : exec i s = s.finishQ k t1 q count)
    (h : EffectOn t t1) : ∃ u, Becomes i s k u ∧ StreamCompleted t u tag 0 count ∧ u.srf = t1.srf ∧ u.rings = t1.rings ∧
      u.descs = t1.descs ∧ u.dregs = t1.dregs ∧ u.stoeks = t1.stoeks ∧ u.sq = t1.sq.filter (fun x => x.tag ≠ tag) := by
  obtain rfl := queued?_tag hq
  exact ⟨_, ⟨_, hi, onlyTask_putTask ..⟩, streamCompleted_completeQ h .., rfl, rfl, rfl, rfl, rfl, rfl⟩

/-! ## Rings (R81) -/

theorem ring_setRing (t : Task) (n j : Nat) (r : Ring) : (t.setRing n r).ring j = if j = n then r else t.ring j :=
  tget_tset Ring.none t.rings n j r

theorem getLsbD_setEos (e : BitVec 256) (j i : Nat) (v : Bool) (h : i < 256) : (setEos e j v).getLsbD i = if i = j then v else e.getLsbD i := by
  have hone : (1#256 <<< j).getLsbD i = decide (i = j) := by
    rw [BitVec.getLsbD_shiftLeft, decide_eq_true h, BitVec.getLsbD_one]
    by_cases hij : i = j
    · simp [hij]
    · by_cases hlt : i < j
      · simp [hij, hlt]
      · simp [hij, hlt]; omega
  cases v
  · rw [show setEos e j false = e &&& ~~~(1#256 <<< j) from rfl, BitVec.getLsbD_and, BitVec.getLsbD_not, hone]
    by_cases hij : i = j <;> simp [hij, h]
  · rw [show setEos e j true = e ||| (1#256 <<< j) from rfl, BitVec.getLsbD_or, hone]
    by_cases hij : i = j <;> simp [hij]

theorem ringPublishes_publish (r : Ring) (e : Bool) : RingPublishes r (r.publish 1 e) e :=
  ⟨rfl, rfl, rfl, fun i hi => getLsbD_setEos r.eos _ i e hi, rfl⟩

theorem ringReleases_release (r : Ring) : RingReleases r (r.release 1) := by
  refine ⟨rfl, rfl, rfl, fun i hi => ?_, rfl⟩
  rw [show (r.release 1).eos = setEos r.eos (r.head % r.nslot) false from rfl, getLsbD_setEos _ _ _ _ hi]
  by_cases h : i = r.head % r.nslot <;> simp [h]

end Sys2Proof.Machine
end

section
/-! SUPPORT. What TDSET and TDMOV leave of a descriptor (R88, R211, R212), and which descriptors an older STKRUN is to see (R278). -/

namespace Sys2Proof.Machine

variable {t : Task} {q : QInstr}

/-! ## The fields of a descriptor (R212, R213) -/

/-- The fields of the image lie apart within its 512 bits, none wider than a word. -/
theorem tdField_apart : ∀ f, f < 22 → (tdField f).all (fun p => decide (0 < p.2.1 ∧ p.2.1 ≤ 64 ∧ p.1 + p.2.1 ≤ 512)) = true ∧
    ∀ g, g < 22 → f ≠ g → (tdField f).all (fun p => (tdField g).all (fun r => decide (p.1 + p.2.1 ≤ r.1 ∨ r.1 + r.2.1 ≤ p.1))) = true := by
  decide

theorem tdField_lt {f lo w : Nat} {sg : Bool} (h : tdField f = some (lo, w, sg)) : f < 22 := by
  by_contra hf
  simp [tdField, show ¬f = 0 by omega, show ¬f = 1 by omega, show ¬f = 2 by omega, show ¬f = 3 by omega, show ¬f = 4 by omega,
    show ¬f = 5 by omega, show ¬f = 6 by omega, show ¬f = 7 by omega, show ¬f ≤ 14 by omega, show ¬f ≤ 21 by omega] at h

theorem tdField_bounds {f lo w : Nat} {sg : Bool} (h : tdField f = some (lo, w, sg)) : 0 < w ∧ w ≤ 64 ∧ lo + w ≤ 512 := by
  simpa [h] using (tdField_apart f (tdField_lt h)).1

theorem tdField_disjoint {f g lo w lo' w' : Nat} {sg sg' : Bool} (h : tdField f = some (lo, w, sg)) (h' : tdField g = some (lo', w', sg'))
    (hne : g ≠ f) : lo' + w' ≤ lo ∨ lo + w ≤ lo' := by
  simpa [h, h'] using (tdField_apart g (tdField_lt h')).2 f (tdField_lt h) hne

theorem tdField_none {f : Nat} (h : tdField f = none) : 22 ≤ f := by
  by_contra hf
  have hs : ∀ f, f < 22 → (tdField f).isSome = true := by decide
  simpa [h] using hs f (by omega)

theorem field_of_tdField {d : Desc} {f lo w : Nat} {sg : Bool} (hv : d.valid = true) (h : tdField f = some (lo, w, sg)) :
    d.field f = if sg then BitVec.ofInt 64 (signed w (bits d.im (lo + w - 1) lo)) else BitVec.ofNat 64 (bits d.im (lo + w - 1) lo) := by
  have := tdField_lt h
  simp [Desc.field, hv, h, show f ≠ 29 by omega]

theorem field_org {d : Desc} {f : Nat} (hv : d.valid = true) (h1 : 22 ≤ f) (h2 : f ≤ 28) : d.field f = BitVec.ofInt 64 (d.org (f - 22)) := by
  have hn : tdField f = none := by
    cases hf : tdField f with
    | none => rfl
    | some p => obtain ⟨lo, w, sg⟩ := p; have := tdField_lt hf; omega
  simp [Desc.field, hv, hn, h1, h2, show f ≠ 29 by omega]

/-- Beyond the fields TDGET returns 0, at 29 VALID. -/
theorem field_congr {d d' : Desc} {f : Nat} (hv : d.valid = d'.valid) (h : 28 < f) : d.field f = d'.field f := by
  have hn : tdField f = none := by
    cases hf : tdField f with
    | none => rfl
    | some p => obtain ⟨lo, w, sg⟩ := p; have := tdField_lt hf; omega
  simp [Desc.field, hv, hn, show ¬f ≤ 28 by omega]

/-- A signed value that fits in a field is what its low bits stand for (R212). -/
theorem toInt_setWidth_of_fieldFits {w : Nat} {v : Word} (h0 : 0 < w) (hw : w ≤ 64) (h : fieldFits w true v = true) :
    (v.setWidth w).toInt = v.toInt := by
  simp only [fieldFits, if_true, Bool.and_eq_true, decide_eq_true_eq] at h
  obtain ⟨n, rfl⟩ : ∃ n, w = n + 1 := ⟨w - 1, by omega⟩
  rw [← BitVec.signExtend_eq_setWidth_of_le v hw, BitVec.toInt_signExtend, Nat.min_eq_left hw]
  simp only [Nat.add_sub_cancel] at h
  have hp : (2 ^ (n + 1) : Nat) = 2 * 2 ^ n := by ring
  obtain ⟨h1, h2⟩ := h
  rw [hp]
  generalize hP : (2 : Nat) ^ n = P at *
  have : ((2 : Int) ^ n) = (P : Int) := by rw [← hP]; simp
  rw [this] at h1 h2
  exact Int.bmod_eq_of_le (by omega) (by omega)

/-- The value of a field that has been given its value. -/
theorem value_of_fieldFits {w : Nat} {sg : Bool} {v : Word} (h0 : 0 < w) (hw : w ≤ 64) (h : fieldFits w sg v = true) :
    (if sg then BitVec.ofInt 64 (signed w (v.toNat % 2 ^ w)) else BitVec.ofNat 64 (v.toNat % 2 ^ w)) = v := by
  cases sg with
  | true =>
    have hs : signed w (v.toNat % 2 ^ w) = (v.setWidth w).toInt := by
      rw [signed, show BitVec.ofNat w (v.toNat % 2 ^ w) = v.setWidth w from BitVec.eq_of_toNat_eq (by simp)]
    rw [if_pos rfl, hs, toInt_setWidth_of_fieldFits h0 hw h, BitVec.ofInt_toInt]
  | false =>
    simp only [fieldFits, Bool.false_eq_true, if_false, decide_eq_true_eq] at h
    rw [if_neg (by decide), Nat.mod_eq_of_lt h, BitVec.ofNat_toNat, BitVec.setWidth_eq]

/-! ## TDMOV (R212) -/

/-- Of a valid descriptor one field holds a value, every other what it held. -/
def FieldGiven (d d' : Desc) (f : Nat) (v : Word) : Prop :=
  d.valid = true ∧ d'.valid = true ∧ d'.field f = v ∧ ∀ g, g ≠ f → d'.field g = d.field g

theorem toNat_ofNat_setBits {n : Nat} (b : BitVec n) {hi lo : Nat} (x : Nat) (h : lo ≤ hi) (hn : hi < n) :
    (BitVec.ofNat n (setBits b.toNat hi lo x)).toNat = setBits b.toNat hi lo x := by
  rw [BitVec.toNat_ofNat, Nat.mod_eq_of_lt (setBits_lt _ _ _ _ n h hn b.isLt)]

theorem fieldGiven_image {d : Desc} {f lo w : Nat} {sg : Bool} {v : Word} (hd : d.valid = true) (h : tdField f = some (lo, w, sg))
    (hfit : fieldFits w sg v = true) : FieldGiven d { d with image := BitVec.ofNat 512 (setBits d.im (lo + w - 1) lo v.toNat) } f v := by
  obtain ⟨h0, h64, h512⟩ := tdField_bounds h
  set d' : Desc := { d with image := BitVec.ofNat 512 (setBits d.im (lo + w - 1) lo v.toNat) } with hd'
  have hv' : d'.valid = true := hd
  have him : d'.im = setBits d.im (lo + w - 1) lo v.toNat := toNat_ofNat_setBits d.image _ (by omega) (by omega)
  refine ⟨hd, hv', ?_, fun g hg => ?_⟩
  · rw [field_of_tdField hv' h, him, bits_setBits_same _ _ _ _ (by omega), show lo + w - 1 + 1 - lo = w by omega]
    exact value_of_fieldFits h0 h64 hfit
  · cases hf : tdField g with
    | some p =>
      obtain ⟨lo', w', sg'⟩ := p
      obtain ⟨h0', -, -⟩ := tdField_bounds hf
      have := tdField_disjoint h hf hg
      rw [field_of_tdField hv' hf, field_of_tdField hd hf, him, bits_setBits_other _ _ _ _ _ _ (by omega) (by omega)]
    | none =>
      have hle := tdField_none hf
      by_cases h28 : g ≤ 28
      · rw [field_org hv' hle h28, field_org hd hle h28]; rfl
      · exact field_congr rfl (by omega)

theorem fieldGiven_org {d : Desc} {f : Nat} {v : Word} (hd : d.valid = true) (h1 : 22 ≤ f) (h2 : f ≤ 28) (hfit : fieldFits 32 true v = true) :
    FieldGiven d { d with orgs := tset 0 d.orgs (f - 22) (v.setWidth 32) } f v := by
  set d' : Desc := { d with orgs := tset 0 d.orgs (f - 22) (v.setWidth 32) } with hd'
  have hv' : d'.valid = true := hd
  have horg : ∀ j, d'.org j = if j = f - 22 then v.toInt else d.org j := by
    intro j
    rw [Desc.org, hd', tget_tset]
    split
    · exact toInt_setWidth_of_fieldFits (by decide) (by decide) hfit
    · rfl
  refine ⟨hd, hv', ?_, fun g hg => ?_⟩
  · rw [field_org hv' h1 h2, horg, if_pos rfl, BitVec.ofInt_toInt]
  · cases hf : tdField g with
    | some p =>
      obtain ⟨lo', w', sg'⟩ := p
      rw [field_of_tdField hv' hf, field_of_tdField hd hf]
      rfl
    | none =>
      have hle := tdField_none hf
      by_cases h28 : g ≤ 28
      · rw [field_org hv' hle h28, field_org hd hle h28, horg, if_neg (by omega)]
      · exact field_congr rfl (by omega)

/-- What TDMOV leaves where it raises no BOUNDS. -/
theorem newDesc_tdmov {d a : Reg} {td : BitVec 6} {f : BitVec 5} {n : Nat} {e : Desc} (hi : q.ins = .tdmov d td f a) (hf : f.toNat ≤ 28)
    (h : q.newDesc t = .ok (n, e)) : n = td.toNat ∧ FieldGiven (tget Desc.invalid t.descs td.toNat) e f.toNat (q.ops.getD 0 0) := by
  simp only [QInstr.newDesc, hi, tdOf, QInstr.newDescFrom] at h
  generalize tget Desc.invalid t.descs td.toNat = x at h ⊢
  split at h
  · cases h
  next hx =>
  have hv : x.valid = true := by simpa using hx
  cases htd : tdField f.toNat with
  | some p =>
    obtain ⟨lo, w, sg⟩ := p
    simp only [htd] at h
    split at h
    · cases h
    next hfit =>
    split at h
    · cases h
      exact ⟨rfl, fieldGiven_image hv htd (by rwa [Bool.not_eq_true', Bool.not_eq_false] at hfit)⟩
    · cases h
  | none =>
    simp only [htd] at h
    split at h
    · next hfit =>
      cases h
      exact ⟨rfl, fieldGiven_org hv (tdField_none htd) hf hfit⟩
    · cases h

/-! ## TDSET (R88, R211) -/

/-- What TDSET leaves where it raises no BOUNDS. -/
theorem newDesc_tdset {d : Reg} {td : BitVec 6} {line : BitVec 15} {n : Nat} {e : Desc} (hi : q.ins = .tdset d td line)
    (h : q.newDesc t = .ok (n, e)) : n = td.toNat ∧
      e = { image := BitVec.ofNat 512 (leNat ((List.range 64).map (fun i => srfByte t.srf (line.toNat * 128 + i)))), orgs := [],
            valid := true } := by
  simp only [QInstr.newDesc, hi, tdOf, QInstr.newDescFrom] at h
  split at h
  · cases h
  · split at h
    · cases h
      rw [srfNat, srfBytes_eq]
      exact ⟨rfl, rfl⟩
    · cases h

/-! ## What an older STKRUN sees (R278) -/

/-- What a list of entries put over a table leaves of an entry: the last one of its number. -/
theorem tget_foldl_tset {α : Type} [DecidableEq α] (d : α) (l : List (Nat × α)) (b : Tbl α) (m : Nat) :
    tget d (l.foldl (fun a e => tset d a e.1 e.2) b) m = (l.filter (fun e => e.1 = m)).foldl (fun _ e => e.2) (tget d b m) := by
  induction l generalizing b with
  | nil => rfl
  | cons e l ih =>
    rw [List.foldl_cons, ih, tget_tset]
    by_cases h : e.1 = m
    · simp [h]
    · simp [h, Ne.symm h]

theorem filter_tins {α : Type} (l : Tbl α) (i m : Nat) (x : α) (h : m ≠ i) :
    (tins l i x).filter (fun e => e.1 = m) = l.filter (fun e => e.1 = m) := by
  induction l with
  | nil => simp [tins, Ne.symm h]
  | cons e l ih =>
    obtain ⟨j, v⟩ := e
    by_cases hl : i < j
    · simp [tins, hl, Ne.symm h]
    · simp [tins, hl, List.filter_cons, ih]

theorem filter_tins_same {α : Type} (l : Tbl α) (i : Nat) (x : α) (h : l.filter (fun e => e.1 = i) = []) :
    (tins l i x).filter (fun e => e.1 = i) = [(i, x)] := by
  induction l with
  | nil => simp [tins]
  | cons e l ih =>
    obtain ⟨j, v⟩ := e
    rw [List.filter_cons] at h
    by_cases hj : j = i
    · simp [hj] at h
    · simp only [hj, decide_false, Bool.false_eq_true, if_false] at h
      by_cases hl : i < j
      · simp [tins, hl, hj, h]
      · simp [tins, hl, hj, ih h]

theorem tfind_eq_none_iff {α : Type} (l : Tbl α) (i : Nat) : tfind l i = none ↔ l.filter (fun e => e.1 = i) = [] := by
  induction l with
  | nil => simp [tfind]
  | cons e l ih =>
    obtain ⟨j, v⟩ := e
    by_cases hj : j = i <;> simp [tfind, hj, ih]

theorem tget_seenDescs (x : QInstr) (t : Task) (m : Nat) : tget Desc.invalid (x.seenDescs t) m =
    (x.descs.filter (fun e => e.1 = m)).foldl (fun _ e => e.2) (tget Desc.invalid t.descs m) :=
  tget_foldl_tset _ _ _ _

/-- An instruction that is still to see entry td as it stands. -/
def QInstr.keeping (x : QInstr) (t : Task) (td : Nat) : QInstr :=
  if (tfind x.descs td).isNone then { x with descs := tput x.descs td (tget Desc.invalid t.descs td) } else x

theorem bare_keeping (x : QInstr) (t : Task) (td : Nat) : (x.keeping t td).bare = x.bare := by unfold QInstr.keeping; split <;> rfl

/-- The entries of its own that a keeping instruction holds, of number m. -/
theorem filter_keeping (x : QInstr) (t : Task) (td m : Nat) : (x.keeping t td).descs.filter (fun e => e.1 = m) =
    if m = td ∧ tfind x.descs td = none then [(td, tget Desc.invalid t.descs td)] else x.descs.filter (fun e => e.1 = m) := by
  by_cases hn : tfind x.descs td = none
  · have hnil := (tfind_eq_none_iff x.descs td).1 hn
    have hdel : tdel x.descs td = x.descs := by
      rw [tdel_eq_filter, List.filter_eq_self]
      intro e he
      simpa using List.filter_eq_nil_iff.1 hnil e he
    have hk : (x.keeping t td).descs = tins x.descs td (tget Desc.invalid t.descs td) := by simp [QInstr.keeping, hn, tput, hdel]
    by_cases hm : m = td
    · subst hm
      rw [hk, filter_tins_same _ _ _ hnil, if_pos ⟨rfl, hn⟩]
    · rw [hk, filter_tins _ _ _ _ hm, if_neg (fun h => hm h.1)]
  · have hk : x.keeping t td = x := if_neg (fun h => hn (Option.isNone_iff_eq_none.1 h))
    rw [hk, if_neg (fun h => hn h.2)]

/-- It sees what it saw once that entry has changed. -/
theorem seenDescs_keeping (x : QInstr) {u : Task} {td : Nat} {d : Desc} (hu : u.descs = tset Desc.invalid t.descs td d) (m : Nat) :
    tget Desc.invalid ((x.keeping t td).seenDescs u) m = tget Desc.invalid (x.seenDescs t) m := by
  rw [tget_seenDescs, tget_seenDescs, hu, tget_tset, filter_keeping]
  by_cases hm : m = td
  · subst hm
    cases hl : x.descs.filter (fun e => e.1 = m) with
    | nil => rw [if_pos rfl, if_pos ⟨rfl, (tfind_eq_none_iff ..).2 hl⟩]; rfl
    | cons e l =>
      have hn : tfind x.descs m ≠ none := fun h => by simp [(tfind_eq_none_iff ..).1 h] at hl
      rw [if_pos rfl, if_neg (fun h => hn h.2)]
      rfl
  · rw [if_neg hm, if_neg (fun h => hm h.1)]

theorem keepDesc_sq (t : Task) (po td : Nat) : (t.keepDesc po td).sq =
    t.sq.map (fun x => if isStkrun x.ins = true ∧ x.running = false ∧ x.po < po then x.keeping t td else x) := by
  refine List.map_congr_left fun x _ => ?_
  by_cases h : isStkrun x.ins = true ∧ x.running = false ∧ x.po < po
  · rw [if_pos h, QInstr.keeping]
    simp [h]
  · rw [if_neg h, if_neg]
    simp only [Bool.and_eq_true, Bool.not_eq_true', decide_eq_true_eq]
    tauto

theorem stkrunsSeeTheSame_keepDesc {u : Task} {td : Nat} {d : Desc} (hu : u.descs = tset Desc.invalid t.descs td d)
    (hsq : u.sq = (t.keepDesc q.po td).sq.filter (fun x => x.tag ≠ q.tag)) : StkrunsSeeTheSame t u q := by
  intro x hx hk hr hpo htag
  have hb : (x.keeping t td).tag = x.tag := (congrArg QInstr.tag (bare_keeping x t td) :)
  refine ⟨x.keeping t td, ?_, hb, seenDescs_keeping x hu⟩
  rw [hsq, List.mem_filter, keepDesc_sq]
  exact ⟨List.mem_map.2 ⟨x, hx, if_pos ⟨hk, hr, hpo⟩⟩, by rw [hb]; exact decide_eq_true htag⟩

theorem bare_keepDesc (t : Task) (po td : Nat) : (t.keepDesc po td).sq.map QInstr.bare = t.sq.map QInstr.bare := by
  rw [keepDesc_sq, List.map_map]
  refine List.map_congr_left fun x _ => ?_
  rw [Function.comp_apply]
  split
  · exact bare_keeping x t td
  · rfl

end Sys2Proof.Machine
end

section
/-! TDSET, TDMOV, RINGI and SCPY complete (O30). -/

namespace Sys2Proof.Machine

section

variable {s : State} {k tag : Nat} {t : Task} {q : QInstr}

/-! ## TDSET and TDMOV -/

/-- TDSET and TDMOV complete with their entry changed; whichever the row, no check code has an error that it could clear. -/
theorem completeDesc_of_clean (hc : t.clean) {td : Nat} {d : Desc} (h : q.newDesc t = .ok (td, d)) :
    s.completeDesc k t q = s.finishQ k { t.keepDesc q.po td with descs := tset Desc.invalid t.descs td d } q 0 := by
  obtain ⟨-, -, hd, -⟩ := hc
  have hdbad : (t.keepDesc q.po td).dbad = [] := hd
  simp only [State.completeDesc, h, hdbad, tdel, ite_self]
  rw [← hdbad]
  rfl

/-- The row changes its own entry, which older STKRUNs go on to see as it was (R278), and nothing else. -/
theorem completes_of_newDesc (hs : StreamAt s k tag t q) {td : Nat} {d : Desc} (h : q.newDesc t = .ok (td, d))
    (he : exec (.streamComplete k tag) s = s.completeDesc k t q) :
    ∃ u, Becomes (.streamComplete k tag) s k u ∧ StreamCompleted t u tag 0 0 ∧ tget Desc.invalid u.descs td = d ∧
      (∀ m, m ≠ td → tget Desc.invalid u.descs m = tget Desc.invalid t.descs m) ∧ StkrunsSeeTheSame t u q ∧ u.srf = t.srf ∧
      u.rings = t.rings ∧ u.dregs = t.dregs ∧ u.stoeks = t.stoeks := by
  obtain ⟨-, -, hc, hq, -, -⟩ := hs
  obtain ⟨u, hb, hdone, hsrf, hrings, hdescs, hdregs, hstoeks, hsq⟩ :=
    completes_of_finishQ hq (he.trans (completeDesc_of_clean hc h)) ⟨bare_keepDesc t q.po td, rfl⟩
  refine ⟨u, hb, hdone, ?_, fun m hm => ?_, stkrunsSeeTheSame_keepDesc hdescs ?_, hsrf, hrings, hdregs, hstoeks⟩
  · rw [hdescs, tget_tset_same]
  · rw [hdescs, tget_tset_other _ _ _ hm]
  · rw [hsq, queued?_tag hq]

/-! ## RINGI (R80, R214) -/

/-- The ring that RINGI leaves where it raises no BOUNDS. -/
theorem newRing_ringi {d a : Reg} {n : BitVec 4} {ns s1 : BitVec 9} {m : Nat} {r : Ring} (hi : q.ins = .ringi d n a ns s1)
    (h : q.newRing t = .ok (m, r)) : m = n.toNat ∧ r = if ns.toNat = 0 then Ring.none else
      { Ring.none with cfg := true, base := (q.ops.getD 0 0).toNat, slotsz := s1.toNat + 1, nslot := ns.toNat, free := ns.toNat } := by
  simp only [QInstr.newRing, QInstr.ringiArgs, hi] at h
  split at h
  · next h0 => cases h; exact ⟨rfl, (if_pos h0).symm⟩
  · next h0 =>
    split at h
    · cases h
    · split at h
      · cases h
      · cases h; exact ⟨rfl, (if_neg h0).symm⟩

theorem completeRingi_of_clean (hc : t.clean) {n : Nat} {r : Ring} (h : q.newRing t = .ok (n, r)) :
    s.completeRingi k t q = s.finishQ k (t.setRing n r) q 0 := by
  obtain ⟨-, -, -, hr⟩ := hc
  simp only [State.completeRingi, h, hr, tdel]
  rw [← hr]
  rfl

/-! ## SCPY of plain SRF (R223) -/

theorem completeScpy_plain (hc : t.clean) {d a : Reg} {e dr : Bool} {la lb : BitVec 15} (hi : q.ins = .scpy d e dr la lb false false a) {n : Nat}
    (hn : n = (q.ops.getD 0 0).toNat) : s.completeScpy k t q =
      s.finishQ k { t with srf := if dr then t.srf else srfWrite t.srf (lb.toNat * 128) (srfBytes t.srf (la.toNat * 128) n) } q (n / 128) := by
  subst hn
  cases dr <;> simp [State.completeScpy, hi, heal_of_clean hc]

theorem completeScpy_rings {d a : Reg} {e dr rga rgb : Bool} {la lb : BitVec 15} (hi : q.ins = .scpy d e dr la lb rga rgb a)
    (hr : (rga || rgb) = true) : s.completeScpy k t q = if q.ended then s.finishQ k t q q.count else .next s := by
  simp [State.completeScpy, hi, hr]

/-! ## One slot of an SCPY (R223) -/

/-- The rings once a slot has moved: the target ring has published one, the source ring has released one. -/
def Task.ringsMoved (t : Task) (rga rgb : Bool) (la lb : Nat) : Tbl Ring :=
  let m := if rgb then tset Ring.none t.rings lb ((t.ring lb).publish 1 false) else t.rings
  if rga then tset Ring.none m la ((tget Ring.none m la).release 1) else m

/-- The task once an SCPY has moved n bytes to their target. -/
def Task.slotMoved (t : Task) (drop rga rgb : Bool) (la lb src dst n : Nat) : Task :=
  { t with srf := if drop then t.srf else srfWrite t.srf dst (srfBytes t.srf src n), rings := t.ringsMoved rga rgb la lb }

/-- Where the bytes of an SCPY go (R223): to a slot of the target ring, else to plain SRF, with DROP nowhere. -/
theorem copied_of_clean (hc : t.clean) (drop rgb : Bool) (slot plain n : Nat) (bs : List Byte) :
    (if drop then t
      else ({ t with srf := (if rgb then srfWrite t.srf slot bs else if drop then t.srf else srfWrite t.srf plain bs) }).heal
        (if rgb then slot else plain) n) =
      { t with srf := (if drop then t.srf else srfWrite t.srf (if rgb then slot else plain) bs) } := by
  cases drop
  · rw [if_neg Bool.false_ne_true, heal_of_clean hc]
    cases rgb <;> rfl
  · rfl

theorem tget_ite_tset (b : Bool) (m : Tbl Ring) (n j : Nat) (r : Ring) :
    tget Ring.none (if b then tset Ring.none m n r else m) j = if b = true ∧ j = n then r else tget Ring.none m j := by
  cases b
  · simp
  · simp [tget_tset]

theorem ring_putQ_slotMoved (t : Task) (drop rga rgb : Bool) (la lb src dst n j : Nat) (q : QInstr) :
    ((t.slotMoved drop rga rgb la lb src dst n).putQ q).ring j =
      if rga = true ∧ j = la then (if rgb = true ∧ la = lb then (t.ring lb).publish 1 false else t.ring la).release 1
      else if rgb = true ∧ j = lb then (t.ring lb).publish 1 false else t.ring j := by
  show tget Ring.none (t.ringsMoved rga rgb la lb) j = _
  simp only [Task.ringsMoved, tget_ite_tset]
  rfl

theorem ring_putQ_setRing (t : Task) (n : Nat) (r : Ring) (q : QInstr) : ((t.setRing n r).putQ q).ring n = r :=
  (ring_setRing t n n r).trans (if_pos rfl)

/-- Of a task whose ring n and whose queue have changed nothing else has. -/
theorem frame_putQ_setRing (t : Task) (n : Nat) (r : Ring) (q : QInstr) : { (t.setRing n r).putQ q with sq := t.sq, rings := t.rings } = t := by
  cases t
  rfl

section

variable {d a : Reg} {e dr rga rgb : Bool} {la lb : BitVec 15} (hi : q.ins = .scpy d e dr la lb rga rgb a)
  (hend : q.ended = false)
include hi hend

/-- The end-of-stream slot that was met is published in its turn. -/
theorem scpySlot_begun (hr : (rga || rgb) = true) (hb : q.begun = true) : s.scpySlot k t q = if (t.ring lb.toNat).free = 0 then .next s else
    .next (s.putTask k ((t.setRing lb.toNat ((t.ring lb.toNat).publish 1 true)).putQ { q with begun := false, ended := true })) := by
  simp [State.scpySlot, hi, hr, hend, hb]

theorem scpySlot_empty (hb : q.begun = false) (ha : rga = true) (hf : (t.ring la.toNat).filled = 0) : s.scpySlot k t q = .next s := by
  simp [State.scpySlot, hi, hend, hb, ha, hf]

/-- With E the slot that ends the stream is released. -/
theorem scpySlot_eos (hb : q.begun = false) (ha : rga = true) (hf : (t.ring la.toNat).filled ≠ 0)
    (he : (e && (t.ring la.toNat).eosAt 0) = true) : s.scpySlot k t q =
      .next (s.putTask k ((t.setRing la.toNat ((t.ring la.toNat).release 1)).putQ { q with count := q.count + 1, begun := rgb, ended := !rgb })) := by
  simp [State.scpySlot, hi, hend, hb, ha, hf, he]

theorem scpySlot_full (hb : q.begun = false) (he : (e && (t.ring la.toNat).eosAt 0) = false) (hg : rgb = true)
    (hf : (t.ring lb.toNat).free = 0) : s.scpySlot k t q = .next s := by
  simp [State.scpySlot, hi, hend, hb, he, hg, hf]

/-- A slot or the next lines move. -/
theorem scpySlot_moves (hc : t.clean) (hr : (rga || rgb) = true) (hb : q.begun = false) (hfa : rga = true → (t.ring la.toNat).filled ≠ 0)
    (he : (e && (t.ring la.toNat).eosAt 0) = false) (hfb : rgb = true → (t.ring lb.toNat).free ≠ 0) {n unit src dst : Nat}
    (hn : n = (q.ops.getD 0 0).toNat) (hu : unit = 128 * (if rga then (t.ring la.toNat).slotsz else (t.ring lb.toNat).slotsz))
    (hsrc : src = if rga then (t.ring la.toNat).slot (t.ring la.toNat).head else la.toNat * 128 + q.resume * unit)
    (hdst : dst = if rgb then (t.ring lb.toNat).slot (t.ring lb.toNat).tail else lb.toNat * 128 + q.resume * unit) :
    s.scpySlot k t q = .next (s.putTask k ((t.slotMoved dr rga rgb la.toNat lb.toNat src dst unit).putQ
      { q with resume := q.resume + 1, count := q.count + (if rga then 1 else unit / 128),
               ended := decide (n ≠ 0) && (q.resume + 1) * unit == n })) := by
  have hu' : (if rga then (t.ring la.toNat).slotsz else (t.ring lb.toNat).slotsz) * 128 = unit := by rw [hu, Nat.mul_comm]
  have hfill : ¬(rga && decide ((t.ring la.toNat).filled = 0)) = true := by simpa using hfa
  have hfree : ¬(rgb && decide ((t.ring lb.toNat).free = 0)) = true := by simpa using hfb
  have hsrf := copied_of_clean hc dr rgb ((t.ring lb.toNat).slot (t.ring lb.toNat).tail) (lb.toNat * 128 + q.resume * unit) unit
    (srfBytes t.srf src unit)
  rw [← hdst] at hsrf
  simp only [State.scpySlot, hi, hend, hb, hr, he, hfill, hfree, hu', ← hn, ← hsrc, ← hdst, hsrf, Bool.not_true, Bool.or_false,
    Bool.false_eq_true, if_false]
  cases rga <;> cases rgb <;> rfl

end

/-- A task of which the queue alone has changed besides what an update names. -/
theorem becomes_putQ {i : Instr} {u : Task} {q' : QInstr} (hi : exec i s = .next (s.putTask k (u.putQ q'))) (hq : u.queued? tag = some q)
    (ht : q'.tag = q.tag) : Becomes i s k (u.putQ q') ∧ (u.putQ q').queued? tag = some q' :=
  ⟨⟨_, hi, onlyTask_putTask ..⟩, queued?_putQ hq q' (ht.trans (queued?_tag hq))⟩

theorem otherRings_of_singleton {u : Task} {n : Nat} {r : Ring} (h : u.rings = (t.setRing n r).rings) : OtherRings [n] t u := by
  intro j hj
  have : u.ring j = (t.setRing n r).ring j := congrArg (fun x => tget Ring.none x j) h
  rw [this, ring_setRing, if_neg (by simpa using hj)]

theorem otherRings_putQ_setRing (t : Task) (n : Nat) (r : Ring) (q : QInstr) : OtherRings [n] t ((t.setRing n r).putQ q) :=
  otherRings_of_singleton (r := r) rfl

end

/-- Settles O30: the rows complete with the effect that their start checks computed; an SCPY slot by the branches of `scpySlot`. -/
theorem descriptorsRingsAndCopies : Obligations.DescriptorsRingsAndCopies := by
  unfold Obligations.DescriptorsRingsAndCopies
  constructor
  · intro s k tag t q ht hon hc hq hf hr
    have hs : StreamAt s k tag t q := ⟨ht, hon, hc, hq, hf, hr⟩
    refine ⟨fun d td line n e hi h => ?_, fun d td f a n e hi hf28 h => ?_, fun d n a ns s1 m r hi h => ?_,
      fun d e dr la lb rga rgb a n hi hn => ⟨fun hrg => ?_, fun hrg hend => ?_, fun hrg hend => ?_⟩⟩
    · obtain ⟨rfl, rfl⟩ := newDesc_tdset hi h
      exact completes_of_newDesc hs h (exec_streamComplete_tdset hs hi)
    · obtain ⟨rfl, hx, hx', hfield, hother⟩ := newDesc_tdmov hi hf28 h
      obtain ⟨u, hb, hdone, rfl, hrest⟩ := completes_of_newDesc hs h (exec_streamComplete_tdmov hs hi)
      exact ⟨u, _, _, hb, hdone, rfl, rfl, hx, hx', hfield, hother, hrest⟩
    · obtain ⟨rfl, rfl⟩ := newRing_ringi hi h
      obtain ⟨u, hb, hdone, hsrf, hrings, hdescs, hdregs, hstoeks, -⟩ :=
        completes_of_finishQ hq ((exec_streamComplete_ringi hs hi).trans (completeRingi_of_clean hc h)) ⟨rfl, rfl⟩
      have hring : u.ring n.toNat = _ := (congrArg (fun x => tget Ring.none x n.toNat) hrings).trans (tget_tset_same ..)
      refine ⟨u, hb, hdone, fun h0 => ?_, fun h0 => ?_, otherRings_of_singleton hrings, hsrf, hdescs, hdregs, hstoeks⟩
      · rw [hring, if_pos (by simp [h0])]; rfl
      · have hne : ns.toNat ≠ 0 := fun h => h0 (BitVec.eq_of_toNat_eq h)
        rw [hring, if_neg hne]
        exact ⟨rfl, rfl, rfl, rfl, rfl, rfl, rfl, rfl, rfl⟩
    · obtain ⟨rfl, rfl⟩ : rga = false ∧ rgb = false := by simpa using hrg
      obtain ⟨u, hb, hdone, hsrf, hrings, hdescs, hdregs, hstoeks, -⟩ :=
        completes_of_finishQ hq ((exec_streamComplete_scpy hs hi).trans (completeScpy_plain hc hi hn)) ⟨rfl, rfl⟩
      refine ⟨u, hb, hdone, fun hd => ?_, fun hd => ?_, hrings, hdescs, hdregs, hstoeks⟩
      · rw [hsrf, hd]; exact srfTakes_copy t.srf _ _ _
      · rw [hsrf, hd]; rfl
    · have he := (exec_streamComplete_scpy hs hi).trans (completeScpy_rings hi hrg)
      rw [hend, if_pos rfl] at he
      obtain ⟨u, hb, hdone, hsrf, hrings, hdescs, hdregs, hstoeks, -⟩ := completes_of_finishQ hq he (effectOn_refl t)
      exact ⟨u, hb, hdone, hsrf, hrings, hdescs, hdregs, hstoeks⟩
    · rw [exec_streamComplete_scpy hs hi, completeScpy_rings hi hrg, hend, if_neg Bool.false_ne_true]
  · rintro s k tag t q d e dr la lb rga rgb a n unit src dst ra rb ht hon hc hq hr hi hrg hend hn rfl rfl hunit hsrc hdst
    have hexec := exec_ringWaitSatisfied_scpy ht hon hc hq hr hi
    refine ⟨fun hb ha hfill he heos => ?_, fun hb hfree => ?_, fun hb hfill heos hfree => ?_, ?_⟩
    · obtain ⟨hbec, hque⟩ := becomes_putQ (hexec.trans (scpySlot_eos hi hend hb ha hfill (by rw [he, heos]; rfl))) hq rfl
      refine ⟨_, hbec, ?_, otherRings_putQ_setRing _ _ _ _, hque, frame_putQ_setRing _ _ _ _⟩
      rw [ring_putQ_setRing]
      exact ringReleases_release _
    · obtain ⟨hbec, hque⟩ := becomes_putQ (hexec.trans ((scpySlot_begun hi hend hrg hb).trans (if_neg hfree))) hq rfl
      refine ⟨_, hbec, ?_, otherRings_putQ_setRing _ _ _ _, hque, frame_putQ_setRing _ _ _ _⟩
      rw [ring_putQ_setRing]
      exact ringPublishes_publish _ _
    · obtain ⟨hbec, hque⟩ := becomes_putQ (hexec.trans (scpySlot_moves hi hend hc hrg hb hfill heos hfree hn hunit hsrc hdst))
        hq rfl
      refine ⟨_, hbec, fun hd => ?_, fun hd => ?_, fun h1 h2 => ?_, fun h1 h2 => ?_, fun h1 h2 h3 => ?_, fun j hj => ?_, hque, ?_⟩
      · rw [Task.putQ_srf, hd]; exact srfTakes_copy t.srf _ _ _
      · rw [Task.putQ_srf, hd]; rfl
      · have hne : ¬(rgb = true ∧ la.toNat = lb.toNat) := fun h =>
          h2.elim (fun hf => by simp [hf] at h) (fun hl => hl (BitVec.eq_of_toNat_eq h.2))
        rw [ring_putQ_slotMoved, if_pos ⟨h1, rfl⟩, if_neg hne]
        exact ringReleases_release _
      · have hne : ¬(rga = true ∧ lb.toNat = la.toNat) := fun h =>
          h2.elim (fun hf => by simp [hf] at h) (fun hl => hl (BitVec.eq_of_toNat_eq h.2.symm))
        rw [ring_putQ_slotMoved, if_neg hne, if_pos ⟨h1, rfl⟩]
        exact ringPublishes_publish _ _
      · rw [ring_putQ_slotMoved, if_pos ⟨h1, by rw [h3]⟩, if_pos ⟨h2, by rw [h3]⟩]
        exact ⟨_, ringPublishes_publish _ _, ringReleases_release _⟩
      · rw [ring_putQ_slotMoved, if_neg (fun h => hj (by simp [h.1, h.2])), if_neg (fun h => hj (by simp [h.1, h.2]))]
      · rfl
    · rintro (⟨hb, hfree⟩ | ⟨hb, ha, hfill⟩ | ⟨hb, heos, hg, hfree⟩)
      · rw [hexec, scpySlot_begun hi hend hrg hb, if_pos hfree]
      · rw [hexec, scpySlot_empty hi hend hb ha hfill]
      · rw [hexec, scpySlot_full hi hend hb heos hg hfree]

end Sys2Proof.Machine
end

section
/-! SUPPORT. Where the elements of a window lie (R74, R89, R90, R216, R217, R221). -/

namespace Sys2Proof.Machine

/-! ## Lines of a stream (R74) -/

/-- No two lines of the records of a stream lie at one place. -/
theorem Stream.at_inj (st : Stream) {r j r' j' : Nat} (hj : j < st.s) (hj' : j' < st.s) (h : st.at r j = st.at r' j') : r = r' ∧ j = j' := by
  have hs : 0 < st.s := by omega
  have hblock : st.s * (r / 16) + j = st.s * (r' / 16) + j' := by
    simp only [Stream.at] at h
    omega
  have hmod : r % 16 = r' % 16 := by
    simp only [Stream.at, hblock] at h
    omega
  have hdiv : r / 16 = r' / 16 := by
    have := congrArg (· / st.s) hblock
    simpa only [Nat.mul_add_div hs, Nat.div_eq_of_lt hj, Nat.div_eq_of_lt hj', Nat.add_zero] using this
  rw [hdiv] at hblock
  omega

/-! ## Units and addresses (R89, R90) -/

/-- The bytes of a unit, by format (R45, R89). -/
theorem fmtUnitBytes_eq {f : Nat} (h : f < 16) : fmtUnitBytes f = [8, 4, 2, 2, 1, 1, 1, 1, 2, 2, 4, 4, 8, 8, 1, 1].getD f 1 := by
  have : ∀ f, f < 16 → fmtUnitBytes f = [8, 4, 2, 2, 1, 1, 1, 1, 2, 2, 4, 4, 8, 8, 1, 1].getD f 1 := by decide
  exact this f h

theorem fmt_lt (d : Desc) : d.fmt < 16 := bits_lt d.im 59 56

theorem wrap_cast (w : Nat) (v : Int) : (wrap w v : Int) = v % 2 ^ w := by
  rw [wrap, Int.toNat_of_nonneg (Int.emod_nonneg _ (by positivity))]
  push_cast
  rfl

theorem foldl_add_eq_sum (l : List Nat) (f : Nat → Int) (b : Int) : l.foldl (fun a k => a + f k) b = b + (l.map f).sum := by
  induction l generalizing b with
  | nil => simp
  | cons k l ih => rw [List.foldl_cons, ih, List.map_cons, List.sum_cons, Int.add_assoc]

theorem addr_eq (d : Desc) (c : List Int) : (d.addr c : Int) =
    ((d.base : Int) + ((List.range 6).map (fun k => d.stride (k + 1) * c.getD (k + 1) 0)).sum +
      c.getD 0 0 / (fmtPerUnit d.fmt : Int) * (fmtUnitBytes d.fmt : Int)) % 2 ^ 64 := by
  rw [Desc.addr, wrap_cast, foldl_add_eq_sum]

theorem inside_iff (d : Desc) (c : List Int) :
    d.inside c = true ↔ ∀ k, k < 7 → k < d.ndim → 0 ≤ c.getD k 0 ∧ c.getD k 0 < d.size k := by
  simp only [Desc.inside, List.all_eq_true, List.mem_range, Bool.or_eq_true, Bool.and_eq_true, decide_eq_true_eq]
  refine forall_congr' fun k => imp_congr_right fun _ => ?_
  rw [← Nat.not_lt, ← imp_iff_not_or]

/-! ## Coordinates (R216) -/

/-- A digit of a mixed-radix number, and the rest. -/
theorem digits_cons {e g : Nat} (h : g < e) (es : List Nat) (r : Nat) : digits (e :: es) (g + e * r) = g :: digits es r := by
  rw [digits, Nat.add_mul_mod_self_left, Nat.mod_eq_of_lt h, Nat.add_mul_div_left _ _ (by omega), Nat.div_eq_of_lt h, Nat.zero_add]

theorem digits_last {e g : Nat} (h : g < e) : digits [e] g = [g] := by rw [digits, Nat.mod_eq_of_lt h]; rfl

theorem coords_getD (d : Desc) (ext : List Nat) (n k : Nat) (h : k < 7) : (d.coords ext n).getD k 0 =
    if d.ndim ≤ k then 0 else d.org k + (if k = 0 then
      ((digits (ceilDiv (ext.getD 0 1) (fmtPerUnit d.fmt) :: ext.drop 1) n).getD 0 0 * fmtPerUnit d.fmt : Nat)
      else ((digits (ceilDiv (ext.getD 0 1) (fmtPerUnit d.fmt) :: ext.drop 1) n).getD k 0 : Nat)) := by
  simp [Desc.coords, List.getD_eq_getElem?_getD, h]

/-- The digits of a unit's number in a window of seven extents. -/
theorem digits_window {ext : List Nat} {e0 : Nat} {e g : Nat → Nat} (hl : ext.length = 7) (he0 : e 0 = e0)
    (he : ∀ k, k ≠ 0 → e k = ext.getD k 1) (hg : ∀ k, k < 7 → g k < e k) (k : Nat) (hk : k < 7) :
    (digits (e0 :: ext.drop 1) (g 0 + e 0 * (g 1 + e 1 * (g 2 + e 2 * (g 3 + e 3 * (g 4 + e 4 * (g 5 + e 5 * g 6))))))).getD k 0 = g k := by
  have hdrop : ext.drop 1 = [e 1, e 2, e 3, e 4, e 5, e 6] := by
    refine List.ext_getElem (by simp [hl]) fun i hi hi' => ?_
    have hlt : i + 1 < ext.length := by simp at hi; omega
    have h6 : i < 6 := by omega
    rw [List.getElem_drop, show ext[1 + i] = e (i + 1) by rw [he _ (by omega), List.getD_eq_getElem _ _ hlt]; congr 1; omega]
    interval_cases i <;> rfl
  rw [← he0, hdrop, digits_cons (hg 0 (by decide)), digits_cons (hg 1 (by decide)), digits_cons (hg 2 (by decide)), digits_cons (hg 3 (by decide)),
    digits_cons (hg 4 (by decide)), digits_cons (hg 5 (by decide)), digits_last (hg 6 (by decide))]
  interval_cases k <;> rfl

/-! ## Records (R217, R221) -/

theorem geo_window {q : QInstr} {g : Geo} (h : q.geo = some g) (hr : g.rows = false) :
    g.st.n = (q.desc.window (extents (q.ops.getD 0 0) (q.ops.getD 1 0)) g.pad g.st.s).n := by
  simp only [QInstr.geo] at h
  split at h
  case h_1 => cases h; rfl
  case h_2 => cases h; rfl
  case h_3 => cases h; cases hr
  case h_4 => cases h; cases hr
  case h_5 => cases h

theorem geo_rows {q : QInstr} {g : Geo} (h : q.geo = some g) (hr : g.rows = true) : g.st.n = (q.ops.getD 1 0).toNat := by
  simp only [QInstr.geo] at h
  split at h
  case h_1 => cases h; cases hr
  case h_2 => cases h; cases hr
  case h_3 => cases h; rfl
  case h_4 => cases h; rfl
  case h_5 => cases h

/-- The unit with a number in a window: its address, none outside the tensor. -/
def Desc.unit (d : Desc) (ext : List Nat) (n : Nat) : Option Nat := if d.inside (d.coords ext n) then some (d.addr (d.coords ext n)) else none

theorem move_va (w : Window) (d : Desc) (ext : List Nat) (n : Nat) : (w.move d ext n).va = d.unit ext n := by
  unfold Window.move
  split <;> rfl

theorem recUnits_window {q : QInstr} {g : Geo} (srf : Tbl Line) (r : Nat) (hr : g.rows = false) : q.recUnits g srf r =
    ((q.desc.window (extents (q.ops.getD 0 0) (q.ops.getD 1 0)) g.pad g.st.s).unitsOfRec r).map
      (q.desc.unit (extents (q.ops.getD 0 0) (q.ops.getD 1 0))) := by
  simp [QInstr.recUnits, hr, move_va]

/-- With PAD a record holds the units of one row (R217). -/
theorem unitsOfRec_pad (d : Desc) (ext : List Nat) (s r : Nat) : (d.window ext true s).unitsOfRec r =
    (List.range (ceilDiv (ext.getD 0 1) (fmtPerUnit d.fmt))).map (fun i => r * ceilDiv (ext.getD 0 1) (fmtPerUnit d.fmt) + i) := rfl

/-- Without PAD a record holds as many of the units that are left as it has room for (R217). -/
theorem unitsOfRec_dense (d : Desc) (ext : List Nat) (s r : Nat) : (d.window ext false s).unitsOfRec r =
    (List.range (min (s * 128 / fmtUnitBytes d.fmt) (ceilDiv (ext.getD 0 1) (fmtPerUnit d.fmt) * (ext.drop 1).foldl (· * ·) 1 -
      r * (s * 128 / fmtUnitBytes d.fmt)))).map (fun i => r * (s * 128 / fmtUnitBytes d.fmt) + i) := rfl

theorem recUnits_rows {q : QInstr} {g : Geo} (srf : Tbl Line) (r : Nat) (hr : g.rows = true) :
    q.recUnits g srf r = q.desc.rowUnits (q.index srf r) g.recBytes := if_pos hr

theorem index_eq (q : QInstr) (srf : Tbl Line) (r : Nat) :
    q.index srf r = leNat ((List.range 4).map (fun i => srfByte srf ((q.ops.getD 0 0).toNat + 4 * r + i))) := by
  rw [QInstr.index, srfNat, srfBytes_eq]

/-! ## Stores in element order (R98, R218) -/

theorem zip_range_eq_map {α : Type} (l : List α) (d : α) : l.zip (List.range l.length) = (List.range l.length).map (fun i => (l.getD i d, i)) := by
  refine List.ext_getElem (by simp) fun i hi hi' => ?_
  have : i < l.length := by simpa using hi
  simp [this]

/-- An instruction that moves rows, or a format without deltas, has no delta stream. -/
theorem noDelta {rows delta : Bool} (h : (rows || !delta) = true) : ¬(!rows && delta) = true := by
  cases rows <;> cases delta <;> simp_all

theorem items_eq {q : QInstr} {g : Geo} (srf : Tbl Line) (r : Nat) (rec' : List Byte) (h : (g.rows || !q.desc.hasDelta) = true) :
    q.items g srf r rec' = (List.range (q.recUnits g srf r).length).filterMap (fun i =>
      ((q.recUnits g srf r).getD i none).map (fun va =>
        { va := va, data := (rec'.drop (i * fmtUnitBytes q.desc.fmt)).take (fmtUnitBytes q.desc.fmt), mask := 0xFF })) := by
  have hno : ¬(!g.rows && q.desc.hasDelta) = true := noDelta h
  rw [QInstr.items, if_neg hno, zip_range_eq_map _ none, List.filterMap_map]
  rfl

end Sys2Proof.Machine
end

section
/-! SUPPORT. Reading units, translating stores, and runs of bytes (R90, R98, R100, R105, R127, R323). -/

namespace Sys2Proof.Machine

/-! ## Reading bytes (R105, R323, R385) -/

@[simp] theorem State.correct_mem (s : State) (u : Nat) : (s.correct u).mem = s.mem := by
  unfold State.correct
  split <;> rfl

@[simp] theorem State.readLocal_mem (s : State) (las : List Nat) : (s.readLocal las).1.mem = s.mem := by
  show ((unitsOf las).foldl State.correct s).mem = s.mem
  generalize unitsOf las = us
  induction us generalizing s with
  | nil => rfl
  | cons u us ih => rw [List.foldl_cons, ih, State.correct_mem]

/-- The local addresses of those bytes whose home is here. -/
def State.ownBytes (s : State) (pas : List Nat) : List Nat := (pas.filter (fun a => a / 2 ^ 40 = s.rank)).map (· % 2 ^ 40)

theorem mem_ownBytes {s : State} {pas : List Nat} {la : Nat} : la ∈ s.ownBytes pas ↔ ∃ a ∈ pas, a / 2 ^ 40 = s.rank ∧ a % 2 ^ 40 = la := by
  simp [State.ownBytes, and_assoc]

theorem readLocal_bad (s : State) (las : List Nat) : (s.readLocal las).2.2 = las.find? (fun a => s.badUnit (a / 64)) := rfl

section

variable {s s1 : State} {c : XCtx} {w : Who} {sp : Space} {got : Tbl Byte} {va n : Nat} {m pas : List Nat}
  (hx : s.xlate c { space := sp, r := true, w := false, x := false } va n = (s1, .ok (m, pas)))
include hx

/-- Bytes of the package or the pod: memory's where the home is here, else as the home sent them. -/
theorem readAt_own (hsp : sp ≠ .host) (hgood : ∀ a ∈ pas, a / 2 ^ 40 = s.rank → s1.badUnit (a % 2 ^ 40 / 64) = false) :
    ∃ s2, s2.mem = s1.mem ∧ s.readAt c w sp got va n =
      (s2, .ok (pas.map (fun a => if a / 2 ^ 40 = s.rank then rdByte s1.mem (a % 2 ^ 40) else tget 0 got a))) := by
  have hfind : (s1.readLocal (s.ownBytes pas)).2.2 = none := by
    rw [readLocal_bad, List.find?_eq_none]
    intro la hla
    obtain ⟨a, ha, hr, rfl⟩ := mem_ownBytes.1 hla
    rw [hgood a ha hr]
    exact Bool.false_ne_true
  refine ⟨(s1.readLocal (s.ownBytes pas)).1, State.readLocal_mem .., ?_⟩
  rw [State.ownBytes] at hfind ⊢
  cases sp with
  | host => exact absurd rfl hsp
  | package => simp only [State.readAt, hx, hfind, State.readLocal_mem]
  | pod => simp only [State.readAt, hx, hfind, State.readLocal_mem]

theorem readAt_own_bad (hsp : sp ≠ .host) (hbad : ∃ a ∈ pas, a / 2 ^ 40 = s.rank ∧ s1.badUnit (a % 2 ^ 40 / 64) = true) :
    (s.readAt c w sp got va n).2 = .error (.trap (addrFault cDATAERR va false)) := by
  obtain ⟨a, ha, hr, hb⟩ := hbad
  obtain ⟨bad, hfind⟩ : ∃ bad, (s1.readLocal (s.ownBytes pas)).2.2 = some bad := by
    rw [readLocal_bad, ← Option.isSome_iff_exists, List.find?_isSome]
    exact ⟨_, mem_ownBytes.2 ⟨a, ha, hr, rfl⟩, hb⟩
  rw [State.ownBytes] at hfind
  cases sp with
  | host => exact absurd rfl hsp
  | package => simp only [State.readAt, hx, hfind, raise]
  | pod => simp only [State.readAt, hx, hfind, raise]

/-- Bytes of host memory. -/
theorem readAt_host (hsp : sp = .host) (hgood : ∀ a ∈ pas, a / 64 ∉ s1.host.poison) :
    s.readAt c w sp got va n = (s1, .ok (pas.map (rdByte s1.hmem))) := by
  subst hsp
  have hfind : s1.poisonedAt pas = none := by
    rw [State.poisonedAt, List.find?_eq_none]
    intro a ha
    simpa using hgood a ha
  simp only [State.readAt, hx, hfind, rdBytes]

theorem readAt_host_bad (hsp : sp = .host) (hbad : ∃ a ∈ pas, a / 64 ∈ s1.host.poison) :
    (s.readAt c w sp got va n).2 = .error (.trap (addrFault cDATAERR va false)) := by
  subst hsp
  obtain ⟨a, ha, hb⟩ := hbad
  obtain ⟨bad, hfind⟩ : ∃ bad, s1.poisonedAt pas = some bad := by
    rw [State.poisonedAt, ← Option.isSome_iff_exists, List.find?_isSome]
    exact ⟨a, ha, by simpa using hb⟩
  simp only [State.readAt, hx, hfind, raise]

end

/-! ## Units of a record in order (R90) -/

theorem readUnits_eq (c : XCtx) (w : Who) (sp : Space) (got : Tbl Byte) (ub : Nat) (fill : List Byte) (us : List (Option Nat)) (s : Nat → State)
    (b : Nat → List Byte) (h : ∀ i, i < us.length → (us.getD i none = none → s (i + 1) = s i ∧ b i = fill) ∧
      ∀ va, us.getD i none = some va → (s i).readAt c w sp got va ub = (s (i + 1), .ok (b i))) :
    State.readUnits c w sp got ub fill us (s 0) = (s us.length, .ok ((List.range us.length).flatMap b)) := by
  induction us generalizing s b with
  | nil => rfl
  | cons u us ih =>
    have hrest := ih (fun i => s (i + 1)) (fun i => b (i + 1)) (fun i hi => h (i + 1) (by simpa using hi))
    obtain ⟨hnone, hsome⟩ := h 0 (by simp)
    rw [List.length_cons, List.range_succ_eq_map, List.flatMap_cons, List.flatMap_map]
    cases u with
    | none =>
      obtain ⟨hs, hb⟩ := hnone rfl
      rw [State.readUnits, ← hs, hrest, hb]
      rfl
    | some va =>
      rw [State.readUnits, hsome va rfl]
      simp only [hrest]
      rfl

theorem loadRecord_eq {s s1 : State} {t : Task} {q : QInstr} {g : Geo} {r : Nat} {bs : List Byte} (h : (g.rows || !q.desc.hasDelta) = true)
    (hu : State.readUnits (t.qctx q) (t.who q) q.desc.space q.got (fmtUnitBytes q.desc.fmt) (fmtOutside q.desc.fmt) (q.recUnits g t.srf r) s =
      (s1, .ok bs)) : s.loadRecord t q g r = (s1, .ok (padTo g.recBytes bs, [])) := by
  simp only [State.loadRecord, hu, if_neg (noDelta h)]

/-! ## Stores in element order (R98) -/

theorem gather_eq (c : XCtx) (sp : Space) (its : List Item) (s : Nat → State) (pte pa : Nat → List Nat)
    (h : ∀ i x, its[i]? = some x →
      (s i).xlate c { space := sp, r := false, w := true, x := false } x.va x.data.length = (s (i + 1), .ok (pte i, pa i))) :
    State.gather c sp its (s 0) = (s its.length, (its.zip (List.range its.length)).flatMap (fun y =>
      ((pa y.2).zip y.1.data).map (fun z => (z.1, y.1.mask, z.2))), none) := by
  induction its generalizing s pte pa with
  | nil => rfl
  | cons x its ih =>
    have hrest := ih (fun i => s (i + 1)) (fun i => pte (i + 1)) (fun i => pa (i + 1)) (fun i y hy => h (i + 1) y (by simpa using hy))
    rw [State.gather, h 0 x rfl, List.length_cons, List.range_succ_eq_map, List.zip_cons_cons, List.flatMap_cons, List.zip_map_right,
      List.flatMap_map]
    simp only [hrest]
    rfl

/-! ## Runs of bytes (R127) -/

/-- A byte follows another in its 256-byte block. -/
def FollowsInBlock (x y : Nat × Nat × Byte) : Prop := y.2.1 = x.2.1 + 1 ∧ y.2.1 / 256 = x.2.1 / 256

theorem ne_nil_of_mem_recRuns (bs : List (Nat × Nat × Byte)) : ∀ run ∈ recRuns bs, run ≠ [] := by
  induction bs with
  | nil => simp [recRuns]
  | cons x bs ih =>
    unfold recRuns
    split
    · split <;> simp_all
    · simp_all

/-- A byte joins the run after it, or is a run of its own. -/
theorem recRuns_cons (x : Nat × Nat × Byte) (bs : List (Nat × Nat × Byte)) :
    (recRuns bs = [] ∧ recRuns (x :: bs) = [[x]]) ∨
    ∃ y run more, recRuns bs = (y :: run) :: more ∧
      ((FollowsInBlock x y ∧ recRuns (x :: bs) = (x :: y :: run) :: more) ∨
       (¬FollowsInBlock x y ∧ recRuns (x :: bs) = [x] :: (y :: run) :: more)) := by
  have hne := ne_nil_of_mem_recRuns bs
  rw [recRuns]
  cases h : recRuns bs with
  | nil => exact .inl ⟨rfl, rfl⟩
  | cons a more =>
    cases a with
    | nil => exact absurd rfl (hne [] (by simp [h]))
    | cons y run =>
      refine .inr ⟨y, run, more, rfl, ?_⟩
      by_cases hf : FollowsInBlock x y
      · exact .inl ⟨hf, if_pos (by simpa [FollowsInBlock] using hf)⟩
      · exact .inr ⟨hf, if_neg (by simpa [FollowsInBlock] using hf)⟩

theorem flatten_recRuns (bs : List (Nat × Nat × Byte)) : (recRuns bs).flatten = bs := by
  induction bs with
  | nil => rfl
  | cons x bs ih =>
    rcases recRuns_cons x bs with ⟨h0, h⟩ | ⟨y, run, more, h0, ⟨-, h⟩ | ⟨-, h⟩⟩
    · rw [h, ← ih, h0]; rfl
    · rw [h, ← ih, h0]; rfl
    · rw [h, ← ih, h0]; rfl

theorem isChain_of_mem_recRuns (bs : List (Nat × Nat × Byte)) : ∀ run ∈ recRuns bs, run.IsChain FollowsInBlock := by
  induction bs with
  | nil => simp [recRuns]
  | cons x bs ih =>
    rcases recRuns_cons x bs with ⟨-, h⟩ | ⟨y, run, more, h0, ⟨hf, h⟩ | ⟨-, h⟩⟩
    · simp [h]
    · rw [h0, List.forall_mem_cons] at ih
      rw [h, List.forall_mem_cons]
      exact ⟨ih.1.cons_cons hf, ih.2⟩
    · rw [h0] at ih
      rw [h, List.forall_mem_cons]
      exact ⟨.singleton x, ih⟩

/-- Between two runs the bytes do not follow. -/
def RunEnds (a b : List (Nat × Nat × Byte)) : Prop := ∀ x y, a.getLast? = some x → b.head? = some y → ¬FollowsInBlock x y

theorem isChain_recRuns (bs : List (Nat × Nat × Byte)) : (recRuns bs).IsChain RunEnds := by
  induction bs with
  | nil => exact .nil
  | cons x bs ih =>
    rcases recRuns_cons x bs with ⟨-, h⟩ | ⟨y, run, more, h0, ⟨-, h⟩ | ⟨hf, h⟩⟩
    · rw [h]; exact .singleton _
    · rw [h]
      rw [h0] at ih
      cases more with
      | nil => exact .singleton _
      | cons b more =>
        rw [List.isChain_cons_cons] at ih ⊢
        refine ⟨fun u v hu hv => ih.1 u v ?_ hv, ih.2⟩
        simpa using hu
    · rw [h]
      rw [h0] at ih
      refine ih.cons_cons fun u v hu hv => ?_
      cases hu
      cases hv
      exact hf

/-- Neighbours in a chain. -/
theorem rel_of_isChain {α : Type} {R : α → α → Prop} {l : List α} (h : l.IsChain R) {i : Nat} {x y : α} (hx : l[i]? = some x)
    (hy : l[i + 1]? = some y) : R x y := by
  obtain ⟨hi, rfl⟩ := List.getElem?_eq_some_iff.1 hy
  obtain ⟨hi', rfl⟩ := List.getElem?_eq_some_iff.1 hx
  exact List.isChain_iff_getElem.1 h i hi

end Sys2Proof.Machine
end

section
/-! Where elements, units and stored bytes lie (O36). -/

namespace Sys2Proof.Machine

/-- Settles O36: each place by the equation of the function that computes it; reads, stores and runs by the lists they go through. -/
theorem elementsAndTheirPlaces : Obligations.ElementsAndTheirPlaces := by
  unfold Obligations.ElementsAndTheirPlaces
  refine ⟨fun st r j r' j' => ⟨rfl, st.at_inj⟩, ?_, fun a b => rfl, ?_, ?_, ?_, ?_, ?_, readUnits_eq, fun s s1 t q g r bs => loadRecord_eq,
    gather_eq, fun bs => ⟨flatten_recRuns bs, fun run hrun => ?_, fun i a b x y ha hb hx hy => ?_⟩⟩
  · rintro d c per ub rfl rfl
    have hub := fmtUnitBytes_eq (fmt_lt d)
    rw [← hub]
    exact ⟨addr_eq d c, inside_iff d c, rfl, rfl⟩
  · rintro d ext n per e g hl rfl he hg rfl k hk
    have hdig := digits_window (e0 := ceilDiv (ext.getD 0 1) (fmtPerUnit d.fmt)) hl (he 0) (fun k hk => (he k).trans (if_neg hk)) hg
    rw [coords_getD _ _ _ _ hk, hdig k hk, hdig 0 (by decide)]
    by_cases hn : k < d.ndim
    · rw [if_pos hn, if_neg (Nat.not_le.2 hn)]; rfl
    · rw [if_neg hn, if_pos (Nat.not_lt.1 hn)]
  · intro q g srf r row rows ub ext unit hq hr hext hrow hrows hub hunit
    have hu : unit = q.desc.unit ext := funext hunit
    subst hu hext hrow hrows hub
    rw [recUnits_window srf r hr, geo_window hq hr]
    refine ⟨fun hp => ?_, fun hp => ?_⟩
    · rw [hp, unitsOfRec_pad, List.map_map]
      exact ⟨rfl, rfl⟩
    · rw [hp, unitsOfRec_dense, List.map_map, Nat.mul_comm 128]
      exact ⟨rfl, rfl⟩
  · rintro q g srf r idx hq hr rfl
    rw [recUnits_rows srf r hr, ← index_eq]
    rw [Nat.mul_comm 128]
    exact ⟨geo_rows hq hr, rfl⟩
  · rintro q g srf r rec' ub rfl h
    exact items_eq srf r rec' h
  · intro s s1 c w sp got va n m pas hx
    refine ⟨readAt_own hx, readAt_host hx, ?_⟩
    rintro (⟨hsp, hbad⟩ | ⟨hsp, hbad⟩)
    · exact ⟨_, readAt_own_bad hx hsp hbad, rfl⟩
    · exact ⟨_, readAt_host_bad hx hsp hbad, rfl⟩
  · exact ⟨ne_nil_of_mem_recRuns bs run hrun, fun i x y => rel_of_isChain (isChain_of_mem_recRuns bs run hrun)⟩
  · exact rel_of_isChain (isChain_recRuns bs) ha hb x y hx hy

end Sys2Proof.Machine
end

section
/-! SUPPORT. What a translation or a read of local bytes may touch (R323, R362, R376), and what giving an agent another hart leaves as it was. -/

namespace Sys2Proof.Machine

/-! ## Translations and reads -/

/-- A state with the tasks of another, and what a translation may touch as it is there. -/
def State.withTranslationOf (t s : State) : State :=
  { t with tasks := s.tasks, tlb := s.tlb, freeCtr := s.freeCtr, pregs := s.pregs, ms := { t.ms with ecc := s.ms.ecc } }

theorem sameButTranslation_iff {s t : State} : SameButTranslation s t ↔ SameRegisters s t ∧ t.withTranslationOf s = s := Iff.rfl

theorem withTranslationOf_trans (s t u : State) : (u.withTranslationOf t).withTranslationOf s = u.withTranslationOf s := rfl

theorem SameRegisters.trans {s t u : State} (h1 : SameRegisters s t) (h2 : SameRegisters t u) : SameRegisters s u :=
  fun n hn => (h2 n hn).trans (h1 n hn)

namespace SameButTranslation

variable {s t u : State}

theorem refl (s : State) : SameButTranslation s s := ⟨fun _ _ => rfl, rfl⟩

theorem trans (h1 : SameButTranslation s t) (h2 : SameButTranslation t u) : SameButTranslation s u := by
  rw [sameButTranslation_iff] at *
  exact ⟨h1.1.trans h2.1, by rw [← withTranslationOf_trans s t u, h2.2, h1.2]⟩

theorem of_tasks (h : { t with tasks := s.tasks } = s) : SameButTranslation s t := by
  rw [← h]
  exact ⟨fun _ _ => rfl, rfl⟩

theorem mem (h : SameButTranslation s t) : t.mem = s.mem := (congrArg State.mem h.2 :)

theorem hmem (h : SameButTranslation s t) : t.hmem = s.hmem := (congrArg State.hmem h.2 :)

theorem fab (h : SameButTranslation s t) : t.fab = s.fab := (congrArg State.fab h.2 :)

theorem outbound (h : SameButTranslation s t) : t.outbound = s.outbound := (congrArg State.outbound h.2 :)

theorem rank (h : SameButTranslation s t) : t.rank = s.rank := by rw [State.rank, h.1 _ (by decide)]; rfl

theorem sameMemory (h : SameButTranslation s t) : SameMemory s t := ⟨fun _ => by rw [h.mem], fun _ => by rw [h.hmem]⟩

end SameButTranslation

/-- No task differs, and of the rest only what a translation may touch. -/
structure TranslationFrame (s t : State) : Prop where
  tasks : t.tasks = s.tasks
  same : SameButTranslation s t

namespace TranslationFrame

theorem refl (s : State) : TranslationFrame s s := ⟨rfl, .refl s⟩

theorem trans {s t u : State} (h1 : TranslationFrame s t) (h2 : TranslationFrame t u) : TranslationFrame s u :=
  ⟨h2.tasks.trans h1.tasks, h1.same.trans h2.same⟩

theorem foldl {β : Type} {f : State → β → State} (hf : ∀ a x, TranslationFrame a (f a x)) (l : List β) (s : State) :
    TranslationFrame s (l.foldl f s) := by
  induction l generalizing s with
  | nil => exact refl s
  | cons x l ih => exact (hf s x).trans (ih (f s x))

theorem draw (s : State) : TranslationFrame s s.draw.2 := ⟨rfl, fun _ _ => rfl, rfl⟩

theorem correct (s : State) (u : Nat) : TranslationFrame s (s.correct u) := by
  unfold State.correct
  split
  · exact ⟨rfl, fun _ hn => preg_setPreg_other _ _ hn, rfl⟩
  · exact refl s

theorem readLocal (s : State) (las : List Nat) : TranslationFrame s (s.readLocal las).1 := foldl correct _ s

theorem cache (s : State) (e : TlbEntry) : TranslationFrame s (s.cache e) := by
  unfold State.cache
  split
  · exact refl s
  · exact ⟨rfl, fun _ _ => rfl, rfl⟩

theorem cacheWay (s : State) (asid : BitVec 16) (w : Way) : TranslationFrame s (s.cacheWay asid w) := by
  unfold State.cacheWay
  refine trans ?_ (foldl cache _ _)
  split
  · exact cache s _
  · exact refl s

theorem takeWay (s : State) (asid : BitVec 16) (w : Way) : TranslationFrame s (s.takeWay asid w).1 :=
  (foldl correct _ s).trans (cacheWay _ asid w)

theorem pickLeaf (s : State) (asid : BitVec 16) (va : Nat) : TranslationFrame s (s.pickLeaf asid va).1 := by
  unfold State.pickLeaf
  dsimp only
  split
  · exact takeWay s asid _
  · exact (draw s).trans (takeWay _ asid _)

end TranslationFrame

/-- R361: a piece that translates changes nothing but what a translation touches, and has an address for each byte. -/
theorem xlatePiece_ok {s : State} {c : XCtx} {a : Access} {va n : Nat} {p : Nat × List Nat} (h : (s.xlatePiece c a va n).2 = .ok p) :
    TranslationFrame s (s.xlatePiece c a va n).1 ∧ p.2.length = n := by
  unfold State.xlatePiece at h ⊢
  dsimp only at h ⊢
  split at h
  · cases h
  next hva =>
  rw [if_neg hva]
  split at h
  next hp =>
    split at h
    · cases h
    next hr =>
      cases h
      rw [if_neg hr]
      exact ⟨.refl s, length_addrs ..⟩
  next hp =>
    split at h
    · cases h
    · cases h
    · cases h
    next l hl =>
      split at h
      · cases h
      next hok =>
        cases h
        exact ⟨.pickLeaf s _ _, length_addrs ..⟩

theorem xlate_ok {s : State} {c : XCtx} {a : Access} {va n : Nat} {p : List Nat × List Nat} (h : (s.xlate c a va n).2 = .ok p) :
    TranslationFrame s (s.xlate c a va n).1 ∧ p.2.length = n := by
  unfold State.xlate at h ⊢
  dsimp only at h ⊢
  split at h
  · cases h
  next p1 h1 =>
  obtain ⟨hf1, hl1⟩ := xlatePiece_ok h1
  split at h
  next hn =>
    cases h
    rw [if_pos hn]
    exact ⟨hf1, hl1.trans hn⟩
  next hn =>
    split at h
    · cases h
    next p2 h2 =>
    obtain ⟨hf2, hl2⟩ := xlatePiece_ok h2
    cases h
    rw [if_neg hn]
    exact ⟨hf1.trans hf2, by rw [List.length_append]; omega⟩

/-! ## Harts of agents -/

theorem hart?_scp_eq (s : State) (k : Nat) : s.hart? (.scp k) = (s.task? k).map (·.hart) := by
  unfold State.hart? agentTask
  cases s.task? k <;> rfl

theorem hart?_stoek_eq (s : State) (k n : Nat) : s.hart? (.stoek k n) = (s.program k n).map (·.hart) := by
  unfold State.hart? State.program agentTask
  cases s.task? k <;> rfl

theorem task?_congr {s t : State} (h : t.tasks = s.tasks) (k : Nat) : t.task? k = s.task? k := by rw [State.task?, h]; rfl

theorem program_congr {s t : State} (h : t.tasks = s.tasks) (k n : Nat) : t.program k n = s.program k n := by
  rw [State.program, task?_congr h]; rfl

theorem hart?_congr {s t : State} (h : t.tasks = s.tasks) (ag : Agent) : t.hart? ag = s.hart? ag := by
  rw [State.hart?, task?_congr h]; rfl

theorem runs_congr {s t : State} (h : t.tasks = s.tasks) (ag : Agent) : t.runs ag = s.runs ag := by
  rw [State.runs, task?_congr h]; rfl

theorem HartChanges.of_tasks {s s1 t : State} {ag : Agent} {h' : Hart} (ht : s1.tasks = s.tasks) (hm : SameMemory s s1)
    (h : HartChanges s1 t ag h') : HartChanges s t ag h' := by
  obtain ⟨h1, h2, h3, h4, h5⟩ := h
  exact ⟨h1, fun b hb => (h2 b hb).trans (hart?_congr ht b), fun k => (h3 k).trans (by rw [task?_congr ht]),
    fun k n => (h4 k n).trans (by rw [program_congr ht]), fun a => (h5.1 a).trans (hm.1 a), fun a => (h5.2 a).trans (hm.2 a)⟩

theorem HartChanges.then_tasks {s t u : State} {ag : Agent} {h' : Hart} (h : HartChanges s t ag h') (ht : u.tasks = t.tasks)
    (hm : SameMemory t u) : HartChanges s u ag h' := by
  obtain ⟨h1, h2, h3, h4, h5⟩ := h
  exact ⟨(hart?_congr ht ag).trans h1, fun b hb => (hart?_congr ht b).trans (h2 b hb), fun k => by rw [task?_congr ht, h3 k],
    fun k n => by rw [program_congr ht, h4 k n], fun a => (hm.1 a).trans (h5.1 a), fun a => (hm.2 a).trans (h5.2 a)⟩

theorem putHart_frame (s : State) (ag : Agent) (h : Hart) : { s.putHart ag h with tasks := s.tasks } = s := by
  unfold State.putHart
  split
  · rfl
  · split
    · rfl
    · split <;> rfl

theorem beginOuter_frame (s : State) (ag : Agent) : { s.beginOuter ag with tasks := s.tasks } = s := by
  unfold State.beginOuter
  split
  · rfl
  · split <;> rfl

/-- Pins that a program gives up leave its tag and its hart. -/
theorem unpinned_tag_hart (p : Stoek) : p.unpinned.tag = p.tag ∧ p.unpinned.hart = p.hart := by
  cases h : p.hart.stores.isEmpty <;> cases he : p.ending <;> simp [Stoek.unpinned, h, he]

/-- A program put back, whether it goes on or has ended, has the hart it was given. -/
theorem hart_putStoek {t : Task} {tag : Nat} {p : Stoek} (hp : t.stoek? tag = some p) (h' : Hart) :
    ((t.putStoek { p with hart := h' }).stoek? tag).map (·.hart) = some h' := by
  have htag := stoek?_tag hp
  unfold Task.stoek? at hp
  unfold Task.stoek? Task.putStoek
  have := find?_map_put t.stoeks (Stoek.unpinned { p with hart := h' }) tag
  rw [(unpinned_tag_hart _).1] at this
  rw [this, hp, if_pos ⟨htag.symm, rfl⟩, Option.map_some, (unpinned_tag_hart _).2]

/-- An agent has the hart it was given. -/
theorem hart?_putHart {s : State} {ag : Agent} {h : Hart} (hh : s.hart? ag = some h) (h' : Hart) : (s.putHart ag h').hart? ag = some h' := by
  cases ag with
  | scp k =>
    rw [hart?_scp_eq, Option.map_eq_some_iff] at hh
    obtain ⟨t, ht, -⟩ := hh
    rw [putHart_scp ht, hart?_scp (task?_putTask_same ..)]
  | stoek k tag =>
    rw [hart?_stoek_eq, Option.map_eq_some_iff] at hh
    obtain ⟨p, hp, -⟩ := hh
    obtain ⟨t, ht, hp⟩ := Option.bind_eq_some_iff.1 hp
    have hput : s.putHart (.stoek k tag) h' = s.putTask k (t.putStoek { p with hart := h' }) := by
      simp only [State.putHart, agentTask, ht, hp]
    rw [hput, hart?_stoek_eq, State.program, task?_putTask_same]
    exact hart_putStoek hp h'

/-- What the entries around a Stoek program's become when it performs does not reach the agent's own hart. -/
theorem hart?_beginOuter (s : State) (ag : Agent) : (s.beginOuter ag).hart? ag = s.hart? ag := by
  unfold State.beginOuter
  split
  · rfl
  next k tag =>
    split
    · rfl
    next t ht =>
      rw [hart?_stoek_eq, hart?_stoek_eq, State.program, State.program, task?_putTask_same, ht]
      rfl

/-- Where only the hart of one SCP's task differs, of the machine only that hart differs. -/
theorem onlyHart_of_onlyTask {s t : State} {k : Nat} {u : Task} {h' : Hart} (hu : s.task? k = some u)
    (h : OnlyTask s t k { u with hart := h' }) : OnlyHart s t (.scp k) h' := by
  obtain ⟨hk, hj, hm, hf⟩ := h
  have hprog : ∀ j n, t.program j n = s.program j n := by
    intro j n
    by_cases e : j = k
    · subst e; rw [State.program, State.program, hk, hu]; rfl
    · rw [State.program, State.program, hj j e]
  refine ⟨⟨by rw [hart?_scp_eq, hk]; rfl, fun b hb => ?_, fun j => ?_, fun j n => by rw [hprog], hm⟩, hf⟩
  · cases b with
    | scp j => rw [hart?_scp_eq, hart?_scp_eq, hj j fun e => hb (by rw [e])]
    | stoek j n => rw [hart?_stoek_eq, hart?_stoek_eq, hprog]
  · by_cases e : j = k
    · subst e; rw [hk, hu]; rfl
    · rw [hj j e]

theorem onlyHart_of_onlyProgram {s t : State} {k tag : Nat} {p : Stoek} {h' : Hart} (hp : s.program k tag = some p)
    (h : OnlyProgram s t k tag { p with hart := h' }) : OnlyHart s t (.stoek k tag) h' := by
  obtain ⟨hk, hn, hbare, hj, hm, hf⟩ := h
  have hother : ∀ j n, (j, n) ≠ (k, tag) → t.program j n = s.program j n := by
    intro j n hne
    by_cases e : j = k
    · subst e; exact hn n fun e => hne (by rw [e])
    · rw [State.program, State.program, hj j e]
  have hsup : ∀ {β : Type} (f : Task → β), (∀ u : Task, f { u with stoeks := [] } = f u) → ∀ j, (t.task? j).map f = (s.task? j).map f := by
    intro β f hf j
    by_cases e : j = k
    · subst e
      have := congrArg (Option.map f) hbare
      simpa only [Option.map_map, Function.comp_def, hf] using this
    · rw [hj j e]
  refine ⟨⟨by rw [hart?_stoek_eq, hk]; rfl, fun b hb => ?_, hsup Task.bare fun _ => rfl, fun j n => ?_, hm⟩, hf⟩
  · cases b with
    | scp j => rw [hart?_scp_eq, hart?_scp_eq]; exact hsup (·.hart) (fun _ => rfl) j
    | stoek j n => rw [hart?_stoek_eq, hart?_stoek_eq, hother j n fun e => hb (by cases e; rfl)]
  · by_cases e : (j, n) = (k, tag)
    · cases e; rw [hk, hp]; rfl
    · rw [hother j n e]

/-- An SCP, whether it executes or not, and a Stoek program that runs are given a hart and nothing else changes. -/
theorem onlyHart_putHart_of {s : State} {ag : Agent} {h : Hart} (hh : s.hart? ag = some h)
    (hr : (∃ k, ag = .scp k) ∨ ∃ k tag p, ag = .stoek k tag ∧ s.program k tag = some p ∧ p.ending = .running) (h' : Hart) :
    OnlyHart s (s.putHart ag h') ag h' := by
  obtain ⟨k, rfl⟩ | ⟨k, tag, p, rfl, hp, hrun⟩ := hr
  · rw [hart?_scp_eq, Option.map_eq_some_iff] at hh
    obtain ⟨t, ht, -⟩ := hh
    rw [putHart_scp ht]
    exact onlyHart_of_onlyTask ht (onlyTask_putTask ..)
  · have hp' := hp
    obtain ⟨t, ht, hp⟩ := Option.bind_eq_some_iff.1 hp
    have hput : s.putHart (.stoek k tag) h' = s.putTask k (t.putStoek { p with hart := h' }) := by
      simp only [State.putHart, agentTask, ht, hp]
    rw [hput]
    exact onlyHart_of_onlyProgram hp' (onlyProgram_putStoek ht hp (stoek?_tag hp :) (by simp [Stoek.live, hrun]))

end Sys2Proof.Machine
end

section
/-! SUPPORT. Asking homes for bytes: runs of addresses, transaction numbers, and packets handed to the fabric (R384 to R388). -/

namespace Sys2Proof.Machine

/-! ## Runs and numbers -/

theorem paRuns_bounds (l : List (Nat × Nat)) : ∀ run ∈ paRuns l, run ≠ [] ∧ run.length ≤ l.length := by
  induction l with
  | nil => simp [paRuns]
  | cons x l ih =>
    have hcons : ∀ run ∈ [x] :: paRuns l, run ≠ [] ∧ run.length ≤ (x :: l).length := by
      rw [List.forall_mem_cons]
      exact ⟨⟨List.cons_ne_nil _ _, by simp⟩, fun run hrun => ⟨(ih run hrun).1, (ih run hrun).2.trans (by simp)⟩⟩
    unfold paRuns
    split
    next y run more hruns =>
      split
      · rw [hruns, List.forall_mem_cons] at ih
        rw [hruns, List.forall_mem_cons, List.forall_mem_cons] at hcons
        rw [List.forall_mem_cons]
        exact ⟨⟨List.cons_ne_nil _ _, Nat.succ_le_succ ih.1.2⟩, hcons.2.2⟩
      · rw [← hruns]; exact hcons
    · exact hcons

theorem not_mem_of_freshTx {used : List (BitVec 16)} {n : Nat} {id x : BitVec 16} (h : freshTx used n id = some x) : x ∉ used := by
  induction n generalizing id with
  | zero => cases h
  | succ n ih =>
    rw [freshTx] at h
    split at h
    · exact ih h
    next hc => cases h; simpa using hc

theorem mem_of_freshTx_none {used : List (BitVec 16)} {n i : Nat} {id : BitVec 16} (h : freshTx used n id = none) (hi : i < n) :
    id + BitVec.ofNat 16 i ∈ used := by
  induction n generalizing id i with
  | zero => omega
  | succ n ih =>
    rw [freshTx] at h
    split at h
    next hc =>
      cases i with
      | zero => simpa using hc
      | succ i =>
        have := ih h (Nat.lt_of_succ_lt_succ hi)
        rwa [BitVec.add_assoc, show (1 : BitVec 16) = BitVec.ofNat 16 1 from rfl, ← BitVec.ofNat_add, Nat.add_comm 1 i] at this
    · cases h

/-- R384: where no number is free, all 65,536 are in use. -/
theorem forall_mem_of_freshTx_none {used : List (BitVec 16)} {id : BitVec 16} (h : freshTx used 65536 id = none) (x : BitVec 16) :
    x ∈ used := by
  have := mem_of_freshTx_none h (i := (x - id).toNat) (x - id).isLt
  rwa [BitVec.ofNat_toNat, BitVec.setWidth_eq, BitVec.add_comm, BitVec.sub_add_cancel] at this

/-! ## What requests change -/

/-- A state with the fabric of another, and with its tasks and what a translation may touch as they are there. -/
def State.withRequestsOf (t s : State) : State :=
  { t with tasks := s.tasks, tlb := s.tlb, freeCtr := s.freeCtr, pregs := s.pregs, ms := { t.ms with ecc := s.ms.ecc }, fab := s.fab }

namespace SameButRequests

variable {s t u : State}

theorem trans (h1 : SameButRequests s t) (h2 : SameButRequests t u) : SameButRequests s u := by
  have h1' : t.withRequestsOf s = s := h1.2
  have h2' : u.withRequestsOf t = t := h2.2
  have h : (u.withRequestsOf t).withRequestsOf s = u.withRequestsOf s := rfl
  exact ⟨h1.1.trans h2.1, show u.withRequestsOf s = s by rw [← h, h2', h1']⟩

theorem of_sameButTranslation (h : SameButTranslation s t) : SameButRequests s t := by
  have h' : t.withTranslationOf s = s := h.2
  have hfab : t.withRequestsOf s = { t.withTranslationOf s with fab := s.fab } := rfl
  exact ⟨h.1, show t.withRequestsOf s = s by rw [hfab, h']⟩

end SameButRequests

/-- Of a state only its fabric and its counter of free choices differ. -/
def OnlyFabric (s t : State) : Prop := { t with fab := s.fab, freeCtr := s.freeCtr } = s

namespace OnlyFabric

variable {s t u : State}

theorem refl (s : State) : OnlyFabric s s := rfl

theorem trans (h1 : OnlyFabric s t) (h2 : OnlyFabric t u) : OnlyFabric s u := by
  have h : ({ ({ u with fab := t.fab, freeCtr := t.freeCtr } : State) with fab := s.fab, freeCtr := s.freeCtr } : State) =
      { u with fab := s.fab, freeCtr := s.freeCtr } := rfl
  exact h.symm.trans (by rw [show ({ u with fab := t.fab, freeCtr := t.freeCtr } : State) = t from h2]; exact h1)

/-- A field that is neither the fabric nor the counter is as before. -/
theorem field {β : Type} (h : OnlyFabric s t) (f : State → β) (hf : ∀ x : State, f { x with fab := s.fab, freeCtr := s.freeCtr } = f x) :
    f t = f s :=
  (hf t).symm.trans (congrArg f (show ({ t with fab := s.fab, freeCtr := s.freeCtr } : State) = s from h))

theorem tasks (h : OnlyFabric s t) : t.tasks = s.tasks := h.field State.tasks fun _ => rfl

theorem sameMemory (h : OnlyFabric s t) : SameMemory s t :=
  ⟨fun a => h.field (fun x => rdByte x.mem a) fun _ => rfl, fun a => h.field (fun x => rdByte x.hmem a) fun _ => rfl⟩

theorem sameRegisters (h : OnlyFabric s t) : SameRegisters s t := fun n _ => h.field (fun x => x.preg n) fun _ => rfl

theorem sameButRequests (h : OnlyFabric s t) : SameButRequests s t := by
  refine ⟨h.sameRegisters, ?_⟩
  have h' : t.withRequestsOf s = State.withRequestsOf { t with fab := s.fab, freeCtr := s.freeCtr } s := rfl
  show t.withRequestsOf s = s
  rw [h', show ({ t with fab := s.fab, freeCtr := s.freeCtr } : State) = s from h]
  rfl

end OnlyFabric

/-! ## Sending -/

/-- R386, R387: a packet of this package goes to the port of its best hop, or waits for a path. -/
theorem onFabric_toFabric (s : State) (p : Packet) :
    OnFabric s (s.toFabric { pkt := p, port := none }) p ∧ OnlyFabric s (s.toFabric { pkt := p, port := none }) ∧
      (s.toFabric { pkt := p, port := none }).fab.txns = s.fab.txns ∧ (s.toFabric { pkt := p, port := none }).fab.unsent = s.fab.unsent ∧
      (s.toFabric { pkt := p, port := none }).fab.pinc = s.fab.pinc := by
  have hwait : OnFabric s (s.holdPacket { pkt := p, port := none }) p := .inl ⟨rfl, fun _ => rfl⟩
  unfold State.toFabric State.route?
  split
  · dsimp only
    split
    · exact ⟨hwait, rfl, rfl, rfl, rfl⟩
    next x _ =>
      refine ⟨.inr ⟨x.port, p.stage || x.glob, ?_, fun j hj => ?_, rfl⟩, rfl, rfl, rfl, rfl⟩
      · exact tget_tset_same ..
      · exact tget_tset_other _ _ _ hj
  · exact ⟨hwait, rfl, rfl, rfl, rfl⟩

theorem startTxn_onlyFabric (s : State) (x : Txn) : OnlyFabric s (s.startTxn x) := by
  unfold State.startTxn
  split
  · rfl
  next id _ =>
    exact OnlyFabric.trans (rfl : OnlyFabric s { s with fab := { s.fab with nextTx := id + 1, txns := _ } }) (onFabric_toFabric _ _).2.1

/-- A transaction under a number. -/
def Txn.numbered (x : Txn) (id : BitVec 16) : Txn := { x with txid := id, pkt := { x.pkt with txid := id } }

/-- R384, R388: a transaction goes out under a number that is free, or waits while there is none. -/
theorem startTxn_sends (s : State) (x : Txn) :
    (∃ id, (∀ z ∈ s.fab.txns, z.txid ≠ id) ∧ (s.startTxn x).fab.txns = s.fab.txns ++ [x.numbered id] ∧
      (s.startTxn x).fab.unsent = s.fab.unsent ∧ (s.startTxn x).fab.pinc = s.fab.pinc ∧ OnFabric s (s.startTxn x) (x.numbered id).pkt) ∨
    (∀ n : BitVec 16, ∃ z ∈ s.fab.txns, z.txid = n) ∧ (s.startTxn x).fab = { s.fab with unsent := s.fab.unsent ++ [x] } := by
  unfold State.startTxn
  split
  next hfull =>
    refine .inr ⟨fun n => ?_, rfl⟩
    obtain ⟨z, hz, hn⟩ := List.mem_map.1 (forall_mem_of_freshTx_none hfull n)
    exact ⟨z, hz, hn⟩
  next id hid =>
    obtain ⟨hon, -, htx, hun, hpinc⟩ := onFabric_toFabric
      { s with fab := { s.fab with nextTx := id + 1, txns := s.fab.txns ++ [x.numbered id] } } (x.numbered id).pkt
    exact .inl ⟨id, fun z hz he => not_mem_of_freshTx hid (List.mem_map.2 ⟨z, hz, he⟩), htx, hun, hpinc, hon⟩

/-! ## Asking -/

/-- The request for n bytes from a virtual and physical address on. -/
def State.askTxn (s : State) (owner : TxFor) (a : Nat × Nat) (n : Nat) : Txn :=
  { va := a.1, txid := 0, pkt := s.mkPacket (a.2 / 2 ^ 40) 0 0 0 (a.2 % 2 ^ 40 + (n - 1) * 2 ^ 40) [], owner := owner }

/-- The home of one run of bytes is asked for them. -/
def State.askHome (s : State) (owner : TxFor) (run : List (Nat × Nat)) : State :=
  s.openTxn owner (run.headD (0, 0)).1 ((run.headD (0, 0)).2 / 2 ^ 40) 0 0
    ((run.headD (0, 0)).2 % 2 ^ 40 + (run.length - 1) * 2 ^ 40) []

theorem requestBytes_eq (s : State) (owner : TxFor) (pas : List (Nat × Nat)) :
    s.requestBytes owner pas = (paRuns (pas.filter (fun p => p.2 / 2 ^ 40 ≠ s.rank))).foldl (fun a run => a.askHome owner run) s := rfl

theorem askHome_onlyFabric (s : State) (owner : TxFor) (run : List (Nat × Nat)) : OnlyFabric s (s.askHome owner run) :=
  startTxn_onlyFabric _ _

theorem homeAsked_askHome (s : State) (owner : TxFor) {run : List (Nat × Nat)} (hne : run ≠ []) (hlen : run.length ≤ 2 ^ 64) :
    HomeAsked s (s.askHome owner run) owner run := by
  obtain ⟨a, rest, rfl⟩ := List.exists_cons_of_ne_nil hne
  have hbody : (BitVec.ofNat 192 (a.2 % 2 ^ 40 + ((a :: rest).length - 1) * 2 ^ 40)).toNat = a.2 % 2 ^ 40 + ((a :: rest).length - 1) * 2 ^ 40 := by
    rw [BitVec.toNat_ofNat]
    exact Nat.mod_eq_of_lt (by omega)
  have hsrank : (BitVec.ofNat 12 s.rank).toNat = s.rank := by
    rw [BitVec.toNat_ofNat]
    exact Nat.mod_eq_of_lt (Nat.mod_lt _ (by decide))
  rcases startTxn_sends s (s.askTxn owner a (a :: rest).length) with ⟨id, h⟩ | h
  · exact ⟨a, (s.askTxn owner a (a :: rest).length).numbered id, rfl, rfl, rfl, BitVec.toNat_ofNat .., rfl, hsrank, BitVec.toNat_ofNat ..,
      rfl, rfl, rfl, rfl, rfl, hbody, .inl h⟩
  · exact ⟨a, s.askTxn owner a (a :: rest).length, rfl, rfl, rfl, BitVec.toNat_ofNat .., rfl, hsrank, BitVec.toNat_ofNat ..,
      rfl, rfl, rfl, rfl, rfl, hbody, .inr h⟩

theorem foldl_askHome_onlyFabric (owner : TxFor) (runs : List (List (Nat × Nat))) (s : State) :
    OnlyFabric s (runs.foldl (fun a run => a.askHome owner run) s) := by
  induction runs generalizing s with
  | nil => exact .refl s
  | cons r rs ih => exact (askHome_onlyFabric s owner r).trans (ih _)

theorem homesAsked_foldl (owner : TxFor) {runs : List (List (Nat × Nat))} (h : ∀ run ∈ runs, run ≠ [] ∧ run.length ≤ 2 ^ 64) (s : State) :
    HomesAsked s (runs.foldl (fun a run => a.askHome owner run) s) owner runs := by
  induction runs generalizing s with
  | nil => rfl
  | cons r rs ih =>
    rw [List.forall_mem_cons] at h
    exact ⟨_, homeAsked_askHome s owner h.1.1 h.1.2, (askHome_onlyFabric s owner r).sameRegisters, ih h.2 _⟩

/-- What was asked is told by the fabric and the registers that it started from. -/
theorem HomesAsked.of_fab {s s1 t : State} {owner : TxFor} {runs : List (List (Nat × Nat))} (hf : s1.fab = s.fab) (hr : SameRegisters s s1)
    (h : HomesAsked s1 t owner runs) : HomesAsked s t owner runs := by
  cases runs with
  | nil => exact h.trans hf
  | cons r rs =>
    obtain ⟨m, hask, hregs, hrest⟩ := h
    refine ⟨m, ?_, hr.trans hregs, hrest⟩
    have hrank : s1.rank = s.rank := by rw [State.rank, hr _ (by decide)]; rfl
    simpa only [HomeAsked, OnFabric, State.link, hf, hrank, hr 0x682 (by decide)] using hask

end Sys2Proof.Machine
end

section
/-! Loads and stores enter their queues (O14). -/

namespace Sys2Proof.Machine

/-! ## What issue leaves -/

/-- A hart after a load was issued: its entry is last in the load queue. -/
def Hart.withLoad (h : Hart) (sp : Space) (sz : Sz) (sx : Bool) (ord : Ord) (d : Reg) (ea : Word) (pas : List Nat) : Hart :=
  { h with po := h.po + 1, pc := h.pc + 4, loads := h.loads ++
      [{ po := h.po, acq := ordAcq ord, rel := ordRel ord, begun := false,
         kind := .scalar { space := sp, sz := sz, sx := sx, d := d, va := ea, pas := pas, pc := h.pc, got := [] } }] }

/-- A hart after a store or an atomic was issued: its entry is last in the store queue. -/
def Hart.withStore (h : Hart) (ord : Ord) (kind : StoreKind) : Hart :=
  { h with po := h.po + 1, pc := h.pc + 4, stores := h.stores ++
      [{ po := h.po, acq := ordAcq ord, rel := ordRel ord, begun := false, atK := false, kind := kind }] }

/-- After a translation, giving the agent another hart changes that hart and what the translation touched. -/
theorem putHart_after_translation {s s1 : State} {ag : Agent} {h : Hart} (hx : Executes s ag h) (hf : TranslationFrame s s1) (h' : Hart) :
    HartChanges s (s1.putHart ag h') ag h' ∧ SameButTranslation s (s1.putHart ag h') := by
  obtain ⟨hput, hframe⟩ := onlyHart_putHart (s := s1) ((runs_congr hf.tasks ag).trans hx.2.1) ((hart?_congr hf.tasks ag).trans hx.2.2) h'
  exact ⟨hput.of_tasks hf.tasks hf.same.sameMemory, hf.same.trans (.of_tasks hframe)⟩

theorem translated_ok {α : Type} {s : State} {ag : Agent} {h : Hart} {r : State × Res α} {a : α} (hr : r.2 = .ok a) (k : State → α → Out) :
    s.translated ag h r k = k r.1 a := by
  rw [State.translated, hr]

theorem Executes.scpExecutes {s : State} {k : Nat} {h : Hart} (hx : Executes s (.scp k) h) : ∃ t, ScpExecutes s k t ∧ t.hart = h := by
  obtain ⟨hf, hr, hh⟩ := hx
  rw [hart?_scp_eq, Option.map_eq_some_iff] at hh
  obtain ⟨t, ht, rfl⟩ := hh
  exact ⟨t, ⟨hf, ht, by rwa [runs_scp ht] at hr⟩, rfl⟩

/-! ## Package and host memory -/

section

variable {s : State} {ag : Agent} {h : Hart} {sp : Space} {sz : Sz} {sx : Bool} {ord : Ord} {p : List Nat × List Nat}

theorem issueLoad_enters {d a : Reg} {imm : BitVec 11} (hx : Executes s ag h) (hr : h.ready [d, a] = true)
    (hp : (s.xlate (s.xctx ag) { space := sp, r := true, w := false, x := false } (h.ea a imm).toNat (szBytes sz)).2 = .ok p) :
    ∃ t h', issueLoad ag h sp sz sx ord d a imm s = .next t ∧ HartChanges s t ag h' ∧ SameButTranslation s t ∧
      h' = h.withLoad sp sz sx ord d (h.ea a imm) p.2 := by
  obtain ⟨hch, hsame⟩ := putHart_after_translation hx (xlate_ok hp).1 (h.withLoad sp sz sx ord d (h.ea a imm) p.2)
  refine ⟨_, _, ?_, hch, hsame, rfl⟩
  simp only [issueLoad, hr, translated_ok hp, Bool.not_true, Bool.false_eq_true, if_false]
  rfl

theorem issueStore_enters {r a : Reg} {imm : BitVec 12} (hx : Executes s ag h) (hr : h.ready [r, a] = true)
    (hp : (s.xlate (s.xctx ag) { space := sp, r := false, w := true, x := false } (h.ea a imm).toNat (szBytes sz)).2 = .ok p) :
    ∃ t h', issueStore ag h sp sz ord r a imm s = .next t ∧ HartChanges s t ag h' ∧ SameButTranslation s t ∧
      h' = h.withStore ord (.store sp (h.ea a imm) p.2 (leBytes (szBytes sz) (h.x r).toNat) h.pc) := by
  obtain ⟨hch, hsame⟩ := putHart_after_translation hx (xlate_ok hp).1
    (h.withStore ord (.store sp (h.ea a imm) p.2 (leBytes (szBytes sz) (h.x r).toNat) h.pc))
  refine ⟨_, _, ?_, hch, hsame, rfl⟩
  simp only [issueStore, hr, translated_ok hp, Bool.not_true, Bool.false_eq_true, if_false]
  rfl

end

/-! ## The pod -/

section

variable {s : State} {k : Nat} {t : Task} {sz : Sz} {sx : Bool} {ord : Ord} {p : List Nat × List Nat}

theorem exec_ldg {d a : Reg} {imm : BitVec 11} (hx : ScpExecutes s k t) (hr : t.hart.ready [d, a] = true) {x : State × Res (List Nat × List Nat)}
    (hq : s.xlate (s.xctx (.scp k)) { space := .pod, r := true, w := false, x := false } (t.hart.ea a imm).toNat (szBytes sz) = x)
    (hp : x.2 = .ok p) :
    exec (.ldg sz sx ord d a imm) s =
      let s2 := x.1.putHart (.scp k) (t.hart.withLoad .pod sz sx ord d (t.hart.ea a imm) p.2)
      .next (if t.arrived then s2 else s2.requestBytes (.load (.scp k) t.hart.po) ((addrs (t.hart.ea a imm).toNat p.2.length).zip p.2)) := by
  show execLdg sz sx ord d a imm s = _
  rw [execLdg, onScp_of hx]
  simp only [hr, hq, translated_ok hp, Bool.not_true, Bool.false_eq_true, if_false]
  rfl

theorem ldg_enters {d a : Reg} {imm : BitVec 11} (hx : ScpExecutes s k t) (hr : t.hart.ready [d, a] = true)
    (hp : (s.xlate (s.xctx (.scp k)) { space := .pod, r := true, w := false, x := false } (t.hart.ea a imm).toNat (szBytes sz)).2 = .ok p) :
    ∃ u h', exec (.ldg sz sx ord d a imm) s = .next u ∧ HartChanges s u (.scp k) h' ∧ SameButRequests s u ∧
      ((∃ v, s.task? k = some v ∧ v.arrived = true) → SameButTranslation s u) ∧
      ((∀ pa ∈ p.2, pa / 2 ^ 40 = s.rank) → SameButTranslation s u) ∧
      ((∃ v, s.task? k = some v ∧ v.arrived = false) → HomesAsked s u (.load (.scp k) t.hart.po)
        (paRuns (((addrs (t.hart.ea a imm).toNat p.2.length).zip p.2).filter (fun x => x.2 / 2 ^ 40 ≠ s.rank)))) ∧
      h' = t.hart.withLoad .pod sz sx ord d (t.hart.ea a imm) p.2 := by
  obtain ⟨hframe, hlen⟩ := xlate_ok hp
  obtain ⟨hch, hsame⟩ := putHart_after_translation hx.executes hframe (t.hart.withLoad .pod sz sx ord d (t.hart.ea a imm) p.2)
  have hexec := exec_ldg (sx := sx) (ord := ord) hx hr rfl hp
  generalize State.putHart _ _ _ = s2 at hch hsame hexec
  have htask : ∀ {b}, (∃ v, s.task? k = some v ∧ v.arrived = b) → t.arrived = b := by
    rintro b ⟨v, hv, hb⟩
    rwa [hx.2.1, Option.some_inj.1 hv] at *
  cases harr : t.arrived with
  | true =>
    rw [harr] at hexec htask
    exact ⟨_, _, hexec, hch, .of_sameButTranslation hsame, fun _ => hsame, fun _ => hsame, fun h => absurd (htask h) (by decide), rfl⟩
  | false =>
    rw [harr] at hexec htask
    simp only [Bool.false_eq_true, if_false, requestBytes_eq, hsame.rank] at hexec
    have honly := foldl_askHome_onlyFabric (.load (.scp k) t.hart.po)
      (paRuns (((addrs (t.hart.ea a imm).toNat p.2.length).zip p.2).filter (fun x => x.2 / 2 ^ 40 ≠ s.rank))) s2
    refine ⟨_, _, hexec, hch.then_tasks honly.tasks honly.sameMemory, (SameButRequests.of_sameButTranslation hsame).trans honly.sameButRequests,
      fun h => absurd (htask h) (by decide), fun hown => ?_, fun _ => ?_, rfl⟩
    · rw [List.filter_eq_nil_iff.2 fun x hx => by simpa using hown x.2 (List.of_mem_zip hx).2]
      exact hsame
    · refine (homesAsked_foldl _ (fun run hrun => ?_) s2).of_fab hsame.fab hsame.1
      obtain ⟨hne, hle⟩ := paRuns_bounds _ run hrun
      refine ⟨hne, hle.trans ((List.length_filter_le _ _).trans ?_)⟩
      have : szBytes sz ≤ 8 := by cases sz <;> decide
      rw [List.length_zip, length_addrs, hlen]
      omega

theorem stg_enters {r a : Reg} {imm : BitVec 12} {need : Nat} (hx : ScpExecutes s k t) (hr : t.hart.ready [r, a] = true)
    (hp : (s.xlate (s.xctx (.scp k)) { space := .pod, r := false, w := true, x := false } (t.hart.ea a imm).toNat (szBytes sz)).2 = .ok p)
    (hneed : need = 32 * (paRuns ((addrs (t.hart.ea a imm).toNat (szBytes sz)).zip p.2)).length)
    (hmerge : ∀ pte ∈ p.1, mergeOk pte (szBytes sz) (t.hart.ea a imm).toNat = true) (hroom : s.apronRoom need = true) :
    ∃ u h', exec (.stg sz ord r a imm) s = .next u ∧ HartChanges s u (.scp k) h' ∧ SameButTranslation s u ∧
      h' = t.hart.withStore ord (.stg (t.hart.ea a imm) p.2 (leBytes (szBytes sz) (t.hart.x r).toNat)
        (byteLeaves p.1 (t.hart.ea a imm).toNat (szBytes sz)) need) := by
  have hframe := (xlate_ok hp).1
  obtain ⟨hch, hsame⟩ := putHart_after_translation hx.executes hframe (t.hart.withStore ord (.stg (t.hart.ea a imm) p.2
    (leBytes (szBytes sz) (t.hart.x r).toNat) (byteLeaves p.1 (t.hart.ea a imm).toNat (szBytes sz)) need))
  refine ⟨_, _, ?_, hch, hsame, rfl⟩
  have hroom1 : ∀ s1, TranslationFrame s s1 → s1.apronRoom need = true := fun s1 h1 => by
    rw [State.apronRoom, State.apronUsed, h1.tasks, h1.same.outbound, h1.same.1 _ (by decide)]
    exact hroom
  have hall : (p.1.all fun pte => mergeOk pte (szBytes sz) (t.hart.ea a imm).toNat) = true := List.all_eq_true.2 hmerge
  show execStg sz ord r a imm s = _
  rw [execStg, onScp_of hx]
  simp only [hr, translated_ok hp, hall, ← hneed, hroom1 _ hframe, Bool.not_true, Bool.false_eq_true, if_false]
  rfl

end

/-- Settles O14: each word translates, and then gives its agent a hart with one entry more; an LDG outside the kerf asks the homes too. -/
theorem loadsAndStoresEnterTheirQueues : Obligations.LoadsAndStoresEnterTheirQueues := by
  unfold Obligations.LoadsAndStoresEnterTheirQueues
  constructor
  · rintro s ag h sz sx ord d a imm ea hx hr rfl
    refine ⟨fun p hp => ?_, ?_, ?_⟩
    · rw [show exec (.ldp sz sx ord d a imm) s = issueLoad ag h .package sz sx ord d a imm s from
        onHart_of hx fun ag h => issueLoad ag h .package sz sx ord d a imm s]
      exact issueLoad_enters hx hr hp
    · rintro k p rfl hp
      obtain ⟨t, ht, rfl⟩ := hx.scpExecutes
      rw [show exec (.ldh sz sx ord d a imm) s = issueLoad (.scp k) t.hart .host sz sx ord d a imm s from onScp_of ht _]
      exact issueLoad_enters hx hr hp
    · rintro k p rfl hp
      obtain ⟨t, ht, rfl⟩ := hx.scpExecutes
      exact ldg_enters ht hr hp
  · rintro s ag h sz ord r a imm ea hx hr rfl
    refine ⟨fun p hp => ?_, ?_, ?_⟩
    · rw [show exec (.stp sz ord r a imm) s = issueStore ag h .package sz ord r a imm s from
        onHart_of hx fun ag h => issueStore ag h .package sz ord r a imm s]
      exact issueStore_enters hx hr hp
    · rintro k p rfl hp
      obtain ⟨t, ht, rfl⟩ := hx.scpExecutes
      rw [show exec (.sth sz ord r a imm) s = issueStore (.scp k) t.hart .host sz ord r a imm s from onScp_of ht _]
      exact issueStore_enters hx hr hp
    · rintro k p need rfl hp hneed hmerge hroom
      obtain ⟨t, ht, rfl⟩ := hx.scpExecutes
      exact stg_enters ht hr hp hneed hmerge hroom

end Sys2Proof.Machine
end

section
/-! Loads bind the bytes of memory and of older stores (O15). -/

namespace Sys2Proof.Machine

/-! ## Forwarding (R105) -/

/-- The byte that one store entry forwards to a load at a place in program order. -/
def StoreEntry.forwards (e : StoreEntry) (sp : Space) (pa po : Nat) : Option Byte :=
  match e.kind with
  | .store sp' _ pas data _ =>
    if sp' = sp && decide (e.po < po) && !e.atK then ((pas.zip data).reverse.find? (fun w => w.1 = pa)).map (·.2) else none
  | _ => none

theorem forwards_iff (e : StoreEntry) (sp : Space) (pa po : Nat) (b : Byte) : e.forwards sp pa po = some b ↔ e.Gives sp pa po b := by
  have hfind : ∀ l : List (Nat × Byte), (l.reverse.find? (fun w => w.1 = pa)).map (·.2) = some b ↔
      ∃ x y, l = x ++ (pa, b) :: y ∧ ∀ w ∈ y, w.1 ≠ pa := by
    intro l
    constructor
    · intro h
      obtain ⟨⟨a, c⟩, hw, rfl⟩ := Option.map_eq_some_iff.1 h
      obtain ⟨ha, x, y, hl, hx⟩ := List.find?_eq_some_iff_append.1 hw
      obtain rfl : a = pa := by simpa using ha
      refine ⟨y.reverse, x.reverse, ?_, fun w hw => by simpa using hx w (List.mem_reverse.1 hw)⟩
      rw [← List.reverse_reverse l, hl]
      simp
    · rintro ⟨x, y, rfl, hy⟩
      rw [Option.map_eq_some_iff]
      refine ⟨(pa, b), List.find?_eq_some_iff_append.2 ⟨by simp, y.reverse, x.reverse, by simp, fun w hw => ?_⟩, rfl⟩
      simpa using hy w (List.mem_reverse.1 hw)
  unfold StoreEntry.forwards StoreEntry.Gives
  cases hk : e.kind with
  | store sp' va pas data pc =>
    dsimp only
    split
    next hc =>
      obtain ⟨⟨rfl, hpo⟩, hatK⟩ : (sp' = sp ∧ e.po < po) ∧ e.atK = false := by simpa using hc
      rw [hfind]
      constructor
      · rintro ⟨x, y, hz, hy⟩
        exact ⟨hpo, hatK, va, pas, data, pc, x, y, rfl, hz, hy⟩
      · rintro ⟨-, -, va', pas', data', pc', x, y, hkind, hz, hy⟩
        cases hkind
        exact ⟨x, y, hz, hy⟩
    next hc =>
      refine ⟨nofun, ?_⟩
      rintro ⟨hpo, hatK, va', pas', data', pc', x, y, hkind, -, -⟩
      cases hkind
      simp [hpo, hatK] at hc
  | _ => exact ⟨nofun, fun ⟨_, _, _, _, _, _, _, _, hkind, _⟩ => nomatch hkind⟩

theorem forwardByte_cons (sp : Space) (pa po : Nat) (e : StoreEntry) (r : List StoreEntry) :
    forwardByte sp pa po (e :: r) = (forwardByte sp pa po r).or (e.forwards sp pa po) := by
  rw [forwardByte]
  cases forwardByte sp pa po r <;> rfl

theorem forwardByte_eq_none {sp : Space} {pa po : Nat} {l : List StoreEntry} (h : ∀ x ∈ l, ∀ c, ¬x.Gives sp pa po c) :
    forwardByte sp pa po l = none := by
  induction l with
  | nil => rfl
  | cons x l ih =>
    rw [List.forall_mem_cons] at h
    rw [forwardByte_cons, ih h.2, Option.none_or, Option.eq_none_iff_forall_ne_some]
    exact fun c hc => h.1 c ((forwards_iff ..).1 hc)

/-- The youngest store that forwards decides. -/
theorem forwardByte_of_youngest {sp : Space} {pa po : Nat} {pre post : List StoreEntry} {e : StoreEntry} {b : Byte}
    (he : e.Gives sp pa po b) (hpost : ∀ x ∈ post, ∀ c, ¬x.Gives sp pa po c) : forwardByte sp pa po (pre ++ e :: post) = some b := by
  induction pre with
  | nil => rw [List.nil_append, forwardByte_cons, forwardByte_eq_none hpost, (forwards_iff ..).2 he, Option.none_or]
  | cons x pre ih => rw [List.cons_append, forwardByte_cons, ih, Option.some_or]

/-! ## The bytes and the value of a load (R105, R106, R195) -/

theorem loadByte_of_bindsByte {s : State} {h : Hart} {po : Nat} {l : ScalarLoad} {pa : Nat} {b : Byte} (hb : BindsByte s h po l pa b) :
    s.loadByte h po l pa = b := by
  rcases hb with ⟨hpod, rfl⟩ | ⟨hpod, pre, e, post, hst, he, hpost⟩ | ⟨hpod, hnone, rfl⟩
  · simp only [State.loadByte, hpod]
  · have := forwardByte_of_youngest (pre := pre) he hpost
    rw [← hst] at this
    cases hsp : l.space with
    | pod => exact absurd hsp hpod
    | package => rw [hsp] at this; simp only [State.loadByte, hsp, this, Option.getD_some]
    | host => rw [hsp] at this; simp only [State.loadByte, hsp, this, Option.getD_some]
  · have := forwardByte_eq_none hnone
    cases hsp : l.space with
    | pod => exact absurd hsp hpod
    | package => rw [hsp] at this; simp [State.loadByte, hsp, this]
    | host => rw [hsp] at this; simp [State.loadByte, hsp, this]

theorem map_loadByte {s : State} {h : Hart} {po : Nat} {l : ScalarLoad} {bytes : List Byte} (hlen : bytes.length = l.pas.length)
    (hb : ∀ x ∈ l.pas.zip bytes, BindsByte s h po l x.1 x.2) : l.pas.map (s.loadByte h po l) = bytes := by
  calc l.pas.map (s.loadByte h po l)
      = (l.pas.zip bytes).map (fun x => s.loadByte h po l x.1) := by
        conv_lhs => rw [← List.map_fst_zip (l₂ := bytes) hlen.ge]
        rw [List.map_map]
        rfl
    _ = (l.pas.zip bytes).map Prod.snd := List.map_congr_left fun x hx => loadByte_of_bindsByte (hb x hx)
    _ = bytes := List.map_snd_zip hlen.le

theorem extendLoad_eq (sz : Sz) (sx : Bool) (v : Nat) : extendLoad sz sx v =
    if sx then (BitVec.ofNat (8 * szBytes sz) v).signExtend 64 else BitVec.ofNat 64 v := by
  cases sx <;> rfl

/-! ## Binding (R102) -/

theorem findLoad_some {h : Hart} {po : Nat} {e : LoadEntry} {l : ScalarLoad} (hf : h.findLoad po = some (e, l)) :
    e.po = po ∧ e.kind = .scalar l := by
  unfold Hart.findLoad at hf
  split at hf
  next x hx =>
    split at hf
    next l' hk =>
      cases hf
      have := List.find?_some hx
      simp only [Bool.and_eq_true, decide_eq_true_eq] at this
      exact ⟨this.1, hk⟩
    · cases hf
  · cases hf

/-- R102, R108, R109: nothing holds back the oldest load of an SCP that no MARK, acquire or release of its own orders. -/
theorem loadReady_oldest {s : State} {k : Nat} {h : Hart} {e : LoadEntry} {l : ScalarLoad} (hk : e.kind = .scalar l) (hsp : l.space ≠ .pod)
    (hhead : h.loads.head? = some e) (hmarks : h.marks = []) (hrel : e.rel = false) (hloads : ∀ x ∈ h.loads, x.acq = false ∨ e.po ≤ x.po)
    (hstores : ∀ x ∈ h.stores, x.acq = false ∨ e.po ≤ x.po) : s.loadReady (.scp k) h e l = true := by
  have hturn : h.loadTurn e.po = true := by
    obtain ⟨rest, hl⟩ := List.head?_eq_some_iff.1 hhead
    simp [Hart.loadTurn, hl, loadsAhead, hk]
  have hnone : ∀ {po : Nat} {acq : Bool}, acq = false ∨ e.po ≤ po → (decide (po < e.po) && acq) = false := by
    rintro po acq (rfl | h)
    · exact Bool.and_false _
    · rw [decide_eq_false (Nat.not_lt.2 h), Bool.false_and]
  have hl : h.loads.any (fun x => decide (x.po < e.po) && x.acq) = false :=
    List.any_eq_false.2 fun x hx => by rw [hnone (hloads x hx)]; exact Bool.false_ne_true
  have hs : h.stores.any (fun x => decide (x.po < e.po) && x.acq) = false :=
    List.any_eq_false.2 fun x hx => by rw [hnone (hstores x hx)]; exact Bool.false_ne_true
  simp [State.loadReady, State.outerLoad, Hart.mayGo, hturn, hmarks, hl, hs, hrel, hsp]

theorem readLocal_good {s : State} (hgood : ∀ u, s.badUnit u = false) (las : List Nat) : (s.readLocal las).2.2 = none := by
  rw [readLocal_bad, List.find?_eq_none]
  intro a _
  rw [hgood]
  exact Bool.false_ne_true

theorem poisonedAt_none {s : State} (hpoison : s.host.poison = []) (has : List Nat) : s.poisonedAt has = none := by
  simp [State.poisonedAt, hpoison]

/-- The hart of a load that has bound. -/
def Hart.bound (h : Hart) (extra : List Nat) (e : LoadEntry) (l : ScalarLoad) (bytes : List Byte) : Hart :=
  ((h.dropLoad e.po).prune extra).setX l.d (extendLoad l.sz l.sx (leNat bytes))

theorem exec_loadBind {s : State} {ag : Agent} {h : Hart} {po : Nat} {e : LoadEntry} {l : ScalarLoad} {bytes : List Byte}
    (hh : s.hart? ag = some h) (hf : h.findLoad po = some (e, l)) (hready : s.loadReady ag h e l = true) (hgood : ∀ u, s.badUnit u = false)
    (hpoison : s.host.poison = []) (hbytes : l.pas.map (s.loadByte h e.po l) = bytes) :
    exec (.loadBind ag po) s =
      .next ((s.readLocal (s.loadLocal h e.po l)).1.putHart ag (h.bound (s.streamPos ag) e l bytes)) := by
  have hnone : s.loadError h e.po l = none := by
    rw [State.loadError, readLocal_good hgood]
    exact poisonedAt_none hpoison _
  show execLoadBind ag po s = _
  simp only [execLoadBind, hh, hf, hready, if_true, State.bindLoad, hnone, hbytes, Hart.bound]

/-- Settles O15: with its bytes and its turn, the load's hart is given to its agent in the state that the read of its bytes leaves. -/
theorem loadsBindTheirBytes : Obligations.LoadsBindTheirBytes := by
  unfold Obligations.LoadsBindTheirBytes
  intro s ag h po e l bytes hh hf hturn hgood hpoison hlen hb
  have hready : s.loadReady ag h e l = true := by
    rcases hturn with hready | ⟨⟨k, rfl⟩, hsp, hhead, hmarks, hrel, hloads, hstores⟩
    · exact hready
    · exact loadReady_oldest (findLoad_some hf).2 hsp hhead hmarks hrel hloads hstores
  have hframe := TranslationFrame.readLocal s (s.loadLocal h e.po l)
  have hh1 := (hart?_congr hframe.tasks ag).trans hh
  have hsame := hframe.same.trans (.of_tasks (putHart_frame _ ag (h.bound (s.streamPos ag) e l bytes)))
  refine ⟨_, _, exec_loadBind hh hf hready hgood hpoison (map_loadByte hlen hb), hart?_putHart hh1 _, fun r => ?_, ?_, ?_, ?_,
    hsame.sameMemory, hsame.1, fun hr => ?_⟩
  · rw [Hart.bound, Hart.x_setX, extendLoad_eq]
    rfl
  · rw [Hart.bound, Hart.setX_pc]; rfl
  · rw [Hart.bound, Hart.setX_stores]; rfl
  · rw [Hart.bound, Hart.setX_loads]; rfl
  · refine (onlyHart_putHart_of hh1 ?_ _).1.of_tasks hframe.tasks hframe.same.sameMemory
    obtain hscp | ⟨k, tag, p, rfl, hp, hrun⟩ := hr
    · exact .inl hscp
    · exact .inr ⟨k, tag, p, rfl, (program_congr hframe.tasks k tag).trans hp, hrun⟩

end Sys2Proof.Machine
end

section
/-! SUPPORT. Writes of bytes through the controllers where no unit is uncorrectable (R103, R369, R377). -/

namespace Sys2Proof.Machine

/-! ## The last write to a byte -/

/-- The byte that writes in order leave at an address, where one is to it (R103). -/
def lastWrite : List (Nat × Byte) → Nat → Option Byte
  | [], _ => none
  | w :: ws, a => (lastWrite ws a).or (if w.1 = a then some w.2 else none)

theorem rdByte_wrBytes (m : List Host.Cell) (as : List Nat) (bs : List Byte) (a : Nat) :
    rdByte (wrBytes m as bs) a = (lastWrite (as.zip bs) a).getD (rdByte m a) := by
  induction as generalizing m bs with
  | nil => rfl
  | cons x as ih =>
    cases bs with
    | nil => rfl
    | cons b bs =>
      rw [wrBytes, ih, rdByte_wrByte, List.zip_cons_cons, lastWrite]
      cases lastWrite (as.zip bs) a with
      | some c => rfl
      | none =>
        by_cases hx : x = a
        · simp [hx]
        · simp [hx, Ne.symm hx]

theorem lastWrite_filter (ws : List (Nat × Byte)) (u a : Nat) :
    lastWrite (ws.filter (fun w => w.1 / 64 = u)) a = if a / 64 = u then lastWrite ws a else none := by
  induction ws with
  | nil => simp [lastWrite]
  | cons w ws ih =>
    by_cases hw : w.1 / 64 = u
    · rw [List.filter_cons_of_pos (by simpa using hw), lastWrite, lastWrite, ih]
      by_cases ha : a / 64 = u
      · rw [if_pos ha, if_pos ha]
      · rw [if_neg ha, if_neg ha, if_neg fun e => ha (by rw [← e, hw])]; rfl
    · rw [List.filter_cons_of_neg (by simpa using hw), lastWrite, ih]
      by_cases ha : a / 64 = u
      · rw [if_pos ha, if_pos ha, if_neg (fun e => hw (by rw [e, ha])), Option.or_none]
      · rw [if_neg ha, if_neg ha]

theorem lastWrite_eq_none {ws : List (Nat × Byte)} {a : Nat} (h : ∀ w ∈ ws, w.1 ≠ a) : lastWrite ws a = none := by
  induction ws with
  | nil => rfl
  | cons w ws ih =>
    rw [List.forall_mem_cons] at h
    rw [lastWrite, ih h.2, if_neg h.1]; rfl

theorem mem_unitsOf {as : List Nat} {a : Nat} (h : a ∈ as) : a / 64 ∈ unitsOf as := by
  induction as with
  | nil => cases h
  | cons x as ih =>
    rw [unitsOf]
    rcases List.mem_cons.1 h with rfl | h
    · split
      next hc => simpa using hc
      · exact List.mem_cons_self ..
    · split
      · exact ih h
      · exact List.mem_cons_of_mem _ (ih h)

/-! ## No unit goes bad -/

theorem tget_tdel (t : Tbl Nat) (i j : Nat) : tget 0 (tdel t i) j = if j = i then 0 else tget 0 t j := by
  have := tget_tset 0 t i j 0
  rwa [tset, if_pos rfl] at this

theorem badUnit_eq_false_iff {s : State} {u : Nat} : s.badUnit u = false ↔ u ∈ s.ms.wq ∨ tget 0 s.ms.ecc u ≠ 2 := by
  simp [State.badUnit, or_iff_not_imp_left]

/-- A unit that stays in its write queue, or whose DRAM copy stays as good as it was or becomes good, can be read as before. -/
theorem good_of {s t : State} (h : ∀ u, s.badUnit u = false)
    (ht : ∀ u, u ∈ t.ms.wq ∨ tget 0 t.ms.ecc u = 0 ∨ (u ∈ s.ms.wq → u ∈ t.ms.wq) ∧ tget 0 t.ms.ecc u = tget 0 s.ms.ecc u) :
    ∀ u, t.badUnit u = false := by
  intro u
  rw [badUnit_eq_false_iff]
  rcases ht u with hq | he | ⟨hq, he⟩
  · exact .inl hq
  · exact .inr (by rw [he]; decide)
  · rw [he]
    exact (badUnit_eq_false_iff.1 (h u)).imp_left hq

theorem good_tdel {s : State} (h : ∀ u, s.badUnit u = false) (x : Nat) :
    ∀ u, ({ s with ms := { s.ms with ecc := tdel s.ms.ecc x } } : State).badUnit u = false := by
  refine good_of h fun u => ?_
  rw [tget_tdel]
  by_cases e : u = x
  · exact .inr (.inl (if_pos e))
  · exact .inr (.inr ⟨id, if_neg e⟩)

theorem correct_good {s : State} (h : ∀ u, s.badUnit u = false) (x : Nat) : ∀ u, (s.correct x).badUnit u = false := by
  unfold State.correct
  split
  · exact good_tdel h x
  · exact h

theorem readLocal_stays_good {s : State} (h : ∀ u, s.badUnit u = false) (las : List Nat) : ∀ u, (s.readLocal las).1.badUnit u = false := by
  show ∀ u, ((unitsOf las).foldl State.correct s).badUnit u = false
  generalize unitsOf las = us
  induction us generalizing s with
  | nil => exact h
  | cons x us ih => exact ih (correct_good h x)

theorem enterQueue_good {s : State} (h : ∀ u, s.badUnit u = false) (x : Nat) : ∀ u, (s.enterQueue x).badUnit u = false := by
  unfold State.enterQueue
  split
  · exact h
  · split
    next y _ =>
      refine good_of h fun u => ?_
      dsimp only
      rw [tget_tdel]
      by_cases e : u = y
      · exact .inr (.inl (if_pos e))
      · exact .inr (.inr ⟨fun hu => List.mem_append_left _ ((List.mem_erase_of_ne e).2 hu), if_neg e⟩)
    · exact good_of h fun u => .inr (.inr ⟨List.mem_append_left _, rfl⟩)

theorem enterQueue_memory (s : State) (u : Nat) : (s.enterQueue u).mem = s.mem ∧ (s.enterQueue u).hmem = s.hmem := by
  unfold State.enterQueue
  split
  · exact ⟨rfl, rfl⟩
  · split <;> exact ⟨rfl, rfl⟩

/-! ## Writes -/

/-- R369, R377: the bytes of one unit are written, and only they. -/
theorem writeUnit_good {s : State} (h : ∀ v, s.badUnit v = false) (sev unit tag pc : Nat) (ws : List (Nat × Byte)) (u : Nat) :
    (∀ v, (s.writeUnit sev unit tag pc ws u).badUnit v = false) ∧ (s.writeUnit sev unit tag pc ws u).hmem = s.hmem ∧
      ∀ a, rdByte (s.writeUnit sev unit tag pc ws u).mem a =
        if a / 64 = u then (lastWrite ws a).getD (rdByte s.mem a) else rdByte s.mem a := by
  unfold State.writeUnit
  dsimp only
  rw [h u, Bool.false_and, if_neg Bool.false_ne_true]
  generalize hs1 : (if coversUnit ((ws.filter (fun w => w.1 / 64 = u)).map (·.1)) u = true then
    ({ s with ms := { s.ms with ecc := tdel s.ms.ecc u } } : State) else s.correct u) = s1
  have hgood : ∀ v, s1.badUnit v = false := by
    rw [← hs1]
    split
    · exact good_tdel h u
    · exact correct_good h u
  have hmem : s1.mem = s.mem ∧ s1.hmem = s.hmem := by
    rw [← hs1]
    split
    · exact ⟨rfl, rfl⟩
    · exact ⟨(TranslationFrame.correct s u).same.mem, (TranslationFrame.correct s u).same.hmem⟩
  refine ⟨?_, (enterQueue_memory _ u).2.trans hmem.2, fun a => ?_⟩
  · refine enterQueue_good ?_ u
    exact hgood
  rw [(enterQueue_memory _ u).1, hmem.1, rdByte_wrBytes, List.zip_map', List.map_id', lastWrite_filter]
  split <;> rfl

theorem foldl_writeUnit_good {s : State} (h : ∀ v, s.badUnit v = false) (sev unit tag pc : Nat) (ws : List (Nat × Byte)) (us : List Nat) :
    (us.foldl (fun t u => t.writeUnit sev unit tag pc ws u) s).hmem = s.hmem ∧
      ∀ a, rdByte (us.foldl (fun t u => t.writeUnit sev unit tag pc ws u) s).mem a =
        if a / 64 ∈ us then (lastWrite ws a).getD (rdByte s.mem a) else rdByte s.mem a := by
  induction us generalizing s with
  | nil => exact ⟨rfl, fun a => (if_neg List.not_mem_nil).symm⟩
  | cons u us ih =>
    obtain ⟨hgood, hhmem, hmem⟩ := writeUnit_good h sev unit tag pc ws u
    obtain ⟨ihh, ihm⟩ := ih hgood
    refine ⟨ihh.trans hhmem, fun a => ?_⟩
    rw [List.foldl_cons, ihm, hmem]
    by_cases hu : a / 64 = u
    · rw [if_pos hu, if_pos (List.mem_cons.2 (.inl hu))]
      cases lastWrite ws a <;> simp
    · simp [hu]

/-- R103, R369: bytes written through the controllers read as if memory itself had been written; host memory stays. -/
theorem writeLocal_good {s : State} (h : ∀ v, s.badUnit v = false) (sev unit tag pc : Nat) (las : List Nat) (bs : List Byte) :
    (s.writeLocal sev unit tag pc las bs).hmem = s.hmem ∧
      ∀ a, rdByte (s.writeLocal sev unit tag pc las bs).mem a = rdByte (wrBytes s.mem las bs) a := by
  obtain ⟨hhmem, hmem⟩ := foldl_writeUnit_good h sev unit tag pc (las.zip bs) (unitsOf las)
  refine ⟨hhmem, fun a => (hmem a).trans ?_⟩
  rw [rdByte_wrBytes]
  split
  · rfl
  next hu => rw [lastWrite_eq_none fun w hw e => hu (mem_unitsOf (by rw [← e]; exact (List.of_mem_zip hw).1))]; rfl

/-! ## MC_WRITE_ACCEPT -/

/-- What stays in the store queue of an entry that has performed at scope k (R100). -/
def StoreEntry.kept (e : StoreEntry) : List StoreEntry :=
  match e.space with
  | .host => [{ e with begun := true, atK := true }]
  | _ => []

/-- R100, R369: the oldest entry that may perform has its effect, and leaves the queue but for what waits for the host. -/
theorem exec_mcWriteAccept {s s1 : State} {ag : Agent} {h h1 : Hart} {before after : List StoreEntry} {e : StoreEntry}
    (hh : s.hart? ag = some h) (hsplit : splitStores h.stores = some (before, e, after)) (hready : s.acceptReady ag h before e = true)
    (hs1 : s.performStore ag e = s1) (hh1 : s1.hart? ag = some h1) :
    ∃ t h', exec (.mcWriteAccept ag) s = .next t ∧ t.hart? ag = some h' ∧ h'.xs = h1.xs ∧ h'.pc = h1.pc ∧ h'.loads = h1.loads ∧
      h'.stores = before ++ e.kept ++ after ∧ { t with tasks := s1.tasks } = s1 := by
  generalize hput : ({ h1 with stores := before ++ e.kept ++ after } : Hart).prune (s1.streamPos ag) = h'
  have hexec : exec (.mcWriteAccept ag) s = .next ((s1.putHart ag h').beginOuter ag) := by
    show execMcWriteAccept ag s = _
    simp only [execMcWriteAccept, hh, hsplit, hready, if_true, State.acceptStore, hs1, hh1, ← hput]
    rfl
  refine ⟨_, h', hexec, (hart?_beginOuter _ ag).trans (hart?_putHart hh1 h'), ?_⟩
  refine ⟨by rw [← hput]; rfl, by rw [← hput]; rfl, by rw [← hput]; rfl, by rw [← hput]; rfl, ?_⟩
  have h2 : ({ ({ (s1.putHart ag h').beginOuter ag with tasks := (s1.putHart ag h').tasks } : State) with tasks := s1.tasks } : State) =
      { (s1.putHart ag h').beginOuter ag with tasks := s1.tasks } := rfl
  rw [← h2, beginOuter_frame, putHart_frame]

end Sys2Proof.Machine
end

section
/-! Stores perform and complete, and writebacks change no value (O16). -/

namespace Sys2Proof.Machine

/-! ## Performing a store (R100, R103, R369) -/

section

variable {s : State} {ag : Agent} {h : Hart} {before after : List StoreEntry} {e : StoreEntry} {va pc : Word} {pas : List Nat} {data : List Byte}
  (hh : s.hart? ag = some h) (hsplit : splitStores h.stores = some (before, e, after)) (hready : s.acceptReady ag h before e = true)
include hh hsplit hready

theorem packageStore_performs (hk : e.kind = .store .package va pas data pc) (hgood : ∀ u, s.badUnit u = false) :
    ∃ t h', exec (.mcWriteAccept ag) s = .next t ∧ t.hart? ag = some h' ∧ h'.xs = h.xs ∧ h'.pc = h.pc ∧ h'.loads = h.loads ∧
      h'.stores = before ++ after ∧ (∀ a, rdByte t.mem a = rdByte (wrBytes s.mem (pas.map (· % 2 ^ 40)) data) a) ∧
      (∀ a, a ∉ pas.map (· % 2 ^ 40) → rdByte t.mem a = rdByte s.mem a) ∧ ∀ a, rdByte t.hmem a = rdByte s.hmem a := by
  have hperf : s.performStore ag e =
      s.writeLocal 3 (s.unitOf (agentTask ag)) (agentTag ag) pc.toNat (pas.map (· % 2 ^ 40)) data := by
    simp only [State.performStore, hk]
  have hkept : e.kept = [] := by simp only [StoreEntry.kept, StoreEntry.space, hk]
  obtain ⟨hhmem, hmem⟩ := writeLocal_good hgood 3 (s.unitOf (agentTask ag)) (agentTag ag) pc.toNat (pas.map (· % 2 ^ 40)) data
  have htasks := (WriteFrame.writeLocal s 3 (s.unitOf (agentTask ag)) (agentTag ag) pc.toNat data (las := pas.map (· % 2 ^ 40))).tasks
  obtain ⟨t, h', hexec, hh', hxs, hpc, hloads, hstores, hframe⟩ :=
    exec_mcWriteAccept hh hsplit hready hperf ((hart?_congr htasks ag).trans hh)
  have hread : ∀ a, rdByte t.mem a = rdByte (wrBytes s.mem (pas.map (· % 2 ^ 40)) data) a := fun a => by
    rw [show t.mem = _ from (congrArg State.mem hframe :), hmem]
  refine ⟨t, h', hexec, hh', hxs, hpc, hloads, by rw [hstores, hkept, List.append_nil], hread, fun a ha => ?_, fun a => ?_⟩
  · rw [hread, rdByte_wrBytes_other _ _ _ ha]
  · rw [show t.hmem = _ from (congrArg State.hmem hframe :), hhmem]

theorem hostStore_performs (hk : e.kind = .store .host va pas data pc) :
    ∃ t h', exec (.mcWriteAccept ag) s = .next t ∧ t.hart? ag = some h' ∧ h'.xs = h.xs ∧ h'.pc = h.pc ∧ h'.loads = h.loads ∧
      h'.stores = before ++ [{ e with begun := true, atK := true }] ++ after ∧ t.hmem = wrBytes s.hmem pas data ∧
      ∀ a, rdByte t.mem a = rdByte s.mem a := by
  have hperf : s.performStore ag e = { s with hmem := wrBytes s.hmem pas data } := by
    simp only [State.performStore, hk]
  have hkept : e.kept = [{ e with begun := true, atK := true }] := by simp only [StoreEntry.kept, StoreEntry.space, hk]
  obtain ⟨t, h', hexec, hh', hxs, hpc, hloads, hstores, hframe⟩ := exec_mcWriteAccept hh hsplit hready hperf hh
  refine ⟨t, h', hexec, hh', hxs, hpc, hloads, by rw [hstores, hkept], (congrArg State.hmem hframe :), fun a => ?_⟩
  rw [show t.mem = _ from (congrArg State.mem hframe :)]

end

/-- R100: the oldest host store, performed at scope k, leaves its queue. -/
theorem hostStore_completes {s : State} {ag : Agent} {h : Hart} {e : StoreEntry} {rest : List StoreEntry} (hh : s.hart? ag = some h)
    (hst : h.stores = e :: rest) (hk : e.atK = true) :
    ∃ t h', exec (.hostCompletion ag) s = .next t ∧ t.hart? ag = some h' ∧ h'.xs = h.xs ∧ h'.pc = h.pc ∧ h'.loads = h.loads ∧
      h'.stores = rest ∧ SameMemory s t := by
  refine ⟨s.putHart ag (({ h with stores := rest }).prune (s.streamPos ag)), _, ?_, hart?_putHart hh _, rfl, rfl, rfl, rfl, ?_⟩
  · show execHostCompletion ag s = _
    simp only [execHostCompletion, hh, hst, hk, if_true]
  · exact (SameButTranslation.of_tasks (putHart_frame s ag _)).sameMemory

/-! ## Writebacks (R369, R374) -/

theorem exec_mcWriteback (s : State) (unit : Nat) : exec (.mcWriteback unit) s =
    if unit ∈ s.ms.wq ∧ s.rateBusy (channelOf (64 * unit)) = false then
      .next { s with ms := { s.ms with wq := s.ms.wq.filter (· ≠ unit), ecc := tdel s.ms.ecc unit } }
    else .next s := by
  show execMcWriteback unit s = _
  rw [execMcWriteback]
  exact if_congr (by simp) rfl rfl

/-- Settles O16: an accepted store writes its bytes and leaves its queue, or stays for the host; a writeback touches its unit's entries. -/
theorem storesPerformAndComplete : Obligations.StoresPerformAndComplete := by
  unfold Obligations.StoresPerformAndComplete
  refine ⟨⟨fun s ag h before after e va pc pas data hh hsplit hk hready hgood => packageStore_performs hh hsplit hready hk hgood,
    fun s ag h hh => ⟨fun before after e va pc pas data hsplit hk hready => hostStore_performs hh hsplit hready hk,
      fun e rest hst hk => hostStore_completes hh hst hk⟩⟩, fun s unit => ⟨fun hq hrate => ?_, fun hno => ?_⟩⟩
  · refine ⟨_, (exec_mcWriteback s unit).trans (if_pos ⟨hq, hrate⟩), by simp, fun u hu => by simp [hu], fun u => tget_tdel _ _ _,
      ⟨fun _ => rfl, fun _ => rfl⟩, rfl, rfl⟩
  · rw [exec_mcWriteback, if_neg]
    rintro ⟨hq, hrate⟩
    rcases hno with h | h
    · exact h hq
    · rw [hrate] at h
      exact Bool.false_ne_true h

end Sys2Proof.Machine
end

section
/-! Atomics enter the store queue and perform in one step (O17). -/

namespace Sys2Proof.Machine

/-! ## Numbers (R111, R202, R203) -/

theorem leNat_lt (bs : List Byte) : leNat bs < 2 ^ (8 * bs.length) := by
  induction bs with
  | nil => decide
  | cons b bs ih =>
    have hb := b.isLt
    rw [leNat, List.length_cons, show 8 * (bs.length + 1) = 8 * bs.length + 8 by ring, Nat.pow_add]
    omega

theorem rdNat_lt (m : List Host.Cell) (a n : Nat) : rdNat m a n < 2 ^ (8 * n) := by
  have := leNat_lt (rdBytes m (addrs a n))
  rwa [rdBytes, List.length_map, length_addrs] at this

theorem amoNew_lt (op : AmoOp) {w old b : Nat} (ho : old < 2 ^ w) (hb : b < 2 ^ w) : amoNew op w old b < 2 ^ w := by
  cases op with
  | swap => exact hb
  | add => exact Nat.mod_lt _ (Nat.two_pow_pos w)
  | and => exact Nat.lt_of_le_of_lt Nat.and_le_left ho
  | or => exact Nat.or_lt_two_pow ho hb
  | xor => exact Nat.xor_lt_two_pow ho hb
  | min => show (if _ then old else b) < 2 ^ w; split <;> assumption
  | max => show (if _ then old else b) < 2 ^ w; split <;> assumption
  | minu => exact Nat.lt_of_le_of_lt (Nat.min_le_left ..) ho
  | maxu => exact Nat.max_lt.2 ⟨ho, hb⟩

/-- What a read-modify-write leaves is what it writes, cut to its bytes, or what was there. -/
theorem rmwLeaves_eq (op : Rmw) {n old : Nat} (b : Word) (ho : old < 2 ^ (8 * n)) :
    rmwLeaves op n old b = ((rmwNew op (8 * n) old b.toNat).map (· % 2 ^ (8 * n))).getD old := by
  have hb : b.toNat % 2 ^ (8 * n) < 2 ^ (8 * n) := Nat.mod_lt _ (Nat.two_pow_pos _)
  cases op with
  | cas x =>
    unfold rmwLeaves rmwNew
    dsimp only
    split
    · exact (Nat.mod_eq_of_lt hb).symm
    · rfl
  | amo o => exact (Nat.mod_eq_of_lt (amoNew_lt o ho hb)).symm
  | red o => rfl

theorem signed_ite_le (w old b : Nat) : signed w (if signed w old ≤ signed w b then old else b) = min (signed w old) (signed w b) := by
  rw [apply_ite (signed w)]; rfl

theorem signed_ite_ge (w old b : Nat) : signed w (if signed w old ≥ signed w b then old else b) = max (signed w old) (signed w b) := by
  rw [apply_ite (signed w), max_comm]; exact (max_def ..).symm

/-! ## Issue (R200) -/

/-- CAS and AMO read the bytes that they write; RED does not (R200). -/
def Rmw.reads : Rmw → Bool
  | .cas _ => true
  | .amo _ => true
  | .red _ => false

theorem faults_of_addr {i : Instr} {s : State} {k : Nat} {t : Task} {code : Nat} {va : Word} {wr : Bool} (ht : s.task? k = some t)
    (he : t.sup.exl = false) (hcode : code < 256) (hi : exec i s = .next (s.scpFault k (addrFault code va.toNat wr))) :
    Faults i s k t code (some va) wr := by
  rw [scpFault_of ht he, addrFault, BitVec.ofNat_toNat, BitVec.setWidth_eq] at hi
  have htrap := trapTaken_scpCause t { code := BitVec.ofNat 8 code, va := some va, wr := wr } t.hart.pc
  rw [show (BitVec.ofNat 8 code).toNat = code from Nat.mod_eq_of_lt hcode] at htrap
  exact ⟨_, ⟨_, hi, onlyTask_putTask s k _⟩, htrap⟩

section

variable {s : State} {k : Nat} {t : Task} {op : Rmw} {dw : Bool} {ord : Ord} {host : Bool} {d a b : Reg} {rs : List Reg}

theorem issueRmw_enters (hx : ScpExecutes s k t) (hr : t.hart.ready rs = true) {p : List Nat × List Nat}
    (hcan : (t.hart.x a).toNat < 2 ^ 56) (hal : (t.hart.x a).toNat % (if dw then 8 else 4) = 0)
    (hp : (s.xlate (s.xctx (.scp k)) { space := if host then .host else .package, r := op.reads, w := true, x := false }
      (t.hart.x a).toNat (if dw then 8 else 4)).2 = .ok p) :
    ∃ s' h', issueRmw op dw ord host d a b rs s = .next s' ∧ HartChanges s s' (.scp k) h' ∧ SameButTranslation s s' ∧
      h' = t.hart.withStore ord (.rmw op dw host d (t.hart.x b) (t.hart.x a) (p.2.headD 0) t.hart.pc) := by
  obtain ⟨hch, hsame⟩ := putHart_after_translation hx.executes (xlate_ok hp).1
    (t.hart.withStore ord (.rmw op dw host d (t.hart.x b) (t.hart.x a) (p.2.headD 0) t.hart.pc))
  refine ⟨_, _, ?_, hch, hsame, rfl⟩
  have hcan0 : (t.hart.x a).toNat / 2 ^ 56 = 0 := Nat.div_eq_of_lt hcan
  unfold issueRmw
  rw [onScp_of hx]
  cases op <;>
    · rw [Rmw.reads] at hp
      simp only [hr, hcan0, hal, translated_ok hp, Bool.not_true, Bool.false_eq_true, if_false, ne_eq, not_true_eq_false]
      rfl

theorem issueRmw_page (hx : ScpExecutes s k t) (hr : t.hart.ready rs = true) (h : 2 ^ 56 ≤ (t.hart.x a).toNat) :
    issueRmw op dw ord host d a b rs s = .next (s.scpFault k (addrFault cPAGE (t.hart.x a).toNat true)) := by
  have h0 : (t.hart.x a).toNat / 2 ^ 56 ≠ 0 := by omega
  unfold issueRmw
  rw [onScp_of hx]
  simp only [hr, h0, Bool.not_true, Bool.false_eq_true, if_false, ne_eq, not_false_eq_true, if_true]

theorem issueRmw_bounds (hx : ScpExecutes s k t) (hr : t.hart.ready rs = true) (hcan : (t.hart.x a).toNat < 2 ^ 56)
    (hal : (t.hart.x a).toNat % (if dw then 8 else 4) ≠ 0) :
    issueRmw op dw ord host d a b rs s = .next (s.scpFault k (addrFault cBOUNDS (t.hart.x a).toNat true)) := by
  have hcan0 : (t.hart.x a).toNat / 2 ^ 56 = 0 := Nat.div_eq_of_lt hcan
  unfold issueRmw
  rw [onScp_of hx]
  simp only [hr, hcan0, hal, Bool.not_true, Bool.false_eq_true, if_false, ne_eq, not_true_eq_false, not_false_eq_true, if_true]

/-- Each of the three words issues its operation, once the registers that it names are written; a RED has no destination. -/
theorem exec_atomic (hx : ScpExecutes s k t) (hr : t.hart.ready [d, a, b] = true) {amo : AmoOp} {red : RedOp} {i : Instr} {rd : Bool}
    {sp : Space} {dst : Reg}
    (h : (i, op, rd, sp, dst) = (.cas dw ord host d a b, .cas (t.hart.x d), true, if host then .host else .package, d) ∨
      (i, op, rd, sp, dst) = (.amo amo dw ord host d a b, .amo amo, true, if host then .host else .package, d) ∨
      (i, op, rd, sp, dst) = (.red red dw ord a b, .red red, false, .package, 0)) :
    rd = op.reads ∧ sp = (if sp == .host then .host else .package) ∧
      ∃ rs, t.hart.ready rs = true ∧ exec i s = issueRmw op dw ord (sp == .host) dst a b rs s := by
  have hsp : ((if host then .host else .package : Space) == .host) = host := by cases host <;> rfl
  rcases h with h | h | h
  · simp only [Prod.mk.injEq] at h
    obtain ⟨rfl, rfl, rfl, rfl, rfl⟩ := h
    refine ⟨rfl, by rw [hsp], _, hr, ?_⟩
    show execCas dw ord host dst a b s = _
    rw [execCas, hx.1, hart?_scp hx.2.1, hsp]
    rfl
  · simp only [Prod.mk.injEq] at h
    obtain ⟨rfl, rfl, rfl, rfl, rfl⟩ := h
    refine ⟨rfl, by rw [hsp], _, hr, ?_⟩
    rw [hsp]
    rfl
  · simp only [Prod.mk.injEq] at h
    obtain ⟨rfl, rfl, rfl, rfl, rfl⟩ := h
    refine ⟨rfl, rfl, [a, b], ?_, rfl⟩
    rw [Hart.ready, List.all_cons, Bool.and_eq_true] at hr
    exact hr.2

end

/-! ## Performing (R111, R201 to R203) -/

/-- A read-modify-write has been done on n bytes of a memory. -/
def RmwDone (op : Rmw) (n la : Nat) (b : Word) (m m' : List Host.Cell) : Prop :=
  rdNat m' la n = rmwLeaves op n (rdNat m la n) b ∧ ∀ a, a < la ∨ la + n ≤ a → rdByte m' a = rdByte m a

theorem rdNat_congr {m m' : List Host.Cell} (h : ∀ a, rdByte m' a = rdByte m a) (la n : Nat) : rdNat m' la n = rdNat m la n := by
  rw [rdNat, rdNat, rdBytes, rdBytes, List.map_congr_left fun a _ => h a]

/-- It writes the low bytes of its new value, or nothing. -/
theorem rmwDone_of {op : Rmw} {n la : Nat} {b : Word} {m m' : List Host.Cell} {new : Option Nat}
    (hnew : rmwNew op (8 * n) (rdNat m la n) b.toNat = new)
    (h : ∀ a, rdByte m' a = rdByte ((new.map (wrNat m la n)).getD m) a) : RmwDone op n la b m m' := by
  unfold RmwDone
  rw [rmwLeaves_eq op b (rdNat_lt m la n), hnew, rdNat_congr h]
  cases new with
  | none => exact ⟨rfl, fun a _ => h a⟩
  | some v => exact ⟨rdNat_wrNat m la n v, fun a ha => (h a).trans (rdByte_wrNat_other m la n v a ha)⟩

theorem rmwLocal_eq {s s1 : State} {op : Rmw} {n la : Nat} {b : Word} {unit va tag pc : Nat} {new : Option Nat}
    (hr : s.readLocal (addrs la n) = (s1, rdBytes s.mem (addrs la n), none)) (hnew : rmwNew op (8 * n) (rdNat s.mem la n) b.toNat = new) :
    s.rmwLocal op n la b.toNat unit va tag pc =
      ((new.map (fun v => s1.writeLocal 3 unit tag pc (addrs la n) (leBytes n v))).getD s1, some (rdNat s.mem la n)) := by
  unfold State.rmwLocal
  rw [rdNat] at hnew ⊢
  simp only [hr]
  rw [hnew]
  cases new <;> rfl

theorem rmwLocal_good {s : State} (hgood : ∀ u, s.badUnit u = false) (op : Rmw) (n la : Nat) (b : Word) (unit va tag pc : Nat) :
    ∃ t, s.rmwLocal op n la b.toNat unit va tag pc = (t, some (rdNat s.mem la n)) ∧ t.tasks = s.tasks ∧
      RmwDone op n la b s.mem t.mem ∧ t.hmem = s.hmem := by
  obtain ⟨s1, hs1⟩ : ∃ s1, (s.readLocal (addrs la n)).1 = s1 := ⟨_, rfl⟩
  have hframe : TranslationFrame s s1 := hs1 ▸ .readLocal s (addrs la n)
  have hgood1 : ∀ u, s1.badUnit u = false := hs1 ▸ readLocal_stays_good hgood (addrs la n)
  have hr : s.readLocal (addrs la n) = (s1, rdBytes s.mem (addrs la n), none) :=
    Prod.ext hs1 (Prod.ext rfl (readLocal_good hgood (addrs la n)))
  cases hnew : rmwNew op (8 * n) (rdNat s.mem la n) b.toNat with
  | none =>
    refine ⟨s1, rmwLocal_eq hr hnew, hframe.tasks, rmwDone_of hnew fun a => ?_, hframe.same.hmem⟩
    rw [hframe.same.mem]
    rfl
  | some v =>
    obtain ⟨hhmem, hmem⟩ := writeLocal_good hgood1 3 unit tag pc (addrs la n) (leBytes n v)
    have hwrite := WriteFrame.writeLocal (las := addrs la n) s1 3 unit tag pc (leBytes n v)
    refine ⟨_, rmwLocal_eq hr hnew, hwrite.tasks.trans hframe.tasks, rmwDone_of hnew fun a => ?_, hhmem.trans hframe.same.hmem⟩
    refine (hmem a).trans ?_
    rw [hframe.same.mem]
    rfl

theorem rmwHost_good {s : State} (hpoison : s.host.poison = []) (op : Rmw) (n ha : Nat) (b : Word) (unit va pc : Nat) :
    ∃ t, s.rmwHost op n ha b.toNat unit va pc = (t, some (rdNat s.hmem ha n)) ∧ t.tasks = s.tasks ∧
      RmwDone op n ha b s.hmem t.hmem ∧ t.mem = s.mem := by
  cases hnew : rmwNew op (8 * n) (rdNat s.hmem ha n) b.toNat with
  | none =>
    exact ⟨s, by simp only [State.rmwHost, poisonedAt_none hpoison, hnew], rfl, rmwDone_of hnew fun _ => rfl, rfl⟩
  | some v =>
    exact ⟨{ s with hmem := wrNat s.hmem ha n v }, by simp only [State.rmwHost, poisonedAt_none hpoison, hnew], rfl,
      rmwDone_of hnew fun _ => rfl, rfl⟩

/-- The hart that a read-modify-write leaves, but for its queues. -/
def Hart.afterRmw (h : Hart) (op : Rmw) (d : Reg) (old : Nat) : Hart :=
  match op with
  | .red _ => h
  | _ => h.setX d (BitVec.ofNat 64 old)

/-- CAS and AMO give their register the old value, RED none. -/
theorem performStore_rmw {s t : State} {ag : Agent} {h : Hart} {e : StoreEntry} {op : Rmw} {dw host : Bool} {d : Reg} {b va pc : Word}
    {pa old : Nat} (hh : s.hart? ag = some h) (hk : e.kind = .rmw op dw host d b va pa pc) (htasks : t.tasks = s.tasks)
    (hr : (if host then s.rmwHost op (if dw then 8 else 4) pa b.toNat (s.unitOf (agentTask ag)) va.toNat pc.toNat
      else s.rmwLocal op (if dw then 8 else 4) (pa % 2 ^ 40) b.toNat (s.unitOf (agentTask ag)) va.toNat (agentTag ag) pc.toNat) =
        (t, some old)) :
    (s.performStore ag e).hart? ag = some (h.afterRmw op d old) ∧ { s.performStore ag e with tasks := t.tasks } = t := by
  have hh1 := (hart?_congr htasks ag).trans hh
  have hwrite : t.writeX ag d (BitVec.ofNat 64 old) = t.putHart ag (h.setX d (BitVec.ofNat 64 old)) := by
    simp only [State.writeX, hh1]
  have hput : (t.putHart ag (h.setX d (BitVec.ofNat 64 old))).hart? ag = some (h.setX d (BitVec.ofNat 64 old)) ∧
      { t.putHart ag (h.setX d (BitVec.ofNat 64 old)) with tasks := t.tasks } = t := ⟨hart?_putHart hh1 _, putHart_frame t ag _⟩
  cases op with
  | red o =>
    rw [show s.performStore ag e = t by simp only [State.performStore, hk, hr]]
    exact ⟨hh1, rfl⟩
  | cas x =>
    rw [show s.performStore ag e = _ by simp only [State.performStore, hk, hr, hwrite]; rfl]
    exact hput
  | amo o =>
    rw [show s.performStore ag e = _ by simp only [State.performStore, hk, hr, hwrite]; rfl]
    exact hput

theorem kept_rmw {e : StoreEntry} {op : Rmw} {dw host : Bool} {d : Reg} {b va pc : Word} {pa : Nat}
    (hk : e.kind = .rmw op dw host d b va pa pc) : e.kept = if host then [{ e with begun := true, atK := true }] else [] := by
  simp only [StoreEntry.kept, StoreEntry.space, hk]
  cases host <;> rfl

theorem x_afterRmw (h : Hart) (op : Rmw) (d : Reg) (old : Nat) :
    ((∃ o, op = .red o) → ∀ r, (h.afterRmw op d old).x r = h.x r) ∧
    ((∀ o, op ≠ .red o) → ∀ r, (h.afterRmw op d old).x r = if r = d ∧ r ≠ 0 then BitVec.ofNat 64 old else h.x r) := by
  cases op with
  | red o => exact ⟨fun _ _ => rfl, fun h => absurd rfl (h o)⟩
  | cas x => exact ⟨nofun, fun _ r => Hart.x_setX ..⟩
  | amo o => exact ⟨nofun, fun _ r => Hart.x_setX ..⟩

theorem afterRmw_pc (h : Hart) (op : Rmw) (d : Reg) (old : Nat) : (h.afterRmw op d old).pc = h.pc := by
  cases op with
  | red o => rfl
  | cas x => exact Hart.setX_pc ..
  | amo o => exact Hart.setX_pc ..

theorem x_congr {h h' : Hart} (hxs : h'.xs = h.xs) (r : Reg) : h'.x r = h.x r := by rw [Hart.x, hxs]; rfl

theorem atomic_performs {s : State} {ag : Agent} {h : Hart} {before after : List StoreEntry} {e : StoreEntry} {op : Rmw} {dw host : Bool} {d : Reg}
    {b va pc : Word} {pa n la old : Nat} (hh : s.hart? ag = some h) (hsplit : splitStores h.stores = some (before, e, after))
    (hk : e.kind = .rmw op dw host d b va pa pc) (hready : s.acceptReady ag h before e = true) (hgood : ∀ u, s.badUnit u = false)
    (hpoison : s.host.poison = []) (hn : n = (if dw then 8 else 4)) (hla : la = (if host then pa else pa % 2 ^ 40))
    (hold : old = rdNat (if host then s.hmem else s.mem) la n) :
    ∃ t h', exec (.mcWriteAccept ag) s = .next t ∧ t.hart? ag = some h' ∧ h'.pc = h.pc ∧
      h'.stores = before ++ (if host then [{ e with begun := true, atK := true }] else []) ++ after ∧
      ((∃ o, op = .red o) → ∀ r, h'.x r = h.x r) ∧
      ((∀ o, op ≠ .red o) → ∀ r, h'.x r = if r = d ∧ r ≠ 0 then BitVec.ofNat 64 old else h.x r) ∧
      rdNat (if host then t.hmem else t.mem) la n = rmwLeaves op n old b ∧
      (∀ a, host = true ∨ a < la ∨ la + n ≤ a → rdByte t.mem a = rdByte s.mem a) ∧
      ∀ a, host = false ∨ a < la ∨ la + n ≤ a → rdByte t.hmem a = rdByte s.hmem a := by
  obtain ⟨u, hu, htasks, hdone, hother⟩ : ∃ u, (if host then s.rmwHost op (if dw then 8 else 4) pa b.toNat (s.unitOf (agentTask ag)) va.toNat
      pc.toNat else s.rmwLocal op (if dw then 8 else 4) (pa % 2 ^ 40) b.toNat (s.unitOf (agentTask ag)) va.toNat (agentTag ag) pc.toNat) =
        (u, some old) ∧ u.tasks = s.tasks ∧ RmwDone op n la b (if host then s.hmem else s.mem) (if host then u.hmem else u.mem) ∧
      (if host then u.mem = s.mem else u.hmem = s.hmem) := by
    subst hn hla hold
    cases host with
    | true => exact rmwHost_good hpoison ..
    | false => exact rmwLocal_good hgood ..
  obtain ⟨hh1, hframe1⟩ := performStore_rmw hh hk htasks hu
  obtain ⟨t, h', hexec, hh', hxs, hpc, -, hstores, hframe⟩ := exec_mcWriteAccept hh hsplit hready rfl hh1
  have hmem : t.mem = u.mem := (congrArg State.mem hframe :).trans (congrArg State.mem hframe1 :)
  have hhmem : t.hmem = u.hmem := (congrArg State.hmem hframe :).trans (congrArg State.hmem hframe1 :)
  obtain ⟨hred, hval⟩ := x_afterRmw h op d old
  refine ⟨t, h', hexec, hh', hpc.trans (afterRmw_pc ..), by rw [hstores, kept_rmw hk], fun ho r => (x_congr hxs r).trans (hred ho r),
    fun ho r => (x_congr hxs r).trans (hval ho r), ?_, ?_, ?_⟩
  · rw [hmem, hhmem, hold]
    exact hdone.1
  · rw [hmem]
    cases host with
    | true => exact fun a _ => by rw [show u.mem = s.mem from hother]
    | false => exact fun a ha => hdone.2 a (ha.resolve_left Bool.false_ne_true)
  · rw [hhmem]
    cases host with
    | true => exact fun a ha => hdone.2 a (ha.resolve_left Bool.false_ne_true.symm)
    | false => exact fun a _ => by rw [show u.hmem = s.hmem from hother]

/-- Settles O17: issue places an entry or faults, the entry is one read-modify-write, and its operations by their numbers. -/
theorem atomicsQueueAndPerform : Obligations.AtomicsQueueAndPerform := by
  unfold Obligations.AtomicsQueueAndPerform
  refine ⟨?_, fun s ag h before after e op dw host d b va pa pc n la old => atomic_performs, fun w old b ho hb hw => ?_⟩
  · rintro s k t dw ord host d a b n op red hx hr rfl i rmw rd sp dst hi
    obtain ⟨rfl, hsp, rs, hrs, hexec⟩ := exec_atomic hx hr hi
    rw [hexec]
    refine ⟨fun p hcan hal hp => ?_, fun he h => ?_, fun he hcan hal => ?_⟩
    · exact issueRmw_enters hx hrs hcan hal (by rwa [← hsp])
    · exact faults_of_addr hx.2.1 he (by decide) (hexec.trans (issueRmw_page hx hrs h))
    · exact faults_of_addr hx.2.1 he (by decide) (hexec.trans (issueRmw_bounds hx hrs hcan hal))
  · exact ⟨rfl, rfl, fun i => Nat.testBit_and .., fun i => Nat.testBit_or .., fun i => Nat.testBit_xor .., signed_ite_le w old b,
      signed_ite_ge w old b, rfl, rfl, rfl, fun i => Nat.testBit_or .., signed_ite_le w old b, signed_ite_ge w old b, rfl, rfl⟩

end Sys2Proof.Machine
end

section
/-! SUPPORT. What packets that a package sends may change: the agenda, the fabric and the counter of free choices; of the fabric neither
transactions nor incarnations (R384 to R389). -/

namespace Sys2Proof.Machine

/-! ## Frames -/

/-- States that differ in nothing but what `w` takes from the second of its arguments. -/
def SameUpTo (w : State → State → State) (s t : State) : Prop := w t s = s

namespace SameUpTo

variable {w : State → State → State} {s t u : State}

/-- A field that `w` does not take is as before. -/
theorem field {β : Type} (h : SameUpTo w s t) (f : State → β) (hf : ∀ x, f (w x s) = f x) : f t = f s :=
  (hf t).symm.trans (congrArg f h)

theorem trans (hw : ∀ a b c, w (w a b) c = w a c) (h1 : SameUpTo w s t) (h2 : SameUpTo w t u) : SameUpTo w s u := by
  unfold SameUpTo at *
  rw [← hw u t s, h2, h1]

theorem foldl (hw : ∀ a b c, w (w a b) c = w a c) (hr : ∀ a, w a a = a) {β : Type} {f : State → β → State}
    (hf : ∀ a x, SameUpTo w a (f a x)) (l : List β) (s : State) : SameUpTo w s (l.foldl f s) := by
  induction l generalizing s with
  | nil => exact hr s
  | cons x l ih => exact trans hw (hf s x) (ih (f s x))

end SameUpTo

/-! ## Messages -/

/-- A state with the agenda, the fabric and the counter of free choices of another. -/
def State.withMessagesOf (t s : State) : State := { t with agenda := s.agenda, fab := s.fab, freeCtr := s.freeCtr }

/-- Nothing but the agenda, the fabric's packets and the counter of free choices differs. -/
structure MessageFrame (s t : State) : Prop where
  same : SameUpTo State.withMessagesOf s t
  txns : t.fab.txns = s.fab.txns
  unsent : t.fab.unsent = s.fab.unsent
  pinc : t.fab.pinc = s.fab.pinc

namespace MessageFrame

variable {s t u : State}

theorem refl (s : State) : MessageFrame s s := ⟨rfl, rfl, rfl, rfl⟩

theorem trans (h1 : MessageFrame s t) (h2 : MessageFrame t u) : MessageFrame s u where
  same := h1.same.trans (fun _ _ _ => rfl) h2.same
  txns := h2.txns.trans h1.txns
  unsent := h2.unsent.trans h1.unsent
  pinc := h2.pinc.trans h1.pinc

theorem foldl {β : Type} {f : State → β → State} (hf : ∀ a x, MessageFrame a (f a x)) (l : List β) (s : State) :
    MessageFrame s (l.foldl f s) := by
  induction l generalizing s with
  | nil => exact refl s
  | cons x l ih => exact (hf s x).trans (ih (f s x))

theorem tasks (h : MessageFrame s t) : t.tasks = s.tasks := h.same.field State.tasks fun _ => rfl
theorem pregs (h : MessageFrame s t) : t.pregs = s.pregs := h.same.field State.pregs fun _ => rfl
theorem mem (h : MessageFrame s t) : t.mem = s.mem := h.same.field State.mem fun _ => rfl
theorem hmem (h : MessageFrame s t) : t.hmem = s.hmem := h.same.field State.hmem fun _ => rfl
theorem bnd (h : MessageFrame s t) : t.bnd = s.bnd := h.same.field State.bnd fun _ => rfl
theorem inbound (h : MessageFrame s t) : t.inbound = s.inbound := h.same.field State.inbound fun _ => rfl
theorem outbound (h : MessageFrame s t) : t.outbound = s.outbound := h.same.field State.outbound fun _ => rfl
theorem disp (h : MessageFrame s t) : t.disp = s.disp := h.same.field State.disp fun _ => rfl
theorem host (h : MessageFrame s t) : t.host = s.host := h.same.field State.host fun _ => rfl

theorem sameMemory (h : MessageFrame s t) : SameMemory s t := ⟨fun _ => by rw [h.mem], fun _ => by rw [h.hmem]⟩

theorem toFabric (s : State) (h : HeldPkt) : MessageFrame s (s.toFabric h) := by
  unfold State.toFabric State.route?
  split
  · dsimp only
    split <;> exact ⟨rfl, rfl, rfl, rfl⟩
  · exact ⟨rfl, rfl, rfl, rfl⟩

theorem send (s : State) (p : Packet) : MessageFrame s (s.send p) := by
  unfold State.send
  split
  · split
    · exact ⟨rfl, rfl, rfl, rfl⟩
    · exact refl s
  · exact toFabric s _

theorem report (s : State) (phase : Nat) : MessageFrame s (s.report phase) := by
  unfold State.report
  split
  · exact send s _
  · exact refl s

theorem toLeaders (s : State) (ph : Nat) : MessageFrame s (s.toLeaders ph) := foldl (fun a _ => send a _) _ s

theorem passDown (s : State) (ph : Nat) : MessageFrame s (s.passDown ph) := by
  unfold State.passDown
  split
  · exact foldl (fun a _ => send a _) _ s
  · exact refl s

end MessageFrame

/-- A packet that is sent is the next row of the own package, or on the fabric. -/
theorem sent_send (s : State) (p : Packet) : Sent s (s.send p) p := by
  unfold State.send
  refine ⟨fun h i hi => ?_, fun h => ?_⟩
  · rw [if_pos h, hi]
  · rw [if_neg h]
    exact (onFabric_toFabric s p).1

/-! ## The upward half of a boundary -/

/-- A state with another boundary. -/
def State.withBnd (s : State) (b : Boundary) : State := { s with bnd := b }

/-- A state with the boundary, and with what messages change, of another. -/
def State.withReportsOf (t s : State) : State := (t.withMessagesOf s).withBnd s.bnd

/-- Nothing but the boundary and what messages change differs. -/
def SameButReports (s t : State) : Prop := SameUpTo State.withReportsOf s t

namespace SameButReports

variable {s t u : State}

theorem refl (s : State) : SameButReports s s := rfl

theorem trans (h1 : SameButReports s t) (h2 : SameButReports t u) : SameButReports s u := SameUpTo.trans (fun _ _ _ => rfl) h1 h2

theorem of_messages (h : MessageFrame s t) : SameButReports s t := congrArg (fun x : State => x.withBnd s.bnd) h.same

theorem with_bnd (s : State) (b : Boundary) : SameButReports s { s with bnd := b } := rfl

theorem tasks (h : SameButReports s t) : t.tasks = s.tasks := SameUpTo.field h State.tasks fun _ => rfl
theorem pregs (h : SameButReports s t) : t.pregs = s.pregs := SameUpTo.field h State.pregs fun _ => rfl
theorem mem (h : SameButReports s t) : t.mem = s.mem := SameUpTo.field h State.mem fun _ => rfl
theorem hmem (h : SameButReports s t) : t.hmem = s.hmem := SameUpTo.field h State.hmem fun _ => rfl
theorem inbound (h : SameButReports s t) : t.inbound = s.inbound := SameUpTo.field h State.inbound fun _ => rfl
theorem outbound (h : SameButReports s t) : t.outbound = s.outbound := SameUpTo.field h State.outbound fun _ => rfl

theorem sameMemory (h : SameButReports s t) : SameMemory s t := ⟨fun _ => by rw [h.mem], fun _ => by rw [h.hmem]⟩

theorem sendArr (s : State) : SameButReports s s.sendArr :=
  (with_bnd s _).trans (of_messages (MessageFrame.report _ 0))

theorem tryArr (s : State) : SameButReports s s.tryArr := by
  unfold State.tryArr
  split
  · exact sendArr s
  · exact refl s

end SameButReports

end Sys2Proof.Machine
end

section
/-! STEP.ARR, STEP.WAIT and STEP.QRY (O28). -/

namespace Sys2Proof.Machine

/-- Only a step-member task executes the step instructions (R34, R231). -/
theorem onStepMember_scope {s : State} {n : Nat} {t : Task} (hx : ScpExecutes s n t) (hm : t.stepm = false) (k : Nat → Task → Out) :
    s.onStepMember k = .next (s.scpFault n (plainFault cSCOPE)) := by
  rw [State.onStepMember, onScp_of hx, hm, if_neg Bool.false_ne_true]

theorem exec_stepArr {s : State} {k : Nat} {t : Task} (hx : ScpExecutes s k t) (hm : t.stepm = true) : exec .stepArr s =
    if t.arrived || !t.drainedK then .next s else .next (s.putTask k { t.arrive with hart := t.hart.advance 8 }).tryArr :=
  onStepMember_of hx hm _

theorem exec_stepWait {s : State} {k : Nat} {t : Task} (hx : ScpExecutes s k t) (hm : t.stepm = true) : exec .stepWait s =
    if t.arrived then .next (s.putTask k { t with inStepWait := true })
    else if t.stepOwed then .next (s.putTask k { t with stepOwed := false, inStepWait := false, hart := t.hart.advance 8 })
    else if !t.drainedK then .next s
    else .next (s.putTask k { t.arrive with inStepWait := true }).tryArr :=
  onStepMember_of hx hm _

theorem exec_stepQry {s : State} {k : Nat} {t : Task} {d : Reg} (hx : ScpExecutes s k t) (hm : t.stepm = true)
    (hr : t.hart.ready [d] = true) (full : Bool) : exec (.stepQry d full) s = .next (s.putHart (.scp k) ((t.hart.setX d
      (BitVec.ofNat 64 (if full then s.stepNum else s.stepNum % 2 ^ 63 * 2 + b2n t.arrived))).advance 8)) := by
  refine (onStepMember_of hx hm _).trans ?_
  dsimp only
  rw [hr, Bool.not_true, if_neg Bool.false_ne_true]

/-- A task that has taken a step and told its package of it: the other tasks and both memories are as before. -/
theorem putTask_tryArr (s : State) (k : Nat) (u : Task) : SameMemory s (s.putTask k u).tryArr ∧
    (∀ j, j ≠ k → (s.putTask k u).tryArr.task? j = s.task? j) ∧ (s.putTask k u).tryArr.task? k = some u := by
  have h := SameButReports.tryArr (s.putTask k u)
  exact ⟨h.sameMemory, fun j hj => (task?_congr h.tasks j).trans (task?_putTask_other s u hj),
    (task?_congr h.tasks k).trans (task?_putTask_same s k u)⟩

/-- The short form of STEP.QRY: the step number above the arrived bit (R231). -/
theorem stepQry_word (n : Nat) (b : Bool) : BitVec.ofNat 64 (n % 2 ^ 63 * 2 + b2n b) = BitVec.ofNat 64 (2 * n + b.toNat) := by
  apply BitVec.eq_of_toNat_eq
  have hb : b2n b = b.toNat := by cases b <;> rfl
  rw [BitVec.toNat_ofNat, BitVec.toNat_ofNat, hb]
  omega

/-- Settles O28: each step instruction is its branch of `onStepMember`; an arrival is `Task.arrive` before `tryArr`, which changes no task. -/
theorem stepInstructionsArrive : Obligations.StepInstructionsArrive := by
  unfold Obligations.StepInstructionsArrive
  refine ⟨fun s k t hx => ⟨fun hm he => ?_, fun hm ha hd => ⟨?_, fun ho => ?_⟩, fun hm ha hd => ?_, fun hm ha => ?_, fun hm ha ho => ?_⟩,
    fun s k t d hx hm hr => ⟨?_, ?_⟩⟩
  · exact ⟨faults_of hx.2.1 he (by decide) (onStepMember_scope hx hm _), faults_of hx.2.1 he (by decide) (onStepMember_scope hx hm _),
      fun d full => faults_of hx.2.1 he (by decide) (onStepMember_scope hx hm _)⟩
  · exact ⟨_, (exec_stepArr hx hm).trans (if_neg (by simp [ha, hd])), putTask_tryArr s k _⟩
  · refine ⟨_, (exec_stepWait hx hm).trans ?_, putTask_tryArr s k _⟩
    rw [ha, ho, hd]
    rfl
  · exact (exec_stepArr hx hm).trans (if_pos (by simp [hd]))
  · exact ⟨(exec_stepArr hx hm).trans (if_pos (by simp [ha])),
      _, (exec_stepWait hx hm).trans (if_pos ha), onlyTask_putTask s k _⟩
  · refine ⟨_, (exec_stepWait hx hm).trans ?_, onlyTask_putTask s k _⟩
    rw [ha, ho]
    rfl
  · exact results_of hx.executes (exec_stepQry hx hm hr true) rfl
  · exact results_of hx.executes (exec_stepQry hx hm hr false) (stepQry_word _ _)

end Sys2Proof.Machine
end

section
/-! SUPPORT. What reads and writes through the controllers, and event records, change beside memory: in general, where no unit is uncorrectable
(R376, R377), and where every unit is good. Where records lie in an apron (R129), and event records in the words of the statements. -/

namespace Sys2Proof.Machine

/-! ## In general -/

/-- A state with the memories, registers, check units, host side and counter of free choices of another. -/
def State.withUnitsOf (t s : State) : State :=
  { t with pregs := s.pregs, mem := s.mem, hmem := s.hmem, host := s.host, ms := s.ms, freeCtr := s.freeCtr }

/-- Nothing but memories, registers, check units, the host side and the counter of free choices differs. -/
def UnitFrame (s t : State) : Prop := SameUpTo State.withUnitsOf s t

namespace UnitFrame

variable {s t u : State}

theorem refl (s : State) : UnitFrame s s := rfl

theorem trans (h1 : UnitFrame s t) (h2 : UnitFrame t u) : UnitFrame s u := SameUpTo.trans (fun _ _ _ => rfl) h1 h2

theorem foldl {β : Type} {f : State → β → State} (hf : ∀ a x, UnitFrame a (f a x)) (l : List β) (s : State) : UnitFrame s (l.foldl f s) :=
  SameUpTo.foldl (w := State.withUnitsOf) (fun _ _ _ => rfl) (fun _ => rfl) hf l s

theorem ite {c : Prop} [Decidable c] (h1 : UnitFrame s t) (h2 : UnitFrame s u) : UnitFrame s (if c then t else u) := by
  split <;> assumption

theorem agenda (h : UnitFrame s t) : t.agenda = s.agenda := SameUpTo.field h State.agenda fun _ => rfl
theorem inbound (h : UnitFrame s t) : t.inbound = s.inbound := SameUpTo.field h State.inbound fun _ => rfl
theorem outbound (h : UnitFrame s t) : t.outbound = s.outbound := SameUpTo.field h State.outbound fun _ => rfl
theorem bnd (h : UnitFrame s t) : t.bnd = s.bnd := SameUpTo.field h State.bnd fun _ => rfl
theorem fab (h : UnitFrame s t) : t.fab = s.fab := SameUpTo.field h State.fab fun _ => rfl
theorem tasks (h : UnitFrame s t) : t.tasks = s.tasks := SameUpTo.field h State.tasks fun _ => rfl

theorem draw (s : State) : UnitFrame s s.draw.2 := rfl

theorem correct (s : State) (x : Nat) : UnitFrame s (s.correct x) := ite rfl (refl s)

theorem readLocal (s : State) (las : List Nat) : UnitFrame s (s.readLocal las).1 := foldl correct _ s

theorem post (s : State) (ty sev x : Nat) (pay : List (Nat × Nat)) : UnitFrame s (s.post ty sev x pay) :=
  (congrArg (fun a : State => a.withUnitsOf s) (post_frame s ty sev x pay) :)

theorem postUncorr (s : State) (sev x va pa space tag pc : Nat) : UnitFrame s (s.postUncorr sev x va pa space tag pc) :=
  (draw s).trans (post _ _ _ _ _)

theorem enterQueue (s : State) (x : Nat) : UnitFrame s (s.enterQueue x) := by
  unfold State.enterQueue
  refine ite (refl s) ?_
  split <;> rfl

theorem writeUnit (s : State) (sev unit tag pc : Nat) (ws : List (Nat × Byte)) (x : Nat) : UnitFrame s (s.writeUnit sev unit tag pc ws x) := by
  refine ite (postUncorr s _ _ _ _ _ _ _) (trans ?_ (enterQueue _ x))
  split
  · rfl
  · exact correct s x

theorem writeLocal (s : State) (sev unit tag pc : Nat) (las : List Nat) (bs : List Byte) :
    UnitFrame s (s.writeLocal sev unit tag pc las bs) := foldl (fun a x => writeUnit a _ _ _ _ _ x) _ s

theorem readApron (s : State) (reg : Nat) (r : Rec) : UnitFrame s (s.readApron reg r).2 := by
  unfold State.readApron
  dsimp only
  split
  · exact readLocal s _
  · exact (readLocal s _).trans ((draw _).trans (postUncorr _ _ _ _ _ _ _ _))

/-- A record enters the inbound apron. -/
theorem addInbound (s : State) (r : Rec) : UnitFrame { s with inbound := s.inbound ++ [r.placed s.inbound] } (s.addInbound r) :=
  writeLocal _ _ _ _ _ _ _

end UnitFrame

/-! ## No unit uncorrectable -/

/-- A state with another memory. -/
def State.withMem (s : State) (m : List Host.Cell) : State := { s with mem := m }

/-- A unit before some of its bytes are written: read and corrected, unless all of it is written (R377). -/
def State.readied (s : State) (las : List Nat) (u : Nat) : State :=
  if coversUnit las u then { s with ms := { s.ms with ecc := tdel s.ms.ecc u } } else s.correct u

/-- The bytes of a unit that can be read are written in its entry of the write queue (R369). -/
theorem writeUnit_of_readable {s : State} {u : Nat} (h : s.badUnit u = false) (sev unit tag pc : Nat) (ws : List (Nat × Byte)) :
    s.writeUnit sev unit tag pc ws u = State.enterQueue ((s.readied ((ws.filter (fun w => w.1 / 64 = u)).map (·.1)) u).withMem
      (wrBytes (s.readied ((ws.filter (fun w => w.1 / 64 = u)).map (·.1)) u).mem ((ws.filter (fun w => w.1 / 64 = u)).map (·.1))
        ((ws.filter (fun w => w.1 / 64 = u)).map (·.2)))) u :=
  if_neg (by simp [h])

/-- A state with the registers, memory and check units of another. -/
def State.withControllersOf (t s : State) : State := { t with pregs := s.pregs, mem := s.mem, ms := s.ms }

/-- Nothing but memory, check units and their count of corrections differs, and no unit is uncorrectable. -/
structure GoodFrame (s t : State) : Prop where
  same : SameUpTo State.withControllersOf s t
  registers : SameRegisters s t
  good : ∀ u, t.badUnit u = false

namespace GoodFrame

variable {s t u : State}

theorem refl (h : ∀ u, s.badUnit u = false) : GoodFrame s s := ⟨rfl, fun _ _ => rfl, h⟩

theorem trans (h1 : GoodFrame s t) (h2 : GoodFrame t u) : GoodFrame s u :=
  ⟨h1.same.trans (fun _ _ _ => rfl) h2.same, h1.registers.trans h2.registers, h2.good⟩

theorem foldl {β : Type} {f : State → β → State} (hf : ∀ a x, (∀ u, a.badUnit u = false) → GoodFrame a (f a x)) (l : List β)
    (h : ∀ u, s.badUnit u = false) : GoodFrame s (l.foldl f s) := by
  induction l generalizing s with
  | nil => exact refl h
  | cons x l ih => exact (hf s x h).trans (ih (hf s x h).good)

theorem hmem (h : GoodFrame s t) : t.hmem = s.hmem := h.same.field State.hmem fun _ => rfl
theorem host (h : GoodFrame s t) : t.host = s.host := h.same.field State.host fun _ => rfl
theorem tasks (h : GoodFrame s t) : t.tasks = s.tasks := h.same.field State.tasks fun _ => rfl
theorem inbound (h : GoodFrame s t) : t.inbound = s.inbound := h.same.field State.inbound fun _ => rfl
theorem bnd (h : GoodFrame s t) : t.bnd = s.bnd := h.same.field State.bnd fun _ => rfl

theorem correct (h : ∀ u, s.badUnit u = false) (x : Nat) : GoodFrame s (s.correct x) := by
  refine ⟨?_, (TranslationFrame.correct s x).same.1, correct_good h x⟩
  unfold State.correct
  split <;> rfl

theorem readLocal (h : ∀ u, s.badUnit u = false) (las : List Nat) : GoodFrame s (s.readLocal las).1 := foldl (fun _ x ha => correct ha x) _ h

theorem with_mem (h : ∀ u, s.badUnit u = false) (m : List Host.Cell) : GoodFrame s (s.withMem m) := ⟨rfl, fun _ _ => rfl, h⟩

theorem enterQueue (h : ∀ u, s.badUnit u = false) (x : Nat) : GoodFrame s (s.enterQueue x) := by
  refine ⟨?_, fun n _ => ?_, enterQueue_good h x⟩ <;> unfold State.enterQueue
  · split
    · rfl
    · split <;> rfl
  · split
    · rfl
    · split <;> rfl

theorem readied (h : ∀ u, s.badUnit u = false) (las : List Nat) (x : Nat) : GoodFrame s (s.readied las x) := by
  unfold State.readied
  split
  · exact ⟨rfl, fun _ _ => rfl, good_tdel h x⟩
  · exact correct h x

theorem writeUnit (h : ∀ u, s.badUnit u = false) (sev unit tag pc : Nat) (ws : List (Nat × Byte)) (x : Nat) :
    GoodFrame s (s.writeUnit sev unit tag pc ws x) := by
  rw [writeUnit_of_readable (h x)]
  have h1 := readied h ((ws.filter (fun w => w.1 / 64 = x)).map (·.1)) x
  have h2 := with_mem h1.good (wrBytes (s.readied ((ws.filter (fun w => w.1 / 64 = x)).map (·.1)) x).mem
    ((ws.filter (fun w => w.1 / 64 = x)).map (·.1)) ((ws.filter (fun w => w.1 / 64 = x)).map (·.2)))
  exact (h1.trans h2).trans (enterQueue h2.good x)

theorem writeLocal (h : ∀ u, s.badUnit u = false) (sev unit tag pc : Nat) (las : List Nat) (bs : List Byte) :
    GoodFrame s (s.writeLocal sev unit tag pc las bs) := foldl (fun _ x ha => writeUnit ha _ _ _ _ _ x) _ h

end GoodFrame

theorem readLocal_eq_of_good {s : State} (h : ∀ u, s.badUnit u = false) (las : List Nat) :
    s.readLocal las = ((s.readLocal las).1, rdBytes s.mem las, none) := by
  have hnone : las.find? (fun a => s.badUnit (a / 64)) = none := List.find?_eq_none.2 fun a _ => by simp [h]
  unfold State.readLocal
  rw [hnone]

/-- A record of the own apron that can be read. -/
theorem readApron_of_good {s : State} (h : ∀ u, s.badUnit u = false) (reg : Nat) (r : Rec) :
    s.readApron reg r = (r.data, (s.readLocal (s.apronBytes reg r)).1) := by
  unfold State.readApron
  rw [readLocal_eq_of_good h]

/-! ## Every unit good -/

/-- No check unit has an error. -/
def State.clear (s : State) : Prop := ∀ u, tget 0 s.ms.ecc u = 0

theorem State.clear.good {s : State} (h : s.clear) (u : Nat) : s.badUnit u = false := by
  rw [badUnit_eq_false_iff, h u]
  exact .inr (by decide)

theorem correct_of_clear {s : State} (h : s.clear) (u : Nat) : s.correct u = s := by
  rw [State.correct, h u, if_neg]
  simp

theorem readLocal_of_clear {s : State} (h : s.clear) (las : List Nat) : s.readLocal las = (s, rdBytes s.mem las, none) := by
  have hs : (unitsOf las).foldl State.correct s = s := by
    generalize unitsOf las = us
    induction us with
    | nil => rfl
    | cons x us ih => rw [List.foldl_cons, correct_of_clear h, ih]
  rw [readLocal_eq_of_good h.good]
  exact congrArg (fun x => (x, rdBytes s.mem las, (none : Option Nat))) hs

/-- A state with the memory and check units of another. -/
def State.withBytesOf (t s : State) : State := { t with mem := s.mem, ms := s.ms }

theorem clear_tdel {s : State} (h : s.clear) (x : Nat) : ({ s with ms := { s.ms with ecc := tdel s.ms.ecc x } } : State).clear := fun u => by
  rw [tget_tdel, h u, ite_self]

theorem readied_of_clear {s : State} (h : s.clear) (las : List Nat) (x : Nat) :
    SameUpTo State.withBytesOf s (s.readied las x) ∧ (s.readied las x).clear := by
  unfold State.readied
  split
  · exact ⟨rfl, clear_tdel h x⟩
  · rw [correct_of_clear h]
    exact ⟨rfl, h⟩

theorem enterQueue_of_clear {s : State} (h : s.clear) (x : Nat) : SameUpTo State.withBytesOf s (s.enterQueue x) ∧ (s.enterQueue x).clear := by
  unfold State.enterQueue
  split
  · exact ⟨rfl, h⟩
  · split
    · exact ⟨rfl, clear_tdel h _⟩
    · exact ⟨rfl, h⟩

/-- A write of bytes where every unit is good changes memory and check units, which stay good. -/
theorem writeUnit_of_clear {s : State} (h : s.clear) (sev unit tag pc : Nat) (ws : List (Nat × Byte)) (x : Nat) :
    SameUpTo State.withBytesOf s (s.writeUnit sev unit tag pc ws x) ∧ (s.writeUnit sev unit tag pc ws x).clear := by
  rw [writeUnit_of_readable (h.good x)]
  generalize (ws.filter (fun w => w.1 / 64 = x)).map (·.1) = as
  obtain ⟨h1, h2⟩ := readied_of_clear h as x
  generalize wrBytes (s.readied as x).mem as ((ws.filter (fun w => w.1 / 64 = x)).map (·.2)) = m
  obtain ⟨h3, h4⟩ := enterQueue_of_clear (s := (s.readied as x).withMem m) h2 x
  have h1' : SameUpTo State.withBytesOf s ((s.readied as x).withMem m) := h1
  exact ⟨h1'.trans (fun _ _ _ => rfl) h3, h4⟩

theorem writeLocal_of_clear {s : State} (h : s.clear) (sev unit tag pc : Nat) (las : List Nat) (bs : List Byte) :
    SameUpTo State.withBytesOf s (s.writeLocal sev unit tag pc las bs) ∧ (s.writeLocal sev unit tag pc las bs).clear := by
  unfold State.writeLocal
  dsimp only
  generalize unitsOf las = us
  induction us generalizing s with
  | nil => exact ⟨rfl, h⟩
  | cons x us ih =>
    obtain ⟨h1, h2⟩ := writeUnit_of_clear h sev unit tag pc (las.zip bs) x
    obtain ⟨h3, h4⟩ := ih h2
    exact ⟨SameUpTo.trans (w := State.withBytesOf) (fun _ _ _ => rfl) h1 h3, h4⟩

/-! ## Places in an apron (R129) -/

/-- The granules from g on, among f of them, that are not used. -/
def unusedGranules (used : List Nat) (f g : Nat) : List Nat := (List.range' g f).filter (fun x => !used.contains x)

theorem freshGranules_eq_take (used : List Nat) (f g n : Nat) : freshGranules used f g n = (unusedGranules used f g).take n := by
  induction f generalizing g n with
  | zero => simp [freshGranules, unusedGranules]
  | succ f ih =>
    unfold freshGranules
    rw [unusedGranules, List.range'_succ, List.filter_cons]
    cases hc : used.contains g with
    | true =>
      rw [ih, unusedGranules]
      by_cases hn : n = 0 <;> simp [hn]
    | false =>
      rw [ih, unusedGranules]
      cases n <;> simp [ih, unusedGranules]

/-- Of as many granules as are used and n more, n are free. -/
theorem le_length_unusedGranules (used : List Nat) (n g : Nat) : n ≤ (unusedGranules used (used.length + n) g).length := by
  have hsplit := List.length_eq_length_filter_add (l := List.range' g (used.length + n)) (fun x => used.contains x)
  have hsub : ((List.range' g (used.length + n)).filter (fun x => used.contains x)).length ≤ used.length :=
    (List.subperm_of_subset (List.Nodup.filter _ List.nodup_range') fun x hx => by simpa using (List.mem_filter.1 hx).2).length_le
  rw [List.length_range'] at hsplit
  unfold unusedGranules
  omega

/-- A record is placed on granules of its own, as many as its size. -/
theorem placed_place (r : Rec) (among : List Rec) : 16 * (r.placed among).place.length = recSize r.data.length ∧
    (r.placed among).place.Nodup ∧ ∀ x ∈ among, ∀ g ∈ (r.placed among).place, g ∉ x.place := by
  have hplace : (r.placed among).place = (unusedGranules (among.flatMap (·.place))
      ((among.flatMap (·.place)).length + recSize r.data.length / 16) 0).take (recSize r.data.length / 16) := freshGranules_eq_take ..
  have hsize : 16 * (recSize r.data.length / 16) = recSize r.data.length := by
    unfold recSize
    omega
  rw [hplace]
  refine ⟨?_, (List.Nodup.filter _ List.nodup_range').sublist (List.take_sublist ..), fun x hx g hg hgx => ?_⟩
  · rw [List.length_take, Nat.min_eq_left (le_length_unusedGranules ..), hsize]
  · have hfree := (List.mem_filter.1 (List.mem_of_mem_take hg)).2
    rw [Bool.not_eq_true', List.contains_eq_mem, decide_eq_false_iff_not] at hfree
    exact hfree (List.mem_flatMap.2 ⟨x, hx, hgx⟩)

/-- A record that enters the inbound apron takes granules of its own, and no byte outside them changes. -/
theorem apronTakes_addInbound (s : State) (r : Rec) : ApronTakes s (s.addInbound r) 0x211 s.inbound [r.placed s.inbound] := by
  obtain ⟨hsize, hnodup, hfree⟩ := placed_place r s.inbound
  refine ⟨fun i x hi => ?_, fun a ha => ?_⟩
  · cases i with
    | succ i => simp at hi
    | zero =>
      obtain rfl : r.placed s.inbound = x := by simpa using hi
      refine ⟨hsize, hnodup, fun j y hj hne => hfree y ?_⟩
      rw [List.getElem?_append] at hj
      split at hj
      · exact List.mem_of_getElem? hj
      · have hlt := (List.getElem?_eq_some_iff.1 hj).1
        simp only [List.length_singleton] at hlt
        omega
  · exact (WriteFrame.writeLocal (las := s.apronBytes 0x211 (r.placed s.inbound))
      { s with inbound := s.inbound ++ [r.placed s.inbound] } _ _ _ _ _).memory a (ha _ (List.mem_singleton_self _))

/-! ## Event records -/

/-- What an event record is told by registers, its number and host memory before it. -/
theorem Posted.of_before {s s1 t : State} {ty sev u : Nat} {pay : List (Nat × Nat)} (hr : SameRegisters s s1) (hseq : s1.host.evSeq = s.host.evSeq)
    (hmem : s1.hmem = s.hmem) (h : Posted s1 t ty sev u pay) : Posted s t ty sev u pay := by
  have hmember : ∀ r, s1.member r = s.member r := fun r => by
    unfold State.member State.mapBit
    rw [hr _ (by omega), hr _ (by decide)]
  unfold Posted at h ⊢
  rw [show s1.rank = s.rank by rw [State.rank, hr _ (by decide)]; rfl, show s1.stepNum = s.stepNum from hr _ (by decide), hmember, hseq, hmem,
    hr _ (by decide), hr _ (by decide), hr _ (by decide)] at h
  exact h

/-- What is left of an event record by what follows. -/
theorem Posted.of_after {s t t1 : State} {ty sev u : Nat} {pay : List (Nat × Nat)} (h : Posted s t ty sev u pay) (hp : t1.pregs = t.pregs)
    (hhost : t1.host = t.host) (hmem : t1.hmem = t.hmem) : Posted s t1 ty sev u pay := by
  have hpreg : ∀ n, t1.preg n = t.preg n := fun n => by rw [State.preg, hp]; rfl
  unfold Posted at h ⊢
  rw [hpreg, hpreg, hhost, hmem]
  exact h

end Sys2Proof.Machine
end

section
/-! SUPPORT. Reports of a boundary: what counting one changes, and what leaders and the root then send (R389). -/

namespace Sys2Proof.Machine

/-! ## TREE packets -/

theorem rank_lt (s : State) : s.rank < 4096 := Nat.mod_lt _ (by decide)

theorem toNat_treePacket_drank (s : State) {r : Nat} (h : r < 4096) (ph : Nat) (q : Bool) (b : BitVec 32) :
    (s.treePacket r ph q b).drank.toNat = r := by
  show (BitVec.ofNat 12 r).toNat = r
  rw [BitVec.toNat_ofNat]
  exact Nat.mod_eq_of_lt h

theorem low_byte_of_fields {ph : Nat} (n b : Nat) (hph : ph < 256) : (ph + n * 2 ^ 64 + b * 2 ^ 128) % 2 ^ 192 % 2 ^ 8 = ph := by
  rw [Nat.mod_mod_of_dvd _ (Nat.pow_dvd_pow 2 (by decide)), show n * 2 ^ 64 = n * 2 ^ 56 * 2 ^ 8 by ring,
    show b * 2 ^ 128 = b * 2 ^ 120 * 2 ^ 8 by ring, Nat.add_mul_mod_self_right, Nat.add_mul_mod_self_right]
  exact Nat.mod_eq_of_lt hph

/-- The PHASE of a message that is no ARR. -/
theorem treePacket_phase (s : State) (r : Nat) {ph : Nat} (hph : ph < 256) : Packet.phase (s.treePacket r ph false 0) = ph := by
  unfold Packet.phase State.treePacket State.mkPacket
  rw [BitVec.extractLsb'_toNat, BitVec.toNat_ofNat, Nat.shiftRight_zero, if_neg Bool.false_ne_true, Nat.add_zero]
  exact low_byte_of_fields _ _ hph

/-- The row of a message with a phase (R385, R389). -/
theorem packetRow_tree {p : Packet} (ht : p.type = 5) : packetRow p = match Packet.phase p with
    | 0 => some (.treeArr p) | 1 => some (.treeDrain p) | 2 => some (.treeDrn p) | 3 => some (.treeCommit p) | 4 => some (.treeCmt p)
    | 5 => some (.treeRel p) | _ => none := by
  unfold packetRow
  rw [ht]
  rfl

/-! ## Downward messages -/

/-- The row that a downward message to the own package becomes. -/
def downRow (ph : Nat) (p : Packet) : Instr := if ph = 1 then .treeDrain p else if ph = 3 then .treeCommit p else .treeRel p

/-- The root of a pod with one group, which it leads, has its own message for the next row. -/
theorem toLeaders_alone {s : State} (hg : s.podGroups = [s.rank / 32]) (hl : s.isLeader = true) {ph : Nat} (hph : ph = 1 ∨ ph = 3 ∨ ph = 5) :
    (s.toLeaders ph).agenda = s.agenda ++ [downRow ph (s.treePacket s.rank ph false 0)] := by
  have hlead : s.leaderOf (s.rank / 32) = some s.rank := by simpa [State.isLeader] using hl
  have hto : s.toLeaders ph = s.send (s.treePacket s.rank ph false 0) := by
    unfold State.toLeaders
    rw [hg, List.filterMap_cons_some hlead]
    rfl
  rw [hto]
  refine (sent_send s _).1 (toNat_treePacket_drank s (rank_lt s) ph false 0) _ ?_
  rw [packetRow_tree rfl, treePacket_phase s s.rank (by omega)]
  rcases hph with rfl | rfl | rfl <;> rfl

/-! ## Going on -/

/-- What the root's release of a withheld boundary leaves alone. -/
theorem resumeRelease_frame (s : State) :
    SameButReports s s.resumeRelease ∧ { s.resumeRelease.bnd with withheld := s.bnd.withheld } = s.bnd := by
  have hsend : ∀ (a : State) (b : Boundary), SameButReports a (State.toLeaders { a with bnd := b } 5) ∧
      (State.toLeaders { a with bnd := b } 5).bnd = b := fun a b =>
    ⟨(SameButReports.with_bnd a b).trans (.of_messages (.toLeaders _ 5)), (MessageFrame.toLeaders { a with bnd := b } 5).bnd⟩
  unfold State.resumeRelease
  split
  · split
    · obtain ⟨h1, h2⟩ := hsend s { s.bnd with withheld := false }
      exact ⟨h1, by rw [h2]⟩
    · dsimp only
      split
      · obtain ⟨h1, h2⟩ := hsend s.draw.2 { s.draw.2.bnd with withheld := false }
        exact ⟨(SameButReports.of_messages ⟨rfl, rfl, rfl, rfl⟩ : SameButReports s s.draw.2).trans h1, by rw [h2]; rfl⟩
      · exact ⟨rfl, rfl⟩
  · exact ⟨rfl, rfl⟩

/-- What the root changes as it goes on. -/
theorem rootCheck_frame (s : State) (ph : Nat) :
    SameButReports s (s.rootCheck ph) ∧ { (s.rootCheck ph).bnd with withheld := s.bnd.withheld } = s.bnd := by
  have hsend : ∀ n, SameButReports s (s.toLeaders n) ∧ { (s.toLeaders n).bnd with withheld := s.bnd.withheld } = s.bnd := fun n =>
    ⟨.of_messages (.toLeaders s n), by rw [(MessageFrame.toLeaders s n).bnd]⟩
  unfold State.rootCheck
  split
  · exact ⟨rfl, rfl⟩
  · split
    · split
      · exact ⟨rfl, rfl⟩
      · exact hsend 1
    · split
      · exact hsend 3
      · split
        · obtain ⟨h1, h2⟩ := resumeRelease_frame { s with bnd := { s.bnd with withheld := true } }
          exact ⟨(SameButReports.with_bnd s _).trans h1, (congrArg (fun b : Boundary => { b with withheld := s.bnd.withheld }) h2 :)⟩
        · exact hsend 5

/-- A boundary with the root's bitmaps, and whether it withholds a release, of another. -/
def Boundary.withRootOf (b c : Boundary) : Boundary :=
  { b with withheld := c.withheld, root0 := c.root0, root2 := c.root2, root4 := c.root4 }

theorem setRoot_withRootOf (b c : Boundary) (ph g : Nat) (v : BitVec 32) : (b.setRoot ph g v).withRootOf c = b.withRootOf c := by
  unfold Boundary.setRoot
  split
  · rfl
  · split <;> rfl

/-- What a leader changes as it goes on. -/
theorem leadCheck_frame (s : State) (ph : Nat) :
    SameButReports s (s.leadCheck ph) ∧ (s.leadCheck ph).bnd.withRootOf s.bnd = s.bnd := by
  unfold State.leadCheck
  dsimp only
  split
  · exact ⟨rfl, rfl⟩
  · split
    · obtain ⟨h1, h2⟩ := rootCheck_frame { s with bnd := s.bnd.setRoot ph (s.rank / 32) (s.bnd.lead ph) } ph
      refine ⟨(SameButReports.with_bnd s _).trans h1, ?_⟩
      have h3 := congrArg (fun b : Boundary => b.withRootOf s.bnd) h2
      exact h3.trans (setRoot_withRootOf ..)
    · split
      · next r _ =>
        have h := MessageFrame.send s (s.treePacket r ph (ph == 0 && s.bnd.quiesceSeen) (s.bnd.lead ph))
        exact ⟨.of_messages h, by rw [h.bnd]; rfl⟩
      · exact ⟨rfl, rfl⟩

/-! ## Counting -/

theorem lead_setLead (b : Boundary) (ph : Nat) (v : BitVec 32) : (b.setLead ph v).lead ph = v := by
  unfold Boundary.setLead Boundary.lead
  split
  · rfl
  · split <;> rfl

theorem tget_roots_setRoot (b : Boundary) (ph g : Nat) (v : BitVec 32) : tget 0 ((b.setRoot ph g v).roots ph) g = v := by
  unfold Boundary.setRoot Boundary.roots
  split
  · exact tget_tset_same ..
  · split <;> exact tget_tset_same ..

/-- A report is told of: that it quiesces, and that the root's watchdog runs. -/
def State.told (s : State) (p : Packet) (ph : Nat) : Boundary :=
  { s.bnd with quiesceSeen := s.bnd.quiesceSeen || (ph = 0 && Packet.quiesce p), watchdog := s.bnd.watchdog || s.isRoot }

/-- The leader of the sender's group has it counted. -/
def State.countMember (s : State) (p : Packet) (ph : Nat) : State :=
  { s with bnd := (s.told p ph).setLead ph (s.bnd.lead ph ||| 1#32 <<< (p.srank.toNat % 32)) }

/-- The root has another group's bitmap. -/
def State.countGroup (s : State) (p : Packet) (ph : Nat) : State :=
  { s with bnd := (s.told p ph).setRoot ph (p.srank.toNat / 32) (tget 0 (s.bnd.roots ph) (p.srank.toNat / 32) ||| Packet.bitmap p) }

theorem countReport_member {s : State} {p : Packet} (h : p.srank.toNat / 32 = s.rank / 32) (ph : Nat) :
    s.countReport p ph = (s.countMember p ph).leadCheck ph := if_pos h

theorem countReport_group {s : State} {p : Packet} (h : p.srank.toNat / 32 ≠ s.rank / 32) (ph : Nat) :
    s.countReport p ph = (s.countGroup p ph).rootCheck ph := if_neg h

/-- The fields that neither bitmap is. -/
theorem setLead_fields (b : Boundary) (ph : Nat) (v : BitVec 32) : (b.setLead ph v).phase = b.phase ∧ (b.setLead ph v).watchdog = b.watchdog ∧
    (b.setLead ph v).quiesceSeen = b.quiesceSeen ∧ (b.setLead ph v).resumed = b.resumed ∧ (b.setLead ph v).sentArr = b.sentArr := by
  unfold Boundary.setLead
  split
  · exact ⟨rfl, rfl, rfl, rfl, rfl⟩
  · split <;> exact ⟨rfl, rfl, rfl, rfl, rfl⟩

theorem setRoot_fields (b : Boundary) (ph g : Nat) (v : BitVec 32) : (b.setRoot ph g v).phase = b.phase ∧
    (b.setRoot ph g v).watchdog = b.watchdog ∧ (b.setRoot ph g v).quiesceSeen = b.quiesceSeen ∧ (b.setRoot ph g v).resumed = b.resumed ∧
    (b.setRoot ph g v).sentArr = b.sentArr := by
  unfold Boundary.setRoot
  split
  · exact ⟨rfl, rfl, rfl, rfl, rfl⟩
  · split <;> exact ⟨rfl, rfl, rfl, rfl, rfl⟩

/-- A report changes nothing but the boundary, whose phase stays; the root's watchdog runs, and QUIESCE of an ARR is kept. -/
theorem countReport_frame (s : State) (p : Packet) (ph : Nat) : SameButReports s (s.countReport p ph) ∧
    (s.countReport p ph).bnd.phase = s.bnd.phase ∧ (s.countReport p ph).bnd.watchdog = (s.bnd.watchdog || s.isRoot) ∧
    (s.countReport p ph).bnd.quiesceSeen = (s.bnd.quiesceSeen || (decide (ph = 0) && Packet.quiesce p)) ∧
    (s.countReport p ph).bnd.sentArr = s.bnd.sentArr := by
  by_cases hg : p.srank.toNat / 32 = s.rank / 32
  · rw [countReport_member hg]
    obtain ⟨h1, h2⟩ := leadCheck_frame (s.countMember p ph) ph
    obtain ⟨f1, f2, f3, -, f5⟩ := setLead_fields (s.told p ph) ph (s.bnd.lead ph ||| 1#32 <<< (p.srank.toNat % 32))
    exact ⟨(SameButReports.with_bnd s _).trans h1, (congrArg Boundary.phase h2 :).trans f1,
      (congrArg Boundary.watchdog h2 :).trans f2, (congrArg Boundary.quiesceSeen h2 :).trans f3,
      (congrArg Boundary.sentArr h2 :).trans f5⟩
  · rw [countReport_group hg]
    obtain ⟨h1, h2⟩ := rootCheck_frame (s.countGroup p ph) ph
    obtain ⟨f1, f2, f3, -, f5⟩ := setRoot_fields (s.told p ph) ph (p.srank.toNat / 32)
      (tget 0 (s.bnd.roots ph) (p.srank.toNat / 32) ||| Packet.bitmap p)
    exact ⟨(SameButReports.with_bnd s _).trans h1, (congrArg Boundary.phase h2 :).trans f1,
      (congrArg Boundary.watchdog h2 :).trans f2, (congrArg Boundary.quiesceSeen h2 :).trans f3,
      (congrArg Boundary.sentArr h2 :).trans f5⟩

/-- A member is counted under its rank. -/
theorem lead_countReport {s : State} {p : Packet} (h : p.srank.toNat / 32 = s.rank / 32) (ph : Nat) :
    (s.countReport p ph).bnd.lead ph = s.bnd.lead ph ||| 1#32 <<< (p.srank.toNat % 32) := by
  rw [countReport_member h]
  have hlead : ((s.countMember p ph).leadCheck ph).bnd.lead ph = (s.countMember p ph).bnd.lead ph :=
    (congrArg (fun b : Boundary => b.lead ph) (leadCheck_frame (s.countMember p ph) ph).2 :)
  rw [hlead]
  exact lead_setLead ..

/-- A leader is counted with its bitmap. -/
theorem roots_countReport {s : State} {p : Packet} (h : p.srank.toNat / 32 ≠ s.rank / 32) (ph : Nat) :
    tget 0 ((s.countReport p ph).bnd.roots ph) (p.srank.toNat / 32) =
      tget 0 (s.bnd.roots ph) (p.srank.toNat / 32) ||| Packet.bitmap p := by
  rw [countReport_group h]
  have hroots : ((s.countGroup p ph).rootCheck ph).bnd.roots ph = (s.countGroup p ph).bnd.roots ph :=
    (congrArg (fun b : Boundary => b.roots ph) (rootCheck_frame (s.countGroup p ph) ph).2 :)
  rw [hroots]
  exact tget_roots_setRoot ..

section

variable {s : State} {p : Packet} {ph : Nat} (hg : p.srank.toNat / 32 = s.rank / 32) (hl : s.isLeader = true)
  (hfull : s.groupFull (s.rank / 32) (s.bnd.lead ph ||| 1#32 <<< (p.srank.toNat % 32)) = true)
include hl hfull

/-- A leader whose group is complete goes on. -/
theorem leadCheck_countMember : ¬(!(s.countMember p ph).isLeader ||
    !(s.countMember p ph).groupFull ((s.countMember p ph).rank / 32) ((s.countMember p ph).bnd.lead ph)) = true := by
  have h1 : (s.countMember p ph).isLeader = true := hl
  have h2 : (s.countMember p ph).groupFull ((s.countMember p ph).rank / 32) ((s.countMember p ph).bnd.lead ph) = true := by
    rw [show (s.countMember p ph).bnd.lead ph = _ from lead_setLead ..]
    exact hfull
  rw [h1, h2]
  decide

include hg

/-- A leader that is not the root tells the root (R389). -/
theorem countReport_tells_root {r : Nat} (hnot : s.isRoot = false) (hroot : s.root = some r) :
    Sent s (s.countReport p ph) (s.treePacket r ph (decide (ph = 0) && (s.bnd.quiesceSeen || Packet.quiesce p))
      (s.bnd.lead ph ||| 1#32 <<< (p.srank.toNat % 32))) := by
  have hnot' : (s.countMember p ph).isRoot = false := hnot
  have hroot' : (s.countMember p ph).root = some r := hroot
  have hlead : (s.countMember p ph).bnd.lead ph = s.bnd.lead ph ||| 1#32 <<< (p.srank.toNat % 32) := lead_setLead ..
  have hq : (ph == 0 && (s.countMember p ph).bnd.quiesceSeen) = (decide (ph = 0) && (s.bnd.quiesceSeen || Packet.quiesce p)) := by
    rw [show (s.countMember p ph).bnd.quiesceSeen = (s.bnd.quiesceSeen || (decide (ph = 0) && Packet.quiesce p)) from (setLead_fields ..).2.2.1]
    by_cases h0 : ph = 0 <;> simp [h0]
  rw [countReport_member hg, State.leadCheck, if_neg (leadCheck_countMember hl hfull), if_neg (by simp [hnot']), hroot', hlead]
  dsimp only
  rw [hq]
  exact sent_send (s.countMember p ph) _

end

/-- The root's check where it has all reports of a phase. -/
theorem rootCheck_of_full {s : State} {ph : Nat} (hroot : s.isRoot = true)
    (hfull : ∀ g ∈ s.podGroups, s.groupFull g (tget 0 (s.bnd.roots ph) g) = true) : s.rootCheck ph =
      if ph = 0 then (if s.kernelCut then s else s.toLeaders 1)
      else if ph = 2 then s.toLeaders 3
      else if s.bnd.quiesceSeen then ({ s with bnd := { s.bnd with withheld := true } }).resumeRelease
      else s.toLeaders 5 := by
  unfold State.rootCheck
  rw [if_neg]
  simpa [hroot] using hfull

/-- The root withholds the release. -/
def State.withheldNow (s : State) : State := { s with bnd := { s.bnd with withheld := true } }

/-- What a root does once the one group of its pod has reported a phase. -/
theorem countReport_root {s : State} {p : Packet} {ph : Nat} (hpod : s.podGroups = [s.rank / 32]) (hg : p.srank.toNat / 32 = s.rank / 32)
    (hl : s.isLeader = true) (hfull : s.groupFull (s.rank / 32) (s.bnd.lead ph ||| 1#32 <<< (p.srank.toNat % 32)) = true)
    (hroot : s.isRoot = true) : ∃ b : Boundary,
      (b.quiesceSeen = (s.bnd.quiesceSeen || (decide (ph = 0) && Packet.quiesce p)) ∧ b.resumed = s.bnd.resumed) ∧
      s.countReport p ph = if ph = 0 then (if s.kernelCut then s.withBnd b else (s.withBnd b).toLeaders 1)
        else if ph = 2 then (s.withBnd b).toLeaders 3
        else if b.quiesceSeen then (s.withBnd b).withheldNow.resumeRelease
        else (s.withBnd b).toLeaders 5 := by
  have hlead : (s.countMember p ph).bnd.lead ph = s.bnd.lead ph ||| 1#32 <<< (p.srank.toNat % 32) := lead_setLead ..
  refine ⟨(s.countMember p ph).bnd.setRoot ph (s.rank / 32) (s.bnd.lead ph ||| 1#32 <<< (p.srank.toNat % 32)), ?_, ?_⟩
  · obtain ⟨-, -, f3, f4, -⟩ := setRoot_fields (s.countMember p ph).bnd ph (s.rank / 32)
      (s.bnd.lead ph ||| 1#32 <<< (p.srank.toNat % 32))
    obtain ⟨-, -, g3, g4, -⟩ := setLead_fields (s.told p ph) ph (s.bnd.lead ph ||| 1#32 <<< (p.srank.toNat % 32))
    exact ⟨f3.trans g3, f4.trans g4⟩
  · rw [countReport_member hg, State.leadCheck, if_neg (leadCheck_countMember hl hfull),
      if_pos (show (s.countMember p ph).isRoot = true from hroot), hlead]
    refine rootCheck_of_full (s := s.withBnd _) hroot fun g hmem => ?_
    have hone : g = s.rank / 32 := List.mem_singleton.1 (hpod ▸ hmem)
    rw [hone]
    exact (congrArg (s.groupFull (s.rank / 32)) (tget_roots_setRoot ..)).trans hfull

/-- A state with another count of free choices, which releases a withheld boundary. -/
def State.unwithheld (s : State) (n : Nat) : State := { s with freeCtr := n, bnd := { s.bnd with withheld := false } }

/-- The root releases what it withholds once every member has resumed: with no others it knows, with others it may (R347, log 2). -/
theorem resumeRelease_cases {s : State} (hw : s.bnd.withheld = true) (hroot : s.isRoot = true) :
    (s.bnd.resumed = false ∧ s.resumeRelease = s) ∨
    (s.bnd.resumed = true ∧ (s.others = [] → s.resumeRelease = (s.unwithheld s.freeCtr).toLeaders 5) ∧
      (s.resumeRelease = s.draw.2 ∨ ∃ n, s.resumeRelease = (s.unwithheld n).toLeaders 5)) := by
  cases hr : s.bnd.resumed with
  | false => exact .inl ⟨rfl, by simp [State.resumeRelease, hr]⟩
  | true =>
    have hres : s.resumeRelease = if s.others.isEmpty then (s.unwithheld s.freeCtr).toLeaders 5
        else if Config.freeBit s.freeCtr then (s.unwithheld (s.freeCtr + 1)).toLeaders 5 else s.draw.2 :=
      if_pos (by simp [hw, hr, hroot])
    refine .inr ⟨rfl, fun ho => hres.trans (if_pos (by simp [ho])), ?_⟩
    rw [hres]
    split
    · exact .inr ⟨_, rfl⟩
    · split
      · exact .inr ⟨_, rfl⟩
      · exact .inl rfl

end Sys2Proof.Machine
end

section
/-! Upward boundary messages (O56). -/

namespace Sys2Proof.Machine

theorem onPacket_of {s : State} {p : Packet} (h : s.receive p = (some s, s)) (k : State → Out) : s.onPacket p k = k s := by
  rw [State.onPacket, h]

/-- A state in which a boundary is known to have begun, or not. -/
def State.withBegun (s : State) (b : Bool) : State := { s with bnd := { s.bnd with begun := b } }

/-- A package that has sent its ARR does not send it again. -/
theorem tryArr_of_sent {s : State} (h : s.bnd.sentArr = true) : s.tryArr = s := by
  rw [State.tryArr, if_neg]
  simp [h]

/-- TREE_ARR at a package that has sent its own ARR. -/
theorem exec_treeArr_sent {s : State} {p : Packet} (hr : s.receive p = (some s, s)) (hc : s.current p = true) (h : s.bnd.sentArr = true) :
    exec (.treeArr p) s = .next ((s.withBegun true).countReport p 0) := by
  refine (onPacket_of hr _).trans ?_
  have hown : ¬(decide (p.srank.toNat = s.rank) && !s.bnd.sentArr) = true := by simp [h]
  have hbegun : ({ s with bnd := { s.bnd with begun := true } } : State).tryArr = s.withBegun true := tryArr_of_sent h
  rw [hc, Bool.not_true, if_neg Bool.false_ne_true, hbegun]
  exact if_neg hown

theorem exec_treeDrn {s : State} {p : Packet} (hr : s.receive p = (some s, s)) :
    exec (.treeDrn p) s = .next (if s.current p then s.countReport p 2 else s) := onPacket_of hr _

theorem exec_treeCmt {s : State} {p : Packet} (hr : s.receive p = (some s, s)) :
    exec (.treeCmt p) s = .next (if s.current p then s.countReport p 4 else s) := onPacket_of hr _

/-- An upward message of the current step is counted. -/
theorem exec_report {s : State} {p : Packet} {ph : Nat} {i : Instr} (hr : s.receive p = (some s, s)) (hc : s.current p = true)
    (hi : (i = .treeArr p ∧ ph = 0 ∧ s.bnd.sentArr = true) ∨ (i = .treeDrn p ∧ ph = 2) ∨ (i = .treeCmt p ∧ ph = 4)) :
    ∃ b, exec i s = .next ((s.withBegun b).countReport p ph) := by
  rcases hi with ⟨rfl, rfl, h⟩ | ⟨rfl, rfl⟩ | ⟨rfl, rfl⟩
  · exact ⟨true, exec_treeArr_sent hr hc h⟩
  · exact ⟨s.bnd.begun, (exec_treeDrn hr).trans (by rw [if_pos hc]; rfl)⟩
  · exact ⟨s.bnd.begun, (exec_treeCmt hr).trans (by rw [if_pos hc]; rfl)⟩

/-- What a root that is alone to lead has to do next (R347, R348, R389). -/
theorem root_goes_on {s : State} {p : Packet} {ph : Nat} (hph : ph = 0 ∨ ph = 2 ∨ ph = 4) (hpod : s.podGroups = [s.rank / 32])
    (hl : s.isLeader = true) (hroot : s.isRoot = true) (hg : p.srank.toNat / 32 = s.rank / 32)
    (hfull : s.groupFull (s.rank / 32) (s.bnd.lead ph ||| 1#32 <<< (p.srank.toNat % 32)) = true) :
    ((ph = 0 → s.kernelCut = false) → (ph = 4 → s.bnd.quiesceSeen = false ∨ (s.bnd.resumed = true ∧ s.others = [])) →
      (s.countReport p ph).agenda = s.agenda ++ [downRow (ph + 1) (s.treePacket s.rank (ph + 1) false 0)]) ∧
    (ph = 0 → s.kernelCut = true → (s.countReport p ph).agenda = s.agenda) ∧
    (ph = 4 → s.bnd.quiesceSeen = true → s.bnd.resumed = false ∨ s.others ≠ [] →
      ((s.countReport p ph).agenda = s.agenda ∧ (s.countReport p ph).bnd.withheld = true) ∨
      (s.bnd.resumed = true ∧ (s.countReport p ph).bnd.withheld = false ∧
        (s.countReport p ph).agenda = s.agenda ++ [downRow 5 (s.treePacket s.rank 5 false 0)])) := by
  obtain ⟨b, hfields, hcount⟩ := countReport_root hpod hg hl hfull hroot
  rw [hcount]
  have hdown : ∀ {n : Nat}, n = 1 ∨ n = 3 ∨ n = 5 → ((s.withBnd b).toLeaders n).agenda =
      s.agenda ++ [downRow n (s.treePacket s.rank n false 0)] := toLeaders_alone (s := s.withBnd b) hpod hl
  have hfree : ∀ n, (((s.withBnd b).withheldNow.unwithheld n).toLeaders 5).agenda =
      s.agenda ++ [downRow 5 (s.treePacket s.rank 5 false 0)] := fun n =>
    toLeaders_alone (s := (s.withBnd b).withheldNow.unwithheld n) hpod hl (.inr (.inr rfl))
  have hcases := resumeRelease_cases (s := (s.withBnd b).withheldNow) rfl hroot
  refine ⟨fun hcut hres => ?_, fun h0 hcut => ?_, fun h4 hq hres => ?_⟩
  · rcases hph with rfl | rfl | rfl
    · rw [if_pos rfl, if_neg (by simp [hcut rfl])]
      exact hdown (.inl rfl)
    · exact hdown (.inr (.inl rfl))
    · rw [if_neg (by decide), if_neg (by decide)]
      split
      · next hq =>
        have hq' : s.bnd.quiesceSeen = true := by simpa [hfields.1] using hq
        obtain ⟨hr, ho⟩ := (hres rfl).resolve_left (by simp [hq'])
        rcases hcases with ⟨h, -⟩ | ⟨-, h, -⟩
        · exact absurd (h.symm.trans (hfields.2.trans hr)) (by decide)
        · rw [h ho]
          exact hfree _
      · exact hdown (.inr (.inr rfl))
  · subst h0
    rw [if_pos rfl, if_pos hcut]
    rfl
  · subst h4
    rw [if_neg (by decide), if_neg (by decide), if_pos (by simp [hfields.1, hq])]
    rcases hcases with ⟨-, h⟩ | ⟨hr, -, h | ⟨n, h⟩⟩
    · rw [h]
      exact .inl ⟨rfl, rfl⟩
    · rw [h]
      exact .inl ⟨rfl, rfl⟩
    · rw [h]
      exact .inr ⟨hfields.2.symm.trans hr, by rw [(MessageFrame.toLeaders _ 5).bnd]; rfl, hfree n⟩

/-- TREE_ARR at a package that has not arrived and waits for nothing. -/
theorem treeArr_arrives {s : State} {p : Packet} (hr : s.receive p = (some s, s)) (hc : s.current p = true) (hm : s.member s.rank = true)
    (hsent : s.bnd.sentArr = false) (harr : s.packageArrived = true) (hheld : s.arrHeld = false) :
    ∃ t, exec (.treeArr p) s = .next t ∧ t.bnd.sentArr = true ∧ t.bnd.phase = .arrived ∧ SameButReports s t := by
  have htry : (s.withBegun true).tryArr = (s.withBegun true).sendArr := by
    have hm' : (s.withBegun true).member (s.withBegun true).rank = true := hm
    have hsent' : (s.withBegun true).bnd.sentArr = false := hsent
    have harr' : (s.withBegun true).packageArrived = true := harr
    have hheld' : (s.withBegun true).arrHeld = false := hheld
    have hbegins : (s.withBegun true).beginsBoundary = true := by simp [State.beginsBoundary, State.withBegun]
    rw [State.tryArr, if_pos (by simp [hm', hsent', harr', hheld', hbegins])]
  have hbnd : (s.withBegun true).sendArr.bnd =
      { s.bnd with begun := true, sentArr := true, phase := .arrived, signalled := s.disp.quiesce == Quiesce.waitStep } :=
    (MessageFrame.report _ 0).bnd
  have hframe : SameButReports s (s.withBegun true).sendArr := (SameButReports.with_bnd s _).trans (.sendArr _)
  have hexec : exec (.treeArr p) s = if (decide (p.srank.toNat = s.rank) && !s.bnd.sentArr) = true then .next (s.withBegun true).sendArr
      else .next ((s.withBegun true).sendArr.countReport p 0) := by
    refine (onPacket_of hr _).trans ?_
    rw [hc, Bool.not_true, if_neg Bool.false_ne_true]
    exact congrArg (fun x : State => if (decide (p.srank.toNat = s.rank) && !s.bnd.sentArr) = true then (.next x : Out)
      else .next (x.countReport p 0)) htry
  rw [hexec]
  split
  · exact ⟨_, rfl, by rw [hbnd], by rw [hbnd], hframe⟩
  · obtain ⟨h1, h2, -, -, h5⟩ := countReport_frame (s.withBegun true).sendArr p 0
    exact ⟨_, rfl, by rw [h5, hbnd], by rw [h2, hbnd], hframe.trans h1⟩

/-- Settles O56: `exec_report` brings each message to `countReport`, whose frame is `countReport_frame`; leaders go on by
`countReport_tells_root`, the root by `root_goes_on`. -/
theorem reportsAreCounted : Obligations.ReportsAreCounted := by
  unfold Obligations.ReportsAreCounted
  refine ⟨?_, fun s p hr hc hm hs ha hh => ?_, fun s p hr hc => ?_⟩
  · rintro s p ph i own hr hc hi rfl
    obtain ⟨b, hexec⟩ := exec_report hr hc hi
    obtain ⟨hframe, hphase, hwatch, hquiesce, -⟩ := countReport_frame (s.withBegun b) p ph
    have hsame : SameButReports s ((s.withBegun b).countReport p ph) := (SameButReports.with_bnd s _).trans hframe
    have hph : ph = 0 ∨ ph = 2 ∨ ph = 4 := by tauto
    refine ⟨⟨_, hexec, hsame.tasks, hsame.sameMemory, hsame.pregs, hphase, fun h => ?_, hquiesce,
      fun hg => lead_countReport (s := s.withBegun b) hg ph, fun hg => roots_countReport (s := s.withBegun b) hg ph⟩,
      fun r hl hnot hroot hg hfull => ⟨_, hexec, countReport_tells_root (s := s.withBegun b) hg hl hfull hnot hroot⟩,
      fun hpod hl hroot hg hfull => ?_⟩
    · rw [hwatch, show (s.withBegun b).isRoot = true from h, Bool.or_true]
    · obtain ⟨h1, h2, h3⟩ := root_goes_on (s := s.withBegun b) hph hpod hl hroot hg hfull
      refine ⟨fun hcut hres => ⟨_, hexec, (h1 hcut hres).trans ?_⟩, fun h0 hcut => ⟨_, hexec, h2 h0 hcut⟩,
        fun h4 hq hres => ⟨_, hexec, h3 h4 hq hres⟩⟩
      have hrow : downRow (ph + 1) (s.treePacket s.rank (ph + 1) false 0) = if ph = 0 then .treeDrain (s.treePacket s.rank 1 false 0)
          else if ph = 2 then .treeCommit (s.treePacket s.rank 3 false 0) else .treeRel (s.treePacket s.rank 5 false 0) := by
        rcases hph with rfl | rfl | rfl <;> simp [downRow]
      exact congrArg (fun x => s.agenda ++ [x]) hrow
  · obtain ⟨t, h1, h2, h3, h4⟩ := treeArr_arrives hr hc hm hs ha hh
    exact ⟨t, h1, h2, h3, h4.tasks, h4.sameMemory, h4.pregs⟩
  · have hno : ∀ {β : Type} (c : Bool) (x y : β), (if (s.current p && c) = true then x else y) = y := fun c x y =>
      if_neg (by simp [hc])
    refine ⟨(onPacket_of hr _).trans ?_, (exec_treeDrn hr).trans ?_, (exec_treeCmt hr).trans ?_, (onPacket_of hr _).trans ?_,
      (onPacket_of hr _).trans ?_, (onPacket_of hr _).trans ?_⟩ <;> simp [hc]

end Sys2Proof.Machine
end

section
/-! SUPPORT. What changes the fabric alone: ports that train and send, transactions that end (R383, R386 to R388, R397). -/

namespace Sys2Proof.Machine

namespace OnlyFabric

variable {s t u : State}

theorem pregs (h : OnlyFabric s t) : t.pregs = s.pregs := h.field State.pregs fun _ => rfl
theorem hmem (h : OnlyFabric s t) : t.hmem = s.hmem := h.field State.hmem fun _ => rfl
theorem outbound (h : OnlyFabric s t) : t.outbound = s.outbound := h.field State.outbound fun _ => rfl
theorem inbound (h : OnlyFabric s t) : t.inbound = s.inbound := h.field State.inbound fun _ => rfl
theorem bnd (h : OnlyFabric s t) : t.bnd = s.bnd := h.field State.bnd fun _ => rfl

theorem ite {c : Prop} [Decidable c] (h1 : OnlyFabric s t) (h2 : OnlyFabric s u) : OnlyFabric s (if c then t else u) := by
  split <;> assumption

theorem foldl {β : Type} {f : State → β → State} (hf : ∀ a x, OnlyFabric a (f a x)) (l : List β) (s : State) :
    OnlyFabric s (l.foldl f s) := by
  induction l generalizing s with
  | nil => exact refl s
  | cons x l ih => exact (hf s x).trans (ih (f s x))

theorem with_fab (s : State) (f : Fabric) : OnlyFabric s { s with fab := f } := rfl

theorem draw (s : State) : OnlyFabric s s.draw.2 := rfl

theorem setLink (s : State) (port : Nat) (l : Link) : OnlyFabric s (s.setLink port l) := rfl

theorem toFabric (s : State) (h : HeldPkt) : OnlyFabric s (s.toFabric h) := by
  unfold State.toFabric State.route?
  split
  · dsimp only
    split
    · exact with_fab s _
    · exact (draw s).trans (setLink _ _ _)
  · exact with_fab s _

theorem dropLink (s : State) (port : Nat) : OnlyFabric s (s.dropLink port) := rfl

theorem trainPort (s : State) (p : Nat) : OnlyFabric s (s.trainPort p) :=
  ite (refl s) (ite (dropLink s p) (ite (refl s) (setLink s p _)))

theorem trainLinks (s : State) : OnlyFabric s s.trainLinks := foldl trainPort _ s

theorem drainPorts (s : State) : OnlyFabric s s.drainPorts := foldl (fun a _ => ite (refl a) (setLink a _ _)) _ s

theorem pump (s : State) : OnlyFabric s s.pump := ite (refl s) ((with_fab s _).trans (foldl toFabric _ _))

theorem closeTxn (s : State) (x : Txn) : OnlyFabric s (s.closeTxn x) := by
  unfold State.closeTxn
  dsimp only
  split
  · exact with_fab s _
  · exact (with_fab s _).trans (startTxn_onlyFabric _ _)

end OnlyFabric

/-! ## Tables by key -/

theorem tfind_filter {α : Type} (p : Nat → Bool) (t : Tbl α) (i : Nat) :
    tfind (t.filter (fun e => p e.1)) i = if p i then tfind t i else none := by
  induction t with
  | nil => simp [tfind]
  | cons e t ih =>
    obtain ⟨k, v⟩ := e
    by_cases hp : p k
    · rw [List.filter_cons, if_pos hp, tfind, tfind, ih]
      by_cases hk : k = i
      · simp [← hk, hp]
      · simp [hk]
    · rw [List.filter_cons, if_neg hp, tfind, ih]
      by_cases hk : k = i
      · simp [← hk, hp]
      · simp [hk]

theorem tget_filter {α : Type} (d : α) (p : Nat → Bool) (t : Tbl α) (i : Nat) :
    tget d (t.filter (fun e => p e.1)) i = if p i then tget d t i else d := by
  rw [tget, tfind_filter]
  split <;> rfl

end Sys2Proof.Machine
end

section
/-! Writes of FCTL, MRATE and TCBASE (O51). -/

namespace Sys2Proof.Machine

/-! ## FCTL -/

theorem wrFctl_eq (s : State) (v : Word) : s.wrFctl v =
    if bits v.toNat 7 0 = 0 || 128 < bits v.toNat 7 0 then .bounds
    else if bit (s.preg 0x680) 8 && bits v.toNat 7 0 ≠ s.preg 0x680 % 256 then .done s
    else
      let s0 := s.setMasked 0x680 0x1FF v
      let s1 := if bits v.toNat 7 0 = s.preg 0x680 % 256 then s0 else s0.trainLinks
      .done (if s1.fabricOn then s1.drainPorts.pump else s1) := rfl

/-- A new FCTL trains ports and sends what waits. -/
theorem wrFctl_done {s : State} {v : Word} (h1 : 1 ≤ wordBits v 7 0) (h2 : wordBits v 7 0 ≤ 128)
    (h3 : bit (s.preg 0x680) 8 = false ∨ wordBits v 7 0 = s.preg 0x680 % 256) :
    ∃ t, s.wrFctl v = .done t ∧ OnlyFabric (s.setMasked 0x680 0x1FF v) t := by
  rw [wrFctl_eq, ← wordBits_eq, if_neg (by simp; omega), if_neg]
  · exact ⟨_, rfl, OnlyFabric.ite ((OnlyFabric.ite (.refl _) (.trainLinks _)).trans ((OnlyFabric.drainPorts _).trans (.pump _)))
      (OnlyFabric.ite (.refl _) (.trainLinks _))⟩
  · rcases h3 with h | h <;> simp [h]

theorem wrFctl_refused {s : State} {v : Word} (h : wordBits v 7 0 = 0 ∨ 128 < wordBits v 7 0 ∨
    (bit (s.preg 0x680) 8 = true ∧ wordBits v 7 0 ≠ s.preg 0x680 % 256)) : (s.wrFctl v).out s = .next s := by
  rw [wrFctl_eq, ← wordBits_eq]
  by_cases hr : (wordBits v 7 0 = 0 || 128 < wordBits v 7 0 : Bool) = true
  · rw [if_pos hr, Wr.out_bounds]
  · rw [if_neg hr, if_pos, Wr.out_done]
    simp only [Bool.or_eq_true, decide_eq_true_eq, not_or] at hr
    obtain ⟨hon, hne⟩ : bit (s.preg 0x680) 8 = true ∧ wordBits v 7 0 ≠ s.preg 0x680 % 256 := by tauto
    simp [hon, hne]

theorem fctl_writes (s : State) (v : Word) :
    (1 ≤ wordBits v 7 0 ∧ wordBits v 7 0 ≤ 128 ∧ (bit (s.preg 0x680) 8 = false ∨ wordBits v 7 0 = s.preg 0x680 % 256) →
      ∃ t, exec (.fctlWrite v) s = .next t ∧ bits (t.preg 0x680) 8 0 = wordBits v 8 0 ∧ RegistersBut [0x680] s t ∧ t.tasks = s.tasks ∧
        SameMemory s t) ∧
    (wordBits v 7 0 = 0 ∨ 128 < wordBits v 7 0 ∨ (bit (s.preg 0x680) 8 = true ∧ wordBits v 7 0 ≠ s.preg 0x680 % 256) →
      exec (.fctlWrite v) s = .next s) := by
  refine ⟨fun ⟨h1, h2, h3⟩ => ?_, wrFctl_refused⟩
  obtain ⟨t, ht, hf⟩ := wrFctl_done h1 h2 h3
  have hpreg : ∀ n, t.preg n = (s.setMasked 0x680 0x1FF v).preg n := fun n => hf.field (fun x => x.preg n) fun _ => rfl
  refine ⟨t, congrArg (fun w : Wr => w.out s) ht, ?_, fun n hn => ?_, hf.tasks, hf.sameMemory⟩
  · rw [hpreg, bits_preg_setMasked_covered _ _ _ _ (by decide)]
    decide
  · rw [hpreg, preg_setMasked_other _ _ _ (by simpa using hn)]

/-! ## MRATE -/

/-- The channels of a stack below n begin to switch, those that do not stand at their target. -/
def State.startSwitches (s : State) (k n : Nat) : State := (List.range n).foldl (fun a c => a.startSwitch (32 * k + c)) s

theorem startSwitches_succ (s : State) (k n : Nat) : s.startSwitches k (n + 1) = (s.startSwitches k n).startSwitch (32 * k + n) := by
  rw [State.startSwitches, List.range_succ, List.foldl_append]
  rfl

/-- A state with the registers and the memory system of another. -/
def State.withRatesOf (t s : State) : State := { t with pregs := s.pregs, ms := s.ms }

/-- Of the state, the status register of the stack and the targets of its channels below n change. -/
structure SwitchFrame (s t : State) (k n : Nat) : Prop where
  rest : SameUpTo State.withRatesOf s t
  registers : RegistersBut [0x520 + k] s t
  rate : t.ms.rate = s.ms.rate
  status : ∀ c, c < 32 → (t.preg (0x520 + k)).testBit c = ((s.preg (0x520 + k)).testBit c ||
    (decide (c < n) && decide (s.rateTarget (32 * k + c) ≠ tget 0 s.ms.rate (32 * k + c))))
  target : ∀ c, c < n → (s.preg (0x520 + k)).testBit c = false → s.rateTarget (32 * k + c) ≠ tget 0 s.ms.rate (32 * k + c) →
    tget 0 t.ms.target (32 * k + c) = s.rateTarget (32 * k + c)

/-- One channel begins to switch. -/
theorem startSwitch_of {s : State} {ch : Nat} (hbusy : s.rateBusy ch = false) (hne : s.rateTarget ch ≠ tget 0 s.ms.rate ch) :
    s.startSwitch ch = { s.setPregBits (0x520 + ch / 32) (ch % 32) (ch % 32) 1 with
      ms := { s.ms with target := tset 0 s.ms.target ch (s.rateTarget ch) } } := by
  unfold State.startSwitch
  rw [hbusy, if_neg (by simp [hne])]
  rfl

theorem startSwitch_of_not {s : State} {ch : Nat} (h : s.rateBusy ch = true ∨ s.rateTarget ch = tget 0 s.ms.rate ch) :
    s.startSwitch ch = s := by
  unfold State.startSwitch
  rw [if_pos (by simpa using h)]

/-- The status bit of a channel that begins to switch. -/
theorem testBit_preg_setBit (s : State) (n : Nat) {c i : Nat} (hc : c < 32) :
    ((s.setPregBits n c c 1).preg n).testBit i = (decide (i = c) || (s.preg n).testBit i) := by
  rw [preg_setPregBits_same _ _ _ _ _ (Nat.le_refl c) (by omega), testBit_setBits _ _ _ _ _ (Nat.le_refl c)]
  by_cases h : i = c
  · simp [h]
  · rw [if_neg (by omega)]
    simp [h]

theorem rateTarget_congr {s t : State} {ch : Nat} (h : t.preg (0x510 + ch / 32) = s.preg (0x510 + ch / 32)) :
    t.rateTarget ch = s.rateTarget ch := by
  rw [State.rateTarget, h]
  rfl

theorem startSwitches_frame (s : State) (k : Nat) {n : Nat} (hn : n ≤ 32) : SwitchFrame s (s.startSwitches k n) k n := by
  induction n with
  | zero => exact ⟨rfl, fun _ _ => rfl, rfl, fun c _ => by simp [State.startSwitches], fun c hc => absurd hc (Nat.not_lt_zero c)⟩
  | succ n ih =>
    rw [startSwitches_succ]
    obtain ⟨hrest, hregs, hrate, hstatus, htarget⟩ := ih (by omega)
    generalize s.startSwitches k n = a at *
    have hdiv : (32 * k + n) / 32 = k := by omega
    have hmod : (32 * k + n) % 32 = n := by omega
    have hbusy : a.rateBusy (32 * k + n) = (s.preg (0x520 + k)).testBit n := by
      rw [State.rateBusy, hdiv, hmod, bit, hstatus n (by omega)]
      simp
    have htgt : a.rateTarget (32 * k + n) = s.rateTarget (32 * k + n) := rateTarget_congr (hregs _ (by simp; omega))
    by_cases hsw : (s.preg (0x520 + k)).testBit n = true ∨ s.rateTarget (32 * k + n) = tget 0 s.ms.rate (32 * k + n)
    · rw [startSwitch_of_not (by rw [hbusy, htgt, hrate]; exact hsw)]
      refine ⟨hrest, hregs, hrate, fun c hc => ?_, fun c hc hb hne => ?_⟩
      · rw [hstatus c hc]
        rcases Nat.lt_trichotomy c n with h | rfl | h
        · simp [h, Nat.lt_succ_of_lt h]
        · rcases hsw with h | h <;> simp [h]
        · simp [Nat.not_lt.2 h.le, Nat.not_lt.2 h]
      · rcases Nat.lt_succ_iff_lt_or_eq.1 hc with h | rfl
        · exact htarget c h hb hne
        · simp [hb, hne] at hsw
    · obtain ⟨hb, hne⟩ := not_or.1 hsw
      rw [startSwitch_of (by rw [hbusy]; simpa using hb) (by rw [htgt, hrate]; exact hne), hdiv, hmod, htgt]
      refine ⟨?_, fun m hm => ?_, hrate, fun c hc => ?_, fun c hc hb' hne' => ?_⟩
      · exact hrest
      · exact (preg_setPregBits_other a _ _ _ (by simpa using hm)).trans (hregs m hm)
      · refine (testBit_preg_setBit a (0x520 + k) (by omega)).trans ?_
        rw [hstatus c hc]
        rcases Nat.lt_trichotomy c n with h | rfl | h
        · simp [h, Nat.lt_succ_of_lt h, h.ne]
        · simp [hne]
        · simp [Nat.not_lt.2 h.le, Nat.not_lt.2 h, h.ne']
      · by_cases hcn : c = n
        · rw [hcn]
          exact tget_tset_same ..
        · exact (tget_tset_other _ _ _ (by omega)).trans (htarget c (by omega) hb' hne')

theorem wrMrate_eq (s : State) (k : Nat) (v : Word) : s.wrMrate k v =
    if 11 < k || (List.range 32).any (fun c => bits v.toNat (2 * c + 1) (2 * c) = 3) then .bounds
    else .done ((s.setPreg (0x510 + k) v.toNat).startSwitches k 32) := rfl

theorem mrate_refused_iff (k : Nat) (v : Word) : (11 < k || (List.range 32).any (fun c => bits v.toNat (2 * c + 1) (2 * c) = 3) : Bool) = true ↔
    11 < k ∨ ∃ c, c < 32 ∧ wordBits v (2 * c + 1) (2 * c) = 3 := by
  simp only [Bool.or_eq_true, decide_eq_true_eq, List.any_eq_true, List.mem_range, wordBits_eq]

theorem exec_mrateWrite (k : BitVec 4) (v : Word) (s : State) : exec (.mrateWrite k v) s = (s.wrMrate k.toNat v).out s := rfl

theorem mrate_writes (s : State) (k : BitVec 4) (v : Word) :
    (k.toNat ≤ 11 → (∀ c, c < 32 → wordBits v (2 * c + 1) (2 * c) ≠ 3) →
      ∃ t, exec (.mrateWrite k v) s = .next t ∧ t.preg (0x510 + k.toNat) = v.toNat ∧ RegistersBut [0x510 + k.toNat, 0x520 + k.toNat] s t ∧
        t.tasks = s.tasks ∧ SameMemory s t ∧ t.ms.rate = s.ms.rate ∧
        ∀ c, c < 32 → (bit (t.preg (0x520 + k.toNat)) c = (bit (s.preg (0x520 + k.toNat)) c ||
            decide (wordBits v (2 * c + 1) (2 * c) ≠ tget 0 s.ms.rate (32 * k.toNat + c)))) ∧
          (bit (s.preg (0x520 + k.toNat)) c = false → wordBits v (2 * c + 1) (2 * c) ≠ tget 0 s.ms.rate (32 * k.toNat + c) →
            tget 0 t.ms.target (32 * k.toNat + c) = wordBits v (2 * c + 1) (2 * c))) ∧
    (11 < k.toNat ∨ (∃ c, c < 32 ∧ wordBits v (2 * c + 1) (2 * c) = 3) → exec (.mrateWrite k v) s = .next s) := by
  rw [exec_mrateWrite, wrMrate_eq]
  refine ⟨fun hk hv => ?_, fun h => Wr.out_guard_bounds ((mrate_refused_iff _ v).2 h)⟩
  have hno : ¬(11 < k.toNat || (List.range 32).any (fun c => bits v.toNat (2 * c + 1) (2 * c) = 3) : Bool) = true := by
    rw [mrate_refused_iff]
    rintro (h | ⟨c, hc, h⟩)
    · omega
    · exact hv c hc h
  obtain ⟨hrest, hregs, hrate, hstatus, htarget⟩ := startSwitches_frame (s.setPreg (0x510 + k.toNat) v.toNat) k.toNat (Nat.le_refl 32)
  have hv64 : (s.setPreg (0x510 + k.toNat) v.toNat).preg (0x510 + k.toNat) = v.toNat := by
    rw [preg_setPreg_same, Nat.mod_eq_of_lt v.isLt]
  have hs20 : (s.setPreg (0x510 + k.toNat) v.toNat).preg (0x520 + k.toNat) = s.preg (0x520 + k.toNat) := preg_setPreg_other _ _ (by omega)
  have hgoal : ∀ c, c < 32 → (s.setPreg (0x510 + k.toNat) v.toNat).rateTarget (32 * k.toNat + c) = wordBits v (2 * c + 1) (2 * c) := fun c hc => by
    rw [State.rateTarget, show (32 * k.toNat + c) / 32 = k.toNat by omega, show (32 * k.toNat + c) % 32 = c by omega, hv64, wordBits_eq]
  refine ⟨_, Wr.out_guard_done hno, (hregs _ (by simp)).trans hv64, fun n hn => ?_, hrest.field State.tasks fun _ => rfl, ?_, hrate, fun c hc => ⟨?_, ?_⟩⟩
  · simp only [List.mem_cons, List.not_mem_nil, or_false, not_or] at hn
    exact (hregs n (by simpa using hn.2)).trans (preg_setPreg_other _ _ hn.1)
  · exact ⟨fun a => hrest.field (fun x => rdByte x.mem a) fun _ => rfl, fun a => hrest.field (fun x => rdByte x.hmem a) fun _ => rfl⟩
  · rw [bit, bit, hstatus c hc, hs20, hgoal c hc, decide_eq_true hc, Bool.true_and]
    rfl
  · intro hb hne
    rw [htarget c hc (by rw [hs20]; exact hb) (by rw [hgoal c hc]; exact hne), hgoal c hc]

/-! ## TCBASE -/

theorem localOf_of {s : State} {pa la n : Nat} (h : s.rank * 2 ^ 40 + la = pa) (hn : la + n ≤ memLimit) : s.localOf pa n = .ok la := by
  have hla : la < 2 ^ 40 := lt_of_le_of_lt (Nat.le_add_right la n |>.trans hn) (by decide)
  have hmod : pa % 2 ^ 40 = la := by rw [← h, Nat.mul_add_mod_self_right, Nat.mod_eq_of_lt hla]
  have hdiv : pa / 2 ^ 40 = s.rank := by rw [← h, Nat.mul_comm, Nat.mul_add_div (by decide), Nat.div_eq_of_lt hla, Nat.add_zero]
  unfold State.localOf
  rw [hmod, hdiv, if_pos (by simp [hn])]

/-- The zeroed region reads 0. -/
theorem rdByte_zeroLocal (s : State) (la n a : Nat) :
    rdByte (s.zeroLocal la n).mem a = if la ≤ a ∧ a < la + n then 0 else rdByte s.mem a := by
  have h := tget_filter 0 (fun x => decide (x < la) || decide (la + n ≤ x)) s.mem a
  refine (show rdByte (s.zeroLocal la n).mem a = _ from h).trans ?_
  by_cases hin : la ≤ a ∧ a < la + n
  · rw [if_neg (by simp; omega), if_pos hin]
  · rw [if_pos (by simp; omega), if_neg hin]
    rfl

theorem exec_tcbaseWrite (v : Word) (s : State) : exec (.tcbaseWrite v) s = (s.wrTcbase v).out s := rfl

/-- The first write after a boot that advanced SVFUSE (R410). -/
theorem wrTcbase_zeroes {s : State} {v : Word} {la : Nat} (h1 : s.host.fuseAdvanced = true) (h2 : s.host.tcZeroed = false)
    (h3 : bits (s.preg 0x709) 39 0 ≠ 0) (h4 : s.rank * 2 ^ 40 + la = wordBits v 51 0) (h5 : la + bits (s.preg 0x709) 39 0 ≤ memLimit) :
    s.wrTcbase v = .done (State.zeroLocal { s.setMasked 0x708 0xFFFFFFFFFFFFF v with host := { s.host with tcZeroed := true } } la
      (bits (s.preg 0x709) 39 0)) := by
  have hrank : State.rank { s.setMasked 0x708 0xFFFFFFFFFFFFF v with host := { s.host with tcZeroed := true } } = s.rank :=
    congrArg (· % 4096) (preg_setMasked_other s _ _ (by decide) : (s.setMasked 0x708 0xFFFFFFFFFFFFF v).preg 0x002 = _)
  have hl := localOf_of (s := { s.setMasked 0x708 0xFFFFFFFFFFFFF v with host := { s.host with tcZeroed := true } }) (pa := bits v.toNat 51 0)
    (by rw [hrank]; exact h4) h5
  unfold State.wrTcbase
  rw [h1, h2, if_neg (by decide)]
  dsimp only [State.setMasked_host]
  rw [if_neg h3, hl]

theorem tcbase_writes (s : State) (v : Word) (la size : Nat) (hs : size = bits (s.preg 0x709) 39 0) :
    (s.host.fuseAdvanced = false ∨ s.host.tcZeroed = true → ∃ t, exec (.tcbaseWrite v) s = .next t ∧ RegisterTakes s t 0x708 0xFFFFFFFFFFFFF v) ∧
    (s.host.fuseAdvanced = true → s.host.tcZeroed = false → size ≠ 0 → s.rank * 2 ^ 40 + la = wordBits v 51 0 → la + size ≤ memLimit →
      ∃ t, exec (.tcbaseWrite v) s = .next t ∧ t.host.tcZeroed = true ∧ RegistersBut [0x708] s t ∧ t.tasks = s.tasks ∧
        ∀ a, rdByte t.mem a = if la ≤ a ∧ a < la + size then 0 else rdByte s.mem a) := by
  subst hs
  refine ⟨fun h => ⟨_, ?_, registerTakes_setMasked s _ _ v⟩, fun h1 h2 h3 h4 h5 => ?_⟩
  · rw [exec_tcbaseWrite, State.wrTcbase, if_pos (by simpa using h), Wr.out_done]
  · refine ⟨_, (exec_tcbaseWrite v s).trans (congrArg (fun w : Wr => w.out s) (wrTcbase_zeroes h1 h2 h3 h4 h5)), rfl, fun n hn => ?_, rfl, fun a => ?_⟩
    · exact preg_setMasked_other s _ _ (by simpa using hn)
    · exact rdByte_zeroLocal _ la _ a

end Sys2Proof.Machine
end

section
/-! A rank written to DEADSET (O51): every transaction to it ends (R391, R398). -/

namespace Sys2Proof.Machine

/-! ## What ending a transaction changes -/

/-- A state with the tasks, outbound records, boundary, agenda, fabric and counter of free choices of another. -/
def State.withPeersOf (t s : State) : State :=
  { t with tasks := s.tasks, outbound := s.outbound, bnd := s.bnd, agenda := s.agenda, fab := s.fab, freeCtr := s.freeCtr }

/-- Nothing but tasks, outbound records, the boundary, the agenda, the fabric and the counter of free choices differs. -/
def PeerFrame (s t : State) : Prop := SameUpTo State.withPeersOf s t

namespace PeerFrame

variable {s t u : State}

theorem refl (s : State) : PeerFrame s s := rfl

theorem trans (h1 : PeerFrame s t) (h2 : PeerFrame t u) : PeerFrame s u := SameUpTo.trans (fun _ _ _ => rfl) h1 h2

theorem foldl {β : Type} {f : State → β → State} (hf : ∀ a x, PeerFrame a (f a x)) (l : List β) (s : State) : PeerFrame s (l.foldl f s) :=
  SameUpTo.foldl (w := State.withPeersOf) (fun _ _ _ => rfl) (fun _ => rfl) hf l s

theorem ite {c : Prop} [Decidable c] (h1 : PeerFrame s t) (h2 : PeerFrame s u) : PeerFrame s (if c then t else u) := by
  split <;> assumption

theorem pregs (h : PeerFrame s t) : t.pregs = s.pregs := SameUpTo.field h State.pregs fun _ => rfl

theorem sameMemory (h : PeerFrame s t) : SameMemory s t :=
  ⟨fun a => SameUpTo.field h (fun x => rdByte x.mem a) fun _ => rfl, fun a => SameUpTo.field h (fun x => rdByte x.hmem a) fun _ => rfl⟩

theorem of_onlyFabric (h : OnlyFabric s t) : PeerFrame s t := (congrArg (fun x : State => x.withPeersOf s) h :)

theorem of_reports (h : SameButReports s t) : PeerFrame s t := (congrArg (fun x : State => x.withPeersOf s) h :)

theorem with_outbound (s : State) (l : List Rec) : PeerFrame s { s with outbound := l } := rfl

theorem tryDrn (s : State) : PeerFrame s s.tryDrn :=
  ite (of_reports ((SameButReports.with_bnd s _).trans (.of_messages (.report _ 2)))) (refl s)

end PeerFrame

/-- A state with the tasks of another. -/
def State.withTasksOf (t s : State) : State := { t with tasks := s.tasks }

/-- A fault that is kept for later changes tasks alone. -/
theorem deferFault_frame (s : State) (ag : Agent) (f : FaultInfo) (pc : Word) : SameUpTo State.withTasksOf s (s.deferFault ag f pc) := by
  unfold State.deferFault
  split
  · rfl
  · split
    · rfl
    · split
      · rfl
      next p _ =>
        generalize p.ending = e
        cases e <;> rfl

/-- A load that ends without its value changes tasks alone (R392). -/
theorem failLoad_frame (s : State) (ag : Agent) (po code : Nat) : SameUpTo State.withTasksOf s (s.failLoad ag po code) := by
  unfold State.failLoad
  split
  · rfl
  · split
    · rfl
    · exact SameUpTo.trans (w := State.withTasksOf) (fun _ _ _ => rfl) (putHart_frame s ag _) (deferFault_frame _ ag _ _)

theorem PeerFrame.of_failLoad (s : State) (ag : Agent) (po code : Nat) : PeerFrame s (s.failLoad ag po code) :=
  (congrArg (fun x : State => x.withPeersOf s) (failLoad_frame s ag po code) :)

/-- Who waits for a transaction that fails: no packet is touched. -/
theorem failOwner_frame (s : State) (x : Txn) (code : Nat) : PeerFrame s (s.failOwner x code) ∧ (s.failOwner x code).fab = s.fab := by
  unfold State.failOwner
  split
  · exact ⟨.of_failLoad s _ _ code, (failLoad_frame s _ _ code).field State.fab fun _ => rfl⟩
  · split
    · exact ⟨.refl s, rfl⟩
    · split
      · exact ⟨.refl s, rfl⟩
      · split
        · exact ⟨.refl s, rfl⟩
        · exact ⟨rfl, rfl⟩
  · exact ⟨rfl, rfl⟩

theorem failTxn_frame (s : State) (x : Txn) (code : Nat) : PeerFrame s (s.failTxn x code) :=
  (PeerFrame.of_onlyFabric (.closeTxn s x)).trans (failOwner_frame _ x code).1

theorem endPeer_frame (s : State) (r : Nat) : PeerFrame s (s.endPeer r) := by
  have hfab : ∀ f : Fabric, PeerFrame s { s with fab := f } := fun _ => rfl
  have htasks : ∀ a : State, PeerFrame a (a.tasks.foldl (fun a e => (e.2.unasked r).foldl (fun b po => b.failLoad (.scp e.1) po cPEERDEAD) a) a) :=
    fun a => .foldl (fun b e => .foldl (fun c po => .of_failLoad c _ po _) _ b) _ a
  unfold State.endPeer
  dsimp only
  have h0 := ((hfab { s.fab with unsent := s.fab.unsent.filter (fun x => x.pkt.drank.toNat ≠ r) }).trans
    (PeerFrame.foldl (fun a x => failTxn_frame a x cPEERDEAD) (s.fab.txns.filter (fun x => x.pkt.drank.toNat = r)) _)).trans
    (PeerFrame.foldl (fun a x => (failOwner_frame a x cPEERDEAD).1) (s.fab.unsent.filter (fun x => x.pkt.drank.toNat = r)) _)
  have h1 := h0.trans (PeerFrame.ite (c := r = s.rank) (.refl _) (htasks _))
  exact PeerFrame.ite (h1.trans ((PeerFrame.with_outbound _ _).trans (.tryDrn _))) h1

/-! ## The transactions to a rank -/

/-- Every transaction to rank r has a number of these, and none to it waits for a number. -/
def EndsWith (f : Fabric) (r : Nat) (ids : List (BitVec 16)) : Prop :=
  (∀ x ∈ f.txns, x.pkt.drank.toNat = r → x.txid ∈ ids) ∧ ∀ x ∈ f.unsent, x.pkt.drank.toNat ≠ r

/-- R384, R388: when a transaction ends, one that waited for a number goes out. -/
theorem closeTxn_fab (s : State) (x : Txn) :
    (s.fab.unsent = [] → (s.closeTxn x).fab.txns = s.fab.txns.filter (fun y => y.txid ≠ x.txid) ∧ (s.closeTxn x).fab.unsent = []) ∧
    ∀ y rest, s.fab.unsent = y :: rest →
      (∃ id, (∀ z ∈ s.fab.txns, z.txid ≠ x.txid → z.txid ≠ id) ∧
        (s.closeTxn x).fab.txns = s.fab.txns.filter (fun z => z.txid ≠ x.txid) ++ [y.numbered id] ∧ (s.closeTxn x).fab.unsent = rest) ∨
      ((∀ n : BitVec 16, ∃ z ∈ s.fab.txns, z.txid ≠ x.txid ∧ z.txid = n) ∧
        (s.closeTxn x).fab.txns = s.fab.txns.filter (fun z => z.txid ≠ x.txid) ∧ (s.closeTxn x).fab.unsent = rest ++ [y]) := by
  refine ⟨fun h => ?_, fun y rest h => ?_⟩
  · simp [State.closeTxn, h]
  · have hclose : s.closeTxn x = State.startTxn { s with fab := { s.fab with
        txns := s.fab.txns.filter (fun y => y.txid ≠ x.txid), unsent := rest,
        waiting := s.fab.waiting.filter (fun h => !(h.port.isNone && classOf h.pkt == 0 && h.pkt.txid == x.txid)) } } y := by
      simp only [State.closeTxn, h]
    rw [hclose]
    have hmem : ∀ z, z ∈ s.fab.txns.filter (fun z => z.txid ≠ x.txid) ↔ z ∈ s.fab.txns ∧ z.txid ≠ x.txid := by simp
    rcases startTxn_sends _ y with ⟨id, hfree, htx, hun, -⟩ | ⟨hfull, hfab⟩
    · exact .inl ⟨id, fun z hz hne => hfree z ((hmem z).2 ⟨hz, hne⟩), htx, hun⟩
    · refine .inr ⟨fun n => ?_, ?_⟩
      · obtain ⟨z, hz, rfl⟩ := hfull n
        exact ⟨z, ((hmem z).1 hz).1, ((hmem z).1 hz).2, rfl⟩
      · rw [hfab]
        exact ⟨rfl, rfl⟩

/-- A transaction that fails leaves those with the other numbers. -/
theorem endsWith_failTxn {s : State} {r : Nat} {x : Txn} {ids : List (BitVec 16)} (h : EndsWith s.fab r (x.txid :: ids)) (code : Nat) :
    EndsWith (s.failTxn x code).fab r ids := by
  obtain ⟨htx, hun⟩ := h
  obtain ⟨hnone, hsome⟩ := closeTxn_fab s x
  have hfab : (s.failTxn x code).fab = (s.closeTxn x).fab := (failOwner_frame _ x code).2
  have hleft : ∀ z ∈ s.fab.txns.filter (fun z => z.txid ≠ x.txid), z.pkt.drank.toNat = r → z.txid ∈ ids := fun z hz hr => by
    obtain ⟨hz, hne⟩ := List.mem_filter.1 hz
    exact (List.mem_cons.1 (htx z hz hr)).resolve_left (by simpa using hne)
  rw [EndsWith, hfab]
  cases hu : s.fab.unsent with
  | nil =>
    obtain ⟨h1, h2⟩ := hnone hu
    rw [h1, h2]
    exact ⟨hleft, by simp⟩
  | cons y rest =>
    rw [hu, List.forall_mem_cons] at hun
    obtain ⟨hy, hrest⟩ := hun
    rcases hsome y rest hu with ⟨id, -, h1, h2⟩ | ⟨-, h1, h2⟩
    · rw [h1, h2]
      refine ⟨fun z hz hr => ?_, hrest⟩
      rcases List.mem_append.1 hz with hz | hz
      · exact hleft z hz hr
      · rw [List.mem_singleton.1 hz] at hr
        exact absurd hr hy
    · rw [h1, h2]
      exact ⟨hleft, by simpa [or_imp, forall_and] using ⟨hrest, hy⟩⟩

theorem endsWith_foldl_failTxn {r code : Nat} (l : List Txn) {s : State} (h : EndsWith s.fab r (l.map (·.txid))) :
    EndsWith (l.foldl (fun a x => a.failTxn x code) s).fab r [] := by
  induction l generalizing s with
  | nil => exact h
  | cons x l ih => exact ih (endsWith_failTxn h code)

/-- With nothing that waits for a number, transactions only end. -/
theorem foldl_failTxn_subset {code : Nat} (l : List Txn) {s : State} (h : s.fab.unsent = []) :
    (l.foldl (fun a x => a.failTxn x code) s).fab.txns ⊆ s.fab.txns := by
  induction l generalizing s with
  | nil => exact List.Subset.refl _
  | cons x l ih =>
    have hfab : (s.failTxn x code).fab = (s.closeTxn x).fab := (failOwner_frame _ x code).2
    obtain ⟨h1, h2⟩ := (closeTxn_fab s x).1 h
    refine List.Subset.trans (ih (by rw [hfab, h2])) ?_
    rw [hfab, h1]
    exact List.filter_subset_self _

theorem foldl_fab {β : Type} {f : State → β → State} (hf : ∀ a x, (f a x).fab = a.fab) (l : List β) (s : State) : (l.foldl f s).fab = s.fab := by
  induction l generalizing s with
  | nil => rfl
  | cons x l ih => exact (ih _).trans (hf s x)

theorem tryDrn_txns (s : State) : s.tryDrn.fab.txns = s.fab.txns ∧ s.tryDrn.fab.unsent = s.fab.unsent := by
  unfold State.tryDrn
  split
  · have h := MessageFrame.report { s with bnd := { s.bnd with phase := .drained, sentDrn := true } } 2
    exact ⟨h.txns, h.unsent⟩
  · exact ⟨rfl, rfl⟩

/-- The transactions that end for a dead rank: its own, and with nothing waiting for a number no other begins. -/
theorem endPeer_txns (s : State) (r : Nat) : EndsWith (s.endPeer r).fab r [] ∧ (s.fab.unsent = [] → (s.endPeer r).fab.txns ⊆ s.fab.txns) := by
  have hunasked : ∀ a : State, (a.tasks.foldl (fun a e => (e.2.unasked r).foldl (fun b po => b.failLoad (.scp e.1) po cPEERDEAD) a) a).fab = a.fab :=
    fun a => foldl_fab (fun b e => foldl_fab (fun c po => (failLoad_frame c _ po _).field State.fab fun _ => rfl) _ b) _ a
  have hdrop : ∀ a : State, a.dropDead.tryDrn.fab.txns = a.fab.txns ∧ a.dropDead.tryDrn.fab.unsent = a.fab.unsent := fun a => tryDrn_txns a.dropDead
  obtain ⟨s9, hs9⟩ : ∃ x : State, x = { s with fab := { s.fab with unsent := s.fab.unsent.filter (fun x => x.pkt.drank.toNat ≠ r) } } := ⟨_, rfl⟩
  obtain ⟨s8, hs8⟩ : ∃ x : State, x = (s.fab.txns.filter (fun x => x.pkt.drank.toNat = r)).foldl (fun a x => a.failTxn x cPEERDEAD) s9 := ⟨_, rfl⟩
  have hend : (s.endPeer r).fab.txns = s8.fab.txns ∧ (s.endPeer r).fab.unsent = s8.fab.unsent := by
    have hlate : ((s.fab.unsent.filter (fun x => x.pkt.drank.toNat = r)).foldl (fun a x => a.failOwner x cPEERDEAD) s8).fab = s8.fab :=
      foldl_fab (fun a x => (failOwner_frame a x _).2) _ s8
    unfold State.endPeer
    dsimp only
    rw [← hs9, ← hs8]
    generalize (s.fab.unsent.filter (fun x => x.pkt.drank.toNat = r)).foldl (fun a x => a.failOwner x cPEERDEAD) s8 = s0 at hlate
    by_cases hr : r = s.rank
    · rw [if_pos hr]
      split
      · rw [← hlate]
        exact hdrop s0
      · rw [hlate]
        exact ⟨rfl, rfl⟩
    · rw [if_neg hr]
      split
      · rw [← hlate, ← hunasked s0]
        exact hdrop _
      · rw [hunasked, hlate]
        exact ⟨rfl, rfl⟩
  have hids : EndsWith s9.fab r ((s.fab.txns.filter (fun x => x.pkt.drank.toNat = r)).map (·.txid)) := by
    rw [hs9]
    exact ⟨fun x hx hr => List.mem_map.2 ⟨x, List.mem_filter.2 ⟨hx, by simpa using hr⟩, rfl⟩, fun x hx => by simpa using (List.mem_filter.1 hx).2⟩
  rw [EndsWith, hend.1, hend.2, hs8]
  refine ⟨endsWith_foldl_failTxn _ hids, fun h => ?_⟩
  have hsub := foldl_failTxn_subset (code := cPEERDEAD) (s.fab.txns.filter (fun x => x.pkt.drank.toNat = r)) (s := s9)
    (by rw [hs9]; show s.fab.unsent.filter _ = []; rw [h]; rfl)
  rwa [hs9] at hsub ⊢

/-! ## The dead-peer bitmap -/

theorem preg_setDead_same (s : State) (r : Nat) : (s.setDead r).preg (0x640 + r / 64) = s.preg (0x640 + r / 64) ||| 2 ^ (r % 64) := by
  refine (preg_setPreg_same ..).trans (Nat.mod_eq_of_lt (Nat.or_lt_two_pow (preg_lt s _) (Nat.pow_lt_pow_right (by decide) ?_)))
  exact Nat.mod_lt _ (by decide)

theorem deadset_writes (s : State) (r : BitVec 12) : ∃ t, exec (.deadset r) s = .next t ∧
    (t.preg (0x640 + r.toNat / 64)).testBit (r.toNat % 64) = true ∧
    (∀ b, b ≠ r.toNat % 64 → (t.preg (0x640 + r.toNat / 64)).testBit b = (s.preg (0x640 + r.toNat / 64)).testBit b) ∧
    RegistersBut [0x640 + r.toNat / 64] s t ∧ SameMemory s t ∧ (∀ x ∈ t.fab.txns, x.pkt.drank ≠ r) ∧ (∀ x ∈ t.fab.unsent, x.pkt.drank ≠ r) ∧
    (s.fab.unsent = [] → ∀ x ∈ t.fab.txns, x ∈ s.fab.txns) := by
  have hframe := endPeer_frame (s.setDead r.toNat) r.toNat
  obtain ⟨⟨htx, hun⟩, hsub⟩ := endPeer_txns (s.setDead r.toNat) r.toNat
  have hpreg : ∀ n, ((s.setDead r.toNat).endPeer r.toNat).preg n = (s.setDead r.toNat).preg n := fun n => by
    rw [State.preg, hframe.pregs]
    rfl
  refine ⟨(s.setDead r.toNat).endPeer r.toNat, rfl, ?_, fun b hb => ?_, fun n hn => ?_, hframe.sameMemory, fun x hx he => ?_, fun x hx he => ?_,
    fun h x hx => hsub h hx⟩
  · rw [hpreg, preg_setDead_same, Nat.testBit_or, Nat.testBit_two_pow_self, Bool.or_true]
  · rw [hpreg, preg_setDead_same, Nat.testBit_or, Nat.testBit_two_pow_of_ne hb.symm, Bool.or_false]
  · exact (hpreg n).trans (preg_setPreg_other s _ (by simpa using hn))
  · exact absurd (htx x hx (congrArg BitVec.toNat he)) (by simp)
  · exact hun x hx (congrArg BitVec.toNat he)

end Sys2Proof.Machine
end

section
/-! Writes of LASERCTL (O51): laser units lit and put out (R395, R396). -/

namespace Sys2Proof.Machine

/-! ## Links changed one by one -/

theorem link_setLink (s : State) (p q : Nat) (l : Link) : (s.setLink p l).link q = if q = p then l else s.link q := tget_tset ..

/-- Where each step of a fold over ports changes the link of its port alone, as a function of that link. -/
theorem link_foldl {f : State → Nat → State} {g : Nat → Link → Link} (hf : ∀ a p q, (f a p).link q = if q = p then g p (a.link p) else a.link q)
    {l : List Nat} (hl : l.Nodup) (s : State) (q : Nat) : (l.foldl f s).link q = if q ∈ l then g q (s.link q) else s.link q := by
  induction l generalizing s with
  | nil => simp
  | cons p l ih =>
    obtain ⟨hp, hl⟩ := List.nodup_cons.1 hl
    rw [List.foldl_cons, ih hl, hf]
    by_cases hq : q = p
    · rw [hq, if_neg hp, if_pos rfl, if_pos (List.mem_cons_self ..)]
    · simp [hq]

theorem mem_upGlobals (s : State) (p : Nat) : p ∈ s.upGlobals ↔ 32 ≤ p ∧ p < 48 ∧ (s.link p).up = true := by
  unfold State.upGlobals
  simp only [List.mem_filter, List.mem_map, List.mem_range]
  constructor
  · rintro ⟨⟨i, hi, rfl⟩, h⟩
    exact ⟨by omega, by omega, h⟩
  · rintro ⟨h1, h2, h3⟩
    exact ⟨⟨p - 32, by omega, by omega⟩, h3⟩

theorem nodup_upGlobals (s : State) : s.upGlobals.Nodup :=
  List.Nodup.filter _ (List.nodup_range.map fun _ _ h => Nat.add_left_cancel h)

/-! ## The widening and the narrowing of a link -/

/-- A link to which wavelengths are added (R396). -/
def Link.widened (l : Link) (more : BitVec 16) : Link :=
  if more &&& ~~~l.txMask = 0 then l else l.sequence (l.txMask ||| more)

/-- A link that goes on without wavelengths, or goes down (R396, R397). -/
def Link.narrowed (l : Link) (lost : BitVec 16) : Link :=
  if l.txMask &&& lost = 0 then l
  else if l.txMask &&& ~~~lost = 0 then { Link.down with replayed := l.replayed } else (l.sequence (l.txMask &&& ~~~lost)).replay

theorem linkNarrows_narrowed {l : Link} {lost : BitVec 16} (h : l.txMask &&& lost ≠ 0) : LinkNarrows l (l.narrowed lost) lost := by
  refine ⟨fun hm => ?_, fun hm => ?_⟩
  · rw [Link.narrowed, if_neg h, if_neg hm]
    simp [Link.sequence, Link.replay]
  · rw [Link.narrowed, if_neg h, if_pos hm]

theorem link_post (s : State) (ty sev u : Nat) (pay : List (Nat × Nat)) (q : Nat) : (s.post ty sev u pay).link q = s.link q := by
  rw [State.link, (UnitFrame.post s ty sev u pay).fab]
  rfl

theorem link_restripe (s : State) (p : Nat) (lost : BitVec 16) (u d r q : Nat) : (s.restripe p lost u d r).link q =
    if q = p then (if (s.link p).txMask &&& ~~~lost = 0 then { Link.down with replayed := (s.link p).replayed }
      else ((s.link p).sequence ((s.link p).txMask &&& ~~~lost)).replay) else s.link q := by
  unfold State.restripe
  by_cases hm : (s.link p).txMask &&& ~~~lost = 0
  · dsimp only
    rw [if_pos hm, if_pos hm, State.linkDown, link_post]
    exact link_setLink s p q _
  · dsimp only
    rw [if_neg hm, if_neg hm, link_post, link_setLink]

theorem link_restripeAll (s : State) (lost : BitVec 16) (u d r q : Nat) : (s.restripeAll lost u d r).link q =
    if q ∈ s.upGlobals then (s.link q).narrowed lost else s.link q := by
  refine link_foldl (g := fun _ l => l.narrowed lost) (fun a p q => ?_) (nodup_upGlobals s) s q
  by_cases h : (a.link p).txMask &&& lost = 0
  · rw [if_pos h, Link.narrowed, if_pos h]
    split
    · next e => rw [e]
    · rfl
  · rw [if_neg h, Link.narrowed, if_neg h]
    exact link_restripe a p lost u d r q

/-! ## What else changes -/

/-- A state with the registers, host memory, host side and fabric of another. -/
def State.withPortsOf (t s : State) : State := { t with pregs := s.pregs, hmem := s.hmem, host := s.host, fab := s.fab }

/-- Nothing but links and event records differs. -/
structure PortFrame (s t : State) : Prop where
  same : SameUpTo State.withPortsOf s t
  registers : RegistersBut [0x201, 0x202] s t

namespace PortFrame

variable {s t u : State}

theorem refl (s : State) : PortFrame s s := ⟨rfl, fun _ _ => rfl⟩

theorem trans (h1 : PortFrame s t) (h2 : PortFrame t u) : PortFrame s u :=
  ⟨h1.same.trans (fun _ _ _ => rfl) h2.same, fun n hn => (h2.registers n hn).trans (h1.registers n hn)⟩

theorem ite {c : Prop} [Decidable c] (h1 : PortFrame s t) (h2 : PortFrame s u) : PortFrame s (if c then t else u) := by
  split <;> assumption

theorem foldl {β : Type} {f : State → β → State} (hf : ∀ a x, PortFrame a (f a x)) (l : List β) (s : State) : PortFrame s (l.foldl f s) := by
  induction l generalizing s with
  | nil => exact refl s
  | cons x l ih => exact (hf s x).trans (ih (f s x))

theorem setLink (s : State) (p : Nat) (l : Link) : PortFrame s (s.setLink p l) := ⟨rfl, fun _ _ => rfl⟩

theorem dropLink (s : State) (p : Nat) : PortFrame s (s.dropLink p) := ⟨rfl, fun _ _ => rfl⟩

theorem post (s : State) (ty sev u : Nat) (pay : List (Nat × Nat)) : PortFrame s (s.post ty sev u pay) :=
  ⟨(congrArg (fun x : State => x.withPortsOf s) (post_frame s ty sev u pay) :), post_registers s ty sev u pay⟩

theorem restripe (s : State) (p : Nat) (lost : BitVec 16) (u d r : Nat) : PortFrame s (s.restripe p lost u d r) :=
  ite ((dropLink s p).trans (post _ _ _ _ _)) ((setLink s p _).trans (post _ _ _ _ _))

theorem restripeAll (s : State) (lost : BitVec 16) (u d r : Nat) : PortFrame s (s.restripeAll lost u d r) :=
  foldl (fun a p => ite (refl a) (restripe a p lost u d r)) _ s

end PortFrame

/-! ## Wavelengths -/

theorem getLsbD_unitWaves {u w : Nat} (hu : u < 4) (hw : w < 16) : (unitWaves u).getLsbD w = decide (w / 4 = u) := by
  have h : ∀ u < 4, ∀ w < 16, (unitWaves u).getLsbD w = decide (w / 4 = u) := by decide
  exact h u hu w hw

/-- A wavelength is fed where its unit is lit (R395). -/
theorem getLsbD_wavesOf (lit : Nat → Bool) {w : Nat} (hw : w < 16) : (wavesOf lit).getLsbD w = lit (w / 4) := by
  have hfold : ∀ (l : List Nat) (m : BitVec 16), (∀ u ∈ l, u < 4) →
      (l.foldl (fun m u => if lit u then m ||| unitWaves u else m) m).getLsbD w = (m.getLsbD w || (lit (w / 4) && decide (w / 4 ∈ l))) := by
    intro l
    induction l with
    | nil => simp
    | cons u l ih =>
      intro m hl
      rw [List.forall_mem_cons] at hl
      rw [List.foldl_cons, ih _ hl.2]
      by_cases hlit : lit u = true
      · rw [if_pos hlit, BitVec.getLsbD_or, getLsbD_unitWaves hl.1 hw]
        by_cases h : w / 4 = u
        · simp [h, hlit]
        · simp [h]
      · rw [if_neg hlit]
        by_cases h : w / 4 = u
        · simp [h, hlit]
        · simp [h]
  have h4 : w / 4 < 4 := by omega
  exact (hfold (List.range 4) 0 fun u hu => List.mem_range.1 hu).trans (by simp [h4])

/-! ## The write -/

/-- LASERCTL after a write: the ON bits as written, the FAIL bits without those written as ones. -/
def State.laserctl (s : State) (v : Word) : State :=
  s.setPreg 0x688 (bits v.toNat 3 0 + (bits (s.preg 0x688) 7 4 - (bits (s.preg 0x688) 7 4 &&& bits v.toNat 7 4)) * 16)

theorem testBit_sub_and {x y u : Nat} (hx : x < 16) (hy : y < 16) (hu : u < 4) : (x - (x &&& y)).testBit u = (x.testBit u && !y.testBit u) := by
  have h : ∀ x < 16, ∀ y < 16, ∀ u < 4, (x - (x &&& y)).testBit u = (x.testBit u && !y.testBit u) := by decide +kernel
  exact h x hx y hy u hu

theorem preg_laserctl (s : State) (v : Word) :
    bits ((s.laserctl v).preg 0x688) 3 0 = wordBits v 3 0 ∧ ∀ u, u < 4 →
      ((s.laserctl v).preg 0x688).testBit u = v.getLsbD u ∧
      ((s.laserctl v).preg 0x688).testBit (4 + u) = ((s.preg 0x688).testBit (4 + u) && !v.getLsbD (4 + u)) := by
  have ho : bits (s.preg 0x688) 7 4 < 2 ^ 4 := bits_lt _ 7 4
  have hv7 : bits v.toNat 7 4 < 2 ^ 4 := bits_lt _ 7 4
  have hv3 : bits v.toNat 3 0 < 2 ^ 4 := bits_lt _ 3 0
  have htest := @testBit_sub_and (bits (s.preg 0x688) 7 4) (bits v.toNat 7 4)
  have hword : (s.laserctl v).preg 0x688 =
      2 ^ 4 * (bits (s.preg 0x688) 7 4 - (bits (s.preg 0x688) 7 4 &&& bits v.toNat 7 4)) + bits v.toNat 3 0 := by
    rw [State.laserctl, preg_setPreg_same, Nat.mod_eq_of_lt (by omega)]
    omega
  rw [hword]
  refine ⟨?_, fun u hu => ⟨?_, ?_⟩⟩
  · rw [bits, wordBits_eq, Nat.pow_zero, Nat.div_one]
    exact (Nat.mul_add_mod ..).trans (Nat.mod_eq_of_lt hv3)
  · rw [Nat.testBit_two_pow_mul_add _ hv3, if_pos hu, testBit_bits, decide_eq_true (by omega), Nat.zero_add, Bool.true_and]
    rfl
  · rw [Nat.testBit_two_pow_mul_add _ hv3, if_neg (by omega), Nat.add_sub_cancel_left, htest ho hv7 hu, testBit_bits, testBit_bits,
      decide_eq_true (by omega), Bool.true_and, Bool.true_and]
    rfl

/-- The links of the units lit from now on are widened. -/
def State.widenAll (s : State) (more : BitVec 16) : State :=
  s.upGlobals.foldl (fun a p => if more &&& ~~~(a.link p).txMask = 0 then a else a.setLink p ((a.link p).sequence ((a.link p).txMask ||| more))) s

theorem widenAll_frame (s : State) (more : BitVec 16) : SameUpTo State.withPortsOf s (s.widenAll more) ∧ (s.widenAll more).pregs = s.pregs ∧
    (s.widenAll more).hmem = s.hmem := by
  have hf : OnlyFabric s (s.widenAll more) := OnlyFabric.foldl (fun a p => OnlyFabric.ite (.refl a) (.setLink a p _)) _ s
  have hp : PortFrame s (s.widenAll more) := PortFrame.foldl (fun a p => PortFrame.ite (.refl a) (.setLink a p _)) _ s
  exact ⟨hp.same, hf.pregs, hf.hmem⟩

theorem link_widenAll (s : State) (more : BitVec 16) (q : Nat) :
    (s.widenAll more).link q = if q ∈ s.upGlobals then (s.link q).widened more else s.link q := by
  refine link_foldl (g := fun _ l => l.widened more) (fun a p q => ?_) (nodup_upGlobals s) s q
  by_cases h : more &&& ~~~(a.link p).txMask = 0
  · rw [if_pos h, Link.widened, if_pos h]
    split
    · next e => rw [e]
    · rfl
  · rw [if_neg h, Link.widened, if_neg h]
    exact link_setLink a p q _

/-- A unit put out by a write: every link goes on without its wavelengths. -/
def State.putOut (s s1 : State) (a : State) : State :=
  (List.range 4).foldl (fun a u => if s.lit u && !s1.lit u then a.restripeAll (unitWaves u) u 0 0 else a) a

theorem putOut_frame (s s1 a : State) : PortFrame a (s.putOut s1 a) :=
  PortFrame.foldl (fun b u => PortFrame.ite (.restripeAll b _ u 0 0) (.refl b)) _ a

theorem putOut_none {s s1 : State} (h : ∀ u, u < 4 → s.lit u = true → s1.lit u = true) (a : State) : s.putOut s1 a = a := by
  have hno : ∀ u, u < 4 → (s.lit u && !s1.lit u) = false := fun u hu => by
    cases hl : s.lit u with
    | false => rfl
    | true => rw [h u hu hl]; rfl
  have hfilter : (List.range 4).filter (fun x => s.lit x && !s1.lit x) = [] :=
    List.filter_eq_nil_iff.2 fun u hu => by rw [hno u (List.mem_range.1 hu)]; exact Bool.false_ne_true
  rw [State.putOut, ← List.foldl_filter, hfilter]
  rfl

/-- One unit put out alone. -/
theorem putOut_one {s s1 : State} {u : Nat} (hu : u < 4) (h1 : s.lit u = true) (h2 : s1.lit u = false)
    (h : ∀ x, x < 4 → x ≠ u → s.lit x = s1.lit x) (a : State) : s.putOut s1 a = a.restripeAll (unitWaves u) u 0 0 := by
  have hfilter : (List.range 4).filter (fun x => s.lit x && !s1.lit x) = [u] := by
    rw [List.filter_congr (q := fun x => decide (x = u))]
    · interval_cases u <;> rfl
    · intro x hx
      by_cases hxu : x = u
      · simp [hxu, h1, h2]
      · simp [hxu, h x (List.mem_range.1 hx) hxu]
  rw [State.putOut, ← List.foldl_filter, hfilter]
  rfl

theorem exec_laserctlWrite (s : State) (v : Word) : exec (.laserctlWrite v) s =
    .next (s.putOut (s.laserctl v) ((s.laserctl v).widenAll (wavesOf (fun u => (s.laserctl v).lit u && !s.lit u)))) := rfl

theorem laserctl_writes (s : State) (v : Word) (was is : Nat → Bool) (more : BitVec 16)
    (hwas : ∀ u, was u = ((s.preg 0x688).testBit u && !(s.preg 0x688).testBit (4 + u)))
    (his : ∀ u, is u = (v.getLsbD u && (!(s.preg 0x688).testBit (4 + u) || v.getLsbD (4 + u))))
    (hmore : ∀ w, w < 16 → more.getLsbD w = (is (w / 4) && !was (w / 4))) :
    ∃ t, exec (.laserctlWrite v) s = .next t ∧ bits (t.preg 0x688) 3 0 = wordBits v 3 0 ∧
      (∀ u, u < 4 → (t.preg 0x688).testBit (4 + u) = ((s.preg 0x688).testBit (4 + u) && !v.getLsbD (4 + u))) ∧
      RegistersBut [0x688, 0x201, 0x202] s t ∧ t.tasks = s.tasks ∧ t.mem = s.mem ∧
      ((∀ u, u < 4 → was u = true → is u = true) → t.hmem = s.hmem ∧ ∀ p, t.link p =
        if 32 ≤ p ∧ p < 48 ∧ (s.link p).up = true ∧ more &&& ~~~(s.link p).txMask ≠ 0 then
          { s.link p with txMask := (s.link p).txMask ||| more, restriping := true, before := (s.link p).buffer.length, striped := 0 } else s.link p) ∧
      (∀ u, u < 4 → was u = true → is u = false → (∀ x, x < 4 → x ≠ u → was x = is x) → ∀ p,
        (32 ≤ p ∧ p < 48 ∧ (s.link p).up = true ∧ (s.link p).txMask &&& unitWaves u ≠ 0 → LinkNarrows (s.link p) (t.link p) (unitWaves u)) ∧
        (¬(32 ≤ p ∧ p < 48 ∧ (s.link p).up = true ∧ (s.link p).txMask &&& unitWaves u ≠ 0) → t.link p = s.link p)) := by
  obtain ⟨hbits, hreg⟩ := preg_laserctl s v
  have hlit : ∀ u, s.lit u = was u := fun u => (hwas u).symm
  have hlit1 : ∀ u, u < 4 → (s.laserctl v).lit u = is u := fun u hu => by
    rw [State.lit, bit, bit, (hreg u hu).1, (hreg u hu).2, his, Bool.not_and, Bool.not_not]
  have hwaves : wavesOf (fun u => (s.laserctl v).lit u && !s.lit u) = more := BitVec.eq_of_getLsbD_eq fun w hw => by
    rw [getLsbD_wavesOf _ hw, hlit1 _ (by omega), hlit, hmore w hw]
  obtain ⟨hsame, hregs, hhmem⟩ := widenAll_frame (s.laserctl v) more
  have hout := putOut_frame s (s.laserctl v) ((s.laserctl v).widenAll more)
  have hset : SameUpTo State.withPortsOf s (s.laserctl v) := rfl
  have hport : SameUpTo State.withPortsOf s (s.putOut (s.laserctl v) ((s.laserctl v).widenAll more)) :=
    SameUpTo.trans (w := State.withPortsOf) (fun _ _ _ => rfl) (SameUpTo.trans (w := State.withPortsOf) (fun _ _ _ => rfl) hset hsame) hout.same
  have hpreg : ∀ n, n ∉ [0x201, 0x202] → (s.putOut (s.laserctl v) ((s.laserctl v).widenAll more)).preg n = (s.laserctl v).preg n := fun n hn =>
    (hout.registers n hn).trans (by rw [State.preg, hregs]; rfl)
  have hlinks : ∀ p, ((s.laserctl v).widenAll more).link p = if 32 ≤ p ∧ p < 48 ∧ (s.link p).up = true then (s.link p).widened more else s.link p :=
    fun p => by
      rw [link_widenAll]
      exact if_congr (mem_upGlobals s p) rfl rfl
  rw [exec_laserctlWrite, hwaves]
  refine ⟨_, rfl, ?_, fun u hu => ?_, fun n hn => ?_, hport.field State.tasks fun _ => rfl, hport.field State.mem fun _ => rfl,
    fun hall => ?_, fun u hu h1 h2 hx p => ?_⟩
  · rw [hpreg _ (by decide), hbits]
  · rw [hpreg _ (by decide), (hreg u hu).2]
  · simp only [List.mem_cons, List.not_mem_nil, or_false, not_or] at hn
    exact (hpreg n (by simpa using hn.2)).trans (preg_setPreg_other s _ hn.1)
  · rw [putOut_none fun u hu h => (hlit1 u hu).trans (hall u hu ((hlit u).symm.trans h))]
    refine ⟨hhmem, fun p => ?_⟩
    rw [hlinks, Link.widened]
    by_cases hm : more &&& ~~~(s.link p).txMask = 0
    · simp [hm]
    · rw [if_neg hm]
      exact if_congr ⟨fun ⟨a, b, c⟩ => ⟨a, b, c, hm⟩, fun ⟨a, b, c, _⟩ => ⟨a, b, c⟩⟩ rfl rfl
  · have hnone : more = 0 := BitVec.eq_of_getLsbD_eq fun w hw => by
      rw [hmore w hw]
      by_cases hwu : w / 4 = u
      · simp [hwu, h2]
      · simp [hx (w / 4) (by omega) hwu]
    have hlinks0 : ∀ p, ((s.laserctl v).widenAll more).link p = s.link p := fun p => by
      rw [hlinks, Link.widened, hnone]
      simp
    have hup : p ∈ ((s.laserctl v).widenAll more).upGlobals ↔ 32 ≤ p ∧ p < 48 ∧ (s.link p).up = true := by
      rw [mem_upGlobals, hlinks0]
    rw [putOut_one hu ((hlit u).trans h1) ((hlit1 u hu).trans h2) fun x h4 hne => (hlit x).trans ((hx x h4 hne).trans (hlit1 x h4).symm),
      link_restripeAll, hlinks0]
    refine ⟨fun ⟨a, b, c, d⟩ => ?_, fun hno => ?_⟩
    · rw [if_pos (hup.2 ⟨a, b, c⟩)]
      exact linkNarrows_narrowed d
    · split
      next hmem =>
        obtain ⟨a, b, c⟩ := hup.1 hmem
        rw [Link.narrowed, if_pos (by simpa [a, b, c] using hno)]
      · rfl

end Sys2Proof.Machine
end

section
/-! Writes of PODMAP (O51): the records and credits of a package that leaves, and the boundary that is evaluated again (R142). -/

namespace Sys2Proof.Machine

/-! ## Grants -/

/-- A state with the registers, host memory, host side, boundary, agenda, fabric and counter of free choices of another. -/
def State.withGrantsOf (t s : State) : State := ((t.withReportsOf s).withPortsOf s)

/-- Nothing but what messages and event records change, and the boundary, differs. -/
def GrantFrame (s t : State) : Prop := SameUpTo State.withGrantsOf s t

namespace GrantFrame

variable {s t u : State}

theorem refl (s : State) : GrantFrame s s := rfl

theorem trans (h1 : GrantFrame s t) (h2 : GrantFrame t u) : GrantFrame s u := SameUpTo.trans (fun _ _ _ => rfl) h1 h2

theorem ite {c : Prop} [Decidable c] (h1 : GrantFrame s t) (h2 : GrantFrame s u) : GrantFrame s (if c then t else u) := by
  split <;> assumption

theorem mem (h : GrantFrame s t) : t.mem = s.mem := SameUpTo.field h State.mem fun _ => rfl
theorem inbound (h : GrantFrame s t) : t.inbound = s.inbound := SameUpTo.field h State.inbound fun _ => rfl
theorem outbound (h : GrantFrame s t) : t.outbound = s.outbound := SameUpTo.field h State.outbound fun _ => rfl

theorem of_reports (h : SameButReports s t) : GrantFrame s t := (congrArg (fun x : State => x.withPortsOf s) h :)

theorem post (s : State) (ty sev u : Nat) (pay : List (Nat × Nat)) : GrantFrame s (s.post ty sev u pay) :=
  (congrArg (fun x : State => x.withReportsOf s) (PortFrame.post s ty sev u pay).same :)

theorem postFull (s : State) (need : Nat) : GrantFrame s (s.postFull need) :=
  ite (refl s) ((of_reports (SameButReports.with_bnd s _)).trans (post _ _ _ _ _))

end GrantFrame

/-- Credits are granted by messages. -/
theorem SameButReports.grant (rs : List Nat) (s : State) : SameButReports s (State.grant rs s) := by
  induction rs generalizing s with
  | nil => exact refl s
  | cons r rs ih =>
    unfold State.grant
    split
    · exact refl s
    · exact ((with_bnd s _).trans (of_messages (.send _ _))).trans (ih _)

theorem GrantFrame.grantAll (s : State) : GrantFrame s s.grantAll :=
  ite (of_reports (.grant _ s)) ((of_reports (.grant _ s)).trans (postFull _ _))

/-! ## Records that move -/

/-- A record of the outbound apron marked as sent, where it is r. -/
def Rec.markSent (r x : Rec) : Rec := if x.key = r.key && x.gen = r.gen then { x with sent := true } else x

/-- A record of the outbound apron marked as sent and acknowledged, where it is r. -/
def Rec.markMoved (r x : Rec) : Rec := if x.key = r.key && x.gen = r.gen then { x with sent := true, acked := true } else x

theorem Rec.key_markSent (r x : Rec) : (r.markSent x).key = x.key := by
  unfold Rec.markSent
  split <;> rfl

theorem Rec.key_markMoved (r x : Rec) : (r.markMoved x).key = x.key := by
  unfold Rec.markMoved
  split <;> rfl

/-- A state with other outbound records. -/
def State.withOutbound (s : State) (l : List Rec) : State := { s with outbound := l }

/-- A record moves to the own inbound apron (R385). -/
def State.moveOne (s : State) (r : Rec) : State :=
  State.addInbound ((s.readApron 0x210 r).2.withOutbound ((s.readApron 0x210 r).2.outbound.map r.markMoved)) { r with data := (s.readApron 0x210 r).1 }

theorem moveOwn_eq (s : State) : s.moveOwn = s.outbound.foldl (fun a r =>
    if r.gen = s.stepNum && r.home = s.rank && !r.acked then
      (if recSize r.data.length ≤ a.inboundFree then a.moveOne r else a.postFull (a.inboundUsed + recSize r.data.length)) else a) s := rfl

/-- A credit of a record's home is used up, and the record marked. -/
def State.useCredit (s : State) (r : Rec) : State :=
  (s.withBnd { s.bnd with credits := tset 0 s.bnd.credits r.home (tget 0 s.bnd.credits r.home - 1) }).withOutbound (s.outbound.map r.markSent)

/-- A record goes to its home against a credit (R390). -/
def State.sendOne (s : State) (r : Rec) : State :=
  ((s.useCredit r).readApron 0x210 r).2.openTxn (.record r.key) 0 r.home 2 (ceilDiv r.data.length 32)
    (r.key.toNat + r.addr * 2 ^ 64 + (r.data.length - 1) * 2 ^ 104) ((s.useCredit r).readApron 0x210 r).1

theorem sendRecs_eq (s : State) : s.sendRecs = s.outbound.foldl (fun a r =>
    if r.gen = s.stepNum && r.home ≠ s.rank && !r.sent && !r.acked && tget 0 a.bnd.credits r.home ≠ 0 then a.sendOne r else a) s := rfl

/-! ## The keys of records -/

/-- Every record of the package has a key with a property. -/
def KeysHave (P : Word → Prop) (s : State) : Prop := (∀ r ∈ s.inbound, P r.key) ∧ ∀ r ∈ s.outbound, P r.key

namespace KeysHave

variable {P : Word → Prop} {s t : State}

theorem of_eq (h : KeysHave P s) (hi : t.inbound = s.inbound) (ho : t.outbound = s.outbound) : KeysHave P t := by
  rw [KeysHave, hi, ho]
  exact h

theorem of_grants (h : KeysHave P s) (hf : GrantFrame s t) : KeysHave P t := h.of_eq hf.inbound hf.outbound

theorem of_reports (h : KeysHave P s) (hf : SameButReports s t) : KeysHave P t := h.of_eq hf.inbound hf.outbound

theorem readApron (h : KeysHave P s) (reg : Nat) (r : Rec) : KeysHave P (s.readApron reg r).2 :=
  h.of_eq (UnitFrame.readApron s reg r).inbound (UnitFrame.readApron s reg r).outbound

theorem map_outbound (h : KeysHave P s) {f : Rec → Rec} (hf : ∀ r, (f r).key = r.key) : KeysHave P (s.withOutbound (s.outbound.map f)) := by
  refine ⟨h.1, fun r hr => ?_⟩
  obtain ⟨x, hx, rfl⟩ := List.mem_map.1 hr
  rw [hf]
  exact h.2 x hx

theorem addInbound (h : KeysHave P s) {r : Rec} (hr : P r.key) : KeysHave P (s.addInbound r) := by
  have hf := UnitFrame.addInbound s r
  refine ⟨fun x hx => ?_, fun x hx => h.2 x (hf.outbound ▸ hx)⟩
  rw [hf.inbound] at hx
  rcases List.mem_append.1 hx with hx | hx
  · exact h.1 x hx
  · rw [List.mem_singleton.1 hx]
    exact hr

theorem dropDead (h : KeysHave P s) : KeysHave P s.dropDead := ⟨h.1, fun r hr => h.2 r (List.mem_filter.1 hr).1⟩

/-- A fold over records of the package whose steps keep the property of the keys. -/
theorem foldl_outbound {f : State → Rec → State} (hf : ∀ a r, KeysHave P a → P r.key → KeysHave P (f a r)) (h : KeysHave P s) :
    KeysHave P (s.outbound.foldl f s) :=
  List.foldlRecOn s.outbound f h fun a ha r hr => hf a r ha (h.2 r hr)

theorem moveOwn (h : KeysHave P s) : KeysHave P s.moveOwn := by
  rw [moveOwn_eq]
  refine foldl_outbound (fun a r ha hr => ?_) h
  split
  · split
    · exact addInbound ((ha.readApron 0x210 r).map_outbound r.key_markMoved) hr
    · exact ha.of_grants (.postFull a _)
  · exact ha

theorem useCredit (h : KeysHave P s) (r : Rec) : KeysHave P (s.useCredit r) := map_outbound (s := s.withBnd _) h r.key_markSent

theorem sendRecs (h : KeysHave P s) : KeysHave P s.sendRecs := by
  rw [sendRecs_eq]
  refine foldl_outbound (fun a r ha _ => ?_) h
  split
  · exact ((ha.useCredit r).readApron 0x210 r).of_eq (startTxn_onlyFabric _ _).inbound (startTxn_onlyFabric _ _).outbound
  · exact ha

theorem tryDrn (h : KeysHave P s) : KeysHave P s.tryDrn := by
  unfold State.tryDrn
  split
  · exact h.of_reports ((SameButReports.with_bnd s _).trans (.of_messages (.report _ 2)))
  · exact h

theorem drainOn (h : KeysHave P s) : KeysHave P s.drainOn := by
  unfold State.drainOn
  split
  · exact (h.dropDead.moveOwn.of_grants (.grantAll _)).sendRecs.tryDrn
  · split
    · exact h.of_grants (.grantAll _)
    · exact h

end KeysHave

/-! ## A boundary evaluated again -/

theorem SameButReports.foldl {β : Type} {f : State → β → State} (hf : ∀ a x, SameButReports a (f a x)) (l : List β) (s : State) :
    SameButReports s (l.foldl f s) :=
  SameUpTo.foldl (w := State.withReportsOf) (fun _ _ _ => rfl) (fun _ => rfl) hf l s

/-- Beside what a drain does, evaluating a boundary again sends messages. -/
theorem reevaluate_frame (s : State) : SameButReports s.drainOn s.reevaluate := by
  have hlead : SameButReports s.drainOn ([0, 2, 4].foldl (fun a ph => a.leadCheck ph) s.drainOn) := .foldl (fun a ph => (leadCheck_frame a ph).1) _ _
  unfold State.reevaluate
  dsimp only
  split
  · refine hlead.trans (.foldl (fun a ph => ?_) _ _)
    split
    · exact (rootCheck_frame a ph).1
    · exact .refl a
  · exact hlead

theorem DrainFrame.of_reports {s t : State} (h : SameButReports s t) : DrainFrame s t := of_eq h.tasks h.pregs h.inbound h.mem

theorem DrainFrame.reevaluate (s : State) : DrainFrame s s.reevaluate := (DrainFrame.drainOn s).trans (.of_reports (reevaluate_frame s))

theorem KeysHave.reevaluate {P : Word → Prop} {s : State} (h : KeysHave P s) : KeysHave P s.reevaluate :=
  h.drainOn.of_reports (reevaluate_frame s)

/-! ## The write -/

/-- Does a write of PODMAP's word i take a rank out of the pod? -/
def State.leaves (s : State) (i : Nat) (v : Word) (r : Nat) : Bool := r / 64 = i && bit (s.preg (0x600 + i)) (r % 64) && !v.getLsbD (r % 64)

/-- The package without what it held of packages that leave. -/
def State.forgetLeavers (s : State) (i : Nat) (v : Word) : State :=
  { s.setPreg (0x600 + i) v.toNat with
    inbound := s.inbound.filter (fun r => !s.leaves i v (r.key.toNat / 2 ^ 52)),
    outbound := s.outbound.filter (fun r => !s.leaves i v (r.key.toNat / 2 ^ 52)),
    bnd := { s.bnd with granted := s.bnd.granted.filter (fun e => !s.leaves i v e.1), credits := s.bnd.credits.filter (fun e => !s.leaves i v e.1) } }

/-- The reports that a package has sent, sent again. -/
def State.reportsAgain (s : State) : State :=
  let s3 := if s.bnd.sentArr then s.report 0 else s
  let s4 := if s3.bnd.sentDrn then s3.report 2 else s3
  if s4.bnd.sentCmt then s4.report 4 else s4

theorem exec_podmapWrite (s : State) (i : BitVec 6) (v : Word) : exec (.podmapWrite i v) s =
    .next (if (s.forgetLeavers i.toNat v).reportsAgain.bnd.phase = .idle then (s.forgetLeavers i.toNat v).reportsAgain
      else (s.forgetLeavers i.toNat v).reportsAgain.reevaluate) := rfl

theorem MessageFrame.ite {s t u : State} {c : Prop} [Decidable c] (h1 : MessageFrame s t) (h2 : MessageFrame s u) :
    MessageFrame s (if c then t else u) := by
  split <;> assumption

theorem MessageFrame.reportsAgain (s : State) : MessageFrame s s.reportsAgain := by
  have h3 : MessageFrame s (if s.bnd.sentArr then s.report 0 else s) := ite (report s 0) (refl s)
  unfold State.reportsAgain
  dsimp only
  generalize (if s.bnd.sentArr then s.report 0 else s) = s3 at h3
  have h4 : MessageFrame s (if s3.bnd.sentDrn then s3.report 2 else s3) := ite (h3.trans (report s3 2)) h3
  generalize (if s3.bnd.sentDrn then s3.report 2 else s3) = s4 at h4
  exact ite (h4.trans (report s4 4)) h4

theorem podmap_writes (s : State) (i : BitVec 6) (v : Word) (gone : Rec → Prop)
    (hgone : ∀ r, gone r ↔ r.key.toNat / 2 ^ 58 = i.toNat ∧ (s.preg (0x600 + i.toNat)).testBit (r.key.toNat / 2 ^ 52 % 64) = true ∧
      v.getLsbD (r.key.toNat / 2 ^ 52 % 64) = false) :
    ∃ t, exec (.podmapWrite i v) s = .next t ∧ t.preg (0x600 + i.toNat) = v.toNat ∧ RegistersBut [0x600 + i.toNat, 0x201, 0x202, 0x220] s t ∧
      t.tasks = s.tasks ∧ (∀ r, r ∈ t.inbound ∨ r ∈ t.outbound → ¬gone r) ∧
      (∀ a, (∀ r ∈ t.inbound, a ∉ s.apronBytes 0x211 r) → rdByte t.mem a = rdByte s.mem a) ∧
      (s.bnd.phase = .idle → RegistersBut [0x600 + i.toNat] s t ∧ SameMemory s t ∧
        (∀ r out, out = (decide (r / 64 = i.toNat) && (s.preg (0x600 + i.toNat)).testBit (r % 64) && !v.getLsbD (r % 64)) →
          tget 0 t.bnd.granted r = (if out then 0 else tget 0 s.bnd.granted r) ∧ tget 0 t.bnd.credits r = if out then 0 else tget 0 s.bnd.credits r) ∧ (∀ r, r ∈ t.inbound ↔ r ∈ s.inbound ∧ ¬gone r) ∧
        ∀ r, r ∈ t.outbound ↔ r ∈ s.outbound ∧ ¬gone r) := by
  have hi : i.toNat < 64 := i.isLt
  have hleaves : ∀ r : Rec, (!s.leaves i.toNat v (r.key.toNat / 2 ^ 52)) = true ↔ ¬gone r := fun r => by
    rw [hgone, Bool.not_eq_true', ← Bool.not_eq_true, State.leaves, Bool.and_eq_true, Bool.and_eq_true, decide_eq_true_eq, Bool.not_eq_true',
      Nat.div_div_eq_div_mul, and_assoc]
    exact Iff.rfl
  have hmsg := MessageFrame.reportsAgain (s.forgetLeavers i.toNat v)
  obtain ⟨s5, hs5⟩ : ∃ x, x = (s.forgetLeavers i.toNat v).reportsAgain := ⟨_, rfl⟩
  rw [← hs5] at hmsg
  have hpreg : ∀ n, s5.preg n = (s.setPreg (0x600 + i.toNat) v.toNat).preg n := fun n => by
    rw [State.preg, hmsg.pregs]
    rfl
  have hother : RegistersBut [0x600 + i.toNat] s s5 := fun n hn => (hpreg n).trans (preg_setPreg_other s _ (by simpa using hn))
  have hkeys : KeysHave (fun k => s.leaves i.toNat v (k.toNat / 2 ^ 52) = false) s5 := by
    refine KeysHave.of_reports (s := s.forgetLeavers i.toNat v) ⟨fun r hr => ?_, fun r hr => ?_⟩ (.of_messages hmsg)
    · simpa using (List.mem_filter.1 hr).2
    · simpa using (List.mem_filter.1 hr).2
  have hdrain : DrainFrame s5 (if s5.bnd.phase = .idle then s5 else s5.reevaluate) := .ite (.refl s5) (.reevaluate s5)
  have hkeep : KeysHave (fun k => s.leaves i.toNat v (k.toNat / 2 ^ 52) = false) (if s5.bnd.phase = .idle then s5 else s5.reevaluate) := by
    split
    · exact hkeys
    · exact hkeys.reevaluate
  refine ⟨if s5.bnd.phase = .idle then s5 else s5.reevaluate, by rw [exec_podmapWrite, hs5], ?_, fun n hn => ?_, hdrain.tasks.trans hmsg.tasks,
    fun r hr => ?_, fun a ha => ?_, fun hidle => ?_⟩
  · rw [hdrain.registers _ (by simp; omega), hpreg, preg_setPreg_same, Nat.mod_eq_of_lt v.isLt]
  · simp only [List.mem_cons, List.not_mem_nil, or_false, not_or] at hn
    exact (hdrain.registers n (by simpa using hn.2)).trans (hother n (by simpa using hn.1))
  · rw [← hleaves]
    rcases hr with hr | hr
    · exact congrArg Bool.not (hkeep.1 r hr)
    · exact congrArg Bool.not (hkeep.2 r hr)
  · refine (hdrain.memory a fun r hr => ?_).trans (by rw [hmsg.mem]; rfl)
    rw [apronBytes_congr (hother 0x211 (by simp; omega)) (hother 0x002 (by simp; omega))]
    exact ha r hr
  · have hphase : s5.bnd.phase = .idle := by rw [hmsg.bnd]; exact hidle
    rw [if_pos hphase]
    refine ⟨hother, ⟨fun a => by rw [hmsg.mem]; rfl, fun a => by rw [hmsg.hmem]; rfl⟩, fun r out hout => ?_, fun r => ?_, fun r => ?_⟩
    · have hl : out = s.leaves i.toNat v r := hout
      rw [hmsg.bnd, hl]
      have hg := fun t : Tbl Nat => tget_filter 0 (fun r => !s.leaves i.toNat v r) t r
      refine ⟨(hg s.bnd.granted).trans ?_, (hg s.bnd.credits).trans ?_⟩
      · cases s.leaves i.toNat v r <;> rfl
      · cases s.leaves i.toNat v r <;> rfl
    · rw [hmsg.inbound, ← hleaves]
      exact List.mem_filter
    · rw [hmsg.outbound, ← hleaves]
      exact List.mem_filter

end Sys2Proof.Machine
end

section
/-! The registers whose write acts (O51). -/

namespace Sys2Proof.Machine

/-- Settles O51: each write is its guard, its register and the frame of what it sets going. -/
theorem actingRegistersAct : Obligations.ActingRegistersAct := by
  unfold Obligations.ActingRegistersAct
  exact ⟨fctl_writes, laserctl_writes, mrate_writes, podmap_writes, deadset_writes, tcbase_writes⟩

end Sys2Proof.Machine
end

section
/-! Requests and responses of the fabric, and packets that are dropped (O58; R385, R388, R392, R393). -/

namespace Sys2Proof.Machine

/-! ## Responses -/

/-- What is sent is told by the agenda, the fabric and the rank before it. -/
theorem Sent.of_before {s s1 t : State} {p : Packet} (ha : s1.agenda = s.agenda) (hf : s1.fab = s.fab) (hr : s1.preg 0x002 = s.preg 0x002)
    (h : Sent s1 t p) : Sent s t p := by
  have hrank : s1.rank = s.rank := congrArg (· % 4096) hr
  simpa only [Sent, OnFabric, State.link, ha, hf, hrank] using h

/-- A response of the package, in the terms of a state before it. -/
def State.response (s : State) (p : Packet) (type len : BitVec 4) (body : BitVec 192) (data : List Byte) : Packet :=
  { drank := p.srank, dinc := tget 0 s.fab.pinc p.srank.toNat, srank := BitVec.ofNat 12 s.rank, sinc := BitVec.ofNat 4 (s.preg 0x682),
    type := type, len := len, stage := false, txid := p.txid, body := body, data := data }

theorem respond_eq {s s1 : State} (hf : s1.fab = s.fab) (h2 : s1.preg 0x002 = s.preg 0x002) (hi : s1.preg 0x682 = s.preg 0x682)
    (p : Packet) (type len body : Nat) (data : List Byte) : s1.respond p type len body data =
      s1.send (s.response p (BitVec.ofNat 4 type) (BitVec.ofNat 4 len) (BitVec.ofNat 192 body) data) := by
  have hrank : s1.rank = s.rank := congrArg (· % 4096) h2
  unfold State.respond State.mkPacket State.response
  rw [hf, hrank, hi, BitVec.ofNat_toNat, BitVec.setWidth_eq]

/-! ## RDREQ -/

theorem exec_rdreq {s : State} {p : Packet} (hr : s.receive p = (some s, s)) (ha : reqAddr p + reqCount p ≤ memLimit) : exec (.rdreq p) s =
    match (s.readLocal (addrs (reqAddr p) (reqCount p))).2.2 with
    | some bad => .next (((s.readLocal (addrs (reqAddr p) (reqCount p))).1.postUncorr 2 0xFFFF 0 (s.paOf (bad / 64 * 64)) 1 0xFF 0).respond p 1 0
        cDATAERR [])
    | none => .next ((s.readLocal (addrs (reqAddr p) (reqCount p))).1.respond p 1 (ceilDiv (reqCount p) 32) 0
        (s.readLocal (addrs (reqAddr p) (reqCount p))).2.1) :=
  (onPacket_of hr _).trans (if_neg (Nat.not_lt.2 ha))

/-- What reading through the controllers leaves. -/
theorem readLocal_frames (s : State) (las : List Nat) : (s.readLocal las).1.mem = s.mem ∧ (s.readLocal las).1.hmem = s.hmem ∧
    (s.readLocal las).1.host = s.host ∧ SameRegisters s (s.readLocal las).1 := by
  have h := (TranslationFrame.readLocal s las).same
  exact ⟨(congrArg State.mem h.2 :), (congrArg State.hmem h.2 :), (congrArg State.host h.2 :), h.1⟩

theorem rdreq_answers {s : State} {p : Packet} (hr : s.receive p = (some s, s)) (ha : reqAddr p + reqCount p ≤ memLimit) :
    ((∀ x, reqAddr p ≤ x → x < reqAddr p + reqCount p → s.badUnit (x / 64) = false) → ∃ t, exec (.rdreq p) s = .next t ∧
      Sent s t (s.response p 1 (BitVec.ofNat 4 ((reqCount p + 31) / 32)) 0 (rdBytes s.mem (addrs (reqAddr p) (reqCount p)))) ∧
      t.tasks = s.tasks ∧ SameMemory s t ∧ SameRegisters s t) ∧
    (∀ x, (addrs (reqAddr p) (reqCount p)).find? (fun x => s.badUnit (x / 64)) = some x → ∃ t, exec (.rdreq p) s = .next t ∧
      Sent s t (s.response p 1 0 13 []) ∧ t.tasks = s.tasks ∧ t.mem = s.mem ∧
      ∃ syn < 2 ^ 64, Posted s t 0x0001 2 0xFFFF
        [(0x18, 0), (0x20, s.rank * 2 ^ 40 + x / 64 * 64), (0x28, 1 + 0xFF * 256), (0x30, 0), (0x38, syn)]) := by
  have hexec := exec_rdreq hr ha
  rw [readLocal_bad] at hexec
  have hunit := UnitFrame.readLocal s (addrs (reqAddr p) (reqCount p))
  obtain ⟨hmem, hhmem, hhost, hregs⟩ := readLocal_frames s (addrs (reqAddr p) (reqCount p))
  have hbytes : (s.readLocal (addrs (reqAddr p) (reqCount p))).2.1 = rdBytes s.mem (addrs (reqAddr p) (reqCount p)) := rfl
  rw [hbytes] at hexec
  generalize (s.readLocal (addrs (reqAddr p) (reqCount p))).1 = s1 at *
  refine ⟨fun hgood => ?_, fun x hx => ?_⟩
  · rw [List.find?_eq_none.2 fun x hx => by simp [hgood x ((mem_addrs ..).1 hx).1 ((mem_addrs ..).1 hx).2]] at hexec
    dsimp only at hexec
    rw [respond_eq hunit.fab (hregs _ (by decide)) (hregs _ (by decide))] at hexec
    have hmsg := MessageFrame.send s1 (s.response p (BitVec.ofNat 4 1) (BitVec.ofNat 4 (ceilDiv (reqCount p) 32)) (BitVec.ofNat 192 0)
      (rdBytes s.mem (addrs (reqAddr p) (reqCount p))))
    exact ⟨_, hexec, (sent_send s1 _).of_before hunit.agenda hunit.fab (hregs _ (by decide)), hmsg.tasks.trans hunit.tasks,
      ⟨fun a => by rw [hmsg.mem, hmem], fun a => by rw [hmsg.hmem, hhmem]⟩, hregs.trans fun n _ => by rw [State.preg, hmsg.pregs]; rfl⟩
  · rw [hx] at hexec
    dsimp only at hexec
    have hpost := posted_post s1.draw.2 1 2 0xFFFF [(0x18, 0), (0x20, s.paOf (x / 64 * 64)), (0x28, 1 + 0xFF * 256), (0x30, 0),
      (0x38, Config.freeNat s1.draw.1 % 2 ^ 64)]
    have hpostFrame := UnitFrame.postUncorr s1 2 0xFFFF 0 (s.paOf (x / 64 * 64)) 1 0xFF 0
    have hpostRegs : RegistersBut [0x201, 0x202] s1 (s1.postUncorr 2 0xFFFF 0 (s.paOf (x / 64 * 64)) 1 0xFF 0) := post_registers s1.draw.2 _ _ _ _
    have hpostMem : (s1.postUncorr 2 0xFFFF 0 (s.paOf (x / 64 * 64)) 1 0xFF 0).mem = s1.mem := (GrantFrame.post s1.draw.2 _ _ _ _).mem
    have hmsg := MessageFrame.send (s1.postUncorr 2 0xFFFF 0 (s.paOf (x / 64 * 64)) 1 0xFF 0) (s.response p 1 0 13 [])
    have hreg : ∀ n, n ∉ [0x201, 0x202] → n ≠ 0x220 → (s1.postUncorr 2 0xFFFF 0 (s.paOf (x / 64 * 64)) 1 0xFF 0).preg n = s.preg n :=
      fun n h1 h2 => (hpostRegs n h1).trans (hregs n h2)
    rw [respond_eq (hpostFrame.fab.trans hunit.fab) (hreg _ (by decide) (by decide)) (hreg _ (by decide) (by decide))] at hexec
    exact ⟨_, hexec, (sent_send _ _).of_before (hpostFrame.agenda.trans hunit.agenda) (hpostFrame.fab.trans hunit.fab) (hreg _ (by decide) (by decide)),
      hmsg.tasks.trans (hpostFrame.tasks.trans hunit.tasks), hmsg.mem.trans (hpostMem.trans hmem), _, Nat.mod_lt _ (by decide),
      (Posted.of_before hregs (by rw [hhost]) hhmem hpost).of_after hmsg.pregs hmsg.host hmsg.hmem⟩

/-! ## RDRSP -/

theorem exec_rdrsp {s : State} {p : Packet} {x : Txn} (hr : s.receive p = (some s, s)) (hx : s.txn? p = some x) : exec (.rdrsp p) s =
    .next (if p.body.extractLsb' 0 8 = 0 then (s.closeTxn x).deposit x (p.data.take (reqCount x.pkt)) else s.failTxn x cDATAERR) := by
  have hzero : (p.body.extractLsb' 0 8).toNat = 0 ↔ p.body.extractLsb' 0 8 = 0 := BitVec.toNat_inj (y := 0#8)
  refine (onPacket_of hr _).trans ?_
  rw [hx, apply_ite Host.Outcome.next]
  exact if_congr hzero rfl rfl

/-- Bytes that arrive change tasks alone. -/
theorem deposit_frame (s : State) (x : Txn) (bs : List Byte) : SameUpTo State.withTasksOf s (s.deposit x bs) := by
  unfold State.deposit
  dsimp only
  split
  · split
    · rfl
    · exact putHart_frame s _ _
  · split
    · rfl
    · split <;> rfl
  · rfl

/-- A response changes what the end of its transaction changes, and the tasks and records that waited for it. -/
theorem rdrsp_frame (s : State) (p : Packet) (x : Txn) {t : State}
    (ht : t = if p.body.extractLsb' 0 8 = 0 then (s.closeTxn x).deposit x (p.data.take (reqCount x.pkt)) else s.failTxn x cDATAERR) :
    PeerFrame s t ∧ t.fab = (s.closeTxn x).fab := by
  rw [ht]
  split
  · have h := deposit_frame (s.closeTxn x) x (p.data.take (reqCount x.pkt))
    exact ⟨(PeerFrame.of_onlyFabric (.closeTxn s x)).trans (congrArg (fun y : State => y.withPeersOf (s.closeTxn x)) h :), h.field State.fab fun _ => rfl⟩
  · exact ⟨failTxn_frame s x _, (failOwner_frame _ x _).2⟩

/-- A transaction ends: with none that waits for a number the others stay; one that waits goes out under a number of its own. -/
theorem closeTxn_txns (s : State) (x : Txn) :
    (s.fab.unsent = [] → ∀ y, y ∈ (s.closeTxn x).fab.txns ↔ y ∈ s.fab.txns ∧ y.txid ≠ x.txid) ∧
    ∀ y rest, s.fab.unsent = y :: rest → (s.closeTxn x).fab.unsent = rest ∧ ∃ y' ∈ (s.closeTxn x).fab.txns, y'.owner = y.owner ∧
      y'.pkt = { y.pkt with txid := y'.txid } ∧ ∀ z ∈ s.fab.txns, z.txid ≠ x.txid → z ∈ (s.closeTxn x).fab.txns ∧ z.txid ≠ y'.txid := by
  obtain ⟨hnone, hsome⟩ := closeTxn_fab s x
  have hmem : ∀ z, z ∈ s.fab.txns.filter (fun z => z.txid ≠ x.txid) ↔ z ∈ s.fab.txns ∧ z.txid ≠ x.txid := by simp
  refine ⟨fun h y => by rw [(hnone h).1, hmem], fun y rest h => ?_⟩
  rcases hsome y rest h with ⟨id, hfree, htx, hun⟩ | ⟨hfull, -⟩
  · rw [htx]
    refine ⟨hun, y.numbered id, List.mem_append_right _ (List.mem_singleton_self _), rfl, rfl, fun z hz hne => ?_⟩
    exact ⟨List.mem_append_left _ ((hmem z).2 ⟨hz, hne⟩), hfree z hz hne⟩
  · obtain ⟨z, -, hne, he⟩ := hfull x.txid
    exact absurd he hne

theorem tfind_addGot (got : Tbl Byte) (pa : Nat) (bs : List Byte) (q : Nat) :
    tfind (addGot got pa bs) q = if pa ≤ q ∧ q < pa + bs.length then bs[q - pa]? else tfind got q := by
  induction bs generalizing got pa with
  | nil =>
    rw [if_neg (by simp)]
    rfl
  | cons b bs ih =>
    have hstep : addGot got pa (b :: bs) = addGot (tput got pa b) (pa + 1) bs := by
      unfold addGot
      rw [List.length_cons, addrs_succ]
      rfl
    rw [hstep, ih, List.length_cons]
    rcases Nat.lt_trichotomy q pa with h | rfl | h
    · rw [if_neg (by omega), if_neg (by omega), tfind_tput_other _ _ h.ne]
    · rw [if_neg (by omega), if_pos (by omega), tfind_tput_same]
      simp
    · by_cases hq : q < pa + (bs.length + 1)
      · rw [if_pos (by omega), if_pos (by omega), show q - pa = q - (pa + 1) + 1 by omega, List.getElem?_cons_succ]
      · rw [if_neg (by omega), if_neg (by omega), tfind_tput_other _ _ h.ne']

/-- A load entry with the bytes of a response. -/
def LoadEntry.given (e : LoadEntry) (po pa : Nat) (bs : List Byte) : LoadEntry :=
  match e.kind with
  | .scalar l => if e.po = po then { e with kind := .scalar { l with got := addGot l.got pa bs } } else e
  | .stream _ => e

theorem LoadEntry.got_given {e : LoadEntry} {po pa : Nat} {bs : List Byte} {l : ScalarLoad} (hpo : (e.given po pa bs).po = po)
    (hk : (e.given po pa bs).kind = .scalar l) : ∃ got, l.got = addGot got pa bs := by
  unfold LoadEntry.given at hpo hk
  split at hk
  next l0 he =>
    rw [he] at hpo
    dsimp only at hpo
    split at hk
    · cases hk
      exact ⟨_, rfl⟩
    next hne =>
      rw [if_neg hne] at hpo
      exact absurd hpo hne
  next he => rw [he] at hk; cases hk

/-- A load of the SCP takes the bytes of a response. -/
theorem deposit_load {s : State} {k po : Nat} {u : Task} {x : Txn} (ho : x.owner = .load (.scp k) po) (hu : s.task? k = some u) (bs : List Byte) :
    s.deposit x bs = s.putTask k { u with hart := { u.hart with
      loads := u.hart.loads.map (fun e => e.given po (x.pkt.drank.toNat * 2 ^ 40 + reqAddr x.pkt) bs) } } := by
  unfold State.deposit
  rw [ho]
  dsimp only
  rw [hart?_scp hu]
  exact putHart_scp hu _

theorem findLoad_mem {h : Hart} {po : Nat} {e : LoadEntry} {l : ScalarLoad} (hf : h.findLoad po = some (e, l)) : e ∈ h.loads := by
  unfold Hart.findLoad at hf
  split at hf
  next x hx =>
    split at hf
    · cases hf
      exact List.mem_of_find?_eq_some hx
    · cases hf
  · cases hf

theorem findLoad_dropLoad (h : Hart) (po : Nat) (extra : List Nat) : ((h.dropLoad po).prune extra).findLoad po = none := by
  cases hf : ((h.dropLoad po).prune extra).findLoad po with
  | none => rfl
  | some el =>
    obtain ⟨e, l⟩ := el
    obtain ⟨hpo, hk⟩ := findLoad_some hf
    have hmem : e ∈ ((h.dropLoad po).prune extra).loads := findLoad_mem hf
    have hkept := (List.mem_filter.1 hmem).2
    simp [hpo, hk] at hkept

/-- A load of the SCP that fails leaves its fault (R392). -/
theorem failLoad_load {s : State} {k po : Nat} {u : Task} {e : LoadEntry} {l : ScalarLoad} (hu : s.task? k = some u)
    (hl : u.hart.findLoad po = some (e, l)) (code : Nat) : s.failLoad (.scp k) po code =
      (s.putTask k { u with hart := (u.hart.dropLoad po).prune (s.streamPos (.scp k)) }).putTask k
        { u with hart := (u.hart.dropLoad po).prune (s.streamPos (.scp k)), deferred := u.deferred ++ [(addrFault code l.va.toNat false, l.pc)] } := by
  unfold State.failLoad
  rw [hart?_scp hu]
  dsimp only
  rw [hl]
  dsimp only
  rw [putHart_scp hu, State.deferFault]
  dsimp only [agentTask]
  rw [task?_putTask_same]

/-! ## Packets that are dropped -/

/-- The rows of packets. -/
theorem exec_packet (s : State) {p : Packet} {i : Instr} (hi : i = .rdreq p ∨ i = .rdrsp p ∨ i = .recv p ∨ i = .recack p ∨ i = .credit p ∨
    i = .treeArr p ∨ i = .treeDrain p ∨ i = .treeDrn p ∨ i = .treeCommit p ∨ i = .treeCmt p ∨ i = .treeRel p) :
    ∃ k, exec i s = s.onPacket p k := by
  rcases hi with rfl | rfl | rfl | rfl | rfl | rfl | rfl | rfl | rfl | rfl | rfl
  all_goals exact ⟨_, rfl⟩

theorem onPacket_dropped {s t : State} {p : Packet} (h : s.receive p = (none, t)) (k : State → Out) : s.onPacket p k = .next t := by
  rw [State.onPacket, h]

/-- A drop is counted in half of its register. -/
theorem countDrop_counts (s : State) {lo : Nat} (h : lo + 31 < 64) :
    bits ((s.countDrop lo).preg 0x685) (lo + 31) lo = (bits (s.preg 0x685) (lo + 31) lo + 1) % 2 ^ 32 ∧ RegistersBut [0x685] s (s.countDrop lo) ∧
      { s.countDrop lo with pregs := s.pregs } = s := by
  refine ⟨?_, fun n hn => preg_setPregBits_other s _ _ _ (by simpa using hn), rfl⟩
  rw [State.countDrop, preg_setPregBits_same _ _ _ _ _ (Nat.le_add_right lo 31) h, bits_setBits_same _ _ _ _ (Nat.le_add_right lo 31),
    show lo + 31 + 1 - lo = 32 by omega]

/-! ## The statements' parts -/

theorem rdrsp_answers {s : State} {p : Packet} {x : Txn} (hr : s.receive p = (some s, s)) (hx : s.txn? p = some x) :
    (∃ t, exec (.rdrsp p) s = .next t ∧ SameMemory s t ∧ t.pregs = s.pregs ∧
      (s.fab.unsent = [] → ∀ y, y ∈ t.fab.txns ↔ y ∈ s.fab.txns ∧ y.txid ≠ x.txid) ∧
      ∀ y rest, s.fab.unsent = y :: rest → t.fab.unsent = rest ∧ ∃ y' ∈ t.fab.txns, y'.owner = y.owner ∧ y'.pkt = { y.pkt with txid := y'.txid } ∧
        ∀ z ∈ s.fab.txns, z.txid ≠ x.txid → z ∈ t.fab.txns ∧ z.txid ≠ y'.txid) ∧
    (∀ k po u, x.owner = .load (.scp k) po → s.task? k = some u →
      (p.body.extractLsb' 0 8 = 0 → ∃ t u', exec (.rdrsp p) s = .next t ∧ t.task? k = some u' ∧ (∀ j, j ≠ k → t.task? j = s.task? j) ∧
        u'.hart.xs = u.hart.xs ∧ u'.hart.pc = u.hart.pc ∧ u'.hart.stores = u.hart.stores ∧
        ∀ e ∈ u'.hart.loads, e.po = po → ∀ l, e.kind = .scalar l → ∀ i, i < reqCount x.pkt → i < p.data.length →
          tfind l.got (x.pkt.drank.toNat * 2 ^ 40 + reqAddr x.pkt + i) = p.data[i]?) ∧
      (p.body.extractLsb' 0 8 ≠ 0 → ∀ e l, u.hart.findLoad po = some (e, l) →
        ∃ t u', exec (.rdrsp p) s = .next t ∧ t.task? k = some u' ∧
          u'.deferred = u.deferred ++ [(addrFault cDATAERR l.va.toNat false, l.pc)] ∧
          u'.hart.xs = u.hart.xs ∧ u'.hart.findLoad po = none)) := by
  rw [exec_rdrsp hr hx]
  refine ⟨?_, fun k po u ho hu => ?_⟩
  · obtain ⟨hframe, hfab⟩ := rdrsp_frame s p x rfl
    exact ⟨_, rfl, hframe.sameMemory, hframe.pregs, by rw [hfab]; exact closeTxn_txns s x⟩
  have htasks := (OnlyFabric.closeTxn s x).tasks
  have hu' : (s.closeTxn x).task? k = some u := (task?_congr htasks k).trans hu
  refine ⟨fun hz => ?_, fun hnz e l hl => ?_⟩
  · rw [if_pos hz, deposit_load ho hu']
    refine ⟨_, _, rfl, task?_putTask_same _ k _, fun j hj => (task?_putTask_other _ _ hj).trans (task?_congr htasks j), rfl, rfl, rfl,
      fun e he hpo l hk i hi hid => ?_⟩
    obtain ⟨e0, -, rfl⟩ := List.mem_map.1 he
    obtain ⟨got, hgot⟩ := LoadEntry.got_given hpo hk
    rw [hgot, tfind_addGot, if_pos ⟨Nat.le_add_right .., by rw [List.length_take]; omega⟩, Nat.add_sub_cancel_left, List.getElem?_take_of_lt hi]
  · rw [if_neg hnz]
    have hfail : s.failTxn x cDATAERR = (s.closeTxn x).failLoad (.scp k) po cDATAERR := by
      unfold State.failTxn State.failOwner
      rw [ho]
    rw [hfail, failLoad_load hu' hl]
    exact ⟨_, _, rfl, task?_putTask_same _ k _, rfl, rfl, findLoad_dropLoad _ _ _⟩

theorem unknown_responses_dropped {s : State} {p : Packet} (hr : s.receive p = (some s, s)) (hx : s.txn? p = none) :
    exec (.rdrsp p) s = .next s ∧ exec (.recack p) s = .next s := by
  refine ⟨(onPacket_of hr _).trans ?_, (onPacket_of hr _).trans ?_⟩ <;> rw [hx]

theorem packets_dropped {s : State} {p : Packet} {i : Instr} (h1 : p.srank.toNat ≠ s.rank) (h2 : p.drank.toNat = s.rank)
    (h3 : bit (s.preg 0x680) 8 = true) (hi : i = .rdreq p ∨ i = .rdrsp p ∨ i = .recv p ∨ i = .recack p ∨ i = .credit p ∨ i = .treeArr p ∨
      i = .treeDrain p ∨ i = .treeDrn p ∨ i = .treeCommit p ∨ i = .treeCmt p ∨ i = .treeRel p) :
    (p.dinc.toNat ≠ s.preg 0x682 → ∃ t, exec i s = .next t ∧ bits (t.preg 0x685) 31 0 = (bits (s.preg 0x685) 31 0 + 1) % 2 ^ 32 ∧
      RegistersBut [0x685] s t ∧ { t with pregs := s.pregs } = s) ∧
    (p.dinc.toNat = s.preg 0x682 → 5 < p.type.toNat ∨ 8 < p.len.toNat →
      ∃ t, exec i s = .next t ∧ bits (t.preg 0x685) 63 32 = (bits (s.preg 0x685) 63 32 + 1) % 2 ^ 32 ∧
        RegistersBut [0x685] s t ∧ { t with pregs := s.pregs } = s) := by
  obtain ⟨k, hk⟩ := exec_packet s hi
  have hnot : ¬((decide (p.drank.toNat ≠ s.rank) || !bit (s.preg 0x680) 8) = true) := by simp [h2, h3]
  refine ⟨fun hinc => ?_, fun hinc hbad => ?_⟩
  · have hr : s.receive p = (none, s.countDrop 0) := by rw [State.receive, if_neg h1, if_neg hnot, if_pos hinc]
    exact ⟨_, hk.trans (onPacket_dropped hr k), countDrop_counts s (by decide)⟩
  · have hr : s.receive p = (none, s.countDrop 32) := by
      rw [State.receive, if_neg h1, if_neg hnot, if_neg (not_not.2 hinc), if_pos]
      rcases hbad with h | h <;> simp [h]
    exact ⟨_, hk.trans (onPacket_dropped hr k), countDrop_counts s (by decide)⟩

end Sys2Proof.Machine
end

section
/-! Records that arrive and the credits behind them (O58; R140, R385, R390). -/

namespace Sys2Proof.Machine

/-! ## Writing a record where every unit is good -/

/-- A record that enters the inbound apron where every unit is good changes it, memory and check units. -/
theorem addInbound_of_clear {s : State} (h : s.clear) (r : Rec) : (s.addInbound r).clear ∧ (s.addInbound r).pregs = s.pregs ∧
    (s.addInbound r).hmem = s.hmem ∧ (s.addInbound r).host = s.host := by
  obtain ⟨hsame, hclear⟩ := writeLocal_of_clear (s := { s with inbound := s.inbound ++ [r.placed s.inbound] }) h 3 0xFFFF 0xFF 0
    (s.apronBytes 0x211 (r.placed s.inbound)) ((List.range (s.apronBytes 0x211 (r.placed s.inbound)).length).map
      (Config.apronByte (r.placed s.inbound).key.toNat (r.placed s.inbound).gen))
  exact ⟨hclear, hsame.field State.pregs fun _ => rfl, hsame.field State.hmem fun _ => rfl, hsame.field State.host fun _ => rfl⟩

/-! ## REC -/

/-- The home with one credit of a sender used up. -/
def State.spendGrant (s : State) (h : Nat) : State :=
  s.withBnd { s.bnd with granted := tset 0 s.bnd.granted h (tget 0 s.bnd.granted h - 1) }

/-- The home with a record that has arrived, acknowledged. -/
def State.takeRecord (s : State) (p : Packet) : State :=
  ((s.spendGrant p.srank.toNat).addInbound (recOf s p)).respond p 3 0 (recOf s p).key.toNat []

theorem exec_recv {s : State} {p : Packet} (hr : s.receive p = (some s, s)) : exec (.recv p) s =
    if s.bnd.phase ≠ .draining && s.bnd.phase ≠ .drained then .next s
    else if s.inbound.any (fun x => x.key = (recOf s p).key) then .next (s.respond p 3 0 (recOf s p).key.toNat [])
    else if !s.member p.srank.toNat || tget 0 s.bnd.granted p.srank.toNat = 0 || memLimit < (recOf s p).addr + (recOf s p).data.length then .next s
    else .next (s.takeRecord p).grantAll := onPacket_of hr _

/-- The acknowledgement of a record. -/
def State.recack (s : State) (p : Packet) : Packet := s.response p 3 0 ((p.body.extractLsb' 0 64).setWidth 192) []

theorem respond_recack {s s1 : State} (hf : s1.fab = s.fab) (h2 : s1.preg 0x002 = s.preg 0x002) (hi : s1.preg 0x682 = s.preg 0x682) (p : Packet) :
    s1.respond p 3 0 (recOf s p).key.toNat [] = s1.send (s.recack p) := by
  rw [respond_eq hf h2 hi, BitVec.ofNat_toNat]
  rfl

theorem recv_again {s : State} {p : Packet} (hr : s.receive p = (some s, s)) (hph : s.bnd.phase = .draining ∨ s.bnd.phase = .drained)
    (hx : ∃ x ∈ s.inbound, x.key = p.body.extractLsb' 0 64) : ∃ t, exec (.recv p) s = .next t ∧ Sent s t (s.recack p) ∧
      t.inbound = s.inbound ∧ t.tasks = s.tasks ∧ SameMemory s t ∧ t.pregs = s.pregs := by
  have hmsg := MessageFrame.send s (s.recack p)
  refine ⟨s.send (s.recack p), ?_, sent_send s _, hmsg.inbound, hmsg.tasks, hmsg.sameMemory, hmsg.pregs⟩
  rw [exec_recv hr, if_neg (by rcases hph with h | h <;> simp [h]), if_pos, respond_recack rfl rfl rfl]
  obtain ⟨x, hx, hk⟩ := hx
  exact List.any_eq_true.2 ⟨x, hx, decide_eq_true hk⟩

/-- What taking a record changes. -/
structure RecordTaken (s m : State) (p : Packet) : Prop where
  inbound : m.inbound = s.inbound ++ [(recOf s p).placed s.inbound]
  drain : DrainFrame s m
  apron : ApronTakes s m 0x211 s.inbound [(recOf s p).placed s.inbound]
  acknowledged : Sent s m (s.recack p)
  boundary : m.bnd = { s.bnd with granted := tset 0 s.bnd.granted p.srank.toNat (tget 0 s.bnd.granted p.srank.toNat - 1) }
  pinc : m.fab.pinc = s.fab.pinc
  clear : s.clear → m.hmem = s.hmem ∧ m.pregs = s.pregs ∧ m.host = s.host

theorem recordTaken_takeRecord (s : State) (p : Packet) : RecordTaken s (s.takeRecord p) p := by
  have hunit := UnitFrame.addInbound (s.spendGrant p.srank.toNat) (recOf s p)
  have hdrain : DrainFrame s ((s.spendGrant p.srank.toNat).addInbound (recOf s p)) := (DrainFrame.with_bnd s _).trans (DrainFrame.addInbound _ _)
  have hapron := apronTakes_addInbound (s.spendGrant p.srank.toNat) (recOf s p)
  have hclear : s.clear → _ := fun h => (addInbound_of_clear (s := s.spendGrant p.srank.toNat) h (recOf s p)).2
  unfold State.takeRecord
  rw [respond_recack (s := s) hunit.fab (hdrain.registers _ (by decide)) (hdrain.registers _ (by decide))]
  generalize (s.spendGrant p.srank.toNat).addInbound (recOf s p) = s1 at *
  have hmsg := MessageFrame.send s1 (s.recack p)
  exact {
    inbound := hmsg.inbound.trans hunit.inbound
    drain := hdrain.trans (.send s1 _)
    apron := ⟨hapron.1, fun a ha => by rw [hmsg.mem]; exact hapron.2 a ha⟩
    acknowledged := (sent_send s1 _).of_before hunit.agenda hunit.fab (hdrain.registers _ (by decide))
    boundary := hmsg.bnd.trans hunit.bnd
    pinc := hmsg.pinc.trans (congrArg Fabric.pinc hunit.fab)
    clear := fun h => ⟨hmsg.hmem.trans (hclear h).2.1, hmsg.pregs.trans (hclear h).1, hmsg.host.trans (hclear h).2.2⟩ }

/-! ## Grants -/

theorem member_congr {s t : State} (h : ∀ n, n < 0x700 → 0x600 ≤ n → t.preg n = s.preg n) {r : Nat} (hr : r < 8192) : t.member r = s.member r := by
  unfold State.member State.mapBit
  rw [h _ (by omega) (by omega), h _ (by omega) (by omega)]

theorem others_congr {s t : State} (h : ∀ n, n < 0x700 → 0x600 ≤ n → t.preg n = s.preg n) (h2 : t.preg 0x002 = s.preg 0x002) : t.others = s.others := by
  unfold State.others
  rw [h 0x680 (by decide) (by decide), show t.rank = s.rank from congrArg (· % 4096) h2]
  refine List.filter_congr fun r hr => ?_
  rw [member_congr h (by have := List.mem_range.1 hr; omega)]

/-- A home that owes nobody a grant leaves it at that. -/
theorem grantAll_of_none {s : State} (h : s.needy = []) : s.grantAll = s := by
  rw [State.grantAll, h]
  exact if_pos h

theorem needy_eq_nil {s : State} (h : ∀ r ∈ s.others, tget 0 s.bnd.granted r ≠ 0) : s.needy = [] :=
  List.filter_eq_nil_iff.2 fun r hr => by simpa using h r hr

/-- A grant of n credits to a rank. -/
def State.grantOne (s : State) (r n : Nat) : State := s.withBnd { s.bnd with granted := tset 0 s.bnd.granted r n }

/-- The message of a grant. -/
def State.creditPacket (s : State) (r n : Nat) : Packet := s.mkPacket r 4 0 0 n []

/-- The one other member gets a share of what is free (R390, log 25). -/
theorem grantAll_share {s : State} {r c : Nat} (ho : s.others = [r]) (hn : tget 0 s.bnd.granted r = 0) (hfree : 272 ≤ s.inboundFree)
    (hshare : c = min 65535 (max 1 (s.inboundFree / 272))) : s.grantAll = (s.grantOne r c).send (s.creditPacket r c) := by
  have hneedy : s.needy = [r] := by simp [State.needy, ho, hn]
  have hgrant : State.grant [r] s = (s.grantOne r c).send (s.creditPacket r c) := by
    unfold State.grant
    rw [if_neg (Nat.not_lt.2 hfree)]
    simp only [List.length_nil, Nat.zero_add, Nat.div_one, ← hshare]
    rfl
  unfold State.grantAll
  rw [hneedy, hgrant]
  dsimp only
  have hc : c ≠ 0 := by omega
  have hmsg := MessageFrame.send (s.grantOne r c) (s.creditPacket r c)
  refine if_pos (needy_eq_nil fun q hq => ?_)
  have hq' : q = r := by
    have hothers : ((s.grantOne r c).send (s.creditPacket r c)).others = s.others :=
      others_congr (fun n _ _ => by rw [State.preg, hmsg.pregs]; rfl) (by rw [State.preg, hmsg.pregs]; rfl)
    rw [hothers, ho] at hq
    exact List.mem_singleton.1 hq
  rw [hmsg.bnd, hq', State.grantOne]
  exact ne_of_eq_of_ne (tget_tset_same ..) hc

/-- Where there is no room for a record of the one other member the home says so (log 45). -/
theorem grantAll_full {s : State} {r : Nat} (ho : s.others = [r]) (hn : tget 0 s.bnd.granted r = 0) (hfree : s.inboundFree < 272) :
    s.grantAll = s.postFull (s.inboundUsed + 272) := by
  have hneedy : s.needy = [r] := by simp [State.needy, ho, hn]
  have hgrant : State.grant [r] s = s := by
    unfold State.grant
    rw [if_pos hfree]
  unfold State.grantAll
  rw [hneedy, hgrant]
  dsimp only
  rw [hneedy, if_neg (by simp)]

/-- A record that a credit allows is taken. -/
theorem exec_recv_taken {s : State} {p : Packet} (hr : s.receive p = (some s, s)) (hph : s.bnd.phase = .draining ∨ s.bnd.phase = .drained)
    (hx : ∀ x ∈ s.inbound, x.key ≠ p.body.extractLsb' 0 64) (hm : s.member p.srank.toNat = true) (hg : 0 < tget 0 s.bnd.granted p.srank.toNat)
    (hlim : (recOf s p).addr + (recOf s p).data.length ≤ memLimit) : exec (.recv p) s = .next (s.takeRecord p).grantAll := by
  have hnew : ¬s.inbound.any (fun x => x.key = (recOf s p).key) = true := by
    rw [List.any_eq_true]
    rintro ⟨x, hx', hk⟩
    exact hx x hx' (of_decide_eq_true hk)
  have hok : ¬(!s.member p.srank.toNat || tget 0 s.bnd.granted p.srank.toNat = 0 ||
      memLimit < (recOf s p).addr + (recOf s p).data.length : Bool) = true := by
    rw [hm]
    simp only [Bool.not_true, Bool.false_or, Bool.or_eq_true, decide_eq_true_eq]
    omega
  rw [exec_recv hr, if_neg (by rcases hph with h | h <;> simp [h]), if_neg hnew, if_neg hok]

section

variable {s m : State} {p : Packet} (h : RecordTaken s m p)

include h

/-- The credit that was used up. -/
theorem RecordTaken.granted : tget 0 m.bnd.granted p.srank.toNat = tget 0 s.bnd.granted p.srank.toNat - 1 := by
  rw [h.boundary]
  exact tget_tset_same ..

theorem RecordTaken.others : m.others = s.others :=
  others_congr (fun n h1 h2 => h.drain.registers n (by simp; omega)) (h.drain.registers _ (by decide))

theorem RecordTaken.rank : m.rank = s.rank := congrArg (· % 4096) (h.drain.registers 0x002 (by decide))

/-- Nothing more is granted while every member holds a credit. -/
theorem RecordTaken.grantAll_eq (hg : 1 < tget 0 s.bnd.granted p.srank.toNat)
    (hall : ∀ x, s.member x = true → x ≠ s.rank → tget 0 s.bnd.granted x ≠ 0) : m.grantAll = m := by
  refine grantAll_of_none (needy_eq_nil fun r hr => ?_)
  rw [h.others] at hr
  have hmem : s.member r = true ∧ r ≠ s.rank := by simpa using (List.mem_filter.1 hr).2
  by_cases he : r = p.srank.toNat
  · rw [he, h.granted]
    omega
  · rw [h.boundary]
    exact ne_of_eq_of_ne (tget_tset_other _ _ _ he) (hall r hmem.1 hmem.2)

/-- What the inbound apron holds once the last credit of the one other member is used up. -/
theorem RecordTaken.inboundUsed (hg : s.bnd.granted = [(p.srank.toNat, 1)]) :
    m.bnd.granted = [] ∧ m.inboundUsed = (s.inbound.map (fun x => recSize x.data.length)).sum + recSize (recOf s p).data.length := by
  have hnone : m.bnd.granted = [] := by
    rw [h.boundary, hg]
    simp [tget, tfind, tset, tdel]
  refine ⟨hnone, ?_⟩
  rw [State.inboundUsed, hnone, h.inbound]
  simp [Rec.placed]

/-- The message of a further grant. -/
theorem RecordTaken.creditPacket_eq {c : Nat} : m.creditPacket p.srank.toNat c =
    { s.recack p with type := 4, txid := 0, body := BitVec.ofNat 192 c } := by
  unfold State.creditPacket State.mkPacket State.recack State.response
  rw [h.pinc, h.rank, h.drain.registers 0x682 (by decide), BitVec.ofNat_toNat, BitVec.setWidth_eq]
  rfl

end

theorem postFull_of_posted {s : State} (h : s.bnd.fullPosted = true) (need : Nat) : s.postFull need = s := if_pos h

theorem postFull_of_not {s : State} (h : s.bnd.fullPosted = false) (need : Nat) : s.postFull need =
    (s.withBnd { s.bnd with fullPosted := true }).post 0x0012 0 0xFFFF [(0x18, need), (0x20, bits (s.preg 0x212) 14 8)] :=
  if_neg (by simp [h])

/-- The home says, once, that its inbound apron is full. -/
theorem postFull_says (s : State) (need : Nat) : (s.postFull need).bnd = { s.bnd with fullPosted := true } ∧ (s.postFull need).fab = s.fab ∧
    (s.postFull need).agenda = s.agenda ∧ (s.bnd.fullPosted = false →
      Posted s (s.postFull need) 0x0012 0 0xFFFF [(0x18, need), (0x20, bits (s.preg 0x212) 14 8)]) := by
  cases hf : s.bnd.fullPosted with
  | true =>
    rw [postFull_of_posted hf]
    exact ⟨by rw [← hf], rfl, rfl, fun h => absurd h (by simp)⟩
  | false =>
    rw [postFull_of_not hf]
    have hunit := UnitFrame.post (s.withBnd { s.bnd with fullPosted := true }) 0x0012 0 0xFFFF [(0x18, need), (0x20, bits (s.preg 0x212) 14 8)]
    exact ⟨hunit.bnd, hunit.fab, hunit.agenda, fun _ => posted_post (s.withBnd { s.bnd with fullPosted := true }) _ _ _ _⟩

/-- The last credit of the one other member is used up (R140, R390). -/
theorem grants_behind_record {s m : State} {p : Packet} (h : RecordTaken s m p) (ho : s.others = [p.srank.toNat])
    (hg : s.bnd.granted = [(p.srank.toNat, 1)]) (hc : ∀ u, tget 0 s.ms.ecc u = 0) {used free c : Nat}
    (hused : used = (s.inbound.map (fun x => recSize x.data.length)).sum + recSize (recOf s p).data.length)
    (hfree : free = bits (s.preg 0x212) 14 8 * 2 ^ 30 - used) (hshare : c = min 65535 (max 1 (free / 272))) :
    (272 ≤ free → m.grantAll.bnd.granted = [(p.srank.toNat, c)] ∧ m.grantAll.hmem = s.hmem ∧
      Sent m m.grantAll { s.recack p with type := 4, txid := 0, body := BitVec.ofNat 192 c }) ∧
    (free < 272 → m.grantAll.bnd.granted = [] ∧ m.grantAll.bnd.fullPosted = true ∧ m.grantAll.fab = m.fab ∧ m.grantAll.agenda = m.agenda ∧
      (s.bnd.fullPosted = false → Posted s m.grantAll 0x0012 0 0xFFFF [(0x18, used + 272), (0x20, bits (s.preg 0x212) 14 8)])) := by
  obtain ⟨hnone, husedm⟩ := h.inboundUsed hg
  obtain ⟨hhmem, hpregs, hhost⟩ := h.clear hc
  have hpreg : ∀ n, m.preg n = s.preg n := fun n => by rw [State.preg, hpregs]; rfl
  have hfreem : m.inboundFree = free := by rw [State.inboundFree, husedm, ← hused, hpreg, hfree]
  have hothers : m.others = [p.srank.toNat] := h.others.trans ho
  have hzero : tget 0 m.bnd.granted p.srank.toNat = 0 := by rw [hnone]; rfl
  refine ⟨fun hroom => ?_, fun hroom => ?_⟩
  · rw [grantAll_share (c := c) hothers hzero (hroom.trans_eq hfreem.symm) (by rw [hfreem]; exact hshare), h.creditPacket_eq]
    generalize hpkt : ({ s.recack p with type := 4, txid := 0, body := BitVec.ofNat 192 c } : Packet) = q
    have hmsg := MessageFrame.send (m.grantOne p.srank.toNat c) q
    have hc0 : c ≠ 0 := by omega
    refine ⟨?_, hmsg.hmem.trans hhmem, sent_send (m.grantOne p.srank.toNat c) q⟩
    rw [hmsg.bnd]
    show tset 0 m.bnd.granted p.srank.toNat c = _
    rw [hnone, tset, if_neg hc0]
    rfl
  · rw [grantAll_full hothers hzero (by rw [hfreem]; exact hroom), husedm, ← hused]
    obtain ⟨hbnd, hfab, hagenda, hposted⟩ := postFull_says m (used + 272)
    refine ⟨(congrArg Boundary.granted hbnd).trans hnone, congrArg Boundary.fullPosted hbnd, hfab, hagenda, fun hf => ?_⟩
    have hpost := hposted (by rw [h.boundary]; exact hf)
    rw [hpreg] at hpost
    exact hpost.of_before (fun n _ => hpreg n) (congrArg (·.evSeq) hhost) hhmem

theorem recv_new {s : State} {p : Packet} (hr : s.receive p = (some s, s)) (hph : s.bnd.phase = .draining ∨ s.bnd.phase = .drained)
    (hx : ∀ x ∈ s.inbound, x.key ≠ p.body.extractLsb' 0 64) (hm : s.member p.srank.toNat = true) (hg : 0 < tget 0 s.bnd.granted p.srank.toNat)
    (hlim : (p.body.extractLsb' 64 40).toNat + (p.data.take ((p.body.extractLsb' 104 8).toNat + 1)).length ≤ memLimit) :
    ∃ t r m, exec (.recv p) s = .next t ∧ t.inbound = s.inbound ++ [r] ∧ r.key = p.body.extractLsb' 0 64 ∧ r.home = s.rank ∧
      r.addr = (p.body.extractLsb' 64 40).toNat ∧ r.data = p.data.take ((p.body.extractLsb' 104 8).toNat + 1) ∧ r.gen = s.stepNum ∧
      t.tasks = s.tasks ∧ ApronTakes s t 0x211 s.inbound [r] ∧ RegistersBut [0x201, 0x202, 0x220] s t ∧ Sent s m (s.recack p) ∧ t = m.grantAll ∧
      tget 0 m.bnd.granted p.srank.toNat = tget 0 s.bnd.granted p.srank.toNat - 1 ∧
      (1 < tget 0 s.bnd.granted p.srank.toNat → (∀ x, s.member x = true → x ≠ s.rank → tget 0 s.bnd.granted x ≠ 0) → t = m) ∧
      ((∀ u, tget 0 s.ms.ecc u = 0) → m.hmem = s.hmem ∧ m.pregs = s.pregs) ∧
      ∀ used free c, s.others = [p.srank.toNat] → s.bnd.granted = [(p.srank.toNat, 1)] → (∀ u, tget 0 s.ms.ecc u = 0) →
        used = (s.inbound.map (fun x => recSize x.data.length)).sum + recSize r.data.length →
        free = bits (s.preg 0x212) 14 8 * 2 ^ 30 - used → c = min 65535 (max 1 (free / 272)) →
        (272 ≤ free → t.bnd.granted = [(p.srank.toNat, c)] ∧ t.hmem = s.hmem ∧
          Sent m t { s.recack p with type := 4, txid := 0, body := BitVec.ofNat 192 c }) ∧
        (free < 272 → t.bnd.granted = [] ∧ t.bnd.fullPosted = true ∧ t.fab = m.fab ∧ t.agenda = m.agenda ∧ (s.bnd.fullPosted = false →
          Posted s t 0x0012 0 0xFFFF [(0x18, used + 272), (0x20, bits (s.preg 0x212) 14 8)])) := by
  have htaken := recordTaken_takeRecord s p
  rw [exec_recv_taken hr hph hx hm hg hlim]
  generalize s.takeRecord p = m at *
  have hgrant := GrantFrame.grantAll m
  have hdrain := htaken.drain.trans (DrainFrame.grantAll m)
  exact ⟨_, _, m, rfl, hgrant.inbound.trans htaken.inbound, rfl, rfl, rfl, rfl, rfl, hdrain.tasks,
    ⟨htaken.apron.1, fun a ha => by rw [hgrant.mem]; exact htaken.apron.2 a ha⟩, hdrain.registers, htaken.acknowledged, rfl, htaken.granted,
    htaken.grantAll_eq, fun hc => ⟨(htaken.clear hc).1, (htaken.clear hc).2.1⟩,
    fun used free c ho hgr hc hused hfree hshare => grants_behind_record htaken ho hgr hc hused hfree hshare⟩

end Sys2Proof.Machine
end

section
/-! Acknowledgements and credits that arrive, and records that go out against credits (O58; R385, R390). -/

namespace Sys2Proof.Machine

/-! ## The body of a record's packet (R385) -/

/-- What stands above a first field. -/
theorem add_mul_div_eq {a A : Nat} (h : a < A) (n : Nat) : (a + A * n) / A = n := by
  rw [Nat.add_mul_div_left _ _ (Nat.zero_lt_of_lt h), Nat.div_eq_of_lt h, Nat.zero_add]

/-- Key, address and count less 1, in one number. -/
def Rec.body (r : Rec) : Nat := r.key.toNat + r.addr * 2 ^ 64 + (r.data.length - 1) * 2 ^ 104

theorem Rec.body_eq (r : Rec) : r.body = r.key.toNat + 2 ^ 64 * (r.addr + 2 ^ 40 * (r.data.length - 1)) := by
  rw [Rec.body, Nat.mul_add, ← Nat.mul_assoc, ← Nat.pow_add, Nat.mul_comm r.addr, Nat.mul_comm (r.data.length - 1), Nat.add_assoc]

/-- A field of a number kept in 192 bits. -/
theorem toNat_field {n lo w : Nat} (h : lo + w ≤ 192) : ((BitVec.ofNat 192 n).extractLsb' lo w).toNat = n / 2 ^ lo % 2 ^ w := by
  have hsplit : 2 ^ 192 = 2 ^ lo * 2 ^ (192 - lo) := by rw [← Nat.pow_add, Nat.add_sub_of_le (by omega)]
  rw [BitVec.extractLsb'_toNat, BitVec.toNat_ofNat, Nat.shiftRight_eq_div_pow, hsplit, Nat.mod_mul_right_div_self,
    Nat.mod_mod_of_dvd _ (Nat.pow_dvd_pow 2 (by omega))]

theorem Rec.key_body (r : Rec) : (BitVec.ofNat 192 r.body).extractLsb' 0 64 = r.key := by
  apply BitVec.eq_of_toNat_eq
  rw [toNat_field (by decide), Nat.pow_zero, Nat.div_one, r.body_eq, Nat.add_mul_mod_self_left, Nat.mod_eq_of_lt r.key.isLt]

theorem Rec.addr_body (r : Rec) : ((BitVec.ofNat 192 r.body).extractLsb' 64 40).toNat = r.addr % 2 ^ 40 := by
  rw [toNat_field (by decide), r.body_eq, add_mul_div_eq r.key.isLt, Nat.add_mul_mod_self_left]

theorem Rec.length_body {r : Rec} (h1 : 1 ≤ r.data.length) (h2 : r.data.length ≤ 256) (ha : r.addr < 2 ^ 40) :
    ((BitVec.ofNat 192 r.body).extractLsb' 104 8).toNat + 1 = r.data.length := by
  rw [toNat_field (by decide), r.body_eq, show 2 ^ 104 = 2 ^ 64 * 2 ^ 40 from Nat.pow_add 2 64 40, ← Nat.div_div_eq_div_mul,
    add_mul_div_eq r.key.isLt, add_mul_div_eq ha, Nat.mod_eq_of_lt (by omega)]
  omega

/-! ## A record that goes out -/

/-- A transaction that carries a record to its home. -/
def CarriesRecord (x : Txn) (r : Rec) : Prop :=
  x.owner = .record r.key ∧ x.pkt.drank = BitVec.ofNat 12 r.home ∧ x.pkt.type = 2 ∧ x.pkt.data = r.data ∧ x.pkt.body = BitVec.ofNat 192 r.body

/-- A transaction that starts is outstanding or waits for a number, beside those before it. -/
theorem startTxn_keeps (s : State) (x : Txn) : (∃ y ∈ (s.startTxn x).fab.txns ++ (s.startTxn x).fab.unsent,
      y.owner = x.owner ∧ { y.pkt with txid := x.pkt.txid } = x.pkt) ∧
    ∀ y ∈ s.fab.txns ++ s.fab.unsent, y ∈ (s.startTxn x).fab.txns ++ (s.startTxn x).fab.unsent := by
  rcases startTxn_sends s x with ⟨id, -, htx, hun, -⟩ | ⟨-, hfab⟩
  · rw [htx, hun]
    exact ⟨⟨x.numbered id, by simp, rfl, rfl⟩, fun y hy => by simp only [List.mem_append] at hy ⊢; tauto⟩
  · rw [hfab]
    exact ⟨⟨x, by simp, rfl, rfl⟩, fun y hy => by simp only [List.mem_append] at hy ⊢; tauto⟩

/-- The transaction of a record. -/
def State.recTxn (s : State) (r : Rec) : Txn :=
  { txid := 0, pkt := s.mkPacket r.home 2 (ceilDiv r.data.length 32) 0 r.body r.data, owner := .record r.key, va := 0 }

theorem sendOne_of_good {s : State} (h : ∀ u, s.badUnit u = false) (r : Rec) :
    s.sendOne r = State.startTxn ((s.useCredit r).readLocal ((s.useCredit r).apronBytes 0x210 r)).1
      (State.recTxn ((s.useCredit r).readLocal ((s.useCredit r).apronBytes 0x210 r)).1 r) := by
  unfold State.sendOne
  rw [readApron_of_good (s := s.useCredit r) h]
  rfl

/-- A record that can be read goes out (R390). -/
theorem sendOne_carries {s : State} (h : ∀ u, s.badUnit u = false) (r : Rec) :
    (∃ x ∈ (s.sendOne r).fab.txns ++ (s.sendOne r).fab.unsent, CarriesRecord x r) ∧
    ∀ y ∈ s.fab.txns ++ s.fab.unsent, y ∈ (s.sendOne r).fab.txns ++ (s.sendOne r).fab.unsent := by
  rw [sendOne_of_good h]
  have hfab := (UnitFrame.readLocal (s.useCredit r) ((s.useCredit r).apronBytes 0x210 r)).fab
  generalize ((s.useCredit r).readLocal ((s.useCredit r).apronBytes 0x210 r)).1 = a at *
  obtain ⟨⟨y, hy, howner, hpkt⟩, hold⟩ := startTxn_keeps a (a.recTxn r)
  have hfield : ∀ {β : Type} (f : Packet → β), (∀ q : Packet, f { q with txid := (a.recTxn r).pkt.txid } = f q) → f y.pkt = f (a.recTxn r).pkt :=
    fun f hf => (hf y.pkt).symm.trans (congrArg f hpkt)
  refine ⟨⟨y, hy, howner, hfield Packet.drank fun _ => rfl, hfield Packet.type fun _ => rfl, hfield Packet.data fun _ => rfl,
    hfield Packet.body fun _ => rfl⟩, fun z hz => hold z ?_⟩
  rw [hfab]
  exact hz

/-- A state with the outbound records, boundary, fabric and counter of free choices of another. -/
def State.withSendsOf (t s : State) : State := { t with outbound := s.outbound, bnd := s.bnd, fab := s.fab, freeCtr := s.freeCtr }

/-- What sending a record changes where every unit is good. -/
theorem sendOne_of_clear {s : State} (h : s.clear) (r : Rec) : SameUpTo State.withSendsOf s (s.sendOne r) ∧
    (s.sendOne r).outbound = s.outbound.map r.markSent ∧
    (s.sendOne r).bnd = { s.bnd with credits := tset 0 s.bnd.credits r.home (tget 0 s.bnd.credits r.home - 1) } := by
  rw [sendOne_of_good h.good, readLocal_of_clear (s := s.useCredit r) h]
  have hf := startTxn_onlyFabric (s.useCredit r) ((s.useCredit r).recTxn r)
  exact ⟨(congrArg (fun x : State => x.withSendsOf s) hf :), hf.outbound, hf.bnd⟩

/-! ## The records for a home that grants credits -/

/-- Marking a record leaves those with other keys. -/
theorem map_markSent {r : Rec} {D l : List Rec} (h : ((D ++ r :: l).map Rec.key).Nodup) :
    (D ++ r :: l).map r.markSent = D ++ { r with sent := true } :: l := by
  have hmark : r.markSent r = { r with sent := true } := if_pos (by simp)
  have hother : ∀ x, x.key ≠ r.key → r.markSent x = x := fun x hx => if_neg (by simp [hx])
  rw [List.map_append, List.map_cons, List.nodup_append] at h
  obtain ⟨-, hr, hD⟩ := h
  have hl := (List.nodup_cons.1 hr).1
  have hDmap : D.map r.markSent = D := (List.map_congr_left fun (x : Rec) hx => hother x fun e =>
    hD x.key (List.mem_map_of_mem hx) r.key (List.mem_cons_self ..) e).trans (List.map_id' D)
  have hlmap : l.map r.markSent = l := (List.map_congr_left fun (x : Rec) hx => hother x fun e => hl (e ▸ List.mem_map_of_mem hx)).trans (List.map_id' l)
  rw [List.map_append, List.map_cons, hmark, hDmap, hlmap]

/-- One step of sending the records for home h, of which c credits are held. -/
theorem foldl_sends {f : State → Rec → State} {h : Nat}
    (hf : ∀ a r, r.home = h → r.sent = false → r.acked = false → f a r = if tget 0 a.bnd.credits h ≠ 0 then a.sendOne r else a) (l : List Rec)
    {a : State} {D : List Rec} (hclear : a.clear) (hout : a.outbound = D ++ l) (hkeys : ((D ++ l).map Rec.key).Nodup)
    (hl : ∀ r ∈ l, r.home = h ∧ r.sent = false ∧ r.acked = false) :
    SameUpTo State.withSendsOf a (l.foldl f a) ∧
    (∀ j, tget 0 (l.foldl f a).bnd.credits j = if j = h then tget 0 a.bnd.credits h - l.length else tget 0 a.bnd.credits j) ∧
    (l.foldl f a).outbound = D ++ (l.take (tget 0 a.bnd.credits h)).map (fun r => { r with sent := true }) ++ l.drop (tget 0 a.bnd.credits h) ∧
    (∀ y ∈ a.fab.txns ++ a.fab.unsent, y ∈ (l.foldl f a).fab.txns ++ (l.foldl f a).fab.unsent) ∧
    ∀ r ∈ l.take (tget 0 a.bnd.credits h), ∃ x ∈ (l.foldl f a).fab.txns ++ (l.foldl f a).fab.unsent, CarriesRecord x r := by
  induction l generalizing a D with
  | nil =>
    refine ⟨rfl, fun j => ?_, by simp [hout], fun y hy => hy, by simp⟩
    split
    · next e => rw [e]; rfl
    · rfl
  | cons r l ih =>
    rw [List.forall_mem_cons] at hl
    obtain ⟨⟨hhome, hsent, hacked⟩, hl⟩ := hl
    rw [List.foldl_cons, hf a r hhome hsent hacked]
    by_cases hc : tget 0 a.bnd.credits h = 0
    · rw [if_neg (not_not.2 hc)]
      obtain ⟨i1, i2, i3, i4, -⟩ := ih (D := D ++ [r]) hclear (by rw [hout]; simp) (by simpa using hkeys) hl
      refine ⟨i1, fun j => ?_, ?_, i4, by rw [hc]; simp⟩
      · rw [i2, hc, Nat.zero_sub, Nat.zero_sub]
      · rw [i3, hc]
        simp
    · rw [if_pos hc]
      obtain ⟨hsame, hout1, hbnd⟩ := sendOne_of_clear hclear r
      obtain ⟨⟨x, hx, hcar⟩, hkeep⟩ := sendOne_carries hclear.good r
      have hclear1 : (a.sendOne r).clear := fun u => (hsame.field (fun y => tget 0 y.ms.ecc u) fun _ => rfl).trans (hclear u)
      have hcred : ∀ j, tget 0 (a.sendOne r).bnd.credits j = if j = h then tget 0 a.bnd.credits h - 1 else tget 0 a.bnd.credits j := fun j => by
        rw [hbnd, ← hhome]
        exact tget_tset ..
      have hkeys1 : ((D ++ [{ r with sent := true }] ++ l).map Rec.key).Nodup := by simpa using hkeys
      rw [hout, map_markSent hkeys] at hout1
      obtain ⟨i1, i2, i3, i4, i5⟩ := ih (D := D ++ [{ r with sent := true }]) hclear1 (by rw [hout1]; simp) hkeys1 hl
      have htake : (r :: l).take (tget 0 a.bnd.credits h) = r :: l.take (tget 0 a.bnd.credits h - 1) := by
        rw [show tget 0 a.bnd.credits h = tget 0 a.bnd.credits h - 1 + 1 by omega, List.take_succ_cons, Nat.add_sub_cancel]
      have hdrop : (r :: l).drop (tget 0 a.bnd.credits h) = l.drop (tget 0 a.bnd.credits h - 1) := by
        rw [show tget 0 a.bnd.credits h = tget 0 a.bnd.credits h - 1 + 1 by omega, List.drop_succ_cons, Nat.add_sub_cancel]
      rw [hcred, if_pos rfl] at i2 i3 i5
      rw [htake, hdrop]
      refine ⟨SameUpTo.trans (w := State.withSendsOf) (fun _ _ _ => rfl) hsame i1, fun j => ?_, ?_, fun y hy => i4 y (hkeep y hy), fun q hq => ?_⟩
      · rw [i2, List.length_cons]
        split
        · omega
        · next hj => rw [hcred, if_neg hj]
      · rw [i3]
        simp
      · rcases List.mem_cons.1 hq with rfl | hq
        · exact ⟨x, i4 x hx, hcar⟩
        · exact i5 q hq

/-! ## RECACK and CREDIT -/

/-- An acknowledged record of the outbound apron, where it has this key and generation. -/
def Rec.acknowledged (key : Word) (gen : Nat) (r : Rec) : Rec := if r.key = key ∧ r.gen = gen then { r with acked := true } else r

/-- The package with an acknowledgement taken. -/
def State.acknowledge (s : State) (p : Packet) (x : Txn) : State :=
  (s.closeTxn x).withOutbound (s.outbound.map (Rec.acknowledged (p.body.extractLsb' 0 64) s.stepNum))

theorem exec_recack {s : State} {p : Packet} {x : Txn} (hr : s.receive p = (some s, s)) (hx : s.txn? p = some x) :
    exec (.recack p) s = .next (s.acknowledge p x).tryDrn := by
  have hclose := OnlyFabric.closeTxn s x
  have hstep : (s.closeTxn x).stepNum = s.stepNum := hclose.field State.stepNum fun _ => rfl
  have hmap : ∀ l : List Rec, l.map (fun r => if r.key = p.body.extractLsb' 0 64 && r.gen = (s.closeTxn x).stepNum then { r with acked := true } else r) =
      l.map (Rec.acknowledged (p.body.extractLsb' 0 64) s.stepNum) := fun l => List.map_congr_left fun r _ => by
    rw [hstep, Rec.acknowledged]
    exact if_congr (by simp) rfl rfl
  refine (onPacket_of hr _).trans ?_
  rw [hx]
  unfold State.acknowledge
  rw [← hmap, ← hclose.outbound]
  rfl

theorem tryDrn_outbound (s : State) : s.tryDrn.outbound = s.outbound := by
  unfold State.tryDrn
  split
  · exact (MessageFrame.report { s with bnd := { s.bnd with phase := .drained, sentDrn := true } } 2).outbound
  · rfl

/-- The package has drained once every record of the closing step is acknowledged (R389). -/
theorem tryDrn_drained {s : State} (hph : s.bnd.phase = .draining) (h : ∀ r ∈ s.outbound, r.gen = s.stepNum → r.acked = true) :
    s.tryDrn.bnd = { s.bnd with phase := .drained, sentDrn := true } := by
  have hall : s.outbound.all (fun r => r.gen ≠ s.stepNum || r.acked) = true := List.all_eq_true.2 fun r hr => by
    by_cases hg : r.gen = s.stepNum
    · simp [h r hr hg]
    · simp [hg]
  unfold State.tryDrn
  rw [hph, hall, if_pos (by rfl)]
  exact (MessageFrame.report { s with bnd := { s.bnd with phase := .drained, sentDrn := true } } 2).bnd

theorem recack_acknowledges {s : State} {p : Packet} {x : Txn} (hr : s.receive p = (some s, s)) (hx : s.txn? p = some x) :
    ∃ t, exec (.recack p) s = .next t ∧ t.outbound = s.outbound.map (fun r =>
        if r.key = p.body.extractLsb' 0 64 ∧ r.gen = s.stepNum then { r with acked := true } else r) ∧
      (s.fab.unsent = [] → ∀ y, y ∈ t.fab.txns ↔ y ∈ s.fab.txns ∧ y.txid ≠ x.txid) ∧ t.tasks = s.tasks ∧ SameMemory s t ∧ t.pregs = s.pregs ∧
      (s.bnd.phase = .draining → (∀ r ∈ t.outbound, r.gen = s.stepNum → r.acked = true) → t.bnd.phase = .drained) := by
  have hclose := OnlyFabric.closeTxn s x
  have hpeer : PeerFrame s (s.acknowledge p x).tryDrn :=
    ((PeerFrame.of_onlyFabric hclose).trans (.with_outbound _ _)).trans (.tryDrn (s.acknowledge p x))
  have htasks : (s.acknowledge p x).tryDrn.tasks = s.tasks := ((DrainFrame.tryDrn _).tasks).trans hclose.tasks
  refine ⟨_, exec_recack hr hx, tryDrn_outbound _, fun h y => ?_, htasks, hpeer.sameMemory, hpeer.pregs, fun hph hall => ?_⟩
  · rw [(tryDrn_txns _).1]
    exact (closeTxn_txns s x).1 h y
  · rw [tryDrn_outbound] at hall
    have hstep : (s.acknowledge p x).stepNum = s.stepNum := hclose.field State.stepNum fun _ => rfl
    have hphase : (s.acknowledge p x).bnd.phase = .draining := (congrArg Boundary.phase hclose.bnd).trans hph
    rw [tryDrn_drained hphase fun r hr' hg => hall r hr' (hg.trans hstep)]

/-- The package with credits added. -/
def State.addCredits (s : State) (h n : Nat) : State :=
  s.withBnd { s.bnd with credits := tset 0 s.bnd.credits h (tget 0 s.bnd.credits h + n) }

theorem exec_credit {s : State} {p : Packet} (hr : s.receive p = (some s, s)) (hph : s.bnd.phase = .draining ∨ s.bnd.phase = .arrived) :
    exec (.credit p) s = .next (if s.bnd.phase = .draining then (s.addCredits p.srank.toNat (p.body.extractLsb' 0 32).toNat).sendRecs
      else s.addCredits p.srank.toNat (p.body.extractLsb' 0 32).toNat) :=
  (onPacket_of hr _).trans (if_pos (by rcases hph with h | h <;> simp [h]))

theorem credit_arrived {s : State} {p : Packet} (hr : s.receive p = (some s, s)) (hph : s.bnd.phase = .arrived) :
    ∃ t, exec (.credit p) s = .next t ∧ { t with bnd := s.bnd } = s ∧ { t.bnd with credits := s.bnd.credits } = s.bnd ∧
      ∀ h, tget 0 t.bnd.credits h = tget 0 s.bnd.credits h + if h = p.srank.toNat then (p.body.extractLsb' 0 32).toNat else 0 := by
  refine ⟨s.addCredits p.srank.toNat (p.body.extractLsb' 0 32).toNat, ?_, rfl, rfl, fun h => ?_⟩
  · rw [exec_credit hr (.inr hph), hph, if_neg (by decide)]
  · refine (tget_tset ..).trans ?_
    by_cases hh : h = p.srank.toNat
    · rw [if_pos hh, if_pos hh, hh]
    · rw [if_neg hh, if_neg hh, Nat.add_zero]

theorem credit_sends {s : State} {p : Packet} {h c : Nat} (hr : s.receive p = (some s, s)) (hph : s.bnd.phase = .draining)
    (hh : h = p.srank.toNat) (hne : h ≠ s.rank) (hc : c = tget 0 s.bnd.credits h + (p.body.extractLsb' 0 32).toNat)
    (hkeys : (s.outbound.map (·.key)).Nodup)
    (hrecs : ∀ r ∈ s.outbound, r.gen = s.stepNum ∧ r.home = h ∧ r.sent = false ∧ r.acked = false) (hclear : ∀ u, tget 0 s.ms.ecc u = 0) :
    ∃ t, exec (.credit p) s = .next t ∧ t.tasks = s.tasks ∧ SameMemory s t ∧ t.pregs = s.pregs ∧ t.inbound = s.inbound ∧
      (∀ j, tget 0 t.bnd.credits j = if j = h then c - s.outbound.length else tget 0 s.bnd.credits j) ∧
      t.outbound = (s.outbound.take c).map (fun r => { r with sent := true }) ++ s.outbound.drop c ∧
      ∀ r ∈ s.outbound.take c, ∃ x ∈ t.fab.txns ++ t.fab.unsent, x.owner = .record r.key ∧ x.pkt.drank = p.srank ∧ x.pkt.type = 2 ∧
        x.pkt.data = r.data ∧ x.pkt.body.extractLsb' 0 64 = r.key := by
  have hcred : ∀ j, tget 0 (s.addCredits h (p.body.extractLsb' 0 32).toNat).bnd.credits j = if j = h then c else tget 0 s.bnd.credits j := fun j => by
    rw [hc]
    exact tget_tset ..
  -- Only the records that qualify are met, so that the step is `foldl_sends`'s.
  have hqual : ∀ (a : State) (r : Rec), r ∈ s.outbound → (if r.gen = s.stepNum && r.home ≠ s.rank && !r.sent && !r.acked &&
      tget 0 a.bnd.credits r.home ≠ 0 then a.sendOne r else a) = if tget 0 a.bnd.credits h ≠ 0 then a.sendOne r else a := fun a r hr => by
    obtain ⟨hg, hhome, hs, ha⟩ := hrecs r hr
    rw [hhome, hs, ha]
    exact if_congr (by simp [hg, hne]) rfl rfl
  have hsend : (s.addCredits h (p.body.extractLsb' 0 32).toNat).sendRecs =
      s.outbound.foldl (fun a r => if tget 0 a.bnd.credits h ≠ 0 then a.sendOne r else a) (s.addCredits h (p.body.extractLsb' 0 32).toNat) := by
    rw [sendRecs_eq]
    exact List.foldl_ext _ _ _ fun a r hr => hqual a r hr
  obtain ⟨hsame, h2, h3, -, h5⟩ := foldl_sends (fun _ _ _ _ _ => rfl) s.outbound (a := s.addCredits h (p.body.extractLsb' 0 32).toNat) (D := [])
    hclear rfl hkeys fun r hr => (hrecs r hr).2
  rw [← hsend] at hsame h2 h3 h5
  rw [hcred, if_pos rfl] at h2 h3 h5
  refine ⟨_, (exec_credit hr (.inl hph)).trans (by rw [if_pos hph, ← hh]), hsame.field State.tasks fun _ => rfl,
    ⟨fun a => hsame.field (fun y => rdByte y.mem a) fun _ => rfl, fun a => hsame.field (fun y => rdByte y.hmem a) fun _ => rfl⟩,
    hsame.field State.pregs fun _ => rfl, hsame.field State.inbound fun _ => rfl, fun j => ?_, h3, fun r hr => ?_⟩
  · rw [h2]
    split
    · rfl
    · next hj => rw [hcred, if_neg hj]
  · obtain ⟨x, hx, howner, hdrank, htype, hdata, hbody⟩ := h5 r hr
    refine ⟨x, hx, howner, ?_, htype, hdata, by rw [hbody]; exact r.key_body⟩
    rw [hdrank, (hrecs r (List.mem_of_mem_take hr)).2.1, hh, BitVec.ofNat_toNat, BitVec.setWidth_eq]

/-- Settles O58: each packet is its row's branch, the frame of what it sets going, and the response or the records it sends. -/
theorem packetsAreHandled : Obligations.PacketsAreHandled := by
  unfold Obligations.PacketsAreHandled
  refine ⟨?_, fun s p x hr hx => rdrsp_answers hr hx, fun s p hr hx => unknown_responses_dropped hr hx, ?_,
    fun s p x hr hx => recack_acknowledges hr hx, fun s p hr hph => credit_arrived hr hph,
    fun s p h c hr hph hh hne hc hk hrecs hclear => credit_sends hr hph hh hne hc hk hrecs hclear,
    fun s p i h1 h2 h3 hi => packets_dropped h1 h2 h3 hi⟩
  · rintro s p _ _ _ hr rfl rfl hlim rfl
    exact rdreq_answers hr hlim
  · rintro s p _ _ hr rfl rfl
    refine ⟨fun hph => ⟨fun hx => recv_again hr hph hx, fun hx hm hg hlim => recv_new hr hph hx hm hg hlim⟩, fun h1 h2 => ?_⟩
    rw [exec_recv hr, if_pos (by simp [h1, h2])]

end Sys2Proof.Machine
end

section
/-! TREE_DRAIN (O57; R132, R138, R390): a boundary's records move, go out, stay or are discarded. -/

namespace Sys2Proof.Machine

/-! ## What grants and sent records leave -/

/-- A boundary with the grants of another. -/
def Boundary.withGrantsOf (b c : Boundary) : Boundary := { b with granted := c.granted, fullPosted := c.fullPosted }

theorem Boundary.of_withGrantsOf {b c : Boundary} (h : b.withGrantsOf c = c) : b.phase = c.phase ∧ b.credits = c.credits :=
  ⟨(congrArg Boundary.phase h :), (congrArg Boundary.credits h :)⟩

theorem grant_cons (r : Nat) (rs : List Nat) (s : State) : ∃ n, State.grant (r :: rs) s =
    if s.inboundFree < 272 then s else State.grant rs ((s.grantOne r n).send ((s.grantOne r n).creditPacket r n)) := ⟨_, rfl⟩

theorem grant_keeps (rs : List Nat) (s : State) : (State.grant rs s).bnd.withGrantsOf s.bnd = s.bnd ∧
    (State.grant rs s).fab.txns = s.fab.txns ∧ (State.grant rs s).fab.unsent = s.fab.unsent := by
  induction rs generalizing s with
  | nil => exact ⟨rfl, rfl, rfl⟩
  | cons r rs ih =>
    obtain ⟨n, hn⟩ := grant_cons r rs s
    rw [hn]
    split
    · exact ⟨rfl, rfl, rfl⟩
    · have hmsg := MessageFrame.send (s.grantOne r n) ((s.grantOne r n).creditPacket r n)
      generalize (s.grantOne r n).send ((s.grantOne r n).creditPacket r n) = a at *
      obtain ⟨h1, h2, h3⟩ := ih a
      refine ⟨?_, h2.trans hmsg.txns, h3.trans hmsg.unsent⟩
      rw [hmsg.bnd] at h1
      exact (congrArg (fun b : Boundary => b.withGrantsOf s.bnd) h1 :)

/-- Grants change neither the phase nor credits, and no transaction. -/
theorem grantAll_keeps (s : State) : s.grantAll.bnd.withGrantsOf s.bnd = s.bnd ∧ s.grantAll.fab.txns = s.fab.txns ∧
    s.grantAll.fab.unsent = s.fab.unsent := by
  unfold State.grantAll
  obtain ⟨h1, h2, h3⟩ := grant_keeps s.needy s
  generalize State.grant s.needy s = s1 at *
  dsimp only
  split
  · exact ⟨h1, h2, h3⟩
  · obtain ⟨hbnd, hfab, -⟩ := postFull_says s1 (s1.inboundUsed + 272)
    rw [hbnd, hfab]
    exact ⟨h1, h2, h3⟩

theorem grantAll_phase (s : State) : s.grantAll.bnd.phase = s.bnd.phase ∧ s.grantAll.bnd.credits = s.bnd.credits :=
  Boundary.of_withGrantsOf (grantAll_keeps s).1

/-- What sending a record leaves. -/
theorem sendOne_records (s : State) (r : Rec) : (s.sendOne r).inbound = s.inbound ∧ (s.sendOne r).outbound = s.outbound.map r.markSent ∧
    (s.sendOne r).bnd = { s.bnd with credits := tset 0 s.bnd.credits r.home (tget 0 s.bnd.credits r.home - 1) } := by
  have hread := UnitFrame.readApron (s.useCredit r) 0x210 r
  have hopen : OnlyFabric ((s.useCredit r).readApron 0x210 r).2 (s.sendOne r) := startTxn_onlyFabric _ _
  exact ⟨hopen.inbound.trans hread.inbound, hopen.outbound.trans hread.outbound, hopen.bnd.trans hread.bnd⟩

theorem DrainFrame.sendOne (s : State) (r : Rec) : DrainFrame s (s.sendOne r) :=
  ((DrainFrame.with_sent s _ _).trans (.readApron _ 0x210 r)).trans (.openTxn _ _ _ _ _ _ _ _)

theorem markSent_self (r : Rec) : r.markSent r = { r with sent := true } := if_pos (by simp)

theorem markMoved_self (r : Rec) : r.markMoved r = { r with sent := true, acked := true } := if_pos (by simp)

/-! ## The end of a drain -/

/-- A package with a record of the closing step that is not acknowledged has not drained. -/
theorem tryDrn_of_waiting {s : State} {r : Rec} (hr : r ∈ s.outbound) (hg : r.gen = s.stepNum) (ha : r.acked = false) : s.tryDrn = s := by
  have hall : s.outbound.all (fun r => r.gen ≠ s.stepNum || r.acked) = false := by
    rw [List.all_eq_false]
    exact ⟨r, hr, by simp [hg, ha]⟩
  rw [State.tryDrn, hall, Bool.and_false, if_neg Bool.false_ne_true]

/-- A drained package reports it. -/
theorem tryDrn_records {s : State} (hph : s.bnd.phase = .draining) (h : ∀ r ∈ s.outbound, r.gen = s.stepNum → r.acked = true) :
    s.tryDrn.bnd.phase = .drained ∧ s.tryDrn.bnd.sentDrn = true ∧ s.tryDrn.inbound = s.inbound ∧ s.tryDrn.outbound = s.outbound ∧
      s.tryDrn.mem = s.mem := by
  have hrep : SameButReports s s.tryDrn := by
    unfold State.tryDrn
    split
    · exact (SameButReports.with_bnd s _).trans (.of_messages (.report _ 2))
    · exact .refl s
  rw [tryDrn_drained hph h]
  exact ⟨rfl, rfl, hrep.inbound, hrep.outbound, hrep.mem⟩

/-- A package whose drain begins, its dead homes' records discarded. -/
def State.beginDrain (s : State) : State := State.dropDead (s.withBnd { s.bnd with phase := .draining })

/-- With no record left, the package has drained. -/
theorem drain_of_none {s : State} (h : s.outbound = []) (hph : s.bnd.phase = .draining) :
    s.moveOwn.grantAll.sendRecs.tryDrn.bnd.phase = .drained ∧ s.moveOwn.grantAll.sendRecs.tryDrn.bnd.sentDrn = true ∧
      s.moveOwn.grantAll.sendRecs.tryDrn.inbound = s.inbound ∧ s.moveOwn.grantAll.sendRecs.tryDrn.outbound = [] ∧
      s.moveOwn.grantAll.sendRecs.tryDrn.mem = s.mem := by
  have hgrant := GrantFrame.grantAll s
  have hmove : s.moveOwn = s := by rw [moveOwn_eq, h]; rfl
  have hsend : s.grantAll.sendRecs = s.grantAll := by rw [sendRecs_eq, hgrant.outbound, h]; rfl
  rw [hmove, hsend]
  obtain ⟨h1, h2, h3, h4, h5⟩ := tryDrn_records ((grantAll_phase s).1.trans hph) (by rw [hgrant.outbound, h]; simp)
  exact ⟨h1, h2, h3.trans hgrant.inbound, h4.trans (hgrant.outbound.trans h), h5.trans hgrant.mem⟩

section

variable {s : State} {r : Rec} (hout : s.outbound = [r]) (hg : r.gen = s.stepNum) (ha : r.acked = false)

include hout hg ha

/-- A record of the own package moves to the own inbound apron (R385). -/
theorem drain_of_own (hph : s.bnd.phase = .draining) (hhome : r.home = s.rank) (hfit : recSize r.data.length ≤ s.inboundFree)
    (hgood : ∀ u, s.badUnit u = false) : ∃ r', { r' with place := r.place } = r ∧
      s.moveOwn.grantAll.sendRecs.tryDrn.inbound = s.inbound ++ [r'] ∧ ApronTakes s s.moveOwn.grantAll.sendRecs.tryDrn 0x211 s.inbound [r'] ∧
      s.moveOwn.grantAll.sendRecs.tryDrn.bnd.phase = .drained := by
  have hmove : s.moveOwn = s.moveOne r := by
    rw [moveOwn_eq, hout, List.foldl_cons, List.foldl_nil, if_pos (by simp [hg, hhome, ha]), if_pos hfit]
  obtain ⟨b, hb⟩ : ∃ b, b = (s.readLocal (s.apronBytes 0x210 r)).1 := ⟨_, rfl⟩
  have hread := UnitFrame.readLocal s (s.apronBytes 0x210 r)
  obtain ⟨hbmem, -, -, hbregs⟩ := readLocal_frames s (s.apronBytes 0x210 r)
  rw [← hb] at hread hbmem hbregs
  have hone : s.moveOne r = (b.withOutbound [{ r with sent := true, acked := true }]).addInbound r := by
    unfold State.moveOne
    rw [readApron_of_good hgood, ← hb, hread.outbound, hout, List.map_cons, List.map_nil, markMoved_self]
  have hadd := UnitFrame.addInbound (b.withOutbound [{ r with sent := true, acked := true }]) r
  have hdrain : DrainFrame b (s.moveOne r) := by
    rw [hone]
    exact (DrainFrame.with_outbound b _).trans (.addInbound _ r)
  have hapron := apronTakes_addInbound (b.withOutbound [{ r with sent := true, acked := true }]) r
  rw [← hone] at hadd hapron
  have hin : (s.moveOne r).inbound = s.inbound ++ [r.placed s.inbound] := by
    rw [hadd.inbound]
    show b.inbound ++ [r.placed b.inbound] = _
    rw [hread.inbound]
  have hregs : RegistersBut [0x201, 0x202, 0x220] s (s.moveOne r) := fun n hn =>
    (hdrain.registers n hn).trans (hbregs n fun e => hn (by simp [e]))
  have hgrant := GrantFrame.grantAll (s.moveOne r)
  have hgregs := (DrainFrame.grantAll (s.moveOne r)).registers
  have hgout : (s.moveOne r).grantAll.outbound = [{ r with sent := true, acked := true }] := hgrant.outbound.trans hadd.outbound
  have hgrank : (s.moveOne r).grantAll.rank = s.rank := congrArg (· % 4096) ((hgregs 0x002 (by decide)).trans (hregs 0x002 (by decide)))
  have hsend : (s.moveOne r).grantAll.sendRecs = (s.moveOne r).grantAll := by
    rw [sendRecs_eq, hgout, List.foldl_cons, List.foldl_nil, if_neg (by simp)]
  have hphase : (s.moveOne r).grantAll.bnd.phase = .draining := by
    rw [(grantAll_phase _).1, hadd.bnd]
    exact (congrArg Boundary.phase hread.bnd).trans hph
  obtain ⟨h1, -, h3, -, h5⟩ := tryDrn_records hphase (by rw [hgout]; simp)
  rw [hmove, hsend]
  refine ⟨r.placed s.inbound, rfl, h3.trans (hgrant.inbound.trans hin), ?_, h1⟩
  have hplaced : (b.withOutbound [{ r with sent := true, acked := true }]).inbound = s.inbound := hread.inbound
  rw [hplaced] at hapron
  refine ⟨hapron.1, fun a ha' => ?_⟩
  rw [h5, hgrant.mem]
  refine (hapron.2 a fun x hx => ?_).trans (by rw [← hbmem]; rfl)
  have hbytes : (b.withOutbound [{ r with sent := true, acked := true }]).apronBytes 0x211 x = s.apronBytes 0x211 x :=
    apronBytes_congr (hbregs _ (by decide)) (hbregs _ (by decide)) x
  rw [hbytes]
  exact ha' x hx

/-- A record for another package goes out against a credit, or stays (R390). -/
theorem drain_of_other (hph : s.bnd.phase = .draining) (hhome : r.home ≠ s.rank) (hs : r.sent = false) :
    s.moveOwn.grantAll.sendRecs.tryDrn.inbound = s.inbound ∧ s.moveOwn.grantAll.sendRecs.tryDrn.bnd.phase = .draining ∧
      (tget 0 s.bnd.credits r.home = 0 → s.moveOwn.grantAll.sendRecs.tryDrn.outbound = [r] ∧
        s.moveOwn.grantAll.sendRecs.tryDrn.fab.txns = s.fab.txns ∧ s.moveOwn.grantAll.sendRecs.tryDrn.fab.unsent = s.fab.unsent) ∧
      (0 < tget 0 s.bnd.credits r.home → s.moveOwn.grantAll.sendRecs.tryDrn.outbound = [{ r with sent := true }] ∧
        tget 0 s.moveOwn.grantAll.sendRecs.tryDrn.bnd.credits r.home = tget 0 s.bnd.credits r.home - 1 ∧
        ((∀ u, s.badUnit u = false) → ∃ x ∈ s.moveOwn.grantAll.sendRecs.tryDrn.fab.txns ++ s.moveOwn.grantAll.sendRecs.tryDrn.fab.unsent,
          CarriesRecord x r)) := by
  have hmove : s.moveOwn = s := by
    rw [moveOwn_eq, hout, List.foldl_cons, List.foldl_nil, if_neg (by simp [hhome])]
  have hgrant := GrantFrame.grantAll s
  obtain ⟨-, htxns, hunsent⟩ := grantAll_keeps s
  obtain ⟨hphase, hcredits⟩ := grantAll_phase s
  have hgregs := (DrainFrame.grantAll s).registers
  have hgout : s.grantAll.outbound = [r] := hgrant.outbound.trans hout
  have hrank : s.grantAll.rank = s.rank := congrArg (· % 4096) (hgregs 0x002 (by decide))
  have hstep : s.grantAll.stepNum = s.stepNum := hgregs 0x214 (by decide)
  have hbad : ∀ u, s.grantAll.badUnit u = s.badUnit u := fun u => SameUpTo.field hgrant (fun x => x.badUnit u) fun _ => rfl
  have hsend : s.grantAll.sendRecs = if tget 0 s.bnd.credits r.home = 0 then s.grantAll else s.grantAll.sendOne r := by
    rw [sendRecs_eq, hgout, List.foldl_cons, List.foldl_nil, hcredits, hstep, hrank]
    by_cases hc : tget 0 s.bnd.credits r.home = 0
    · rw [if_pos hc, if_neg (by simp [hc])]
    · rw [if_neg hc, if_pos (by simp [hc, hg, hhome, hs, ha])]
  rw [hmove, hsend]
  by_cases hc : tget 0 s.bnd.credits r.home = 0
  · rw [if_pos hc, tryDrn_of_waiting (r := r) (by rw [hgout]; exact List.mem_singleton_self r) (hg.trans hstep.symm) ha]
    exact ⟨hgrant.inbound, hphase.trans hph, fun _ => ⟨hgout, htxns, hunsent⟩, fun h => absurd hc h.ne'⟩
  · obtain ⟨hin, hout1, hbnd⟩ := sendOne_records s.grantAll r
    rw [hgout, List.map_cons, List.map_nil, markSent_self] at hout1
    have hstep1 : (s.grantAll.sendOne r).stepNum = s.stepNum := ((DrainFrame.sendOne s.grantAll r).registers 0x214 (by decide)).trans hstep
    rw [if_neg hc, tryDrn_of_waiting (r := { r with sent := true }) (by rw [hout1]; exact List.mem_singleton_self _) (hg.trans hstep1.symm) ha]
    refine ⟨hin.trans hgrant.inbound, ?_, fun h => absurd h hc, fun _ => ⟨hout1, ?_, fun hgood => ?_⟩⟩
    · rw [hbnd]
      exact hphase.trans hph
    · rw [hbnd, hcredits]
      exact tget_tset_same ..
    · exact (sendOne_carries (fun u => (hbad u).trans (hgood u)) r).1

end

/-! ## TREE_DRAIN -/

theorem exec_treeDrain {s : State} {p : Packet} (hr : s.receive p = (some s, s)) : exec (.treeDrain p) s =
    if s.current p && s.bnd.phase = .arrived && !s.kernelCut then .next (s.passDown 1).drainLocal else .next s := onPacket_of hr _

/-- A package that begins to drain, the message passed on. -/
def State.draining (s : State) : State := (s.passDown 1).beginDrain

/-- The beginning of a drain: a record whose home is dead or no member goes, and nothing else of what a drain looks at changes. -/
structure DrainBegun (s d : State) : Prop where
  frame : DrainFrame s d
  phase : d.bnd.phase = .draining
  inbound : d.inbound = s.inbound
  mem : d.mem = s.mem
  credits : d.bnd.credits = s.bnd.credits
  free : d.inboundFree = s.inboundFree
  badUnit : ∀ u, d.badUnit u = s.badUnit u
  txns : d.fab.txns = s.fab.txns
  unsent : d.fab.unsent = s.fab.unsent
  outbound : d.outbound = s.outbound.filter (fun r => r.gen ≠ s.stepNum || ((r.home = s.rank || s.member r.home) && !s.deadPeer r.home))

theorem drainBegun_draining (s : State) : DrainBegun s s.draining := by
  have hmsg := MessageFrame.passDown s 1
  unfold State.draining
  generalize s.passDown 1 = a at hmsg
  exact {
    frame := ((DrainFrame.of_reports (.of_messages hmsg)).trans (.with_bnd a _)).trans (.dropDead _)
    phase := rfl
    inbound := hmsg.inbound
    mem := hmsg.mem
    credits := (congrArg Boundary.credits hmsg.bnd :)
    free := hmsg.same.field State.inboundFree fun _ => rfl
    badUnit := fun u => hmsg.same.field (fun x => x.badUnit u) fun _ => rfl
    txns := hmsg.txns
    unsent := hmsg.unsent
    outbound := hmsg.same.field (fun x : State =>
      x.outbound.filter (fun (r : Rec) => r.gen ≠ x.stepNum || ((r.home = x.rank || x.member r.home) && !x.deadPeer r.home))) fun _ => rfl }

theorem treeDrain_refused {s : State} {p : Packet} (hr : s.receive p = (some s, s)) (h : s.bnd.phase ≠ .arrived ∨ s.kernelCut = true) :
    exec (.treeDrain p) s = .next s := by
  rw [exec_treeDrain hr, if_neg]
  rcases h with h | h <;> simp [h]

section

variable {s d : State} (h : DrainBegun s d)

include h

theorem DrainBegun.rank : d.rank = s.rank := congrArg (· % 4096) (h.frame.registers 0x002 (by decide))

theorem DrainBegun.stepNum : d.stepNum = s.stepNum := h.frame.registers 0x214 (by decide)

/-- A record that is not discarded stays as it is. -/
theorem DrainBegun.outbound_kept {r : Rec} (hout : s.outbound = [r]) (hhome : r.home = s.rank ∨ s.member r.home = true)
    (hdead : s.deadPeer r.home = false) : d.outbound = [r] := by
  rw [h.outbound, hout, List.filter_cons, if_pos]
  · rfl
  · rcases hhome with e | e <;> simp [e, hdead]
    rw [← e, hdead]
    simp

/-- A record whose home is dead or no member is discarded. -/
theorem DrainBegun.outbound_dropped {r : Rec} (hout : s.outbound = [r]) (hg : r.gen = s.stepNum)
    (hgone : (r.home ≠ s.rank ∧ s.member r.home = false) ∨ s.deadPeer r.home = true) : d.outbound = [] := by
  rw [h.outbound, hout, List.filter_cons, if_neg]
  · rfl
  · rcases hgone with ⟨h1, h2⟩ | h1
    · simp [hg, h1, h2]
    · simp [hg, h1]

theorem DrainBegun.apronTakes {t : State} {rs : List Rec} (ht : ApronTakes d t 0x211 d.inbound rs) : ApronTakes s t 0x211 s.inbound rs := by
  rw [h.inbound] at ht
  refine ⟨ht.1, fun a ha => (ht.2 a fun x hx => ?_).trans (by rw [h.mem])⟩
  rw [h.frame.apronBytes]
  exact ha x hx

end

theorem treeDrain_drains {s : State} {p : Packet} (hr : s.receive p = (some s, s)) (hc : s.current p = true) (hph : s.bnd.phase = .arrived)
    (hcut : s.kernelCut = false) : ∃ t, exec (.treeDrain p) s = .next t ∧ t.tasks = s.tasks ∧
      RegistersBut [0x201, 0x202, 0x220] s t ∧ (∀ a, (∀ r ∈ t.inbound, a ∉ s.apronBytes 0x211 r) → rdByte t.mem a = rdByte s.mem a) ∧
      (s.outbound = [] → t.bnd.phase = .drained ∧ t.bnd.sentDrn = true ∧ t.inbound = s.inbound ∧ t.outbound = [] ∧ t.mem = s.mem) ∧
      ∀ r, s.outbound = [r] → r.gen = s.stepNum → r.acked = false → r.sent = false →
        (r.home = s.rank → s.deadPeer s.rank = false → recSize r.data.length ≤ s.inboundFree → (∀ u, s.badUnit u = false) →
          ∃ r', { r' with place := r.place } = r ∧ t.inbound = s.inbound ++ [r'] ∧ ApronTakes s t 0x211 s.inbound [r'] ∧ t.bnd.phase = .drained) ∧
        ((r.home ≠ s.rank ∧ s.member r.home = false) ∨ s.deadPeer r.home = true →
          t.outbound = [] ∧ t.inbound = s.inbound ∧ t.mem = s.mem ∧ t.bnd.phase = .drained) ∧
        (r.home ≠ s.rank → s.member r.home = true → s.deadPeer r.home = false → t.inbound = s.inbound ∧ t.bnd.phase = .draining ∧
          (tget 0 s.bnd.credits r.home = 0 → t.outbound = [r] ∧ t.fab.txns = s.fab.txns ∧ t.fab.unsent = s.fab.unsent) ∧
          (0 < tget 0 s.bnd.credits r.home → t.outbound = [{ r with sent := true }] ∧
            tget 0 t.bnd.credits r.home = tget 0 s.bnd.credits r.home - 1 ∧ ((∀ u, s.badUnit u = false) →
              ∃ x ∈ t.fab.txns ++ t.fab.unsent, CarriesRecord x r))) := by
  have hexec : exec (.treeDrain p) s = .next s.draining.moveOwn.grantAll.sendRecs.tryDrn :=
    (exec_treeDrain hr).trans (if_pos (by simp [hc, hph, hcut]))
  have h := drainBegun_draining s
  rw [hexec]
  generalize s.draining = d at h
  have hframe := h.frame.trans ((((DrainFrame.moveOwn d).trans (.grantAll _)).trans (.sendRecs _)).trans (.tryDrn _))
  refine ⟨_, rfl, hframe.tasks, hframe.registers, hframe.memory, fun hnone => ?_, fun r hout hg ha hs => ⟨fun hhome hdead hfit hgood => ?_,
    fun hgone => ?_, fun hhome hm hdead => ?_⟩⟩
  · obtain ⟨h1, h2, h3, h4, h5⟩ := drain_of_none (s := d) (by rw [h.outbound, hnone]; rfl) h.phase
    exact ⟨h1, h2, h3.trans h.inbound, h4, h5.trans h.mem⟩
  · obtain ⟨r', hr', hin, hapron, hdone⟩ := drain_of_own (h.outbound_kept hout (.inl hhome) (hhome ▸ hdead)) (hg.trans h.stepNum.symm) ha h.phase
      (hhome.trans h.rank.symm) (hfit.trans_eq h.free.symm) fun u => (h.badUnit u).trans (hgood u)
    rw [h.inbound] at hin
    exact ⟨r', hr', hin, h.apronTakes hapron, hdone⟩
  · obtain ⟨h1, -, h3, h4, h5⟩ := drain_of_none (s := d) (h.outbound_dropped hout hg hgone) h.phase
    exact ⟨h4, h3.trans h.inbound, h5.trans h.mem, h1⟩
  · obtain ⟨h1, h2, h3, h4⟩ := drain_of_other (h.outbound_kept hout (.inr hm) hdead) (hg.trans h.stepNum.symm) ha h.phase
      (fun e => hhome (e.trans h.rank)) hs
    rw [h.credits] at h3 h4
    refine ⟨h1.trans h.inbound, h2, fun hz => ?_, fun hpos => ?_⟩
    · obtain ⟨i1, i2, i3⟩ := h3 hz
      exact ⟨i1, i2.trans h.txns, i3.trans h.unsent⟩
    · obtain ⟨i1, i2, i3⟩ := h4 hpos
      exact ⟨i1, i2, fun hgood => i3 fun u => (h.badUnit u).trans (hgood u)⟩

end Sys2Proof.Machine
end

section
/-! TREE_REL and the watchdog (O57; R121, R134, R135, R141, R348). -/

namespace Sys2Proof.Machine

/-! ## TREE_REL -/

theorem exec_treeRel {s : State} {p : Packet} (hr : s.receive p = (some s, s)) : exec (.treeRel p) s =
    if s.current p && s.bnd.phase = .committed then .next (s.passDown 5).releaseLocal else .next s := onPacket_of hr _

/-- The loads of a kerf ask their homes. -/
theorem OnlyFabric.askKerfLoads (s : State) : OnlyFabric s s.askKerfLoads := by
  refine foldl (fun a e => foldl (fun b x => ?_) _ a) _ s
  split
  · refine ite ?_ (refl b)
    rw [requestBytes_eq]
    exact foldl_askHome_onlyFabric _ _ b
  · exact refl b

theorem tfind_map {α β : Type} (f : α → β) (t : Tbl α) (i : Nat) : tfind (t.map (fun e => (e.1, f e.2))) i = (tfind t i).map f := by
  induction t with
  | nil => rfl
  | cons e t ih =>
    obtain ⟨k, v⟩ := e
    rw [List.map_cons, tfind, tfind, ih]
    split <;> rfl

/-- The package past a boundary: the step's records forgotten, every arrival ended. -/
def State.released (s : State) (n : Nat) : State :=
  { s with outbound := s.outbound.filter (fun (r : Rec) => r.gen ≠ n), inbound := s.inbound.filter (fun (r : Rec) => r.gen ≠ n),
           tasks := s.tasks.map (fun (e : Nat × Task) => (e.1, e.2.release)), bnd := Boundary.idle, disp := { s.disp with stepFreed := [] } }

theorem releaseLocal_eq {s : State} (h : s.disp.quiesce ≠ .waitKernel) : s.releaseLocal =
    (((s.setPreg 0x214 ((s.stepNum + 1) % 2 ^ 64)).askKerfLoads).released s.stepNum).tryArr := by
  have hq : (((s.setPreg 0x214 ((s.stepNum + 1) % 2 ^ 64)).askKerfLoads).released s.stepNum).disp.quiesce ≠ .waitKernel := by
    have hd := (OnlyFabric.askKerfLoads (s.setPreg 0x214 ((s.stepNum + 1) % 2 ^ 64))).field (fun x => x.disp.quiesce) fun _ => rfl
    exact fun e => h (hd.symm.trans e)
  exact congrArg State.tryArr (if_neg hq)

/-- What the release leaves of a task (R134, R135, R348). -/
theorem release_task (u : Task) : u.release.arrived = false ∧ u.release.counted = true ∧
    (u.run.saved = false ∨ u.inStepWait = false → { u.release with arrived := u.arrived, counted := u.counted } = u) ∧
    (u.run.saved = true → u.inStepWait = true → u.release.hart = u.hart.advance 8 ∧ u.release.inStepWait = false) := by
  by_cases h : (u.inStepWait && u.run.saved) = true
  · have hrel : u.release = { u with arrived := false, counted := true, inStepWait := false, stepOwed := false, hart := u.hart.advance 8 } := if_pos h
    obtain ⟨hw, hs⟩ := (Bool.and_eq_true _ _).mp h
    rw [hrel]
    exact ⟨rfl, rfl, fun hor => by simp [hw, hs] at hor, fun _ _ => ⟨rfl, rfl⟩⟩
  · have hrel : u.release = { u with arrived := false, counted := true } := if_neg h
    rw [hrel]
    exact ⟨rfl, rfl, fun _ => rfl, fun hs hw => absurd (by rw [hs, hw]; rfl) h⟩

theorem treeRel_releases {s : State} {p : Packet} (hr : s.receive p = (some s, s)) (hc : s.current p = true) (hph : s.bnd.phase = .committed)
    (hq : s.disp.quiesce ≠ .waitKernel) :
    ∃ t, exec (.treeRel p) s = .next t ∧ t.preg 0x214 = (s.stepNum + 1) % 2 ^ 64 ∧ RegistersBut [0x214] s t ∧ SameMemory s t ∧
      (∀ r, r ∈ t.inbound ↔ r ∈ s.inbound ∧ r.gen ≠ s.stepNum) ∧ (∀ r, r ∈ t.outbound ↔ r ∈ s.outbound ∧ r.gen ≠ s.stepNum) ∧
      ∀ k u, s.task? k = some u → ∃ u', t.task? k = some u' ∧ u'.arrived = false ∧ u'.counted = true ∧
        (u.run.saved = false ∨ u.inStepWait = false → { u' with arrived := u.arrived, counted := u.counted } = u) ∧
        (u.run.saved = true → u.inStepWait = true → u'.hart = u.hart.advance 8 ∧ u'.inStepWait = false) := by
  have hmsg := MessageFrame.passDown s 5
  have hexec : exec (.treeRel p) s = .next (s.passDown 5).releaseLocal := (exec_treeRel hr).trans (if_pos (by simp [hc, hph]))
  rw [hexec]
  generalize s.passDown 5 = a at hmsg
  have hstep : a.stepNum = s.stepNum := hmsg.same.field State.stepNum fun _ => rfl
  rw [releaseLocal_eq (by rw [hmsg.disp]; exact hq), hstep]
  have hask := OnlyFabric.askKerfLoads (a.setPreg 0x214 ((s.stepNum + 1) % 2 ^ 64))
  generalize (a.setPreg 0x214 ((s.stepNum + 1) % 2 ^ 64)).askKerfLoads = b at hask
  have hrep := SameButReports.tryArr (b.released s.stepNum)
  have hpreg : ∀ n, (b.released s.stepNum).tryArr.preg n = (a.setPreg 0x214 ((s.stepNum + 1) % 2 ^ 64)).preg n := fun n => by
    rw [State.preg, hrep.pregs]
    exact hask.field (fun x => x.preg n) fun _ => rfl
  refine ⟨_, rfl, ?_, fun n hn => ?_, ⟨fun x => ?_, fun x => ?_⟩, fun r => ?_, fun r => ?_, fun k u hu => ⟨u.release, ?_, release_task u⟩⟩
  · rw [hpreg, preg_setPreg_same, Nat.mod_mod]
  · rw [hpreg, preg_setPreg_other _ _ (by simpa using hn), State.preg, hmsg.pregs]
    rfl
  · rw [hrep.mem, ← hmsg.mem]
    exact hask.field (fun y => rdByte y.mem x) fun _ => rfl
  · rw [hrep.hmem, ← hmsg.hmem]
    exact hask.field (fun y => rdByte y.hmem x) fun _ => rfl
  · rw [hrep.inbound, ← hmsg.inbound, ← hask.inbound.trans (State.setPreg_inbound ..)]
    exact List.mem_filter.trans (and_congr Iff.rfl decide_eq_true_iff)
  · rw [hrep.outbound, ← hmsg.outbound, ← hask.outbound.trans (State.setPreg_outbound ..)]
    exact List.mem_filter.trans (and_congr Iff.rfl decide_eq_true_iff)
  · have htasks : b.tasks = s.tasks := hask.tasks.trans hmsg.tasks
    rw [State.task?, hrep.tasks]
    refine (tfind_map Task.release b.tasks k).trans ?_
    rw [htasks, show tfind s.tasks k = some u from hu]
    rfl

/-! ## The watchdog -/

/-- A bitmap given bit by bit. -/
theorem testBit_foldl_pow (c : Nat → Bool) (n : Nat) : (List.range n).foldl (fun a b => if c b then a + 2 ^ b else a) 0 < 2 ^ n ∧
    ∀ i, ((List.range n).foldl (fun a b => if c b then a + 2 ^ b else a) 0).testBit i = (decide (i < n) && c i) := by
  induction n with
  | zero => simp
  | succ n ih =>
    rw [List.range_succ, List.foldl_append, List.foldl_cons, List.foldl_nil]
    generalize (List.range n).foldl (fun a b => if c b then a + 2 ^ b else a) 0 = v at ih
    obtain ⟨hlt, hbits⟩ := ih
    cases hc : c n with
    | false =>
      rw [if_neg Bool.false_ne_true]
      refine ⟨lt_of_lt_of_le hlt (Nat.pow_le_pow_right (by decide) (Nat.le_succ n)), fun i => ?_⟩
      rw [hbits]
      rcases Nat.lt_trichotomy i n with h | rfl | h
      · simp [h, Nat.lt_succ_of_lt h]
      · simp [hc]
      · simp [Nat.not_lt.2 h.le, Nat.not_lt.2 h]
    | true =>
      rw [if_pos rfl]
      refine ⟨by rw [Nat.pow_succ]; omega, fun i => ?_⟩
      rw [Nat.add_comm]
      rcases Nat.lt_trichotomy i n with h | rfl | h
      · rw [Nat.testBit_two_pow_add_gt h, hbits]
        simp [h, Nat.lt_succ_of_lt h]
      · rw [Nat.testBit_two_pow_add_eq, hbits]
        simp [hc]
      · rw [Nat.testBit_lt_two_pow]
        · simp [Nat.not_lt.2 h]
        · calc 2 ^ n + v < 2 ^ n + 2 ^ n := by omega
            _ = 2 ^ (n + 1) := by rw [Nat.pow_succ]; omega
            _ ≤ 2 ^ i := Nat.pow_le_pow_right (by decide) h

/-- The bytes of the bitmap of the members that have not reported a phase. -/
def State.laggards (s : State) (msg : Nat) : List Byte :=
  (List.range 512).map (fun i => BitVec.ofNat 8 ((List.range 8).foldl (fun a b =>
    if s.member (8 * i + b) && !s.reported msg (8 * i + b) then a + 2 ^ b else a) 0))

theorem getLsbD_laggards (s : State) (msg : Nat) {r : Nat} (h : r < 4096) :
    ((s.laggards msg).getD (r / 8) 0).getLsbD (r % 8) = (s.member r && !s.reported msg r) := by
  have hb : r % 8 < 8 := Nat.mod_lt _ (by decide)
  have hget : (s.laggards msg)[r / 8]? = some (BitVec.ofNat 8 ((List.range 8).foldl (fun a b =>
      if s.member (8 * (r / 8) + b) && !s.reported msg (8 * (r / 8) + b) then a + 2 ^ b else a) 0)) := by
    rw [State.laggards, List.getElem?_map, List.getElem?_range (by omega)]
    rfl
  rw [List.getD_eq_getElem?_getD, hget, Option.getD_some, BitVec.getLsbD_ofNat, (testBit_foldl_pow _ 8).2, decide_eq_true hb, Bool.true_and,
    Bool.true_and, Nat.div_add_mod]

/-- A byte among bytes written. -/
theorem rdByte_wrBytes_at (m : List Host.Cell) (a : Nat) (bs : List Byte) {i : Nat} (h : i < bs.length) :
    rdByte (wrBytes m (addrs a bs.length) bs) (a + i) = bs.getD i 0 := by
  have hall := congrArg (fun l : List Byte => l[i]?) (rdBytes_wrBytes m a bs)
  simp only [rdBytes, addrs, List.getElem?_map, List.getElem?_range h, Option.map_some] at hall
  rw [List.getD_eq_getElem?_getD, ← hall]
  rfl

theorem watchdogOn_iff (s : State) : s.watchdogOn = true ↔ s.bnd.watchdog = true ∨ ∃ e ∈ s.tasks, e.2.stepm = true ∧ e.2.arrived = true := by
  simp only [State.watchdogOn, Bool.or_eq_true, List.any_eq_true, Bool.and_eq_true]

theorem exec_watchdog (s : State) : exec .stepWatchdogExpiry s =
    if !s.isRoot || !s.watchdogOn || bits (s.preg 0x212) 51 32 = 0 then .next s
    else match s.pendingPhase with
      | none => .next s
      | some (ph, msg) => match s.putPhys (s.preg 0x213) (s.laggards msg) with
        | .error r => .fault r
        | .ok s1 => .next (s1.post 0x0011 0 0xFFFF [(0x18, ph), (0x20, s.preg 0x213)]) := rfl

theorem watchdog_reports {s : State} {ph msg la : Nat} (hroot : s.isRoot = true)
    (hon : s.bnd.watchdog = true ∨ ∃ e ∈ s.tasks, e.2.stepm = true ∧ e.2.arrived = true) (hlim : bits (s.preg 0x212) 51 32 ≠ 0)
    (hphase : s.pendingPhase = some (ph, msg)) (hla : s.rank * 2 ^ 40 + la = s.preg 0x213) (hmem : la + 512 ≤ memLimit)
    (hecc : ∀ u, tget 0 s.ms.ecc u ≠ 2) :
    ∃ t, exec .stepWatchdogExpiry s = .next t ∧ t.tasks = s.tasks ∧ t.bnd = s.bnd ∧
      (∀ r, r < 4096 → (rdByte t.mem (la + r / 8)).getLsbD (r % 8) = (s.member r && !s.reported msg r)) ∧
      (∀ a, a < la ∨ la + 512 ≤ a → rdByte t.mem a = rdByte s.mem a) ∧
      Posted s t 0x0011 0 0xFFFF [(0x18, ph), (0x20, s.preg 0x213)] := by
  have hlen : (s.laggards msg).length = 512 := by rw [State.laggards, List.length_map, List.length_range]
  have hgood : ∀ u, s.badUnit u = false := fun u => badUnit_eq_false_iff.2 (.inr (hecc u))
  have hput : s.putPhys (s.preg 0x213) (s.laggards msg) = .ok (s.putLocal la (s.laggards msg)) := by
    rw [State.putPhys, hlen, localOf_of hla hmem]
  have hexec : exec .stepWatchdogExpiry s = .next ((s.putLocal la (s.laggards msg)).post 0x0011 0 0xFFFF [(0x18, ph), (0x20, s.preg 0x213)]) := by
    rw [exec_watchdog, if_neg (by simp [hroot, (watchdogOn_iff s).2 hon, hlim]), hphase]
    dsimp only
    rw [hput]
  have hframe := GoodFrame.writeLocal hgood 3 0xFFFF 0xFF 0 (addrs la (s.laggards msg).length) (s.laggards msg)
  have hbytes := (writeLocal_good hgood 3 0xFFFF 0xFF 0 (addrs la (s.laggards msg).length) (s.laggards msg)).2
  have hpost := posted_post (s.putLocal la (s.laggards msg)) 0x0011 0 0xFFFF [(0x18, ph), (0x20, s.preg 0x213)]
  have hunit := UnitFrame.post (s.putLocal la (s.laggards msg)) 0x0011 0 0xFFFF [(0x18, ph), (0x20, s.preg 0x213)]
  have hpmem := (GrantFrame.post (s.putLocal la (s.laggards msg)) 0x0011 0 0xFFFF [(0x18, ph), (0x20, s.preg 0x213)]).mem
  refine ⟨_, hexec, hunit.tasks.trans hframe.tasks, hunit.bnd.trans hframe.bnd, fun r hr => ?_, fun a ha => ?_,
    hpost.of_before hframe.registers (congrArg (·.evSeq) hframe.host) hframe.hmem⟩
  · rw [hpmem, State.putLocal, hbytes, rdByte_wrBytes_at _ _ _ (by omega), getLsbD_laggards s msg hr]
  · rw [hpmem, State.putLocal, hbytes, rdByte_wrBytes_other]
    rw [mem_addrs]
    omega

theorem watchdog_silent {s : State} (h : s.isRoot = false ∨ (s.bnd.watchdog = false ∧ ∀ e ∈ s.tasks, e.2.stepm = false ∨ e.2.arrived = false) ∨
    bits (s.preg 0x212) 51 32 = 0) : exec .stepWatchdogExpiry s = .next s := by
  rw [exec_watchdog, if_pos]
  rcases h with h | ⟨h1, h2⟩ | h
  · simp [h]
  · have hoff : s.watchdogOn = false := by
      rw [← Bool.not_eq_true, watchdogOn_iff]
      rintro (h | ⟨e, he, hm, ha⟩)
      · simp [h1] at h
      · rcases h2 e he with h | h
        · simp [h] at hm
        · simp [h] at ha
    simp [hoff]
  · simp [h]

end Sys2Proof.Machine
end

section
/-! SUPPORT. The commit of one record, by the class of its page (R130, R132, R133, R143), and the order of a commit (R128). -/

namespace Sys2Proof.Machine

/-! ## Key order -/

theorem insertRec_eq (r : Rec) (l : List Rec) : insertRec r l = l.orderedInsert (fun a b => a.key.toNat ≤ b.key.toNat) r := by
  induction l with
  | nil => rfl
  | cons x l ih => rw [insertRec, List.orderedInsert, ih]

theorem sortRecs_eq (l : List Rec) : sortRecs l = l.insertionSort (fun a b => a.key.toNat ≤ b.key.toNat) := by
  induction l with
  | nil => rfl
  | cons x l ih => rw [sortRecs, List.foldr_cons, ← sortRecs, ih, insertRec_eq, List.insertionSort_cons]

theorem perm_sortRecs (l : List Rec) : (sortRecs l).Perm l := by
  rw [sortRecs_eq]
  exact List.perm_insertionSort _ l

/-- Of records with different keys each comes before those of higher keys. -/
theorem pairwise_sortRecs {l : List Rec} (h : (l.map (·.key)).Nodup) : (sortRecs l).Pairwise (fun x y => x.key.toNat < y.key.toNat) := by
  have hle : (sortRecs l).Pairwise (fun a b => a.key.toNat ≤ b.key.toNat) := by
    rw [sortRecs_eq]
    exact List.pairwise_insertionSort _ l
  have hne : (sortRecs l).Pairwise (fun a b => a.key ≠ b.key) := by
    rw [← List.pairwise_map (f := fun r : Rec => r.key) (R := fun a b => a ≠ b)]
    exact ((perm_sortRecs l).map _).nodup_iff.2 h
  exact (hle.and hne).imp fun h => lt_of_le_of_ne h.1 fun e => h.2 (BitVec.eq_of_toNat_eq e)

/-- Key order is the only one. -/
theorem sortRecs_eq_of_perm {l m : List Rec} (hp : l.Perm m) (hs : l.Pairwise (fun x y => x.key.toNat < y.key.toNat))
    (hm : (m.map (·.key)).Nodup) : sortRecs m = l :=
  List.Perm.eq_of_pairwise (fun _ _ _ _ h1 h2 => absurd h1 (Nat.lt_asymm h2)) (pairwise_sortRecs hm) hs ((perm_sortRecs m).trans hp.symm)

/-! ## One record -/

/-- The package with the record's place in the apron read. -/
def State.readRecord (s : State) (r : Rec) : State := (s.readLocal (s.apronBytes 0x211 r)).1

/-- The bytes of a record with their addresses. -/
def Rec.writes (r : Rec) : List (Nat × Byte) := (addrs r.addr r.data.length).zip r.data

theorem Rec.writes_fst (r : Rec) : r.writes.map (·.1) = addrs r.addr r.data.length := List.map_fst_zip (length_addrs ..).le

theorem Rec.writes_snd (r : Rec) : r.writes.map (·.2) = r.data := List.map_snd_zip (length_addrs ..).ge

/-- What a record of a page's kind writes of its bytes. -/
def Rec.written (r : Rec) (k : PageKind) (acc : CommitAcc) : List (Nat × Byte) := if k.cls = 0 then exclWrites acc.stays r.key r.writes else r.writes

/-- The unit that stops a record: of its place in the apron, or of the bytes it is merged into. -/
def State.stopsRecord (s : State) (r : Rec) (k : PageKind) (acc : CommitAcc) : Option Nat :=
  ((unitsOf (s.apronBytes 0x211 r)).find? s.badUnit).orElse (fun _ => (unitsOf ((r.written k acc).map (·.1))).find?
    (fun u => s.badUnit u && (2 ≤ k.cls || !coversUnit ((r.written k acc).map (·.1)) u)))

theorem commitRec_eq {kindOf : Nat → PageKind} {s : State} {acc : CommitAcc} {r : Rec} (hb : acc.bad = none) : commitRec kindOf (s, acc) r =
    match s.stopsRecord r (kindOf r.addr) acc with
    | some u => (s, { acc with bad := some (64 * u) })
    | none =>
      if 2 ≤ (kindOf r.addr).cls then ((s.readRecord r).mergeRec (kindOf r.addr) r, acc)
      else ((s.readRecord r).writeLocal 3 0xFFFF 0xFF 0 ((r.written (kindOf r.addr) acc).map (·.1)) ((r.written (kindOf r.addr) acc).map (·.2)),
        if (kindOf r.addr).cls = 0 then exclFound acc r.key r.writes else acc) := by
  refine if_neg ?_
  simp [hb]

theorem stopsRecord_of_good {s : State} (h : ∀ u, s.badUnit u = false) (r : Rec) (k : PageKind) (acc : CommitAcc) : s.stopsRecord r k acc = none := by
  have h1 : (unitsOf (s.apronBytes 0x211 r)).find? s.badUnit = none := List.find?_eq_none.2 fun u _ => by simp [h]
  have h2 : (unitsOf ((r.written k acc).map (·.1))).find? (fun u => s.badUnit u && (2 ≤ k.cls || !coversUnit ((r.written k acc).map (·.1)) u)) = none :=
    List.find?_eq_none.2 fun u _ => by simp [h]
  rw [State.stopsRecord, h1, h2]
  rfl

section

variable {kindOf : Nat → PageKind} {s : State} {acc : CommitAcc} {r : Rec} (hb : acc.bad = none) (hgood : ∀ u, s.badUnit u = false)

include hb hgood

/-- A LAST record (R130). -/
theorem commitRec_last (hk : (kindOf r.addr).cls = 1) : commitRec kindOf (s, acc) r =
    ((s.readRecord r).writeLocal 3 0xFFFF 0xFF 0 (addrs r.addr r.data.length) r.data, acc) := by
  rw [commitRec_eq hb, stopsRecord_of_good hgood, Rec.written, hk]
  dsimp only
  rw [if_neg (by decide), if_neg (by decide), if_neg (by decide), r.writes_fst, r.writes_snd]

/-- A record of a merge class. -/
theorem commitRec_merge (hk : 2 ≤ (kindOf r.addr).cls) : commitRec kindOf (s, acc) r = ((s.readRecord r).mergeRec (kindOf r.addr) r, acc) := by
  rw [commitRec_eq hb, stopsRecord_of_good hgood]
  exact if_pos hk

/-- An EXCL record. -/
theorem commitRec_excl (hk : (kindOf r.addr).cls = 0) : commitRec kindOf (s, acc) r =
    ((s.readRecord r).writeLocal 3 0xFFFF 0xFF 0 ((exclWrites acc.stays r.key r.writes).map (·.1)) ((exclWrites acc.stays r.key r.writes).map (·.2)),
      exclFound acc r.key r.writes) := by
  rw [commitRec_eq hb, stopsRecord_of_good hgood, Rec.written, hk]
  rfl

end

theorem GoodFrame.readRecord {s : State} (h : ∀ u, s.badUnit u = false) (r : Rec) : GoodFrame s (s.readRecord r) ∧ (s.readRecord r).mem = s.mem :=
  ⟨.readLocal h _, (readLocal_frames s _).1⟩

/-- Bytes written after the record is read. -/
theorem GoodFrame.writeRecord {s : State} (h : ∀ u, s.badUnit u = false) (r : Rec) (las : List Nat) (bs : List Byte) :
    GoodFrame s ((s.readRecord r).writeLocal 3 0xFFFF 0xFF 0 las bs) ∧
      ∀ a, rdByte ((s.readRecord r).writeLocal 3 0xFFFF 0xFF 0 las bs).mem a = rdByte (wrBytes s.mem las bs) a := by
  obtain ⟨hread, hmem⟩ := readRecord h r
  refine ⟨hread.trans (.writeLocal hread.good _ _ _ _ _ _), fun a => ?_⟩
  rw [(writeLocal_good hread.good 3 0xFFFF 0xFF 0 las bs).2, hmem]

/-! ## LAST -/

/-- Does a record write a byte? -/
def Rec.covers (r : Rec) (a : Nat) : Prop := r.addr ≤ a ∧ a < r.addr + r.data.length

/-- What LAST records in key order leave: on each byte the data of the record of the highest key. -/
theorem foldl_commitRec_last {kindOf : Nat → PageKind} {l : List Rec} (hl : ∀ r ∈ l, (kindOf r.addr).cls = 1) {s : State} {acc : CommitAcc}
    (hb : acc.bad = none) (hgood : ∀ u, s.badUnit u = false) : GoodFrame s (l.foldl (commitRec kindOf) (s, acc)).1 ∧
      (l.foldl (commitRec kindOf) (s, acc)).2 = acc ∧
      ∀ a, ((∀ r ∈ l, ¬r.covers a) → rdByte (l.foldl (commitRec kindOf) (s, acc)).1.mem a = rdByte s.mem a) ∧
        (l.Pairwise (fun x y => x.key.toNat < y.key.toNat) → ∀ r ∈ l, r.covers a → (∀ x ∈ l, x.covers a → x.key.toNat ≤ r.key.toNat) →
          rdByte (l.foldl (commitRec kindOf) (s, acc)).1.mem a = r.data.getD (a - r.addr) 0) := by
  induction l generalizing s with
  | nil => exact ⟨.refl hgood, rfl, fun a => ⟨fun _ => rfl, fun _ r hr => absurd hr (List.not_mem_nil)⟩⟩
  | cons x l ih =>
    rw [List.forall_mem_cons] at hl
    obtain ⟨hframe, hbytes⟩ := GoodFrame.writeRecord hgood x (addrs x.addr x.data.length) x.data
    rw [List.foldl_cons, commitRec_last hb hgood hl.1]
    generalize (s.readRecord x).writeLocal 3 0xFFFF 0xFF 0 (addrs x.addr x.data.length) x.data = s1 at *
    obtain ⟨i1, i2, i3⟩ := ih hl.2 hframe.good
    refine ⟨hframe.trans i1, i2, fun a => ⟨fun hno => ?_, fun hs r hr hcov hmax => ?_⟩⟩
    · rw [List.forall_mem_cons] at hno
      rw [(i3 a).1 hno.2, hbytes, rdByte_wrBytes_other]
      rw [mem_addrs]
      exact hno.1
    · obtain ⟨hx, hs⟩ := List.pairwise_cons.1 hs
      rw [List.forall_mem_cons] at hmax
      rcases List.mem_cons.1 hr with rfl | hr
      · rw [(i3 a).1 fun y hy hc => absurd (hmax.2 y hy hc) (Nat.not_le.2 (hx y hy)), hbytes]
        have hat := rdByte_wrBytes_at s.mem r.addr r.data (i := a - r.addr) (by have := hcov.1; have := hcov.2; omega)
        rwa [Nat.add_sub_of_le hcov.1] at hat
      · exact (i3 a).2 hs r hr hcov hmax.2

/-! ## Merge classes -/

/-- A unit of a record's page, merged (R132). -/
def State.mergedUnit (s : State) (k : PageKind) (r : Rec) : State :=
  State.putLocal (s.readLocal (addrs r.addr (2 ^ k.mw))).1 r.addr
    (leBytes (2 ^ k.mw) (mergeVal k.cls k.mw (rdNat (s.readLocal (addrs r.addr (2 ^ k.mw))).1.mem r.addr (2 ^ k.mw)) (leNat r.data)))

/-- A record of one unit. -/
theorem mergeRec_unit {s : State} {k : PageKind} {r : Rec} (h : r.data.length = 2 ^ k.mw) : s.mergeRec k r = s.mergedUnit k r := by
  unfold State.mergeRec
  dsimp only
  rw [h, Nat.div_self (Nat.two_pow_pos _), List.range_one, List.foldl_cons, List.foldl_nil, Nat.zero_mul, Nat.add_zero, List.drop_zero,
    List.take_of_length_le h.le]
  rfl

theorem mergedUnit_good {s : State} (h : ∀ u, s.badUnit u = false) (k : PageKind) (r : Rec) : GoodFrame s (s.mergedUnit k r) ∧
    rdNat (s.mergedUnit k r).mem r.addr (2 ^ k.mw) = mergeVal k.cls k.mw (rdNat s.mem r.addr (2 ^ k.mw)) (leNat r.data) % 2 ^ (8 * 2 ^ k.mw) ∧
    ∀ a, a < r.addr ∨ r.addr + 2 ^ k.mw ≤ a → rdByte (s.mergedUnit k r).mem a = rdByte s.mem a := by
  have hread := GoodFrame.readLocal h (addrs r.addr (2 ^ k.mw))
  have hmem := (readLocal_frames s (addrs r.addr (2 ^ k.mw))).1
  unfold State.mergedUnit State.putLocal
  rw [hmem, length_leBytes]
  generalize mergeVal k.cls k.mw (rdNat s.mem r.addr (2 ^ k.mw)) (leNat r.data) = v
  generalize (s.readLocal (addrs r.addr (2 ^ k.mw))).1 = b at *
  have hbytes := (writeLocal_good hread.good 3 0xFFFF 0xFF 0 (addrs r.addr (2 ^ k.mw)) (leBytes (2 ^ k.mw) v)).2
  rw [hmem] at hbytes
  exact ⟨hread.trans (.writeLocal hread.good _ _ _ _ _ _), (rdNat_congr hbytes _ _).trans (rdNat_wrNat ..), fun a ha =>
    (hbytes a).trans (rdByte_wrNat_other s.mem r.addr (2 ^ k.mw) v a ha)⟩

/-- What records of one unit of a merge class leave: the value that was there, combined with each in turn. -/
theorem foldl_commitRec_merge {kindOf : Nat → PageKind} {k : PageKind} {la : Nat} (hk : kindOf la = k) (hcls : 2 ≤ k.cls) {l : List Rec}
    (hl : ∀ r ∈ l, r.addr = la ∧ r.data.length = 2 ^ k.mw) {s : State} {acc : CommitAcc} (hb : acc.bad = none) (hgood : ∀ u, s.badUnit u = false) :
    GoodFrame s (l.foldl (commitRec kindOf) (s, acc)).1 ∧ (l.foldl (commitRec kindOf) (s, acc)).2 = acc ∧
      rdNat (l.foldl (commitRec kindOf) (s, acc)).1.mem la (2 ^ k.mw) =
        l.foldl (fun v r => mergeVal k.cls k.mw v (leNat r.data) % 2 ^ (8 * 2 ^ k.mw)) (rdNat s.mem la (2 ^ k.mw)) ∧
      ∀ a, a < la ∨ la + 2 ^ k.mw ≤ a → rdByte (l.foldl (commitRec kindOf) (s, acc)).1.mem a = rdByte s.mem a := by
  induction l generalizing s with
  | nil => exact ⟨.refl hgood, rfl, rfl, fun _ _ => rfl⟩
  | cons x l ih =>
    rw [List.forall_mem_cons] at hl
    obtain ⟨⟨haddr, hlen⟩, hl⟩ := hl
    obtain ⟨hread, hmem⟩ := GoodFrame.readRecord hgood x
    obtain ⟨hframe, hval, hother⟩ := mergedUnit_good hread.good k x
    rw [hmem, haddr] at hval hother
    rw [List.foldl_cons, commitRec_merge hb hgood (by rw [haddr, hk]; exact hcls), haddr, hk, mergeRec_unit hlen, List.foldl_cons]
    generalize (s.readRecord x).mergedUnit k x = s1 at *
    obtain ⟨i1, i2, i3, i4⟩ := ih hl hframe.good
    exact ⟨(hread.trans hframe).trans i1, i2, by rw [i3, hval], fun a ha => (i4 a ha).trans (hother a ha)⟩

/-! ## EXCL -/

section

variable {key : Word} {ws : List (Nat × Byte)} {acc : CommitAcc}

/-- Where only the same source has written, a record stays on its bytes and finds no conflict (R133). -/
theorem exclFound_of_own (h : ∀ x ∈ ws, ∀ k0, tfind acc.stays x.1 = some k0 → srcOf k0 = srcOf key) :
    (exclFound acc key ws).conflicts = acc.conflicts ∧ (exclFound acc key ws).bad = acc.bad ∧
      ∀ a, tfind (exclFound acc key ws).stays a = if a ∈ ws.map (·.1) then some key else tfind acc.stays a := by
  induction ws generalizing acc with
  | nil => exact ⟨rfl, rfl, fun a => by simp [exclFound]⟩
  | cons w ws ih =>
    rw [List.forall_mem_cons] at h
    have hstep : exclFound acc key (w :: ws) = exclFound { acc with stays := tput acc.stays w.1 key } key ws := by
      unfold exclFound
      rw [List.foldl_cons]
      cases hf : tfind acc.stays w.1 with
      | none => rfl
      | some k0 =>
        dsimp only
        rw [if_pos (h.1 k0 hf)]
    have hput : ∀ a, tfind (tput acc.stays w.1 key) a = if a = w.1 then some key else tfind acc.stays a := fun a => by
      split
      · next e => rw [e, tfind_tput_same]
      · next e => rw [tfind_tput_other _ _ e]
    rw [hstep]
    obtain ⟨i1, i2, i3⟩ := ih (acc := { acc with stays := tput acc.stays w.1 key }) fun x hx k0 hk => by
      rw [hput] at hk
      split at hk
      · cases hk
        rfl
      · exact h.2 x hx k0 hk
    refine ⟨i1, i2, fun a => ?_⟩
    rw [i3, hput]
    by_cases h1 : a ∈ ws.map (·.1)
    · simp [h1]
    · by_cases h2 : a = w.1
      · simp [h2]
      · rw [if_neg h1, if_neg h2, if_neg (by simpa [h2] using h1)]

/-- A record writes none of the bytes that another source has written. -/
theorem exclWrites_of_other (h : ∀ x ∈ ws, ∃ k0, tfind acc.stays x.1 = some k0 ∧ srcOf k0 ≠ srcOf key) : exclWrites acc.stays key ws = [] := by
  refine List.filter_eq_nil_iff.2 fun x hx => ?_
  obtain ⟨k0, hf, hne⟩ := h x hx
  rw [hf]
  simp [hne]

/-- A record writes all of its bytes where no other source has written. -/
theorem exclWrites_of_none (h : acc.stays = []) : exclWrites acc.stays key ws = ws := by
  rw [h]
  exact List.filter_eq_self.2 fun x _ => rfl

end

/-- A table goes on at its end. -/
theorem tput_of_lt {t : Tbl Word} {i : Nat} (h : ∀ e ∈ t, e.1 < i) (x : Word) : tfind t i = none ∧ tput t i x = t ++ [(i, x)] := by
  have hdel : tdel t i = t := by
    rw [tdel_eq_filter]
    exact List.filter_eq_self.2 fun e he => by simpa using (h e he).ne
  have hins : ∀ l : Tbl Word, (∀ e ∈ l, e.1 < i) → tfind l i = none ∧ tins l i x = l ++ [(i, x)] := by
    intro l
    induction l with
    | nil => exact fun _ => ⟨rfl, rfl⟩
    | cons e l ih =>
      intro hl
      rw [List.forall_mem_cons] at hl
      obtain ⟨h1, h2⟩ := ih hl.2
      rw [tfind, tins, if_neg hl.1.ne, if_neg (Nat.lt_asymm hl.1), h1, h2]
      exact ⟨rfl, rfl⟩
  rw [tput, hdel]
  exact hins t h

/-- Where another source has written every byte, a record is in conflict on each of them. -/
theorem exclFound_of_other {key : Word} (bs : List Byte) {a : Nat} {acc : CommitAcc} (hc : ∀ e ∈ acc.conflicts, e.1 < a)
    (h : ∀ x ∈ addrs a bs.length, ∃ k0, tfind acc.stays x = some k0 ∧ srcOf k0 ≠ srcOf key) :
    exclFound acc key ((addrs a bs.length).zip bs) = { acc with conflicts := acc.conflicts ++ (addrs a bs.length).map (fun x => (x, key)) } := by
  induction bs generalizing a acc with
  | nil => simp [exclFound, addrs]
  | cons b bs ih =>
    rw [List.length_cons, addrs_succ, List.forall_mem_cons] at h
    obtain ⟨⟨k0, hf, hne⟩, hrest⟩ := h
    obtain ⟨hnone, hput⟩ := tput_of_lt hc key
    rw [List.length_cons, addrs_succ, List.zip_cons_cons]
    have hstep : exclFound acc key ((a, b) :: (addrs (a + 1) bs.length).zip bs) =
        exclFound { acc with conflicts := acc.conflicts ++ [(a, key)] } key ((addrs (a + 1) bs.length).zip bs) := by
      unfold exclFound
      rw [List.foldl_cons]
      dsimp only
      rw [hf]
      dsimp only
      rw [if_neg hne, hnone, hput]
      rfl
    rw [hstep, ih]
    · rw [List.append_assoc]
      rfl
    · intro e he
      rcases List.mem_append.1 he with he | he
      · exact Nat.lt_succ_of_lt (hc e he)
      · rw [List.mem_singleton.1 he]
        exact Nat.lt_succ_self a
    · exact hrest

/-- Conflicts on bytes of one page are one conflict, on the lowest (R133). -/
theorem pageConflicts_one {base : Nat → Nat} {a n : Nat} {key : Word} (hn : n ≠ 0) (h : ∀ x ∈ addrs a n, base x = base a) :
    pageConflicts base ((addrs a n).map (fun x => (x, key))) none = [(a, key)] := by
  have hsome : ∀ l : List Nat, (∀ x ∈ l, base x = base a) → pageConflicts base (l.map (fun x => (x, key))) (some (base a)) = [] := by
    intro l
    induction l with
    | nil => exact fun _ => rfl
    | cons x l ih =>
      intro hl
      rw [List.forall_mem_cons] at hl
      rw [List.map_cons, pageConflicts, if_pos (by rw [hl.1]), ih hl.2]
  obtain ⟨m, rfl⟩ := Nat.exists_eq_succ_of_ne_zero hn
  rw [addrs_succ, List.forall_mem_cons] at h
  rw [addrs_succ, List.map_cons, pageConflicts, if_neg (by simp), hsome _ h.2]

/-- The first record of a pair stays on its bytes; the second, of another source, is in conflict on all of them. -/
theorem commitRec_excl_pair {kindOf : Nat → PageKind} {s : State} {r1 r2 : Rec} (hgood : ∀ u, s.badUnit u = false) (haddr : r1.addr = r2.addr)
    (hlen : r1.data.length = r2.data.length) (hk : (kindOf r1.addr).cls = 0) (hsrc : srcOf r1.key ≠ srcOf r2.key) :
    ∃ t stays, [r1, r2].foldl (commitRec kindOf) (s, { stays := [], conflicts := [], bad := none }) =
        (t, { stays := stays, conflicts := (addrs r1.addr r1.data.length).map (fun x => (x, r2.key)), bad := none }) ∧
      GoodFrame s t ∧ (∀ a, rdByte t.mem a = rdByte (wrBytes s.mem (addrs r1.addr r1.data.length) r1.data) a) ∧
      ∀ a ∈ addrs r1.addr r1.data.length, tget 0 stays a = r1.key := by
  obtain ⟨hframe, hbytes⟩ := GoodFrame.writeRecord hgood r1 (addrs r1.addr r1.data.length) r1.data
  obtain ⟨hconf, hbad, hstays⟩ := exclFound_of_own (key := r1.key) (ws := r1.writes) (acc := { stays := [], conflicts := [], bad := none })
    fun _ _ _ h => by cases h
  have hone : commitRec kindOf (s, { stays := [], conflicts := [], bad := none }) r1 =
      ((s.readRecord r1).writeLocal 3 0xFFFF 0xFF 0 (addrs r1.addr r1.data.length) r1.data,
        exclFound { stays := [], conflicts := [], bad := none } r1.key r1.writes) := by
    rw [commitRec_excl rfl hgood hk, exclWrites_of_none (acc := { stays := [], conflicts := [], bad := none }) rfl, r1.writes_fst, r1.writes_snd]
  rw [r1.writes_fst] at hstays
  generalize exclFound { stays := [], conflicts := [], bad := none } r1.key r1.writes = acc at *
  generalize (s.readRecord r1).writeLocal 3 0xFFFF 0xFF 0 (addrs r1.addr r1.data.length) r1.data = s1 at *
  have hother : ∀ x ∈ addrs r2.addr r2.data.length, ∃ k0, tfind acc.stays x = some k0 ∧ srcOf k0 ≠ srcOf r2.key := fun x hx => by
    rw [← haddr, ← hlen] at hx
    exact ⟨r1.key, by rw [hstays, if_pos hx], hsrc⟩
  have hnone : exclWrites acc.stays r2.key r2.writes = [] := exclWrites_of_other fun x hx => hother x.1 (List.of_mem_zip hx).1
  have htwo : exclFound acc r2.key r2.writes = { acc with conflicts := acc.conflicts ++ (addrs r2.addr r2.data.length).map (fun x => (x, r2.key)) } :=
    exclFound_of_other r2.data (by simp [hconf]) hother
  obtain ⟨hread, hmem⟩ := GoodFrame.readRecord hframe.good r2
  refine ⟨s1.readRecord r2, acc.stays, ?_, hframe.trans hread, fun a => by rw [hmem, hbytes], fun a ha => ?_⟩
  · rw [List.foldl_cons, List.foldl_cons, List.foldl_nil, hone, commitRec_excl hbad hframe.good (haddr ▸ hk), hnone, htwo, hconf, hbad, haddr, hlen]
    rfl
  · rw [tget, hstays, if_pos ha]
    rfl

/-! ## A read that fails -/

/-- Where one unit alone is uncorrectable, and the record lies in it or writes a part of it, the record stops the commit. -/
theorem commitRec_stops {kindOf : Nat → PageKind} {s : State} {acc : CommitAcc} {r : Rec} {u : Nat} (hb : acc.bad = none)
    (hk : (kindOf r.addr).cls = 1) (hu : s.badUnit u = true) (hother : ∀ x, x ≠ u → s.badUnit x = false)
    (hin : (r.addr / 64 = u ∧ r.addr % 64 + r.data.length ≤ 64 ∧ 1 ≤ r.data.length ∧ r.data.length < 64) ∨ (∃ a ∈ s.apronBytes 0x211 r, a / 64 = u)) :
    commitRec kindOf (s, acc) r = (s, { acc with bad := some (64 * u) }) := by
  have honly : ∀ x, s.badUnit x = true → x = u := fun x hx => by
    by_contra hne
    rw [hother x hne] at hx
    cases hx
  have hstop : s.stopsRecord r (kindOf r.addr) acc = some u := by
    unfold State.stopsRecord
    cases hfind : (unitsOf (s.apronBytes 0x211 r)).find? s.badUnit with
    | some x =>
      rw [honly x (List.find?_some hfind)]
      rfl
    | none =>
      have hnone := List.find?_eq_none.1 hfind
      rcases hin with ⟨rfl, -, hlen1, hlen⟩ | ⟨a, ha, rfl⟩
      · show List.find? _ _ = some _
        rw [Rec.written, hk, if_neg (by decide), r.writes_fst]
        have hfirst : r.addr ∈ addrs r.addr r.data.length := (mem_addrs ..).2 ⟨Nat.le_refl _, by omega⟩
        have hcover : coversUnit (addrs r.addr r.data.length) (r.addr / 64) = false := by
          rw [coversUnit, List.all_eq_false]
          by_contra hall
          simp only [List.mem_range, List.contains_eq_mem, decide_eq_true_eq, not_exists, not_and, mem_addrs] at hall
          have h0 := hall 0 (by decide)
          have h63 := hall 63 (by decide)
          omega
        cases hf : (unitsOf (addrs r.addr r.data.length)).find? (fun x => s.badUnit x && (2 ≤ 1 || !coversUnit (addrs r.addr r.data.length) x)) with
        | some x =>
          have hx := List.find?_some hf
          rw [Bool.and_eq_true] at hx
          rw [honly x hx.1]
        | none => exact absurd (List.find?_eq_none.1 hf _ (mem_unitsOf hfirst)) (by simp [hu, hcover])
      · exact absurd hu (hnone _ (mem_unitsOf ha))
  rw [commitRec_eq hb, hstop]

end Sys2Proof.Machine
end

section
/-! TREE_COMMIT (O57; R128, R132, R133, R143, R389). -/

namespace Sys2Proof.Machine

/-! ## The end of a commit -/

/-- A state with other inbound records. -/
def State.withInbound (s : State) (l : List Rec) : State := { s with inbound := l }

/-- The committed package reports, and where a quiesce waits for it begins to save its tasks. -/
def State.commitEnd (s : State) : State :=
  let s2 := s.withBnd { s.bnd with phase := .committed, sentCmt := true }
  (if s2.disp.quiesce = .waitStep && s2.bnd.signalled then s2.beginSaving true else s2).report 4

theorem commitLocal_eq (s : State) : s.commitLocal =
    match s.toCommit.foldl (commitRec (fun la => (s.pageAt la).kind)) (s, { stays := [], conflicts := [], bad := none }) with
    | (z, acc) => match acc.bad with
      | some la => (z.withBnd { z.bnd with phase := .committing }).post 0x0013 3 0xFFFF [(0x18, s.paOf la)]
      | none => ((z.withInbound (z.inbound.filter (fun r => r.gen ≠ s.stepNum))).postConflicts (fun la => (s.pageAt la).base) acc).commitEnd := rfl

/-- A state with the tasks, dispatcher, boundary, agenda, fabric and counter of free choices of another. -/
def State.withCommitOf (t s : State) : State := { t.withReportsOf s with tasks := s.tasks, disp := s.disp }

theorem beginSaving_frame (s : State) (b : Bool) : SameUpTo State.withCommitOf s (s.beginSaving b) := by
  unfold State.beginSaving
  refine SameUpTo.trans (w := State.withCommitOf) (t := { s with disp := { s.disp with quiesce := .saving b } }) (fun _ _ _ => rfl) rfl
    (SameUpTo.foldl (w := State.withCommitOf) (fun _ _ _ => rfl) (fun _ => rfl) (fun a e => ?_) _ _)
  split <;> rfl

theorem beginSaving_bnd (s : State) (b : Bool) : (s.beginSaving b).bnd = s.bnd := by
  have hfold : ∀ (l : List (Nat × Task)) (a : State), (l.foldl (fun a e => match e.2.run with
      | .placed pg =>
        let sl := a.freeSaveSlot
        { a with disp := { a.disp with slots := a.disp.slots ++ sl.toList } }.putTask e.1 { e.2 with run := .draining pg false sl, since := a.disp.clock }
      | _ => a) a).bnd = a.bnd := by
    intro l
    induction l with
    | nil => exact fun _ => rfl
    | cons e l ih =>
      intro a
      rw [List.foldl_cons, ih]
      split <;> rfl
  exact hfold _ _

/-- What the end of a commit leaves. -/
theorem commitEnd_frame (s : State) : SameUpTo State.withCommitOf s s.commitEnd ∧ s.commitEnd.bnd.phase = .committed ∧
    s.commitEnd.bnd.sentCmt = true ∧ (s.disp.quiesce ≠ .waitStep → s.commitEnd.tasks = s.tasks) := by
  unfold State.commitEnd
  dsimp only
  obtain ⟨s2, hs2⟩ : ∃ x, x = s.withBnd { s.bnd with phase := .committed, sentCmt := true } := ⟨_, rfl⟩
  have hsave : ∀ a : State, SameUpTo State.withCommitOf a (a.report 4) := fun a =>
    (congrArg (fun x : State => x.withCommitOf a) (MessageFrame.report a 4).same :)
  have h2 : SameUpTo State.withCommitOf s s2 := by rw [hs2]; rfl
  rw [← hs2]
  by_cases hq : (s2.disp.quiesce = .waitStep && s2.bnd.signalled) = true
  · rw [if_pos hq, (MessageFrame.report (s2.beginSaving true) 4).bnd, beginSaving_bnd]
    refine ⟨SameUpTo.trans (w := State.withCommitOf) (fun _ _ _ => rfl)
      (SameUpTo.trans (w := State.withCommitOf) (fun _ _ _ => rfl) h2 (beginSaving_frame s2 true)) (hsave _), by rw [hs2]; rfl, by rw [hs2]; rfl, fun hne => ?_⟩
    rw [Bool.and_eq_true, decide_eq_true_eq, hs2] at hq
    exact absurd hq.1 hne
  · rw [if_neg hq, (MessageFrame.report s2 4).bnd, (MessageFrame.report s2 4).tasks]
    exact ⟨SameUpTo.trans (w := State.withCommitOf) (fun _ _ _ => rfl) h2 (hsave _), by rw [hs2]; rfl, by rw [hs2]; rfl, fun _ => by rw [hs2]; rfl⟩

/-! ## TREE_COMMIT -/

theorem exec_treeCommit {s : State} {p : Packet} (hr : s.receive p = (some s, s)) : exec (.treeCommit p) s =
    if s.current p && s.bnd.phase = .drained then .next (s.passDown 3).commitLocal else .next s := onPacket_of hr _

/-- The state that commits: the message passed on, the same records, memory and page tables. -/
structure CommitsFrom (s a : State) : Prop where
  frame : MessageFrame s a
  records : a.toCommit = sortRecs (s.inbound.filter (fun r => r.gen = s.stepNum))
  pageAt : ∀ la, a.pageAt la = s.pageAt la
  badUnit : ∀ u, a.badUnit u = s.badUnit u
  apronBytes : ∀ r, a.apronBytes 0x211 r = s.apronBytes 0x211 r

theorem treeCommit_commits {s : State} {p : Packet} (hr : s.receive p = (some s, s)) (hc : s.current p = true) (hph : s.bnd.phase = .drained) :
    ∃ a, CommitsFrom s a ∧ exec (.treeCommit p) s = .next a.commitLocal := by
  have hmsg := MessageFrame.passDown s 3
  exact ⟨_, ⟨hmsg, hmsg.same.field State.toCommit fun _ => rfl, fun la => hmsg.same.field (fun x => x.pageAt la) fun _ => rfl,
    fun u => hmsg.same.field (fun x => x.badUnit u) fun _ => rfl, fun r => hmsg.same.field (fun x => x.apronBytes 0x211 r) fun _ => rfl⟩, (exec_treeCommit hr).trans (if_pos (by simp [hc, hph]))⟩

section

variable {s a z : State} {acc : CommitAcc} (h : CommitsFrom s a)

include h

/-- A commit whose reads succeed. -/
theorem CommitsFrom.commitLocal_eq {l : List Rec} (hl : sortRecs (s.inbound.filter (fun r => r.gen = s.stepNum)) = l)
    (hz : l.foldl (commitRec (fun la => (s.pageAt la).kind)) (a, { stays := [], conflicts := [], bad := none }) = (z, acc)) (hbad : acc.bad = none) :
    a.commitLocal = ((z.withInbound (z.inbound.filter (fun r => r.gen ≠ s.stepNum))).postConflicts (fun la => (s.pageAt la).base) acc).commitEnd := by
  have hstep : a.stepNum = s.stepNum := h.frame.same.field State.stepNum fun _ => rfl
  rw [Machine.commitLocal_eq, h.records, hstep, hl]
  simp only [h.pageAt]
  rw [hz]
  dsimp only
  rw [hbad]

/-- A commit that finds no conflict. -/
theorem CommitsFrom.commitLocal_done {l : List Rec} (hl : sortRecs (s.inbound.filter (fun r => r.gen = s.stepNum)) = l)
    (hz : (l.foldl (commitRec (fun la => (s.pageAt la).kind)) (a, { stays := [], conflicts := [], bad := none })).1 = z)
    (hacc : (l.foldl (commitRec (fun la => (s.pageAt la).kind)) (a, { stays := [], conflicts := [], bad := none })).2 = acc)
    (hbad : acc.bad = none) (hconf : acc.conflicts = []) :
    a.commitLocal = (z.withInbound (z.inbound.filter (fun r => r.gen ≠ s.stepNum))).commitEnd := by
  rw [h.commitLocal_eq hl (Prod.ext hz hacc) hbad, State.postConflicts, hconf]
  rfl

/-- The records that a commit does not apply stay. -/
theorem CommitsFrom.inbound_done (hz : z.inbound = a.inbound) (r : Rec) :
    r ∈ (z.withInbound (z.inbound.filter (fun r => r.gen ≠ s.stepNum))).commitEnd.inbound ↔ r ∈ s.inbound ∧ r.gen ≠ s.stepNum := by
  rw [SameUpTo.field (commitEnd_frame _).1 State.inbound fun _ => rfl]
  show r ∈ z.inbound.filter _ ↔ _
  rw [hz, h.frame.inbound, List.mem_filter, decide_eq_true_iff]

end

/-- The end of a commit leaves memory as it is. -/
theorem mem_commitEnd (z : State) (l : List Rec) : (z.withInbound l).commitEnd.mem = z.mem :=
  SameUpTo.field (commitEnd_frame (z.withInbound l)).1 State.mem fun _ => rfl

section

variable {s : State} {p : Packet} (hr : s.receive p = (some s, s)) (hc : s.current p = true) (hph : s.bnd.phase = .drained)

include hr hc hph

/-- With no record of the closing step, the package has committed. -/
theorem treeCommit_none (hnone : s.inbound.filter (fun r => r.gen = s.stepNum) = []) (hq : s.disp.quiesce ≠ .waitStep) :
    ∃ t, exec (.treeCommit p) s = .next t ∧ t.bnd.phase = .committed ∧ t.bnd.sentCmt = true ∧ t.tasks = s.tasks ∧ SameMemory s t ∧ t.pregs = s.pregs := by
  obtain ⟨a, ha, hexec⟩ := treeCommit_commits hr hc hph
  rw [ha.commitLocal_done (l := []) (z := a) (by rw [hnone]; rfl) rfl rfl rfl rfl] at hexec
  obtain ⟨hsame, hphase, hsent, htasks⟩ := commitEnd_frame (a.withInbound (a.inbound.filter (fun r => r.gen ≠ s.stepNum)))
  have hquiesce : (a.withInbound (a.inbound.filter (fun r => r.gen ≠ s.stepNum))).disp.quiesce ≠ .waitStep := by
    show a.disp.quiesce ≠ _
    rw [ha.frame.disp]
    exact hq
  have hpregs : (a.withInbound (a.inbound.filter (fun r => r.gen ≠ s.stepNum))).commitEnd.pregs = a.pregs := SameUpTo.field hsame State.pregs fun _ => rfl
  have hmem : (a.withInbound (a.inbound.filter (fun r => r.gen ≠ s.stepNum))).commitEnd.mem = a.mem := mem_commitEnd a _
  have hhmem : (a.withInbound (a.inbound.filter (fun r => r.gen ≠ s.stepNum))).commitEnd.hmem = a.hmem := SameUpTo.field hsame State.hmem fun _ => rfl
  exact ⟨_, hexec, hphase, hsent, (htasks hquiesce).trans ha.frame.tasks, ⟨fun x => by rw [hmem, ha.frame.mem], fun x => by rw [hhmem, ha.frame.hmem]⟩,
    hpregs.trans ha.frame.pregs⟩

variable {mine : List Rec} (hmine : mine = s.inbound.filter (fun r => r.gen = s.stepNum)) (hgood : ∀ u, s.badUnit u = false)

include hmine hgood

/-- LAST records leave on each byte the data of the highest key (R130). -/
theorem treeCommit_last (hkeys : (mine.map (·.key)).Nodup) (hcls : ∀ r ∈ mine, (s.pageAt r.addr).kind.cls = 1) :
    ∃ t, exec (.treeCommit p) s = .next t ∧ t.bnd.phase = .committed ∧ (∀ r, r ∈ t.inbound ↔ r ∈ s.inbound ∧ r.gen ≠ s.stepNum) ∧
      ∀ a, ((∀ r ∈ mine, a < r.addr ∨ r.addr + r.data.length ≤ a) → rdByte t.mem a = rdByte s.mem a) ∧
        ∀ r ∈ mine, r.addr ≤ a → a < r.addr + r.data.length →
          (∀ x ∈ mine, x.addr ≤ a → a < x.addr + x.data.length → x.key.toNat ≤ r.key.toNat) → rdByte t.mem a = r.data.getD (a - r.addr) 0 := by
  obtain ⟨a, ha, hexec⟩ := treeCommit_commits hr hc hph
  have hmem : ∀ r, r ∈ sortRecs mine ↔ r ∈ mine := fun r => (perm_sortRecs mine).mem_iff
  obtain ⟨hframe, hacc, hbytes⟩ := foldl_commitRec_last (kindOf := fun la => (s.pageAt la).kind) (l := sortRecs mine) (s := a)
    (acc := { stays := [], conflicts := [], bad := none }) (fun r hr' => hcls r ((hmem r).1 hr')) rfl fun u => (ha.badUnit u).trans (hgood u)
  have hpair := pairwise_sortRecs hkeys
  rw [ha.commitLocal_done (hmine ▸ rfl) rfl hacc rfl rfl] at hexec
  generalize ((sortRecs mine).foldl (commitRec fun la => (s.pageAt la).kind) (a, { stays := [], conflicts := [], bad := none })).1 = z at *
  refine ⟨_, hexec, (commitEnd_frame _).2.1, ha.inbound_done hframe.inbound, fun b => ⟨fun hno => ?_, fun r hr' h1 h2 hmax => ?_⟩⟩
  · rw [mem_commitEnd, (hbytes b).1 fun r hr' hcov => ?_, ha.frame.mem]
    obtain ⟨h1, h2⟩ := hcov
    have := hno r ((hmem r).1 hr')
    omega
  · rw [mem_commitEnd]
    exact (hbytes b).2 hpair r ((hmem r).2 hr') ⟨h1, h2⟩ fun x hx hcov => hmax x ((hmem x).1 hx) hcov.1 hcov.2

/-- A merge class combines what was there with each record in key order (R132). -/
theorem treeCommit_merge (hkeys : (mine.map (·.key)).Nodup) {l : List Rec} {la cls mw n : Nat} {m : Nat → Nat → Nat} (hperm : l.Perm mine)
    (hsorted : l.Pairwise (fun x y => x.key.toNat < y.key.toNat)) (hkind : (s.pageAt la).kind = { cls := cls, mw := mw }) (hcls : 2 ≤ cls)
    (hn : n = 2 ^ mw) (hl : ∀ r ∈ l, r.addr = la ∧ r.data.length = n)
    (hm : ∀ v w, m v w % 2 ^ (8 * n) = mergeVal cls mw v w % 2 ^ (8 * n)) :
    ∃ t, exec (.treeCommit p) s = .next t ∧ t.bnd.phase = .committed ∧
      rdNat t.mem la n = l.foldl (fun v r => m v (leNat r.data) % 2 ^ (8 * n)) (rdNat s.mem la n) ∧
      ∀ a, a < la ∨ la + n ≤ a → rdByte t.mem a = rdByte s.mem a := by
  obtain ⟨a, ha, hexec⟩ := treeCommit_commits hr hc hph
  have hsort := sortRecs_eq_of_perm hperm hsorted hkeys
  subst hn
  obtain ⟨-, hacc, hval, hother⟩ := foldl_commitRec_merge (kindOf := fun la => (s.pageAt la).kind) (la := la) (l := l) (s := a)
    (acc := { stays := [], conflicts := [], bad := none }) hkind hcls hl rfl fun u => (ha.badUnit u).trans (hgood u)
  rw [ha.commitLocal_done (hmine ▸ hsort) rfl hacc rfl rfl] at hexec
  generalize (l.foldl (commitRec fun la => (s.pageAt la).kind) (a, { stays := [], conflicts := [], bad := none })).1 = z at *
  refine ⟨_, hexec, (commitEnd_frame _).2.1, ?_, fun b hb => ?_⟩
  · rw [mem_commitEnd, hval, ha.frame.mem]
    simp only [hm]
  · rw [mem_commitEnd, hother b hb, ha.frame.mem]

/-- Of two EXCL records of different sources the one of the lower key stays, with one conflict for the page (R133). -/
theorem treeCommit_excl (hkeys : (mine.map (·.key)).Nodup) {r1 r2 : Rec} (hpair : mine = [r1, r2] ∨ mine = [r2, r1]) (haddr : r1.addr = r2.addr)
    (hlen : r1.data.length = r2.data.length) (hne : r1.data ≠ [])
    (hpage : ∀ i, i < r1.data.length → (s.pageAt (r1.addr + i)).kind.cls = 0 ∧ (s.pageAt (r1.addr + i)).base = (s.pageAt r1.addr).base)
    (hlt : r1.key.toNat < r2.key.toNat) (hsrc : r1.key.toNat / 2 ^ 44 ≠ r2.key.toNat / 2 ^ 44) :
    ∃ t, exec (.treeCommit p) s = .next t ∧ t.bnd.phase = .committed ∧ rdBytes t.mem (addrs r1.addr r1.data.length) = r1.data ∧
      (∀ a, a < r1.addr ∨ r1.addr + r1.data.length ≤ a → rdByte t.mem a = rdByte s.mem a) ∧
      Posted s t 0x0010 0 0xFFFF [(0x18, s.rank * 2 ^ 40 + r1.addr), (0x20, r1.key.toNat), (0x28, r2.key.toNat), (0x30, 0)] := by
  obtain ⟨a, ha, hexec⟩ := treeCommit_commits hr hc hph
  have hlen0 : r1.data.length ≠ 0 := fun e => hne (List.length_eq_zero_iff.1 e)
  have hcls : (s.pageAt r1.addr).kind.cls = 0 := (hpage 0 (Nat.pos_of_ne_zero hlen0)).1
  have hsort : sortRecs mine = [r1, r2] := sortRecs_eq_of_perm (List.perm_comm.1 (List.perm_pair.2 hpair)) (by simpa using hlt) hkeys
  obtain ⟨z, stays, hz, hframe, hbytes, hstays⟩ := commitRec_excl_pair (kindOf := fun la => (s.pageAt la).kind) (s := a)
    (fun u => (ha.badUnit u).trans (hgood u)) haddr hlen hcls hsrc
  have hbase : ∀ x ∈ addrs r1.addr r1.data.length, (s.pageAt x).base = (s.pageAt r1.addr).base := fun x hx => by
    rw [mem_addrs] at hx
    have hp := (hpage (x - r1.addr) (by omega)).2
    rwa [Nat.add_sub_of_le hx.1] at hp
  have hfirst : tget 0 stays r1.addr = r1.key := hstays _ ((mem_addrs ..).2 ⟨Nat.le_refl _, by omega⟩)
  rw [ha.commitLocal_eq (hmine ▸ hsort) hz rfl] at hexec
  obtain ⟨b, hb⟩ : ∃ b, b = z.withInbound (z.inbound.filter (fun r => r.gen ≠ s.stepNum)) := ⟨_, rfl⟩
  have hregs : SameRegisters s b := fun n hn => by
    rw [hb]
    exact (hframe.registers n hn).trans (by rw [State.preg, ha.frame.pregs]; rfl)
  have hpost : b.postConflicts (fun la => (s.pageAt la).base)
      { stays := stays, conflicts := (addrs r1.addr r1.data.length).map (fun x => (x, r2.key)), bad := none } =
      b.post 0x0010 0 0xFFFF [(0x18, s.rank * 2 ^ 40 + r1.addr), (0x20, r1.key.toNat), (0x28, r2.key.toNat), (0x30, 0)] := by
    have hpa : b.paOf r1.addr = s.rank * 2 ^ 40 + r1.addr := by
      rw [State.paOf, State.rank, hregs _ (by decide)]
      rfl
    unfold State.postConflicts
    rw [pageConflicts_one hlen0 hbase]
    simp only [List.length_singleton, List.take_succ_cons, List.take_nil, List.foldl_cons, List.foldl_nil, hpa, hfirst]
  rw [← hb, hpost] at hexec
  have hposted := posted_post b 0x0010 0 0xFFFF [(0x18, s.rank * 2 ^ 40 + r1.addr), (0x20, r1.key.toNat), (0x28, r2.key.toNat), (0x30, 0)]
  have hpmem := (GrantFrame.post b 0x0010 0 0xFFFF [(0x18, s.rank * 2 ^ 40 + r1.addr), (0x20, r1.key.toNat), (0x28, r2.key.toNat), (0x30, 0)]).mem
  generalize b.post 0x0010 0 0xFFFF [(0x18, s.rank * 2 ^ 40 + r1.addr), (0x20, r1.key.toNat), (0x28, r2.key.toNat), (0x30, 0)] = c at *
  obtain ⟨hsame, hphase, -, -⟩ := commitEnd_frame c
  have hmem : ∀ x, rdByte c.commitEnd.mem x = rdByte (wrBytes s.mem (addrs r1.addr r1.data.length) r1.data) x := fun x => by
    rw [SameUpTo.field hsame State.mem fun _ => rfl, hpmem, hb, ← ha.frame.mem]
    exact hbytes x
  refine ⟨_, hexec, hphase, ?_, fun x hx => ?_, ?_⟩
  · exact (List.map_congr_left fun x _ => hmem x).trans (rdBytes_wrBytes s.mem r1.addr r1.data)
  · rw [hmem, rdByte_wrBytes_other]
    rw [mem_addrs]
    omega
  · refine Posted.of_after (Posted.of_before hregs ?_ ?_ hposted) (SameUpTo.field hsame State.pregs fun _ => rfl)
      (SameUpTo.field hsame State.host fun _ => rfl) (SameUpTo.field hsame State.hmem fun _ => rfl)
    · rw [hb]
      exact congrArg (·.evSeq) (hframe.host.trans ha.frame.host)
    · rw [hb]
      exact hframe.hmem.trans ha.frame.hmem

end

/-- A read that fails stops the commit (R143). -/
theorem treeCommit_stops {s : State} {p : Packet} (hr : s.receive p = (some s, s)) (hc : s.current p = true) (hph : s.bnd.phase = .drained)
    {r : Rec} {u : Nat} (hin : s.inbound = [r]) (hg : r.gen = s.stepNum) (hcls : (s.pageAt r.addr).kind.cls = 1)
    (hu : s.badUnit u = true) (hother : ∀ x, x ≠ u → s.badUnit x = false)
    (hwhere : (r.addr / 64 = u ∧ r.addr % 64 + r.data.length ≤ 64 ∧ 1 ≤ r.data.length ∧ r.data.length < 64) ∨ (∃ a ∈ s.apronBytes 0x211 r, a / 64 = u)) :
    ∃ t, exec (.treeCommit p) s = .next t ∧ t.bnd.phase = .committing ∧ t.bnd.sentCmt = s.bnd.sentCmt ∧ t.mem = s.mem ∧ t.inbound = [r] ∧
      Posted s t 0x0013 3 0xFFFF [(0x18, s.rank * 2 ^ 40 + 64 * u)] := by
  obtain ⟨a, ha, hexec⟩ := treeCommit_commits hr hc hph
  have hrecs : a.toCommit = [r] := by
    rw [ha.records, hin, List.filter_cons, if_pos (by simpa using hg)]
    rfl
  have hstop := commitRec_stops (kindOf := fun la => (s.pageAt la).kind) (s := a) (acc := { stays := [], conflicts := [], bad := none }) (r := r)
    (u := u) rfl hcls ((ha.badUnit u).trans hu) (fun x hx => (ha.badUnit x).trans (hother x hx)) (by rw [ha.apronBytes]; exact hwhere)
  have hrank : a.rank = s.rank := ha.frame.same.field State.rank fun _ => rfl
  have hcommit : a.commitLocal = (a.withBnd { a.bnd with phase := .committing }).post 0x0013 3 0xFFFF [(0x18, s.rank * 2 ^ 40 + 64 * u)] := by
    rw [commitLocal_eq, hrecs, List.foldl_cons, List.foldl_nil]
    simp only [ha.pageAt]
    rw [hstop]
    dsimp only
    rw [State.paOf, hrank]
  rw [hcommit] at hexec
  obtain ⟨b, hb⟩ : ∃ b, b = a.withBnd { a.bnd with phase := .committing } := ⟨_, rfl⟩
  rw [← hb] at hexec
  have hposted := posted_post b 0x0013 3 0xFFFF [(0x18, s.rank * 2 ^ 40 + 64 * u)]
  have hgrant := GrantFrame.post b 0x0013 3 0xFFFF [(0x18, s.rank * 2 ^ 40 + 64 * u)]
  have hunit := UnitFrame.post b 0x0013 3 0xFFFF [(0x18, s.rank * 2 ^ 40 + 64 * u)]
  refine ⟨_, hexec, by rw [hunit.bnd, hb]; rfl, ?_, hgrant.mem.trans ?_, hgrant.inbound.trans ?_, Posted.of_before (fun n _ => ?_) ?_ ?_ hposted⟩
  · rw [hunit.bnd, hb]
    exact (congrArg Boundary.sentCmt ha.frame.bnd :)
  · rw [hb]
    exact ha.frame.mem
  · rw [hb]
    exact ha.frame.inbound.trans hin
  · rw [hb]
    exact ha.frame.same.field (fun x => x.preg n) fun _ => rfl
  · rw [hb]
    exact congrArg (·.evSeq) ha.frame.host
  · rw [hb]
    exact ha.frame.hmem

/-! ## The boundary -/

/-- The merge of a class, as the statement writes it. -/
theorem mergeVal_of_legal {cls mw n : Nat} (hlegal : (cls, mw) ∈ legalClasses) (hcls : 2 ≤ cls) (hn : n = 2 ^ mw) {m : Nat → Nat → Nat}
    (hm : ∀ v w, m v w = if cls = 2 then v + w else if cls = 3 then (if mw = 1 then bf16 else if mw = 2 then fp32 else fp64).add .rne v w
      else if cls = 4 then (if signed (8 * n) v ≤ signed (8 * n) w then v else w)
      else if cls = 5 then (if signed (8 * n) w ≤ signed (8 * n) v then v else w)
      else if cls = 6 then (if mw = 2 then fp32 else fp64).fmax v w else v ||| w) (v w : Nat) :
    m v w % 2 ^ (8 * n) = mergeVal cls mw v w % 2 ^ (8 * n) := by
  subst hn
  rw [hm]
  have hmw : cls = 6 → mw ≠ 1 := by
    rintro rfl rfl
    simp [legalClasses] at hlegal
  have hle : cls ≤ 7 := by
    have h : ∀ x ∈ legalClasses, x.1 ≤ 7 := by decide
    exact h _ hlegal
  interval_cases cls
  · exact (Nat.mod_mod ..).symm
  · rfl
  · rfl
  · rfl
  · rw [if_neg (by decide), if_neg (by decide), if_neg (by decide), if_neg (by decide), if_pos rfl, mergeVal, mergeFmt, if_neg (hmw rfl)]
  · rfl

/-- Settles O57: each phase is its branch of the row; `DrainFrame` and `drain_of_*` give the drain, `foldl_commitRec_*` the commit in key order. -/
theorem boundariesDrainCommitAndRelease : Obligations.BoundariesDrainCommitAndRelease := by
  unfold Obligations.BoundariesDrainCommitAndRelease
  refine ⟨fun s p hr hc => ⟨fun h => treeDrain_refused hr (.inl h), fun h => ?_, fun h => ?_, fun _ h => treeDrain_refused hr (.inr h),
    fun hph hcut => ?_, fun hph hecc mine hmine hkeys => ?_, fun r u hph hin hg hcls hu hother hwhere =>
      treeCommit_stops hr hc hph hin hg hcls hu hother hwhere, fun hph hq => treeRel_releases hr hc hph hq⟩,
    fun s ph msg la hroot hon hlim hphase hla hmem hecc => watchdog_reports hroot hon hlim hphase hla hmem hecc, fun s h => watchdog_silent h⟩
  · rw [exec_treeCommit hr, if_neg (by simp [h])]
  · rw [exec_treeRel hr, if_neg (by simp [h])]
  · obtain ⟨t, hexec, htasks, hregs, hmem, hnone, hone⟩ := treeDrain_drains hr hc hph hcut
    refine ⟨t, hexec, htasks, hregs, hmem, hnone, fun r hout hg ha hs => ?_⟩
    obtain ⟨hown, hgone, hsend⟩ := hone r hout hg ha hs
    refine ⟨hown, hgone, fun h1 h2 h3 => ?_⟩
    obtain ⟨i1, i2, i3, i4⟩ := hsend h1 h2 h3
    refine ⟨i1, i2, i3, fun hpos => ?_⟩
    obtain ⟨j1, j2, j3⟩ := i4 hpos
    refine ⟨j1, j2, fun hgood => ?_⟩
    obtain ⟨x, hx, howner, hdrank, htype, hdata, hbody⟩ := j3 hgood
    exact ⟨x, hx, howner, hdrank, htype, hdata, by rw [hbody]; exact r.key_body, by rw [hbody]; exact r.addr_body,
      fun k1 k2 k3 => by rw [hbody]; exact Rec.length_body k1 k2 k3⟩
  · have hgood : ∀ u, s.badUnit u = false := fun u => badUnit_eq_false_iff.2 (.inr (hecc u))
    exact ⟨fun hnone hq => treeCommit_none hr hc hph (hmine ▸ hnone) hq, fun hcls => treeCommit_last hr hc hph hmine hgood hkeys hcls,
      fun l la cls mw n m hperm hsorted _ hkind hlegal hcls hn hl hm =>
        treeCommit_merge hr hc hph hmine hgood hkeys hperm hsorted hkind hcls hn hl (mergeVal_of_legal hlegal hcls hn hm),
      fun r1 r2 hpair haddr hlen hne hpage hlt hsrc => treeCommit_excl hr hc hph hmine hgood hkeys hpair haddr hlen hne hpage hlt hsrc⟩

end Sys2Proof.Machine
end
